-- ==== Sys2Proof/Word.lean ====
section
/-!
DEFINITION. The words of the UJ2208: bytes, 16-bit and 32-bit fields, station and unit numbers.
-/

namespace Sys2Proof

/-- A byte on the port, on the record bus or in flash. -/
abbrev Byte := BitVec 8

/-- A 16-bit field: generations, tags, lengths, checks. -/
abbrev Half := BitVec 16

/-- A 32-bit field: page seqs, mark seqs, stamps, release marks (0-18). -/
abbrev Word := BitVec 32

/-- A station number, 0 to 7 (0-16). -/
abbrev Station := Fin 8

/-- An array unit: unit 0 holds the even blocks, unit 1 the odd ones (R15). -/
abbrev UnitNo := Fin 2

end Sys2Proof
end

