-- ==== Sys2Proof/Config.lean ====
section
/-!
DEFINITION. The free values: what the manual leaves open. Each is a constant without a body, applied to the
model's counter `Env.fresh` and to an index, so that no proof can rest on a value of it.
-/

namespace Sys2Proof

/-- A byte of the array that the manual does not fix: a slot left by a failed program (R22), a part left by a
program or erase cut short (R22, R24) or by a failed erase (R24), a part programmed twice (R21), an
uncorrectable part as read (R18). First argument: the counter; second: the byte's place. Log 8 to 12. -/
opaque Config.freeByte : Nat → Nat → Byte

/-- A choice of the array that the manual does not fix: how far an erase had gone, which parts a failed erase
left as they were. First argument: the counter; second: which choice. Log 9, 10. -/
opaque Config.freeChoice : Nat → Nat → Nat

/-- A byte of a report block whose field is absent, so that the manual states no value (R175). First argument:
the counter; second: the byte's place. Log 31. -/
opaque Config.unstatedByte : Nat → Nat → Byte

end Sys2Proof
end

