-- ==== Sys2Proof/Syntax.lean ====
section
/-!
DEFINITION. The commands of the block: one constructor of `Instr` per row of spec/opcode_table.json, with what
the event of that row brings from outside (pin levels, bytes written, what the cells did, what the bus carried).
-/

namespace Sys2Proof

/-- How many bits read in error in each of the 12 parts of a page (R20): slots 0 to 7, the identity group, and
descriptor places 0 to 2. A header read looks at the last four alone (R19). -/
abbrev ReadReport := Vector Nat 12

/-- How the passes of a program ended (R21). -/
inductive ProgramReport where
  | pass (passes : Nat)
  | fail
  deriving DecidableEq, Repr

/-- How the passes of an erase ended (R24). -/
inductive EraseReport where
  | pass (passes : Nat)
  | fail
  deriving DecidableEq, Repr

/-- A frame as the receiver heard it (R75 to R77): the five bits of the arbitration field, class in the upper
two, source in the lower three, and the characters that followed. -/
structure Heard where
  arb   : BitVec 5
  chars : List Byte
  deriving DecidableEq, Repr

/-- The addressing field of a data frame (R80): an EXTENT's target mask or a COPY's target. -/
inductive Addressing where
  | extentMask (mask : Byte)
  | copyTarget (target : Byte)
  deriving DecidableEq, Repr

/-- The commands of the block, in the order of spec/opcode_table.json. -/
inductive Instr where
  /-- Power-on or RST# low (R56). -/
  | hardReset
  /-- RST# returns high; the levels of the straps: station number, CPY high (R56). -/
  | hardResetRelease (stn : Station) (cpyHigh : Bool)
  /-- PFW# falls (R71). -/
  | powerFailWarning
  /-- PFW# returns high (R73). -/
  | rejoin
  /-- The fourth argument byte of an APPEND is written (R163). -/
  | append (d : Byte)
  /-- A write cycle in the data phase (R163). -/
  | appendPayloadByte (d : Byte)
  /-- Command byte 22H is written (R164). -/
  | flush
  /-- The sixth argument byte of a READ is written (R167). -/
  | read (d : Byte)
  /-- The fifth argument byte of a SCAN is written (R168). -/
  | scan (d : Byte)
  /-- Command byte 33H is written (R169). -/
  | scanNext
  /-- The fourth argument byte of a RELEASE is written (R165). -/
  | release (d : Byte)
  /-- Selector byte 0 of a REPORT is written (R170). -/
  | reportStationSummary
  /-- Selector byte 1 of a REPORT is written (R170). -/
  | reportPeerTable
  /-- Selector byte 2 of a REPORT is written (R170). -/
  | reportAlertCauses
  /-- Selector byte 3 of a REPORT is written (R170). -/
  | reportExtentTable
  /-- The mask byte of an ALERT MASK is written (R171). -/
  | alertMask (d : Byte)
  /-- Command byte 5AH is written (R162). -/
  | status
  /-- Command byte 5FH is written (R172). -/
  | portReset
  /-- A command byte that is not in Table 10-1 is written (R159). -/
  | unknownCommand (code : Byte)
  /-- A write cycle in the argument phase (R159). -/
  | argumentByte (d : Byte)
  /-- A read cycle in the command phase (R162, R175). -/
  | statusLatchRead
  /-- A read cycle in the argument phase (R159). -/
  | resultBlockRead
  /-- A read cycle in the data phase (R167). -/
  | payloadRead
  /-- The arbiter of a unit acts (R27). -/
  | arbiterGrant (u : UnitNo)
  /-- A page read of a mark page by the mount completes (R58). -/
  | markLogReadDone (u : UnitNo) (r : ReadReport)
  /-- A header read of the mount completes (R60). -/
  | mountHeaderReadDone (u : UnitNo) (r : ReadReport)
  /-- A page read of a record page by the mount completes (R61). -/
  | mountPageReadDone (u : UnitNo) (r : ReadReport)
  /-- Every read of the scan has completed (R62). -/
  | mountResolve
  /-- A mark page program completes (R66). -/
  | markProgramDone (u : UnitNo) (r : ProgramReport)
  /-- A mark block erase completes (R67). -/
  | markEraseDone (u : UnitNo) (r : EraseReport)
  /-- A record block erase completes (R50). -/
  | recordEraseDone (u : UnitNo) (r : EraseReport)
  /-- A program of an own page completes (R114). -/
  | ownProgramDone (u : UnitNo) (r : ProgramReport)
  /-- A read-back of an own page completes (R118). -/
  | ownReadBackDone (u : UnitNo) (r : ReadReport)
  /-- A program of a replica intake frame completes (R135). -/
  | replicaProgramDone (u : UnitNo) (r : ProgramReport)
  /-- A relocation read-back of the replica intake completes (R137). -/
  | relocationReadBackDone (u : UnitNo) (r : ReadReport)
  /-- A relocation program of the replica intake completes (R136). -/
  | replicaRelocationDone (u : UnitNo) (r : ProgramReport)
  /-- A copy job's page read completes (R145). -/
  | copyReadDone (u : UnitNo) (r : ReadReport)
  /-- The page read of a READ completes (R167). -/
  | portReadDone (u : UnitNo) (r : ReadReport)
  /-- The first page read of a SCAN completes (R168). -/
  | scanReadDone (u : UnitNo) (r : ReadReport)
  /-- A prefetch read completes (R169). -/
  | prefetchReadDone (u : UnitNo) (r : ReadReport)
  /-- A read into an ABANDONED buffer completes (R166). -/
  | abandonedReadDone (u : UnitNo) (r : ReadReport)
  /-- The presence timer ticks (R91). -/
  | presenceTick
  /-- The missed count of a peer has reached a threshold (R94). -/
  | missedCountThreshold (p : Station)
  /-- The listening window ends (R69). -/
  | listeningWindowEnd
  /-- The answer timer of the Extent Table entry (seq, extent) expires (R119). -/
  | answerTimerExpiry (seq : Word) (extent : Fin 3)
  /-- The timer of the copy job in a slot expires (R148). -/
  | copyJobTimerExpiry (slot : Fin 2)
  /-- The recheck timer expires (R153). -/
  | recheckTimerExpiry
  /-- The station begins a frame at an idle bus (R85). -/
  | frameStart
  /-- The station loses arbitration (R77). -/
  | lostArbitration
  /-- The station hears a bit other than it sent (R89). -/
  | transmitFault
  /-- The consecutive fault count has reached 16 (R89). -/
  | faultCountLimit
  /-- The last stop bit of the station's frame has been sent (R85). -/
  | sentWhole
  /-- The addressing field of a data frame has been received (R80). -/
  | receiveBufferClaim (a : Addressing)
  /-- A frame is broken off (R79). -/
  | frameAbandoned
  /-- A PRESENCE frame arrives (R93). -/
  | presenceFrame (f : Heard)
  /-- An ANSWER frame arrives (R81). -/
  | answerFrame (f : Heard)
  /-- A HOLDINGS frame arrives (R156). -/
  | holdingsFrame (f : Heard)
  /-- An EXTENT frame arrives (R130). -/
  | extentFrame (f : Heard)
  /-- A COPY frame arrives (R132). -/
  | copyFrame (f : Heard)
  /-- A freed transmit queue entry goes to a held request (R86). -/
  | heldRequestMet
  /-- The own page an APPEND waits for opens (R107). -/
  | openOwnPage
  /-- A freed copy job slot is given out (R144). -/
  | copySlotGrant
  /-- The DEPARTURE walk at the head of the repair list takes a step (R151). -/
  | departureWalkStep
  /-- The RECHECK walk at the head of the repair list takes a step (R153). -/
  | recheckWalkStep
  /-- A command byte is written: one that needs arguments begins their collection, any other is taken at once (R159). -/
  | commandByte (code : Byte)
  /-- A complete frame arrives that fails the receiver's checks (R79). -/
  | frameFailsChecks (f : Heard)
  deriving DecidableEq, Repr

end Sys2Proof
end

