-- ==== Sys2Proof/WellFormed.lean ====
section
/-!
DEFINITION. Which terms of `Instr` spell an event that the part can meet: pass counts in their ranges (R21, R24),
command codes of the right kind (Table 10-1), frames no longer than the largest (R174).
-/

namespace Sys2Proof

/-- The command codes of Table 10-1 that collect arguments. -/
def argumentCodes : List Byte := [0x21#8, 0x31#8, 0x32#8, 0x41#8, 0x51#8, 0x52#8]

/-- The command codes of Table 10-1 that are taken at once. -/
def immediateCodes : List Byte := [0x22#8, 0x33#8, 0x5A#8, 0x5F#8]

/-- A code of Table 10-1. -/
def knownCode (code : Byte) : Bool := argumentCodes.contains code || immediateCodes.contains code

/-- PASS comes after 1 to 10 passes (R21). -/
def ProgramReport.wf : ProgramReport → Bool
  | .pass n => 1 ≤ n && n ≤ 10
  | .fail => true

/-- PASS comes after 1 to 5 passes (R24). -/
def EraseReport.wf : EraseReport → Bool
  | .pass n => 1 ≤ n && n ≤ 5
  | .fail => true

/-- Kind, length, the largest body (4124 bytes, R174) and the check. -/
def Heard.wf (f : Heard) : Bool := f.chars.length ≤ 3 + 4124 + 2

/-- The well-formed commands. -/
def Instr.wf : Instr → Bool
  | .unknownCommand code => !knownCode code
  | .commandByte _ => true
  | .markProgramDone _ r => r.wf
  | .ownProgramDone _ r => r.wf
  | .replicaProgramDone _ r => r.wf
  | .replicaRelocationDone _ r => r.wf
  | .markEraseDone _ r => r.wf
  | .recordEraseDone _ r => r.wf
  | .presenceFrame f => f.wf
  | .answerFrame f => f.wf
  | .holdingsFrame f => f.wf
  | .extentFrame f => f.wf
  | .copyFrame f => f.wf
  | .frameFailsChecks f => f.wf
  | .hardReset => true
  | .hardResetRelease _ _ => true
  | .powerFailWarning => true
  | .rejoin => true
  | .append _ => true
  | .appendPayloadByte _ => true
  | .flush => true
  | .read _ => true
  | .scan _ => true
  | .scanNext => true
  | .release _ => true
  | .reportStationSummary => true
  | .reportPeerTable => true
  | .reportAlertCauses => true
  | .reportExtentTable => true
  | .alertMask _ => true
  | .status => true
  | .portReset => true
  | .argumentByte _ => true
  | .statusLatchRead => true
  | .resultBlockRead => true
  | .payloadRead => true
  | .arbiterGrant _ => true
  | .markLogReadDone _ _ => true
  | .mountHeaderReadDone _ _ => true
  | .mountPageReadDone _ _ => true
  | .mountResolve => true
  | .ownReadBackDone _ _ => true
  | .relocationReadBackDone _ _ => true
  | .copyReadDone _ _ => true
  | .portReadDone _ _ => true
  | .scanReadDone _ _ => true
  | .prefetchReadDone _ _ => true
  | .abandonedReadDone _ _ => true
  | .presenceTick => true
  | .missedCountThreshold _ => true
  | .listeningWindowEnd => true
  | .answerTimerExpiry _ _ => true
  | .copyJobTimerExpiry _ => true
  | .recheckTimerExpiry => true
  | .frameStart => true
  | .lostArbitration => true
  | .transmitFault => true
  | .faultCountLimit => true
  | .sentWhole => true
  | .receiveBufferClaim _ => true
  | .frameAbandoned => true
  | .heldRequestMet => true
  | .openOwnPage => true
  | .copySlotGrant => true
  | .departureWalkStep => true
  | .recheckWalkStep => true

end Sys2Proof
end

