-- ==== Sys2Proof/Decode.lean ====
section
/-!
DEFINITION. The words of the table. spec/opcode_table.json gives no row any bits (98_reader.md: n_rows_with_fixed 0,
n_rows_unread 66), so no word spells a command.
-/

namespace Sys2Proof

/-- The command a word spells by the table's bits: none, since the table gives bits to no row. -/
def decodeTableWord (_nbits _w : Nat) : Option Instr := none

end Sys2Proof
end

