-- ==== Sys2Proof/Machine/State.lean ====
section
/-!
DEFINITION. The state of the station: everything the manual gives the part (INVENTORY.md, '## State'), the queue of
waiting commands, and the reset state of Table 4-1.

`State` keeps four things apart by type: the queue, the flash array, what only the board and the clock change
(`Env`), and the controller (`Ctl`). A meaning that is a function on `Ctl` cannot touch the others.
-/

namespace Sys2Proof.Machine

/-! ## Pins, straps and clock -/

/-- The pins, the straps as sampled, the station clock, and the model's counter behind the free values. -/
structure Env where
  /-- RST# is low: every block is held stopped (R56). -/
  rstLow : Bool
  /-- PFW# is low (R71). -/
  pfwLow : Bool
  /-- The station number held since the last release of reset (R56). -/
  me     : Station
  /-- COPIES, 2 or 3, held since the last release of reset (R56). -/
  copies : Nat
  /-- The station clock in ms, modulo 2^32 (R56). -/
  clock  : Word
  /-- The model's own counter: the free values of Config are taken at it (log 8). -/
  fresh  : Nat
  deriving DecidableEq, Repr

/-! ## Memory -/

/-- A sparse memory: address and byte pairs in canonical form. Used for the flash array (unlisted FFH) and for
the SRAM buffers (unlisted 00H). -/
abbrev Memory := List Host.Cell

/-- A place in the array, (block, page) (R15). -/
structure PageAddr where
  block : Nat
  page  : Nat
  deriving DecidableEq, Repr

/-- The flash array: its bytes, the parts whose correction bytes are written (R16), and how many bits of a part have been
found to read in error, 0 where it is not listed (R20; log 58). A part is numbered page number * 12 + part, parts 0 to 7
the slots, 8 the identity group, 9 to 11 the descriptor places. -/
structure Flash where
  cells : Memory
  parts : List Nat
  worn  : List (Nat × Nat) := []
  deriving DecidableEq, Repr

/-! ## Pages, extents and frames -/

/-- A page identity (origin, page seq) (R5). -/
structure PageId where
  origin : Station
  seq    : Word
  deriving DecidableEq, Repr

/-- The fields of an extent (R7). -/
structure ExtentInfo where
  number  : Nat
  first   : Nat
  count   : Nat
  records : Nat
  starts  : Byte
  closing : Bool
  deriving DecidableEq, Repr

/-- PRESENCE body (Table 11-6). -/
structure PresenceBody where
  code   : Byte
  flags  : Byte
  copies : Byte
  gen    : Half
  mark   : Word
  pool   : Half
  mask   : Byte
  deriving DecidableEq, Repr

/-- ANSWER body (Table 11-9). -/
structure AnswerBody where
  addressee : Byte
  origin    : Byte
  seq       : Word
  ext       : Byte
  flags     : Byte
  verdict   : Byte
  aux       : Byte
  deriving DecidableEq, Repr

/-- One entry of a HOLDINGS frame (Table 11-10). -/
inductive HoldItem where
  | run  (seq : Word) (count : Half)
  | page (seq : Word) (depth : Byte) (flags : Byte)
  deriving DecidableEq, Repr

/-- HOLDINGS body (Table 11-10). -/
structure HoldingsBody where
  series : Byte
  origin : Byte
  index  : Half
  flags  : Byte
  items  : List HoldItem
  deriving DecidableEq, Repr

/-- EXTENT body (Table 11-7). -/
structure ExtentBody where
  seq     : Word
  ext     : Byte
  mask    : Byte
  flags   : Byte
  first   : Byte
  count   : Byte
  records : Byte
  starts  : Byte
  depths  : Half
  data    : List Byte
  deriving DecidableEq, Repr

/-- A descriptor as a COPY frame carries it (Table 11-8). -/
structure DescBody where
  number  : Byte
  first   : Byte
  count   : Byte
  records : Byte
  starts  : Byte
  flags   : Byte
  deriving DecidableEq, Repr

/-- COPY body (Table 11-8); the extent count n is the number of descriptors. -/
structure CopyBody where
  origin : Byte
  seq    : Word
  target : Byte
  flags  : Byte
  descs  : List DescBody
  depths : Half
  data   : List Byte
  deriving DecidableEq, Repr

/-- A frame by its kind (Table 5-1). -/
inductive Frame where
  | presence (b : PresenceBody)
  | answer   (b : AnswerBody)
  | holdings (b : HoldingsBody)
  | extent   (b : ExtentBody)
  | copy     (b : CopyBody)
  deriving DecidableEq, Repr

/-! ## Array requests -/

/-- Where a program takes its slot bytes at its grant (R17). -/
inductive SlotSource where
  | fill (b : Fin 2)
  | rx (b : Fin 4)
  | markPage
  deriving DecidableEq, Repr

/-- What a program writes (R21): a run of slots, descriptor places with their 16 bytes, and the identity group. -/
structure ProgramReq where
  page     : PageAddr
  first    : Nat
  count    : Nat
  identity : Option (List Byte)
  descs    : List (Nat × List Byte)
  source   : SlotSource
  deriving DecidableEq, Repr

/-- An array operation (R25). -/
inductive ArrayOp where
  | pageRead (p : PageAddr)
  | headerRead (p : PageAddr)
  | program (p : ProgramReq)
  | erase (block : Nat)
  deriving DecidableEq, Repr

/-- Who made a request, with what it needs to take the result (Table 2-4). -/
inductive Requester where
  /-- The mount's page read of a mark page. -/
  | mountMark
  /-- The mount's header read of a record page. -/
  | mountHeader
  /-- The mount's page read of a record page. -/
  | mountPage
  /-- A port read of page `id` into read pair buffer `b`. -/
  | port (b : Fin 2) (id : PageId)
  /-- A program of own page `seq`, after which the copy holds `n` extents; `moved` when it is a relocation or
  a restore into a new page. -/
  | own (seq : Word) (moved : Bool) (n : Nat)
  /-- A mark page program. -/
  | mark
  /-- A program of the frame in receive buffer `b`. -/
  | replica (b : Fin 4)
  /-- A relocation read-back for receive buffer `b`. -/
  | replicaReadBack (b : Fin 4)
  /-- A relocation program from receive buffer `b`. -/
  | replicaReloc (b : Fin 4)
  /-- The read of the copy job in `slot`. -/
  | copyJob (slot : Fin 2)
  /-- A read-back of own page `seq` for retransmission. -/
  | ownReadBack (seq : Word)
  /-- An erase of a record block. -/
  | recordErase
  /-- An erase of a mark block. -/
  | markErase
  deriving DecidableEq, Repr

/-- A request (R25). `emergency` marks a program of the emergency flush (R71); `stale` a request whose page was DEAD in a
block that has since been erased (R31, R49). -/
structure Request where
  who       : Requester
  op        : ArrayOp
  emergency : Bool
  stale     : Bool := false
  deriving DecidableEq, Repr

/-- An operation in progress: the request, and the slot bytes a program took at its grant (R17). -/
structure Busy where
  req  : Request
  data : List Byte
  deriving DecidableEq, Repr

/-- An array unit with its queue and its arbiter's favour count (R17, R26, R28). -/
structure UnitState where
  busy   : Option Busy
  queue  : List Request
  favour : Nat
  deriving DecidableEq, Repr

/-- A request completed at its grant: NOT-HELD (R29), or a program refused with FAIL (R23). -/
structure Completion where
  req     : Request
  refused : Bool
  deriving DecidableEq, Repr

/-! ## Block table -/

/-- Block states (Table 3-3). -/
inductive BlockState where
  | free | openOwn | openReplica | filled | retired | erasing | bad | mark
  deriving DecidableEq, Repr

/-- A page of a block that is not ERASED: LIVE or DEAD, with its program count (R43). -/
structure PageInfo where
  page  : Nat
  live  : Bool
  count : Nat
  deriving DecidableEq, Repr

/-- A block table entry (R42, R43). Pages not listed are ERASED with program count 0. -/
structure Block where
  num   : Nat
  state : BlockState
  next  : Nat
  pages : List PageInfo
  deriving DecidableEq, Repr

/-! ## Directory -/

/-- ROLE of an entry (Table 3-1). -/
inductive Role where
  | own | replica
  deriving DecidableEq, Repr

/-- A directory entry (Table 3-1). `copyEnd` is the END SLOT of the local copy (R128). -/
structure Entry where
  id         : PageId
  role       : Role
  localPage  : Option PageAddr
  relocPage  : Option PageAddr
  pendingExt : Option Nat
  known      : Nat
  used       : Nat
  closed     : Bool
  depths     : Vector Nat 8
  targets    : List Station
  extra      : Option Station
  excluded   : Byte
  under      : Bool
  copyEnd    : Nat
  deriving DecidableEq, Repr

/-! ## Mark log -/

/-- The three values a mark page records (R65). -/
structure MarkVals where
  gen     : Half
  release : Word
  ceiling : Word
  deriving DecidableEq, Repr

/-- The write in progress (R65); `erasing` while it waits for the other mark block's erase (R67). -/
structure MarkWrite where
  vals    : MarkVals
  seq     : Word
  erasing : Bool
  deriving DecidableEq, Repr

/-- The mark log (R65). -/
structure MarkLog where
  recorded    : MarkVals
  recordedSeq : Word
  wanted      : MarkVals
  write       : Option MarkWrite
  active      : Option (Fin 2)
  next        : Nat
  failures    : Nat
  frozenOwed  : Bool
  deriving DecidableEq, Repr

/-- The confirmed frontier (R64, R125): none, an extent of a page, or the whole of page M (CLOSING). -/
inductive Frontier where
  | none
  | extent (seq : Word) (ext : Nat)
  | closing (seq : Word)
  deriving DecidableEq, Repr

/-! ## Mount scan -/

/-- The newest valid mark page found so far (R58). -/
structure FoundMark where
  seq   : Word
  block : Fin 2
  vals  : MarkVals
  deriving DecidableEq, Repr

/-- A copy found by the scan (R61); `remoteOnly` for the candidate of a DAMAGED own copy. -/
structure FoundCopy where
  page       : PageAddr
  id         : PageId
  n          : Nat
  closed     : Bool
  used       : Nat
  holders    : Byte
  remoteOnly : Bool
  deriving DecidableEq, Repr

/-- How far the scan of one block has come (R60, R61). -/
inductive ScanPhase where
  /-- Page 0's header is being read. -/
  | first
  /-- Page 0 read ERASED; page 127's header is being read. -/
  | last
  /-- Pages 0 and 127 read ERASED; the header of page `p` is being read; `clean` while all before read ERASED. -/
  | empty (p : Nat) (clean : Bool)
  /-- An allocated block: the header of page `p` is being read; the programmed pages found, with their counts. -/
  | headers (p : Nat) (found : List PageInfo)
  /-- The pages of an allocated block are being page-read; those still to read, and those read. -/
  | pages (todo : List PageInfo) (done : List PageInfo)
  deriving DecidableEq, Repr

/-- The block a unit is scanning. -/
structure BlockScan where
  block : Nat
  phase : ScanPhase
  deriving DecidableEq, Repr

/-- The mount scan (R57): stage 1 until all 256 mark pages are read, then the blocks of each unit. -/
structure Mount where
  marksRead : Nat
  newest    : Option FoundMark
  ends      : Vector Nat 2
  started   : Bool
  scans     : Vector (Option BlockScan) 2
  copies    : List FoundCopy
  erased    : List Nat
  deriving DecidableEq, Repr

/-! ## Own extents -/

/-- A fill buffer's page (R106): its bytes, the slots and records placed, the extents formed. `failed` once its
relocation has been refused (R116); `urgent` is the extent that the emergency flush has formed (R71). -/
structure FillPage where
  seq     : Word
  bytes   : Memory
  used    : Nat
  starts  : Byte
  records : Nat
  extents : List ExtentInfo
  failed  : Bool
  urgent  : Option Nat := none
  deriving DecidableEq, Repr

/-- LOCAL PROGRAM (Table 7-1). -/
inductive LocalProg where
  | pending | programmed | failed
  deriving DecidableEq, Repr

/-- State of a target record (R113). -/
inductive RecState where
  | awaiting | awaitingCopy | done | dropped | sourceless
  deriving DecidableEq, Repr

/-- A target record (R113). -/
structure TargetRec where
  station  : Station
  state    : RecState
  attempts : Nat
  deriving DecidableEq, Repr

/-- A place of an entry, assigned or extra; `rec` none when EMPTY (R113). -/
structure Place where
  extra  : Bool
  target : Option TargetRec
  deriving DecidableEq, Repr

/-- SETTLED MARK (Table 7-1). -/
inductive Settled where
  | none | durable | released
  deriving DecidableEq, Repr

/-- An Extent Table entry (Table 7-1). `timer` is the ms left, none when stopped; `firstSent` once the extent
has finished its first transmission (R106). -/
structure ETEntry where
  seq       : Word
  ext       : Nat
  first     : Nat
  count     : Nat
  prog      : LocalProg
  places    : List Place
  timer     : Option Nat
  settled   : Settled
  firstSent : Bool
  deriving DecidableEq, Repr

/-- Transmissions of one extent kept back, owed or waiting for a read-back (R118). -/
structure Wanted where
  seq  : Word
  ext  : Nat
  mask : Byte
  deriving DecidableEq, Repr

/-- The read-back buffer of the own-extent engine (R118). -/
structure ReadBack where
  page    : Option Word
  reading : Bool
  image   : Memory
  wants   : List Wanted
  deriving DecidableEq, Repr

/-! ## Replica intake -/

/-- A data frame in a receive buffer. -/
inductive DataFrame where
  | extent (b : ExtentBody)
  | copy (b : CopyBody)
  deriving DecidableEq, Repr

/-- Phases of an occupied buffer (R127); JUDGING lasts within one event. -/
inductive RxPhase where
  | judging | deferred | programming | readingBack | relocating
  deriving DecidableEq, Repr

/-- An occupied receive buffer (R127): the frame, its source, its order of arrival, the page image (slot bytes at
their slot numbers), and the descriptors that a read-back has added, places 0 upward. -/
structure RxHeld where
  src   : Station
  frame : DataFrame
  order : Nat
  phase : RxPhase
  image : Memory
  back  : List (List Byte)
  deriving DecidableEq, Repr

/-- A receive buffer: FREE, being written as a frame arrives (R80), or occupied. -/
inductive RxBuf where
  | free
  | claimed
  | held (h : RxHeld)
  deriving DecidableEq, Repr

/-! ## Record bus -/

/-- Source of an EXTENT's slot data (R83, R118). -/
inductive ExtSource where
  | fill (b : Fin 2)
  | readBack
  deriving DecidableEq, Repr

/-- What a transmit queue entry sends (R83). -/
inductive TxBody where
  | presence (b : PresenceBody)
  | answer (b : AnswerBody)
  | holdings (b : HoldingsBody)
  | extent (seq : Word) (info : ExtentInfo) (mask : Byte) (source : ExtSource)
  | copy (id : PageId) (target : Station) (slot : Fin 2)
  deriving DecidableEq, Repr

/-- A transmit queue entry (R83, R86, R87). -/
structure TxEntry where
  num       : Nat
  sending   : Bool
  renewed   : Bool
  withdrawn : Bool
  body      : TxBody
  deriving DecidableEq, Repr

/-- The frame being sent: the entry it belongs to and its bits and characters, fixed at the start (R85). -/
structure OnAir where
  num   : Nat
  frame : Heard
  deriving DecidableEq, Repr

/-- The transmit queue (R83), the held requests in the order held (R86), and the transmitter. -/
structure Tx where
  entries : List TxEntry
  nextNum : Nat
  held    : List TxBody
  onAir   : Option OnAir
  faults  : Nat
  deriving DecidableEq, Repr

/-! ## Membership -/

/-- Peer states (Table 6-1). -/
inductive PeerState where
  | absent | present | silent | departed | incompatible
  deriving DecidableEq, Repr

/-- State codes a PRESENCE carries (Table 11-6). -/
inductive StateCode where
  | listening | active | frozen | leaving
  deriving DecidableEq, Repr

/-- REPORT-RECEIVED STATE (R157): series number, group and index expected next, INTACT. -/
structure SeriesState where
  series : Byte
  group  : Nat
  index  : Nat
  intact : Bool
  deriving DecidableEq, Repr

/-- A peer table entry (Table 6-1). -/
structure Peer where
  state      : PeerState
  gen        : Option Half
  missed     : Nat
  code       : Option StateCode
  pool       : Half
  full       : Bool
  mark       : Word
  reportReq  : Bool
  received   : Option SeriesState
  deriving DecidableEq, Repr

/-! ## Copy engine, repair list, holdings -/

/-- PURPOSE of a copy job (Table 9-1). -/
inductive Purpose where
  | catchUp | repair
  deriving DecidableEq, Repr

/-- STATE of a copy job (Table 9-1). -/
inductive JobState where
  | reading | queued | awaiting
  deriving DecidableEq, Repr

/-- A copy job (Table 9-1); `owed` while its COPY is kept back behind a held one (R146). -/
structure Job where
  purpose   : Purpose
  page      : PageId
  target    : Station
  n         : Option Nat
  closed    : Bool
  state     : JobState
  attempts  : Nat
  timer     : Option Nat
  cancelled : Bool
  owed      : Bool
  image     : Memory
  deriving DecidableEq, Repr

/-- A waiting catch-up request (R144). -/
structure CatchUp where
  seq    : Word
  target : Station
  deriving DecidableEq, Repr

/-- A task of the repair list (R150). -/
inductive TaskKind where
  | departure (p : Station)
  | recheck (begun : Bool) (again : Bool)
  deriving DecidableEq, Repr

/-- A task with its cursor (a directory key) and whether its walk waits for a job slot (R152). -/
structure Task where
  kind    : TaskKind
  cursor  : Nat
  waiting : Bool
  deriving DecidableEq, Repr

/-- A holdings series in progress (R154): number, group, cursor in the group, index of the next frame, and the
marks of the frame last formed. -/
structure Series where
  num        : Byte
  group      : Nat
  cursor     : Nat
  index      : Nat
  lastOrigin : Bool
  lastSeries : Bool
  deriving DecidableEq, Repr

/-- The holdings generator (R154). -/
structure HoldGen where
  series  : Option Series
  pending : Bool
  endedAt : Option Word
  lastNum : Byte
  deriving DecidableEq, Repr

/-! ## Local port -/

/-- Commands that collect arguments (Table 10-1). -/
inductive ArgCmd where
  | append | read | scan | release | report | alertMask
  deriving DecidableEq, Repr

/-- An accepted APPEND (R108): header fields of R1, the Extent Table entries still reserved. -/
structure AppendCmd where
  tag      : Half
  length   : Nat
  gen      : Half
  stamp    : Word
  slots    : Nat
  reserved : Nat
  deriving DecidableEq, Repr

/-- What the port is doing (R159, R160). -/
inductive Activity where
  /-- No command in progress. -/
  | idle
  /-- A command collects arguments (R159). -/
  | collecting (cmd : ArgCmd) (args : List Byte)
  /-- An APPEND waits for its page to open (R107). -/
  | appendOpening (a : AppendCmd)
  /-- An APPEND's data phase is open; payload bytes taken (R163). -/
  | appendData (a : AppendCmd) (got : Nat)
  /-- A FLUSH waits for its extent's program (R164). -/
  | flushWait (seq : Word) (ext : Nat)
  /-- A RELEASE waits for its mark page (R165). -/
  | releaseWait (m : Word)
  /-- A READ waits for a read pair buffer (R166). -/
  | readBufWait (id : PageId) (slot : Nat)
  /-- A READ waits for its page read (R167). -/
  | readWait (b : Fin 2) (slot : Nat)
  /-- A SCAN waits for a read pair buffer (R166). -/
  | scanBufWait
  /-- A SCAN waits for its page read (R168). -/
  | scanWait (b : Fin 2)
  /-- A SCAN NEXT waits for the buffer that has become current (R169). -/
  | scanNextWait
  /-- A PORT RESET waits for a buffer (R172). -/
  | resetWait
  deriving DecidableEq, Repr

/-- Payload left to read in the data phase (R167): the buffer, the record's first slot, length, bytes delivered. -/
structure Payload where
  buf    : Fin 2
  slot   : Nat
  length : Nat
  pos    : Nat
  deriving DecidableEq, Repr

/-- The port (R159 to R162, R175). -/
structure Port where
  act        : Activity
  result     : List Byte
  resultPos  : Nat
  lastResult : Byte
  latchByte  : Byte
  latchLast  : Byte
  latchTurn  : Bool
  overrun    : Bool
  payload    : Option Payload
  dOut       : Byte
  deriving DecidableEq, Repr

/-- A read pair buffer (R166). -/
inductive PairBuf where
  | empty
  | loading (id : PageId) (h : Nat)
  | loaded (id : PageId) (h : Nat) (image : Memory) (corrected : Nat)
  | damaged (id : PageId)
  | ended
  | abandoned (id : PageId) (h : Nat)
  deriving DecidableEq, Repr

/-- A scan (R168): origin, walk cursor, the current buffer (the other is the prefetch buffer), and the slot of
the next record, none when FINISHED. -/
structure Scan where
  origin   : Station
  cursor   : Nat
  current  : Fin 2
  position : Option Nat
  deriving DecidableEq, Repr

/-- The alert set, cause bits as in Table 11-11 (R171). -/
structure AlertSet where
  pending : Byte
  enabled : Byte
  deriving DecidableEq, Repr

/-! ## The controller -/

/-- Station states (Section 4). -/
inductive StationState where
  | mounting | listening | active | frozen | leaving | isolated
  deriving DecidableEq, Repr

/-- The controller: every volatile piece of state but the pins and the clock. -/
structure Ctl where
  station     : StationState
  /-- ms left of the listening window (R69). -/
  window      : Option Nat
  /-- No full listening window has ended since the mount (R100). -/
  firstWindow : Bool
  /-- ms since the presence timer's last tick fell due, none while it is stopped (R91). -/
  presence    : Option Nat
  /-- The generation in use (R59, R73). -/
  gen         : Half
  /-- The own release mark (R51). -/
  ownMark     : Word
  /-- The next page seq, none when there is none (R59, R68). -/
  nextSeq     : Option Word
  frontier    : Frontier
  mark        : MarkLog
  mount       : Mount
  units       : Vector UnitState 2
  completed   : List Completion
  blocks      : List Block
  pool        : List Nat
  dir         : List Entry
  fill        : Vector (Option FillPage) 2
  et          : List ETEntry
  owed        : List Wanted
  readBack    : ReadBack
  rx          : Vector RxBuf 4
  /-- The order of arrival given to the next data frame kept. -/
  rxNext      : Nat
  tx          : Tx
  peers       : Vector Peer 8
  jobs        : Vector (Option Job) 2
  catchUps    : List CatchUp
  repair      : List Task
  /-- ms left of the recheck timer (R153). -/
  recheck     : Option Nat
  holdings    : HoldGen
  port        : Port
  pair        : Vector PairBuf 2
  scan        : Option Scan
  alerts      : AlertSet
  deriving DecidableEq, Repr

/-- The station with the commands that wait for it, first in, first out. -/
structure State where
  pending : List Instr
  env     : Env
  flash   : Flash
  ctl     : Ctl
  deriving DecidableEq, Repr

/-- Reasons to stop with a fault: none. The manual gives every error a result code, a verdict or a state. -/
inductive Fault : Type
  deriving DecidableEq, Repr

/-- Reasons to refuse a command. -/
inductive Refusal where
  /-- A command whose meaning is not written yet; raised by an arm of `exec` (safe). No arm uses it. -/
  | notModelled (mnemonic : String)
  deriving DecidableEq, Repr

/-! ## Reset -/

/-- An idle array unit (R32). -/
def UnitState.reset : UnitState := { busy := none, queue := [], favour := 0 }

/-- A peer after a hard reset (Table 6-1). -/
def Peer.reset : Peer :=
  { state := .absent, gen := none, missed := 0, code := none, pool := 0, full := false, mark := 0,
    reportReq := false, received := none }

/-- Mark values before any mark is read (log 3; R170 reports them as 0). -/
def MarkVals.reset : MarkVals := { gen := 0, release := 0, ceiling := 0 }

/-- The mark log after a hard reset (Table 4-1). -/
def MarkLog.reset : MarkLog :=
  { recorded := MarkVals.reset, recordedSeq := 0, wanted := MarkVals.reset, write := none, active := none,
    next := 0, failures := 0, frozenOwed := false }

/-- A mount scan that has read nothing (R57). -/
def Mount.reset : Mount :=
  { marksRead := 0, newest := none, ends := #v[0, 0], started := false, scans := #v[none, none], copies := [],
    erased := [] }

/-- The port after a hard reset (R158, R162): no command, LAST RESULT OK, READY clear. -/
def Port.reset : Port :=
  { act := .idle, result := [], resultPos := 0, lastResult := 0, latchByte := 0, latchLast := 0,
    latchTurn := false, overrun := false, payload := none, dOut := 0 }

/-- The controller after a hard reset, before the mount scan (Table 4-1). -/
def Ctl.reset : Ctl :=
  { station := .mounting, window := none, firstWindow := true, presence := none, gen := 0, ownMark := 0,
    nextSeq := none, frontier := .none, mark := MarkLog.reset, mount := Mount.reset,
    units := #v[UnitState.reset, UnitState.reset], completed := [], blocks := [], pool := [], dir := [],
    fill := #v[none, none], et := [], owed := [],
    readBack := { page := none, reading := false, image := [], wants := [] },
    rx := #v[.free, .free, .free, .free], rxNext := 0,
    tx := { entries := [], nextNum := 0, held := [], onAir := none, faults := 0 },
    peers := #v[Peer.reset, Peer.reset, Peer.reset, Peer.reset, Peer.reset, Peer.reset, Peer.reset, Peer.reset],
    jobs := #v[none, none], catchUps := [], repair := [], recheck := none,
    holdings := { series := none, pending := false, endedAt := none, lastNum := 0 },
    port := Port.reset, pair := #v[.empty, .empty], scan := none,
    alerts := { pending := 0, enabled := 0x18#8 } }

/-- The pins and the clock while RST# is low: PFW# high, straps not yet sampled (log 3), clock 0 (R56). -/
def Env.reset : Env := { rstLow := true, pfwLow := false, me := 0, copies := 2, clock := 0, fresh := 0 }

/-- The array as shipped: everything ERASED, no block marked bad (log 4). -/
def Flash.blank : Flash := { cells := [], parts := [] }

/-- The station right after a hard reset, RST# still low (R56, Table 4-1), no command waiting. -/
def State.reset : State := { pending := [], env := Env.reset, flash := Flash.blank, ctl := Ctl.reset }

end Sys2Proof.Machine
end

