-- ==== Sys2Proof/Machine/Ops.lean ====
section
/-!
DEFINITION. The named operations: station sets, byte fields, the CRC, sparse memories, the flash array's parts, and
what a read, a program and an erase of the array do to it (Section 2).
-/

namespace Sys2Proof.Machine

/-! ## Fixed collections -/

/-- A vector with one place replaced. -/
def vput {α : Type} {n : Nat} (v : Vector α n) (i : Fin n) (x : α) : Vector α n := v.set i.1 x i.2

/-- Every place of a vector changed. -/
def vmap {α β : Type} {n : Nat} (f : α → β) (v : Vector α n) : Vector β n := Vector.ofFn (fun i => f (v.get i))

/-- The stations in ascending order. -/
def allStations : List Station := [0, 1, 2, 3, 4, 5, 6, 7]

/-- Cyclic order after `s` (0-16). -/
def cyclicAfter (s : Station) : List Station := [s + 1, s + 2, s + 3, s + 4, s + 5, s + 6, s + 7]

/-- Cyclic order starting at `s` (0-16). -/
def cyclicFrom (s : Station) : List Station := s :: cyclicAfter s

/-! ## Station masks (11-2) -/

/-- Station `i` is in the mask. -/
def has (m : Byte) (i : Station) : Bool := m.getLsbD i.val

/-- The mask with station `i`. -/
def withStation (m : Byte) (i : Station) : Byte := m ||| (1#8 <<< i.val)

/-- The mask without station `i`. -/
def withoutStation (m : Byte) (i : Station) : Byte := m &&& ~~~(1#8 <<< i.val)

/-- The mask of a list of stations. -/
def maskOf (l : List Station) : Byte := l.foldl withStation 0

/-- The stations of a mask in ascending order. -/
def stationsOf (m : Byte) : List Station := allStations.filter (has m)

/-- How many bits of a byte are set. -/
def popCount (m : Byte) : Nat := (stationsOf m).length

/-- A byte that is a station number. -/
def stationOf (b : Byte) : Option Station := if h : b.toNat < 8 then some ⟨b.toNat, h⟩ else none

/-! ## Byte fields, least-significant byte first (0-18) -/

/-- A 16-bit field as bytes. -/
def bytes16 (h : Half) : List Byte := [h.extractLsb' 0 8, h.extractLsb' 8 8]

/-- A 32-bit field as bytes. -/
def bytes32 (w : Word) : List Byte :=
  [w.extractLsb' 0 8, w.extractLsb' 8 8, w.extractLsb' 16 8, w.extractLsb' 24 8]

/-- The 16-bit field of two bytes. -/
def half (b0 b1 : Byte) : Half := b1 ++ b0

/-- The 32-bit field of four bytes. -/
def word (b0 b1 b2 b3 : Byte) : Word := b3 ++ b2 ++ b1 ++ b0

/-- A number as a byte. -/
def byteOf (n : Nat) : Byte := BitVec.ofNat 8 n

/-- A number as a 16-bit field. -/
def halfOf (n : Nat) : Half := BitVec.ofNat 16 n

/-- A number as a 32-bit field. -/
def wordOf (n : Nat) : Word := BitVec.ofNat 32 n

/-- A flag as a byte with bit `i` set or clear. -/
def bitOf (b : Bool) (i : Nat) : Byte := if b then 1#8 <<< i else 0

/-- The greatest 32-bit number, 2^32 - 1. -/
def topSeq : Word := 0xFFFFFFFF#32

/-! ## The CRC (0-19)

Generator x^16 + x^15 + x^2 + 1, preset zero, bit 0 of each byte first. The register is held with the x^15
coefficient in bit 0, so that the field, sent bit 0 first, carries the highest coefficient first (log 13). -/

/-- One bit time of the CRC register. -/
def crcShift (c : Half) : Half := if c.getLsbD 0 then (c >>> 1) ^^^ 0xA001#16 else c >>> 1

/-- The register after one byte. -/
def crcByte (c : Half) (b : Byte) : Half :=
  crcShift (crcShift (crcShift (crcShift (crcShift (crcShift (crcShift (crcShift (c ^^^ b.setWidth 16))))))))

/-- The check over the covered bytes. -/
def crc (bs : List Byte) : Half := bs.foldl crcByte 0

/-! ## Sparse memories -/

/-- What an unlisted address of the flash array, or of an image read from it, reads as: the erased byte (R16). -/
def erasedByte : Byte := 0xFF#8

/-- What an unlisted address of an SRAM buffer reads as: buffers are set to 00H (R106). -/
def clearByte : Byte := 0x00#8

/-- Addresses from `lo` on strictly rising, no byte equal to the unlisted one. -/
def Memory.wfFrom (d : Byte) : Nat → Memory → Bool
  | _, [] => true
  | lo, (a, b) :: rest => decide (lo ≤ a) && b != d && Memory.wfFrom d (a + 1) rest

/-- The canonical form of a memory whose unlisted byte is `d`. -/
def Memory.wf (d : Byte) (m : Memory) : Bool := Memory.wfFrom d 0 m

/-- The byte at an address. -/
def Memory.read (d : Byte) : Memory → Nat → Byte
  | [], _ => d
  | (x, b) :: rest, a => if x = a then b else Memory.read d rest a

/-- The cells that `bytes` need from address `a` on. -/
def Memory.cellsOf (d : Byte) : Nat → List Byte → Memory
  | _, [] => []
  | a, b :: bs => if b = d then Memory.cellsOf d (a + 1) bs else (a, b) :: Memory.cellsOf d (a + 1) bs

/-- The memory below an address. -/
def Memory.below (m : Memory) (a : Nat) : Memory := m.filter (fun c => decide (c.1 < a))

/-- The memory from an address on. -/
def Memory.above (m : Memory) (a : Nat) : Memory := m.filter (fun c => decide (a ≤ c.1))

/-- Write consecutive bytes. -/
def Memory.write (d : Byte) (m : Memory) (a : Nat) (bytes : List Byte) : Memory :=
  m.below a ++ (Memory.cellsOf d a bytes ++ m.above (a + bytes.length))

/-- Return a range of addresses to the unlisted byte. -/
def Memory.clear (m : Memory) (a len : Nat) : Memory := m.below a ++ m.above (a + len)

/-- Read `len` consecutive bytes from address `a` of a canonical memory, one pass over its cells. -/
def Memory.readFrom (d : Byte) : Nat → Nat → Memory → List Byte
  | 0, _, _ => []
  | len + 1, a, [] => d :: Memory.readFrom d len (a + 1) []
  | len + 1, a, (x, b) :: rest =>
    if x = a then b :: Memory.readFrom d len (a + 1) rest else d :: Memory.readFrom d len (a + 1) ((x, b) :: rest)

/-- Read `len` consecutive bytes from address `a`. -/
def Memory.readRun (d : Byte) (m : Memory) (a len : Nat) : List Byte := Memory.readFrom d len a (m.above a)

/-- The cells of a range, moved so that address `src` becomes `dst`. -/
def Memory.move (m : Memory) (src len dst : Nat) : Memory :=
  ((m.above src).below (src + len)).map (fun c => (c.1 - src + dst, c.2))

/-! ## Layout of a page: slots at 0 to 4095, the page header at 4096 to 4159 (Table 11-2) -/

/-- Bytes of a page in the array. -/
def pageBytes : Nat := 4160

/-- Part number of the identity group. -/
def identityPart : Nat := 8

/-- Part number of descriptor place `k`. -/
def placePart (k : Nat) : Nat := 9 + k

/-- Where a part begins in its page. -/
def partOffset (k : Nat) : Nat := if k < 8 then k * 512 else 4096 + (k - 8) * 16

/-- How many bytes a part has. -/
def partLength (k : Nat) : Nat := if k < 8 then 512 else 16

/-- Bytes of slot `i` of an image. -/
def Memory.slot (d : Byte) (m : Memory) (i : Nat) : List Byte := Memory.readRun d m (i * 512) 512

/-- Bytes of `count` slots from slot `first` of an image. -/
def Memory.slots (d : Byte) (m : Memory) (first count : Nat) : List Byte :=
  Memory.readRun d m (first * 512) (count * 512)

/-- Bytes of a part of an image read from the array. -/
def imagePart (m : Memory) (k : Nat) : List Byte := Memory.readRun erasedByte m (partOffset k) (partLength k)

/-! ## The flash array -/

/-- The number of a page in the array (R15). -/
def PageAddr.index (a : PageAddr) : Nat := a.block * 128 + a.page

/-- The unit that serves a block (R15). -/
def unitOfBlock (b : Nat) : UnitNo := if b % 2 = 0 then 0 else 1

/-- The number of part `k` of a page among all parts. -/
def PageAddr.partNo (a : PageAddr) (k : Nat) : Nat := a.index * 12 + k

/-- The array address where part `k` of a page begins. -/
def PageAddr.partBase (a : PageAddr) (k : Nat) : Nat := a.index * pageBytes + partOffset k

/-- The correction bytes of part `k` are written: the part is not ERASED (R16, R20). -/
def Flash.programmed (f : Flash) (a : PageAddr) (k : Nat) : Bool := f.parts.contains (a.partNo k)

/-- A rising list with one number put in. -/
def insertNat (n : Nat) : List Nat → List Nat
  | [] => [n]
  | x :: xs => if n < x then n :: x :: xs else if n = x then x :: xs else x :: insertNat n xs

/-- A rising list of counts with the count of one number raised to at least `n`. -/
def raiseCountAt (x n : Nat) : List (Nat × Nat) → List (Nat × Nat)
  | [] => [(x, n)]
  | y :: ys =>
    if x < y.1 then (x, n) :: y :: ys else if x = y.1 then (x, max n y.2) :: ys else y :: raiseCountAt x n ys

/-- The count listed for a number, 0 where there is none. -/
def countAt (x : Nat) : List (Nat × Nat) → Nat
  | [] => 0
  | y :: ys => if y.1 = x then y.2 else countAt x ys

/-- How many bits of part `k` of a page have been found to read in error (R20). -/
def Flash.wear (f : Flash) (a : PageAddr) (k : Nat) : Nat := countAt (a.partNo k) f.worn

/-- Part `k` of a page takes content and correction bytes; a page has 12 parts. -/
def Flash.writePart (f : Flash) (a : PageAddr) (k : Nat) (bytes : List Byte) : Flash :=
  if k < 12 then
    { cells := Memory.write erasedByte f.cells (a.partBase k) (bytes.take (partLength k)),
      parts := insertNat (a.partNo k) f.parts,
      worn := f.worn.filter (·.1 != a.partNo k) }
  else f

/-- Part `k` of a page becomes ERASED. -/
def Flash.erasePart (f : Flash) (a : PageAddr) (k : Nat) : Flash :=
  { cells := Memory.clear f.cells (a.partBase k) (partLength k), parts := f.parts.filter (· != a.partNo k),
    worn := f.worn.filter (·.1 != a.partNo k) }

/-- Free bytes for part `k` of a page (log 8 to 12). -/
def freePart (fresh : Nat) (a : PageAddr) (k : Nat) : List Byte :=
  (List.range (partLength k)).map (fun i => Config.freeByte fresh (a.partNo k * 512 + i))

/-! ### Reading (R18 to R20) -/

/-- The read condition of a part (R20). -/
inductive Cond where
  | clean
  | corrected (n : Nat)
  | erased
  | uncorrectable
  deriving DecidableEq, Repr

/-- The bits of part `k` that read in error: those the read reports, or those found before where they were more (R20). -/
def Flash.errorBits (f : Flash) (a : PageAddr) (r : ReadReport) (k : Fin 12) : Nat := max (f.wear a k) (r.get k)

/-- The condition of part `k` of a page, from the bits that read in error (R20). Each of the four header parts is judged
by itself, with a limit of 4 of its own (log 45). -/
def Flash.cond (f : Flash) (a : PageAddr) (r : ReadReport) (k : Fin 12) : Cond :=
  if !f.programmed a k then .erased
  else if f.errorBits a r k = 0 then .clean
  else if f.errorBits a r k ≤ 4 then .corrected (f.errorBits a r k)
  else .uncorrectable

/-- A read keeps how many bits of part `k` read in error, so that no later read finds fewer (R20; log 58). -/
def Flash.keepErrors (f : Flash) (a : PageAddr) (r : ReadReport) (k : Fin 12) : Flash :=
  if f.programmed a k && decide (r.get k ≠ 0) then { f with worn := raiseCountAt (a.partNo k) (r.get k) f.worn } else f

/-- The parts of a page in order. -/
def allParts : List (Fin 12) := [0, 1, 2, 3, 4, 5, 6, 7, 8, 9, 10, 11]

/-- What a page read delivers (R18): the condition of each part and the bytes. -/
structure PageRead where
  conds : Vector Cond 12
  image : Memory
  deriving DecidableEq, Repr

/-- The header parts of a page in order. -/
def headerPartNos : List (Fin 12) := [8, 9, 10, 11]

/-- The array after a page read: no byte changes, the bits found in error are kept (R18, R20). -/
def Flash.afterRead (f : Flash) (a : PageAddr) (r : ReadReport) : Flash :=
  allParts.foldl (fun g k => g.keepErrors a r k) f

/-- The array after a header read (R19, R20). -/
def Flash.afterHeaderRead (f : Flash) (a : PageAddr) (r : ReadReport) : Flash :=
  headerPartNos.foldl (fun g k => g.keepErrors a r k) f

/-- The conditions of all parts. -/
def Flash.conds (f : Flash) (a : PageAddr) (r : ReadReport) : Vector Cond 12 :=
  #v[f.cond a r 0, f.cond a r 1, f.cond a r 2, f.cond a r 3, f.cond a r 4, f.cond a r 5, f.cond a r 6, f.cond a r 7,
     f.cond a r 8, f.cond a r 9, f.cond a r 10, f.cond a r 11]

/-- The bytes delivered for part `k`: corrected, FFH for an ERASED part, as read (free) for an uncorrectable one. -/
def Flash.delivered (f : Flash) (a : PageAddr) (r : ReadReport) (fresh : Nat) (k : Fin 12) : Memory :=
  match f.cond a r k with
  | .erased => []
  | .uncorrectable => Memory.cellsOf erasedByte (partOffset k) (freePart fresh a k)
  | .clean => Memory.move f.cells (a.partBase k) (partLength k) (partOffset k)
  | .corrected _ => Memory.move f.cells (a.partBase k) (partLength k) (partOffset k)

/-- A page read (R18). -/
def Flash.readPage (f : Flash) (a : PageAddr) (r : ReadReport) (fresh : Nat) : PageRead :=
  { conds := f.conds a r, image := allParts.flatMap (f.delivered a r fresh) }

/-- Condition of part `k` of a page read, ERASED beyond the parts. -/
def PageRead.cond (p : PageRead) (k : Nat) : Cond := if h : k < 12 then p.conds.get ⟨k, h⟩ else .erased

/-- Every part of the page reads ERASED (R18). -/
def PageRead.allErased (p : PageRead) : Bool := allParts.all (fun k => decide (p.conds.get k = .erased))

/-- The count a condition contributes to the highest corrected count (R18). -/
def Cond.count : Cond → Nat
  | .corrected n => n
  | .clean => 0
  | .erased => 0
  | .uncorrectable => 0

/-- The highest corrected count of a page read, 0 to 4 (R18). -/
def PageRead.highest (p : PageRead) : Nat := allParts.foldl (fun m k => max m (p.conds.get k).count) 0

/-- The factory bad marker stands in the header of page 0 of the block (R15, R173). -/
def Flash.badMarked (f : Flash) (a : PageAddr) : Bool :=
  decide (a.page = 0) && !f.programmed a 8 && !f.programmed a 9 && !f.programmed a 10 && !f.programmed a 11
    && Memory.read erasedByte f.cells (a.partBase 8) == 0x00#8
    && Memory.read erasedByte f.cells (a.partBase 8 + 1) == 0x00#8

/-- What a header read delivers to the mount (R19): BAD-MARK, the conditions of the four header parts, and the bytes of
the identity group and the descriptor places at their addresses in the page. -/
structure HeaderRead where
  badMark : Bool
  conds   : Vector Cond 4
  image   : Memory
  deriving DecidableEq, Repr

/-- A header read (R19). -/
def Flash.readHeader (f : Flash) (a : PageAddr) (r : ReadReport) (fresh : Nat) : HeaderRead :=
  { badMark := f.badMarked a, conds := #v[f.cond a r 8, f.cond a r 9, f.cond a r 10, f.cond a r 11],
    image := headerPartNos.flatMap (f.delivered a r fresh) }

/-- The highest corrected count of a header read, 0 to 4 (R19). -/
def HeaderRead.highest (h : HeaderRead) : Nat :=
  max (max (h.conds.get 0).count (h.conds.get 1).count) (max (h.conds.get 2).count (h.conds.get 3).count)

/-- Every header part reads ERASED (R19). -/
def HeaderRead.allErased (h : HeaderRead) : Bool :=
  decide (h.conds.get 0 = .erased) && decide (h.conds.get 1 = .erased) && decide (h.conds.get 2 = .erased)
    && decide (h.conds.get 3 = .erased)

/-- Some header part reads UNCORRECTABLE (R19). -/
def HeaderRead.anyUncorrectable (h : HeaderRead) : Bool :=
  decide (h.conds.get 0 = .uncorrectable) || decide (h.conds.get 1 = .uncorrectable)
    || decide (h.conds.get 2 = .uncorrectable) || decide (h.conds.get 3 = .uncorrectable)

/-! ### Programming (R21, R22) -/

/-- The void pattern of a header part: 00H but for the check, 5555H (R173). -/
def voidPattern : List Byte := List.replicate 14 0x00#8 ++ [0x55#8, 0x55#8]

/-- The header parts a program names, with their bytes. -/
def ProgramReq.headerParts (p : ProgramReq) : List (Nat × List Byte) :=
  (match p.identity with
   | some bytes => [(identityPart, bytes)]
   | none => []) ++ p.descs.map (fun d => (placePart d.1, d.2))

/-- The slots a program names, with the bytes taken at its grant. -/
def ProgramReq.slotParts (p : ProgramReq) (data : List Byte) : List (Nat × List Byte) :=
  (List.range p.count).map (fun i => (p.first + i, (data.drop (i * 512)).take 512))

/-- Write a list of parts of one page. -/
def Flash.writeParts (f : Flash) (a : PageAddr) (l : List (Nat × List Byte)) : Flash :=
  l.foldl (fun g x => g.writePart a x.1 x.2) f

/-- Bytes that fail their check whatever the free bytes are: the check is the right one plus 1 to 65535. -/
def spoiled (bs : List Byte) (salt : Nat) : List Byte :=
  let body := bs.take 14
  body ++ bytes16 (crc body + 1 + halfOf (salt % 65535))

/-- A program that ends in PASS (R21). A named part already programmed reads afterwards as the manual does not
define: free bytes (log 11). -/
def Flash.programPass (f : Flash) (p : ProgramReq) (data : List Byte) (fresh : Nat) : Flash :=
  f.writeParts p.page ((p.slotParts data ++ p.headerParts).map
    (fun x => if f.programmed p.page x.1 then (x.1, freePart fresh p.page x.1) else x))

/-- A program that ends in FAIL (R22): header parts void, slots in no dependable state (log 8). -/
def Flash.programFail (f : Flash) (p : ProgramReq) (fresh : Nat) : Flash :=
  f.writeParts p.page
    ((List.range p.count).map (fun i => (p.first + i, freePart fresh p.page (p.first + i)))
      ++ p.headerParts.map (fun x => (x.1, voidPattern)))

/-- A program cut short by a hard reset (R22, R32): the named parts partly programmed, the descriptors' checks
failing (log 9). -/
def Flash.programCut (f : Flash) (p : ProgramReq) (fresh : Nat) : Flash :=
  f.writeParts p.page
    ((List.range p.count).map (fun i => (p.first + i, freePart fresh p.page (p.first + i)))
      ++ p.headerParts.map (fun x => (x.1, spoiled (freePart fresh p.page x.1) (Config.freeChoice fresh x.1))))

/-! ### Erasing (R24) -/

/-- The parts of a block, as (page, part). -/
def blockParts (b : Nat) : List (PageAddr × Nat) :=
  (List.range 128).flatMap (fun p => (List.range 12).map (fun k => ({ block := b, page := p }, k)))

/-- An erase that ends in PASS: every page of the block reads ERASED (R24). -/
def Flash.erasePass (f : Flash) (b : Nat) : Flash :=
  { cells := Memory.clear f.cells (b * 128 * pageBytes) (128 * pageBytes),
    parts := f.parts.filter (fun n => n / 12 / 128 != b),
    worn := f.worn.filter (fun x => x.1 / 12 / 128 != b) }

/-- One part left by an erase that did not complete: erased, as it was, or with free content (log 10). -/
def Flash.disturb (f : Flash) (fresh : Nat) (a : PageAddr) (k : Nat) : Flash :=
  match Config.freeChoice fresh (a.partNo k + 128) % 3 with
  | 0 => f
  | 1 => f.writePart a k (freePart fresh a k)
  | _ => f.erasePart a k

/-- An erase that ends in FAIL: nothing dependable about the pages (R24). -/
def Flash.eraseFail (f : Flash) (b fresh : Nat) : Flash :=
  (blockParts b).foldl (fun g x => g.disturb fresh x.1 x.2) f

/-- An erase cut short by a hard reset (R24): pages erased from page 0 up to some page; of the others each ERASED part
stays ERASED, each programmed part is as it was or partly erased, with free content or none (log 9). -/
def Flash.eraseCut (f : Flash) (b fresh : Nat) : Flash :=
  let upTo := 1 + Config.freeChoice fresh 0 % 128
  (blockParts b).foldl
    (fun g x =>
      if x.1.page < upTo then g.erasePart x.1 x.2
      else if g.programmed x.1 x.2 then g.disturb fresh x.1 x.2
      else g) f

/-- An operation in progress is cut short by a hard reset (R32). -/
def Flash.cutShort (f : Flash) (b : Option Busy) (fresh : Nat) : Flash :=
  match b with
  | none => f
  | some x =>
    match x.req.op with
    | .pageRead _ => f
    | .headerRead _ => f
    | .program p => f.programCut p fresh
    | .erase blk => f.eraseCut blk fresh

/-! ## Directory keys (R35) -/

/-- The key of a page identity: origin first, page seq within origin. -/
def PageId.key (i : PageId) : Nat := i.origin.val * 2 ^ 32 + i.seq.toNat

/-- How many of a list satisfy a test. -/
def countOf {α : Type} (p : α → Bool) (l : List α) : Nat := (l.filter p).length

/-- A timer one ms later, stopping at 0. -/
def tickDown : Option Nat → Option Nat
  | none => none
  | some n => some (n - 1)

end Sys2Proof.Machine
end

