-- ==== Sys2Proof/Machine/Operands.lean ====
section
/-!
DEFINITION. The layouts of Section 11: what stands in flash (R173), what frames carry (R174), and the argument bytes
of port commands (R175, Table 10-1).
-/

namespace Sys2Proof.Machine

/-! ## Formats in flash (R173) -/

/-- A record header (Table 11-1). -/
structure RecordHeader where
  length : Half
  tag    : Half
  gen    : Half
  stamp  : Word
  slots  : Byte
  index  : Byte
  deriving DecidableEq, Repr

/-- The 12 bytes of a record header (Table 11-1). -/
def RecordHeader.bytes (h : RecordHeader) : List Byte :=
  bytes16 h.length ++ (bytes16 h.tag ++ (bytes16 h.gen ++ (bytes32 h.stamp ++ [h.slots, h.index])))

/-- The record header that stands at slot `slot` of an image (Table 11-1). -/
def recordAt (m : Memory) (slot : Nat) : RecordHeader :=
  let at_ (i : Nat) : Byte := Memory.read erasedByte m (slot * 512 + i)
  { length := half (at_ 0) (at_ 1), tag := half (at_ 2) (at_ 3), gen := half (at_ 4) (at_ 5),
    stamp := word (at_ 6) (at_ 7) (at_ 8) (at_ 9), slots := at_ 10, index := at_ 11 }

/-- Slots a record of a payload length occupies, ceil((12 + length) / 512) (R2). -/
def slotsOf (length : Nat) : Nat := (12 + length + 511) / 512

/-- 14 bytes with their check. -/
def sealed (body : List Byte) : List Byte := body ++ bytes16 (crc body)

/-- The identity group of a page (Table 11-2). -/
def identityBytes (origin : Byte) (seq : Word) : List Byte :=
  sealed (origin :: (bytes32 seq ++ List.replicate 9 0x00#8))

/-- A descriptor place (Table 11-3). -/
def descriptorBytes (e : ExtentInfo) (holders : Byte) (check : Half) : List Byte :=
  sealed ([byteOf e.number, byteOf e.first, byteOf e.count, byteOf e.records, e.starts, bitOf e.closing 0, holders]
    ++ (List.replicate 5 0x00#8 ++ bytes16 check))

/-- A descriptor place as read: its fields, holder set, extent check, and whether its own check agrees. -/
structure ReadDesc where
  info    : ExtentInfo
  holders : Byte
  check   : Half
  sound   : Bool
  deriving DecidableEq, Repr

/-- The fields of 16 descriptor bytes (Table 11-3). -/
def parseDescriptor : List Byte → Option ReadDesc
  | [n, f, c, r, s, fl, h, z0, z1, z2, z3, z4, e0, e1, d0, d1] =>
    some { info := { number := n.toNat, first := f.toNat, count := c.toNat, records := r.toNat, starts := s,
                     closing := fl.getLsbD 0 },
           holders := h, check := half e0 e1,
           sound := decide (crc [n, f, c, r, s, fl, h, z0, z1, z2, z3, z4, e0, e1] = half d0 d1) }
  | _ => none

/-- The identity of 16 identity bytes, when their check agrees (R173). -/
def parseIdentity : List Byte → Option (Byte × Word)
  | [o, s0, s1, s2, s3, z0, z1, z2, z3, z4, z5, z6, z7, z8, d0, d1] =>
    if crc [o, s0, s1, s2, s3, z0, z1, z2, z3, z4, z5, z6, z7, z8] = half d0 d1 then some (o, word s0 s1 s2 s3)
    else none
  | _ => none

/-- The slots of an extent, in order. -/
def ExtentInfo.slotList (e : ExtentInfo) : List Nat := (List.range e.count).map (e.first + ·)

/-- The end slot of an extent. -/
def ExtentInfo.last (e : ExtentInfo) : Nat := e.first + e.count

/-- A descriptor place reads without UNCORRECTABLE and is programmed. -/
def Cond.readable : Cond → Bool
  | .clean => true
  | .corrected _ => true
  | .erased => false
  | .uncorrectable => false

/-- The descriptor in place `k` of a page read, when it is VALID (R6, R173): readable, its check agrees, its
number is `k`, its record count is that of its map, its slots exist and read without UNCORRECTABLE, and its
extent check agrees. -/
def PageRead.validDesc (p : PageRead) (k : Nat) : Option ReadDesc :=
  if (p.cond (placePart k)).readable then
    match parseDescriptor (imagePart p.image (placePart k)) with
    | some d =>
      if d.sound && d.info.number == k && d.info.records == popCount d.info.starts && decide (1 ≤ d.info.count)
          && decide (d.info.last ≤ 8)
          && d.info.slotList.all (fun i => decide (p.cond i ≠ .uncorrectable))
          && decide (crc (Memory.slots erasedByte p.image d.info.first d.info.count) = d.check)
      then some d else none
    | none => none
  else none

/-- The valid descriptors of a page read from place 0 upward, up to the first that is not valid (R61). -/
def PageRead.validDescs (p : PageRead) : List ReadDesc :=
  match p.validDesc 0 with
  | none => []
  | some d0 =>
    match p.validDesc 1 with
    | none => [d0]
    | some d1 =>
      match p.validDesc 2 with
      | none => [d0, d1]
      | some d2 => [d0, d1, d2]

/-- The descriptor fields in place `k` of an image, whatever its checks. -/
def imageDesc (m : Memory) (k : Nat) : Option ReadDesc := parseDescriptor (imagePart m (placePart k))

/-- The extents of places 0 to `n` - 1 of an image. -/
def imageExtents (m : Memory) (n : Nat) : List ExtentInfo :=
  (List.range n).filterMap (fun k => (imageDesc m k).map (·.info))

/-- The end slot of extent `n` - 1 of an image, 0 for none (R166, R128). -/
def imageEnd (m : Memory) (n : Nat) : Nat :=
  if n = 0 then 0 else
    match imageDesc m (n - 1) with
    | some d => d.info.last
    | none => 0

/-- A part of a copy of `n` extents ending at slot `e` is unsound in a page read (R53): a slot below `e`, the
identity group or a descriptor place below `n` UNCORRECTABLE, the whole read ERASED, or a descriptor not valid. -/
def PageRead.unsound (p : PageRead) (n e : Nat) : Bool :=
  p.allErased || (List.range e).any (fun i => decide (p.cond i = .uncorrectable))
    || decide (p.cond identityPart = .uncorrectable)
    || (List.range n).any (fun k => (p.validDesc k).isNone)

/-- As `unsound`, but by the read's conditions alone, as R137 has it for a relocation read-back. -/
def PageRead.uncorrectableIn (p : PageRead) (n e : Nat) : Bool :=
  p.allErased || (List.range e).any (fun i => decide (p.cond i = .uncorrectable))
    || decide (p.cond identityPart = .uncorrectable)
    || (List.range n).any (fun k => decide (p.cond (placePart k) = .uncorrectable))

/-- The slots of a mark page: slot 0 with the fields and the page check, fill elsewhere (Table 11-4). -/
def markPageSlots (seq : Word) (v : MarkVals) : List Byte :=
  sealed (bytes32 seq ++ (bytes16 v.gen ++ (bytes32 v.release ++ bytes32 v.ceiling)))
    ++ List.replicate (4096 - 16) 0x00#8

/-- The header parts of a mark page (Table 11-4). -/
def markIdentity : List Byte := identityBytes 0xFF#8 0

/-- A descriptor place of a mark page: fill (Table 11-4). -/
def markFill : List Byte := List.replicate 16 0x00#8

/-- The mark seq and values of a page read, when it is a VALID mark page (R58, R173). -/
def PageRead.markPage (p : PageRead) : Option (Word × MarkVals) :=
  if (p.cond 0).readable && (p.cond identityPart).readable then
    let origin := Memory.read erasedByte p.image 4096
    let seq := Memory.readRun erasedByte p.image 4097 4
    match Memory.readRun erasedByte p.image 0 16 with
    | [q0, q1, q2, q3, g0, g1, r0, r1, r2, r3, c0, c1, c2, c3, d0, d1] =>
      if crc [q0, q1, q2, q3, g0, g1, r0, r1, r2, r3, c0, c1, c2, c3] = half d0 d1 && origin == 0xFF#8
          && seq == bytes32 0 then
        some (word q0 q1 q2 q3,
          { gen := half g0 g1, release := word r0 r1 r2 r3, ceiling := word c0 c1 c2 c3 })
      else none
    | _ => none
  else none

/-! ## Frames (R174) -/

/-- A depth vector (11-2). -/
def depthBits (d : Vector Nat 8) : Half :=
  halfOf (d.get 0 % 4 + 4 * (d.get 1 % 4) + 16 * (d.get 2 % 4) + 64 * (d.get 3 % 4) + 256 * (d.get 4 % 4)
    + 1024 * (d.get 5 % 4) + 4096 * (d.get 6 % 4) + 16384 * (d.get 7 % 4))

/-- The depth of station `i` in a depth vector (11-2). -/
def depthIn (v : Half) (i : Station) : Nat := v.toNat / 4 ^ i.val % 4

/-- The kind code of a frame (Table 11-5). -/
def Frame.kindCode : Frame → Byte
  | .presence _ => 0x01#8
  | .answer _ => 0x02#8
  | .holdings _ => 0x03#8
  | .extent _ => 0x04#8
  | .copy _ => 0x05#8

/-- The class of a frame (Table 5-1). -/
def Frame.cls : Frame → BitVec 2
  | .presence _ => 0
  | .answer _ => 1
  | .holdings _ => 2
  | .extent _ => 3
  | .copy _ => 3

/-- A holdings entry (Table 11-10). -/
def HoldItem.bytes : HoldItem → List Byte
  | .run seq count => 0x01#8 :: (bytes32 seq ++ bytes16 count)
  | .page seq depth flags => 0x02#8 :: (bytes32 seq ++ [depth, flags])

/-- A descriptor of a COPY (Table 11-8). -/
def DescBody.bytes (d : DescBody) : List Byte := [d.number, d.first, d.count, d.records, d.starts, d.flags]

/-- The body of a frame (Tables 11-6 to 11-10). -/
def Frame.body : Frame → List Byte
  | .presence b =>
    b.code :: b.flags :: b.copies :: (bytes16 b.gen ++ (bytes32 b.mark ++ (bytes16 b.pool ++ [b.mask])))
  | .answer b => b.addressee :: b.origin :: (bytes32 b.seq ++ [b.ext, b.flags, b.verdict, b.aux])
  | .holdings b =>
    b.series :: b.origin :: (bytes16 b.index ++ (b.flags :: byteOf b.items.length :: b.items.flatMap HoldItem.bytes))
  | .extent b =>
    bytes32 b.seq ++ (b.ext :: b.mask :: b.flags :: b.first :: b.count :: b.records :: b.starts ::
      (bytes16 b.depths ++ b.data))
  | .copy b =>
    b.origin :: (bytes32 b.seq ++ (b.target :: byteOf b.descs.length :: b.flags ::
      (b.descs.flatMap DescBody.bytes ++ (bytes16 b.depths ++ b.data))))

/-- The bytes the frame check covers (R174): the arbitration field as a byte, kind, body length, body. -/
def coveredBytes (arb : BitVec 5) (kind : Byte) (body : List Byte) : List Byte :=
  arb.setWidth 8 :: kind :: (bytes16 (halfOf body.length) ++ body)

/-- The arbitration field: class in two bits, then source in three (R77). -/
def arbField (cls : BitVec 2) (src : Station) : BitVec 5 := cls ++ BitVec.ofNat 3 src.val

/-- The station that an arbitration field names as source. -/
def arbSource (arb : BitVec 5) : Station := ⟨arb.toNat % 8, Nat.mod_lt _ (by decide)⟩

/-- The class that an arbitration field names. -/
def arbClass (arb : BitVec 5) : BitVec 2 := arb.extractLsb' 3 2

/-- A frame in its envelope, as sent by a station (Table 11-5). -/
def Frame.send (src : Station) (f : Frame) : Heard :=
  let arb := arbField f.cls src
  { arb := arb,
    chars := f.kindCode :: (bytes16 (halfOf f.body.length) ++ (f.body ++ bytes16 (crc (coveredBytes arb f.kindCode f.body)))) }

/-- `n` holdings entries from bytes, none left over (R174). -/
def parseItems : Nat → List Byte → Option (List HoldItem)
  | 0, [] => some []
  | 0, _ :: _ => none
  | n + 1, form :: s0 :: s1 :: s2 :: s3 :: x :: y :: rest =>
    match parseItems n rest with
    | none => none
    | some items =>
      if form = 0x01#8 then (if half x y = 0 then none else some (.run (word s0 s1 s2 s3) (half x y) :: items))
      else if form = 0x02#8 then (if x.toNat ≤ 3 then some (.page (word s0 s1 s2 s3) x y :: items) else none)
      else none
  | _ + 1, _ => none

/-- `n` descriptors of a COPY from bytes, and what follows them. -/
def parseDescs : Nat → List Byte → Option (List DescBody × List Byte)
  | 0, rest => some ([], rest)
  | n + 1, a :: b :: c :: d :: e :: f :: rest =>
    match parseDescs n rest with
    | none => none
    | some (l, r) => some ({ number := a, first := b, count := c, records := d, starts := e, flags := f } :: l, r)
  | _ + 1, _ => none

/-- The slots U that the descriptors of a COPY reach: the end of the last (R174). -/
def copyReach (l : List DescBody) : Nat :=
  match l.getLast? with
  | some d => d.first.toNat + d.count.toNat
  | none => 0

/-- A PRESENCE body: 12 bytes. -/
def parsePresence : List Byte → Option Frame
  | [c, f, n, g0, g1, r0, r1, r2, r3, p0, p1, m] =>
    some (.presence { code := c, flags := f, copies := n, gen := half g0 g1, mark := word r0 r1 r2 r3,
                      pool := half p0 p1, mask := m })
  | _ => none

/-- An ANSWER body: 10 bytes. -/
def parseAnswer : List Byte → Option Frame
  | [a, o, s0, s1, s2, s3, e, f, v, x] =>
    some (.answer { addressee := a, origin := o, seq := word s0 s1 s2 s3, ext := e, flags := f, verdict := v, aux := x })
  | _ => none

/-- A HOLDINGS body: 6 bytes and 0 to 16 entries of 7. -/
def parseHoldings : List Byte → Option Frame
  | s :: o :: i0 :: i1 :: f :: n :: rest =>
    if n.toNat ≤ 16 then
      match parseItems n.toNat rest with
      | some items => some (.holdings { series := s, origin := o, index := half i0 i1, flags := f, items := items })
      | none => none
    else none
  | _ => none

/-- An EXTENT body: 13 bytes and 1 to 8 slots of 512. -/
def parseExtent : List Byte → Option Frame
  | s0 :: s1 :: s2 :: s3 :: e :: m :: f :: fs :: n :: r :: st :: d0 :: d1 :: data =>
    if 1 ≤ n.toNat ∧ n.toNat ≤ 8 ∧ data.length = 512 * n.toNat then
      some (.extent { seq := word s0 s1 s2 s3, ext := e, mask := m, flags := f, first := fs, count := n, records := r,
                      starts := st, depths := half d0 d1, data := data })
    else none
  | _ => none

/-- A COPY body: 8 bytes, 1 to 3 descriptors, the depth vector, and U slots of 512, U from 1 to 8. -/
def parseCopy : List Byte → Option Frame
  | o :: s0 :: s1 :: s2 :: s3 :: t :: n :: f :: rest =>
    if 1 ≤ n.toNat ∧ n.toNat ≤ 3 then
      match parseDescs n.toNat rest with
      | some (descs, d0 :: d1 :: data) =>
        if 1 ≤ copyReach descs ∧ copyReach descs ≤ 8 ∧ data.length = 512 * copyReach descs then
          some (.copy { origin := o, seq := word s0 s1 s2 s3, target := t, flags := f, descs := descs,
                        depths := half d0 d1, data := data })
        else none
      | _ => none
    else none
  | _ => none

/-- The body of a kind (R79, check 3). -/
def parseBody (kind : Byte) (body : List Byte) : Option Frame :=
  if kind = 0x01#8 then parsePresence body
  else if kind = 0x02#8 then parseAnswer body
  else if kind = 0x03#8 then parseHoldings body
  else if kind = 0x04#8 then parseExtent body
  else if kind = 0x05#8 then parseCopy body
  else none

/-- The receiver's checks on a complete frame (R79, R174): the frame check, the kind, the class, the lengths. -/
def Heard.receive (h : Heard) : Option (Station × Frame) :=
  match h.chars with
  | kind :: l0 :: l1 :: rest =>
    let n := (half l0 l1).toNat
    if rest.length = n + 2 ∧ rest.drop n = bytes16 (crc (coveredBytes h.arb kind (rest.take n))) then
      match parseBody kind (rest.take n) with
      | some f => if arbClass h.arb = f.cls then some (arbSource h.arb, f) else none
      | none => none
    else none
  | _ => none

/-- The frames that a station may send: counts in the ranges of R174. -/
def Frame.wf : Frame → Bool
  | .presence _ => true
  | .answer _ => true
  | .holdings b => decide (b.items.length ≤ 16) && b.items.all (fun i =>
      match i with
      | .run _ count => count != 0
      | .page _ depth _ => decide (depth.toNat ≤ 3))
  | .extent b => decide (1 ≤ b.count.toNat ∧ b.count.toNat ≤ 8 ∧ b.data.length = 512 * b.count.toNat)
  | .copy b => decide (1 ≤ b.descs.length ∧ b.descs.length ≤ 3 ∧ 1 ≤ copyReach b.descs ∧ copyReach b.descs ≤ 8
      ∧ b.data.length = 512 * copyReach b.descs)

/-! ## Verdicts and flags of frames -/

/-- Verdicts of an ANSWER (Table 11-9). -/
inductive Verdict where
  | programmed | held | gap | full | lost | dropped
  deriving DecidableEq, Repr

/-- The code of a verdict (Table 11-9). -/
def Verdict.code : Verdict → Byte
  | .programmed => 1
  | .held => 2
  | .gap => 3
  | .full => 4
  | .lost => 5
  | .dropped => 6

/-- The verdict of a code; none for a code not in Table 11-9 (R174). -/
def verdictOf (b : Byte) : Option Verdict :=
  match b.toNat with
  | 1 => some .programmed
  | 2 => some .held
  | 3 => some .gap
  | 4 => some .full
  | 5 => some .lost
  | 6 => some .dropped
  | _ => none

/-- The copy flag of an ANSWER. -/
def AnswerBody.isCopy (a : AnswerBody) : Bool := a.flags.getLsbD 0

/-- The addressee of an unsolicited ANSWER (Table 11-9). -/
def unsolicited : Byte := 0xFF#8

/-- The extent fields of an EXTENT frame. -/
def ExtentBody.info (b : ExtentBody) : ExtentInfo :=
  { number := b.ext.toNat, first := b.first.toNat, count := b.count.toNat, records := b.records.toNat,
    starts := b.starts, closing := b.flags.getLsbD 0 }

/-- The extent fields of a COPY's descriptor. -/
def DescBody.info (d : DescBody) : ExtentInfo :=
  { number := d.number.toNat, first := d.first.toNat, count := d.count.toNat, records := d.records.toNat,
    starts := d.starts, closing := d.flags.getLsbD 0 }

/-- A descriptor of a COPY from extent fields. -/
def ExtentInfo.desc (e : ExtentInfo) : DescBody :=
  { number := byteOf e.number, first := byteOf e.first, count := byteOf e.count, records := byteOf e.records,
    starts := e.starts, flags := bitOf e.closing 0 }

/-- The closed flag of a COPY. -/
def CopyBody.closedFlag (b : CopyBody) : Bool := b.flags.getLsbD 0

/-- The state code of a PRESENCE; none when it is not 1 to 4 (R174). -/
def stateCodeOf (b : Byte) : Option StateCode :=
  match b.toNat with
  | 1 => some .listening
  | 2 => some .active
  | 3 => some .frozen
  | 4 => some .leaving
  | _ => none

/-- The byte of a state code (Table 11-6). -/
def StateCode.byte : StateCode → Byte
  | .listening => 1
  | .active => 2
  | .frozen => 3
  | .leaving => 4

/-! ## Arguments of port commands (Table 10-1) -/

/-- The command that a code begins, with the number of argument bytes it collects. -/
def argCmdOf (code : Byte) : Option ArgCmd :=
  if code = 0x21#8 then some .append
  else if code = 0x31#8 then some .read
  else if code = 0x32#8 then some .scan
  else if code = 0x41#8 then some .release
  else if code = 0x51#8 then some .report
  else if code = 0x52#8 then some .alertMask
  else none

/-- Commands that collect no argument: they are taken upon their command byte (R159, Table 10-1). -/
inductive ByteCmd where
  | flush | scanNext | status | portReset
  deriving DecidableEq, Repr

/-- The command that a code is by itself. -/
def byteCmdOf (code : Byte) : Option ByteCmd :=
  if code = 0x22#8 then some .flush
  else if code = 0x33#8 then some .scanNext
  else if code = 0x5A#8 then some .status
  else if code = 0x5F#8 then some .portReset
  else none

/-- How many argument bytes a command collects (Table 10-1). -/
def ArgCmd.bytes : ArgCmd → Nat
  | .append => 4
  | .read => 6
  | .scan => 5
  | .release => 4
  | .report => 1
  | .alertMask => 1

/-- Argument byte `i` of a collected list. -/
def argAt (l : List Byte) (i : Nat) : Byte := l.getD i 0

/-- The 16-bit argument at offset `i`. -/
def argHalf (l : List Byte) (i : Nat) : Half := half (argAt l i) (argAt l (i + 1))

/-- The 32-bit argument at offset `i`. -/
def argWord (l : List Byte) (i : Nat) : Word := word (argAt l i) (argAt l (i + 1)) (argAt l (i + 2)) (argAt l (i + 3))

end Sys2Proof.Machine
end

