-- ==== Sys2Proof/Machine/Flags.lean ====
section
/-!
DEFINITION. Flags and codes: result codes, alert causes and ALRT#, RDY, DATA PHASE and the status byte (R158 to R162,
R171, R175).
-/

namespace Sys2Proof.Machine

/-- Result codes (Table 11-12). -/
inductive ResultCode where
  | ok | nothing | already | badArg | tableFull | noSpace | exhausted | state | short | notHeld | notRecord
  | damaged | range | fail | programFail | aborted | ended
  deriving DecidableEq, Repr

/-- The byte of a result code (Table 11-12). -/
def ResultCode.byte : ResultCode → Byte
  | .ok => 0x00#8
  | .nothing => 0x01#8
  | .already => 0x02#8
  | .badArg => 0x03#8
  | .tableFull => 0x04#8
  | .noSpace => 0x05#8
  | .exhausted => 0x06#8
  | .state => 0x07#8
  | .short => 0x08#8
  | .notHeld => 0x09#8
  | .notRecord => 0x0A#8
  | .damaged => 0x0B#8
  | .range => 0x0C#8
  | .fail => 0x0D#8
  | .programFail => 0x0E#8
  | .aborted => 0x0F#8
  | .ended => 0x10#8

/-- Alert causes (R171). -/
inductive Cause where
  | frontier | deficit | members | space | fault
  deriving DecidableEq, Repr

/-- The bit of a cause (Table 11-11). -/
def Cause.bit : Cause → Byte
  | .frontier => 0x01#8
  | .deficit => 0x02#8
  | .members => 0x04#8
  | .space => 0x08#8
  | .fault => 0x10#8

/-- The bits that name a cause (Table 11-11). -/
def causeBits : Byte := 0x1F#8

/-- A cause is handed to the alert set (R171). -/
def Ctl.hand (c : Ctl) (x : Cause) : Ctl :=
  { c with alerts := { c.alerts with pending := c.alerts.pending ||| x.bit } }

/-- Some cause is both pending and enabled: ALERT PENDING, and ALRT# low (R162, R171). -/
def Ctl.alertLow (c : Ctl) : Bool := decide (c.alerts.pending &&& c.alerts.enabled ≠ 0)

/-- The port waits: RDY is low by R160. -/
def Activity.waits : Activity → Bool
  | .idle => false
  | .collecting _ _ => false
  | .appendData _ _ => false
  | .appendOpening _ => true
  | .flushWait _ _ => true
  | .releaseWait _ => true
  | .readBufWait _ _ => true
  | .readWait _ _ => true
  | .scanBufWait => true
  | .scanWait _ => true
  | .scanNextWait => true
  | .resetWait => true

/-- The port is BUSY (R160). -/
def Ctl.busy (c : Ctl) : Bool := c.port.act.waits

/-- The level of RDY: low while RST# is low and while the port is busy (R158, R160). -/
def State.rdy (s : State) : Bool := !s.env.rstLow && !s.ctl.busy

/-- DATA PHASE (R162): an APPEND data phase is open, or payload remains to be read. -/
def Ctl.dataPhase (c : Ctl) : Bool :=
  match c.port.act with
  | .appendData _ _ => true
  | _ => c.port.payload.isSome

/-- The timers that run only while the station takes part (R118, R148, R153): ACTIVE and FROZEN. -/
def StationState.timersRun : StationState → Bool
  | .active => true
  | .frozen => true
  | .mounting => false
  | .listening => false
  | .leaving => false
  | .isolated => false

/-- The code of a station state (Table 11-11). -/
def StationState.code : StationState → Byte
  | .mounting => 0
  | .listening => 1
  | .active => 2
  | .frozen => 3
  | .leaving => 4
  | .isolated => 5

/-- The status byte while RST# is high (Table 11-11). -/
def Ctl.statusByte (c : Ctl) : Byte :=
  bitOf (!c.busy) 0 ||| bitOf c.dataPhase 1 ||| bitOf c.port.overrun 2 ||| bitOf c.alertLow 3
    ||| (c.station.code <<< 4)

/-- OVERRUN is set (R159, R160). -/
def Ctl.setOverrun (c : Ctl) : Ctl := { c with port := { c.port with overrun := true } }

/-- A command ends with a result code and its fields (R159). -/
def Ctl.endCommand (c : Ctl) (code : ResultCode) (fields : List Byte) : Ctl :=
  { c with port := { c.port with act := .idle, result := code.byte :: fields, resultPos := 0,
                                 lastResult := code.byte } }

end Sys2Proof.Machine
end

