-- ==== Sys2Proof/Machine/Blocks.lean ====
section
/-!
DEFINITION. Requests to the array units (R25, R26) and the block table: allocation, live counts, retirement, the free
pool (R42 to R49).
-/

namespace Sys2Proof.Machine

/-! ## Requests (R25, R26) -/

/-- The class of a request (Table 2-4). -/
def Requester.cls : Requester → Nat
  | .mountMark => 1
  | .mountHeader => 1
  | .mountPage => 1
  | .port _ _ => 1
  | .own _ _ _ => 2
  | .mark => 2
  | .replica _ => 3
  | .replicaReadBack _ => 3
  | .replicaReloc _ => 3
  | .copyJob _ => 4
  | .ownReadBack _ => 4
  | .recordErase => 5
  | .markErase => 5

/-- The block a request names. -/
def ArrayOp.block : ArrayOp → Nat
  | .pageRead p => p.block
  | .headerRead p => p.block
  | .program p => p.page.block
  | .erase b => b

/-- The page a read or program names (R29); none for an erase. -/
def ArrayOp.page : ArrayOp → Option PageAddr
  | .pageRead p => some p
  | .headerRead p => some p
  | .program p => some p.page
  | .erase _ => none

/-- The unit a request goes to (R15, R25). -/
def Request.unit (r : Request) : UnitNo := unitOfBlock r.op.block

/-- A request joins the tail of its unit's queue (R26). -/
def Ctl.enter (c : Ctl) (r : Request) : Ctl :=
  let u := c.units.get r.unit
  { c with units := vput c.units r.unit { u with queue := u.queue ++ [r] } }

/-- Every waiting request changed, each in its place. -/
def Ctl.onQueues (c : Ctl) (f : Request → Request) : Ctl :=
  { c with units := vmap (fun u => { u with queue := u.queue.map f }) c.units }

/-- Some request that satisfies a test is waiting, in progress, or completed and not delivered. -/
def Ctl.outstanding (c : Ctl) (p : Request → Bool) : Bool :=
  let inUnit (u : UnitState) : Bool :=
    u.queue.any p || (match u.busy with
      | some b => p b.req
      | none => false)
  inUnit (c.units.get 0) || inUnit (c.units.get 1) || c.completed.any (fun x => p x.req)

/-! ## The block table (R42, R43) -/

/-- The entry of a block, none while the table is cleared. -/
def Ctl.block (c : Ctl) (b : Nat) : Option Block := c.blocks.find? (fun x => x.num == b)

/-- A list of blocks, ascending, with one entry put in or replaced. -/
def putBlock (x : Block) : List Block → List Block
  | [] => [x]
  | y :: ys => if x.num < y.num then x :: y :: ys else if x.num = y.num then x :: ys else y :: putBlock x ys

/-- Put or replace a block table entry. -/
def Ctl.setBlock (c : Ctl) (x : Block) : Ctl := { c with blocks := putBlock x c.blocks }

/-- LIVE COUNT (R43). -/
def Block.live (b : Block) : Nat := countOf (·.live) b.pages

/-- What the block says of one of its pages, none when it is ERASED. -/
def Block.pageInfo (b : Block) (p : Nat) : Option PageInfo := b.pages.find? (fun x => x.page == p)

/-- What the block table says of a page. -/
def Ctl.pageInfo (c : Ctl) (a : PageAddr) : Option PageInfo :=
  match c.block a.block with
  | some b => b.pageInfo a.page
  | none => none

/-- The page is DEAD (R43). -/
def Ctl.isDead (c : Ctl) (a : PageAddr) : Bool :=
  match c.pageInfo a with
  | some i => !i.live
  | none => false

/-- The program count of a page (R43). -/
def Ctl.programCount (c : Ctl) (a : PageAddr) : Nat :=
  match c.pageInfo a with
  | some i => i.count
  | none => 0

/-- One page of a block changed. -/
def Block.onPage (b : Block) (p : Nat) (f : PageInfo → PageInfo) : Block :=
  { b with pages := b.pages.map (fun x => if x.page = p then f x else x) }

/-- The program count of a page rises by 1 (R23). -/
def Ctl.raiseCount (c : Ctl) (a : PageAddr) : Ctl :=
  match c.block a.block with
  | some b => c.setBlock (b.onPage a.page (fun x => { x with count := x.count + 1 }))
  | none => c

/-- The state of a block. -/
def Ctl.blockState (c : Ctl) (b : Nat) : Option BlockState := (c.block b).map (·.state)

/-- The page lies in a RETIRED block (R48). -/
def Ctl.inRetired (c : Ctl) (a : PageAddr) : Bool := decide (c.blockState a.block = some .retired)

/-- The request for the erase of a record block (R49). -/
def recordEraseReq (b : Nat) : Request := { who := .recordErase, op := .erase b, emergency := false }

/-- A LIVE page becomes DEAD, and its block's state follows its live count (R43, R49). -/
def Ctl.killPage (c : Ctl) (a : PageAddr) : Ctl :=
  match c.block a.block with
  | none => c
  | some b =>
    if (b.pageInfo a.page).any (·.live) then
      let b' := b.onPage a.page (fun x => { x with live := false })
      if b'.live = 0 then
        match b.state with
        | .filled => (c.setBlock { b' with state := .erasing }).enter (recordEraseReq b.num)
        | .retired => c.setBlock { b' with state := .bad }
        | .free => c.setBlock b'
        | .openOwn => c.setBlock b'
        | .openReplica => c.setBlock b'
        | .erasing => c.setBlock b'
        | .bad => c.setBlock b'
        | .mark => c.setBlock b'
      else c.setBlock b'
    else c

/-- A page that may be absent becomes DEAD. -/
def Ctl.killPages (c : Ctl) (l : List (Option PageAddr)) : Ctl :=
  l.foldl (fun c a =>
    match a with
    | some p => c.killPage p
    | none => c) c

/-- A program has failed in a block, or been refused: it becomes RETIRED (R48). An ERASING block stays ERASING (log 46). -/
def Ctl.retire (c : Ctl) (n : Nat) : Ctl :=
  match c.block n with
  | none => c
  | some b =>
    match b.state with
    | .openOwn => c.setBlock { b with state := .retired }
    | .openReplica => c.setBlock { b with state := .retired }
    | .filled => c.setBlock { b with state := .retired }
    | .free => c
    | .retired => c
    | .erasing => c
    | .bad => c
    | .mark => c

/-! ## Allocation (R44, R45) -/

/-- The open block of a kind, if there is one. -/
def Ctl.openBlock (c : Ctl) (kind : Role) : Option Block :=
  c.blocks.find? (fun b =>
    match kind with
    | .own => decide (b.state = .openOwn)
    | .replica => decide (b.state = .openReplica))

/-- The next page of an open block is given out; page 127 makes the block FILLED (R45). -/
def Ctl.giveOut (c : Ctl) (b : Block) : PageAddr × Ctl :=
  ({ block := b.num, page := b.next },
   c.setBlock { b with state := if b.next = 127 then .filled else b.state, next := b.next + 1,
                       pages := b.pages ++ [{ page := b.next, live := true, count := 0 }] })

/-- The pool's head is taken; SPACE when the length falls to 8 from 9 (R44). -/
def Ctl.takeHead (c : Ctl) (rest : List Nat) : Ctl :=
  let c := { c with pool := rest }
  if rest.length = 8 then c.hand .space else c

/-- Allocation of a page of a kind, ordinary or a relocation (R45); none when refused. -/
def Ctl.allocate (c : Ctl) (kind : Role) (relocation : Bool) : Option (PageAddr × Ctl) :=
  match c.openBlock kind with
  | some b => some (c.giveOut b)
  | none =>
    match c.pool with
    | [] => none
    | n :: rest =>
      if relocation || decide (3 ≤ c.pool.length) then
        some ((c.takeHead rest).giveOut
          { num := n, next := 0, pages := [],
            state := match kind with
              | .own => .openOwn
              | .replica => .openReplica })
      else none

/-- The station has REPLICA ROOM (R46). -/
def Ctl.replicaRoom (c : Ctl) : Bool :=
  decide (c.dir.length < 65536) && ((c.openBlock .replica).isSome || decide (3 ≤ c.pool.length))

end Sys2Proof.Machine
end

