-- ==== Sys2Proof/Machine/Directory.lean ====
section
/-!
DEFINITION. The directory: lookups, whole updates with the under flag, depths and holder counts (R11 to R13, R35 to
R41), and the recheck requests that the under-copied count makes (R153).
-/

namespace Sys2Proof.Machine

/-! ## Recheck requests (R153) -/

/-- The task is a RECHECK. -/
def Task.isRecheck (t : Task) : Bool :=
  match t.kind with
  | .recheck _ _ => true
  | .departure _ => false

/-- A RECHECK is requested: appended, or AGAIN set on one whose walk has begun (R153). -/
def Ctl.requestRecheck (c : Ctl) : Ctl :=
  if c.repair.any Task.isRecheck then
    { c with repair := c.repair.map (fun t =>
        match t.kind with
        | .recheck true _ => { t with kind := .recheck true true }
        | .recheck false _ => t
        | .departure _ => t) }
  else { c with repair := c.repair ++ [{ kind := .recheck false false, cursor := 0, waiting := false }] }

/-- The recheck interval, 5 s. -/
def recheckInterval : Nat := 5000

/-! ## Depths and counts (R11, R12) -/

/-- The depth of a station in an entry. -/
def Entry.depth (e : Entry) (s : Station) : Nat := e.depths.get s

/-- HOLDER COUNT OF EXTENT k (R12). -/
def Entry.extentHolders (e : Entry) (ext : Nat) : Nat := countOf (fun s => decide (ext < e.depth s)) allStations

/-- HOLDER COUNT OF THE PAGE (R12). -/
def Entry.pageHolders (e : Entry) : Nat :=
  if e.known = 0 then 0 else countOf (fun s => decide (e.depth s = e.known)) allStations

/-- A depth set as it stands, the known extent count raised to it (R11); at most 3 (log 15). -/
def Entry.setDepth (e : Entry) (s : Station) (d : Nat) : Entry :=
  { e with depths := vput e.depths s (min d 3), known := max e.known (min d 3) }

/-- A depth raised where it is below (R11). -/
def Entry.raiseDepth (e : Entry) (s : Station) (d : Nat) : Entry :=
  if e.depth s < d then e.setDepth s d else e

/-! ## Lookups and updates (R35 to R40) -/

/-- The entry of an identity (R40). -/
def Ctl.entry (c : Ctl) (id : PageId) : Option Entry := c.dir.find? (fun e => e.id == id)

/-- Extent extents of an own page stand in the Extent Table. -/
def Ctl.inTable (c : Ctl) (seq : Word) : Bool := c.et.any (fun x => x.seq == seq)

/-- UNDER-COPIED (R13). -/
def Ctl.underCopied (c : Ctl) (k : Env) (e : Entry) : Bool :=
  decide (1 ≤ e.known) && !(decide (e.role = .own) && c.inTable e.id.seq) && decide (e.pageHolders < k.copies)

/-- The under-copied count (R13, R37). -/
def underCount (d : List Entry) : Nat := countOf (·.under) d

/-- The new directory, with the notices that a change of the under-copied count gives: a rise from 0 hands DEFICIT,
requests a RECHECK and starts the recheck timer; a fall to 0 stops it (R37, R153, R171). -/
def Ctl.withDir (c : Ctl) (d : List Entry) : Ctl :=
  let before := underCount c.dir
  let after := underCount d
  let c := { c with dir := d }
  if after = 0 then { c with recheck := none }
  else if before = 0 then ({ c with recheck := some recheckInterval }.hand .deficit).requestRecheck
  else c

/-- The entry with its under flag evaluated (R13). -/
def Ctl.flagged (c : Ctl) (k : Env) (e : Entry) : Entry := { e with under := c.underCopied k e }

/-- One whole update of one entry (R37). -/
def Ctl.update (c : Ctl) (k : Env) (id : PageId) (f : Entry → Entry) : Ctl :=
  c.withDir (c.dir.map (fun e => if e.id = id then c.flagged k (f e) else e))

/-- A list of entries in key order with one put in. -/
def putEntry (x : Entry) : List Entry → List Entry
  | [] => [x]
  | y :: ys => if x.id.key < y.id.key then x :: y :: ys else y :: putEntry x ys

/-- An entry is created (R38); not when its identity is present or the directory is full. -/
def Ctl.create (c : Ctl) (k : Env) (e : Entry) : Ctl :=
  if (c.entry e.id).isSome || decide (65536 ≤ c.dir.length) then c
  else c.withDir (putEntry (c.flagged k e) c.dir)

/-- The directory has room for one more entry (R38). -/
def Ctl.dirRoom (c : Ctl) : Bool := decide (c.dir.length < 65536)

/-- An entry is removed, its pages become DEAD (R39). -/
def Ctl.remove (c : Ctl) (id : PageId) : Ctl :=
  match c.entry id with
  | none => c
  | some e => (c.withDir (c.dir.filter (fun x => x.id != id))).killPages [e.localPage, e.relocPage]

/-- The identity of an own page. -/
def ownId (k : Env) (seq : Word) : PageId := { origin := k.me, seq := seq }

/-- The entry of an own page. -/
def Ctl.ownEntry (c : Ctl) (k : Env) (seq : Word) : Option Entry := c.entry (ownId k seq)

/-- The own depth of an entry: the extents of the local copy (R11). -/
def Entry.ownDepth (e : Entry) (k : Env) : Nat := e.depth k.me

/-- A walk's next entry: the first whose key is at or above the cursor (R40). -/
def Ctl.walkAt (c : Ctl) (cursor : Nat) : Option Entry := c.dir.find? (fun e => decide (cursor ≤ e.id.key))

/-- The fields of R41 are discarded once the page is closed and no Extent Table entry names it. -/
def Ctl.dropTargets (c : Ctl) (k : Env) (seq : Word) : Ctl :=
  match c.ownEntry k seq with
  | some e =>
    if e.closed && !c.inTable seq then
      c.update k (ownId k seq) (fun e => { e with targets := [], extra := none, excluded := 0 })
    else c
  | none => c

/-- The release mark this station knows for an origin (R14, R128). -/
def Ctl.knownMark (c : Ctl) (k : Env) (o : Station) : Word :=
  if o = k.me then c.ownMark else (c.peers.get o).mark

/-- The page is RELEASED as this station knows it (R14). -/
def Ctl.released (c : Ctl) (k : Env) (id : PageId) : Bool := decide (id.seq ≤ c.knownMark k id.origin)

/-! ## Presence and fullness (R101) -/

/-- The station counts as PRESENT for the placement rules (R101). -/
def Ctl.countsPresent (c : Ctl) (k : Env) (s : Station) : Bool :=
  if s = k.me then decide (c.station = .active) || decide (c.station = .frozen)
  else decide ((c.peers.get s).state = .present)

/-- The station counts as FULL for the placement rules (R101). -/
def Ctl.countsFull (c : Ctl) (k : Env) (s : Station) : Bool :=
  if s = k.me then !c.replicaRoom else (c.peers.get s).full

/-- PLACEMENT AT OPEN (R102): the first COPIES-1 qualifying stations in cyclic order after the origin. -/
def Ctl.placement (c : Ctl) (k : Env) : List Station :=
  ((cyclicAfter k.me).filter (fun s => c.countsPresent k s && !c.countsFull k s)).take (k.copies - 1)

/-- SUBSTITUTION (R103). -/
def Ctl.substitute (c : Ctl) (k : Env) (e : Entry) : Option Station :=
  (cyclicAfter e.id.origin).find? (fun s =>
    c.countsPresent k s && !c.countsFull k s && !e.targets.contains s && decide (e.extra ≠ some s)
      && !has e.excluded s)

/-- REPAIRER (R104). -/
def Ctl.repairer (c : Ctl) (k : Env) (e : Entry) : Option Station :=
  if c.countsPresent k e.id.origin && decide (e.depth e.id.origin = e.known) then some e.id.origin
  else allStations.find? (fun s => c.countsPresent k s && decide (e.depth s = e.known))

/-- REPAIR TARGET (R105). -/
def Ctl.repairTarget (c : Ctl) (k : Env) (e : Entry) (r : Station) : Option Station :=
  (cyclicFrom e.id.origin).find? (fun s =>
    decide (s ≠ r) && c.countsPresent k s && !c.countsFull k s && decide (e.depth s < e.known))

end Sys2Proof.Machine
end

