-- ==== Sys2Proof/Machine/Clock.lean ====
section
/-!
DEFINITION. The station clock: what one millisecond does (log 2).
-/

namespace Sys2Proof.Machine

/-- One ms of the controller's timers (R69, R91, R118, R148, R153): a timer that has run out stays at 0 until its
expiry is taken. -/
def Ctl.tick (c : Ctl) : Ctl :=
  let c := { c with window := tickDown c.window, presence := c.presence.map (· + 1) }
  if c.station.timersRun then
    { c with et := c.et.map (fun x => { x with timer := tickDown x.timer }),
             jobs := vmap (Option.map (fun x => { x with timer := tickDown x.timer })) c.jobs,
             recheck := tickDown c.recheck }
  else c

/-- One ms while no command waits: nothing while RST# is low (R56), else the clock and the timers move. -/
def State.tick (s : State) : State :=
  if s.env.rstLow then s
  else { s with env := { s.env with clock := s.env.clock + 1 }, ctl := s.ctl.tick }

end Sys2Proof.Machine
end

