-- ==== Sys2Proof/Machine/Transmit.lean ====
section
/-!
DEFINITION. The transmit queue (R83 to R88) and the copy job slots (R143 to R149), which its entries are sent from.
-/

namespace Sys2Proof.Machine

/-! ## The transmit queue (R83, R84) -/

/-- The class of an entry's frame (Table 5-1). -/
def TxBody.cls : TxBody → Nat
  | .presence _ => 0
  | .answer _ => 1
  | .holdings _ => 2
  | .extent _ _ _ _ => 3
  | .copy _ _ _ => 3

/-- The kind may be sent in a station state (R84). -/
def TxBody.sendable (b : TxBody) : StationState → Bool
  | .mounting => false
  | .isolated => false
  | .listening => b.cls == 0
  | .leaving => b.cls == 0 || b.cls == 1
  | .active => true
  | .frozen => true

/-- A queue entry for a PRESENCE frame. -/
def TxBody.isPresence (b : TxBody) : Bool := b.cls == 0

/-- The body is a HOLDINGS frame. -/
def TxBody.isHoldings (b : TxBody) : Bool := b.cls == 2

/-- The body is the EXTENT of own page `seq`, extent `ext`. -/
def TxBody.isExtent (b : TxBody) (seq : Word) (ext : Nat) : Bool :=
  match b with
  | .extent s i _ _ => s == seq && i.number == ext
  | .presence _ => false
  | .answer _ => false
  | .holdings _ => false
  | .copy _ _ _ => false

/-- The body is an EXTENT of own page `seq`. -/
def TxBody.isExtentOf (b : TxBody) (seq : Word) : Bool :=
  match b with
  | .extent s _ _ _ => s == seq
  | .presence _ => false
  | .answer _ => false
  | .holdings _ => false
  | .copy _ _ _ => false

/-- The body is an EXTENT. -/
def TxBody.isAnyExtent (b : TxBody) : Bool :=
  match b with
  | .extent _ _ _ _ => true
  | .presence _ => false
  | .answer _ => false
  | .holdings _ => false
  | .copy _ _ _ => false

/-- The body is the COPY of the job in a slot. -/
def TxBody.isCopyOf (b : TxBody) (slot : Fin 2) : Bool :=
  match b with
  | .copy _ _ s => s == slot
  | .presence _ => false
  | .answer _ => false
  | .holdings _ => false
  | .extent _ _ _ _ => false

/-- The body is a COPY. -/
def TxBody.isAnyCopy (b : TxBody) : Bool :=
  match b with
  | .copy _ _ _ => true
  | .presence _ => false
  | .answer _ => false
  | .holdings _ => false
  | .extent _ _ _ _ => false

/-- The body is sourced from fill buffer `b` (R106). -/
def TxBody.fromFill (b : TxBody) (i : Fin 2) : Bool :=
  match b with
  | .extent _ _ _ (.fill j) => i == j
  | .extent _ _ _ .readBack => false
  | .presence _ => false
  | .answer _ => false
  | .holdings _ => false
  | .copy _ _ _ => false

/-- The body is sourced from the read-back buffer (R118). -/
def TxBody.fromReadBack (b : TxBody) : Bool :=
  match b with
  | .extent _ _ _ .readBack => true
  | .extent _ _ _ (.fill _) => false
  | .presence _ => false
  | .answer _ => false
  | .holdings _ => false
  | .copy _ _ _ => false

/-- Changes of the transmit queue. -/
def Ctl.onTx (c : Ctl) (f : Tx → Tx) : Ctl := { c with tx := f c.tx }

/-- FULL to a kind other than PRESENCE: 11 entries of other kinds (R83). -/
def Tx.full (t : Tx) : Bool := decide (11 ≤ countOf (fun e => !e.body.isPresence) t.entries)

/-- A frame joins the queue with the next enqueue number (R86). -/
def Tx.join (t : Tx) (b : TxBody) : Tx :=
  { t with entries := t.entries ++ [{ num := t.nextNum, sending := false, renewed := false, withdrawn := false, body := b }],
           nextNum := t.nextNum + 1 }

/-- An ANSWER is requested: it joins, or is dropped when the queue is full (R86). -/
def Tx.answer (t : Tx) (a : AnswerBody) : Tx := if t.full then t else t.join (.answer a)

/-- A HOLDINGS, EXTENT or COPY frame is requested (R86): it joins, or is held when the queue is full. A freed entry goes to
the requests held before it, so it is held behind them while any is. -/
def Tx.request (t : Tx) (b : TxBody) : Tx :=
  if t.full || !t.held.isEmpty then { t with held := t.held ++ [b] } else t.join b

/-- A PRESENCE is requested: it renews the entry there is, or takes the entry kept for it (R86). -/
def Tx.presence (t : Tx) (p : PresenceBody) : Tx :=
  if t.entries.any (fun e => e.body.isPresence) then
    { t with entries := t.entries.map (fun e =>
        if e.body.isPresence then { e with body := .presence p, renewed := e.sending } else e) }
  else t.join (.presence p)

/-- A freed entry goes to a held request: the HOLDINGS request, else the oldest EXTENT or COPY (R86). -/
def Tx.meetHeld (t : Tx) : Option (TxBody × Tx) :=
  if t.full then none
  else
    match t.held.find? TxBody.isHoldings with
    | some b => some (b, { t with held := t.held.filter (fun x => !x.isHoldings) }.join b)
    | none =>
      match t.held with
      | [] => none
      | b :: rest => some (b, { t with held := rest }.join b)

/-- The frames that satisfy a test are withdrawn: WAITING entries and held requests leave, a SENDING entry is
marked (R87). -/
def Tx.withdraw (t : Tx) (p : TxBody → Bool) : Tx :=
  { t with
    entries := (t.entries.filter (fun e => e.sending || !p e.body)).map
      (fun e => if p e.body then { e with withdrawn := true } else e),
    held := t.held.filter (fun b => !p b) }

/-- An EXTENT body with stations taken out of its target mask. -/
def TxBody.narrow (b : TxBody) (p : Word → Nat → Bool) (t : Station) : TxBody :=
  match b with
  | .extent s i m src => if p s i.number then .extent s i (withoutStation m t) src else b
  | .presence _ => b
  | .answer _ => b
  | .holdings _ => b
  | .copy _ _ _ => b

/-- An EXTENT body with an empty target mask. -/
def TxBody.emptied (b : TxBody) : Bool :=
  match b with
  | .extent _ _ m _ => decide (m = 0)
  | .presence _ => false
  | .answer _ => false
  | .holdings _ => false
  | .copy _ _ _ => false

/-- NARROW (R88): a station is removed from the masks of the EXTENT frames chosen by page seq and extent; a frame
whose mask becomes empty is withdrawn. -/
def Tx.narrow (t : Tx) (p : Word → Nat → Bool) (s : Station) : Tx :=
  let narrowed : Tx := { t with entries := t.entries.map (fun e => { e with body := e.body.narrow p s }),
                                held := t.held.map (fun b => b.narrow p s) }
  narrowed.withdraw TxBody.emptied

/-- WIDEN (R88): targets are added to the WAITING entry of an extent, to each where two stand (log 48). -/
def Tx.widen (t : Tx) (seq : Word) (ext : Nat) (mask : Byte) : Tx :=
  { t with entries := t.entries.map (fun e =>
      if e.sending then e else
        match e.body with
        | .extent s i m src => if s = seq ∧ i.number = ext then { e with body := .extent s i (m ||| mask) src } else e
        | .presence _ => e
        | .answer _ => e
        | .holdings _ => e
        | .copy _ _ _ => e) }

/-- A WAITING EXTENT entry of the extent stands in the queue. -/
def Tx.waitingExtent (t : Tx) (seq : Word) (ext : Nat) : Bool :=
  t.entries.any (fun e => !e.sending && e.body.isExtent seq ext)

/-- Some entry or held request satisfies a test. -/
def Tx.stands (t : Tx) (p : TxBody → Bool) : Bool := t.entries.any (fun e => p e.body) || t.held.any p

/-- The entry that is SENDING. -/
def Tx.sendingEntry (t : Tx) : Option TxEntry :=
  match t.onAir with
  | none => none
  | some o => t.entries.find? (fun e => e.num == o.num)

/-- The first sendable WAITING entry in queue order (R83, R84). -/
def Tx.chosen (t : Tx) (st : StationState) : Option TxEntry :=
  let ready (n : Nat) : Option TxEntry :=
    t.entries.find? (fun e => !e.sending && e.body.cls == n && e.body.sendable st)
  match ready 0 with
  | some e => some e
  | none =>
    match ready 1 with
    | some e => some e
    | none =>
      match ready 2 with
      | some e => some e
      | none => ready 3

/-! ## Copy job slots (R143, R149) -/

/-- A job slot set. -/
def Ctl.setJob (c : Ctl) (slot : Fin 2) (j : Option Job) : Ctl := { c with jobs := vput c.jobs slot j }

/-- The COPY of the job in a slot is being sent. -/
def Ctl.copySending (c : Ctl) (slot : Fin 2) : Bool := c.tx.entries.any (fun e => e.sending && e.body.isCopyOf slot)

/-- A job ends or is cancelled with no read outstanding: its COPY is withdrawn and its slot is FREE, but while the
COPY is SENDING the slot keeps CANCELLED set until the attempt ends (R147, R149). -/
def Ctl.closeJob (c : Ctl) (slot : Fin 2) : Ctl :=
  match c.jobs.get slot with
  | none => c
  | some j =>
    let sending := c.copySending slot
    let c := c.onTx (fun t => t.withdraw (fun b => b.isCopyOf slot))
    if sending then c.setJob slot (some { j with cancelled := true, owed := false, timer := none })
    else c.setJob slot none

/-- A job is CANCELLED (R149): while it is READING the slot stays occupied until the read completes. -/
def Ctl.cancelJob (c : Ctl) (slot : Fin 2) : Ctl :=
  match c.jobs.get slot with
  | none => c
  | some j =>
    match j.state with
    | .reading => c.setJob slot (some { j with cancelled := true })
    | .queued => c.closeJob slot
    | .awaiting => c.closeJob slot

/-- The attempt of a cancelled job's COPY has ended: the slot is FREE (R149). -/
def Ctl.freeCancelled (c : Ctl) (b : TxBody) : Ctl :=
  match b with
  | .copy _ _ slot =>
    match c.jobs.get slot with
    | some j => if j.cancelled then c.setJob slot none else c
    | none => c
  | .presence _ => c
  | .answer _ => c
  | .holdings _ => c
  | .extent _ _ _ _ => c

/-- The attempt in progress ends without being sent whole: the entry becomes WAITING in its place, or leaves when it
has been withdrawn (R85, R87). -/
def Ctl.endAttempt (c : Ctl) : Ctl :=
  match c.tx.sendingEntry with
  | none => c.onTx (fun t => { t with onAir := none })
  | some e =>
    if e.withdrawn then
      (c.onTx (fun t => { t with onAir := none, entries := t.entries.filter (fun x => x.num != e.num) })).freeCancelled
        e.body
    else
      c.onTx (fun t => { t with onAir := none, entries := t.entries.map (fun x =>
        if x.num = e.num then { x with sending := false, renewed := false } else x) })

/-- CUT SHORT: a frame in progress whose kind is not sendable in the station's present state (R85). -/
def Ctl.cutShort (c : Ctl) : Ctl :=
  match c.tx.sendingEntry with
  | none => c
  | some e => if e.body.sendable c.station then c else c.endAttempt

/-- The station's state changes (Section 4), with CUT_SHORT (R85). -/
def Ctl.enterState (c : Ctl) (st : StationState) : Ctl := { c with station := st }.cutShort

/-! ## Contents of frames -/

/-- The PRESENCE state code of a station state (R90). -/
def StationState.presenceCode : StationState → Byte
  | .listening => 1
  | .active => 2
  | .frozen => 3
  | .leaving => 4
  | .mounting => 0
  | .isolated => 0

/-- The PRESENCE contents as they stand (R90). -/
def Ctl.presenceBody (c : Ctl) (k : Env) : PresenceBody :=
  { code := c.station.presenceCode,
    flags := bitOf (!c.replicaRoom) 0 ||| bitOf (decide (c.station = .leaving)) 1,
    copies := byteOf k.copies, gen := c.gen, mark := c.ownMark, pool := halfOf c.pool.length,
    mask := maskOf (allStations.filter (fun p => decide (p ≠ k.me) && (c.peers.get p).reportReq)) }

/-- The station requests a PRESENCE (R90, R91). -/
def Ctl.requestPresence (c : Ctl) (k : Env) : Ctl := c.onTx (fun t => t.presence (c.presenceBody k))

/-- The station requests an ANSWER (R86). -/
def Ctl.answer (c : Ctl) (a : AnswerBody) : Ctl := c.onTx (fun t => t.answer a)

/-- The depth vector of a page as the directory shows it (R85). -/
def Ctl.depthVector (c : Ctl) (id : PageId) : Half :=
  match c.entry id with
  | some e => depthBits e.depths
  | none => 0

/-- Slot data from the source of an EXTENT (R118). -/
def Ctl.extentData (c : Ctl) (src : ExtSource) (i : ExtentInfo) : List Byte :=
  match src with
  | .fill b =>
    match c.fill.get b with
    | some p => Memory.slots clearByte p.bytes i.first i.count
    | none => []
  | .readBack => Memory.slots erasedByte c.readBack.image i.first i.count

/-- The frame that an entry sends if its attempt begins now (R85); none for a COPY whose job is gone. -/
def Ctl.frameOf (c : Ctl) (k : Env) (b : TxBody) : Option Frame :=
  match b with
  | .presence p => some (.presence p)
  | .answer a => some (.answer a)
  | .holdings h => some (.holdings h)
  | .extent seq i m src =>
    some (.extent { seq := seq, ext := byteOf i.number, mask := m, flags := bitOf i.closing 0, first := byteOf i.first,
                    count := byteOf i.count, records := byteOf i.records, starts := i.starts,
                    depths := c.depthVector (ownId k seq), data := c.extentData src i })
  | .copy id target slot =>
    match c.jobs.get slot with
    | none => none
    | some j =>
      match j.n with
      | none => none
      | some n =>
        some (.copy { origin := byteOf id.origin.val, seq := id.seq, target := byteOf target.val,
                      flags := bitOf j.closed 0, descs := (imageExtents j.image n).map ExtentInfo.desc,
                      depths := c.depthVector id,
                      data := Memory.slots erasedByte j.image 0 (imageEnd j.image n) })

/-! ## COPY requests and catch-up requests (R144, R146) -/

/-- A COPY is requested for the job in a slot, or kept owed while another COPY is held (R146). -/
def Ctl.requestCopy (c : Ctl) (slot : Fin 2) : Ctl :=
  match c.jobs.get slot with
  | none => c
  | some j =>
    if c.tx.held.any TxBody.isAnyCopy then
      c.setJob slot (some { j with state := .queued, owed := true, timer := none })
    else
      (c.setJob slot (some { j with state := .queued, owed := false, timer := none, attempts := j.attempts + 1 })).onTx
        (fun t => t.request (.copy j.page j.target slot))

/-- While no COPY is held, an owed COPY of the other job is requested (R146). -/
def Ctl.requestOwedCopies (c : Ctl) : Ctl :=
  let one (c : Ctl) (slot : Fin 2) : Ctl :=
    match c.jobs.get slot with
    | some j => if j.owed && !c.tx.held.any TxBody.isAnyCopy then c.requestCopy slot else c
    | none => c
  one (one c 0) 1

/-- A COPY that was held may have been withdrawn: then an owed one is requested (R86, R146). -/
def Ctl.resumeCopies (c : Ctl) (before : Tx) : Ctl := if before.held.any TxBody.isAnyCopy then c.requestOwedCopies else c

/-- Every job that satisfies a test is cancelled (R149). -/
def Ctl.cancelJobs (c : Ctl) (p : Job → Bool) : Ctl :=
  let one (c : Ctl) (slot : Fin 2) : Ctl :=
    match c.jobs.get slot with
    | some j => if p j && !j.cancelled then c.cancelJob slot else c
    | none => c
  (one (one c 0) 1).resumeCopies c.tx

/-- A FREE job slot, the lower first (log 57). -/
def Ctl.freeSlot (c : Ctl) : Option (Fin 2) :=
  if (c.jobs.get 0).isNone then some 0 else if (c.jobs.get 1).isNone then some 1 else none

/-- A job takes a slot and its page read is requested (R144); none when the entry has no local page. -/
def Ctl.startJob (c : Ctl) (slot : Fin 2) (purpose : Purpose) (id : PageId) (target : Station) : Option Ctl :=
  match c.entry id with
  | none => none
  | some e =>
    match e.localPage with
    | none => none
    | some a =>
      some ((c.setJob slot (some { purpose := purpose, page := id, target := target, n := none, closed := false,
                                   state := .reading, attempts := 0, timer := none, cancelled := false, owed := false,
                                   image := [] })).enter
        { who := .copyJob slot, op := .pageRead a, emergency := false })

/-- A catch-up job or request stands for a page and target (R113, R144). -/
def Ctl.catchingUp (c : Ctl) (id : PageId) (t : Station) : Bool :=
  let inSlot (slot : Fin 2) : Bool :=
    match c.jobs.get slot with
    | some j => decide (j.purpose = .catchUp) && decide (j.page = id) && decide (j.target = t) && !j.cancelled
    | none => false
  inSlot 0 || inSlot 1 || c.catchUps.any (fun x => x.seq == id.seq && x.target == t)

end Sys2Proof.Machine
end

