-- ==== Sys2Proof/Machine/OwnExtent.lean ====
section
/-!
DEFINITION. The own-extent engine (Section 7): the fill pair, formation, the local program, transmissions, answers,
lost targets and substitutes, settling and the confirmed frontier.
-/

namespace Sys2Proof.Machine

/-! ## The fill pair (R106) -/

/-- The fill buffer that holds an own page. -/
def Ctl.fillOf (c : Ctl) (seq : Word) : Option (Fin 2 × FillPage) :=
  let holds (b : Fin 2) : Option (Fin 2 × FillPage) :=
    match c.fill.get b with
    | some p => if p.seq = seq then some (b, p) else none
    | none => none
  match holds 0 with
  | some x => some x
  | none => holds 1

/-- The open own page with its fill buffer, the CURRENT one (R106). -/
def Ctl.openPage (c : Ctl) (k : Env) : Option (Fin 2 × FillPage) :=
  let isOpen (b : Fin 2) : Option (Fin 2 × FillPage) :=
    match c.fill.get b with
    | some p =>
      match c.ownEntry k p.seq with
      | some e => if e.closed then none else some (b, p)
      | none => none
    | none => none
  match isOpen 0 with
  | some x => some x
  | none => isOpen 1

/-- A fill buffer set. -/
def Ctl.setFill (c : Ctl) (b : Fin 2) (p : Option FillPage) : Ctl := { c with fill := vput c.fill b p }

/-- The end of the page's last formed extent (R7). -/
def FillPage.formed (p : FillPage) : Nat :=
  match p.extents.getLast? with
  | some e => e.last
  | none => 0

/-- The slots from `a` to below `b`, as a mask. -/
def slotMask (a b : Nat) : Byte := maskOf (allStations.filter (fun i => decide (a ≤ i.val) && decide (i.val < b)))

/-- Bytes above the placed slots are set to 00H again (R106). -/
def FillPage.cleared (p : FillPage) : FillPage := { p with bytes := p.bytes.below (p.used * 512) }

/-- The unflushed records are discarded (R116). -/
def FillPage.discardUnflushed (p : FillPage) : FillPage :=
  { p with used := p.formed, starts := p.starts &&& slotMask 0 p.formed,
           records := popCount (p.starts &&& slotMask 0 p.formed),
           bytes := p.bytes.below (p.formed * 512) }

/-! ## The Extent Table (R112, R113) -/

/-- The table's room in entries, those reserved for the command in progress set aside (R108, R112). -/
def Ctl.tableRoom (c : Ctl) : Nat :=
  16 - c.et.length -
    (match c.port.act with
     | .appendOpening a => a.reserved
     | .appendData a _ => a.reserved
     | .idle => 0
     | .collecting _ _ => 0
     | .flushWait _ _ => 0
     | .releaseWait _ => 0
     | .readBufWait _ _ => 0
     | .readWait _ _ => 0
     | .scanBufWait => 0
     | .scanWait _ => 0
     | .scanNextWait => 0
     | .resetWait => 0)

/-- The entry of an extent. -/
def Ctl.etEntry (c : Ctl) (seq : Word) (ext : Nat) : Option ETEntry := c.et.find? (fun x => x.seq == seq && x.ext == ext)

/-- The entries of a page changed. -/
def Ctl.onPageEntries (c : Ctl) (seq : Word) (f : ETEntry → ETEntry) : Ctl :=
  { c with et := c.et.map (fun x => if x.seq = seq then f x else x) }

/-- The entry is not settled. -/
def ETEntry.unsettled (x : ETEntry) : Bool := decide (x.settled = .none)

/-- The entry's record of a station, DROPPED ones too. -/
def ETEntry.record (x : ETEntry) (t : Station) : Option TargetRec :=
  (x.places.filterMap (·.target)).find? (fun r => r.station == t)

/-- The entry has a record of a station that is not DROPPED. -/
def ETEntry.liveRecord (x : ETEntry) (t : Station) : Bool :=
  (x.places.filterMap (·.target)).any (fun r => r.station == t && decide (r.state ≠ .dropped))

/-- The records of a station changed. -/
def ETEntry.onRecord (x : ETEntry) (t : Station) (f : TargetRec → TargetRec) : ETEntry :=
  { x with places := x.places.map (fun p =>
      match p.target with
      | some r => if r.station = t then { p with target := some (f r) } else p
      | none => p) }

/-- Every record changed. -/
def ETEntry.onRecords (x : ETEntry) (f : TargetRec → TargetRec) : ETEntry :=
  { x with places := x.places.map (fun p => { p with target := p.target.map f }) }

/-- The stations AWAITING in an entry, as a mask. -/
def ETEntry.awaiting (x : ETEntry) : Byte :=
  maskOf (((x.places.filterMap (·.target)).filter (fun r => decide (r.state = .awaiting))).map (·.station))

/-- The place is EMPTY. -/
def Place.isEmpty (p : Place) : Bool := p.target.isNone

/-- The place holds a DROPPED record. -/
def Place.isDropped (p : Place) : Bool := p.target.any (fun r => decide (r.state = .dropped))

/-- The place waits for a station: EMPTY or DROPPED. -/
def Place.wants (p : Place) : Bool := p.isEmpty || p.isDropped

/-- An EXTRA place joins an entry that has none (R116, R117). -/
def ETEntry.withExtra (x : ETEntry) : ETEntry :=
  if x.places.any (·.extra) then x else { x with places := x.places ++ [{ extra := true, target := none }] }

/-! ## Owed and waiting transmissions (R118) -/

/-- A waiting transmission added to a list of them: merged with the one of the same extent. -/
def addWanted (w : Wanted) : List Wanted → List Wanted
  | [] => [w]
  | x :: xs => if x.seq = w.seq ∧ x.ext = w.ext then { x with mask := x.mask ||| w.mask } :: xs else x :: addWanted w xs

/-- What is left of a waiting transmission: the stations still AWAITING in an unsettled entry (R118). -/
def Ctl.stillWanted (c : Ctl) (w : Wanted) : Option Wanted :=
  match c.etEntry w.seq w.ext with
  | none => none
  | some x =>
    if x.unsettled && decide (w.mask &&& x.awaiting ≠ 0) then some { w with mask := w.mask &&& x.awaiting } else none

/-- Owed transmissions are dropped when their entry is settled, and lose the stations that have left AWAITING (R118). -/
def Ctl.pruneOwed (c : Ctl) : Ctl :=
  { c with owed := c.owed.filterMap c.stillWanted,
           readBack := { c.readBack with wants := c.readBack.wants.filterMap c.stillWanted } }

/-- An EXTENT of the entry stands in the queue, is held, is owed, or waits for a read-back. -/
def Ctl.extentStands (c : Ctl) (seq : Word) (ext : Nat) : Bool :=
  c.tx.stands (fun b => b.isExtent seq ext) || c.owed.any (fun w => w.seq == seq && w.ext == ext)

/-- SEND STATE of an entry (R113), as Table 11-13 codes it: 0 WAITING-QUEUE, 1 SENT, 2 UNPLACED. -/
def Ctl.sendState (c : Ctl) (x : ETEntry) : Nat :=
  if x.places.any Place.wants then 2 else if c.extentStands x.seq x.ext then 0 else 1

/-- The answer timer's deadline, 40 ms (R118). -/
def answerTimeout : Nat := 40

/-- The answer timers of a page's entries that have lost their last frame while a record is still AWAITING start
anew (R119; log 19). -/
def Ctl.resumeTimers (c : Ctl) (seq : Word) : Ctl :=
  c.onPageEntries seq (fun x =>
    if x.unsettled && decide (x.awaiting ≠ 0) && x.timer.isNone && x.firstSent && !c.extentStands x.seq x.ext
        && !c.readBack.wants.any (fun w => w.seq == x.seq && w.ext == x.ext)
    then { x with timer := some answerTimeout } else x)

/-- A transmission requested: the attempts of its records are counted, the timer stops (R118). -/
def Ctl.countAttempts (c : Ctl) (seq : Word) (ext : Nat) (mask : Byte) : Ctl :=
  c.onPageEntries seq (fun x =>
    if x.ext = ext then
      { x.onRecords (fun r =>
          if has mask r.station && decide (r.state = .awaiting) then { r with attempts := r.attempts + 1 } else r) with
        timer := none }
    else x)

/-- A transmission whose source is at hand is requested (R118): it widens a WAITING entry (R88), is owed while an
EXTENT request is held, or is requested by R86. -/
def Ctl.sendExtent (c : Ctl) (seq : Word) (info : ExtentInfo) (mask : Byte) (src : ExtSource) : Ctl :=
  if c.tx.waitingExtent seq info.number then
    (c.onTx (fun t => t.widen seq info.number mask)).countAttempts seq info.number mask
  else if c.tx.held.any TxBody.isAnyExtent then
    { (c.onPageEntries seq (fun x => if x.ext = info.number then { x with timer := none } else x)) with
      owed := addWanted { seq := seq, ext := info.number, mask := mask } c.owed }
  else
    (c.onTx (fun t => t.request (.extent seq info mask src))).countAttempts seq info.number mask

/-- The read-back buffer, when it is free, is taken for the first entry that wants one (R118). -/
def Ctl.startReadBack (c : Ctl) (k : Env) : Ctl :=
  if c.readBack.page.isSome then c
  else
    match c.et.find? (fun x => c.readBack.wants.any (fun w => w.seq == x.seq)) with
    | none => c
    | some x =>
      match c.ownEntry k x.seq with
      | none => c
      | some e =>
        match e.localPage with
        | none => c
        | some a =>
          { c with readBack := { c.readBack with page := some x.seq, reading := true, image := [] } }.enter
            { who := .ownReadBack x.seq, op := .pageRead a, emergency := false }

/-- A transmission of an extent to the stations of a mask is requested (R118): from the fill buffer while it holds
the page, else from the read-back buffer, else after a read-back of the local copy; without any source the records
are SOURCELESS (R113). -/
def Ctl.transmit (c : Ctl) (k : Env) (seq : Word) (ext : Nat) (mask : Byte) : Ctl :=
  if mask = 0 then c
  else
    match c.fillOf seq with
    | some (b, p) =>
      match p.extents.find? (fun i => i.number == ext) with
      | some i => c.sendExtent seq i mask (.fill b)
      | none => c
    | none =>
      let held := match c.ownEntry k seq with
        | some e => e.localPage.isSome && decide (ext < e.ownDepth k)
        | none => false
      if c.readBack.page = some seq && !c.readBack.reading then
        match imageDesc c.readBack.image ext with
        | some d => c.sendExtent seq d.info mask .readBack
        | none => c
      else if held then
        { c with readBack := { c.readBack with wants := addWanted { seq := seq, ext := ext, mask := mask }
                                                          c.readBack.wants } }.startReadBack k
      else
        c.onPageEntries seq (fun x =>
          if x.ext = ext then
            x.onRecords (fun r =>
              if has mask r.station && decide (r.state = .awaiting) then { r with state := .sourceless } else r)
          else x)

/-- The owed transmissions are requested in turn, oldest first, until one is held (R118). -/
def Ctl.requestOwed (c : Ctl) (k : Env) : Ctl :=
  let l := (c.pruneOwed).owed
  l.foldl (fun c w => c.transmit k w.seq w.ext w.mask) { c.pruneOwed with owed := [] }

/-! ## Settling and the frontier (R125, R126) -/

/-- Extent `ext` of the page is durable as the directory stands (R12). -/
def Ctl.durable (c : Ctl) (k : Env) (seq : Word) (ext : Nat) : Bool :=
  match c.ownEntry k seq with
  | some e => decide (k.copies ≤ e.extentHolders ext)
  | none => false

/-- The settled mark of an entry after a test of durability (R125). -/
def Ctl.settleEntry (c : Ctl) (k : Env) (x : ETEntry) : ETEntry :=
  match x.settled with
  | .released => x
  | .none => if c.durable k x.seq x.ext then { x with settled := .durable, timer := none } else x
  | .durable => if c.durable k x.seq x.ext then x else { x with settled := .none }

/-- The stations AWAITING in a settled entry are taken out of the waiting EXTENT masks (R125, R88). -/
def Ctl.narrowSettled (c : Ctl) (x : ETEntry) : Ctl :=
  if x.unsettled then c
  else (stationsOf x.awaiting).foldl
    (fun c t => c.onTx (fun q => q.narrow (fun s e => s == x.seq && e == x.ext) t)) c

/-- The head entry may leave the table (R125). -/
def Ctl.headLeaves (c : Ctl) (k : Env) (x : ETEntry) : Bool :=
  match x.settled with
  | .released => true
  | .durable => c.durable k x.seq x.ext && decide (x.prog ≠ .pending)
  | .none => false

/-- The head entry leaves: the frontier advances to it; when it was the last of its page, the page's under flag is
evaluated and its targets are discarded if it is closed (R125, R41). -/
def Ctl.leaveTable (c : Ctl) (k : Env) (x : ETEntry) (rest : List ETEntry) : Ctl :=
  let c := { c with et := rest, frontier := .extent x.seq x.ext }.hand .frontier
  if c.inTable x.seq then c else (c.update k (ownId k x.seq) id).dropTargets k x.seq

/-- The head is judged, and each entry that becomes the head after it (R125). -/
def Ctl.judgeHeads (c : Ctl) (k : Env) : Nat → Ctl
  | 0 => c
  | fuel + 1 =>
    match c.et with
    | [] => c
    | x :: rest => if c.headLeaves k x then (c.leaveTable k x rest).judgeHeads k fuel else c

/-- The table is judged from its head (R125). -/
def Ctl.judge (c : Ctl) (k : Env) : Ctl := c.judgeHeads k c.et.length

/-! ## Targets: loss, substitution, bringing up (R122) -/

/-- The unsettled entries of a page. -/
def Ctl.unsettledOf (c : Ctl) (seq : Word) : List ETEntry := c.et.filter (fun x => x.seq == seq && x.unsettled)

/-- A catch-up that has no local page to read is reported FAILED by damage (R144): the records stay AWAITING-COPY
while a restore is outstanding, and become SOURCELESS otherwise (R123). -/
def Ctl.catchUpDamaged (c : Ctl) (k : Env) (seq : Word) (t : Station) : Ctl :=
  match c.ownEntry k seq with
  | none => c
  | some e =>
    if e.pendingExt.isSome then c
    else c.onPageEntries seq (fun x => x.onRecord t (fun r =>
      if r.state = .awaitingCopy then { r with state := .sourceless } else r))

/-- A catch-up job for a page and target is requested: granted at once when a slot is FREE and no request waits,
else it joins the list, unless it stands already (R144). -/
def Ctl.requestCatchUp (c : Ctl) (k : Env) (seq : Word) (t : Station) : Ctl :=
  if c.catchingUp (ownId k seq) t then c
  else
    match c.freeSlot, c.catchUps with
    | some slot, [] =>
      match c.startJob slot .catchUp (ownId k seq) t with
      | some c' => c'
      | none => c.catchUpDamaged k seq t
    | _, _ => { c with catchUps := c.catchUps ++ [{ seq := seq, target := t }] }

/-- The SOURCELESS records of a station in the page's unsettled entries take a state. -/
def Ctl.setSourceless (c : Ctl) (seq : Word) (t : Station) (st : RecState) : Ctl :=
  c.onPageEntries seq (fun x =>
    if x.unsettled then x.onRecord t (fun r => if r.state = .sourceless then { r with state := st } else r) else x)

/-- Every extent formed of the page has an Extent Table entry. -/
def Ctl.allInTable (c : Ctl) (p : FillPage) : Bool := p.extents.all (fun i => (c.etEntry p.seq i.number).isSome)

/-- The SOURCELESS records of a station are brought up by the first way that applies (R122): a catch-up job, EXTENT
frames from the fill buffer, or not at all. -/
def Ctl.bringUp (c : Ctl) (k : Env) (seq : Word) (t : Station) : Ctl :=
  match c.ownEntry k seq with
  | none => c
  | some e =>
    if 1 ≤ e.ownDepth k then (c.setSourceless seq t .awaitingCopy).requestCatchUp k seq t
    else
      match c.fillOf seq with
      | none => c
      | some (_, p) =>
        if c.allInTable p then
          let fresh := (c.unsettledOf seq).filter (fun x =>
            (x.record t).any (fun r => decide (r.state = .sourceless)))
          fresh.foldl (fun c x => c.transmit k seq x.ext (withStation 0 t)) (c.setSourceless seq t .awaiting)
        else c

/-- The most places of one kind that any of the entries has. -/
def mostPlaces (l : List ETEntry) (p : Place → Bool) : Nat := l.foldl (fun m x => max m (countOf p x.places)) 0

/-- Up to `n` substitutes join the assigned targets (R103, R122). -/
def Ctl.addSubstitutes (c : Ctl) (k : Env) (seq : Word) : Nat → Ctl
  | 0 => c
  | n + 1 =>
    match c.ownEntry k seq with
    | none => c
    | some e =>
      match c.substitute k e with
      | none => c
      | some s =>
        (c.update k (ownId k seq) (fun e => { e with targets := e.targets ++ [s] })).addSubstitutes k seq n

/-- A substitute becomes the extra target when an extra place wants one (R103, R122). -/
def Ctl.addExtraTarget (c : Ctl) (k : Env) (seq : Word) : Ctl :=
  match c.ownEntry k seq with
  | none => c
  | some e =>
    if e.extra.isNone && (c.unsettledOf seq).any (fun x => x.places.any (fun p => p.extra && p.wants)) then
      match c.substitute k e with
      | none => c
      | some s => c.update k (ownId k seq) (fun e => { e with extra := some s })
    else c

/-- The first place of a kind that wants a station takes a new record for it. -/
def placeRecord (extra : Bool) (t : Station) : List Place → List Place
  | [] => []
  | p :: ps =>
    if p.extra = extra && p.wants then
      { p with target := some { station := t, state := .sourceless, attempts := 0 } } :: ps
    else p :: placeRecord extra t ps

/-- A target of the page takes a place in every unsettled entry that has no record of it (R122). -/
def Ctl.placeTarget (c : Ctl) (seq : Word) (extra : Bool) (t : Station) : Ctl :=
  c.onPageEntries seq (fun x =>
    if x.unsettled && !x.liveRecord t then { x with places := placeRecord extra t x.places } else x)

/-- A target is placed and the records it newly takes are brought up (R122). -/
def Ctl.placeAndBringUp (c : Ctl) (k : Env) (seq : Word) (extra : Bool) (t : Station) : Ctl :=
  if (c.unsettledOf seq).any (fun x => !x.liveRecord t && x.places.any (fun p => decide (p.extra = extra) && p.wants))
  then (c.placeTarget seq extra t).bringUp k seq t
  else c

/-- Substitutes are sought for the page's places (R122, R124): for the DROPPED places and EMPTY extra places, and,
in a retry, for the EMPTY assigned places too (log 18). -/
def Ctl.fillPlaces (c : Ctl) (k : Env) (seq : Word) (retry : Bool) : Ctl :=
  match c.ownEntry k seq with
  | none => c
  | some e =>
    let open_ := c.unsettledOf seq
    let want := mostPlaces open_ (fun p => !p.extra && (p.isDropped || (retry && p.isEmpty)))
    let c := (c.addSubstitutes k seq (min want (k.copies - 1 - e.targets.length))).addExtraTarget k seq
    match c.ownEntry k seq with
    | none => c
    | some e =>
      let c := e.targets.foldl (fun c t => c.placeAndBringUp k seq false t) c
      match e.extra with
      | some t => c.placeAndBringUp k seq true t
      | none => c

/-- Durability is tested for the page's entries, settled stations are narrowed out, entries no longer durable have
their lost stations taken by R122, and the head is judged (R125). -/
def Ctl.testDurable (c : Ctl) (k : Env) (seq : Word) : Ctl :=
  let reopened := c.et.any (fun x => x.seq == seq && decide (x.settled = .durable) && !c.durable k x.seq x.ext)
  let c := c.onPageEntries seq (c.settleEntry k)
  let c := ((c.et.filter (fun x => x.seq == seq)).foldl Ctl.narrowSettled c).pruneOwed
  let c := if reopened then (c.fillPlaces k seq false).resumeTimers seq else c
  c.judge k

/-- A station is LOST for an own page (R122). A page with no unsettled entry keeps the station among its targets (log 49),
and a station that is no target of the page is not taken as lost (log 44). -/
def Ctl.loseTarget (c : Ctl) (k : Env) (seq : Word) (t : Station) : Ctl :=
  match c.ownEntry k seq with
  | none => c
  | some e =>
    let isTarget := e.targets.contains t || decide (e.extra = some t)
      || c.et.any (fun x => x.seq == seq && x.liveRecord t)
    if (c.unsettledOf seq).isEmpty || !isTarget then c
    else
      let c := c.onPageEntries seq (fun x => x.onRecord t (fun r => { r with state := .dropped }))
      let c := c.update k (ownId k seq) (fun e =>
        { e with targets := e.targets.filter (· != t), extra := if e.extra = some t then none else e.extra,
                 excluded := withStation e.excluded t })
      let c := c.onTx (fun q => q.narrow (fun s _ => s == seq) t)
      let c := c.cancelJobs (fun j => decide (j.page = ownId k seq) && decide (j.target = t))
      let c := { c with catchUps := c.catchUps.filter (fun x => !(x.seq == seq && x.target == t)) }
      ((c.pruneOwed.fillPlaces k seq false).pruneOwed).resumeTimers seq

/-! ## Formation (R7, R8, R111) -/

/-- The extent that a formation makes of the page's unflushed slots (R7, R8); `noFit` for the no-fit case. -/
def FillPage.nextExtent (p : FillPage) (noFit : Bool) : ExtentInfo :=
  let number := p.extents.length
  let starts := p.starts &&& slotMask p.formed p.used
  { number := number, first := p.formed, count := p.used - p.formed, records := popCount starts, starts := starts,
    closing := decide (number = 2) || decide (p.used = 8) || noFit }

/-- The page has unflushed slots (R7). -/
def FillPage.unflushed (p : FillPage) : Bool := decide (p.formed < p.used)

/-- The target record of a new entry for a target of the page (R113). -/
def Ctl.newRecord (c : Ctl) (k : Env) (seq : Word) (t : Station) : TargetRec :=
  { station := t, state := if c.catchingUp (ownId k seq) t then .awaitingCopy else .awaiting, attempts := 0 }

/-- The places of a new entry: COPIES-1 assigned places, EMPTY where a target is lacking (R113). -/
def Ctl.newPlaces (c : Ctl) (k : Env) (e : Entry) : List Place :=
  (List.range (k.copies - 1)).map (fun i =>
    { extra := false, target := (e.targets[i]?).map (c.newRecord k e.id.seq) })

/-- An extent is formed of the unflushed slots of the page in fill buffer `b` (R111): the directory and, when
`entry` says how its local program stands, the Extent Table are updated. -/
def Ctl.addExtent (c : Ctl) (k : Env) (b : Fin 2) (p : FillPage) (noFit : Bool) (entry : Option LocalProg) : Ctl :=
  let i := p.nextExtent noFit
  let c := c.setFill b (some { p with extents := p.extents ++ [i] })
  let c := match entry, c.ownEntry k p.seq with
    | some prog, some e =>
      let x : ETEntry := { seq := p.seq, ext := i.number, first := i.first, count := i.count, prog := prog,
                           places := c.newPlaces k e, timer := none, settled := .none, firstSent := false }
      let x := { x with firstSent := decide (x.awaiting = 0) }
      { c with et := c.et ++ [if prog = LocalProg.failed then x.withExtra else x] }
    | _, _ => c
  c.update k (ownId k p.seq) (fun e =>
    { e with known := max e.known (i.number + 1), used := i.last, closed := e.closed || i.closing })

/-- The first transmission of a new entry: to all its AWAITING records (R118). -/
def Ctl.transmitNew (c : Ctl) (k : Env) (seq : Word) (ext : Nat) : Ctl :=
  match c.etEntry seq ext with
  | some x => c.transmit k seq ext x.awaiting
  | none => c

/-! ## The local program (R114 to R117) -/

/-- A FLUSH that waits for an extent of the page is answered once the extent's program is no longer PENDING (R110). -/
def Ctl.answerFlush (c : Ctl) (seq : Word) : Ctl :=
  match c.port.act with
  | .flushWait s ext =>
    if s = seq then
      match c.etEntry seq ext with
      | some x =>
        match x.prog with
        | .programmed => c.endCommand .ok (bytes32 seq ++ [byteOf ext])
        | .failed => c.endCommand .programFail []
        | .pending => c
      | none => c
    else c
  | .idle => c
  | .collecting _ _ => c
  | .appendOpening _ => c
  | .appendData _ _ => c
  | .releaseWait _ => c
  | .readBufWait _ _ => c
  | .readWait _ _ => c
  | .scanBufWait => c
  | .scanWait _ => c
  | .scanNextWait => c
  | .resetWait => c

/-- The unsolicited ANSWER DROPPED (R54, R55, R116). -/
def droppedAnswer (id : PageId) (ext aux : Nat) : AnswerBody :=
  { addressee := unsolicited, origin := byteOf id.origin.val, seq := id.seq, ext := byteOf ext, flags := 0,
    verdict := Verdict.dropped.code, aux := byteOf aux }

/-- An APPEND in its data phase into the page ends PROGRAM-FAIL, its record discarded (R116, R163). -/
def Ctl.failAppend (c : Ctl) (b : Fin 2) : Ctl :=
  match c.port.act with
  | .appendData _ _ =>
    match c.fill.get b with
    | some p => (c.setFill b (some p.cleared)).endCommand .programFail []
    | none => c
  | .idle => c
  | .collecting _ _ => c
  | .appendOpening _ => c
  | .flushWait _ _ => c
  | .releaseWait _ => c
  | .readBufWait _ _ => c
  | .readWait _ _ => c
  | .scanBufWait => c
  | .scanWait _ => c
  | .scanNextWait => c
  | .resetWait => c

/-- The open page closes by case 4 of R8 (R116): its unflushed slots become a last extent, FAILED at once, if an
entry is free, and are discarded otherwise. -/
def Ctl.closeFailed (c : Ctl) (k : Env) (seq : Word) (b : Fin 2) : Ctl :=
  let c := c.failAppend b
  match c.fill.get b with
  | none => c
  | some p =>
    let c :=
      if p.unflushed then
        if 1 ≤ c.tableRoom then
          (c.addExtent k b p false (some .failed)).transmitNew k seq (p.extents.length)
        else (c.setFill b (some p.discardUnflushed)).hand .deficit
      else c
    c.update k (ownId k seq) (fun e => { e with closed := true })

/-- No copy is left to read: the records that wait for a catch-up that no longer stands become SOURCELESS (R123). -/
def Ctl.loseSource (c : Ctl) (k : Env) (seq : Word) : Ctl :=
  c.onPageEntries seq (fun x => x.onRecords (fun r =>
    if decide (r.state = .awaitingCopy) && !c.catchingUp (ownId k seq) r.station then { r with state := .sourceless }
    else r))

/-- Refusal of an own relocation allocation: the page cannot be programmed further at this station (R116). -/
def Ctl.ownRefused (c : Ctl) (k : Env) (seq : Word) (sayDropped : Bool) : Ctl :=
  match c.ownEntry k seq with
  | none => c
  | some e =>
    let d := e.ownDepth k
    let wasOpen := !e.closed
    let c := c.update k (ownId k seq) (fun e =>
      { e with pendingExt := none, localPage := if d = 0 then none else e.localPage,
               copyEnd := if d = 0 then 0 else e.copyEnd })
    let c := if d = 0 then (c.killPages [e.localPage]).loseSource k seq else c
    let c := c.onPageEntries seq (fun x => if x.prog = .pending then { x with prog := .failed }.withExtra else x)
    let c := if sayDropped then c.answer (droppedAnswer (ownId k seq) e.known d) else c
    let c := c.answerFlush seq
    let c := match c.fillOf seq with
      | some (b, p) =>
        let c := c.setFill b (some { p with failed := true })
        if wasOpen then c.closeFailed k seq b else c
      | none => c
    ((c.fillPlaces k seq false).judge k).dropTargets k seq

/-- The holder set of an own descriptor: the page's targets at the request (R6, R41). -/
def Entry.holderSet (e : Entry) : Byte :=
  maskOf (e.targets ++ (match e.extra with
    | some t => [t]
    | none => []))

/-- A descriptor place of the fill buffer's page, its check computed from the slots (R173). -/
def FillPage.descriptor (p : FillPage) (holders : Byte) (i : ExtentInfo) : Nat × List Byte :=
  (i.number, descriptorBytes i holders (crc (Memory.slots clearByte p.bytes i.first i.count)))

/-- The local copy is moved or restored: one program writes every extent formed so far into a new page (R115, R117);
R116 when the allocation is refused. -/
def Ctl.ownRelocate (c : Ctl) (k : Env) (seq : Word) (sayDropped : Bool) : Ctl :=
  match c.fillOf seq, c.ownEntry k seq with
  | some (b, p), some e =>
    match c.allocate .own true with
    | none => c.ownRefused k seq sayDropped
    | some (a, c) =>
      let n := p.extents.length
      let c := c.update k (ownId k seq) (fun e => { e with relocPage := some a, pendingExt := some n })
      let c := c.setFill b (some { p with failed := false })
      c.enter
        { who := .own seq true n, emergency := false,
          op := .program { page := a, first := 0, count := p.formed,
                           identity := some (identityBytes (byteOf k.me.val) seq),
                           descs := p.extents.map (p.descriptor e.holderSet), source := .fill b } }
  | _, _ => c

/-- The next program of the page's local copy is requested when none is outstanding (R114). In LEAVING the program of the
extent that the emergency flush has formed is one of its programs (R71, R114; log 23). -/
def Ctl.requestProgram (c : Ctl) (k : Env) (seq : Word) : Ctl :=
  match c.fillOf seq, c.ownEntry k seq with
  | some (b, p), some e =>
    if p.failed || e.pendingExt.isSome then c
    else
      match p.extents[e.ownDepth k]?, e.localPage with
      | some i, some a =>
        if c.inRetired a then c.ownRelocate k seq true
        else
          (c.update k (ownId k seq) (fun e => { e with pendingExt := some (i.number + 1) })).enter
            { who := .own seq false (i.number + 1), emergency := decide (c.station = .leaving) && decide (p.urgent = some i.number),
              op := .program { page := a, first := i.first, count := i.count,
                               identity := if i.number = 0 then some (identityBytes (byteOf k.me.val) seq) else none,
                               descs := [p.descriptor e.holderSet i], source := .fill b } }
      | _, _ => c
  | _, _ => c

/-- An extent is formed with an Extent Table entry; its program and its transmission are requested (R111). -/
def Ctl.formExtent (c : Ctl) (k : Env) (b : Fin 2) (p : FillPage) (noFit : Bool) : Ctl :=
  ((c.addExtent k b p noFit (some .pending)).requestProgram k p.seq).transmitNew k p.seq p.extents.length

/-- The emergency flush forms the extent, without an entry when the table is full (R71, R111). -/
def Ctl.formEmergency (c : Ctl) (k : Env) (b : Fin 2) (p : FillPage) : Ctl :=
  let p := { p with urgent := some p.extents.length }
  if 1 ≤ c.tableRoom then c.formExtent k b p false
  else ((c.addExtent k b p false none).requestProgram k p.seq).dropTargets k p.seq

/-- The entries of a page whose extents a program has carried become PROGRAMMED (R114, R115, R117). -/
def Ctl.markProgrammed (c : Ctl) (seq : Word) (n : Nat) : Ctl :=
  c.onPageEntries seq (fun x => if x.ext < n then { x with prog := .programmed } else x)

/-- Records that wait for a local copy are brought up anew (R117, R122, R123). -/
def Ctl.bringUpAll (c : Ctl) (k : Env) (seq : Word) : Ctl :=
  allStations.foldl (fun c t =>
    let recs := (c.unsettledOf seq).filterMap (fun x => x.record t)
    if recs.any (fun r => decide (r.state = .sourceless)) then c.bringUp k seq t
    else if recs.any (fun r => decide (r.state = .awaitingCopy)) then c.requestCatchUp k seq t
    else c) c

/-- The PASS of an own program: own depth, local page, PROGRAMMED entries, the waiting FLUSH, durability, the next
program (R36, R47, R114, R115, R117). -/
def Ctl.ownPassed (c : Ctl) (k : Env) (e : Entry) (moved : Bool) (n endSlot : Nat) : Ctl :=
  let seq := e.id.seq
  let c := c.update k e.id (fun e =>
    { (e.setDepth k.me n) with pendingExt := none, copyEnd := endSlot, relocPage := none,
                               localPage := if moved then e.relocPage else e.localPage })
  let c := if moved then c.killPages [e.localPage] else c
  let c := (c.markProgrammed seq n).answerFlush seq
  let c := (c.testDurable k seq).requestProgram k seq
  if moved then c.bringUpAll k seq else c

/-- The slots that a program writes end here. -/
def ProgramReq.endSlot (p : ProgramReq) : Nat := p.first + p.count

/-- How a program ended, as its requester is told (Table 2-3). -/
inductive ProgramOut where
  | pass
  | fail
  | notHeld
  deriving DecidableEq, Repr

/-- The completion of an own program (R114, R115): a result for a page the entry no longer names is discarded. When a
restore has failed, the DROPPED answer has been given already (R117). -/
def Ctl.ownProgramEnd (c : Ctl) (k : Env) (seq : Word) (moved : Bool) (n : Nat) (p : ProgramReq) (out : ProgramOut) :
    Ctl :=
  let c := if out = .fail then c.retire p.page.block else c
  match c.ownEntry k seq with
  | none => c
  | some e =>
    let named := e.pendingExt.isSome && decide ((if moved then e.relocPage else e.localPage) = some p.page)
    if named then
      match out with
      | .pass => c.ownPassed k e moved n p.endSlot
      | .fail =>
        let c := c.update k e.id (fun e => { e with pendingExt := none, relocPage := none })
        let c := if moved then c.killPages [some p.page] else c
        c.ownRelocate k seq e.localPage.isSome
      | .notHeld => c
    else c

/-- Notice that the local copy of an own page has been dropped (R54, R117): each unsettled entry gains an extra place, for
which a substitute is sought; a fill buffer that still holds the page restores the copy (log 21), and without one the
records served from it become SOURCELESS. -/
def Ctl.ownDropNotice (c : Ctl) (k : Env) (seq : Word) : Ctl :=
  let c := c.onPageEntries seq (fun x => if x.unsettled then x.withExtra else x)
  match c.fillOf seq with
  | some _ => (c.fillPlaces k seq false).ownRelocate k seq false
  | none =>
    let c := c.onPageEntries seq (fun x =>
      if x.unsettled then
        x.onRecords (fun r =>
          if r.state = .awaiting ∨ r.state = .awaitingCopy then { r with state := .sourceless } else r)
      else x)
    c.pruneOwed.fillPlaces k seq false

/-! ## Answers and results (R120 to R124) -/

/-- The records of a station for extents below `n` that wait become DONE, and the station leaves the waiting frames of
those extents (R120, R123). -/
def Ctl.recordsDone (c : Ctl) (seq : Word) (t : Station) (n : Nat) : Ctl :=
  let c := c.onPageEntries seq (fun x =>
    if x.ext < n then x.onRecord t (fun r =>
      match r.state with
      | .awaiting => { r with state := .done }
      | .awaitingCopy => { r with state := .done }
      | .sourceless => { r with state := .done }
      | .done => r
      | .dropped => r) else x)
  ((c.onTx (fun q => q.narrow (fun s e => s == seq && decide (e < n)) t)).pruneOwed).resumeTimers seq

/-- A depth of an own page recorded, with durability tested (R11, R125). -/
def Ctl.recordOwnDepth (c : Ctl) (k : Env) (seq : Word) (f : Entry → Entry) : Ctl :=
  (c.update k (ownId k seq) f).testDurable k seq

/-- The record is one that a GAP sends again: DONE or AWAITING (R121). -/
def TargetRec.resends (r : TargetRec) : Bool := decide (r.state = .awaiting) || decide (r.state = .done)

/-- The record of a station in the entry of an extent. -/
def Ctl.recordOf (c : Ctl) (seq : Word) (t : Station) (ext : Nat) : Option TargetRec :=
  (c.etEntry seq ext).bind (fun x => x.record t)

/-- The missing extents of a target that answered GAP (R121): retransmission where the target has a record in every entry
from its depth to the extent answered, of those DONE or AWAITING (log 36); else a catch-up. -/
def Ctl.fillGap (c : Ctl) (k : Env) (seq : Word) (t : Station) (m ext : Nat) : Ctl :=
  let missing := (List.range (ext + 1)).filter (fun i => decide (m ≤ i))
  if missing.all (fun i => decide (i = ext) || (c.recordOf seq t i).isSome) then
    let again := missing.filter (fun i => (c.recordOf seq t i).any TargetRec.resends)
    if again.any (fun i => (c.recordOf seq t i).any (fun r => decide (4 ≤ r.attempts))) then c.loseTarget k seq t
    else
      let c := c.onPageEntries seq (fun x =>
        if m ≤ x.ext ∧ x.ext ≤ ext then
          x.onRecord t (fun r => if r.resends then { r with state := .awaiting } else r)
        else x)
      again.foldl (fun c i => c.transmit k seq i (withStation 0 t)) c
  else
    let c := c.onPageEntries seq (fun x => x.onRecord t (fun r =>
      if r.state = .dropped then r else { r with state := .awaitingCopy }))
    (c.onTx (fun q => q.narrow (fun s _ => s == seq) t)).pruneOwed.requestCatchUp k seq t

/-- A GAP for an extent is acted on beyond the depth (R121): the station's record for the extent is DONE or AWAITING. An
extent whose entry has gone, or whose entry has no record of the station, is none (log 53). -/
def Ctl.gapConcerns (c : Ctl) (seq : Word) (t : Station) (ext : Nat) : Bool :=
  (c.recordOf seq t ext).any TargetRec.resends

/-- The result of a catch-up job for a station and own page (R123). -/
def Ctl.catchUpDone (c : Ctl) (k : Env) (seq : Word) (t : Station) (n : Nat) : Ctl :=
  let c := c.recordsDone seq t n
  let later := c.unsettledOf seq |>.filter (fun x =>
    decide (n ≤ x.ext) && (x.record t).any (fun r => decide (r.state = .awaitingCopy)))
  let c := c.onPageEntries seq (fun x =>
    if n ≤ x.ext then x.onRecord t (fun r => if r.state = .awaitingCopy then { r with state := .awaiting } else r)
    else x)
  (later.foldl (fun c x => c.transmit k seq x.ext (withStation 0 t)) c).testDurable k seq

/-- Some unsettled entry of the page has a record of the station that is not DROPPED (R122). -/
def Ctl.hasLive (c : Ctl) (seq : Word) (t : Station) : Bool := (c.unsettledOf seq).any (fun x => x.liveRecord t)

/-- An ANSWER naming an own page (R120 to R122); `job` when it matches a catch-up job of this station, whose result
R123 takes. -/
def Ctl.ownAnswer (c : Ctl) (k : Env) (t : Station) (a : AnswerBody) (v : Verdict) (job : Bool) : Ctl :=
  let seq := a.seq
  let mine := decide (a.addressee = byteOf k.me.val)
  let ext := a.ext.toNat
  match c.ownEntry k seq with
  | none => c
  | some _ =>
    match v with
    | .programmed | .held =>
      let n := if a.isCopy then ext else ext + 1
      let c := c.recordOwnDepth k seq (fun e => e.raiseDepth t n)
      if a.isCopy then (if job then c.catchUpDone k seq t n else c)
      else if mine then (c.recordsDone seq t n).testDurable k seq
      else c
    | .gap =>
      let c := c.recordOwnDepth k seq (fun e => e.setDepth t a.aux.toNat)
      if mine && c.gapConcerns seq t ext then c.fillGap k seq t a.aux.toNat ext else c
    | .full => if mine then c.loseTarget k seq t else c
    | .lost =>
      let c := c.recordOwnDepth k seq (fun e => e.setDepth t 0)
      if mine then c.loseTarget k seq t else c
    | .dropped =>
      let had := c.hasLive seq t
      let c := c.recordOwnDepth k seq (fun e => e.setDepth t a.aux.toNat)
      if decide (a.addressee = unsolicited) && (had || c.hasLive seq t) then c.loseTarget k seq t else c

/-- The page seqs of the Extent Table, each once, in table order. -/
def Ctl.tablePages (c : Ctl) : List Word := (c.et.map (·.seq)).dedup

/-- Placement is retried for every own page with an unsettled entry (R124): on an arrival the excluded sets are
emptied first, on a FULL flag clearing they are kept. The pages are taken in table order (log 50). -/
def Ctl.retryPlacement (c : Ctl) (k : Env) (emptyExcluded : Bool) : Ctl :=
  (c.tablePages.filter (fun seq => !(c.unsettledOf seq).isEmpty)).foldl (fun c seq =>
    let c := if emptyExcluded then c.update k (ownId k seq) (fun e => { e with excluded := 0 }) else c
    c.fillPlaces k seq true) c

/-- The departure of a station: its depth is 0 in every own page that has Extent Table entries, and it is lost for
each of them (R96, R122), in table order (log 50). -/
def Ctl.ownDeparture (c : Ctl) (k : Env) (t : Station) : Ctl :=
  c.tablePages.foldl (fun c seq =>
    (c.recordOwnDepth k seq (fun e => e.setDepth t 0)).loseTarget k seq t) c

/-- END OF TRANSMISSION of an EXTENT (R118): the first transmission is finished, and the timer starts when no other
EXTENT of the entry stands. -/
def Ctl.extentSent (c : Ctl) (seq : Word) (ext : Nat) : Ctl :=
  let stands := c.extentStands seq ext
  c.onPageEntries seq (fun x =>
    if x.ext = ext then
      { x with firstSent := true, timer := if stands || !x.unsettled then none else some answerTimeout }
    else x)

/-- Own pages at or below M have been released: their entries take the mark RELEASED (R126), and the catch-up requests that
wait for them leave the list (log 56). -/
def Ctl.settleReleased (c : Ctl) (m : Word) : Ctl :=
  { c with et := c.et.map (fun x => if x.seq ≤ m then { x with settled := .released, timer := none } else x),
           owed := c.owed.filter (fun w => !decide (w.seq ≤ m)),
           readBack := { c.readBack with wants := c.readBack.wants.filter (fun w => !decide (w.seq ≤ m)) },
           catchUps := c.catchUps.filter (fun x => !decide (x.seq ≤ m)) }

/-- The own release of R52: every own entry at or below M is removed in ascending seq, and the released range is handed
to the Extent Table, the copy engine and the transmit queue. -/
def Ctl.ownRelease (c : Ctl) (k : Env) (m : Word) : Ctl :=
  let gone := (c.dir.filter (fun e => decide (e.id.origin = k.me) && decide (e.id.seq ≤ m))).map (·.id)
  let c := gone.foldl Ctl.remove { c with ownMark := m }
  let c := c.settleReleased m
  let c := c.cancelJobs (fun j => decide (j.page.origin = k.me) && decide (j.page.seq ≤ m))
  let c := c.onTx (fun t => t.withdraw (fun b =>
    match b with
    | .extent s _ _ _ => decide (s ≤ m)
    | .presence _ => false
    | .answer _ => false
    | .holdings _ => false
    | .copy _ _ _ => false))
  c.judge k

/-! ## Freeing buffers (R106, R118) -/

/-- A program of the own page is requested, running, or completed and not delivered. -/
def Ctl.ownProgramOutstanding (c : Ctl) (seq : Word) : Bool :=
  c.outstanding (fun r =>
    match r.who with
    | .own s _ _ => s == seq
    | _ => false)

/-- A fill buffer's page needs it no longer (R106). -/
def Ctl.fillDone (c : Ctl) (k : Env) (b : Fin 2) (p : FillPage) : Bool :=
  !c.tx.stands (fun x => x.fromFill b) && !c.ownProgramOutstanding p.seq &&
    (match c.ownEntry k p.seq with
     | none => true
     | some e =>
       e.closed && e.pendingExt.isNone && (p.failed || decide (p.extents.length ≤ e.ownDepth k) || e.localPage.isNone)
         && !c.et.any (fun x => x.seq == p.seq && (decide (x.prog ≠ .programmed) || !x.firstSent)))

/-- A fill buffer becomes FREE at the first moment at which R106 allows it. -/
def Ctl.sweepFill (c : Ctl) (k : Env) : Ctl :=
  let one (c : Ctl) (b : Fin 2) : Ctl :=
    match c.fill.get b with
    | some p => if c.fillDone k b p then c.setFill b none else c
    | none => c
  one (one c 0) 1

/-- The read-back buffer is freed once its read has completed and no frame sourced from it stands; the next
read-back that is wanted begins (R118). -/
def Ctl.sweepReadBack (c : Ctl) (k : Env) : Ctl :=
  if c.readBack.page.isSome && !c.readBack.reading && !c.tx.stands TxBody.fromReadBack then
    { c with readBack := { c.readBack with page := none, image := [] } }.startReadBack k
  else c.startReadBack k

/-- The owed transmissions are requested once no EXTENT is held, whether the held one was met or withdrawn (R86, R118). -/
def Ctl.sweepOwed (c : Ctl) (k : Env) : Ctl :=
  if c.owed.isEmpty || c.tx.held.any TxBody.isAnyExtent then c else c.requestOwed k

/-- Buffers that an event has left unwanted become FREE. -/
def Ctl.sweep (c : Ctl) (k : Env) : Ctl := (c.sweepReadBack k).sweepFill k

/-- The end of an event that may have narrowed or withdrawn EXTENT frames: owed transmissions that nothing holds back any more
are requested, and buffers left unwanted become FREE. -/
def Ctl.sweepAll (c : Ctl) (k : Env) : Ctl := (c.sweepOwed k).sweep k

end Sys2Proof.Machine
end

