-- ==== Sys2Proof/Machine/Intake.lean ====
section
/-!
DEFINITION. The replica intake (Section 8): judging a frame, what a taken frame records, its programs and relocations,
the drop of a copy, and the release of replica pages. Includes damage to a local copy (R53 to R55).
-/

namespace Sys2Proof.Machine

/-! ## Fields of a data frame -/

/-- The page a frame names; none for a COPY whose origin field is no station (log 14). -/
def DataFrame.id (f : DataFrame) (src : Station) : Option PageId :=
  match f with
  | .extent b => some { origin := src, seq := b.seq }
  | .copy b => (stationOf b.origin).map (fun o => { origin := o, seq := b.seq })

/-- The frame is a COPY. -/
def DataFrame.isCopy : DataFrame → Bool
  | .extent _ => false
  | .copy _ => true

/-- What an ANSWER's extent field says of the frame: the extent number, or the count of a COPY (R140). -/
def DataFrame.number : DataFrame → Nat
  | .extent b => b.ext.toNat
  | .copy b => b.descs.length

/-- The extent count that the frame brings a copy to: k + 1, or n. -/
def DataFrame.count : DataFrame → Nat
  | .extent b => b.ext.toNat + 1
  | .copy b => b.descs.length

/-- The depth vector of the frame. -/
def DataFrame.depths : DataFrame → Half
  | .extent b => b.depths
  | .copy b => b.depths

/-- The frame's own first slot. -/
def DataFrame.first : DataFrame → Nat
  | .extent b => b.first.toNat
  | .copy _ => 0

/-- The end slot of the highest extent the frame carries. -/
def DataFrame.last : DataFrame → Nat
  | .extent b => b.info.last
  | .copy b => copyReach b.descs

/-- The extents that the frame adds to a copy of depth `m`. -/
def DataFrame.added (f : DataFrame) (m : Nat) : List ExtentInfo :=
  match f with
  | .extent b => [b.info]
  | .copy b => (b.descs.drop m).map DescBody.info

/-- Where the added extents begin. -/
def DataFrame.joinSlot (f : DataFrame) (m : Nat) : Nat :=
  match f.added m with
  | [] => 0
  | i :: _ => i.first

/-- The program of the frame closes a replica: an added extent carries the closing flag, or a COPY its closed flag
(R135). -/
def DataFrame.closes (f : DataFrame) (m : Nat) : Bool :=
  (f.added m).any (·.closing) ||
    (match f with
     | .extent _ => false
     | .copy b => b.closedFlag)

/-- The closed flag of a COPY. -/
def DataFrame.closedFlag : DataFrame → Bool
  | .extent _ => false
  | .copy b => b.closedFlag

/-- The slot data of the frame. -/
def DataFrame.data : DataFrame → List Byte
  | .extent b => b.data
  | .copy b => b.data

/-- Each extent begins where the one before it ends (R128, check 3). -/
def chained : Nat → List DescBody → Bool
  | _, [] => true
  | at_, d :: ds => decide (d.first.toNat = at_) && chained (at_ + d.count.toNat) ds

/-- The frame is well-formed (R128, check 3). -/
def DataFrame.wellFormed : DataFrame → Bool
  | .extent b => decide (b.ext.toNat ≤ 2) && decide (b.info.last ≤ 8)
  | .copy b =>
    decide (b.descs.map (fun d => d.number.toNat) = List.range b.descs.length) && chained 0 b.descs
      && !b.descs.dropLast.any (fun d => d.flags.getLsbD 0)

/-- The holder set of a descriptor the intake writes (R6, R135): the origin, the stations deeper in the frame's vector,
the stations of an EXTENT's mask; not this station. -/
def DataFrame.holderSet (f : DataFrame) (k : Env) (origin : Station) (ext : Nat) : Byte :=
  withoutStation
    (withStation 0 origin ||| maskOf (allStations.filter (fun s => decide (ext < depthIn f.depths s)))
      ||| (match f with
           | .extent b => b.mask
           | .copy _ => 0)) k.me

/-! ## The receive buffers (R127) -/

/-- A receive buffer set. -/
def Ctl.setRx (c : Ctl) (b : Fin 4) (x : RxBuf) : Ctl := { c with rx := vput c.rx b x }

/-- The frame in a receive buffer. -/
def Ctl.rxHeld (c : Ctl) (b : Fin 4) : Option RxHeld :=
  match c.rx.get b with
  | .held h => some h
  | .free => none
  | .claimed => none

/-- A buffer takes a phase. -/
def Ctl.rxPhase (c : Ctl) (b : Fin 4) (p : RxPhase) : Ctl :=
  match c.rx.get b with
  | .held h => c.setRx b (.held { h with phase := p })
  | .free => c
  | .claimed => c

/-- The intake's answer to a frame (R140). -/
def Ctl.intakeAnswer (c : Ctl) (h : RxHeld) (id : PageId) (v : Verdict) (aux : Nat) : Ctl :=
  c.answer { addressee := byteOf h.src.val, origin := byteOf id.origin.val, seq := id.seq,
             ext := byteOf h.frame.number, flags := bitOf h.frame.isCopy 0, verdict := v.code, aux := byteOf aux }

/-- A frame is answered, and its buffer is FREE. -/
def Ctl.answerAndFree (c : Ctl) (b : Fin 4) (h : RxHeld) (id : PageId) (v : Verdict) (aux : Nat) : Ctl :=
  (c.intakeAnswer h id v aux).setRx b .free

/-! ## What a taken frame records (R134) -/

/-- The depths of a vector recorded: each other station's raised, this station's disregarded. -/
def Entry.raiseAll (e : Entry) (k : Env) (v : Half) : Entry :=
  allStations.foldl (fun e s => if s = k.me then e else e.raiseDepth s (depthIn v s)) e

/-- What a TAKEN frame records (R134). -/
def Entry.taken (e : Entry) (k : Env) (f : DataFrame) : Entry :=
  let e := e.raiseAll k f.depths
  { e with known := max e.known f.count, used := max e.used f.last, pendingExt := some f.count }

/-- An update from a frame; an own page is tested for durability after it (R125). -/
def Ctl.recordFrom (c : Ctl) (k : Env) (id : PageId) (f : Entry → Entry) : Ctl :=
  let c := c.update k id f
  if id.origin = k.me then (c.testDurable k id.seq).sweepAll k else c

/-- The depths of a new entry: every other station's from the vector, capped at the known count (R134). -/
def newDepths (k : Env) (f : DataFrame) : Vector Nat 8 :=
  Vector.ofFn (fun s : Fin 8 => if s = k.me then 0 else min (depthIn f.depths s) f.count)

/-- The entry that a taken frame creates (R131 to R134). -/
def newEntry (k : Env) (id : PageId) (role : Role) (a : PageAddr) (f : DataFrame) : Entry :=
  { id := id, role := role, localPage := some a, relocPage := none, pendingExt := some f.count, known := f.count,
    used := f.last, closed := decide (role = .own), depths := newDepths k f, targets := [], extra := none,
    excluded := 0, under := false, copyEnd := 0 }

/-! ## Programs (R135, R136) -/

/-- A descriptor place that the frame adds, its checks computed from the buffer (R135). -/
def RxHeld.descriptor (h : RxHeld) (k : Env) (id : PageId) (i : ExtentInfo) : Nat × List Byte :=
  (i.number, descriptorBytes i (h.frame.holderSet k id.origin i.number) (crc (Memory.slots clearByte h.image i.first i.count)))

/-- The identity group of a page. -/
def PageId.group (id : PageId) : List Byte := identityBytes (byteOf id.origin.val) id.seq

/-- The program of a TAKEN frame into a page whose copy has depth `m` is requested (R135). -/
def Ctl.programFrame (c : Ctl) (k : Env) (b : Fin 4) (h : RxHeld) (id : PageId) (a : PageAddr) (m : Nat) : Ctl :=
  (c.enter
    { who := .replica b, emergency := false,
      op := .program { page := a, first := h.frame.joinSlot m, count := h.frame.last - h.frame.joinSlot m,
                       identity := if m = 0 then some id.group else none,
                       descs := (h.frame.added m).map (h.descriptor k id), source := .rx b } }).rxPhase b .programming

/-- The relocation program is requested: every extent 0 through the highest the frame brings, with the descriptors and
the identity group, into the relocation page (R136). -/
def Ctl.programReloc (c : Ctl) (k : Env) (b : Fin 4) (h : RxHeld) (id : PageId) (a : PageAddr) (m : Nat) : Ctl :=
  (c.enter
    { who := .replicaReloc b, emergency := false,
      op := .program { page := a, first := 0, count := h.frame.last, identity := some id.group,
                       descs := (List.range m).zip (h.back.take m) ++ (h.frame.added m).map (h.descriptor k id),
                       source := .rx b } }).rxPhase b .relocating

/-- With a relocation page allocated: the earlier extents are read back from the local page, or, when there are none or
the buffer holds them already, the relocation program is requested (R136, R137). -/
def Ctl.continueReloc (c : Ctl) (k : Env) (b : Fin 4) (h : RxHeld) (id : PageId) (from_ : Option PageAddr)
    (to_ : PageAddr) (m : Nat) : Ctl :=
  if m ≤ h.back.length then c.programReloc k b h id to_ m
  else
    match from_ with
    | none => c.programReloc k b h id to_ m
    | some p =>
      (c.enter { who := .replicaReadBack b, op := .pageRead p, emergency := false }).rxPhase b .readingBack

/-! ## Judging (R128 to R133) -/

/-- A frame for a page of unknown identity, or of a remote-only own entry, takes a first page of its kind, or is
answered FULL (R131 to R133). -/
def Ctl.takeFirst (c : Ctl) (k : Env) (b : Fin 4) (h : RxHeld) (id : PageId) : Ctl :=
  let role : Role := if id.origin = k.me then .own else .replica
  let room := (c.entry id).isSome || c.dirRoom
  match (if room then c.allocate role false else none) with
  | none => c.answerAndFree b h id .full 0
  | some (a, c) =>
    let c :=
      if (c.entry id).isSome then
        c.recordFrom k id (fun e => { e.taken k h.frame with localPage := some a, copyEnd := 0 })
      else c.create k (newEntry k id role a h.frame)
    c.programFrame k b h id a 0

/-- A TAKEN frame is added to the copy: in place, or by relocation when the copy lies in a RETIRED block or a COPY comes
to a CLOSED copy (R130, R132, R136). A refused relocation is answered FULL and records nothing (log 16). -/
def Ctl.takeMore (c : Ctl) (k : Env) (b : Fin 4) (h : RxHeld) (e : Entry) (a : PageAddr) : Ctl :=
  let m := e.ownDepth k
  if c.inRetired a || e.closed then
    match c.allocate e.role true with
    | none => c.answerAndFree b h e.id .full 0
    | some (to_, c) =>
      (c.recordFrom k e.id (fun e => { e.taken k h.frame with relocPage := some to_ })).continueReloc k b h e.id
        (some a) to_ m
  else (c.recordFrom k e.id (fun e => e.taken k h.frame)).programFrame k b h e.id a m

/-- A frame that is held already: HELD, its depths recorded; a COPY of the whole copy may close a replica (R130, R132). -/
def Ctl.answerHeld (c : Ctl) (k : Env) (b : Fin 4) (h : RxHeld) (e : Entry) : Ctl :=
  let closes := h.frame.closedFlag && decide (h.frame.number = e.ownDepth k) && decide (e.role = .replica)
  (c.recordFrom k e.id (fun e => let e := e.raiseAll k h.frame.depths
                                 { e with closed := e.closed || closes })).answerAndFree b h e.id .held 0

/-- A frame is judged against an entry whose copy has no program outstanding (R130, R132, R133). -/
def Ctl.judgeEntry (c : Ctl) (k : Env) (b : Fin 4) (h : RxHeld) (e : Entry) : Ctl :=
  let m := e.ownDepth k
  match e.localPage with
  | none => c.takeFirst k b h e.id
  | some a =>
    if h.frame.count ≤ m then c.answerHeld k b h e
    else
      match h.frame with
      | .extent x =>
        if m < x.ext.toNat then
          (c.recordFrom k e.id (fun e => e.raiseAll k x.depths)).answerAndFree b h e.id .gap m
        else if e.closed || decide (x.first.toNat ≠ e.copyEnd) then c.setRx b .free
        else c.takeMore k b h e a
      | .copy _ =>
        if decide (h.frame.joinSlot m ≠ e.copyEnd) || (c.fillOf e.id.seq).any (fun x => decide (e.role = .own) && !x.2.failed)
        then c.setRx b .free
        else c.takeMore k b h e a

/-- A frame is judged while a program of the page's copy is outstanding (R129). -/
def Ctl.judgePending (c : Ctl) (k : Env) (b : Fin 4) (h : RxHeld) (e : Entry) (p : Nat) : Ctl :=
  let d := e.ownDepth k
  if h.frame.count ≤ d then c.answerHeld k b h e
  else if !h.frame.isCopy && decide (h.frame.number < p) then c.setRx b .free
  else c.rxPhase b .deferred

/-- A frame is judged against no entry (R131 to R133). -/
def Ctl.judgeUnknown (c : Ctl) (k : Env) (b : Fin 4) (h : RxHeld) (id : PageId) : Ctl :=
  match h.frame with
  | .extent x =>
    if x.ext ≠ 0 then c.answerAndFree b h id .gap 0
    else if x.first ≠ 0 then c.setRx b .free
    else c.takeFirst k b h id
  | .copy _ => c.takeFirst k b h id

/-- The page's seq is at or above the next seq (R128, check 2). -/
def Ctl.aboveNext (c : Ctl) (seq : Word) : Bool :=
  match c.nextSeq with
  | some n => decide (n ≤ seq)
  | none => false

/-- The frame in a buffer is judged from the start of R128; in LEAVING it is discarded (R140). -/
def Ctl.judgeFrame (c : Ctl) (k : Env) (b : Fin 4) : Ctl :=
  match c.rxHeld b with
  | none => c
  | some h =>
    match h.frame.id h.src with
    | none => c.setRx b .free
    | some id =>
      if c.station = .leaving || c.released k id
          || (decide (id.origin = k.me) && (c.entry id).isNone && c.aboveNext id.seq) || !h.frame.wellFormed then
        c.setRx b .free
      else
        match c.entry id with
        | none => c.judgeUnknown k b h id
        | some e =>
          match e.pendingExt with
          | some p => c.judgePending k b h e p
          | none => c.judgeEntry k b h e

/-- The DEFERRED buffers whose frame satisfies a test, in the order of arrival. -/
def Ctl.deferredBufs (c : Ctl) (p : PageId → Bool) : List (Fin 4) :=
  let one (b : Fin 4) : List (Nat × Fin 4) :=
    match c.rxHeld b with
    | some h => if h.phase = .deferred && (h.frame.id h.src).any p then [(h.order, b)] else []
    | none => []
  let all := one 0 ++ one 1 ++ one 2 ++ one 3
  (all.insertionSort (fun x y => x.1 ≤ y.1)).map (·.2)

/-- The DEFERRED frames of a page are judged again, in the order in which they arrived (R129). -/
def Ctl.rejudge (c : Ctl) (k : Env) (id : PageId) : Ctl :=
  (c.deferredBufs (fun x => x == id)).foldl (fun c b => c.judgeFrame k b) c

/-- DEFERRED frames whose entry has vanished are judged again (R139). -/
def Ctl.rejudgeVanished (c : Ctl) (k : Env) : Ctl :=
  (c.deferredBufs (fun x => (c.entry x).isNone)).foldl (fun c b => c.judgeFrame k b) c

/-! ## Completions (R135 to R139) -/

/-- The PASS of the program that carries the frame in a buffer (R47, R135); `reloc` for a relocation program. -/
def Ctl.framePassed (c : Ctl) (k : Env) (b : Fin 4) (h : RxHeld) (e : Entry) (reloc : Bool) : Ctl :=
  let own := decide (e.role = .own)
  let closes := h.frame.closes (e.ownDepth k) && !own
  let c := c.update k e.id (fun e =>
    { (e.setDepth k.me (e.pendingExt.getD 0)) with
        pendingExt := none, closed := e.closed || closes, copyEnd := h.frame.last, relocPage := none,
        localPage := if reloc then e.relocPage else e.localPage })
  let c := if reloc then c.killPages [e.localPage] else c
  let c := c.answerAndFree b h e.id .programmed 0
  let c := if own then ((c.testDurable k e.id.seq).bringUpAll k e.id.seq).sweepAll k else c
  c.rejudge k e.id

/-- A copy is DROPPED by the intake (R138): a replica's entry is removed, an own entry becomes remote-only; LOST is
answered to the frame's sender. -/
def Ctl.dropCopy (c : Ctl) (k : Env) (b : Fin 4) (h : RxHeld) (e : Entry) : Ctl :=
  let own := decide (e.role = .own)
  let c :=
    if own then
      ((c.update k e.id (fun e => { (e.setDepth k.me 0) with localPage := none, relocPage := none, pendingExt := none,
                                                             copyEnd := 0 })).killPages
        [e.localPage, e.relocPage])
    else c.remove e.id
  let c := c.answerAndFree b h e.id .lost 0
  let c := c.cancelJobs (fun j => decide (j.page = e.id))
  let c := if own then ((c.testDurable k e.id.seq).ownDropNotice k e.id.seq).sweepAll k else c
  c.rejudge k e.id

/-- A program carrying a TAKEN frame has failed: the copy is relocated, or dropped when no page is to be had (R137). -/
def Ctl.relocateFrame (c : Ctl) (k : Env) (b : Fin 4) (h : RxHeld) (e : Entry) : Ctl :=
  match c.allocate e.role true with
  | none => c.dropCopy k b h e
  | some (to_, c) =>
    (c.update k e.id (fun e => { e with relocPage := some to_ })).continueReloc k b h e.id e.localPage to_
      (e.ownDepth k)

/-- The entry, with a program outstanding, that still names a page as its local page or relocation page. -/
def Ctl.namedEntry (c : Ctl) (id : Option PageId) (reloc : Bool) (a : PageAddr) : Option Entry :=
  match id with
  | none => none
  | some id =>
    match c.entry id with
    | none => none
    | some e => if e.pendingExt.isSome && decide ((if reloc then e.relocPage else e.localPage) = some a) then some e else none

/-- The completion of a program from a receive buffer (R135, R136, R139). -/
def Ctl.frameProgramEnd (c : Ctl) (k : Env) (b : Fin 4) (reloc : Bool) (p : ProgramReq) (out : ProgramOut) : Ctl :=
  let c := if out = .fail then c.retire p.page.block else c
  match c.rxHeld b with
  | none => c
  | some h =>
    match c.namedEntry (h.frame.id h.src) reloc p.page with
    | none => c.judgeFrame k b
    | some e =>
      match out with
      | .pass => c.framePassed k b h e reloc
      | .notHeld => c.judgeFrame k b
      | .fail =>
        if reloc then
          ((c.update k e.id (fun e => { e with relocPage := none })).killPages [some p.page]).relocateFrame k b h
            { e with relocPage := none }
        else c.relocateFrame k b h e

/-- The slots and descriptors that a read-back adds to the buffer (R137). -/
def RxHeld.withReadBack (h : RxHeld) (m : Nat) (r : PageRead) : RxHeld :=
  { h with image := Memory.write clearByte h.image 0 (Memory.readRun erasedByte r.image 0 (h.frame.first * 512)),
           back := (List.range m).map (fun i => imagePart r.image (placePart i)) }

/-- The completion of a relocation read-back (R137 to R139); the read is none when it was NOT-HELD. -/
def Ctl.frameReadBackEnd (c : Ctl) (k : Env) (b : Fin 4) (a : PageAddr) (r : Option PageRead) : Ctl :=
  match c.rxHeld b with
  | none => c
  | some h =>
    match c.namedEntry (h.frame.id h.src) false a, r with
    | some e, some r =>
      if r.uncorrectableIn (e.ownDepth k) e.copyEnd then c.dropCopy k b h e
      else
        let h := h.withReadBack (e.ownDepth k) r
        match e.relocPage with
        | some to_ => (c.setRx b (.held h)).programReloc k b h e.id to_ (e.ownDepth k)
        | none => c
    | _, _ => c.judgeFrame k b

/-! ## Arrival (R80, R127) -/

/-- The lowest-numbered buffer that satisfies a test. -/
def Ctl.rxFind (c : Ctl) (p : RxBuf → Bool) : Option (Fin 4) :=
  if p (c.rx.get 0) then some 0
  else if p (c.rx.get 1) then some 1
  else if p (c.rx.get 2) then some 2
  else if p (c.rx.get 3) then some 3
  else none

/-- The buffer is FREE. -/
def RxBuf.isFree : RxBuf → Bool
  | .free => true
  | .claimed => false
  | .held _ => false

/-- The buffer is claimed for the frame now arriving. -/
def RxBuf.isClaimed : RxBuf → Bool
  | .free => false
  | .claimed => true
  | .held _ => false

/-- A claimed buffer is given up: the frame failed, or was not one to keep (R79, R80). -/
def Ctl.freeClaimed (c : Ctl) : Ctl :=
  match c.rxFind RxBuf.isClaimed with
  | some b => c.setRx b .free
  | none => c

/-- A data frame kept by the receiver arrives and is judged (R127, R128). -/
def Ctl.arriveData (c : Ctl) (k : Env) (b : Fin 4) (src : Station) (f : DataFrame) : Ctl :=
  ({ c with rxNext := c.rxNext + 1 }.setRx b
    (.held { src := src, frame := f, order := c.rxNext, phase := .judging,
             image := Memory.write clearByte [] (f.first * 512) f.data, back := [] })).judgeFrame k b

/-! ## Snooped answers (R141) and releases (R142) -/

/-- What an answer says of its sender's depth in a replica page (R141). -/
def Entry.snoop (e : Entry) (t : Station) (a : AnswerBody) (v : Verdict) : Entry :=
  match v with
  | .programmed | .held => e.raiseDepth t (if a.isCopy then a.ext.toNat else a.ext.toNat + 1)
  | .gap => e.setDepth t a.aux.toNat
  | .full => e
  | .lost => e.setDepth t 0
  | .dropped => e.setDepth t a.aux.toNat

/-- The release mark of an origin has risen to M: its replicas at or below M are given up (R142). -/
def Ctl.replicaRelease (c : Ctl) (k : Env) (o : Station) (m : Word) : Ctl :=
  let gone := (c.dir.filter (fun e => decide (e.id.origin = o) && decide (e.id.seq ≤ m))).map (·.id)
  let c := gone.foldl Ctl.remove c
  let c := c.cancelJobs (fun j => decide (j.page.origin = o) && decide (j.page.seq ≤ m))
  c.rejudgeVanished k

/-! ## Damage (R53 to R55) -/

/-- A read of a local copy has found it damaged. Acted on while the entry still names the page (R53): an own entry
becomes remote-only (R54), a replica entry is removed (R55). -/
def Ctl.damage (c : Ctl) (k : Env) (id : PageId) (a : PageAddr) : Ctl :=
  match c.entry id with
  | none => c
  | some e =>
    if e.localPage ≠ some a then c
    else
      match e.role with
      | .own =>
        let held := e.ownDepth k
        let c := (c.update k id (fun e => { (e.setDepth k.me 0) with localPage := none, relocPage := none,
                                                                     pendingExt := none, copyEnd := 0 })).killPages
          [e.localPage, e.relocPage]
        let c := (c.answer (droppedAnswer id held 0)).hand .deficit
        (((c.testDurable k id.seq).ownDropNotice k id.seq).rejudge k id).sweepAll k
      | .replica =>
        let c := (c.remove id).answer (droppedAnswer id (e.ownDepth k) 0)
        (c.cancelJobs (fun j => decide (j.page = id))).rejudgeVanished k

/-- A page read of a local copy found one of the parts the copy holds unsound (R53). -/
def Ctl.foundDamage (c : Ctl) (k : Env) (id : PageId) (a : PageAddr) (r : PageRead) : Bool :=
  match c.entry id with
  | none => false
  | some e => decide (e.localPage = some a) && decide (1 ≤ e.ownDepth k) && r.unsound (e.ownDepth k) e.copyEnd

end Sys2Proof.Machine
end

