-- ==== Sys2Proof/Machine/Repair.lean ====
section
/-!
DEFINITION. Copy jobs, the repair list and holdings (Section 9): the results of job reads, answers to jobs, timer
expiry, the repair decision and the walks, and the holdings generator and receiver.
-/

namespace Sys2Proof.Machine

/-! ## Copy jobs (R145 to R149) -/

/-- A job ends FAILED by damage: its slot is FREE, and a catch-up is reported (R123, R145). -/
def Ctl.jobDamaged (c : Ctl) (k : Env) (slot : Fin 2) (j : Job) : Ctl :=
  let c := c.setJob slot none
  match j.purpose with
  | .catchUp => c.catchUpDamaged k j.page.seq j.target
  | .repair => c

/-- The read of a job found its page no longer the copy's: the read is made again from the entry's present page, or the
job ends (R145). -/
def Ctl.jobMoved (c : Ctl) (k : Env) (slot : Fin 2) (j : Job) : Ctl :=
  match c.entry j.page with
  | none => c.setJob slot none
  | some e =>
    match e.localPage with
    | some a => c.enter { who := .copyJob slot, op := .pageRead a, emergency := false }
    | none => c.jobDamaged k slot j

/-- The read of a job has loaded the staging buffer (R145). -/
def Ctl.jobLoaded (c : Ctl) (k : Env) (slot : Fin 2) (j : Job) (e : Entry) (r : PageRead) : Ctl :=
  let n := e.ownDepth k
  (c.setJob slot (some { j with n := some n, closed := e.closed && decide (n = e.known), image := r.image })).requestCopy
    slot

/-- The completion of a job's read (R145, R149); none when it was NOT-HELD. A read of a page that the entry no longer
names is taken as NOT-HELD (log 34); a sound read of a copy whose depth is 0 ends the job FAILED by damage (log 55). -/
def Ctl.jobReadEnd (c : Ctl) (k : Env) (slot : Fin 2) (a : PageAddr) (r : Option PageRead) : Ctl :=
  match c.jobs.get slot with
  | none => c
  | some j =>
    if j.state ≠ .reading then c
    else
      let bad := r.any (fun r => c.foundDamage k j.page a r)
      if j.cancelled then
        let c := c.setJob slot none
        if bad then c.damage k j.page a else c
      else if bad then (c.damage k j.page a).jobDamaged k slot j
      else
        match r, c.entry j.page with
        | some r, some e =>
          if e.localPage ≠ some a then c.jobMoved k slot j
          else if e.ownDepth k = 0 then c.jobDamaged k slot j
          else c.jobLoaded k slot j e r
        | _, _ => c.jobMoved k slot j

/-- The answer matches the job in a slot (R147): from its target, to this station, copy flag set, its page. -/
def Ctl.jobMatches (c : Ctl) (k : Env) (slot : Fin 2) (t : Station) (id : PageId) (a : AnswerBody) : Bool :=
  match c.jobs.get slot with
  | none => false
  | some j =>
    decide (j.target = t) && decide (a.addressee = byteOf k.me.val) && a.isCopy && decide (j.page = id) && !j.cancelled
      && decide (j.state ≠ .reading)

/-- The job in a slot is a catch-up. -/
def Ctl.isCatchUp (c : Ctl) (slot : Fin 2) : Bool := (c.jobs.get slot).any (fun j => decide (j.purpose = .catchUp))

/-- The verdict ends a job (R147). -/
def Verdict.endsJob : Verdict → Bool
  | .programmed => true
  | .held => true
  | .full => true
  | .lost => true
  | .gap => false
  | .dropped => false

/-- What an answer to this station with its copy flag set says of its sender's depth in a replica page (R147). -/
def Entry.jobDepth (e : Entry) (t : Station) (count : Nat) (v : Verdict) : Entry :=
  match v with
  | .programmed => e.raiseDepth t count
  | .held => e.raiseDepth t count
  | .lost => e.setDepth t 0
  | .full => e
  | .gap => e
  | .dropped => e

/-- A verdict FULL sets its sender's FULL flag (R97). -/
def Ctl.heardFull (c : Ctl) (t : Station) (v : Verdict) : Ctl :=
  if v = .full then { c with peers := vput c.peers t { c.peers.get t with full := true } } else c

/-- What an ANSWER says of its page, to the own-extent engine or to the directory (R120 to R123, R141, R147). An addressee
from 08H to FEH counts as another station (log 54). -/
def Ctl.answerFor (c : Ctl) (k : Env) (t : Station) (id : PageId) (a : AnswerBody) (v : Verdict) (catchUp : Bool) : Ctl :=
  if id.origin = k.me then (c.ownAnswer k t a v catchUp).sweepAll k
  else if a.addressee ≠ byteOf k.me.val then c.update k id (fun e => e.snoop t a v)
  else if a.isCopy then c.update k id (fun e => e.jobDepth t a.ext.toNat v)
  else c

/-- The job in a slot, when the ANSWER matched it and it still stands, ends by a verdict that ends it (R147). -/
def Ctl.endMatched (c : Ctl) (k : Env) (slot : Fin 2) (t : Station) (id : PageId) (a : AnswerBody) (v : Verdict)
    (matched : Bool) : Ctl :=
  if v.endsJob && matched && c.jobMatches k slot t id a then (c.closeJob slot).resumeCopies c.tx else c

/-- What an ANSWER says of its page is taken, and the job it matches ends (R120 to R123, R141, R147). -/
def Ctl.takeVerdict (c : Ctl) (k : Env) (t : Station) (id : PageId) (a : AnswerBody) (v : Verdict) : Ctl :=
  let m0 := c.jobMatches k 0 t id a
  let m1 := c.jobMatches k 1 t id a
  let catchUp := (m0 && c.isCatchUp 0) || (m1 && c.isCatchUp 1)
  ((c.answerFor k t id a v catchUp).endMatched k 0 t id a v m0).endMatched k 1 t id a v m1

/-- An ANSWER is handed to the replica intake, the own-extent engine and the copy engine in one event (R81, R97, R120 to
R123, R141, R147). One whose verdict is not in Table 11-9 is disregarded (R174); one whose origin field is no station names
no page, and its verdict FULL still sets its sender's flag (R97; log 14). -/
def Ctl.takeAnswer (c : Ctl) (k : Env) (t : Station) (a : AnswerBody) : Ctl :=
  match verdictOf a.verdict with
  | none => c
  | some v =>
    let c := c.heardFull t v
    match stationOf a.origin with
    | none => c
    | some o => c.takeVerdict k t { origin := o, seq := a.seq } a v

/-- The timer of the job in a slot has run out (R148). -/
def Ctl.jobExpired (c : Ctl) (k : Env) (slot : Fin 2) : Ctl :=
  match c.jobs.get slot with
  | none => c
  | some j =>
    if j.state = .awaiting && j.timer = some 0 && c.station.timersRun then
      if j.attempts < 4 then c.requestCopy slot
      else
        let c := c.setJob slot none
        match j.purpose with
        | .catchUp => (c.loseTarget k j.page.seq j.target).sweepAll k
        | .repair => c
    else c

/-- END OF TRANSMISSION of a COPY (R146, R149). -/
def Ctl.copySent (c : Ctl) (slot : Fin 2) : Ctl :=
  match c.jobs.get slot with
  | none => c
  | some j =>
    if j.cancelled then c.setJob slot none
    else if j.owed then c
    else c.setJob slot (some { j with state := .awaiting, timer := some 40 })

/-! ## The repair list (R150 to R153) -/

/-- The task is DEPARTURE(p). -/
def Task.isDeparture (t : Task) (p : Station) : Bool :=
  match t.kind with
  | .departure q => p == q
  | .recheck _ _ => false

/-- A task that begins at the head: its cursor at the lowest key. -/
def Task.begun (t : Task) : Task := { t with cursor := 0, waiting := false }

/-- The head's cursor is set. -/
def Ctl.onHead (c : Ctl) (f : Task → Task) : Ctl :=
  match c.repair with
  | [] => c
  | t :: rest => { c with repair := f t :: rest }

/-- DEPARTURE(p) is appended, or the standing one keeps its place, its cursor reset if it is the head (R150). -/
def Ctl.appendDeparture (c : Ctl) (p : Station) : Ctl :=
  if c.repair.any (fun t => t.isDeparture p) then
    c.onHead (fun t => if t.isDeparture p then { t with cursor := 0 } else t)
  else { c with repair := c.repair ++ [{ kind := .departure p, cursor := 0, waiting := false }] }

/-- DEPARTURE(p) is removed; the next task becomes the head (R150). -/
def Ctl.removeDeparture (c : Ctl) (p : Station) : Ctl :=
  match c.repair with
  | [] => c
  | t :: rest =>
    if t.isDeparture p then { c with repair := rest }.onHead Task.begun
    else { c with repair := t :: rest.filter (fun x => !x.isDeparture p) }

/-- The head leaves the list; the next task becomes the head (R150). -/
def Ctl.popTask (c : Ctl) : Ctl := { c with repair := c.repair.tail }.onHead Task.begun

/-- A copy job for a page stands in a slot (R152). -/
def Ctl.jobFor (c : Ctl) (id : PageId) : Bool :=
  (c.jobs.get 0).any (fun j => decide (j.page = id)) || (c.jobs.get 1).any (fun j => decide (j.page = id))

/-- The repair decision for an entry (R152): the state after it, and whether the walk waits for a slot. -/
def Ctl.repairDecision (c : Ctl) (k : Env) (e : Entry) : Ctl × Bool :=
  if e.known = 0 then (c, false)
  else if c.repairer k e ≠ some k.me then (c, false)
  else if c.jobFor e.id then (c, false)
  else
    match c.repairTarget k e k.me with
    | none => (c, false)
    | some t =>
      match c.freeSlot with
      | none => (c, true)
      | some slot =>
        if c.catchUps.isEmpty then
          match c.startJob slot .repair e.id t with
          | some c' => (c', false)
          | none => (c, false)
        else (c, true)

/-- The walk has acted on an entry: it waits there, or its cursor stands just above it (R151, R153). -/
def Ctl.advanceHead (c : Ctl) (e : Entry) (waits : Bool) : Ctl :=
  c.onHead (fun t => if waits then { t with waiting := true } else { t with waiting := false, cursor := e.id.key + 1 })

/-- An entry, when it is under-copied, gets the repair decision; then the walk goes on (R151 to R153). -/
def Ctl.decideAt (c : Ctl) (k : Env) (id : PageId) (e0 : Entry) : Ctl :=
  match c.entry id with
  | none => c.advanceHead e0 false
  | some e =>
    if e.under then
      let (c, waits) := c.repairDecision k e
      c.advanceHead e waits
    else c.advanceHead e false

/-- One step of the DEPARTURE(p) walk at the head (R151). -/
def Ctl.departureStep (c : Ctl) (k : Env) (t : Task) (p : Station) : Ctl :=
  match c.walkAt t.cursor with
  | none => c.popTask
  | some e =>
    if e.role = .own && c.inTable e.id.seq then c.advanceHead e false
    else (c.update k e.id (fun e => e.setDepth p 0)).decideAt k e.id e

/-- One step of the RECHECK walk at the head (R153). -/
def Ctl.recheckStep (c : Ctl) (k : Env) (t : Task) (again : Bool) : Ctl :=
  match c.walkAt t.cursor with
  | none => if again then c.onHead (fun t => { t with kind := .recheck true false, cursor := 0 }) else c.popTask
  | some e => (c.onHead (fun t => { t with kind := .recheck true again })).decideAt k e.id e

/-- The step of the head task's walk. -/
def Ctl.walkStep (c : Ctl) (k : Env) : Ctl :=
  match c.repair with
  | [] => c
  | t :: _ =>
    match t.kind with
    | .departure p => c.departureStep k t p
    | .recheck _ again => c.recheckStep k t again

/-- A step of the head's walk is due: the station is ACTIVE or FROZEN, the walk does not wait, and the head is of the
kind asked for (R150). -/
def Ctl.walkDue (c : Ctl) (recheck : Bool) : Bool :=
  c.station.timersRun &&
    (match c.repair with
     | [] => false
     | t :: _ => !t.waiting && t.isRecheck == recheck)

/-- A freed slot is given out (R144): to the oldest catch-up request, else to the waiting head task. -/
def Ctl.grantSlot (c : Ctl) (k : Env) : Ctl :=
  match c.freeSlot with
  | none => c
  | some slot =>
    match c.catchUps with
    | x :: rest =>
      let c := { c with catchUps := rest }
      match c.startJob slot .catchUp (ownId k x.seq) x.target with
      | some c' => c'
      | none => c.catchUpDamaged k x.seq x.target
    | [] =>
      match c.repair with
      | t :: _ => if t.waiting && c.station.timersRun then (c.onHead (fun t => { t with waiting := false })).walkStep k else c
      | [] => c

/-- The recheck timer has run out (R153). -/
def Ctl.recheckExpired (c : Ctl) : Ctl :=
  if c.recheck = some 0 && c.station.timersRun then { c with recheck := some recheckInterval }.requestRecheck else c

/-! ## The holdings generator (R154, R155) -/

/-- The entry is held CLOSED at its whole known depth, and so may stand in a RUN (R155). -/
def Entry.heldWhole (e : Entry) (k : Env) : Bool := e.closed && decide (e.ownDepth k = e.known)

/-- A run extended: its count, and the entries after it (R155). -/
def extendRun (k : Env) : Word → Nat → List Entry → Nat × List Entry
  | _, count, [] => (count, [])
  | next, count, e :: rest =>
    if e.heldWhole k && decide (e.id.seq = next) && decide (count < 65535) then extendRun k (next + 1) (count + 1) rest
    else (count, e :: rest)

/-- Up to so many items of a frame from the held entries of a group, and the entries left (R155). -/
def holdItems (k : Env) : Nat → List Entry → List HoldItem × List Entry
  | 0, l => ([], l)
  | _ + 1, [] => ([], [])
  | n + 1, e :: rest =>
    if e.heldWhole k then
      let r := extendRun k (e.id.seq + 1) 1 rest
      let more := holdItems k n r.2
      (.run e.id.seq (halfOf r.1) :: more.1, more.2)
    else
      let more := holdItems k n rest
      (.page e.id.seq (byteOf (e.ownDepth k)) (bitOf e.closed 0) :: more.1, more.2)

/-- The held entries of an origin group from a cursor on (R155). -/
def Ctl.heldOf (c : Ctl) (k : Env) (group cursor : Nat) : List Entry :=
  c.dir.filter (fun e => decide (e.id.origin.val = group) && decide (cursor ≤ e.id.seq.toNat) && decide (1 ≤ e.ownDepth k))

/-- The cursor after a frame: just above the last entry reported. -/
def nextCursor (held left : List Entry) (cursor : Nat) : Nat :=
  match (held.take (held.length - left.length)).getLast? with
  | some e => e.id.seq.toNat + 1
  | none => cursor

/-- The next frame of a series is formed and requested (R155). -/
def Ctl.formHoldings (c : Ctl) (k : Env) (s : Series) : Ctl :=
  let held := c.heldOf k s.group s.cursor
  let r := holdItems k 16 held
  let lastOrigin := r.2.isEmpty
  let lastSeries := lastOrigin && decide (s.group = 7)
  let body : HoldingsBody :=
    { series := s.num, origin := byteOf s.group, index := halfOf s.index,
      flags := bitOf lastOrigin 0 ||| bitOf lastSeries 1, items := r.1 }
  { c with holdings := { c.holdings with
      series := some { s with cursor := nextCursor held r.2 s.cursor, index := s.index + 1, lastOrigin := lastOrigin,
                              lastSeries := lastSeries } } }.onTx (fun t => t.request (.holdings body))

/-- A full series starts: the next number, origin 0, the lowest seq, index 0 (R154). -/
def Ctl.startSeries (c : Ctl) (k : Env) : Ctl :=
  let num := c.holdings.lastNum + 1
  { c with holdings := { c.holdings with lastNum := num } }.formHoldings k
    { num := num, group := 0, cursor := 0, index := 0, lastOrigin := false, lastSeries := false }

/-- A pending series is acted on when none is in progress (R99). -/
def Ctl.actPending (c : Ctl) (k : Env) : Ctl :=
  if c.holdings.pending && c.holdings.series.isNone && c.station.timersRun then
    { c with holdings := { c.holdings with pending := false } }.startSeries k
  else c

/-- END OF TRANSMISSION of a HOLDINGS frame (R155). -/
def Ctl.holdingsSent (c : Ctl) (k : Env) : Ctl :=
  match c.holdings.series with
  | none => c
  | some s =>
    if s.lastSeries then
      { c with holdings := { c.holdings with series := none, endedAt := some k.clock } }.actPending k
    else if s.lastOrigin then c.formHoldings k { s with group := s.group + 1, cursor := 0, index := 0 }
    else c.formHoldings k s

/-- A series ended within the last 40 ms (R99; log 25). -/
def Ctl.suppressed (c : Ctl) (k : Env) : Bool :=
  match c.holdings.endedAt with
  | none => false
  | some t => decide ((k.clock - t).toNat < 40)

/-- A report request from a PRESENT peer (R99). -/
def Ctl.holdingsAsked (c : Ctl) (k : Env) : Ctl :=
  if c.holdings.series.isSome || !c.station.timersRun then { c with holdings := { c.holdings with pending := true } }
  else if c.suppressed k then c
  else c.startSeries k

/-! ## The holdings receiver (R156, R157) -/

/-- One item of a HOLDINGS frame applied to an entry; `raise` where the depth may not be lowered (R156). -/
def Entry.holdItem (s : Station) (raise : Bool) (e : Entry) (i : HoldItem) : Entry :=
  match i with
  | .run seq count =>
    if seq.toNat ≤ e.id.seq.toNat ∧ e.id.seq.toNat < seq.toNat + count.toNat then
      (if raise then e.raiseDepth s e.known else e.setDepth s e.known)
    else e
  | .page seq depth flags =>
    if seq = e.id.seq then
      let d := min depth.toNat e.known
      let closes := flags.getLsbD 0 && decide (depth.toNat = e.known) && decide (e.role = .replica)
      let e := if raise then e.raiseDepth s d else e.setDepth s d
      { e with closed := e.closed || closes }
    else e

/-- The item is a RUN. -/
def HoldItem.isRun : HoldItem → Bool
  | .run _ _ => true
  | .page _ _ _ => false

/-- The items of a frame in the order in which they are applied: every RUN before every PAGE (R156). -/
def HoldingsBody.inOrder (b : HoldingsBody) : List HoldItem :=
  b.items.filter HoldItem.isRun ++ b.items.filter (fun i => !i.isRun)

/-- A HOLDINGS frame applied to one entry of its origin (R156). -/
def Entry.holdFrame (e : Entry) (s : Station) (raise : Bool) (b : HoldingsBody) : Entry :=
  b.inOrder.foldl (Entry.holdItem s raise) (if decide (b.index = 0) && !raise then e.setDepth s 0 else e)

/-- The depths of a HOLDINGS frame recorded, entry by entry (R156). -/
def Ctl.recordHoldings (c : Ctl) (k : Env) (s : Station) (b : HoldingsBody) : Ctl :=
  match stationOf b.origin with
  | none => c
  | some o =>
    ((c.dir.filter (fun e => decide (e.id.origin = o))).map (·.id)).foldl (fun c id =>
      let raise := decide (o = k.me) && c.inTable id.seq
      c.recordFrom k id (fun e => e.holdFrame s raise b)) c

/-- The flag last-of-origin. -/
def HoldingsBody.lastOrigin (b : HoldingsBody) : Bool := b.flags.getLsbD 0

/-- The flag last-of-series. -/
def HoldingsBody.lastSeries (b : HoldingsBody) : Bool := b.flags.getLsbD 1

/-- The report-received state after a frame (R157). -/
def HoldingsBody.follow (b : HoldingsBody) (st : Option SeriesState) : SeriesState :=
  let intact :=
    if b.origin = 0 ∧ b.index = 0 then true
    else
      match st with
      | none => false
      | some x =>
        x.intact && decide (x.series = b.series) && decide (x.group = b.origin.toNat) && decide (x.index = b.index.toNat)
  { series := b.series, group := if b.lastOrigin then b.origin.toNat + 1 else b.origin.toNat,
    index := if b.lastOrigin then 0 else b.index.toNat + 1, intact := intact }

/-- A HOLDINGS frame from a station that is PRESENT or SILENT is taken (R156, R157). -/
def Ctl.takeHoldings (c : Ctl) (k : Env) (s : Station) (b : HoldingsBody) : Ctl :=
  let p := c.peers.get s
  if p.state = .present ∨ p.state = .silent then
    let c := c.recordHoldings k s b
    let p := c.peers.get s
    let st := b.follow p.received
    let p := if b.lastSeries then { p with received := none, reportReq := p.reportReq && !st.intact }
             else { p with received := some st }
    { c with peers := vput c.peers s p }
  else c

end Sys2Proof.Machine
end

