-- ==== Sys2Proof/Machine/Membership.lean ====
section
/-!
DEFINITION. Membership (Section 6): PRESENCE frames, arrivals and departures, silence, the presence timer, the
listening window and the entries to ACTIVE, FROZEN and ISOLATED.
-/

namespace Sys2Proof.Machine

/-! ## Station states (R69, R70, R74) -/

/-- The station enters FROZEN and hands FAULT (R70, R171). -/
def Ctl.enterFrozen (c : Ctl) : Ctl := (c.enterState .frozen).hand .fault

/-- FROZEN-OWED is set: an ACTIVE station enters FROZEN at once (R70). -/
def Ctl.oweFrozen (c : Ctl) : Ctl :=
  let c := { c with mark := { c.mark with frozenOwed := true } }
  if c.station = .active then c.enterFrozen else c

/-- The station enters ISOLATED: it stops sending, its presence timer stops, FAULT is handed (R74, R89, R91). -/
def Ctl.isolate (c : Ctl) : Ctl := ({ c with presence := none, window := none }.enterState .isolated).hand .fault

/-- The length of the listening window, 60 ms (R69). -/
def listeningWindow : Nat := 60

/-- The presence period, 20 ms (R91). -/
def presencePeriod : Nat := 20

/-- The station enters LISTENING and its window starts (R69). -/
def Ctl.enterListening (c : Ctl) : Ctl := { c with window := some listeningWindow }.enterState .listening

/-! ## Peers (R92 to R97) -/

/-- A peer table entry changed. -/
def Ctl.onPeer (c : Ctl) (p : Station) (f : Peer → Peer) : Ctl := { c with peers := vput c.peers p (f (c.peers.get p)) }

/-- Peer `p` has departed (R96). -/
def Ctl.departure (c : Ctl) (k : Env) (p : Station) : Ctl :=
  let c := (c.ownDeparture k p).sweepAll k
  let c := c.cancelJobs (fun j => decide (j.target = p))
  ((c.appendDeparture p).onPeer p (fun x => { x with reportReq := false, received := none })).hand .members

/-- Peer `p` has arrived (R95). -/
def Ctl.arrival (c : Ctl) (k : Env) (p : Station) : Ctl :=
  let c := c.onPeer p (fun x => { x with reportReq := true })
  (((c.removeDeparture p).retryPlacement k true).requestRecheck).hand .members

/-- The peer state after a PRESENCE (Table 6-2). -/
def PresenceBody.peerState (b : PresenceBody) (k : Env) : PeerState :=
  if b.copies ≠ byteOf k.copies then .incompatible
  else if b.flags.getLsbD 1 then .departed
  else .present

/-- The notices of Table 6-2. -/
inductive Notice where
  | arrival | departure | clearing | none
  deriving DecidableEq, Repr

/-- The notice for a state before, a state after, and whether the generation is NEW (Table 6-2). -/
def noticeOf (before after : PeerState) (isNew : Bool) : Notice :=
  match after, before with
  | .incompatible, .absent => .clearing
  | .incompatible, .present => .departure
  | .incompatible, .silent => .departure
  | .incompatible, .departed => .none
  | .incompatible, .incompatible => .none
  | .departed, .departed => .none
  | .departed, .absent => .departure
  | .departed, .present => .departure
  | .departed, .silent => .departure
  | .departed, .incompatible => .departure
  | .present, .present => if isNew then .arrival else .none
  | .present, .silent => if isNew then .arrival else .none
  | .present, .absent => .arrival
  | .present, .departed => .arrival
  | .present, .incompatible => .arrival
  | .absent, _ => .none
  | .silent, _ => .none

/-- A notice given (R95, R96, R100). -/
def Ctl.give (c : Ctl) (k : Env) (p : Station) : Notice → Ctl
  | .arrival => c.arrival k p
  | .departure => c.departure k p
  | .clearing => c.appendDeparture p
  | .none => c

/-- A FULL flag has cleared on a PRESENT peer: placement is retried, a RECHECK requested (R97). -/
def Ctl.fullCleared (c : Ctl) (k : Env) : Ctl := (c.retryPlacement k false).requestRecheck

/-- What a PRESENCE records of its sender (R93, R97). -/
def PresenceBody.record (b : PresenceBody) (k : Env) (p : Peer) : Peer :=
  { p with state := b.peerState k, gen := some b.gen, missed := 0, code := stateCodeOf b.code, pool := b.pool,
           full := b.flags.getLsbD 0, mark := b.mark }

/-- A PRESENCE from peer `p` is taken (R93, R97, R99, Table 6-2). -/
def Ctl.takePresence (c : Ctl) (k : Env) (p : Station) (b : PresenceBody) : Ctl :=
  let old := c.peers.get p
  let after := b.peerState k
  let notice := noticeOf old.state after (decide (old.gen ≠ some b.gen))
  let c := c.onPeer p (b.record k)
  let c := if old.mark < b.mark then c.replicaRelease k p b.mark else c
  let c := c.give k p notice
  let c := if after = .incompatible && old.state ≠ .incompatible then c.hand .members else c
  let c := if old.full && !b.flags.getLsbD 0 && after = .present && notice ≠ .arrival then c.fullCleared k else c
  if after = .present && has b.mask k.me then c.holdingsAsked k else c

/-- The tick's missed counts: PRESENT and SILENT peers gain 1, to at most 10 (R94). -/
def Peer.missOne (p : Peer) : Peer :=
  if p.state = .present ∨ p.state = .silent then { p with missed := min (p.missed + 1) 10 } else p

/-- The presence timer ticks (R91, R94). -/
def Ctl.presenceTick (c : Ctl) (k : Env) : Ctl :=
  match c.presence with
  | none => c
  | some n =>
    if presencePeriod ≤ n then
      { c with presence := some (n - presencePeriod), peers := vmap Peer.missOne c.peers }.requestPresence k
    else c

/-- A peer's missed count has reached a threshold (R94). -/
def Ctl.missedThreshold (c : Ctl) (k : Env) (p : Station) : Ctl :=
  let x := c.peers.get p
  if x.state = .present ∧ 3 ≤ x.missed then c.onPeer p (fun x => { x with state := .silent })
  else if x.state = .silent ∧ 10 ≤ x.missed then (c.onPeer p (fun x => { x with state := .departed })).departure k p
  else c

/-- The presumed depths of peers still ABSENT at the end of the first full window are cleared (R100), the tasks appended in
ascending station number (log 51). -/
def Ctl.clearAbsent (c : Ctl) (k : Env) : Ctl :=
  (allStations.filter (fun p => decide (p ≠ k.me) && decide ((c.peers.get p).state = .absent))).foldl
    Ctl.appendDeparture c

/-- The listening window has run to its end (R69, R70, R99, R100). -/
def Ctl.windowEnd (c : Ctl) (k : Env) : Ctl :=
  if c.station = .listening && c.window = some 0 then
    let c := if c.firstWindow then { c.clearAbsent k with firstWindow := false } else c
    let c := { c with window := none }
    let c := if c.mark.frozenOwed then c.enterFrozen else c.enterState .active
    c.actPending k
  else c

end Sys2Proof.Machine
end

