-- ==== Sys2Proof/Machine/MarkLog.lean ====
section
/-!
DEFINITION. The mark log (R65 to R68): wanted values, writes, block switches, what a PASS and a FAIL bring, and the log
becoming unwritable.
-/

namespace Sys2Proof.Machine

/-- The mark log changed. -/
def Ctl.onMark (c : Ctl) (f : MarkLog → MarkLog) : Ctl := { c with mark := f c.mark }

/-- The active mark block, block 0 before any is known (R58). -/
def MarkLog.block (m : MarkLog) : Fin 2 := m.active.getD 0

/-- The other mark block (R67). -/
def MarkLog.other (m : MarkLog) : Fin 2 := m.block + 1

/-- The program of a mark page (R34, Table 11-4); its slots are taken from the write in progress at the grant. -/
def markProgramReq (block : Fin 2) (index : Nat) : Request :=
  { who := .mark, emergency := false,
    op := .program { page := { block := block.val, page := index }, first := 0, count := 8,
                     identity := some markIdentity, descs := [(0, markFill), (1, markFill), (2, markFill)],
                     source := .markPage } }

/-- A page of own records waits at the port for a ceiling that covers the next seq (R68). -/
def Ctl.opensWaitingCeiling (c : Ctl) : Bool :=
  match c.port.act, c.nextSeq with
  | .appendOpening _, some n => decide (c.mark.recorded.ceiling < n)
  | _, _ => false

/-- The causes waiting for a mark page are told that none will be written (R66): a RELEASE ends FAIL, an APPEND that
waits for a ceiling ends FAIL. -/
def Ctl.failMarkCauses (c : Ctl) : Ctl :=
  match c.port.act with
  | .releaseWait _ => c.endCommand .fail []
  | .appendOpening _ => if c.opensWaitingCeiling then c.endCommand .fail [] else c
  | .idle => c
  | .collecting _ _ => c
  | .appendData _ _ => c
  | .flushWait _ _ => c
  | .readBufWait _ _ => c
  | .readWait _ _ => c
  | .scanBufWait => c
  | .scanWait _ => c
  | .scanNextWait => c
  | .resetWait => c

/-- The mark log becomes unwritable (R66, R70). -/
def Ctl.markUnwritable (c : Ctl) : Ctl := ((c.onMark (fun m => { m with write := none })).failMarkCauses).oweFrozen

/-- A write of given values is carried out: a program into the next mark page, or first a switch of blocks when the
active one is full (R65, R67). -/
def Ctl.writeMark (c : Ctl) (vals : MarkVals) (seq : Word) : Ctl :=
  let full := decide (128 ≤ c.mark.next)
  let c := c.onMark (fun m => { m with write := some { vals := vals, seq := seq, erasing := full } })
  if full then c.enter { who := .markErase, op := .erase c.mark.other.val, emergency := false }
  else c.enter (markProgramReq c.mark.block c.mark.next)

/-- A write begins when none is in progress and a wanted value differs from its recorded value (R65). -/
def Ctl.beginWrite (c : Ctl) : Ctl :=
  if c.mark.write.isSome || c.mark.frozenOwed || decide (c.mark.wanted = c.mark.recorded) then c
  else if c.mark.recordedSeq = topSeq then c.markUnwritable
  else c.writeMark c.mark.wanted (c.mark.recordedSeq + 1)

/-- A cause raises wanted values, and a write begins (R65). -/
def Ctl.want (c : Ctl) (f : MarkVals → MarkVals) : Ctl :=
  (c.onMark (fun m => { m with wanted := f m.wanted })).beginWrite

/-- A ceiling 1024 above another, at most 2^32 - 1 (R59, R68). -/
def ceilingAbove (base : Word) : Word := wordOf (min (base.toNat + 1024) (2 ^ 32 - 1))

/-- The greater of two seqs. -/
def maxSeq (a b : Word) : Word := if a < b then b else a

/-- A ceiling that covers the next seq is wanted (R68). -/
def Ctl.wantCeiling (c : Ctl) : Ctl :=
  c.want (fun v => { v with ceiling := maxSeq v.ceiling (ceilingAbove c.mark.recorded.ceiling) })

/-- The waiting RELEASE is answered OK once its mark is recorded (R66). -/
def Ctl.answerRelease (c : Ctl) : Ctl :=
  match c.port.act with
  | .releaseWait m => if m ≤ c.mark.recorded.release then c.endCommand .ok [] else c
  | .idle => c
  | .collecting _ _ => c
  | .appendOpening _ => c
  | .appendData _ _ => c
  | .flushWait _ _ => c
  | .readBufWait _ _ => c
  | .readWait _ _ => c
  | .scanBufWait => c
  | .scanWait _ => c
  | .scanNextWait => c
  | .resetWait => c

/-- A mark page has passed: it is the newest mark (R51, R52, R66). -/
def Ctl.markPassed (c : Ctl) (k : Env) (w : MarkWrite) : Ctl :=
  let c := c.onMark (fun m => { m with recorded := w.vals, recordedSeq := w.seq, failures := 0, next := m.next + 1,
                                       write := none })
  let c := if c.ownMark < w.vals.release then ((c.ownRelease k w.vals.release).rejudgeVanished k).sweepAll k else c
  c.answerRelease.beginWrite

/-- A mark page has failed: the same values again, or, after the third failure, the log is unwritable (R66). -/
def Ctl.markFailed (c : Ctl) (w : MarkWrite) : Ctl :=
  let c := c.onMark (fun m => { m with failures := m.failures + 1, next := m.next + 1 })
  if 3 ≤ c.mark.failures then c.markUnwritable else c.writeMark w.vals w.seq

/-- The completion of a mark page program (R66). -/
def Ctl.markProgramEnd (c : Ctl) (k : Env) (out : ProgramOut) : Ctl :=
  match c.mark.write with
  | none => c
  | some w =>
    match out with
    | .pass => c.markPassed k w
    | .fail => c.markFailed w
    | .notHeld => c

/-- The completion of a mark block erase (R67). -/
def Ctl.markEraseEnd (c : Ctl) (pass : Bool) : Ctl :=
  match c.mark.write with
  | none => c
  | some w =>
    if pass then
      let c := c.onMark (fun m => { m with active := some m.other, next := 0, write := some { w with erasing := false } })
      c.enter (markProgramReq c.mark.block 0)
    else c.markUnwritable

end Sys2Proof.Machine
end

