-- ==== Sys2Proof/Machine/Mount.lean ====
section
/-!
DEFINITION. The mount scan (R57 to R64): the mark pages, the classes of the record blocks, the copies in them, and the
resolution of what was found into the directory, the block table, the pool and the frontier.
-/

namespace Sys2Proof.Machine

/-- The mount scan changed. -/
def Ctl.onMount (c : Ctl) (f : Mount → Mount) : Ctl := { c with mount := f c.mount }

/-! ## Stage 1: the mark log (R58, R59) -/

/-- The page read of a mark page (R58). -/
def mountMarkReq (block page : Nat) : Request :=
  { who := .mountMark, op := .pageRead { block := block, page := page }, emergency := false }

/-- The reads that begin the scan: every page of both mark blocks (R57, R58). -/
def Ctl.beginMount (c : Ctl) : Ctl :=
  (List.range 128).foldl (fun c p => (c.enter (mountMarkReq 0 p)).enter (mountMarkReq 1 p)) c

/-- The header read of a record page (R60). -/
def mountHeaderReq (block page : Nat) : Request :=
  { who := .mountHeader, op := .headerRead { block := block, page := page }, emergency := false }

/-- The page read of a record page (R61). -/
def mountPageReq (block page : Nat) : Request :=
  { who := .mountPage, op := .pageRead { block := block, page := page }, emergency := false }

/-- A unit's scan of a block begins with the header of page 0; no block above 511 (R57, R60). -/
def Ctl.scanBlock (c : Ctl) (u : UnitNo) (block : Nat) : Ctl :=
  if block < 512 then
    (c.onMount (fun m => { m with scans := vput m.scans u (some { block := block, phase := .first }) })).enter
      (mountHeaderReq block 0)
  else c.onMount (fun m => { m with scans := vput m.scans u none })

/-- A unit's scan of its block goes on in a phase, with a request. -/
def Ctl.scanNext (c : Ctl) (u : UnitNo) (block : Nat) (p : ScanPhase) (r : Request) : Ctl :=
  (c.onMount (fun m => { m with scans := vput m.scans u (some { block := block, phase := p }) })).enter r

/-- The next seq above a base (R59). -/
def seqAbove (base : Word) : Option Word := if base = topSeq then none else some (base + 1)

/-- The newest mark found: none valid means mark seq 0 and values 0, block 0 active (R58). -/
def Mount.found (m : Mount) : FoundMark := m.newest.getD { seq := 0, block := 0, vals := MarkVals.reset }

/-- The values of this mount are fixed, the mount mark write is requested, and stage 2 begins (R58, R59). -/
def Ctl.fixMark (c : Ctl) : Ctl :=
  let f := c.mount.found
  let c := c.onMark (fun m => { m with recorded := f.vals, recordedSeq := f.seq, wanted := f.vals, active := some f.block,
                                       next := c.mount.ends.get f.block })
  let c := { c with ownMark := f.vals.release, gen := f.vals.gen + 1, nextSeq := seqAbove f.vals.ceiling }
  let c := c.want (fun v => { v with gen := c.gen, ceiling := ceilingAbove f.vals.ceiling })
  ((c.onMount (fun m => { m with started := true })).scanBlock 0 2).scanBlock 1 3

/-- A mark page has been read (R58); after the last of the 256 the values are fixed. -/
def Ctl.markRead (c : Ctl) (a : PageAddr) (r : PageRead) : Ctl :=
  let b : Fin 2 := if a.block = 0 then 0 else 1
  let newer (m : Mount) : Option FoundMark :=
    match r.markPage with
    | none => m.newest
    | some (seq, vals) =>
      match m.newest with
      | none => some { seq := seq, block := b, vals := vals }
      | some f => if f.seq < seq then some { seq := seq, block := b, vals := vals } else some f
  let c := c.onMount (fun m =>
    { m with marksRead := m.marksRead + 1, newest := newer m,
             ends := if r.allErased then m.ends else vput m.ends b (max (m.ends.get b) (a.page + 1)) })
  if c.mount.marksRead = 256 then c.fixMark else c

/-! ## Stage 2: the record blocks (R60, R61) -/

/-- A block is found in a state, with no page of it examined, and the unit goes on to its next block (R60). -/
def Ctl.classify (c : Ctl) (u : UnitNo) (block : Nat) (st : BlockState) : Ctl :=
  let c := c.setBlock { num := block, state := st, next := if st = .free then 0 else 128, pages := [] }
  let c := if st = .erasing then c.enter (recordEraseReq block) else c
  c.scanBlock u (block + 2)

/-- The program count of a page from its header read (R61). -/
def HeaderRead.count (h : HeaderRead) : Nat :=
  if h.anyUncorrectable then 3
  else max 1 (countOf (fun i => decide (h.conds.get i ≠ .erased)) [1, 2, 3])

/-- The pages of an allocated block up to the last programmed one; LIVE is decided by the resolution (R60, R63). -/
def allocatedPages (found : List PageInfo) : List PageInfo :=
  match found.getLast? with
  | none => []
  | some l =>
    (List.range (l.page + 1)).map (fun i =>
      match found.find? (fun x => x.page == i) with
      | some x => x
      | none => { page := i, live := false, count := 0 })

/-- An allocated block has been examined (R60, R63). -/
def Ctl.blockRead (c : Ctl) (u : UnitNo) (block : Nat) (found : List PageInfo) : Ctl :=
  (c.setBlock { num := block, state := .filled, next := 128, pages := allocatedPages found }).scanBlock u (block + 2)

/-- The header of a page of an allocated block has been read (R60, R61). -/
def Ctl.headerFound (c : Ctl) (u : UnitNo) (block p : Nat) (found : List PageInfo) (h : HeaderRead) : Ctl :=
  let found := if h.allErased then found else found ++ [{ page := p, live := false, count := h.count }]
  if p < 127 then c.scanNext u block (.headers (p + 1) found) (mountHeaderReq block (p + 1))
  else
    match found with
    | [] => c.blockRead u block []
    | x :: _ => c.scanNext u block (.pages found []) (mountPageReq block x.page)

/-- A header read of the scan has completed (R60). -/
def Ctl.headerRead (c : Ctl) (u : UnitNo) (h : HeaderRead) : Ctl :=
  match c.mount.scans.get u with
  | none => c
  | some x =>
    match x.phase with
    | .first =>
      if h.badMark then c.classify u x.block .bad
      else if h.allErased then c.scanNext u x.block .last (mountHeaderReq x.block 127)
      else c.headerFound u x.block 0 [] h
    | .last =>
      if h.allErased then c.scanNext u x.block (.empty 1 true) (mountHeaderReq x.block 1)
      else c.classify u x.block .erasing
    | .empty p clean =>
      let clean := clean && h.allErased
      if p < 126 then c.scanNext u x.block (.empty (p + 1) clean) (mountHeaderReq x.block (p + 1))
      else c.classify u x.block (if clean then .free else .erasing)
    | .headers p found => c.headerFound u x.block p found h
    | .pages _ _ => c

/-- Place `k` would have counted but for an UNCORRECTABLE part: its descriptor, or a slot that a sound descriptor covers
(R61; log 26). -/
def PageRead.damagedAt (r : PageRead) (k : Nat) : Bool :=
  decide (k < 3) &&
    (match r.cond (placePart k) with
     | .uncorrectable => true
     | .erased => false
     | .clean | .corrected _ =>
       (imageDesc r.image k).any (fun d =>
         d.sound && d.info.number == k && d.info.records == popCount d.info.starts
           && d.info.slotList.any (fun i => decide (r.cond i = .uncorrectable))))

/-- The copy that a page read of the scan finds (R61); none when the page yields nothing. -/
def PageRead.copy (r : PageRead) (k : Env) (a : PageAddr) : Option FoundCopy :=
  if (r.cond identityPart).readable then
    match parseIdentity (imagePart r.image identityPart) with
    | none => none
    | some (o, seq) =>
      match stationOf o with
      | none => none
      | some o =>
        let ds := r.validDescs
        let n := ds.length
        let damaged := r.damagedAt n
        match ds.getLast? with
        | none => none
        | some d =>
          if damaged && decide (o ≠ k.me) then none
          else
            some { page := a, id := { origin := o, seq := seq }, n := n,
                   closed := ds.any (·.info.closing) || decide (n = 3) || decide (r.cond (placePart n) ≠ .erased),
                   used := d.info.last, holders := d.holders, remoteOnly := damaged }
  else none

/-- A page read of a record page has completed (R61). -/
def Ctl.pageFound (c : Ctl) (k : Env) (u : UnitNo) (a : PageAddr) (r : PageRead) : Ctl :=
  let c :=
    match r.copy k a with
    | some x => c.onMount (fun m => { m with copies := m.copies ++ [x] })
    | none => c
  match c.mount.scans.get u with
  | none => c
  | some x =>
    match x.phase with
    | .pages (p :: rest) done =>
      let done := done ++ [p]
      match rest with
      | [] => c.blockRead u x.block done
      | q :: _ => c.scanNext u x.block (.pages rest done) (mountPageReq x.block q.page)
    | .pages [] _ => c
    | .first => c
    | .last => c
    | .empty _ _ => c
    | .headers _ _ => c

/-! ## Stage 3: the resolution (R62 to R64) -/

/-- Every read of the scan has completed. -/
def Ctl.scanOver (c : Ctl) : Bool :=
  decide (c.station = .mounting) && c.mount.started && (c.mount.scans.get 0).isNone && (c.mount.scans.get 1).isNone

/-- The copy kept of two with one identity: a found copy before a remote-only candidate, then the greater extent count,
then the lower page (R62, step 1). -/
def betterCopy (x y : FoundCopy) : FoundCopy :=
  if x.remoteOnly && !y.remoteOnly then y
  else if y.remoteOnly && !x.remoteOnly then x
  else if x.n < y.n then y
  else if y.n < x.n then x
  else if y.page.index < x.page.index then y
  else x

/-- A copy put among the kept ones (R62, step 1). -/
def keepCopy (x : FoundCopy) : List FoundCopy → List FoundCopy
  | [] => [x]
  | y :: ys => if x.id = y.id then betterCopy y x :: ys else y :: keepCopy x ys

/-- The copies kept: one of each identity, none of a released own page (R62, steps 1 and 2). -/
def Ctl.keptCopies (c : Ctl) (k : Env) : List FoundCopy :=
  (c.mount.copies.foldl (fun l x => keepCopy x l) []).filter
    (fun x => !(decide (x.id.origin = k.me) && decide (x.id.seq ≤ c.ownMark)))

/-- The depths presumed from a holder set, and this station's own (R62, steps 3 and 4). -/
def FoundCopy.depths (x : FoundCopy) (k : Env) : Vector Nat 8 :=
  Vector.ofFn (fun s : Fin 8 =>
    if s = k.me then (if x.remoteOnly then 0 else x.n) else if has x.holders s then x.n else 0)

/-- The directory entry of a kept copy (R62, step 3). -/
def FoundCopy.entry (x : FoundCopy) (k : Env) : Entry :=
  let own := decide (x.id.origin = k.me)
  { id := x.id, role := if own then .own else .replica, localPage := if x.remoteOnly then none else some x.page,
    relocPage := none, pendingExt := none, known := x.n, used := x.used, closed := own || x.closed,
    depths := x.depths k, targets := [], extra := none, excluded := 0, under := false,
    copyEnd := if x.remoteOnly then 0 else x.used }

/-- An allocated block with its LIVE pages marked, and its state by its live count (R63). -/
def Block.resolved (b : Block) (live : List PageAddr) : Block :=
  let b := { b with pages := b.pages.map (fun p =>
    { p with live := live.any (fun a => a.block == b.num && a.page == p.page) }) }
  if b.live = 0 then { b with state := .erasing } else b

/-- The block table is completed and the pool formed (R63). -/
def Ctl.completeBlocks (c : Ctl) (live : List PageAddr) : Ctl :=
  let blocks := c.blocks.map (fun b => if b.state = .filled then b.resolved live else b)
  let owed := (c.blocks.filter (fun b => decide (b.state = .filled) && decide ((b.resolved live).state = .erasing))).map
    (·.num)
  let free := (c.blocks.filter (fun b => decide (b.state = .free) && !c.mount.erased.contains b.num)).map (·.num)
  let marks : List Block := [0, 1].map (fun n => { num := n, state := .mark, next := 0, pages := [] })
  owed.foldl (fun c n => c.enter (recordEraseReq n)) { c with blocks := marks ++ blocks, pool := free ++ c.mount.erased }

/-- The highest own page seq found in flash (R59). -/
def Ctl.highestOwn (c : Ctl) (k : Env) : Word :=
  c.mount.copies.foldl (fun m x => if x.id.origin = k.me then maxSeq m x.id.seq else m) 0

/-- A mark page program is running. -/
def Ctl.markGranted (c : Ctl) : Bool :=
  let isMark (u : UnitState) : Bool := u.busy.any (fun b => decide (b.req.who = .mark))
  isMark (c.units.get 0) || isMark (c.units.get 1)

/-- An own page above the recorded ceiling: base, ceiling and next seq anew; a write not yet granted carries the new
ceiling, and otherwise a second write follows (R59). A mount mark that waits to be written again after a failure is not yet
granted either (log 47). -/
def Ctl.recompute (c : Ctl) (k : Env) : Ctl :=
  let high := c.highestOwn k
  if c.mount.found.vals.ceiling < high then
    let c := { c with nextSeq := seqAbove high }
    let ceiling := ceilingAbove high
    let c := c.onMark (fun m =>
      { m with wanted := { m.wanted with ceiling := ceiling },
               write := if c.markGranted then m.write
                        else m.write.map (fun w => { w with vals := { w.vals with ceiling := ceiling } }) })
    c.beginWrite
  else c

/-- The confirmed frontier at the end of the scan (R64). -/
def Ctl.firstFrontier (c : Ctl) (k : Env) : Frontier :=
  match (c.dir.filter (fun e => decide (e.id.origin = k.me))).getLast? with
  | some e => .extent e.id.seq (e.known - 1)
  | none => if c.ownMark = 0 then .none else .closing c.ownMark

/-- The station leaves MOUNTING: for LISTENING, or LEAVING while PFW# is low; its presence timer begins, its first tick
due at once (R64, R69, R71, R91). -/
def Ctl.leaveMounting (c : Ctl) (k : Env) : Ctl :=
  let c := { c with mount := Mount.reset, presence := some presencePeriod }
  if k.pfwLow then (c.enterState .leaving).requestPresence k else c.enterListening

/-- The copies found are resolved, and the mount ends (R62 to R64). -/
def Ctl.mountResolve (c : Ctl) (k : Env) : Ctl :=
  if c.scanOver then
    let kept := c.keptCopies k
    let c := kept.foldl (fun c x => c.create k (x.entry k)) c
    let c := c.recompute k
    let c := c.completeBlocks ((kept.filter (fun x => !x.remoteOnly)).map (·.page))
    { c with frontier := c.firstFrontier k }.leaveMounting k
  else c

end Sys2Proof.Machine
end

