-- ==== Sys2Proof/Machine/Array.lean ====
section
/-!
DEFINITION. The unit arbiters (R27 to R30), and how an array operation's end reaches its requester (R17, R21, R24,
R29): the shared shapes of the ARBITER_GRANT and *_DONE commands.
-/

namespace Sys2Proof.Machine

/-! ## Shapes of a command's effect -/

/-- A command that changes the controller alone; nothing while RST# is low (R56; log 5). -/
def State.onCtl (s : State) (f : Ctl → Env → Ctl) : State :=
  if s.env.rstLow then s else { s with ctl := f s.ctl s.env }

/-! ## The arbiter (R23, R27 to R30) -/

/-- The operation is a read. -/
def ArrayOp.isRead : ArrayOp → Bool
  | .pageRead _ => true
  | .headerRead _ => true
  | .program _ => false
  | .erase _ => false

/-- The operation is a program. -/
def ArrayOp.isProgram : ArrayOp → Bool
  | .pageRead _ => false
  | .headerRead _ => false
  | .program _ => true
  | .erase _ => false

/-- The requests that are grantable in MOUNTING (R30). -/
def Requester.inMount : Requester → Bool
  | .mountMark => true
  | .mountHeader => true
  | .mountPage => true
  | .mark => true
  | .recordErase => true
  | .markErase => true
  | .port _ _ => false
  | .own _ _ _ => false
  | .replica _ => false
  | .replicaReadBack _ => false
  | .replicaReloc _ => false
  | .copyJob _ => false
  | .ownReadBack _ => false

/-- The request is grantable in a station state (R30). -/
def Request.grantable (r : Request) (st : StationState) : Bool :=
  match st with
  | .mounting => r.who.inMount
  | .leaving => r.op.isRead || (r.op.isProgram && r.emergency)
  | .listening => true
  | .active => true
  | .frozen => true
  | .isolated => true

/-- The request is of class 3, 4 or 5. -/
def Request.low (r : Request) : Bool := decide (3 ≤ r.who.cls)

/-- The arbiter's choice among the grantable requests in queue order (R27, R28). -/
def chooseRequest (favour : Nat) (l : List Request) : Option Request :=
  if favour = 6 && l.any Request.low then l.find? Request.low
  else
    match l.find? (fun r => r.who.cls == 1) with
    | some r => some r
    | none =>
      match l.find? (fun r => r.who.cls == 2) with
      | some r => some r
      | none =>
        match l.find? (fun r => r.who.cls == 3) with
        | some r => some r
        | none =>
          match l.find? (fun r => r.who.cls == 4) with
          | some r => some r
          | none => l.find? (fun r => r.who.cls == 5)

/-- The favour count after a grant (R28); `lowWaits` when a grantable class 3 to 5 request was waiting at it. -/
def favourAfter (favour : Nat) (r : Request) (lowWaits : Bool) : Nat :=
  if r.low then 0 else if lowWaits then favour + 1 else 0

/-- The slot bytes that a program takes at its grant (R17). -/
def Ctl.sourceBytes (c : Ctl) (p : ProgramReq) : List Byte :=
  match p.source with
  | .fill b =>
    match c.fill.get b with
    | some f => Memory.slots clearByte f.bytes p.first p.count
    | none => []
  | .rx b =>
    match c.rxHeld b with
    | some h => Memory.slots clearByte h.image p.first p.count
    | none => []
  | .markPage =>
    match c.mark.write with
    | some w => markPageSlots w.seq w.vals
    | none => []

/-- The slot bytes of a granted request. -/
def Ctl.requestBytes (c : Ctl) (r : Request) : List Byte :=
  match r.op with
  | .program p => c.sourceBytes p
  | .pageRead _ => []
  | .headerRead _ => []
  | .erase _ => []

/-- The page of a request is DEAD, or was so in a block that has been erased since: it completes NOT-HELD (R29, R31, R49).
Mark pages have no page state (R34). -/
def Ctl.notHeldAtGrant (c : Ctl) (r : Request) : Bool :=
  r.stale ||
    (match r.op.page with
     | some a => c.isDead a
     | none => false)

/-- A program that is refused at its grant (R23); not one of a mark page (R34). -/
def Ctl.refusedAtGrant (c : Ctl) (r : Request) : Bool :=
  match r.op with
  | .program p => decide (r.who ≠ .mark) && (decide (3 ≤ c.programCount p.page) || p.descs.isEmpty)
  | .pageRead _ => false
  | .headerRead _ => false
  | .erase _ => false

/-- A unit set. -/
def Ctl.setUnit (c : Ctl) (u : UnitNo) (x : UnitState) : Ctl := { c with units := vput c.units u x }

/-- A request is granted: its unit is BUSY (R17, R23, R28). -/
def Ctl.setBusy (c : Ctl) (u : UnitNo) (r : Request) (queue : List Request) (lowWaits : Bool) : Ctl :=
  let x := c.units.get u
  let c := c.setUnit u { busy := some { req := r, data := c.requestBytes r }, queue := queue,
                         favour := favourAfter x.favour r lowWaits }
  match r.op with
  | .program p => if r.who = .mark then c else c.raiseCount p.page
  | .pageRead _ => c
  | .headerRead _ => c
  | .erase _ => c

/-- A request completes at its grant, without unit time (R23, R29). -/
def Ctl.completeAtGrant (c : Ctl) (u : UnitNo) (r : Request) (queue : List Request) (refused : Bool) : Ctl :=
  let c : Ctl := { c with completed := c.completed ++ [({ req := r, refused := refused } : Completion)] }
  c.setUnit u { c.units.get u with queue := queue }

/-- The arbiter chooses until a request sets the unit BUSY or none is grantable (R27 to R29). -/
def Ctl.grant (c : Ctl) (u : UnitNo) : Nat → Ctl
  | 0 => c
  | fuel + 1 =>
    let x := c.units.get u
    let ready := x.queue.filter (fun r => r.grantable c.station)
    match chooseRequest x.favour ready with
    | none => c
    | some r =>
      let queue := x.queue.erase r
      if c.notHeldAtGrant r then
        (c.completeAtGrant u r queue false).grant u fuel
      else if c.refusedAtGrant r then
        ((c.completeAtGrant u r queue true).retire r.op.block).grant u fuel
      else c.setBusy u r queue (ready.any (fun q => q.low))

/-- The arbiter of a unit acts when the unit is IDLE (R27). -/
def Ctl.arbitrate (c : Ctl) (u : UnitNo) : Ctl :=
  let x := c.units.get u
  if x.busy.isSome then c else c.grant u x.queue.length

/-! ## Completions -/

/-- The oldest request of unit `u`, of a kind, that completed at its grant (R23, R29). -/
def Ctl.takeCompleted (c : Ctl) (u : UnitNo) (p : Requester → Bool) : Option (Completion × Ctl) :=
  match c.completed.find? (fun x => x.req.unit == u && p x.req.who) with
  | none => none
  | some x => some (x, { c with completed := c.completed.erase x })

/-- The operation of a kind in progress on unit `u`; the unit becomes IDLE. -/
def Ctl.takeBusy (c : Ctl) (u : UnitNo) (p : Requester → Bool) : Option (Busy × Ctl) :=
  match (c.units.get u).busy with
  | none => none
  | some b => if p b.req.who then some (b, c.setUnit u { c.units.get u with busy := none }) else none

/-- The page of a request that names one. -/
def Request.pageOf (r : Request) : PageAddr := r.op.page.getD { block := 0, page := 0 }

/-- A page read of a kind completes on unit `u`: its requester takes NOT-HELD, or the read's bytes and conditions. -/
def State.pageReadDone (s : State) (u : UnitNo) (p : Requester → Bool) (r : ReadReport)
    (f : Ctl → Env → Requester → PageAddr → Option PageRead → Ctl) : State :=
  if s.env.rstLow then s
  else
    match s.ctl.takeCompleted u p with
    | some (x, c) => { s with ctl := f c s.env x.req.who x.req.pageOf none }
    | none =>
      match s.ctl.takeBusy u p with
      | none => s
      | some (b, c) =>
        { s with env := { s.env with fresh := s.env.fresh + 1 },
                 flash := s.flash.afterRead b.req.pageOf r,
                 ctl := f c s.env b.req.who b.req.pageOf (some (s.flash.readPage b.req.pageOf r s.env.fresh)) }

/-- A header read of the mount completes on unit `u` (R19, R20, R60). -/
def State.headerReadDone (s : State) (u : UnitNo) (r : ReadReport) (f : Ctl → HeaderRead → Ctl) : State :=
  if s.env.rstLow then s
  else
    match s.ctl.takeBusy u (fun w => decide (w = .mountHeader)) with
    | none => s
    | some (b, c) =>
      { s with env := { s.env with fresh := s.env.fresh + 1 },
               flash := s.flash.afterHeaderRead b.req.pageOf r,
               ctl := f c (s.flash.readHeader b.req.pageOf r s.env.fresh) }

/-- What the array holds after a program (R21, R22). -/
def Flash.afterProgram (f : Flash) (p : ProgramReq) (data : List Byte) (r : ProgramReport) (fresh : Nat) : Flash :=
  match r with
  | .pass _ => f.programPass p data fresh
  | .fail => f.programFail p fresh

/-- How a program ended. -/
def programOut : ProgramReport → ProgramOut
  | .pass _ => .pass
  | .fail => .fail

/-- A program of a kind completes on unit `u`: the array takes its bytes, and its requester the result. A program that
completed at its grant is NOT-HELD, or was refused and counts as a FAIL (R23, R29). -/
def State.programDone (s : State) (u : UnitNo) (p : Requester → Bool) (r : ProgramReport)
    (f : Ctl → Env → Requester → ProgramReq → ProgramOut → Ctl) : State :=
  if s.env.rstLow then s
  else
    match s.ctl.takeCompleted u p with
    | some (x, c) =>
      match x.req.op with
      | .program q => { s with ctl := f c s.env x.req.who q (if x.refused then .fail else .notHeld) }
      | _ => s
    | none =>
      match s.ctl.takeBusy u p with
      | none => s
      | some (b, c) =>
        match b.req.op with
        | .program q =>
          { s with env := { s.env with fresh := s.env.fresh + 1 },
                   flash := s.flash.afterProgram q b.data r s.env.fresh,
                   ctl := f c s.env b.req.who q (programOut r) }
        | _ => s

/-- What the array holds after an erase (R24). -/
def Flash.afterErase (f : Flash) (block : Nat) (r : EraseReport) (fresh : Nat) : Flash :=
  match r with
  | .pass _ => f.erasePass block
  | .fail => f.eraseFail block fresh

/-- The erase ended in PASS. -/
def erasePassed : EraseReport → Bool
  | .pass _ => true
  | .fail => false

/-- An erase of a kind completes on unit `u`. -/
def State.eraseDone (s : State) (u : UnitNo) (p : Requester → Bool) (r : EraseReport) (f : Ctl → Nat → Bool → Ctl) :
    State :=
  if s.env.rstLow then s
  else
    match s.ctl.takeBusy u p with
    | none => s
    | some (b, c) =>
      { s with env := { s.env with fresh := s.env.fresh + 1 },
               flash := s.flash.afterErase b.req.op.block r s.env.fresh,
               ctl := f c b.req.op.block (erasePassed r) }

/-! ## Engines' own ends -/

/-- The operation reads or programs a page of a block. -/
def ArrayOp.onBlock (o : ArrayOp) (block : Nat) : Bool := o.page.any (fun a => a.block == block)

/-- The reads and programs that wait for a page of a block that has been erased: each named a page that was DEAD, and ends
NOT-HELD at its grant whichever of the two the arbiter grants first (R31, R49). -/
def Ctl.markStale (c : Ctl) (block : Nat) : Ctl :=
  c.onQueues (fun r => if r.op.onBlock block then { r with stale := true } else r)

/-- The completion of the erase of a record block (R50, R60). -/
def Ctl.recordEraseEnd (c : Ctl) (block : Nat) (pass : Bool) : Ctl :=
  if pass then
    let c := c.setBlock { num := block, state := .free, next := 0, pages := [] }
    if c.station = .mounting then c.onMount (fun m => { m with erased := m.erased ++ [block] })
    else { c.markStale block with pool := c.pool ++ [block] }
  else
    match c.block block with
    | some b => c.setBlock { b with state := .bad }
    | none => c

/-- The read-back buffer given up, and what waited for it of the page (R118; log 19). -/
def Ctl.dropReadBack (c : Ctl) (seq : Word) : Ctl :=
  { c with readBack := { page := none, reading := false, image := [],
                         wants := c.readBack.wants.filter (fun w => w.seq != seq) } }.resumeTimers seq

/-- The completion of a read-back of own page `seq` (R118, R53). -/
def Ctl.ownReadBackEnd (c : Ctl) (k : Env) (seq : Word) (a : PageAddr) (r : Option PageRead) : Ctl :=
  match r with
  | none => (c.dropReadBack seq).sweep k
  | some r =>
    if c.foundDamage k (ownId k seq) a r then (c.dropReadBack seq).damage k (ownId k seq) a
    else if (c.ownEntry k seq).any (fun e => decide (e.localPage = some a)) then
      let c := { c with readBack := { c.readBack with reading := false, image := r.image } }.pruneOwed
      let mine := c.readBack.wants.filter (fun w => w.seq == seq)
      (mine.foldl (fun (c : Ctl) w => c.transmit k seq w.ext w.mask)
        { c with readBack := { c.readBack with wants := c.readBack.wants.filter (fun w => w.seq != seq) } }).sweep k
    else (c.dropReadBack seq).sweep k

end Sys2Proof.Machine
end

