-- ==== Sys2Proof/Machine/Port.lean ====
section
/-!
DEFINITION. The local port (Section 10): the cycles, APPEND, FLUSH and RELEASE with the acceptance and opening of
Section 7, the read pair, READ and SCAN, and PORT RESET.
-/

namespace Sys2Proof.Machine

/-! ## Commands (R159 to R162) -/

/-- The port changed. -/
def Ctl.onPort (c : Ctl) (f : Port → Port) : Ctl := { c with port := f c.port }

/-- What the port is doing is set. -/
def Ctl.setAct (c : Ctl) (a : Activity) : Ctl := c.onPort (fun p => { p with act := a })

/-- A command is taken: the result block before it and its payload are gone (R159, R167). -/
def Ctl.takeCommand (c : Ctl) : Ctl :=
  c.onPort (fun p => { p with act := .idle, result := [], resultPos := 0, payload := none })

/-- The bytes an APPEND in its data phase has written are set to 00H again (R106, R109). -/
def Ctl.discardAppend (c : Ctl) (k : Env) : Ctl :=
  match c.openPage k with
  | some (b, p) => c.setFill b (some p.cleared)
  | none => c

/-- A command byte abandons the command that collects arguments, or the APPEND whose data phase is open: it ends SHORT
(R159, R163). -/
def Ctl.abandon (c : Ctl) (k : Env) : Ctl :=
  match c.port.act with
  | .collecting _ _ => c.endCommand .short []
  | .appendData _ _ => (c.discardAppend k).endCommand .short []
  | .idle => c
  | .appendOpening _ => c
  | .flushWait _ _ => c
  | .releaseWait _ => c
  | .readBufWait _ _ => c
  | .readWait _ _ => c
  | .scanBufWait => c
  | .scanWait _ => c
  | .scanNextWait => c
  | .resetWait => c

/-- A write cycle in the command phase: ignored with OVERRUN while the port is busy; else it abandons what it may and
begins a command (R159, R160). -/
def Ctl.commandWrite (c : Ctl) (k : Env) (f : Ctl → Ctl) : Ctl :=
  if c.busy then c.setOverrun else f (c.abandon k)

/-- A command byte that is not in Table 10-1 is taken and refused (R159). -/
def Ctl.unknown (c : Ctl) (k : Env) (code : Byte) : Ctl :=
  if knownCode code then c else c.commandWrite k (fun c => c.takeCommand.endCommand .badArg [])

/-- A STATUS command byte (R162, R175). -/
def Ctl.status (c : Ctl) : Ctl :=
  c.onPort (fun p => { p with latchByte := c.statusByte, latchLast := p.lastResult, latchTurn := false, overrun := false })

/-- A read cycle in the command phase (R162, R175). -/
def Ctl.readLatch (c : Ctl) : Ctl :=
  c.onPort (fun p => { p with dOut := if p.latchTurn then p.latchLast else p.latchByte, latchTurn := !p.latchTurn })

/-- A read cycle in the argument phase (R159, R160). -/
def Ctl.readResult (c : Ctl) : Ctl :=
  if c.busy then c.onPort (fun p => { p with dOut := 0 })
  else
    match c.port.result[c.port.resultPos]? with
    | some b => c.onPort (fun p => { p with dOut := b, resultPos := p.resultPos + 1 })
    | none => c.onPort (fun p => { p with dOut := 0 })

/-! ## APPEND (R107 to R109, R163) -/

/-- The record fits the open page (R3). -/
def fits (o : Option (Fin 2 × FillPage)) (slots : Nat) : Bool := o.any (fun x => decide (x.2.used + slots ≤ 8))

/-- The open page has unflushed slots. -/
def hasUnflushed (o : Option (Fin 2 × FillPage)) : Bool := o.any (fun x => x.2.unflushed)

/-- The extents that an APPEND will form (R108). -/
def extentsFormed (o : Option (Fin 2 × FillPage)) (slots : Nat) : Nat :=
  if fits o slots then (if o.any (fun x => decide (x.2.used + slots = 8)) then 1 else 0)
  else (if hasUnflushed o then 1 else 0) + (if slots = 8 then 1 else 0)

/-- The refusal of an APPEND in ACTIVE, the first that applies; none when it is accepted (R108, R163). -/
def Ctl.appendRefusal (c : Ctl) (k : Env) (length : Nat) : Option ResultCode :=
  let o := c.openPage k
  let slots := slotsOf length
  if length = 0 ∨ 4084 < length then some .badArg
  else if 16 - c.et.length < extentsFormed o slots then some .tableFull
  else if !fits o slots && (!c.dirRoom || ((c.openBlock .own).isNone && decide (c.pool.length < 3))) then some .noSpace
  else if !fits o slots && c.nextSeq.isNone then some .exhausted
  else none

/-- The page that a record does not fit is closed: by its no-fit extent, or at the origin alone (R8, R108). -/
def Ctl.closeNoFit (c : Ctl) (k : Env) : Ctl :=
  match c.openPage k with
  | none => c
  | some (b, p) =>
    if p.unflushed then c.formExtent k b p true
    else (c.update k (ownId k p.seq) (fun e => { e with closed := true })).dropTargets k p.seq

/-- The next seq is above the recorded ceiling (R68). -/
def Ctl.aboveCeiling (c : Ctl) : Bool := c.nextSeq.any (fun n => decide (c.mark.recorded.ceiling < n))

/-- An APPEND is accepted (R108, R163): its header fields are fixed; its data phase opens at once, or the page it does
not fit is closed and the opening of a new one waits, the ceiling raised where it must be (R68). -/
def Ctl.acceptAppend (c : Ctl) (k : Env) (tag : Half) (length : Nat) : Ctl :=
  let o := c.openPage k
  let slots := slotsOf length
  let a : AppendCmd := { tag := tag, length := length, gen := c.gen, stamp := k.clock, slots := slots,
                         reserved := extentsFormed o slots }
  if fits o slots then c.setAct (.appendData a 0)
  else
    let a := { a with reserved := if slots = 8 then 1 else 0 }
    let c := ((c.setAct (.appendOpening a)).closeNoFit k).sweep k
    if c.aboveCeiling then c.wantCeiling else c

/-- APPEND (R108, R161, R163). -/
def Ctl.doAppend (c : Ctl) (k : Env) (args : List Byte) : Ctl :=
  let length := (argHalf args 2).toNat
  if c.station ≠ .active then c.endCommand .state []
  else
    match c.appendRefusal k length with
    | some code => c.endCommand code []
    | none => c.acceptAppend k (argHalf args 0) length

/-- The seq after one given (R68). -/
def seqAfter (s : Word) : Option Word := if s = topSeq then none else some (s + 1)

/-- The entry of a page just opened (R38, R107). -/
def openedEntry (k : Env) (seq : Word) (a : PageAddr) (targets : List Station) : Entry :=
  { id := ownId k seq, role := .own, localPage := some a, relocPage := none, pendingExt := none, known := 0, used := 0,
    closed := false, depths := #v[0, 0, 0, 0, 0, 0, 0, 0], targets := targets, extra := none, excluded := 0,
    under := false, copyEnd := 0 }

/-- A fill buffer given to a page at its opening: every byte 00H (R106). -/
def openedFill (seq : Word) : FillPage :=
  { seq := seq, bytes := [], used := 0, starts := 0, records := 0, extents := [], failed := false }

/-- A FREE fill buffer, the lower first (log 52). -/
def Ctl.freeFill (c : Ctl) : Option (Fin 2) :=
  if (c.fill.get 0).isNone then some 0 else if (c.fill.get 1).isNone then some 1 else none

/-- The page an APPEND waits for is opened once a fill buffer is FREE and the next seq is at or below the recorded
ceiling; refused by the directory or the pool, the APPEND ends NO-SPACE (R107). -/
def Ctl.openOwnPage (c : Ctl) (k : Env) : Ctl :=
  match c.port.act, c.freeFill, c.nextSeq with
  | .appendOpening a, some b, some seq =>
    if c.mark.recorded.ceiling < seq then c
    else
      match (if c.dirRoom then c.allocate .own false else none) with
      | none => c.endCommand .noSpace []
      | some (p, c') =>
        ((({ c' with nextSeq := seqAfter seq }.create k (openedEntry k seq p (c.placement k))).setFill b
          (some (openedFill seq))).setAct (.appendData a 0))
  | _, _, _ => c

/-- The record header that an APPEND fixed (R1). -/
def AppendCmd.header (a : AppendCmd) (index : Nat) : RecordHeader :=
  { length := halfOf a.length, tag := a.tag, gen := a.gen, stamp := a.stamp, slots := byteOf a.slots,
    index := byteOf index }

/-- The page with the record placed at its used slots (R109). -/
def FillPage.place (p : FillPage) (a : AppendCmd) : FillPage :=
  { p with bytes := Memory.write clearByte p.bytes (p.used * 512) (a.header p.records).bytes,
           used := p.used + a.slots, starts := p.starts ||| (1#8 <<< p.used), records := p.records + 1 }

/-- The last payload byte places the record and ends the APPEND; a full page forms its closing extent (R109). -/
def Ctl.placeRecord (c : Ctl) (k : Env) (b : Fin 2) (p : FillPage) (a : AppendCmd) : Ctl :=
  let q := p.place a
  let c := (c.setFill b (some q)).endCommand .ok (bytes32 p.seq ++ [byteOf p.used])
  if q.used = 8 then (c.formExtent k b q false).sweep k else c

/-- A write cycle in the data phase (R159, R163): the next payload byte of an APPEND, else ignored with OVERRUN. -/
def Ctl.payloadByte (c : Ctl) (k : Env) (d : Byte) : Ctl :=
  match c.port.act, c.openPage k with
  | .appendData a got, some (b, p) =>
    let q := { p with bytes := Memory.write clearByte p.bytes (p.used * 512 + 12 + got) [d] }
    if got + 1 = a.length then c.placeRecord k b q a
    else (c.setFill b (some q)).setAct (.appendData a (got + 1))
  | _, _ => c.setOverrun

/-! ## FLUSH and RELEASE (R110, R164, R165) -/

/-- FLUSH (R110, R161, R164). -/
def Ctl.doFlush (c : Ctl) (k : Env) : Ctl :=
  if c.station ≠ .active then c.endCommand .state []
  else
    match c.openPage k with
    | none => c.endCommand .nothing []
    | some (b, p) =>
      if !p.unflushed then c.endCommand .nothing []
      else if 16 ≤ c.et.length then c.endCommand .tableFull []
      else ((c.setAct (.flushWait p.seq p.extents.length)).formExtent k b p false).sweep k

/-- The release limit (R14, R165). -/
def Ctl.releaseLimit (c : Ctl) (k : Env) : Word :=
  match c.openPage k with
  | some (_, p) => p.seq - 1
  | none =>
    match c.nextSeq with
    | some n => n - 1
    | none => topSeq

/-- RELEASE (R161, R165). -/
def Ctl.doRelease (c : Ctl) (k : Env) (args : List Byte) : Ctl :=
  let m := argWord args 0
  if c.station ≠ .active then c.endCommand .state []
  else if m ≤ c.ownMark then c.endCommand .already []
  else if c.releaseLimit k < m then c.endCommand .range []
  else (c.setAct (.releaseWait m)).want (fun v => { v with release := maxSeq v.release m })

/-! ## The read pair (R166 to R169) -/

/-- A read pair buffer set. -/
def Ctl.setPair (c : Ctl) (b : Fin 2) (x : PairBuf) : Ctl := { c with pair := vput c.pair b x }

/-- A buffer given up: ABANDONED while a read into it is outstanding, else EMPTY (R166). -/
def PairBuf.release : PairBuf → PairBuf
  | .empty => .empty
  | .loading id h => .abandoned id h
  | .loaded _ _ _ _ => .empty
  | .damaged _ => .empty
  | .ended => .empty
  | .abandoned id h => .abandoned id h

/-- The scan ends and both buffers are given up (R166 to R168). -/
def Ctl.endScan (c : Ctl) : Ctl := { c with scan := none, pair := vmap PairBuf.release c.pair }

/-- A read is outstanding into the buffer. -/
def PairBuf.outstanding : PairBuf → Bool
  | .loading _ _ => true
  | .abandoned _ _ => true
  | .empty => false
  | .loaded _ _ _ _ => false
  | .damaged _ => false
  | .ended => false

/-- A buffer that is neither LOADING nor ABANDONED, the lower first (R166; log 28). -/
def Ctl.freePair (c : Ctl) : Option (Fin 2) :=
  if !(c.pair.get 0).outstanding then some 0 else if !(c.pair.get 1).outstanding then some 1 else none

/-- The page read for the port of an entry's local page is requested into a buffer (R166, R167). -/
def Ctl.loadPair (c : Ctl) (k : Env) (b : Fin 2) (e : Entry) : Ctl :=
  match e.localPage with
  | some a =>
    (c.setPair b (.loading e.id (e.ownDepth k))).enter
      { who := .port b e.id, op := .pageRead a, emergency := false }
  | none => c

/-- The entry holds a copy that can be read (R167, R168). -/
def Entry.readable (e : Entry) (k : Env) : Bool := e.localPage.isSome && decide (1 ≤ e.ownDepth k)

/-- A READ goes on with a buffer at hand (R167). -/
def Ctl.startRead (c : Ctl) (k : Env) (b : Fin 2) (id : PageId) (slot : Nat) : Ctl :=
  match c.entry id with
  | none => c.endCommand .notHeld []
  | some e =>
    if e.readable k then (c.setAct (.readWait b slot)).loadPair k b e
    else c.endCommand .notHeld []

/-- READ (R161, R167). -/
def Ctl.doRead (c : Ctl) (k : Env) (args : List Byte) : Ctl :=
  let seq := argWord args 1
  let slot := (argAt args 5).toNat
  if c.station = .mounting then c.endCommand .state []
  else
    match stationOf (argAt args 0) with
    | none => c.endCommand .badArg []
    | some o =>
      if 7 < slot ∨ seq = 0 then c.endCommand .badArg []
      else
        let c := c.endScan
        let id : PageId := { origin := o, seq := seq }
        if !(c.entry id).any (fun e => e.readable k) then c.endCommand .notHeld []
        else
          match c.freePair with
          | some b => c.startRead k b id slot
          | none => c.setAct (.readBufWait id slot)

/-- The end of the held slots of an image (R166). -/
def heldEnd (m : Memory) (h : Nat) : Nat := imageEnd m h

/-- A slot of an image is a RECORD START (R166). -/
def recordStart (m : Memory) (h slot : Nat) : Bool :=
  decide (slot < heldEnd m h) &&
    (imageExtents m h).any (fun e => decide (e.first ≤ slot) && decide (slot < e.last) && e.starts.getLsbD slot)

/-- The next record start above a slot, none when there is none (R169). -/
def nextStart (m : Memory) (h slot : Nat) : Option Nat :=
  (List.range 8).find? (fun i => decide (slot < i) && recordStart m h i)

/-- The fields of a READ's OK block (Table 11-13). -/
def readFields (m : Memory) (slot corrected : Nat) : List Byte :=
  let r := recordAt m slot
  bytes16 r.length ++ (bytes16 r.tag ++ (bytes16 r.gen ++ (bytes32 r.stamp ++ [r.slots, r.index, byteOf corrected])))

/-- The payload of the record at a slot, none when it is empty (R162, R167). -/
def payloadOf (b : Fin 2) (m : Memory) (slot : Nat) : Option Payload :=
  let n := (recordAt m slot).length.toNat
  if n = 0 then none else some { buf := b, slot := slot, length := n, pos := 0 }

/-- A read for the port found damage: to the copy when the entry still names the page, else in the parts held when the
read was requested (R53, R167; log 35). -/
def Ctl.portDamage (c : Ctl) (k : Env) (id : PageId) (a : PageAddr) (h : Nat) (r : PageRead) : Bool :=
  if (c.entry id).any (fun e => decide (e.localPage = some a) && decide (1 ≤ e.ownDepth k)) then c.foundDamage k id a r
  else r.unsound h (imageEnd r.image h)

/-- The page read of a READ has completed (R167). -/
def Ctl.portReadEnd (c : Ctl) (k : Env) (b : Fin 2) (id : PageId) (h slot : Nat) (a : PageAddr) (r : Option PageRead) :
    Ctl :=
  match r with
  | none => (c.setPair b .empty).endCommand .notHeld []
  | some r =>
    if c.portDamage k id a h r then ((c.setPair b .empty).damage k id a).endCommand .damaged []
    else if heldEnd r.image h ≤ slot then (c.setPair b .empty).endCommand .notHeld []
    else if !recordStart r.image h slot then (c.setPair b .empty).endCommand .notRecord []
    else
      ((c.setPair b (.loaded id h r.image r.highest)).endCommand .ok (readFields r.image slot r.highest)).onPort
        (fun p => { p with payload := payloadOf b r.image slot })

/-- A read cycle in the data phase (R160, R167). -/
def Ctl.readPayload (c : Ctl) : Ctl :=
  if c.busy then c.onPort (fun p => { p with dOut := 0 })
  else
    match c.port.payload with
    | none => c.onPort (fun p => { p with dOut := 0 })
    | some x =>
      let d :=
        match c.pair.get x.buf with
        | .loaded _ _ m _ => Memory.read erasedByte m (x.slot * 512 + 12 + x.pos)
        | _ => 0
      c.onPort (fun p => { p with dOut := d,
                                  payload := if x.pos + 1 < x.length then some { x with pos := x.pos + 1 } else none })

/-! ### Scans (R168, R169) -/

/-- A locator (Table 11-13). -/
def locator (id : PageId) (slot : Nat) : List Byte := byteOf id.origin.val :: (bytes32 id.seq ++ [byteOf slot])

/-- The scan changed. -/
def Ctl.onScan (c : Ctl) (f : Scan → Scan) : Ctl := { c with scan := c.scan.map f }

/-- The NEXT HELD PAGE of a scan (R168). -/
def Ctl.nextHeld (c : Ctl) (k : Env) (s : Scan) : Option Entry :=
  c.dir.find? (fun e => decide (s.cursor ≤ e.id.key) && decide (e.id.origin = s.origin) && e.readable k)

/-- The walk of a scan takes the next held page and requests its read into a buffer; none when there is none. -/
def Ctl.walkScan (c : Ctl) (k : Env) (b : Fin 2) : Option Ctl :=
  match c.scan with
  | none => none
  | some s =>
    match c.nextHeld k s with
    | none => none
    | some e => some ((c.onScan (fun s => { s with cursor := e.id.key + 1 })).loadPair k b e)

/-- The prefetch buffer, when it is EMPTY, is filled ahead of the current one (R169). -/
def Ctl.prefetch (c : Ctl) (k : Env) : Ctl :=
  match c.scan with
  | none => c
  | some s =>
    let b := s.current + 1
    match c.pair.get b with
    | .empty =>
      match c.walkScan k b with
      | some c' => c'
      | none => c.setPair b .ended
    | _ => c

/-- A SCAN goes on with a buffer at hand (R168). -/
def Ctl.startScan (c : Ctl) (k : Env) (b : Fin 2) : Ctl :=
  let c := c.onScan (fun s => { s with current := b })
  match c.walkScan k b with
  | some c' => c'.setAct (.scanWait b)
  | none => ({ c with scan := none }.setPair b .empty).endCommand .ended []

/-- SCAN (R161, R168). -/
def Ctl.doScan (c : Ctl) (k : Env) (args : List Byte) : Ctl :=
  if c.station = .mounting then c.endCommand .state []
  else
    match stationOf (argAt args 0) with
    | none => c.endCommand .badArg []
    | some o =>
      let id : PageId := { origin := o, seq := argWord args 1 }
      let c := { c.endScan with scan := some { origin := o, cursor := id.key, current := 0, position := none } }
      match c.freePair with
      | some b => c.startScan k b
      | none => c.setAct .scanBufWait

/-- The first page read of a SCAN has completed (R168). -/
def Ctl.scanReadEnd (c : Ctl) (k : Env) (b : Fin 2) (id : PageId) (h : Nat) (a : PageAddr) (r : Option PageRead) : Ctl :=
  match r with
  | none => c.startScan k b
  | some r =>
    if c.portDamage k id a h r then
      (((c.setPair b .empty).damage k id a).endCommand .damaged (locator id 0)).prefetch k
    else
      (((c.setPair b (.loaded id h r.image r.highest)).onScan (fun s => { s with position := some 0 })).endCommand .ok
        (locator id 0)).prefetch k

/-- The record at the position is delivered, and the position moves on (R169). -/
def Ctl.deliver (c : Ctl) (slot : Nat) : Ctl :=
  match c.scan with
  | none => c.endCommand .ended []
  | some s =>
    match c.pair.get s.current with
    | .loaded id h m corrected =>
      ((c.onScan (fun s => { s with position := nextStart m h slot })).endCommand .ok
        (locator id slot ++ readFields m slot corrected)).onPort
        (fun p => { p with payload := payloadOf s.current m slot })
    | _ => c.endCommand .ended []

/-- A SCAN NEXT goes on with the buffer that has become current (R169): LOADED, DAMAGED or END settles it; LOADING or
ABANDONED keeps RDY low; EMPTY takes the next held page. -/
def Ctl.settleNext (c : Ctl) (k : Env) : Ctl :=
  match c.scan with
  | none => c.endCommand .ended []
  | some s =>
    match c.pair.get s.current with
    | .loaded _ _ _ _ => (((c.onScan (fun s => { s with position := some 0 })).prefetch k).deliver 0)
    | .damaged id => (((c.setPair s.current .empty).endCommand .damaged (locator id 0)).prefetch k)
    | .ended => ({ c with scan := none }.endCommand .ended [])
    | .loading _ _ => c.setAct .scanNextWait
    | .abandoned _ _ => c.setAct .scanNextWait
    | .empty =>
      match c.walkScan k s.current with
      | some c' => c'.setAct .scanNextWait
      | none => ({ c with scan := none }.setPair s.current .ended).endCommand .ended []

/-- SCAN NEXT (R161, R169). -/
def Ctl.doScanNext (c : Ctl) (k : Env) : Ctl :=
  if c.station = .mounting then c.endCommand .state []
  else
    match c.scan with
    | none => c.endCommand .ended []
    | some s =>
      match s.position with
      | some slot => c.deliver slot
      | none =>
        ((c.setPair s.current (c.pair.get s.current).release).onScan (fun s => { s with current := s.current + 1 })).settleNext
          k

/-- A prefetch read has completed (R169). -/
def Ctl.prefetchEnd (c : Ctl) (k : Env) (b : Fin 2) (id : PageId) (h : Nat) (a : PageAddr) (r : Option PageRead) : Ctl :=
  let c :=
    match r with
    | none =>
      match (c.setPair b .empty).walkScan k b with
      | some c' => c'
      | none => c.setPair b .ended
    | some r =>
      if c.portDamage k id a h r then (c.setPair b (.damaged id)).damage k id a
      else c.setPair b (.loaded id h r.image r.highest)
  match c.port.act with
  | .scanNextWait => c.settleNext k
  | _ => c

/-- A read into an ABANDONED buffer has completed (R166): the buffer is EMPTY, damage is reported, and what waited for a
buffer goes on. -/
def Ctl.abandonedEnd (c : Ctl) (k : Env) (b : Fin 2) (id : PageId) (a : PageAddr) (r : Option PageRead) : Ctl :=
  let c := c.setPair b .empty
  let c := if r.any (fun r => c.foundDamage k id a r) then c.damage k id a else c
  match c.port.act with
  | .resetWait => c.setAct .idle
  | .readBufWait id slot => c.startRead k b id slot
  | .scanBufWait => c.startScan k b
  | .scanNextWait => if c.scan.any (fun s => s.current == b) then c.settleNext k else c
  | .scanWait _ => c
  | _ => c.prefetch k

/-- PORT RESET (R172). -/
def Ctl.portReset (c : Ctl) (k : Env) : Ctl :=
  let c :=
    match c.port.act with
    | .appendData _ _ => c.discardAppend k
    | _ => c
  let c := c.endScan.endCommand .aborted []
  c.onPort (fun p =>
    { p with act := if c.freePair.isNone then .resetWait else .idle, payload := none, overrun := false, latchTurn := false })

/-- A FLUSH command byte (R159, R164). -/
def Ctl.flushByte (c : Ctl) (k : Env) : Ctl := c.commandWrite k (fun c => c.takeCommand.doFlush k)

/-- A SCAN NEXT command byte (R159, R169). -/
def Ctl.scanNextByte (c : Ctl) (k : Env) : Ctl := c.commandWrite k (fun c => c.takeCommand.doScanNext k)

/-- A command that is taken upon its command byte (R159, Table 10-1). -/
def Ctl.takeByte (c : Ctl) (k : Env) : ByteCmd → Ctl
  | .flush => c.flushByte k
  | .scanNext => c.scanNextByte k
  | .status => c.status
  | .portReset => c.portReset k

/-- A write cycle in the command phase by its code (R159): a command that collects arguments begins, one without arguments
is taken at once, a code that is not in Table 10-1 is refused. -/
def Ctl.beginCommand (c : Ctl) (k : Env) (code : Byte) : Ctl :=
  match argCmdOf code with
  | some cmd => c.commandWrite k (fun c => c.setAct (.collecting cmd []))
  | none =>
    match byteCmdOf code with
    | some cmd => c.takeByte k cmd
    | none => c.unknown k code

/-- ALERT MASK (R161, R171). -/
def Ctl.doAlertMask (c : Ctl) (args : List Byte) : Ctl :=
  if c.station = .mounting then c.endCommand .state []
  else { c with alerts := { c.alerts with enabled := argAt args 0 &&& causeBits } }.endCommand .ok []

end Sys2Proof.Machine
end

