-- ==== Sys2Proof/Machine/Reports.lean ====
section
/-!
DEFINITION. The result blocks of REPORT (R170, Table 11-13). A byte of a field that is absent, so that the manual states
no value, is a free value (log 31): `Config.unstatedByte`.
-/

namespace Sys2Proof.Machine

/-- `n` bytes of an absent field, numbered from `i` within the block. -/
def absentBytes (k : Env) (i n : Nat) : List Byte := (List.range n).map (fun j => Config.unstatedByte k.fresh (i + j))

/-- A seq, 0 for none. -/
def seqOrZero (s : Option Word) : List Byte := bytes32 (s.getD 0)

/-- The confirmed frontier's page seq and extent (Table 11-13). -/
def Frontier.bytes (f : Frontier) (k : Env) : List Byte :=
  match f with
  | .none => bytes32 0 ++ absentBytes k 28 1
  | .extent s e => bytes32 s ++ [byteOf e]
  | .closing s => bytes32 s ++ [0xFF#8]

/-- The open own page's seq and used slots (Table 11-13). -/
def Ctl.openBytes (c : Ctl) (k : Env) : List Byte :=
  match c.openPage k with
  | some (_, p) => bytes32 p.seq ++ [byteOf p.used]
  | none => bytes32 0 ++ absentBytes k 33 1

/-- REPORT 0: the station summary (R170). -/
def Ctl.summary (c : Ctl) (k : Env) : List Byte :=
  [byteOf k.me.val, byteOf k.copies, c.station.code] ++ bytes16 c.gen ++ bytes16 c.mark.recorded.gen ++ bytes32 c.ownMark
    ++ bytes32 c.mark.wanted.release ++ bytes32 c.mark.recorded.ceiling ++ seqOrZero c.nextSeq ++ c.frontier.bytes k
    ++ c.openBytes k ++ bytes32 (wordOf c.dir.length) ++ bytes32 (wordOf (underCount c.dir))
    ++ bytes16 (halfOf c.pool.length) ++ [byteOf c.tx.faults, bitOf c.mark.frozenOwed 0]

/-- The code of a peer state (Table 11-13). -/
def PeerState.code : PeerState → Byte
  | .absent => 0
  | .present => 1
  | .silent => 2
  | .departed => 3
  | .incompatible => 4

/-- The report-received fields of a peer record (Table 11-13); `i` numbers the record's first byte. -/
def seriesBytes (k : Env) (i : Nat) : Option SeriesState → List Byte
  | none => absentBytes k (i + 12) 4 ++ [0]
  | some s => [s.series, byteOf s.group] ++ bytes16 (halfOf s.index) ++ [bitOf true 0 ||| bitOf s.intact 1]

/-- The state code heard (Table 11-13). -/
def codeHeard : Option StateCode → Byte
  | none => 0xFF#8
  | some x => x.byte

/-- The generation heard. -/
def genHeard (k : Env) (i : Nat) : Option Half → List Byte
  | none => absentBytes k (i + 1) 2
  | some g => bytes16 g

/-- The record of a peer (Table 11-13). -/
def Peer.bytes (p : Peer) (k : Env) (i : Nat) : List Byte :=
  [p.state.code] ++ genHeard k i p.gen ++ [byteOf p.missed, codeHeard p.code] ++ bytes16 p.pool
    ++ [bitOf p.full 0 ||| bitOf p.reportReq 1 ||| bitOf p.gen.isSome 2] ++ bytes32 p.mark ++ seriesBytes k i p.received

/-- The record of the station itself: its state, generation, FULL flag, mark and pool length as they are (R92). -/
def Ctl.ownRecord (c : Ctl) (k : Env) (p : Peer) (i : Nat) : List Byte :=
  [c.station.code] ++ bytes16 c.gen ++ [byteOf p.missed, codeHeard p.code] ++ bytes16 (halfOf c.pool.length)
    ++ [bitOf (!c.replicaRoom) 0 ||| bitOf p.reportReq 1 ||| bitOf true 2] ++ bytes32 c.ownMark ++ seriesBytes k i p.received

/-- REPORT 1: the peer table (R92, R170). -/
def Ctl.peerTable (c : Ctl) (k : Env) : List Byte :=
  allStations.flatMap (fun s =>
    let i := 1 + 17 * s.val
    if s = k.me then c.ownRecord k (c.peers.get s) i else (c.peers.get s).bytes k i)

/-- REPORT 2: pending and enabled causes (R170). -/
def Ctl.alertCauses (c : Ctl) : List Byte := [c.alerts.pending, c.alerts.enabled]

/-- The code of a local program (Table 11-13). -/
def LocalProg.code : LocalProg → Byte
  | .pending => 0
  | .programmed => 1
  | .failed => 2

/-- The code of a settled mark (Table 11-13). -/
def Settled.code : Settled → Byte
  | .none => 0
  | .durable => 1
  | .released => 2

/-- The code of a record state (Table 11-13). -/
def RecState.code : RecState → Byte
  | .awaiting => 0
  | .awaitingCopy => 1
  | .done => 2
  | .dropped => 3
  | .sourceless => 4

/-- One of the three places of an entry's record (Table 11-13). -/
def placeBytes (k : Env) (i : Nat) (p : Option Place) : List Byte :=
  match p.bind (·.target) with
  | some r => [byteOf r.station.val, r.state.code, byteOf r.attempts]
  | none => 0xFF#8 :: absentBytes k (i + 1) 2

/-- The record of an Extent Table entry (Table 11-13). -/
def Ctl.entryBytes (c : Ctl) (k : Env) (x : ETEntry) (i : Nat) : List Byte :=
  bytes32 x.seq ++ [byteOf x.ext, x.prog.code, byteOf (c.sendState x), x.settled.code, byteOf x.places.length]
    ++ placeBytes k (i + 9) x.places[0]? ++ placeBytes k (i + 12) x.places[1]? ++ placeBytes k (i + 15) x.places[2]?

/-- The records of the Extent Table from the head, the first numbered from byte `i`. -/
def Ctl.entriesBytes (c : Ctl) (k : Env) : List ETEntry → Nat → List Byte
  | [], _ => []
  | x :: rest, i => c.entryBytes k x i ++ c.entriesBytes k rest (i + 18)

/-- REPORT 3: the Extent Table (R170). -/
def Ctl.extentReport (c : Ctl) (k : Env) : List Byte := byteOf c.et.length :: c.entriesBytes k c.et 2

/-- A REPORT with a selector is taken (R170); a selector above 3 is refused. -/
def Ctl.doReport (c : Ctl) (k : Env) (sel : Byte) : Ctl :=
  match sel.toNat with
  | 0 => c.endCommand .ok (c.summary k)
  | 1 => c.endCommand .ok (c.peerTable k)
  | 2 => { c with alerts := { c.alerts with pending := 0 } }.endCommand .ok c.alertCauses
  | 3 => c.endCommand .ok (c.extentReport k)
  | _ => c.endCommand .badArg []

/-- A command whose arguments are complete is taken (R159, Table 10-1). -/
def Ctl.take (c : Ctl) (k : Env) (cmd : ArgCmd) (args : List Byte) : Ctl :=
  let c := c.takeCommand
  match cmd with
  | .append => c.doAppend k args
  | .read => c.doRead k args
  | .scan => c.doScan k args
  | .release => c.doRelease k args
  | .report => c.doReport k (argAt args 0)
  | .alertMask => c.doAlertMask args

/-- A write cycle in the argument phase (R159, R160). -/
def Ctl.argumentWrite (c : Ctl) (k : Env) (d : Byte) : Ctl :=
  match c.port.act with
  | .collecting cmd args =>
    let args := args ++ [d]
    if args.length < cmd.bytes then c.setAct (.collecting cmd args) else c.take k cmd args
  | _ => c.setOverrun

/-- The port collects a command and awaits its last argument byte: the bytes it has. -/
def Ctl.lastArgument (c : Ctl) (cmd : ArgCmd) : Option (List Byte) :=
  match c.port.act with
  | .collecting x args => if x = cmd && decide (args.length + 1 = cmd.bytes) then some args else none
  | _ => none

/-- The last argument byte of a command of a kind is written (R159); nothing where the port does not await it. -/
def Ctl.takeLast (c : Ctl) (cmd : ArgCmd) (d : Byte) (f : Ctl → List Byte → Ctl) : Ctl :=
  match c.lastArgument cmd with
  | some args => f c.takeCommand (args ++ [d])
  | none => c

end Sys2Proof.Machine
end

