-- ==== Sys2Proof/Machine/Bus.lean ====
section
/-!
DEFINITION. The record bus (Section 5): the transmitter's attempts and their ends, the receiver's claim of a buffer, and
the dispatch of arriving frames.
-/

namespace Sys2Proof.Machine

/-! ## The transmitter (R76, R77, R85, R89) -/

/-- A buffer is being written as a frame arrives. -/
def Ctl.receiving (c : Ctl) : Bool := (c.rxFind RxBuf.isClaimed).isSome

/-- The station begins a frame at an idle bus with the first sendable WAITING entry (R76, R84, R85). -/
def Ctl.startFrame (c : Ctl) (k : Env) : Ctl :=
  if c.tx.onAir.isSome || c.receiving then c
  else
    match c.tx.chosen c.station with
    | none => c
    | some e =>
      match c.frameOf k e.body with
      | none => c
      | some f =>
        c.onTx (fun t =>
          { t with onAir := some { num := e.num, frame := f.send k.me },
                   entries := t.entries.map (fun x =>
                     if x.num = e.num then { x with sending := true, renewed := false } else x) })

/-- The station has lost arbitration (R77, R85). -/
def Ctl.loseArbitration (c : Ctl) (k : Env) : Ctl := if c.tx.onAir.isSome then c.endAttempt.sweep k else c

/-- A transmit fault (R85, R89): the attempt ends, and the consecutive fault count rises, to at most 16. -/
def Ctl.transmitFault (c : Ctl) (k : Env) : Ctl :=
  if c.tx.onAir.isSome then (c.endAttempt.onTx (fun t => { t with faults := min (t.faults + 1) 16 })).sweep k else c

/-- The consecutive fault count has reached 16 (R74, R89). -/
def Ctl.faultLimit (c : Ctl) (k : Env) : Ctl :=
  if 16 ≤ c.tx.faults ∧ c.station ≠ .isolated ∧ c.station ≠ .mounting then c.isolate.sweep k else c

/-- END OF TRANSMISSION of a frame is told to its owner (R85). -/
def Ctl.tellSent (c : Ctl) (k : Env) (b : TxBody) : Ctl :=
  match b with
  | .presence _ => c
  | .answer _ => c
  | .holdings _ => c.holdingsSent k
  | .extent seq i _ _ => c.extentSent seq i.number
  | .copy _ _ slot => c.copySent slot

/-- The entry leaves the queue when its frame has been sent whole; a renewed PRESENCE becomes WAITING again (R85). -/
def Tx.sent (t : Tx) (e : TxEntry) : Tx :=
  { t with onAir := none, faults := 0,
           entries := if e.renewed then t.entries.map (fun x =>
                        if x.num = e.num then { x with sending := false, renewed := false } else x)
                      else t.entries.filter (fun x => x.num != e.num) }

/-- The station's frame has been sent whole (R85, R87, R89). -/
def Ctl.sentWhole (c : Ctl) (k : Env) : Ctl :=
  if c.tx.onAir.isNone then c
  else
    match c.tx.sendingEntry with
    | none => c.onTx (fun t => { t with onAir := none, faults := 0 })
    | some e =>
      let c := c.onTx (fun t => t.sent e)
      (if e.withdrawn then c.freeCancelled e.body else c.tellSent k e.body).sweep k

/-- A freed queue entry goes to a held request, and its owner is told (R86, R118, R146). -/
def Ctl.meetHeld (c : Ctl) (k : Env) : Ctl :=
  match c.tx.meetHeld with
  | none => c
  | some (b, t) =>
    let c := { c with tx := t }
    match b with
    | .extent _ _ _ _ => c.requestOwed k
    | .copy _ _ _ => c.requestOwedCopies
    | .presence _ => c
    | .answer _ => c
    | .holdings _ => c

/-! ## The receiver (R79 to R82) -/

/-- The station state takes PRESENCE frames (Table 5-2). -/
def StationState.takesPresence : StationState → Bool
  | .listening => true
  | .active => true
  | .frozen => true
  | .leaving => true
  | .mounting => false
  | .isolated => false

/-- The station state takes ANSWER frames (Table 5-2). -/
def StationState.takesAnswer : StationState → Bool
  | .active => true
  | .frozen => true
  | .leaving => true
  | .listening => false
  | .mounting => false
  | .isolated => false

/-- The station state takes data frames (Table 5-2). -/
def StationState.takesData : StationState → Bool
  | .active => true
  | .frozen => true
  | .listening => false
  | .leaving => false
  | .mounting => false
  | .isolated => false

/-- The addressing field names this station (R80). -/
def Addressing.names (a : Addressing) (me : Station) : Bool :=
  match a with
  | .extentMask m => has m me
  | .copyTarget t => t == byteOf me.val

/-- The addressing field of a data frame has been received (R80). -/
def Ctl.claim (c : Ctl) (k : Env) (a : Addressing) : Ctl :=
  if c.station.takesData && Addressing.names a k.me && !c.receiving then
    match c.rxFind RxBuf.isFree with
    | some b => c.setRx b .claimed
    | none => c
  else c

/-- A frame that has passed the receiver's checks: a number clash isolates the station (R82), a frame the state takes is
handed on, any other is discarded (R81). -/
def Ctl.dispatch (c : Ctl) (k : Env) (src : Station) (takes : StationState → Bool) (f : Ctl → Ctl) : Ctl :=
  if !c.station.takesPresence then c
  else if src = k.me then c.freeClaimed.isolate.sweep k
  else if takes c.station then f c
  else c.freeClaimed

/-- A kept data frame goes to the intake; one not kept is dropped (R80, R81). -/
def Ctl.keepData (c : Ctl) (k : Env) (src : Station) (addressed : Bool) (f : DataFrame) : Ctl :=
  match c.rxFind RxBuf.isClaimed with
  | none => c
  | some b => if addressed then c.arriveData k b src f else c.setRx b .free

/-- A PRESENCE frame arrives (R81, R82, R93). -/
def Ctl.hearPresence (c : Ctl) (k : Env) (f : Heard) : Ctl :=
  match Heard.receive f with
  | some (src, .presence b) => c.dispatch k src StationState.takesPresence (fun c => c.takePresence k src b)
  | _ => c

/-- An ANSWER frame arrives (R81, R82). -/
def Ctl.hearAnswer (c : Ctl) (k : Env) (f : Heard) : Ctl :=
  match Heard.receive f with
  | some (src, .answer b) => c.dispatch k src StationState.takesAnswer (fun c => c.takeAnswer k src b)
  | _ => c

/-- A HOLDINGS frame arrives (R81, R82, R156). -/
def Ctl.hearHoldings (c : Ctl) (k : Env) (f : Heard) : Ctl :=
  match Heard.receive f with
  | some (src, .holdings b) => c.dispatch k src StationState.takesPresence (fun c => c.takeHoldings k src b)
  | _ => c

/-- An EXTENT frame arrives (R81, R82, R128). -/
def Ctl.hearExtent (c : Ctl) (k : Env) (f : Heard) : Ctl :=
  match Heard.receive f with
  | some (src, .extent b) =>
    c.dispatch k src StationState.takesData (fun c => c.keepData k src (has b.mask k.me) (.extent b))
  | _ => c

/-- A COPY frame arrives (R81, R82, R128). -/
def Ctl.hearCopy (c : Ctl) (k : Env) (f : Heard) : Ctl :=
  match Heard.receive f with
  | some (src, .copy b) =>
    c.dispatch k src StationState.takesData (fun c => c.keepData k src (decide (b.target = byteOf k.me.val)) (.copy b))
  | _ => c

/-- A complete frame fails the receiver's checks (R79). -/
def Ctl.hearBad (c : Ctl) (f : Heard) : Ctl := if (Heard.receive f).isNone then c.freeClaimed else c

end Sys2Proof.Machine
end

