-- ==== Sys2Proof/Machine/Power.lean ====
section
/-!
DEFINITION. Hard reset and its release (R56, R57), the power-fail warning with its emergency flush (R71), the rejoin
(R73): what they do, and their commands.
-/

namespace Sys2Proof.Machine

/-! ## What the pins do -/

/-- A hard reset (R32, R56, Table 4-1): operations in progress are cut short, everything volatile takes its reset value;
the flash array and the level of PFW# stay. -/
def State.hardReset (s : State) : State :=
  { s with env := { s.env with rstLow := true, clock := 0, fresh := s.env.fresh + 2 },
           flash := (s.flash.cutShort (s.ctl.units.get 0).busy s.env.fresh).cutShort (s.ctl.units.get 1).busy
             (s.env.fresh + 1),
           ctl := Ctl.reset }

/-- COPIES by the level of CPY (R56). -/
def copiesOf (cpyHigh : Bool) : Nat := if cpyHigh then 3 else 2

/-- The release of the hard reset (R56, R57): the straps are sampled, the clock starts, the mount scan begins. -/
def State.releaseReset (s : State) (stn : Station) (cpyHigh : Bool) : State :=
  if s.env.rstLow then
    { s with env := { s.env with rstLow := false, me := stn, copies := copiesOf cpyHigh, clock := 0 },
             ctl := Ctl.reset.beginMount }
  else s

/-- A port command in progress at the fall of PFW# (R71, R165): an APPEND in its data phase or waiting to open, and a
waiting RELEASE, end STATE. -/
def Ctl.endPortForPower (c : Ctl) (k : Env) : Ctl :=
  match c.port.act with
  | .appendData _ _ => (c.discardAppend k).endCommand .state []
  | .appendOpening _ => c.endCommand .state []
  | .releaseWait _ => c.endCommand .state []
  | .idle => c
  | .collecting _ _ => c
  | .flushWait _ _ => c
  | .readBufWait _ _ => c
  | .readWait _ _ => c
  | .scanBufWait => c
  | .scanWait _ => c
  | .scanNextWait => c
  | .resetWait => c

/-- The request is the program of an own page. -/
def Requester.isOwn : Requester → Bool
  | .own _ _ _ => true
  | .mountMark => false
  | .mountHeader => false
  | .mountPage => false
  | .port _ _ => false
  | .mark => false
  | .replica _ => false
  | .replicaReadBack _ => false
  | .replicaReloc _ => false
  | .copyJob _ => false
  | .ownReadBack _ => false
  | .recordErase => false
  | .markErase => false

/-- The own programs waiting in the queues become programs of the emergency flush (R71). -/
def Ctl.markEmergency (c : Ctl) : Ctl :=
  c.onQueues (fun r => if r.who.isOwn then { r with emergency := true } else r)

/-- The DEFERRED receive buffers are freed (R140). -/
def Ctl.freeDeferred (c : Ctl) : Ctl := (c.deferredBufs (fun _ => true)).foldl (fun c b => c.setRx b .free) c

/-- Unflushed slots of the open own page are formed into an extent (R71). -/
def Ctl.emergencyFlush (c : Ctl) (k : Env) : Ctl :=
  match c.openPage k with
  | some (b, p) => if p.unflushed then c.formEmergency k b p else c
  | none => c

/-- The station enters LEAVING (R71, R91, R140). -/
def Ctl.enterLeaving (c : Ctl) (k : Env) : Ctl :=
  let c := { c.endPortForPower k with window := none }.enterState .leaving
  (((c.markEmergency.emergencyFlush k).freeDeferred).requestPresence k).sweep k

/-- The states that a fall of PFW# takes to LEAVING (R71). -/
def StationState.warned : StationState → Bool
  | .listening => true
  | .active => true
  | .frozen => true
  | .mounting => false
  | .leaving => false
  | .isolated => false

/-- PFW# falls (R71). -/
def State.powerFail (s : State) : State :=
  let k := { s.env with pfwLow := true }
  if !s.env.rstLow && s.ctl.station.warned then { s with env := k, ctl := s.ctl.enterLeaving k }
  else { s with env := k }

/-- A mark write not yet granted that carries a generation not yet recorded carries the one in use instead, so that only
the newest is recorded (R73; log 43). -/
def Ctl.renewGeneration (c : Ctl) : Ctl :=
  if c.markGranted then c
  else c.onMark (fun m => { m with write := m.write.map (fun w =>
    if w.vals.gen = m.recorded.gen then w else { w with vals := { w.vals with gen := c.gen } }) })

/-- The station rejoins (R73, R91). -/
def Ctl.rejoin (c : Ctl) (k : Env) : Ctl :=
  let c := { c with gen := c.gen + 1 }.enterListening
  let c := if c.mark.frozenOwed then c else c.renewGeneration.want (fun v => { v with gen := c.gen })
  c.requestPresence k

/-- PFW# returns high (R73). -/
def State.powerGood (s : State) : State :=
  let k := { s.env with pfwLow := false }
  if !s.env.rstLow && decide (s.ctl.station = .leaving) then { s with env := k, ctl := s.ctl.rejoin k }
  else { s with env := k }

/-! ## The commands -/

/-- HARD_RESET (R56). -/
def execHardReset (s : State) : Host.Outcome State Fault Refusal := .next s.hardReset

/-- HARD_RESET_RELEASE (R56, R57). -/
def execHardResetRelease (stn : Station) (cpyHigh : Bool) (s : State) : Host.Outcome State Fault Refusal :=
  .next (s.releaseReset stn cpyHigh)

/-- POWER_FAIL_WARNING (R71). -/
def execPowerFailWarning (s : State) : Host.Outcome State Fault Refusal := .next s.powerFail

/-- REJOIN (R73). -/
def execRejoin (s : State) : Host.Outcome State Fault Refusal := .next s.powerGood

end Sys2Proof.Machine
end

