-- ==== Sys2Proof/Machine/ArrayCmds.lean ====
section
/-!
DEFINITION. The commands of the flash array (Sections 2 to 4): the arbiters' grants, the ends of reads, programs and
erases for each requester, and the mount's resolution.
-/

namespace Sys2Proof.Machine

/-! ## Which requester a command is for -/

/-- The requester is the mount's read of a mark page. -/
def Requester.isMountMark (w : Requester) : Bool := decide (w = .mountMark)

/-- The requester is the mount's page read of a record page. -/
def Requester.isMountPage (w : Requester) : Bool := decide (w = .mountPage)

/-- The requester is the mark log's program. -/
def Requester.isMark (w : Requester) : Bool := decide (w = .mark)

/-- The requester is an erase of a mark block. -/
def Requester.isMarkErase (w : Requester) : Bool := decide (w = .markErase)

/-- The requester is an erase of a record block. -/
def Requester.isRecordErase (w : Requester) : Bool := decide (w = .recordErase)

/-- The own page of a read-back. -/
def Requester.readBackSeq : Requester → Option Word
  | .ownReadBack seq => some seq
  | _ => none

/-- The receive buffer of a replica program. -/
def Requester.replicaBuf : Requester → Option (Fin 4)
  | .replica b => some b
  | _ => none

/-- The receive buffer of a relocation read-back. -/
def Requester.readBackBuf : Requester → Option (Fin 4)
  | .replicaReadBack b => some b
  | _ => none

/-- The receive buffer of a replica relocation program. -/
def Requester.relocBuf : Requester → Option (Fin 4)
  | .replicaReloc b => some b
  | _ => none

/-- The slot of a copy job's read. -/
def Requester.jobSlot : Requester → Option (Fin 2)
  | .copyJob s => some s
  | _ => none

/-- The read pair buffer and page of a read for the port. -/
def Requester.portBuf : Requester → Option (Fin 2 × PageId)
  | .port b id => some (b, id)
  | _ => none

/-- What a read for the port serves, by the buffer it loads and what the port waits for (R166 to R169). -/
inductive PortRole where
  | read (slot : Nat) | scan | prefetch | abandoned | none
  deriving DecidableEq, Repr

/-- The role of a read into a read pair buffer. -/
def Ctl.portRole (c : Ctl) (b : Fin 2) : PortRole :=
  match c.pair.get b with
  | .abandoned _ _ => .abandoned
  | .loading _ _ =>
    match c.port.act with
    | .readWait b' slot => if b' = b then .read slot else .prefetch
    | .scanWait b' => if b' = b then .scan else .prefetch
    | _ => .prefetch
  | .empty => .none
  | .loaded _ _ _ _ => .none
  | .damaged _ => .none
  | .ended => .none

/-- The held count of a buffer whose read is outstanding (R166). -/
def Ctl.pairHeld (c : Ctl) (b : Fin 2) : Nat :=
  match c.pair.get b with
  | .loading _ h => h
  | .abandoned _ h => h
  | .empty => 0
  | .loaded _ h _ _ => h
  | .damaged _ => 0
  | .ended => 0

/-- The requester is a port read whose role satisfies a test. -/
def Ctl.isPortRead (c : Ctl) (p : PortRole → Bool) (w : Requester) : Bool :=
  match w.portBuf with
  | some (b, _) => p (c.portRole b)
  | none => false

/-- The role of a READ. -/
def PortRole.isRead : PortRole → Bool
  | .read _ => true
  | .scan => false
  | .prefetch => false
  | .abandoned => false
  | .none => false

/-- The end of a port read: what its role asks for. -/
def Ctl.portEnd (c : Ctl) (k : Env) (w : Requester) (a : PageAddr) (r : Option PageRead) : Ctl :=
  match w.portBuf with
  | none => c
  | some (b, id) =>
    let h := c.pairHeld b
    match c.portRole b with
    | .read slot => c.portReadEnd k b id h slot a r
    | .scan => c.scanReadEnd k b id h a r
    | .prefetch => c.prefetchEnd k b id h a r
    | .abandoned => c.abandonedEnd k b id a r
    | .none => c

/-- The end of an own program, with the judging again of frames DEFERRED behind it (R114, R115, R129). -/
def Ctl.ownEnd (c : Ctl) (k : Env) (w : Requester) (p : ProgramReq) (out : ProgramOut) : Ctl :=
  match w with
  | .own seq moved n => ((c.ownProgramEnd k seq moved n p out).rejudge k (ownId k seq)).sweepAll k
  | _ => c

/-! ## The commands -/

/-- ARBITER_GRANT (R27 to R30). -/
def execArbiterGrant (u : UnitNo) (s : State) : Host.Outcome State Fault Refusal :=
  .next (s.onCtl (fun c _ => c.arbitrate u))

/-- MARK_LOG_READ_DONE (R58, R59). -/
def execMarkLogReadDone (u : UnitNo) (r : ReadReport) (s : State) : Host.Outcome State Fault Refusal :=
  .next (s.pageReadDone u Requester.isMountMark r (fun c _ _ a x =>
    match x with
    | some x => c.markRead a x
    | none => c))

/-- MOUNT_HEADER_READ_DONE (R60). -/
def execMountHeaderReadDone (u : UnitNo) (r : ReadReport) (s : State) : Host.Outcome State Fault Refusal :=
  .next (s.headerReadDone u r (fun c h => c.headerRead u h))

/-- MOUNT_PAGE_READ_DONE (R61). -/
def execMountPageReadDone (u : UnitNo) (r : ReadReport) (s : State) : Host.Outcome State Fault Refusal :=
  .next (s.pageReadDone u Requester.isMountPage r (fun c k _ a x =>
    match x with
    | some x => c.pageFound k u a x
    | none => c))

/-- MOUNT_RESOLVE (R62 to R64). -/
def execMountResolve (s : State) : Host.Outcome State Fault Refusal := .next (s.onCtl (fun c k => c.mountResolve k))

/-- MARK_PROGRAM_DONE (R66). -/
def execMarkProgramDone (u : UnitNo) (r : ProgramReport) (s : State) : Host.Outcome State Fault Refusal :=
  .next (s.programDone u Requester.isMark r (fun c k _ _ out => c.markProgramEnd k out))

/-- MARK_ERASE_DONE (R67). -/
def execMarkEraseDone (u : UnitNo) (r : EraseReport) (s : State) : Host.Outcome State Fault Refusal :=
  .next (s.eraseDone u Requester.isMarkErase r (fun c _ pass => c.markEraseEnd pass))

/-- RECORD_ERASE_DONE (R50, R60). -/
def execRecordEraseDone (u : UnitNo) (r : EraseReport) (s : State) : Host.Outcome State Fault Refusal :=
  .next (s.eraseDone u Requester.isRecordErase r (fun c block pass => c.recordEraseEnd block pass))

/-- OWN_PROGRAM_DONE (R114 to R117). -/
def execOwnProgramDone (u : UnitNo) (r : ProgramReport) (s : State) : Host.Outcome State Fault Refusal :=
  .next (s.programDone u Requester.isOwn r (fun c k w p out => c.ownEnd k w p out))

/-- OWN_READ_BACK_DONE (R118). -/
def execOwnReadBackDone (u : UnitNo) (r : ReadReport) (s : State) : Host.Outcome State Fault Refusal :=
  .next (s.pageReadDone u (fun w => w.readBackSeq.isSome) r (fun c k w a x =>
    match w.readBackSeq with
    | some seq => c.ownReadBackEnd k seq a x
    | none => c))

/-- REPLICA_PROGRAM_DONE (R135, R137). -/
def execReplicaProgramDone (u : UnitNo) (r : ProgramReport) (s : State) : Host.Outcome State Fault Refusal :=
  .next (s.programDone u (fun w => w.replicaBuf.isSome) r (fun c k w p out =>
    match w.replicaBuf with
    | some b => c.frameProgramEnd k b false p out
    | none => c))

/-- RELOCATION_READ_BACK_DONE (R136, R137). -/
def execRelocationReadBackDone (u : UnitNo) (r : ReadReport) (s : State) : Host.Outcome State Fault Refusal :=
  .next (s.pageReadDone u (fun w => w.readBackBuf.isSome) r (fun c k w a x =>
    match w.readBackBuf with
    | some b => c.frameReadBackEnd k b a x
    | none => c))

/-- REPLICA_RELOCATION_DONE (R136, R137). -/
def execReplicaRelocationDone (u : UnitNo) (r : ProgramReport) (s : State) : Host.Outcome State Fault Refusal :=
  .next (s.programDone u (fun w => w.relocBuf.isSome) r (fun c k w p out =>
    match w.relocBuf with
    | some b => c.frameProgramEnd k b true p out
    | none => c))

/-- COPY_READ_DONE (R145, R149). -/
def execCopyReadDone (u : UnitNo) (r : ReadReport) (s : State) : Host.Outcome State Fault Refusal :=
  .next (s.pageReadDone u (fun w => w.jobSlot.isSome) r (fun c k w a x =>
    match w.jobSlot with
    | some slot => c.jobReadEnd k slot a x
    | none => c))

/-- PORT_READ_DONE (R167). -/
def execPortReadDone (u : UnitNo) (r : ReadReport) (s : State) : Host.Outcome State Fault Refusal :=
  .next (s.pageReadDone u (s.ctl.isPortRead PortRole.isRead) r (fun c k w a x => c.portEnd k w a x))

/-- SCAN_READ_DONE (R168). -/
def execScanReadDone (u : UnitNo) (r : ReadReport) (s : State) : Host.Outcome State Fault Refusal :=
  .next (s.pageReadDone u (s.ctl.isPortRead (fun x => decide (x = .scan))) r (fun c k w a x => c.portEnd k w a x))

/-- PREFETCH_READ_DONE (R169). -/
def execPrefetchReadDone (u : UnitNo) (r : ReadReport) (s : State) : Host.Outcome State Fault Refusal :=
  .next (s.pageReadDone u (s.ctl.isPortRead (fun x => decide (x = .prefetch))) r (fun c k w a x => c.portEnd k w a x))

/-- ABANDONED_READ_DONE (R166). -/
def execAbandonedReadDone (u : UnitNo) (r : ReadReport) (s : State) : Host.Outcome State Fault Refusal :=
  .next (s.pageReadDone u (s.ctl.isPortRead (fun x => decide (x = .abandoned))) r (fun c k w a x => c.portEnd k w a x))

end Sys2Proof.Machine
end

