-- ==== Sys2Proof/Machine/EngineCmds.lean ====
section
/-!
DEFINITION. The timer events, the record bus events and the steps of the station's engines (Sections 5 to 9).
-/

namespace Sys2Proof.Machine

/-- The answer timer of an Extent Table entry has run out (R119). -/
def Ctl.answerExpired (c : Ctl) (k : Env) (seq : Word) (ext : Nat) : Ctl :=
  match c.etEntry seq ext with
  | none => c
  | some x =>
    if x.timer = some 0 && c.station.timersRun then
      let c := c.onPageEntries seq (fun x => if x.ext = ext then { x with timer := none } else x)
      let again := (x.places.filterMap (·.target)).filter (fun r => decide (r.state = .awaiting) && decide (r.attempts < 4))
      let lost := (x.places.filterMap (·.target)).filter (fun r => decide (r.state = .awaiting) && decide (4 ≤ r.attempts))
      let c := c.transmit k seq ext (maskOf (again.map (·.station)))
      (lost.foldl (fun (c : Ctl) r => c.loseTarget k seq r.station) c).sweepAll k
    else c

/-! ## Timer events -/

/-- PRESENCE_TICK (R91, R94). -/
def execPresenceTick (s : State) : Host.Outcome State Fault Refusal := .next (s.onCtl (fun c k => c.presenceTick k))

/-- MISSED_COUNT_THRESHOLD (R94, R96). -/
def execMissedCountThreshold (p : Station) (s : State) : Host.Outcome State Fault Refusal :=
  .next (s.onCtl (fun c k => c.missedThreshold k p))

/-- LISTENING_WINDOW_END (R69, R70, R100). -/
def execListeningWindowEnd (s : State) : Host.Outcome State Fault Refusal := .next (s.onCtl (fun c k => c.windowEnd k))

/-- ANSWER_TIMER_EXPIRY (R119). -/
def execAnswerTimerExpiry (seq : Word) (extent : Fin 3) (s : State) : Host.Outcome State Fault Refusal :=
  .next (s.onCtl (fun c k => c.answerExpired k seq extent.val))

/-- COPY_JOB_TIMER_EXPIRY (R148). -/
def execCopyJobTimerExpiry (slot : Fin 2) (s : State) : Host.Outcome State Fault Refusal :=
  .next (s.onCtl (fun c k => c.jobExpired k slot))

/-- RECHECK_TIMER_EXPIRY (R153). -/
def execRecheckTimerExpiry (s : State) : Host.Outcome State Fault Refusal := .next (s.onCtl (fun c _ => c.recheckExpired))

/-! ## The record bus -/

/-- FRAME_START (R76, R85). -/
def execFrameStart (s : State) : Host.Outcome State Fault Refusal := .next (s.onCtl (fun c k => c.startFrame k))

/-- LOST_ARBITRATION (R77, R85). -/
def execLostArbitration (s : State) : Host.Outcome State Fault Refusal :=
  .next (s.onCtl (fun c k => c.loseArbitration k))

/-- TRANSMIT_FAULT (R85, R89). -/
def execTransmitFault (s : State) : Host.Outcome State Fault Refusal := .next (s.onCtl (fun c k => c.transmitFault k))

/-- FAULT_COUNT_LIMIT (R74, R89). -/
def execFaultCountLimit (s : State) : Host.Outcome State Fault Refusal := .next (s.onCtl (fun c k => c.faultLimit k))

/-- SENT_WHOLE (R85). -/
def execSentWhole (s : State) : Host.Outcome State Fault Refusal := .next (s.onCtl (fun c k => c.sentWhole k))

/-- RECEIVE_BUFFER_CLAIM (R80). -/
def execReceiveBufferClaim (a : Addressing) (s : State) : Host.Outcome State Fault Refusal :=
  .next (s.onCtl (fun c k => c.claim k a))

/-- FRAME_ABANDONED (R79). -/
def execFrameAbandoned (s : State) : Host.Outcome State Fault Refusal := .next (s.onCtl (fun c _ => c.freeClaimed))

/-- PRESENCE_FRAME (R82, R93). -/
def execPresenceFrame (f : Heard) (s : State) : Host.Outcome State Fault Refusal :=
  .next (s.onCtl (fun c k => c.hearPresence k f))

/-- ANSWER_FRAME (R81, R82). -/
def execAnswerFrame (f : Heard) (s : State) : Host.Outcome State Fault Refusal :=
  .next (s.onCtl (fun c k => c.hearAnswer k f))

/-- HOLDINGS_FRAME (R82, R156, R157). -/
def execHoldingsFrame (f : Heard) (s : State) : Host.Outcome State Fault Refusal :=
  .next (s.onCtl (fun c k => c.hearHoldings k f))

/-- EXTENT_FRAME (R82, R128, R130). -/
def execExtentFrame (f : Heard) (s : State) : Host.Outcome State Fault Refusal :=
  .next (s.onCtl (fun c k => c.hearExtent k f))

/-- COPY_FRAME (R82, R128, R132). -/
def execCopyFrame (f : Heard) (s : State) : Host.Outcome State Fault Refusal :=
  .next (s.onCtl (fun c k => c.hearCopy k f))

/-- FRAME_FAILS_CHECKS (R79). -/
def execFrameFailsChecks (f : Heard) (s : State) : Host.Outcome State Fault Refusal :=
  .next (s.onCtl (fun c _ => c.hearBad f))

/-! ## Steps of the engines -/

/-- HELD_REQUEST_MET (R86, R118, R146). -/
def execHeldRequestMet (s : State) : Host.Outcome State Fault Refusal := .next (s.onCtl (fun c k => c.meetHeld k))

/-- COPY_SLOT_GRANT (R144, R152). -/
def execCopySlotGrant (s : State) : Host.Outcome State Fault Refusal := .next (s.onCtl (fun c k => c.grantSlot k))

/-- DEPARTURE_WALK_STEP (R151). -/
def execDepartureWalkStep (s : State) : Host.Outcome State Fault Refusal :=
  .next (s.onCtl (fun c k => if c.walkDue false then c.walkStep k else c))

/-- RECHECK_WALK_STEP (R153). -/
def execRecheckWalkStep (s : State) : Host.Outcome State Fault Refusal :=
  .next (s.onCtl (fun c k => if c.walkDue true then c.walkStep k else c))

end Sys2Proof.Machine
end

