-- ==== Sys2Proof/Machine/PortCmds.lean ====
section
/-!
DEFINITION. The commands of the local port (Section 10).
-/

namespace Sys2Proof.Machine

/-- A port command that reports fields: the free values of absent fields are taken anew each time (log 31). -/
def State.onCtlFresh (s : State) (f : Ctl → Env → Ctl) : State :=
  if s.env.rstLow then s
  else { s with env := { s.env with fresh := s.env.fresh + 1 }, ctl := f s.ctl s.env }

/-- APPEND: its last argument byte (R108, R163). -/
def execAppend (d : Byte) (s : State) : Host.Outcome State Fault Refusal :=
  .next (s.onCtl (fun c k => c.takeLast .append d (fun c args => c.doAppend k args)))

/-- APPEND_PAYLOAD_BYTE (R109, R163). -/
def execAppendPayloadByte (d : Byte) (s : State) : Host.Outcome State Fault Refusal :=
  .next (s.onCtl (fun c k => c.payloadByte k d))

/-- FLUSH (R110, R164). -/
def execFlush (s : State) : Host.Outcome State Fault Refusal :=
  .next (s.onCtl (fun c k => c.flushByte k))

/-- READ: its last argument byte (R167). -/
def execRead (d : Byte) (s : State) : Host.Outcome State Fault Refusal :=
  .next (s.onCtl (fun c k => c.takeLast .read d (fun c args => c.doRead k args)))

/-- SCAN: its last argument byte (R168). -/
def execScan (d : Byte) (s : State) : Host.Outcome State Fault Refusal :=
  .next (s.onCtl (fun c k => c.takeLast .scan d (fun c args => c.doScan k args)))

/-- SCAN NEXT (R169). -/
def execScanNext (s : State) : Host.Outcome State Fault Refusal :=
  .next (s.onCtl (fun c k => c.scanNextByte k))

/-- RELEASE: its last argument byte (R165). -/
def execRelease (d : Byte) (s : State) : Host.Outcome State Fault Refusal :=
  .next (s.onCtl (fun c k => c.takeLast .release d (fun c args => c.doRelease k args)))

/-- REPORT 0 (R170). -/
def execReportStationSummary (s : State) : Host.Outcome State Fault Refusal :=
  .next (s.onCtlFresh (fun c k => c.takeLast .report 0 (fun c _ => c.doReport k 0)))

/-- REPORT 1 (R170). -/
def execReportPeerTable (s : State) : Host.Outcome State Fault Refusal :=
  .next (s.onCtlFresh (fun c k => c.takeLast .report 1 (fun c _ => c.doReport k 1)))

/-- REPORT 2 (R170, R171). -/
def execReportAlertCauses (s : State) : Host.Outcome State Fault Refusal :=
  .next (s.onCtl (fun c k => c.takeLast .report 2 (fun c _ => c.doReport k 2)))

/-- REPORT 3 (R170). -/
def execReportExtentTable (s : State) : Host.Outcome State Fault Refusal :=
  .next (s.onCtlFresh (fun c k => c.takeLast .report 3 (fun c _ => c.doReport k 3)))

/-- ALERT MASK: its mask byte (R171). -/
def execAlertMask (d : Byte) (s : State) : Host.Outcome State Fault Refusal :=
  .next (s.onCtl (fun c _ => c.takeLast .alertMask d (fun c args => c.doAlertMask args)))

/-- STATUS (R162). -/
def execStatus (s : State) : Host.Outcome State Fault Refusal := .next (s.onCtl (fun c _ => c.status))

/-- PORT RESET (R172). -/
def execPortReset (s : State) : Host.Outcome State Fault Refusal := .next (s.onCtl (fun c k => c.portReset k))

/-- UNKNOWN_COMMAND (R159). -/
def execUnknownCommand (code : Byte) (s : State) : Host.Outcome State Fault Refusal :=
  .next (s.onCtl (fun c k => c.unknown k code))

/-- ARGUMENT_BYTE (R159, R160). -/
def execArgumentByte (d : Byte) (s : State) : Host.Outcome State Fault Refusal :=
  .next (s.onCtlFresh (fun c k => c.argumentWrite k d))

/-- STATUS_LATCH_READ (R162, R175). -/
def execStatusLatchRead (s : State) : Host.Outcome State Fault Refusal := .next (s.onCtl (fun c _ => c.readLatch))

/-- RESULT_BLOCK_READ (R159). -/
def execResultBlockRead (s : State) : Host.Outcome State Fault Refusal := .next (s.onCtl (fun c _ => c.readResult))

/-- PAYLOAD_READ (R167). -/
def execPayloadRead (s : State) : Host.Outcome State Fault Refusal := .next (s.onCtl (fun c _ => c.readPayload))

/-- COMMAND_BYTE (R159): a write cycle in the command phase, whatever its code. -/
def execCommandByte (code : Byte) (s : State) : Host.Outcome State Fault Refusal :=
  .next (s.onCtl (fun c k => c.beginCommand k code))

/-- OPEN_OWN_PAGE (R107). -/
def execOpenOwnPage (s : State) : Host.Outcome State Fault Refusal := .next (s.onCtl (fun c k => c.openOwnPage k))

end Sys2Proof.Machine
end

