-- ==== Sys2Proof/Machine/Dispatch.lean ====
section
/-!
DEFINITION. The commands by name: one arm per constructor of `Instr`, each one call of its meaning.
-/

namespace Sys2Proof.Machine

def exec (i : Instr) (s : State) : Host.Outcome State Fault Refusal :=
  match i with
  | .hardReset => Sys2Proof.Machine.execHardReset s
  | .hardResetRelease stn cpyHigh => Sys2Proof.Machine.execHardResetRelease stn cpyHigh s
  | .powerFailWarning => Sys2Proof.Machine.execPowerFailWarning s
  | .rejoin => Sys2Proof.Machine.execRejoin s
  | .append d => Sys2Proof.Machine.execAppend d s
  | .appendPayloadByte d => Sys2Proof.Machine.execAppendPayloadByte d s
  | .flush => Sys2Proof.Machine.execFlush s
  | .read d => Sys2Proof.Machine.execRead d s
  | .scan d => Sys2Proof.Machine.execScan d s
  | .scanNext => Sys2Proof.Machine.execScanNext s
  | .release d => Sys2Proof.Machine.execRelease d s
  | .reportStationSummary => Sys2Proof.Machine.execReportStationSummary s
  | .reportPeerTable => Sys2Proof.Machine.execReportPeerTable s
  | .reportAlertCauses => Sys2Proof.Machine.execReportAlertCauses s
  | .reportExtentTable => Sys2Proof.Machine.execReportExtentTable s
  | .alertMask d => Sys2Proof.Machine.execAlertMask d s
  | .status => Sys2Proof.Machine.execStatus s
  | .portReset => Sys2Proof.Machine.execPortReset s
  | .unknownCommand code => Sys2Proof.Machine.execUnknownCommand code s
  | .argumentByte d => Sys2Proof.Machine.execArgumentByte d s
  | .statusLatchRead => Sys2Proof.Machine.execStatusLatchRead s
  | .resultBlockRead => Sys2Proof.Machine.execResultBlockRead s
  | .payloadRead => Sys2Proof.Machine.execPayloadRead s
  | .arbiterGrant u => Sys2Proof.Machine.execArbiterGrant u s
  | .markLogReadDone u r => Sys2Proof.Machine.execMarkLogReadDone u r s
  | .mountHeaderReadDone u r => Sys2Proof.Machine.execMountHeaderReadDone u r s
  | .mountPageReadDone u r => Sys2Proof.Machine.execMountPageReadDone u r s
  | .mountResolve => Sys2Proof.Machine.execMountResolve s
  | .markProgramDone u r => Sys2Proof.Machine.execMarkProgramDone u r s
  | .markEraseDone u r => Sys2Proof.Machine.execMarkEraseDone u r s
  | .recordEraseDone u r => Sys2Proof.Machine.execRecordEraseDone u r s
  | .ownProgramDone u r => Sys2Proof.Machine.execOwnProgramDone u r s
  | .ownReadBackDone u r => Sys2Proof.Machine.execOwnReadBackDone u r s
  | .replicaProgramDone u r => Sys2Proof.Machine.execReplicaProgramDone u r s
  | .relocationReadBackDone u r => Sys2Proof.Machine.execRelocationReadBackDone u r s
  | .replicaRelocationDone u r => Sys2Proof.Machine.execReplicaRelocationDone u r s
  | .copyReadDone u r => Sys2Proof.Machine.execCopyReadDone u r s
  | .portReadDone u r => Sys2Proof.Machine.execPortReadDone u r s
  | .scanReadDone u r => Sys2Proof.Machine.execScanReadDone u r s
  | .prefetchReadDone u r => Sys2Proof.Machine.execPrefetchReadDone u r s
  | .abandonedReadDone u r => Sys2Proof.Machine.execAbandonedReadDone u r s
  | .presenceTick => Sys2Proof.Machine.execPresenceTick s
  | .missedCountThreshold p => Sys2Proof.Machine.execMissedCountThreshold p s
  | .listeningWindowEnd => Sys2Proof.Machine.execListeningWindowEnd s
  | .answerTimerExpiry seq extent => Sys2Proof.Machine.execAnswerTimerExpiry seq extent s
  | .copyJobTimerExpiry slot => Sys2Proof.Machine.execCopyJobTimerExpiry slot s
  | .recheckTimerExpiry => Sys2Proof.Machine.execRecheckTimerExpiry s
  | .frameStart => Sys2Proof.Machine.execFrameStart s
  | .lostArbitration => Sys2Proof.Machine.execLostArbitration s
  | .transmitFault => Sys2Proof.Machine.execTransmitFault s
  | .faultCountLimit => Sys2Proof.Machine.execFaultCountLimit s
  | .sentWhole => Sys2Proof.Machine.execSentWhole s
  | .receiveBufferClaim a => Sys2Proof.Machine.execReceiveBufferClaim a s
  | .frameAbandoned => Sys2Proof.Machine.execFrameAbandoned s
  | .presenceFrame f => Sys2Proof.Machine.execPresenceFrame f s
  | .answerFrame f => Sys2Proof.Machine.execAnswerFrame f s
  | .holdingsFrame f => Sys2Proof.Machine.execHoldingsFrame f s
  | .extentFrame f => Sys2Proof.Machine.execExtentFrame f s
  | .copyFrame f => Sys2Proof.Machine.execCopyFrame f s
  | .heldRequestMet => Sys2Proof.Machine.execHeldRequestMet s
  | .openOwnPage => Sys2Proof.Machine.execOpenOwnPage s
  | .copySlotGrant => Sys2Proof.Machine.execCopySlotGrant s
  | .departureWalkStep => Sys2Proof.Machine.execDepartureWalkStep s
  | .recheckWalkStep => Sys2Proof.Machine.execRecheckWalkStep s
  | .commandByte code => Sys2Proof.Machine.execCommandByte code s
  | .frameFailsChecks f => Sys2Proof.Machine.execFrameFailsChecks f s

end Sys2Proof.Machine
end

