-- ==== Sys2Proof/Safety.lean ====
section
/-!
DEFINITION. What a safe state is: the reasons a step could stop, and the memory and queue bounds that the manual
gives the station.
-/

namespace Sys2Proof.Machine

/-- The answer is a next state: neither a fault nor a refusal. -/
def goesOn (o : Host.Outcome State Fault Refusal) : Prop := ∃ t, o = .next t

/-- The counts of bits found in error are in canonical form: parts rising, each programmed, no count 0. -/
def Flash.wornWf (f : Flash) : Prop :=
  f.worn.Pairwise (fun x y => x.1 < y.1) ∧ ∀ x ∈ f.worn, x.2 ≠ 0 ∧ x.1 ∈ f.parts

/-- The flash array is in canonical form: its cells, the list of its programmed parts, and their counts. -/
def Flash.wf (f : Flash) : Prop :=
  Memory.wf erasedByte f.cells = true ∧ f.parts.Pairwise (· < ·) ∧ f.wornWf

/-- The byte of the array at an address. -/
def Flash.byteAt (f : Flash) (x : Nat) : Byte := Memory.read erasedByte f.cells x

/-- The flash array of the station is in canonical form. -/
def State.flashWf (s : State) : Prop := s.flash.wf

/-! ## What a flash operation may change -/

/-- The addresses of part `k` of a page. -/
def PageAddr.inPart (a : PageAddr) (k x : Nat) : Prop := a.partBase k ≤ x ∧ x < a.partBase k + partLength k

/-- The addresses of a block. -/
def inBlock (b x : Nat) : Prop := b * 128 * pageBytes ≤ x ∧ x < (b + 1) * 128 * pageBytes

/-- The parts that a program names. -/
def ProgramReq.names (p : ProgramReq) (k : Nat) : Prop :=
  (p.first ≤ k ∧ k < p.first + p.count) ∨ (k = identityPart ∧ p.identity.isSome) ∨ ∃ d ∈ p.descs, k = placePart d.1

/-- The bytes that an operation may change: none for a read, the named parts of a program's page, an erase's block. -/
def ArrayOp.touches (o : ArrayOp) (x : Nat) : Prop :=
  match o with
  | .pageRead _ => False
  | .headerRead _ => False
  | .program p => ∃ k, p.names k ∧ p.page.inPart k x
  | .erase b => inBlock b x

/-! ## Bounds -/

/-- The directory stands in key order, each identity once, with at most 65536 entries (R35, R38). -/
def dirOk (d : List Entry) : Prop := d.Pairwise (fun x y => x.id.key < y.id.key) ∧ d.length ≤ 65536

/-- The transmit queue holds at most 11 frames that are not PRESENCE and at most one PRESENCE, no PRESENCE request is
held, and the consecutive fault count is 0 to 16 (R83, R86, R89). -/
def txOk (t : Tx) : Prop :=
  countOf (fun e => !e.body.isPresence) t.entries ≤ 11 ∧ countOf (fun e => e.body.isPresence) t.entries ≤ 1
    ∧ t.faults ≤ 16 ∧ ∀ b ∈ t.held, b.isPresence = false

/-- Only the five causes are ever pending or enabled (R171). -/
def alertsOk (a : AlertSet) : Prop := a.pending &&& ~~~causeBits = 0 ∧ a.enabled &&& ~~~causeBits = 0

/-- The favour counts are 0 to 6 (R28). -/
def unitsOk (u : Vector UnitState 2) : Prop := ∀ i, (u.get i).favour ≤ 6

/-- The repair list keeps at most one RECHECK, and at most one DEPARTURE of each station (R150, R153). -/
def repairOk (l : List Task) : Prop :=
  countOf Task.isRecheck l ≤ 1 ∧ ∀ p, countOf (fun t => t.isDeparture p) l ≤ 1

/-- The bounds that the manual gives the station's tables and counts. -/
def Ctl.Ok (c : Ctl) : Prop := dirOk c.dir ∧ txOk c.tx ∧ alertsOk c.alerts ∧ unitsOk c.units ∧ repairOk c.repair

/-! ## Frames -/

/-- The controller with every field blanked that the bus, flash and repair engines change in the course of their work:
what is left is the station's state, window and presence timer, its generation, release mark and next seq, the mark log,
the mount scan, the completions at the grant, the peer table, the holdings generator, the read pair, the scan and the
enabled causes. -/
def Ctl.still (c : Ctl) : Ctl :=
  { Ctl.reset with
    station := c.station, window := c.window, firstWindow := c.firstWindow, presence := c.presence, gen := c.gen,
    ownMark := c.ownMark, nextSeq := c.nextSeq, mark := c.mark, mount := c.mount, completed := c.completed,
    peers := c.peers, holdings := c.holdings, pair := c.pair, scan := c.scan,
    alerts := { pending := 0, enabled := c.alerts.enabled } }

/-- The port neither waits for a FLUSH nor has an APPEND in its data phase. -/
def Activity.quiet (a : Activity) : Bool :=
  match a with
  | .flushWait _ _ => false
  | .appendData _ _ => false
  | _ => true

/-- The port after a command has been taken and has ended with a result code and fields (R159): no payload is left. -/
def Port.ended (p : Port) (code : ResultCode) (fields : List Byte) : Port :=
  { p with act := .idle, result := code.byte :: fields, resultPos := 0, lastResult := code.byte, payload := none }

/-- The own-extent engine has nothing in hand (R106, R112, R118): the Extent Table and the fill pair are empty, and no
transmission is owed or waits for a read-back. -/
def Ctl.atRest (c : Ctl) : Prop :=
  c.et = [] ∧ (∀ b, c.fill.get b = none) ∧ c.owed = [] ∧ c.readBack.page = none ∧ c.readBack.wants = []

/-! ## Formation -/

/-- From `c` to `d` the unflushed slots of page `p`, in fill buffer `b`, have been formed into an extent (R7, R111), for a
local page in a block that is not RETIRED. The extent follows those formed before; it closes the page when it is the third,
when it ends at the last slot, or in the no-fit case (R8). An entry for it stands at the tail of the Extent Table, its
program PENDING (R113); in an emergency flush with the table full there is none (R71). Its program is requested when every
earlier extent is programmed (R114). -/
def Ctl.formsExtent (c d : Ctl) (k : Env) (b : Fin 2) (p : FillPage) (noFit emergency : Bool) : Prop :=
  ∀ e a, c.ownEntry k p.seq = some e → e.localPage = some a → c.inRetired a = false → p.failed = false →
    e.ownDepth k ≤ p.extents.length →
    let n := p.extents.length
    let starts := p.starts &&& slotMask p.formed p.used
    let i : ExtentInfo :=
      { number := n, first := p.formed, count := p.used - p.formed, records := popCount starts, starts := starts,
        closing := decide (n = 2) || decide (p.used = 8) || noFit }
    (∃ q, d.fill.get b = some q ∧ q.seq = p.seq ∧ q.used = p.used ∧ q.extents = p.extents ++ [i]) ∧
    (d.entry (ownId k p.seq)).map (fun e => (e.known, e.used, e.closed)) =
      some (max e.known (n + 1), p.used, e.closed || i.closing) ∧
    (c.et.length < 16 → c.etEntry p.seq n = none →
      ∃ x, d.et = c.et ++ [x] ∧ x.seq = p.seq ∧ x.ext = n ∧ x.first = p.formed ∧ x.count = p.used - p.formed ∧
        x.prog = .pending ∧ x.settled = .none) ∧
    (emergency = true → 16 ≤ c.et.length → d.et = c.et) ∧
    (e.pendingExt = none → e.ownDepth k = n →
      ∃ r ∈ (d.units.get (unitOfBlock a.block)).queue, r.who = .own p.seq false (n + 1) ∧ r.emergency = emergency ∧
        ∃ q, r.op = .program q ∧ q.page = a ∧ q.first = p.formed ∧ q.count = p.used - p.formed)

/-! ## HOLDINGS frames -/

/-- An item of a HOLDINGS frame reports the entries `es`, which the entries `after` follow in the walk of their group (R155).
A PAGE reports one entry that is not held CLOSED at its known extent count; a RUN reports consecutive page seqs held so, and
ends at the first entry that breaks this or at a count of 65535. -/
def HoldItem.reports (i : HoldItem) (k : Env) (es after : List Entry) : Prop :=
  let whole (e : Entry) : Prop := e.closed = true ∧ e.depths.get k.me = e.known
  match i with
  | .page q depth flags =>
    ∃ e, es = [e] ∧ ¬ whole e ∧ q = e.id.seq ∧ depth = byteOf (e.depths.get k.me) ∧ flags = bitOf e.closed 0
  | .run q n =>
    (∀ e ∈ es, whole e) ∧ es.map (·.id.seq) = (List.range n.toNat).map (fun j => q + BitVec.ofNat 32 j) ∧ n ≠ 0 ∧
    (∀ e rest, after = e :: rest → whole e → e.id.seq = q + BitVec.ofNat 32 n.toNat → n.toNat = 65535)

/-- The next frame of the series `s` carries `flags` and `items`, and leaves the series at `next` (R155). The items report,
in order, the entries of the series' group from its cursor on with a copy here; a frame takes up to 16 items, and ends
short of that only with the last entry of the group, when it is last-of-origin, and for group 7 last-of-series. The cursor
goes just above the last entry reported. -/
def Ctl.formsHoldings (c : Ctl) (k : Env) (s next : Series) (flags : Byte) (items : List HoldItem) : Prop :=
  let held := c.dir.filter (fun e =>
    decide (e.id.origin.val = s.group) && decide (s.cursor ≤ e.id.seq.toNat) && decide (1 ≤ e.depths.get k.me))
  ∃ (told : List (HoldItem × List Entry)) (left : List Entry),
    items = told.map Prod.fst ∧ held = (told.map Prod.snd).flatten ++ left ∧
    (∀ l x l', told = l ++ x :: l' → x.1.reports k x.2 ((l'.map Prod.snd).flatten ++ left)) ∧
    items.length ≤ 16 ∧ (left ≠ [] → items.length = 16) ∧
    flags = bitOf left.isEmpty 0 ||| bitOf (left.isEmpty && decide (s.group = 7)) 1 ∧
    next = { s with
      index := s.index + 1, lastOrigin := left.isEmpty, lastSeries := left.isEmpty && decide (s.group = 7),
      cursor := match (told.map Prod.snd).flatten.getLast? with
        | some e => e.id.seq.toNat + 1
        | none => s.cursor }

/-! ## Data frames -/

/-- The command `i` is the arrival of a data frame from a peer that the station keeps (R79 to R82): frame `x`, from station
`t`, for page `id`, in the receive buffer `u` that was claimed for it. -/
def State.dataArrives (s : State) (i : Instr) (t : Station) (x : DataFrame) (id : PageId) (u : Fin 4) : Prop :=
  s.env.rstLow = false ∧ t ≠ s.env.me ∧ (s.ctl.station = .active ∨ s.ctl.station = .frozen) ∧
  s.ctl.rx.get u = .claimed ∧ (∀ v, s.ctl.rx.get v = .claimed → v = u) ∧
  ∃ f,
    (∃ b, i = .extentFrame f ∧ Heard.receive f = some (t, .extent b) ∧ has b.mask s.env.me = true ∧ x = .extent b ∧
      id = { origin := t, seq := b.seq }) ∨
    (∃ b, i = .copyFrame f ∧ Heard.receive f = some (t, .copy b) ∧ b.target = byteOf s.env.me.val ∧ x = .copy b ∧
      id.origin.val = b.origin.toNat ∧ id.seq = b.seq)

/-- The frame is ill-formed (R128, check 3). -/
def DataFrame.illFormed (x : DataFrame) : Prop :=
  match x with
  | .extent b => 2 < b.ext.toNat ∨ 8 < b.first.toNat + b.count.toNat
  | .copy b =>
    b.descs.map (fun d => d.number.toNat) ≠ List.range b.descs.length ∨
    (∃ d l, b.descs = d :: l ∧ d.first ≠ 0) ∨
    (∃ l d d' l', b.descs = l ++ d :: d' :: l' ∧
      (d'.first.toNat ≠ d.first.toNat + d.count.toNat ∨ d.flags.getLsbD 0 = true))

/-- A check of R128 discards a frame for page `id`: the page is released, it is an own page without an entry at or above
the next seq, or the frame is ill-formed. -/
def Ctl.discards (c : Ctl) (k : Env) (x : DataFrame) (id : PageId) : Prop :=
  id.seq ≤ (if id.origin = k.me then c.ownMark else (c.peers.get id.origin).mark) ∨
  (id.origin = k.me ∧ c.entry id = none ∧ ∃ n, c.nextSeq = some n ∧ n ≤ id.seq) ∨ x.illFormed

/-- The entry with a frame's depth vector recorded (R134): every other station's depth raised where the vector's is higher,
and the known extent count raised to a depth so recorded. -/
def Entry.heard (e : Entry) (k : Env) (x : DataFrame) : Entry :=
  { e with
    depths := Vector.ofFn (fun i : Fin 8 =>
      if i = k.me then e.depths.get i else max (e.depths.get i) (depthIn x.depths i)),
    known := allStations.foldl (fun m i =>
      if i ≠ k.me ∧ e.depths.get i < depthIn x.depths i then max m (depthIn x.depths i) else m) e.known }

/-- What is recorded in the entry of page `id`, now `new`, moves nothing of the own-extent engine: for another station's page
always; for an own page while nothing is owed or waits for a read-back, no extent of the table is settled, and none of the
page becomes durable by it. -/
def Ctl.settlesNothing (c : Ctl) (k : Env) (id : PageId) (new : Entry) : Prop :=
  id.origin = k.me → c.owed = [] ∧ c.readBack.wants = [] ∧ ∀ y ∈ c.et, y.settled = .none ∧
    (y.seq = id.seq → (allStations.filter (fun i => decide (y.ext < new.depths.get i))).length < k.copies)

/-- What a buffer holds of a frame kept from station `t` (R127). -/
def DataFrame.inBuffer (x : DataFrame) (t : Station) (order : Nat) (phase : RxPhase) : RxHeld :=
  { src := t, frame := x, order := order, phase := phase,
    image := Memory.write clearByte [] (x.first * 512) x.data, back := [] }

end Sys2Proof.Machine
end

