-- ==== Sys2Proof/Certificates/Slice0/Obligations.lean ====
section
/-!
DEFINITION. The statements about the station, for the provers, in the order of the manual's sections after the ones about
the step itself. Each names the command it is about; `s.env.rstLow = false` says that the part is out of reset.
-/

section
open Sys2Proof Sys2Proof.Machine

/-! ## The step -/

/-- A step takes the command at the front of the queue and answers what that command's meaning answers on the state with
the queue's rest. -/
def Obligations.StepRunsHead : Prop :=
  ∀ (i : Instr) (rest : List Instr) (s : State), s.pending = i :: rest → step s = exec i { s with pending := rest }

/-- With no command waiting a step is one millisecond (the model's choice, log 2): nothing while RST# is low (R56);
else the clock, the listening window and the time since the presence tick move, and in ACTIVE and FROZEN the answer
timers, the copy job timers and the recheck timer move too (R69, R72, R148, R153). -/
def Obligations.IdleStepIsOneMillisecond : Prop :=
  ∀ s : State, s.pending = [] →
    (s.env.rstLow = true → step s = .next s) ∧
    (s.env.rstLow = false → s.ctl.station ≠ .active → s.ctl.station ≠ .frozen →
      step s = .next
        { s with env := { s.env with clock := s.env.clock + 1 },
                 ctl := { s.ctl with window := tickDown s.ctl.window, presence := s.ctl.presence.map (· + 1) } }) ∧
    (s.env.rstLow = false → s.ctl.station = .active ∨ s.ctl.station = .frozen →
      step s = .next
        { s with env := { s.env with clock := s.env.clock + 1 },
                 ctl := { s.ctl with
                   window := tickDown s.ctl.window, presence := s.ctl.presence.map (· + 1),
                   et := s.ctl.et.map (fun x => { x with timer := tickDown x.timer }),
                   jobs := vmap (Option.map (fun j => { j with timer := tickDown j.timer })) s.ctl.jobs,
                   recheck := tickDown s.ctl.recheck } })

/-- No command stops the station: each answers a next state, and leaves the commands that wait alone. -/
def Obligations.EveryCommandCompletes : Prop :=
  ∀ (i : Instr) (s : State), ∃ t, exec i s = .next t ∧ t.pending = s.pending

/-! ## Reset and power (Section 4) -/

/-- The state after a hard reset is that of Table 4-1: MOUNTING, clock 0, every table, list, queue, buffer and slot
empty, every peer ABSENT with release mark 0, nothing pending at the alert set and FAULT and SPACE enabled, the units
IDLE with favour counts 0, the mark log with nothing known or wanted; RDY low and ALRT# released (R56), OVERRUN clear
and LAST RESULT OK (R162). It meets the two invariants that every step keeps. -/
def Obligations.ResetState : Prop :=
  State.reset.pending = [] ∧ State.reset.env.rstLow = true ∧ State.reset.env.clock = 0 ∧
  State.reset.rdy = false ∧ State.reset.ctl.alertLow = false ∧
  (let c := State.reset.ctl
   c.station = .mounting ∧ c.dir = [] ∧ c.blocks = [] ∧ c.pool = [] ∧ c.et = [] ∧ c.repair = [] ∧ c.catchUps = [] ∧
   c.tx.entries = [] ∧ c.tx.held = [] ∧ c.tx.onAir = none ∧ c.tx.faults = 0 ∧ c.completed = [] ∧ c.scan = none ∧
   (∀ b, c.fill.get b = none) ∧ (∀ b, c.pair.get b = .empty) ∧ (∀ b, c.rx.get b = .free) ∧ (∀ b, c.jobs.get b = none) ∧
   (∀ p, (c.peers.get p).state = .absent ∧ (c.peers.get p).mark = 0) ∧
   (∀ u, c.units.get u = { busy := none, queue := [], favour := 0 }) ∧
   c.alerts.pending = 0 ∧ c.alerts.enabled = Cause.fault.bit ||| Cause.space.bit ∧
   c.mark.active = none ∧ c.mark.failures = 0 ∧ c.mark.write = none ∧ c.mark.wanted = c.mark.recorded ∧
   c.mark.frozenOwed = false ∧
   c.port.overrun = false ∧ c.port.lastResult = ResultCode.ok.byte ∧ c.port.act = .idle ∧ c.Ok) ∧
  State.reset.flash.wf

/-- A hard reset, from any state (R32, R56): RST# is low, the clock is 0, the controller has the values of Table 4-1
and all that it held is lost; the level of PFW# and the straps stay. The array keeps every byte that no program or
erase in progress is writing, and the array is as it was when none is in progress. (The model's own counter behind the
free values goes on, log 8; the values for which Table 4-1 has none are the model's own, log 3.)
The release of a hard reset (R56 to R58): the straps are sampled, CPY high for COPIES 3, the clock starts at 0,
the station is MOUNTING with the page reads of every page of both mark blocks requested on their units, and everything
else as the reset left it. That all 128 reads of a unit are requested together at the release is the model's choice
(log 41). A rise of RST# that is high already changes nothing (log 1).
While RST# is low every block is held stopped (R56; for the commands of the board the model's choice, log 5): the four
pin commands apart, a command changes nothing, and a change of PFW# is only noted. -/
def Obligations.Resets : Prop :=
 (∀ s : State, ∃ fl : Flash,
    exec .hardReset s = .next
      { s with env := { s.env with rstLow := true, clock := 0, fresh := s.env.fresh + 2 }, flash := fl,
               ctl := State.reset.ctl } ∧
    (∀ x, (∀ u b, (s.ctl.units.get u).busy = some b → ¬ b.req.op.touches x) → fl.byteAt x = s.flash.byteAt x) ∧
    ((∀ u b, (s.ctl.units.get u).busy = some b → b.req.op.isRead = true) → fl = s.flash)) ∧
 (∀ (n : Station) (cpy : Bool) (s : State),
    (s.env.rstLow = true →
      exec (.hardResetRelease n cpy) s = .next
        { s with env := { s.env with rstLow := false, me := n, copies := if cpy then 3 else 2, clock := 0 },
                 ctl := { State.reset.ctl with
                   units := #v[{ busy := none, queue := (List.range 128).map (mountMarkReq 0), favour := 0 },
                               { busy := none, queue := (List.range 128).map (mountMarkReq 1), favour := 0 }] } }) ∧
    (s.env.rstLow = false → exec (.hardResetRelease n cpy) s = .next s)) ∧
 (∀ s : State, s.env.rstLow = true →
    (∀ i : Instr, i ≠ .hardReset → (∀ n c, i ≠ .hardResetRelease n c) → i ≠ .powerFailWarning → i ≠ .rejoin →
      exec i s = .next s) ∧
    exec .powerFailWarning s = .next { s with env := { s.env with pfwLow := true } } ∧
    exec .rejoin s = .next { s with env := { s.env with pfwLow := false } })

/-- A fall of PFW# (R64, R71, R74). In MOUNTING, LEAVING and ISOLATED it is only noted. In LISTENING, ACTIVE and
FROZEN the station enters LEAVING and its window ends; an APPEND in its data phase or waiting to open, and a waiting
RELEASE, end STATE, and a waiting FLUSH goes on waiting; the own programs that wait become programs of the emergency
flush and every other request stays as it is, in its place; DEFERRED receive buffers are freed (R140) and no other;
and no operation in progress, peer, mark, read pair, scan or mount field changes. The unflushed slots of the open
page, its local page not in a RETIRED block (as for the buffers and the FLUSH too), are formed into an extent by R7
that closes the page only by R8: with an Extent Table entry when one is free, without one when none is; its program is
requested at once, as one of the emergency flush, when every earlier extent is programmed.
A return of PFW# high (R73, R91). In LEAVING the station enters LISTENING with a window of 60 ms and a generation
one higher, from 65535 to 0; while FROZEN-OWED is clear the raised generation is wanted of the mark log, which begins
to write it when it may, and a write still waiting that carries a generation not yet recorded carries the new one
instead (the model's reading of R73, log 43); no queue loses a request, and the directory, block table, Extent Table,
repair list and peer table stay. In another state it is only noted. -/
def Obligations.PowerFailWarningAndRejoin : Prop :=
 (∀ s : State, s.env.rstLow = false →
    (s.ctl.station = .mounting ∨ s.ctl.station = .leaving ∨ s.ctl.station = .isolated →
      exec .powerFailWarning s = .next { s with env := { s.env with pfwLow := true } }) ∧
    (s.ctl.station = .listening ∨ s.ctl.station = .active ∨ s.ctl.station = .frozen →
      ∃ c : Ctl,
        exec .powerFailWarning s = .next { s with env := { s.env with pfwLow := true }, ctl := c } ∧
        c.station = .leaving ∧ c.window = none ∧ c.mark = s.ctl.mark ∧ c.peers = s.ctl.peers ∧ c.gen = s.ctl.gen ∧
        c.ownMark = s.ctl.ownMark ∧ c.nextSeq = s.ctl.nextSeq ∧ c.pair = s.ctl.pair ∧ c.scan = s.ctl.scan ∧
        c.mount = s.ctl.mount ∧ c.presence = s.ctl.presence ∧ c.completed = s.ctl.completed ∧
        (∀ u, (c.units.get u).busy = (s.ctl.units.get u).busy ∧
          (s.ctl.units.get u).queue.map (fun r => if r.who.isOwn then { r with emergency := true } else r)
            <+: (c.units.get u).queue) ∧
        (∀ a n, s.ctl.port.act = .appendData a n ∨ s.ctl.port.act = .appendOpening a →
          c.port = { s.ctl.port with act := .idle, result := [ResultCode.state.byte], resultPos := 0,
                                     lastResult := ResultCode.state.byte }) ∧
        (∀ m, s.ctl.port.act = .releaseWait m →
          c.port = { s.ctl.port with act := .idle, result := [ResultCode.state.byte], resultPos := 0,
                                     lastResult := ResultCode.state.byte }) ∧
        (s.ctl.port.act.quiet = true → (∀ a, s.ctl.port.act ≠ .appendOpening a) →
          (∀ m, s.ctl.port.act ≠ .releaseWait m) → c.port = s.ctl.port) ∧
        ((∀ v p e a, s.ctl.openPage s.env = some (v, p) → s.ctl.ownEntry s.env p.seq = some e → e.localPage = some a →
            s.ctl.inRetired a = false) →
          (∀ v h, s.ctl.rx.get v = .held h → h.phase = .deferred → h.frame.id h.src ≠ none → c.rx.get v = .free) ∧
          (∀ v, (∀ h, s.ctl.rx.get v = .held h → h.phase ≠ .deferred) → c.rx.get v = s.ctl.rx.get v) ∧
          (∀ q ext, s.ctl.port.act = .flushWait q ext → c.port = s.ctl.port)) ∧
        (∀ v p, s.ctl.openPage s.env = some (v, p) → p.formed < p.used → s.ctl.formsExtent c s.env v p false true) ∧
        ((∀ v p, s.ctl.openPage s.env = some (v, p) → p.used ≤ p.formed) → c.et = s.ctl.et))) ∧
 (∀ s : State, s.env.rstLow = false →
    (s.ctl.station ≠ .leaving → exec .rejoin s = .next { s with env := { s.env with pfwLow := false } }) ∧
    (s.ctl.station = .leaving →
      ∃ c : Ctl,
        exec .rejoin s = .next { s with env := { s.env with pfwLow := false }, ctl := c } ∧
        c.station = .listening ∧ c.window = some 60 ∧ c.gen = s.ctl.gen + 1 ∧
        c.dir = s.ctl.dir ∧ c.blocks = s.ctl.blocks ∧ c.et = s.ctl.et ∧ c.repair = s.ctl.repair ∧
        c.peers = s.ctl.peers ∧ c.nextSeq = s.ctl.nextSeq ∧ c.ownMark = s.ctl.ownMark ∧ c.presence = s.ctl.presence ∧
        (∀ u, (s.ctl.units.get u).queue <+: (c.units.get u).queue) ∧
        (s.ctl.mark.frozenOwed = true → c.mark = s.ctl.mark) ∧
        (s.ctl.mark.frozenOwed = false → s.ctl.mark.write = none → s.ctl.mark.recordedSeq ≠ topSeq →
          s.ctl.mark.recorded.gen ≠ s.ctl.gen + 1 →
          ∃ w, c.mark.write = some w ∧ w.vals = { s.ctl.mark.wanted with gen := s.ctl.gen + 1 } ∧
            w.seq = s.ctl.mark.recordedSeq + 1) ∧
        (∀ w, s.ctl.mark.frozenOwed = false → s.ctl.mark.write = some w →
          c.mark.wanted = { s.ctl.mark.wanted with gen := s.ctl.gen + 1 } ∧
          (s.ctl.markGranted = false → w.vals.gen ≠ s.ctl.mark.recorded.gen →
            c.mark.write = some { w with vals := { w.vals with gen := s.ctl.gen + 1 } }))))

/-! ## The port: cycles (Section 10, R158 to R162, R175) -/

/-- A command byte (R159, R160, R163). The codes of Table 10-1: six collect arguments, with how many bytes each; four
are whole commands, and such a code does what its command does; no other code is known, and an unknown one does what
UNKNOWN_COMMAND does. A code that collects arguments is ignored while the port is busy and sets OVERRUN. Else it
begins the collection of its command; a command that was collecting ends SHORT first, and so does an APPEND in its
data phase, whose bytes above the used slots are gone from the fill buffer. A command byte that is not in Table 10-1
is taken at once and refused with BAD-ARG (R159); while the port is busy it is ignored and sets OVERRUN (R160). -/
def Obligations.CommandBytes : Prop :=
 ((argCmdOf 0x21#8 = some .append ∧ ArgCmd.append.bytes = 4) ∧ (argCmdOf 0x31#8 = some .read ∧ ArgCmd.read.bytes = 6) ∧
  (argCmdOf 0x32#8 = some .scan ∧ ArgCmd.scan.bytes = 5) ∧ (argCmdOf 0x41#8 = some .release ∧ ArgCmd.release.bytes = 4) ∧
  (argCmdOf 0x51#8 = some .report ∧ ArgCmd.report.bytes = 1) ∧
  (argCmdOf 0x52#8 = some .alertMask ∧ ArgCmd.alertMask.bytes = 1) ∧
  (∀ code : Byte, knownCode code = (argCmdOf code).isSome || code == 0x22#8 || code == 0x33#8 || code == 0x5A#8
    || code == 0x5F#8) ∧
  (∀ s : State,
    exec (.commandByte 0x22#8) s = exec .flush s ∧ exec (.commandByte 0x33#8) s = exec .scanNext s ∧
    exec (.commandByte 0x5A#8) s = exec .status s ∧ exec (.commandByte 0x5F#8) s = exec .portReset s ∧
    ∀ code, knownCode code = false → exec (.commandByte code) s = exec (.unknownCommand code) s) ∧
  (∀ (s : State) (code : Byte) (cmd : ArgCmd), s.env.rstLow = false → argCmdOf code = some cmd →
     (s.ctl.busy = true →
       exec (.commandByte code) s = .next { s with ctl := { s.ctl with port := { s.ctl.port with overrun := true } } }) ∧
     (s.ctl.port.act = .idle →
       exec (.commandByte code) s = .next
         { s with ctl := { s.ctl with port := { s.ctl.port with act := .collecting cmd [] } } }) ∧
     (∀ cmd' args, s.ctl.port.act = .collecting cmd' args →
       exec (.commandByte code) s = .next
         { s with ctl := { s.ctl with port :=
           { s.ctl.port with act := .collecting cmd [], result := [ResultCode.short.byte], resultPos := 0,
                             lastResult := ResultCode.short.byte } } }) ∧
     (∀ a got b p, s.ctl.port.act = .appendData a got → s.ctl.openPage s.env = some (b, p) →
       exec (.commandByte code) s = .next
         { s with ctl := { s.ctl with
           fill := vput s.ctl.fill b (some p.cleared),
           port := { s.ctl.port with act := .collecting cmd [], result := [ResultCode.short.byte], resultPos := 0,
                                     lastResult := ResultCode.short.byte } } }))) ∧
 (∀ (s : State) (code : Byte), s.env.rstLow = false → knownCode code = false →
    (s.ctl.busy = true →
      exec (.unknownCommand code) s = .next { s with ctl := { s.ctl with port := { s.ctl.port with overrun := true } } }) ∧
    (s.ctl.port.act = .idle ∨ (∃ cmd args, s.ctl.port.act = .collecting cmd args) →
      exec (.unknownCommand code) s = .next { s with ctl := { s.ctl with port := s.ctl.port.ended .badArg [] } }) ∧
    (∀ a got b p, s.ctl.port.act = .appendData a got → s.ctl.openPage s.env = some (b, p) →
      exec (.unknownCommand code) s = .next
        { s with ctl := { s.ctl with fill := vput s.ctl.fill b (some p.cleared),
                                     port := s.ctl.port.ended .badArg [] } }))

/-- An argument byte (R159, R160). With no command collecting, or while the port is busy, it is ignored and sets
OVERRUN. Collected before the last, it is added to the bytes at hand. The last byte is the command itself: the
controller and the array are as that command of the table leaves them, a REPORT's selector choosing among the four
reports; a selector above 3 is refused BAD-ARG (R170). (The counter behind the free values moves with each byte, log
31.) -/
def Obligations.ArgumentByte : Prop :=
  ∀ (s : State) (d : Byte), s.env.rstLow = false →
    ((∀ cmd args, s.ctl.port.act ≠ .collecting cmd args) →
      exec (.argumentByte d) s = .next
        { s with env := { s.env with fresh := s.env.fresh + 1 },
                 ctl := { s.ctl with port := { s.ctl.port with overrun := true } } }) ∧
    (∀ cmd args, s.ctl.port.act = .collecting cmd args →
      (args.length + 1 < cmd.bytes →
        exec (.argumentByte d) s = .next
          { s with env := { s.env with fresh := s.env.fresh + 1 },
                   ctl := { s.ctl with port := { s.ctl.port with act := .collecting cmd (args ++ [d]) } } }) ∧
      (args.length + 1 = cmd.bytes → cmd = .report → 3 < d.toNat →
        exec (.argumentByte d) s = .next
          { s with env := { s.env with fresh := s.env.fresh + 1 },
                   ctl := { s.ctl with port := s.ctl.port.ended .badArg [] } }) ∧
      (∀ i : Instr, args.length + 1 = cmd.bytes →
        (cmd = .append ∧ i = .append d ∨ cmd = .read ∧ i = .read d ∨ cmd = .scan ∧ i = .scan d ∨
          cmd = .release ∧ i = .release d ∨ cmd = .alertMask ∧ i = .alertMask d ∨
          cmd = .report ∧ (d = 0 ∧ i = .reportStationSummary ∨ d = 1 ∧ i = .reportPeerTable ∨
            d = 2 ∧ i = .reportAlertCauses ∨ d = 3 ∧ i = .reportExtentTable)) →
        ∃ t u, exec (.argumentByte d) s = .next t ∧ exec i s = .next u ∧ t.ctl = u.ctl ∧ t.flash = u.flash))

/-- An argument byte given as the command it completes changes nothing where the port does not await that byte (the
model's choice, log 1). Table 10-2: in the states that do not take a command it is refused STATE, without any other
change. -/
def Obligations.CommandsTurnedAway : Prop :=
 (∀ (s : State) (cmd : ArgCmd) (d : Byte) (i : Instr), s.ctl.lastArgument cmd = none → s.env.rstLow = false →
    (cmd = .append ∧ i = .append d ∨ cmd = .read ∧ i = .read d ∨ cmd = .scan ∧ i = .scan d ∨
      cmd = .release ∧ i = .release d ∨ cmd = .alertMask ∧ i = .alertMask d ∨ cmd = .report ∧ i = .reportAlertCauses) →
    exec i s = .next s) ∧
 (∀ (s : State) (i : Instr) (d : Byte), s.env.rstLow = false →
    (s.ctl.station ≠ .active ∧
        ((∃ a b c, s.ctl.port.act = .collecting .append [a, b, c] ∧ i = .append d) ∨
         (∃ a b c, s.ctl.port.act = .collecting .release [a, b, c] ∧ i = .release d) ∨
         ((s.ctl.port.act = .idle ∨ ∃ cmd args, s.ctl.port.act = .collecting cmd args) ∧ i = .flush)) ∨
      s.ctl.station = .mounting ∧
        ((∃ a b c e f, s.ctl.port.act = .collecting .read [a, b, c, e, f] ∧ i = .read d) ∨
         (∃ a b c e, s.ctl.port.act = .collecting .scan [a, b, c, e] ∧ i = .scan d) ∨
         ((s.ctl.port.act = .idle ∨ ∃ cmd args, s.ctl.port.act = .collecting cmd args) ∧ i = .scanNext) ∨
         (s.ctl.port.act = .collecting .alertMask [] ∧ i = .alertMask d))) →
    exec i s = .next { s with ctl := { s.ctl with port := s.ctl.port.ended .state [] } })

/-- STATUS (R162), busy or not: the status byte and the last result go into the latch, its turn goes back to the
status byte (R175), OVERRUN is cleared after it has been copied, and nothing else changes. The status byte has READY
as RDY, DATA PHASE, OVERRUN and ALERT PENDING in bits 0 to 3, the station state's code of Table 11-11 in bits 4 to 6,
bit 7 clear.
A read cycle in the command phase delivers the two bytes of the latch in turn, and changes nothing else (R162, R175). -/
def Obligations.StatusAndLatch : Prop :=
 (∀ s : State, s.env.rstLow = false →
    exec .status s = .next
      { s with ctl := { s.ctl with port :=
        { s.ctl.port with latchByte := s.ctl.statusByte, latchLast := s.ctl.port.lastResult, latchTurn := false,
                          overrun := false } } } ∧
    s.ctl.statusByte.getLsbD 0 = s.rdy ∧ s.ctl.statusByte.getLsbD 1 = s.ctl.dataPhase ∧
    s.ctl.statusByte.getLsbD 2 = s.ctl.port.overrun ∧ s.ctl.statusByte.getLsbD 3 = s.ctl.alertLow ∧
    (s.ctl.statusByte >>> 4 =
      match s.ctl.station with
      | .mounting => 0
      | .listening => 1
      | .active => 2
      | .frozen => 3
      | .leaving => 4
      | .isolated => 5) ∧
    s.ctl.statusByte.getLsbD 7 = false) ∧
 (∀ s : State, s.env.rstLow = false →
    exec .statusLatchRead s = .next
      { s with ctl := { s.ctl with port :=
        { s.ctl.port with dOut := if s.ctl.port.latchTurn then s.ctl.port.latchLast else s.ctl.port.latchByte,
                          latchTurn := !s.ctl.port.latchTurn } } })

/-- A read cycle in the argument phase (R159, R160): while the port is busy it delivers 00H and is not counted; else
it delivers the next byte of the result block, and past the block's end 00H. A read cycle in the data phase (R160,
R162, R167): while the port is busy, and when no payload remains, it delivers 00H and changes nothing; else it
delivers the next payload byte from the page image, the payload standing 12 bytes above the start of its record's
first slot, and the last byte leaves no payload, so that DATA PHASE is clear. -/
def Obligations.BlockAndPayloadReads : Prop :=
 (∀ s : State, s.env.rstLow = false →
    (s.ctl.busy = true →
      exec .resultBlockRead s = .next { s with ctl := { s.ctl with port := { s.ctl.port with dOut := 0x00#8 } } }) ∧
    (∀ b, s.ctl.busy = false → s.ctl.port.result[s.ctl.port.resultPos]? = some b →
      exec .resultBlockRead s = .next
        { s with ctl := { s.ctl with port := { s.ctl.port with dOut := b, resultPos := s.ctl.port.resultPos + 1 } } }) ∧
    (s.ctl.busy = false → s.ctl.port.result.length ≤ s.ctl.port.resultPos →
      exec .resultBlockRead s = .next { s with ctl := { s.ctl with port := { s.ctl.port with dOut := 0x00#8 } } })) ∧
 (∀ s : State, s.env.rstLow = false →
    (s.ctl.busy = true ∨ s.ctl.port.payload = none →
      exec .payloadRead s = .next { s with ctl := { s.ctl with port := { s.ctl.port with dOut := 0x00#8 } } }) ∧
    (∀ x id h m n, s.ctl.busy = false → s.ctl.port.payload = some x → s.ctl.pair.get x.buf = .loaded id h m n →
      exec .payloadRead s = .next
        { s with ctl := { s.ctl with port :=
          { s.ctl.port with dOut := Memory.read erasedByte m (x.slot * 512 + 12 + x.pos),
                            payload := if x.pos + 1 < x.length then some { x with pos := x.pos + 1 } else none } } }) ∧
    (∀ x, s.ctl.port.act = .idle → s.ctl.port.payload = some x → x.length ≤ x.pos + 1 →
      ∃ t, exec .payloadRead s = .next t ∧ t.ctl.dataPhase = false))

/-! ## The port: reports, the alert set and PORT RESET (R170 to R172) -/

/-- REPORT 0, 1 and 3 (R170) end OK at once in every station state with the fields of their selector (Table 11-13),
and change nothing but the port (and the counter behind the free values, log 31). REPORT 0 has the station's number,
COPIES, state, generations, marks, ceiling, next seq, frontier, open page and counts. REPORT 1 has a record of each
station: a peer's as it was heard, and the station's own as it stands (R92). REPORT 3 has the entry count and a record
of each entry from the head, with its three places. The blocks have 46, 137 and 2 + 18 * entries bytes with their code
(11-3). REPORT 2 (R170, R171): the block has the pending and the enabled causes as they stand, and the pending set is
empty, so that ALRT# is high. The enabled set, and everything outside the port and the alert set, stays. ALERT MASK
(R161, R171): refused STATE in MOUNTING; else its cause bits replace the enabled set and it ends OK, the pending set
as it was. -/
def Obligations.ReportsAndAlertMask : Prop :=
 (∀ s : State, s.env.rstLow = false → s.ctl.port.act = .collecting .report [] →
    exec .reportStationSummary s = .next
      { s with env := { s.env with fresh := s.env.fresh + 1 },
               ctl := { s.ctl with port := s.ctl.port.ended .ok (s.ctl.summary s.env) } } ∧
    exec .reportPeerTable s = .next
      { s with env := { s.env with fresh := s.env.fresh + 1 },
               ctl := { s.ctl with port := s.ctl.port.ended .ok (s.ctl.peerTable s.env) } } ∧
    exec .reportExtentTable s = .next
      { s with env := { s.env with fresh := s.env.fresh + 1 },
               ctl := { s.ctl with port := s.ctl.port.ended .ok (s.ctl.extentReport s.env) } } ∧
    (s.ctl.summary s.env).length = 45 ∧ (s.ctl.peerTable s.env).length = 136 ∧
    (s.ctl.extentReport s.env).length = 1 + 18 * s.ctl.et.length ∧
    (let r := s.ctl.summary s.env
     r.take 23 =
       [byteOf s.env.me.val, byteOf s.env.copies, s.ctl.station.code] ++ bytes16 s.ctl.gen ++
         bytes16 s.ctl.mark.recorded.gen ++ bytes32 s.ctl.ownMark ++ bytes32 s.ctl.mark.wanted.release ++
         bytes32 s.ctl.mark.recorded.ceiling ++ bytes32 (s.ctl.nextSeq.getD 0) ∧
     (s.ctl.frontier = .none → (r.drop 23).take 4 = [0, 0, 0, 0]) ∧
     (∀ q x, s.ctl.frontier = .extent q x → (r.drop 23).take 5 = bytes32 q ++ [byteOf x]) ∧
     (∀ q, s.ctl.frontier = .closing q → (r.drop 23).take 5 = bytes32 q ++ [0xFF#8]) ∧
     (s.ctl.openPage s.env = none → (r.drop 28).take 4 = [0, 0, 0, 0]) ∧
     (∀ b p, s.ctl.openPage s.env = some (b, p) → (r.drop 28).take 5 = bytes32 p.seq ++ [byteOf p.used]) ∧
     r.drop 33 =
       bytes32 (wordOf s.ctl.dir.length) ++ bytes32 (wordOf (s.ctl.dir.filter (·.under)).length) ++
         bytes16 (halfOf s.ctl.pool.length) ++ [byteOf s.ctl.tx.faults, if s.ctl.mark.frozenOwed then 1 else 0]) ∧
    (∀ i : Station,
      let p := s.ctl.peers.get i
      let r := ((s.ctl.peerTable s.env).drop (17 * i.val)).take 17
      let flags (full heard : Bool) : Byte := bitOf full 0 ||| bitOf p.reportReq 1 ||| bitOf heard 2
      (i ≠ s.env.me →
        r.head? = some (match p.state with
          | .absent => 0
          | .present => 1
          | .silent => 2
          | .departed => 3
          | .incompatible => 4) ∧
        (∀ g, p.gen = some g → (r.drop 1).take 2 = bytes16 g) ∧
        (r.drop 3).take 9 =
          [byteOf p.missed, match p.code with
            | none => 0xFF#8
            | some x => x.byte] ++ bytes16 p.pool ++ [flags p.full p.gen.isSome] ++ bytes32 p.mark) ∧
      (i = s.env.me →
        r.take 3 = s.ctl.station.code :: bytes16 s.ctl.gen ∧
        (r.drop 5).take 7 = bytes16 (halfOf s.ctl.pool.length) ++ [flags (!s.ctl.replicaRoom) true] ++ bytes32 s.ctl.ownMark) ∧
      (p.received = none → r.drop 16 = [0]) ∧
      (∀ x, p.received = some x →
        r.drop 12 = [x.series, byteOf x.group] ++ bytes16 (halfOf x.index) ++ [if x.intact then 3 else 1])) ∧
    (s.ctl.extentReport s.env).head? = some (byteOf s.ctl.et.length) ∧
    (∀ i x, s.ctl.et[i]? = some x →
      let r := ((s.ctl.extentReport s.env).drop (1 + 18 * i)).take 18
      r.take 9 =
        bytes32 x.seq ++
          [byteOf x.ext,
           match x.prog with
           | .pending => 0
           | .programmed => 1
           | .failed => 2,
           if x.places.any Place.wants then 2 else if s.ctl.extentStands x.seq x.ext then 0 else 1,
           match x.settled with
           | .none => 0
           | .durable => 1
           | .released => 2,
           byteOf x.places.length] ∧
      (∀ j, j < 3 → (∀ y, x.places[j]? = some y → y.target = none) → (r.drop (9 + 3 * j)).head? = some 0xFF#8) ∧
      (∀ j y t, j < 3 → x.places[j]? = some y → y.target = some t →
        (r.drop (9 + 3 * j)).take 3 =
          [byteOf t.station.val,
           match t.state with
           | .awaiting => 0
           | .awaitingCopy => 1
           | .done => 2
           | .dropped => 3
           | .sourceless => 4,
           byteOf t.attempts]))) ∧
 (∀ s : State, s.env.rstLow = false → s.ctl.port.act = .collecting .report [] →
    ∃ c : Ctl, exec .reportAlertCauses s = .next { s with ctl := c } ∧
      c = { s.ctl with alerts := { pending := 0, enabled := s.ctl.alerts.enabled },
                       port := s.ctl.port.ended .ok [s.ctl.alerts.pending, s.ctl.alerts.enabled] } ∧
      c.alertLow = false) ∧
 (∀ (s : State) (d : Byte), s.env.rstLow = false → s.ctl.port.act = .collecting .alertMask [] →
    (s.ctl.station = .mounting →
      exec (.alertMask d) s = .next { s with ctl := { s.ctl with port := s.ctl.port.ended .state [] } }) ∧
    (s.ctl.station ≠ .mounting →
      exec (.alertMask d) s = .next
        { s with ctl := { s.ctl with alerts := { pending := s.ctl.alerts.pending, enabled := d &&& 0x1F#8 },
                                     port := s.ctl.port.ended .ok [] } }))

/-- PORT RESET, in any state of the port and the station (R172): the command in progress ends ABORTED, an APPEND in
its data phase placing nothing; the scan ends, and each read pair buffer is EMPTY, or ABANDONED while its read is
outstanding; OVERRUN and the payload are gone, the latch's turn is the status byte's (R175), and RDY is high unless
both buffers are ABANDONED. Everything outside the port, the read pair, the scan and the discarded bytes stays. -/
def Obligations.PortReset : Prop :=
  ∀ s : State, s.env.rstLow = false →
    ((∀ a got, s.ctl.port.act ≠ .appendData a got) ∨ s.ctl.openPage s.env = none →
      exec .portReset s = .next
        { s with ctl := { s.ctl with
          scan := none, pair := vmap PairBuf.release s.ctl.pair,
          port := { s.ctl.port.ended .aborted [] with
            overrun := false, latchTurn := false,
            act := if (s.ctl.pair.get 0).outstanding && (s.ctl.pair.get 1).outstanding then .resetWait else .idle } } }) ∧
    (∀ a got b p, s.ctl.port.act = .appendData a got → s.ctl.openPage s.env = some (b, p) →
      exec .portReset s = .next
        { s with ctl := { s.ctl with
          fill := vput s.ctl.fill b (some p.cleared), scan := none, pair := vmap PairBuf.release s.ctl.pair,
          port := { s.ctl.port.ended .aborted [] with
            overrun := false, latchTurn := false,
            act := if (s.ctl.pair.get 0).outstanding && (s.ctl.pair.get 1).outstanding then .resetWait else .idle } } })

/-! ## APPEND, FLUSH and RELEASE (Sections 7 and 10) -/

/-- The refusals of an APPEND in ACTIVE, in their order (R108, R163): a length outside 1 to 4084; fewer Extent Table
entries free than extents it will form; for a record that does not fit the open page, a full directory or no page to
be had, then no page seq left. A refused APPEND changes nothing but the port. An accepted APPEND (R1, R2, R3, R108,
R163) fixes the header fields of its record: the tag, the length, the generation in use, the clock and the slots. A
record that fits the open page opens its data phase, and nothing outside the port changes. One that does not fit
closes that page, by its no-fit extent when it has unflushed slots (R8, R111; what a formation does is
`Ctl.formsExtent`) and else at the origin alone, and waits for a new page, without any change to the membership, the
mark log, the read pair, the scan or the enabled causes; with no open page nothing leaves the directory, the Extent
Table or the transmit queue. When the next seq is above the recorded ceiling a higher one is wanted of the mark log
(R68), which begins to write it when it may. -/
def Obligations.Append : Prop :=
 (∀ (s : State) (t0 t1 l0 l1 : Byte), s.env.rstLow = false → s.ctl.station = .active →
    s.ctl.port.act = .collecting .append [t0, t1, l0] →
    let n := (half l0 l1).toNat
    let o := s.ctl.openPage s.env
    let noRoom := 65536 ≤ s.ctl.dir.length ∨ (s.ctl.openBlock .own = none ∧ s.ctl.pool.length < 3)
    let refused (code : ResultCode) : Prop :=
      exec (.append l1) s = .next { s with ctl := { s.ctl with port := s.ctl.port.ended code [] } }
    (n = 0 ∨ 4084 < n → refused .badArg) ∧
    (1 ≤ n → n ≤ 4084 →
      (16 - s.ctl.et.length < extentsFormed o (slotsOf n) → refused .tableFull) ∧
      (extentsFormed o (slotsOf n) ≤ 16 - s.ctl.et.length → fits o (slotsOf n) = false →
        (noRoom → refused .noSpace) ∧ (¬ noRoom → s.ctl.nextSeq = none → refused .exhausted)))) ∧
 (∀ (s : State) (t0 t1 l0 l1 : Byte), s.env.rstLow = false → s.ctl.station = .active →
    s.ctl.port.act = .collecting .append [t0, t1, l0] →
    let n := (half l0 l1).toNat
    let slots := (12 + n + 511) / 512
    let o := s.ctl.openPage s.env
    let cmd (reserved : Nat) : AppendCmd :=
      { tag := half t0 t1, length := n, gen := s.ctl.gen, stamp := s.env.clock, slots := slots, reserved := reserved }
    1 ≤ n → n ≤ 4084 → extentsFormed o slots ≤ 16 - s.ctl.et.length →
    (∀ b p, o = some (b, p) → p.used + slots ≤ 8 →
      exec (.append l1) s = .next
        { s with ctl := { s.ctl with port := { s.ctl.port with
            act := .appendData (cmd (if p.used + slots = 8 then 1 else 0)) 0, result := [], resultPos := 0,
            payload := none } } }) ∧
    (∀ seq, fits o slots = false → s.ctl.dir.length < 65536 →
      (s.ctl.openBlock .own ≠ none ∨ 3 ≤ s.ctl.pool.length) → s.ctl.nextSeq = some seq →
      ∃ c : Ctl, exec (.append l1) s = .next { s with ctl := c } ∧
        (seq ≤ s.ctl.mark.recorded.ceiling →
          c.still = s.ctl.still ∧
          c.port = { s.ctl.port with act := .appendOpening (cmd (if slots = 8 then 1 else 0)), result := [], resultPos := 0,
                                     payload := none }) ∧
        (o = none → c.dir = s.ctl.dir ∧ c.et = s.ctl.et ∧ c.tx = s.ctl.tx ∧ c.blocks = s.ctl.blocks) ∧
        (∀ b p, o = some (b, p) → p.unflushed = false → ∀ e ∈ c.dir, e.id = ownId s.env p.seq → e.closed = true) ∧
        (∀ b p, o = some (b, p) → p.formed < p.used → s.ctl.formsExtent c s.env b p true false) ∧
        (s.ctl.mark.recorded.ceiling < seq → s.ctl.mark.write = none → s.ctl.mark.frozenOwed = false →
          s.ctl.mark.recordedSeq ≠ topSeq →
          ∃ w, c.mark.write = some w ∧ w.seq = s.ctl.mark.recordedSeq + 1 ∧
            w.vals = { s.ctl.mark.wanted with
              ceiling := maxSeq s.ctl.mark.wanted.ceiling (ceilingAbove s.ctl.mark.recorded.ceiling) })))

/-- A payload byte (R109, R159, R163). With no APPEND in its data phase it is ignored and sets OVERRUN. Before the
last it is written to the fill buffer, the payload standing 12 bytes above the start of the record's first slot. The
last byte places the record: its 12 header bytes, least-significant byte first, in front of its payload, a record
start at its first slot, its slots used; and the APPEND ends OK with the page seq and that slot. A page that is not
yet full has no other effect; a full one is formed into its closing extent (R8, R109, R111), as `Ctl.formsExtent`
says. The bytes that a discarded APPEND wrote are set to 00H again: at and above the used slots the page reads 00H,
below them it reads as before (R106, R109). FLUSH and SCAN NEXT need no argument (R159, R160): while the port is busy
they are ignored with OVERRUN; a command that collects arguments, or an APPEND in its data phase, ends SHORT first,
and then they act as on an idle port. -/
def Obligations.AppendDataPhase : Prop :=
 (∀ (s : State) (d : Byte), s.env.rstLow = false →
    ((∀ a got, s.ctl.port.act ≠ .appendData a got) →
      exec (.appendPayloadByte d) s = .next { s with ctl := { s.ctl with port := { s.ctl.port with overrun := true } } }) ∧
    (∀ a got b p, s.ctl.port.act = .appendData a got → s.ctl.openPage s.env = some (b, p) →
      let bytes := Memory.write clearByte p.bytes (p.used * 512 + 12 + got) [d]
      let header := bytes16 (halfOf a.length) ++ bytes16 a.tag ++ bytes16 a.gen ++ bytes32 a.stamp ++
        [byteOf a.slots, byteOf p.records]
      let q := { p with bytes := Memory.write clearByte bytes (p.used * 512) header, used := p.used + a.slots,
                        starts := p.starts ||| (1#8 <<< p.used), records := p.records + 1 }
      let answer := { s.ctl.port with act := .idle, result := 0x00#8 :: (bytes32 p.seq ++ [byteOf p.used]),
                                      resultPos := 0, lastResult := 0x00#8 }
      (got + 1 ≠ a.length →
        exec (.appendPayloadByte d) s = .next
          { s with ctl := { s.ctl with fill := vput s.ctl.fill b (some { p with bytes := bytes }),
                                       port := { s.ctl.port with act := .appendData a (got + 1) } } }) ∧
      (got + 1 = a.length → p.used + a.slots ≠ 8 →
        exec (.appendPayloadByte d) s = .next
          { s with ctl := { s.ctl with fill := vput s.ctl.fill b (some q), port := answer } }) ∧
      (got + 1 = a.length → p.used + a.slots = 8 →
        ∃ c : Ctl, exec (.appendPayloadByte d) s = .next { s with ctl := c } ∧ c.still = s.ctl.still ∧ c.port = answer ∧
          (p.formed < 8 → s.ctl.station ≠ .leaving → s.ctl.formsExtent c s.env b q false false)))) ∧
 (∀ (p : FillPage) (x : Nat), Memory.wf clearByte p.bytes = true →
    Memory.wf clearByte p.cleared.bytes = true ∧
    Memory.read clearByte p.cleared.bytes x = if x < p.used * 512 then Memory.read clearByte p.bytes x else 0x00#8) ∧
 (∀ (s : State) (i : Instr), s.env.rstLow = false → i = .flush ∨ i = .scanNext →
    (s.ctl.busy = true →
      exec i s = .next { s with ctl := { s.ctl with port := { s.ctl.port with overrun := true } } }) ∧
    (let short := { s.ctl.port with act := .idle, result := [ResultCode.short.byte], resultPos := 0,
                                    lastResult := ResultCode.short.byte }
     (∀ cmd args, s.ctl.port.act = .collecting cmd args →
       exec i s = exec i { s with ctl := { s.ctl with port := short } }) ∧
     (∀ a got b p, s.ctl.port.act = .appendData a got → s.ctl.openPage s.env = some (b, p) →
       exec i s = exec i { s with ctl := { s.ctl with fill := vput s.ctl.fill b (some p.cleared), port := short } })))

/-- FLUSH in ACTIVE on an idle port (R110, R111, R164): NOTHING with no unflushed slots; TABLE-FULL with no Extent
Table entry free; else an extent is formed of the unflushed slots, with an Extent Table entry at the tail whose local
program is PENDING, and the FLUSH waits for it. The membership, the mark log, the read pair, the scan and the enabled
causes stay. (The third part is stated for a local page whose block is not RETIRED; where it is, the extent is moved
by R115. What the formation does to the directory, the fill buffer and the unit's queue is `Ctl.formsExtent`.) -/
def Obligations.Flush : Prop :=
  ∀ s : State, s.env.rstLow = false → s.ctl.station = .active → s.ctl.port.act = .idle →
    (s.ctl.openPage s.env = none ∨ (∃ b p, s.ctl.openPage s.env = some (b, p) ∧ p.used ≤ p.formed) →
      exec .flush s = .next { s with ctl := { s.ctl with port := s.ctl.port.ended .nothing [] } }) ∧
    (∀ b p, s.ctl.openPage s.env = some (b, p) → p.formed < p.used →
      (16 ≤ s.ctl.et.length →
        exec .flush s = .next { s with ctl := { s.ctl with port := s.ctl.port.ended .tableFull [] } }) ∧
      (s.ctl.et.length < 16 → s.ctl.etEntry p.seq p.extents.length = none →
        (∀ e a, s.ctl.ownEntry s.env p.seq = some e → e.localPage = some a → s.ctl.inRetired a = false) →
        ∃ (c : Ctl) (x : ETEntry), exec .flush s = .next { s with ctl := c } ∧ c.still = s.ctl.still ∧
          c.port = { s.ctl.port with act := .flushWait p.seq p.extents.length, result := [], resultPos := 0,
                                     payload := none } ∧
          c.et = s.ctl.et ++ [x] ∧ x.seq = p.seq ∧ x.ext = p.extents.length ∧ x.first = p.formed ∧
          x.count = p.used - p.formed ∧ x.prog = .pending ∧ x.settled = .none ∧
          s.ctl.formsExtent c s.env b p false false))

/-- RELEASE in ACTIVE (R14, R51, R65, R165): ALREADY at or below the release mark; RANGE above the page before the
open one, or the last page opened; else M is wanted of the mark log and the RELEASE waits. A mark page that is being
written is let finish; with none the write begins at once, with all wanted values. Nothing else changes. -/
def Obligations.Release : Prop :=
  ∀ (s : State) (m0 m1 m2 m3 : Byte), s.env.rstLow = false → s.ctl.station = .active →
    s.ctl.port.act = .collecting .release [m0, m1, m2] →
    let m := word m0 m1 m2 m3
    let limit :=
      match s.ctl.openPage s.env with
      | some (_, p) => p.seq - 1
      | none =>
        match s.ctl.nextSeq with
        | some n => n - 1
        | none => topSeq
    let wanted := { s.ctl.mark.wanted with release := maxSeq s.ctl.mark.wanted.release m }
    let waits := { s.ctl.port with act := .releaseWait m, result := [], resultPos := 0, payload := none }
    (m ≤ s.ctl.ownMark →
      exec (.release m3) s = .next { s with ctl := { s.ctl with port := s.ctl.port.ended .already [] } }) ∧
    (s.ctl.ownMark < m → limit < m →
      exec (.release m3) s = .next { s with ctl := { s.ctl with port := s.ctl.port.ended .range [] } }) ∧
    (s.ctl.ownMark < m → m ≤ limit →
      (∀ w, s.ctl.mark.write = some w →
        exec (.release m3) s = .next
          { s with ctl := { s.ctl with mark := { s.ctl.mark with wanted := wanted }, port := waits } }) ∧
      (s.ctl.mark.write = none → s.ctl.mark.frozenOwed = false → s.ctl.mark.recordedSeq ≠ topSeq →
        s.ctl.mark.recorded.release < m →
        exec (.release m3) s = .next
          { s with
            ctl := Ctl.enter
              { s.ctl with
                mark := { s.ctl.mark with
                  wanted := wanted,
                  write := some { vals := wanted, seq := s.ctl.mark.recordedSeq + 1,
                                  erasing := decide (128 ≤ s.ctl.mark.next) } },
                port := waits }
              (if 128 ≤ s.ctl.mark.next then
                 { who := .markErase, op := .erase s.ctl.mark.other.val, emergency := false }
               else markProgramReq s.ctl.mark.block s.ctl.mark.next) }))

/-! ## READ, SCAN and SCAN NEXT (R166 to R169) -/

/-- READ (R166, R167) outside MOUNTING: BAD-ARG for an origin above 7, a slot above 7 or page seq 0. Else the scan
ends and both buffers of the read pair are given up, and a page that this station does not hold ends NOT-HELD; a page
it holds has its page read requested into the lower buffer with no read outstanding (log 28), or the READ waits for
one. -/
def Obligations.Read : Prop :=
  ∀ (s : State) (o s0 s1 s2 s3 slot : Byte), s.env.rstLow = false → s.ctl.station ≠ .mounting →
    s.ctl.port.act = .collecting .read [o, s0, s1, s2, s3] →
    let seq := word s0 s1 s2 s3
    let pair := vmap PairBuf.release s.ctl.pair
    let waits (a : Activity) := { s.ctl.port with act := a, result := [], resultPos := 0, payload := none }
    (7 < o.toNat ∨ 7 < slot.toNat ∨ seq = 0 →
      exec (.read slot) s = .next { s with ctl := { s.ctl with port := s.ctl.port.ended .badArg [] } }) ∧
    (∀ org : Station, org.val = o.toNat → slot.toNat ≤ 7 → seq ≠ 0 →
      ((∀ e, s.ctl.entry { origin := org, seq := seq } = some e → e.localPage = none ∨ e.ownDepth s.env = 0) →
        exec (.read slot) s = .next
          { s with ctl := { s.ctl with scan := none, pair := pair, port := s.ctl.port.ended .notHeld [] } }) ∧
      (∀ e a, s.ctl.entry { origin := org, seq := seq } = some e → e.localPage = some a → 1 ≤ e.ownDepth s.env →
        (∀ b : Fin 2, (pair.get b).outstanding = false → (b = 1 → (pair.get 0).outstanding = true) →
          exec (.read slot) s = .next
            { s with
              ctl := Ctl.enter
                { s.ctl with scan := none, pair := vput pair b (.loading e.id (e.ownDepth s.env)),
                             port := waits (.readWait b slot.toNat) }
                { who := .port b e.id, op := .pageRead a, emergency := false } }) ∧
        ((pair.get 0).outstanding = true → (pair.get 1).outstanding = true →
          exec (.read slot) s = .next
            { s with ctl := { s.ctl with scan := none, pair := pair,
                                         port := waits (.readBufWait { origin := org, seq := seq } slot.toNat) } })))

/-- SCAN (R166, R168) outside MOUNTING: BAD-ARG for an origin above 7. Else a new scan begins at the page seq given,
both buffers given up: the first page of the origin at or above it that this station holds has its page read requested
into a buffer with no read outstanding, of two the lower, which is the model's choice (log 28); END when there is no
such page; the SCAN waits when both buffers have a read outstanding. -/
def Obligations.Scan : Prop :=
  ∀ (s : State) (o s0 s1 s2 s3 : Byte), s.env.rstLow = false → s.ctl.station ≠ .mounting →
    s.ctl.port.act = .collecting .scan [o, s0, s1, s2] →
    let pair := vmap PairBuf.release s.ctl.pair
    let waits (a : Activity) := { s.ctl.port with act := a, result := [], resultPos := 0, payload := none }
    (7 < o.toNat →
      exec (.scan s3) s = .next { s with ctl := { s.ctl with port := s.ctl.port.ended .badArg [] } }) ∧
    (∀ org : Station, org.val = o.toNat →
      let start := PageId.key { origin := org, seq := word s0 s1 s2 s3 }
      let found := s.ctl.dir.find? (fun e =>
        decide (start ≤ e.id.key) && decide (e.id.origin = org) && (e.localPage.isSome && decide (1 ≤ e.ownDepth s.env)))
      (∀ b : Fin 2, (pair.get b).outstanding = false → (b = 1 → (pair.get 0).outstanding = true) →
        (found = none →
          exec (.scan s3) s = .next
            { s with ctl := { s.ctl with scan := none, pair := vput pair b .empty, port := s.ctl.port.ended .ended [] } }) ∧
        (∀ e a, found = some e → e.localPage = some a →
          exec (.scan s3) s = .next
            { s with
              ctl := Ctl.enter
                { s.ctl with
                  scan := some { origin := org, cursor := e.id.key + 1, current := b, position := none },
                  pair := vput pair b (.loading e.id (e.ownDepth s.env)), port := waits (.scanWait b) }
                { who := .port b e.id, op := .pageRead a, emergency := false } })) ∧
      ((pair.get 0).outstanding = true → (pair.get 1).outstanding = true →
        exec (.scan s3) s = .next
          { s with ctl := { s.ctl with scan := some { origin := org, cursor := start, current := 0, position := none },
                                       pair := pair, port := waits .scanBufWait } }))

/-- SCAN NEXT (R166, R169) outside MOUNTING on an idle port. Without a scan END. With a record left in the current
buffer, its locator, its header fields and the corrected count are delivered, its payload can be read, and the
position moves to the next record start. With none left the buffers change roles, the former current one given up: one
that is still LOADING or ABANDONED keeps the command waiting, one that is END ends the scan, one that is DAMAGED ends
the command DAMAGED with the locator of its page, from a LOADED one the record at slot 0 is delivered, and an EMPTY
one takes the next held page or ends the scan. Nothing changes but the port, the scan, the read pair and the page
reads requested for it. -/
def Obligations.ScanNext : Prop :=
  ∀ s : State, s.env.rstLow = false → s.ctl.station ≠ .mounting → s.ctl.port.act = .idle →
    let waits := { s.ctl.port with act := .scanNextWait, result := [], resultPos := 0, payload := none }
    (s.ctl.scan = none →
      exec .scanNext s = .next { s with ctl := { s.ctl with port := s.ctl.port.ended .ended [] } }) ∧
    (∀ sc slot id h m n, s.ctl.scan = some sc → sc.position = some slot → s.ctl.pair.get sc.current = .loaded id h m n →
      exec .scanNext s = .next
        { s with ctl := { s.ctl with
          scan := some { sc with position := nextStart m h slot },
          port := { s.ctl.port.ended .ok (locator id slot ++ readFields m slot n) with
            payload := payloadOf sc.current m slot } } }) ∧
    (∀ sc, s.ctl.scan = some sc → sc.position = none →
      let pair := vput s.ctl.pair sc.current (s.ctl.pair.get sc.current).release
      let swapped := { sc with current := sc.current + 1 }
      ((∃ id h, s.ctl.pair.get (sc.current + 1) = .loading id h ∨ s.ctl.pair.get (sc.current + 1) = .abandoned id h) →
        exec .scanNext s = .next { s with ctl := { s.ctl with pair := pair, scan := some swapped, port := waits } }) ∧
      (s.ctl.pair.get (sc.current + 1) = .ended →
        exec .scanNext s = .next
          { s with ctl := { s.ctl with pair := pair, scan := none, port := s.ctl.port.ended .ended [] } }) ∧
      (∀ id, s.ctl.pair.get (sc.current + 1) = .damaged id →
        ∃ (units : Vector UnitState 2) (pair' : Vector PairBuf 2) (cursor : Nat),
          exec .scanNext s = .next
            { s with ctl := { s.ctl with units := units, pair := pair', scan := some { swapped with cursor := cursor },
                                         port := s.ctl.port.ended .damaged (locator id 0) } }) ∧
      (s.ctl.pair.get (sc.current + 1) = .empty →
        let found := s.ctl.dir.find? (fun e =>
          decide (sc.cursor ≤ e.id.key) && decide (e.id.origin = sc.origin) &&
            (e.localPage.isSome && decide (1 ≤ e.ownDepth s.env)))
        (found = none →
          exec .scanNext s = .next
            { s with ctl := { s.ctl with pair := vput pair (sc.current + 1) .ended, scan := none,
                                         port := s.ctl.port.ended .ended [] } }) ∧
        (∀ e a, found = some e → e.localPage = some a →
          exec .scanNext s = .next
            { s with
              ctl := Ctl.enter
                { s.ctl with pair := vput pair (sc.current + 1) (.loading e.id (e.ownDepth s.env)),
                             scan := some { swapped with cursor := e.id.key + 1 }, port := waits }
                { who := .port (sc.current + 1) e.id, op := .pageRead a, emergency := false } })) ∧
      (∀ id h m n, s.ctl.pair.get (sc.current + 1) = .loaded id h m n →
        ∃ (units : Vector UnitState 2) (pair' : Vector PairBuf 2) (cursor : Nat),
          exec .scanNext s = .next
            { s with ctl := { s.ctl with
              units := units, pair := pair',
              scan := some { swapped with cursor := cursor, position := nextStart m h 0 },
              port := { s.ctl.port.ended .ok (locator id 0 ++ readFields m 0 n) with
                payload := payloadOf (sc.current + 1) m 0 } } } ∧
          pair'.get (sc.current + 1) = .loaded id h m n))

/-- The opening of an own page (R38, R44, R45, R68, R102, R106, R107). While no APPEND waits for one, no fill buffer
is FREE, there is no next seq, or it is above the recorded ceiling, nothing changes. A full directory, or no page to
be had, ends the APPEND NO-SPACE. Else the page with the next seq takes the next page of the open own block, or page 0
of the block at the head of the pool; its entry is of role OWN, open, with the targets of placement; a FREE fill
buffer is its buffer, of two the lower, which is the model's choice (log 52), with every byte 00H; the next seq is one
higher, none after the last; and the APPEND's data phase opens. -/
def Obligations.OpenOwnPage : Prop :=
  ∀ s : State, s.env.rstLow = false →
    ((∀ a, s.ctl.port.act ≠ .appendOpening a) ∨ (∀ b, s.ctl.fill.get b ≠ none) ∨ s.ctl.nextSeq = none ∨
      (∃ n, s.ctl.nextSeq = some n ∧ s.ctl.mark.recorded.ceiling < n) → exec .openOwnPage s = .next s) ∧
    (∀ a (b : Fin 2) seq, s.ctl.port.act = .appendOpening a → s.ctl.fill.get b = none →
      (b = 1 → s.ctl.fill.get 0 ≠ none) → s.ctl.nextSeq = some seq → seq ≤ s.ctl.mark.recorded.ceiling →
      (65536 ≤ s.ctl.dir.length ∨ (s.ctl.openBlock .own = none ∧ s.ctl.pool.length < 3) →
        exec .openOwnPage s = .next
          { s with ctl := { s.ctl with port := { s.ctl.port with
              act := .idle, result := [ResultCode.noSpace.byte], resultPos := 0,
              lastResult := ResultCode.noSpace.byte } } }) ∧
      (∀ p : PageAddr, s.ctl.dir.length < 65536 → s.ctl.ownEntry s.env seq = none →
        (∃ bl, s.ctl.openBlock .own = some bl ∧ p = { block := bl.num, page := bl.next }) ∨
          (s.ctl.openBlock .own = none ∧ 3 ≤ s.ctl.pool.length ∧ s.ctl.pool.head? = some p.block ∧ p.page = 0) →
        ∃ c : Ctl, exec .openOwnPage s = .next { s with ctl := c } ∧
          c.port = { s.ctl.port with act := .appendData a 0 } ∧
          c.nextSeq = (if seq = topSeq then none else some (seq + 1)) ∧
          c.fill = vput s.ctl.fill b (some { seq := seq, bytes := [], used := 0, starts := 0, records := 0, extents := [],
                                             failed := false }) ∧
          c.dir = putEntry
            { id := ownId s.env seq, role := .own, localPage := some p, relocPage := none, pendingExt := none, known := 0,
              used := 0, closed := false, depths := #v[0, 0, 0, 0, 0, 0, 0, 0], targets := s.ctl.placement s.env,
              extra := none, excluded := 0, under := false, copyEnd := 0 } s.ctl.dir ∧
          c.pool = (if s.ctl.openBlock .own = none then s.ctl.pool.tail else s.ctl.pool) ∧
          { c with nextSeq := s.ctl.nextSeq }.still = s.ctl.still ∧ c.et = s.ctl.et ∧ c.tx = s.ctl.tx ∧
          c.units = s.ctl.units ∧ c.rx = s.ctl.rx ∧ c.jobs = s.ctl.jobs))

/-! ## The array units (Section 2) -/

/-- The arbiter of a unit (R23, R27 to R30). With the unit BUSY, or no grantable request waiting, nothing happens.
Else it chooses: at favour count 6, with a class 3 to 5 request waiting, the one of those nearest the head; otherwise
the request of the highest class nearest the head. A chosen read or program of a page that is DEAD, or was when its
block was erased (`Request.stale`, R31, R49), completes NOT-HELD, a chosen program of a record page that has 3
programs already, or that names no descriptor place, completes refused and its block is RETIRED; in both cases the
arbiter chooses again. Any other chosen request sets the unit BUSY with the bytes of its requester's buffer; the
favour count is then 0 after a class 3 to 5 request, one higher after a class 1 or 2 request that passed one, and 0
else; the program count of a record page rises by 1. Requests that are not chosen keep their places. -/
def Obligations.ArbiterGrant : Prop :=
  ∀ (u : UnitNo) (s : State), s.env.rstLow = false →
    let x := s.ctl.units.get u
    let ready := x.queue.filter (fun r => r.grantable s.ctl.station)
    (x.busy ≠ none ∨ ready = [] → exec (.arbiterGrant u) s = .next s) ∧
    (∀ l r l', x.busy = none → ready = l ++ r :: l' →
      (if x.favour = 6 ∧ (∃ y ∈ ready, 3 ≤ y.who.cls) then 3 ≤ r.who.cls ∧ ∀ y ∈ l, y.who.cls < 3
       else (∀ y ∈ ready, r.who.cls ≤ y.who.cls) ∧ ∀ y ∈ l, r.who.cls < y.who.cls) →
      let done (refused : Bool) :=
        { s.ctl with completed := s.ctl.completed ++ [{ req := r, refused := refused }],
                     units := vput s.ctl.units u { x with queue := x.queue.erase r } }
      (r.stale = true ∨ (∃ a, r.op.page = some a ∧ s.ctl.isDead a = true) →
        exec (.arbiterGrant u) s = exec (.arbiterGrant u) { s with ctl := done false }) ∧
      (∀ p, r.stale = false → r.op = .program p → s.ctl.isDead p.page = false → r.who ≠ .mark →
        3 ≤ s.ctl.programCount p.page ∨ p.descs = [] →
        exec (.arbiterGrant u) s = exec (.arbiterGrant u) { s with ctl := (done true).retire p.page.block }) ∧
      (r.stale = false → (∀ a, r.op.page = some a → s.ctl.isDead a = false) →
        (∀ p, r.op = .program p → r.who ≠ .mark → s.ctl.programCount p.page < 3 ∧ p.descs ≠ []) →
        exec (.arbiterGrant u) s = .next
          { s with ctl := { s.ctl with
            units := vput s.ctl.units u
              { busy := some { req := r, data := s.ctl.requestBytes r }, queue := x.queue.erase r,
                favour := if 3 ≤ r.who.cls then 0 else if ∃ y ∈ ready, 3 ≤ y.who.cls then x.favour + 1 else 0 },
            blocks := match r.op with
              | .program p => if r.who = .mark then s.ctl.blocks else (s.ctl.raiseCount p.page).blocks
              | _ => s.ctl.blocks } }))

/-- What the four completions of a program do to the array (R17, R21, R22): the unit becomes IDLE, the other as it
was; a byte outside the parts that the program names, and whether any other part is programmed, stay. After PASS each
named part that was ERASED is programmed and reads as written. After FAIL each named header part holds the void
pattern. -/
def Obligations.ProgramsWriteTheArray : Prop :=
  ∀ (s : State) (u : UnitNo) (r : ProgramReport) (i : Instr) (kind : Requester → Bool) (b : Busy) (q : ProgramReq),
    s.env.rstLow = false →
    (i = .markProgramDone u r ∧ kind = Requester.isMark ∨ i = .ownProgramDone u r ∧ kind = Requester.isOwn ∨
      i = .replicaProgramDone u r ∧ kind = (fun w => w.replicaBuf.isSome) ∨
      i = .replicaRelocationDone u r ∧ kind = (fun w => w.relocBuf.isSome)) →
    s.ctl.takeCompleted u kind = none → (s.ctl.units.get u).busy = some b → kind b.req.who = true →
    b.req.op = .program q →
    q.first + q.count ≤ 8 → b.data.length = q.count * 512 → (q.descs.map Prod.fst).Nodup →
    (∀ d ∈ q.descs, d.1 < 3 ∧ d.2.length = 16) → (∀ g, q.identity = some g → g.length = 16) →
    ∃ (fl : Flash) (c : Ctl),
      exec i s = .next { s with env := { s.env with fresh := s.env.fresh + 1 }, flash := fl, ctl := c } ∧
      (c.units.get u).busy = none ∧ (∀ v, v ≠ u → (c.units.get v).busy = (s.ctl.units.get v).busy) ∧
      (∀ x, (∀ k, q.names k → ¬ q.page.inPart k x) → fl.byteAt x = s.flash.byteAt x) ∧
      (∀ n, (∀ k, q.names k → n ≠ q.page.partNo k) → (n ∈ fl.parts ↔ n ∈ s.flash.parts)) ∧
      (∀ n k bytes, r = .pass n → (k, bytes) ∈ q.slotParts b.data ++ q.headerParts →
        s.flash.programmed q.page k = false →
        fl.programmed q.page k = true ∧
          ∀ j, j < partLength k → fl.byteAt (q.page.partBase k + j) = bytes.getD j 0) ∧
      (∀ k bytes, r = .fail → (k, bytes) ∈ q.headerParts →
        fl.programmed q.page k = true ∧
          ∀ j, j < 16 → fl.byteAt (q.page.partBase k + j) = if j < 14 then 0x00#8 else 0x55#8)

/-- The completions of an erase (R24, R44, R50, R60, R66, R67, R70). The unit becomes IDLE, a byte outside the block
stays, and after PASS every byte of the block reads FFH and no part of it is programmed. A record block that passes is
FREE, with all its pages ERASED, and joins the tail of the pool (in MOUNTING, the list of the blocks so erased), and
each read or program that still waits for a page of it is marked, to end NOT-HELD (R31, R49); one that fails is BAD. A
mark block that passes becomes the active one, and the program of the write in progress is requested into its page 0;
one that fails ends the write and sets FROZEN-OWED, and an ACTIVE station enters FROZEN with FAULT handed. -/
def Obligations.EraseDone : Prop :=
  ∀ (s : State) (u : UnitNo) (r : EraseReport) (i : Instr) (b : Busy) (n : Nat), s.env.rstLow = false →
    (i = .markEraseDone u r ∧ b.req.who = .markErase ∨ i = .recordEraseDone u r ∧ b.req.who = .recordErase) →
    (s.ctl.units.get u).busy = some b → b.req.op = .erase n →
    ∃ (fl : Flash) (c : Ctl),
      exec i s = .next { s with env := { s.env with fresh := s.env.fresh + 1 }, flash := fl, ctl := c } ∧
      (c.units.get u).busy = none ∧ (∀ v, v ≠ u → (c.units.get v).busy = (s.ctl.units.get v).busy) ∧
      (∀ x, ¬ inBlock n x → fl.byteAt x = s.flash.byteAt x) ∧
      (∀ k, r = .pass k →
        (∀ x, inBlock n x → fl.byteAt x = 0xFF#8) ∧
        (∀ (a : PageAddr) (p : Nat), a.block = n → a.page < 128 → p < 12 → fl.programmed a p = false)) ∧
      (let units := vput s.ctl.units u { s.ctl.units.get u with busy := none }
       let free : Block := { num := n, state := .free, next := 0, pages := [] }
       (i = .recordEraseDone u r →
         (∀ k, r = .pass k →
           c = if s.ctl.station = .mounting then
                 { s.ctl with units := units, blocks := putBlock free s.ctl.blocks,
                              mount := { s.ctl.mount with erased := s.ctl.mount.erased ++ [n] } }
               else { s.ctl with
                 units := vmap (fun x => { x with queue := x.queue.map (fun r =>
                   if ∃ a, r.op.page = some a ∧ a.block = n then { r with stale := true } else r) }) units,
                 blocks := putBlock free s.ctl.blocks, pool := s.ctl.pool ++ [n] }) ∧
         (∀ bl, r = .fail → s.ctl.block n = some bl →
           c = { s.ctl with units := units, blocks := putBlock { bl with state := .bad } s.ctl.blocks })) ∧
       (∀ w, i = .markEraseDone u r → s.ctl.mark.write = some w →
         (∀ k, r = .pass k →
           c = Ctl.enter
             { s.ctl with
               units := units,
               mark := { s.ctl.mark with active := some s.ctl.mark.other, next := 0,
                                         write := some { w with erasing := false } } }
             (markProgramReq s.ctl.mark.other 0)) ∧
         (r = .fail →
           c.mark = { s.ctl.mark with write := none, frozenOwed := true } ∧
           (s.ctl.station = .active → c.station = .frozen ∧ c.alerts.pending &&& Cause.fault.bit = Cause.fault.bit) ∧
           (s.ctl.station ≠ .active → c.station = s.ctl.station ∧ c.alerts = s.ctl.alerts) ∧
           (∀ m, s.ctl.port.act = .releaseWait m →
             c.port = { s.ctl.port with act := .idle, result := [ResultCode.fail.byte], resultPos := 0,
                                        lastResult := ResultCode.fail.byte }))))

/-! ## Mounting and the mark log (Section 4) -/

/-- A mark page read by the mount (R57 to R59). Before the 256th it is counted, kept when its mark seq is the highest
found so far, and marks the place above it as the next free one. At the 256th the values of this mount are fixed from
the newest page (mark seq 0, values 0 and block 0 with none valid): the recorded values and the active block are its
own, the generation is one higher, the next seq stands above its ceiling, and both units begin to scan their record
blocks. -/
def Obligations.MarkLogReadDone : Prop :=
  ∀ (s : State) (u : UnitNo) (r : ReadReport) (b : Busy) (a : PageAddr), s.env.rstLow = false →
    s.ctl.takeCompleted u Requester.isMountMark = none → (s.ctl.units.get u).busy = some b → b.req.who = .mountMark →
    b.req.op = .pageRead a →
    let rd := s.flash.readPage a r s.env.fresh
    let blk : Fin 2 := if a.block = 0 then 0 else 1
    let newest :=
      match rd.markPage, s.ctl.mount.newest with
      | none, old => old
      | some (seq, vals), none => some { seq := seq, block := blk, vals := vals }
      | some (seq, vals), some f => if f.seq < seq then some { seq := seq, block := blk, vals := vals } else some f
    let ends :=
      if rd.allErased then s.ctl.mount.ends
      else vput s.ctl.mount.ends blk (max (s.ctl.mount.ends.get blk) (a.page + 1))
    (s.ctl.mount.marksRead + 1 ≠ 256 →
      exec (.markLogReadDone u r) s = .next
        { s with env := { s.env with fresh := s.env.fresh + 1 }, flash := s.flash.afterRead a r,
                 ctl := { s.ctl with
                   units := vput s.ctl.units u { s.ctl.units.get u with busy := none },
                   mount := { s.ctl.mount with marksRead := s.ctl.mount.marksRead + 1, newest := newest, ends := ends } } }) ∧
    (s.ctl.mount.marksRead + 1 = 256 →
      let f : FoundMark := newest.getD { seq := 0, block := 0, vals := { gen := 0, release := 0, ceiling := 0 } }
      ∃ c : Ctl,
        exec (.markLogReadDone u r) s = .next
          { s with env := { s.env with fresh := s.env.fresh + 1 }, flash := s.flash.afterRead a r, ctl := c } ∧
        c.mark.recorded = f.vals ∧ c.mark.recordedSeq = f.seq ∧ c.mark.active = some f.block ∧
        c.mark.next = ends.get f.block ∧
        c.mark.wanted = { f.vals with gen := f.vals.gen + 1, ceiling := ceilingAbove f.vals.ceiling } ∧
        c.ownMark = f.vals.release ∧ c.gen = f.vals.gen + 1 ∧
        c.nextSeq = (if f.vals.ceiling = topSeq then none else some (f.vals.ceiling + 1)) ∧ c.mount.started = true ∧
        c.mount.scans = #v[some { block := 2, phase := .first }, some { block := 3, phase := .first }] ∧
        c.dir = s.ctl.dir ∧ c.blocks = s.ctl.blocks ∧ c.peers = s.ctl.peers ∧ c.tx = s.ctl.tx ∧
        (s.ctl.mark.write = none → s.ctl.mark.frozenOwed = false → f.seq ≠ topSeq →
          ∃ w, c.mark.write = some w ∧ w.vals = c.mark.wanted ∧ w.seq = f.seq + 1))

/-- The header reads and page reads of the mount scan (R19, R60, R61). A block with the factory bad marker is BAD; one
whose pages all read ERASED is FREE; one with pages 0 ERASED and 127 not, or with some page between them not, is owed
an erase; any other is read on, the header of every page first and then each programmed page whole. A page that yields
a copy adds it to those found. When a block is done its unit goes on to the next but one, and ends above block 511.
Only the units' work, the scan and the block table change. -/
def Obligations.MountScanReads : Prop :=
  ∀ (s : State) (u : UnitNo) (r : ReadReport) (b : Busy) (a : PageAddr) (n : Nat) (ph : ScanPhase),
    s.env.rstLow = false → (s.ctl.units.get u).busy = some b → s.ctl.mount.scans.get u = some { block := n, phase := ph } →
    let found (c : Ctl) (st : BlockState) : Prop :=
      (c.block n).map (·.state) = some st ∧
      c.mount.scans.get u = if n + 2 < 512 then some { block := n + 2, phase := .first } else none
    let goesOn (c : Ctl) (ph : ScanPhase) (q : Request) : Prop :=
      c.mount.scans.get u = some { block := n, phase := ph } ∧ c.blocks = s.ctl.blocks ∧
      ∃ l, (c.units.get (unitOfBlock n)).queue = l ++ [q]
    let within (c : Ctl) : Prop :=
      c = { s.ctl with units := c.units, mount := c.mount, blocks := c.blocks } ∧ (c.units.get u).busy = none
    (b.req.who = .mountHeader → b.req.op = .headerRead a →
      let h := s.flash.readHeader a r s.env.fresh
      let more (p : Nat) (l : List PageInfo) : List PageInfo :=
        if h.allErased then l else l ++ [{ page := p, live := false, count := h.count }]
      ∃ c : Ctl,
        exec (.mountHeaderReadDone u r) s = .next
          { s with env := { s.env with fresh := s.env.fresh + 1 }, flash := s.flash.afterHeaderRead a r, ctl := c } ∧
        within c ∧
        (ph = .first →
          (h.badMark = true → found c .bad) ∧
          (h.badMark = false → h.allErased = true → goesOn c .last (mountHeaderReq n 127)) ∧
          (h.badMark = false → h.allErased = false → goesOn c (.headers 1 (more 0 [])) (mountHeaderReq n 1))) ∧
        (ph = .last →
          (h.allErased = true → goesOn c (.empty 1 true) (mountHeaderReq n 1)) ∧
          (h.allErased = false → found c .erasing)) ∧
        (∀ p clean, ph = .empty p clean →
          (p < 126 → goesOn c (.empty (p + 1) (clean && h.allErased)) (mountHeaderReq n (p + 1))) ∧
          (126 ≤ p → found c (if clean && h.allErased then .free else .erasing))) ∧
        (∀ p l, ph = .headers p l →
          (p < 127 → goesOn c (.headers (p + 1) (more p l)) (mountHeaderReq n (p + 1))) ∧
          (∀ x rest, 127 ≤ p → more p l = x :: rest → goesOn c (.pages (x :: rest) []) (mountPageReq n x.page)))) ∧
    (∀ p rest done, b.req.who = .mountPage → b.req.op = .pageRead a → ph = .pages (p :: rest) done →
      s.ctl.takeCompleted u Requester.isMountPage = none →
      let rd := s.flash.readPage a r s.env.fresh
      ∃ c : Ctl,
        exec (.mountPageReadDone u r) s = .next
          { s with env := { s.env with fresh := s.env.fresh + 1 }, flash := s.flash.afterRead a r, ctl := c } ∧
        within c ∧ c.mount.copies = s.ctl.mount.copies ++ (rd.copy s.env a).toList ∧
        (∀ q l, rest = q :: l → goesOn c (.pages rest (done ++ [p])) (mountPageReq n q.page)) ∧
        (rest = [] → found c .filled))

/-- The end of the mount (R59, R62 to R64, R69, R71, R91). Until both units have scanned their last block nothing
happens. Then the directory holds an entry for each copy kept, and no other: OWN for this station's pages, closed, and
REPLICA for others, at the copy's extent count, naming its page, or none for an own page all of whose copies are
damaged. The pool holds the FREE blocks in ascending order and then the blocks erased meanwhile; blocks 0 and 1 are
MARK. An own page found above the recorded ceiling raises the next seq above it. The confirmed frontier is the last
extent of the highest own page, else CLOSING with the release mark, else none. The station enters LISTENING with a
window of 60 ms, or LEAVING while PFW# is low, and the first presence tick falls due at once. -/
def Obligations.MountResolve : Prop :=
  ∀ s : State, s.env.rstLow = false →
    (s.ctl.station ≠ .mounting ∨ s.ctl.mount.started = false ∨ s.ctl.mount.scans ≠ #v[none, none] →
      exec .mountResolve s = .next s) ∧
    (s.ctl.station = .mounting → s.ctl.mount.started = true → s.ctl.mount.scans = #v[none, none] → s.ctl.dir = [] →
      (s.ctl.keptCopies s.env).length ≤ 65536 →
      ∃ c : Ctl, exec .mountResolve s = .next { s with ctl := c } ∧
        (s.env.pfwLow = false → c.station = .listening ∧ c.window = some 60) ∧
        (s.env.pfwLow = true → c.station = .leaving ∧ c.window = s.ctl.window) ∧
        c.presence = some 20 ∧ c.mount = Mount.reset ∧
        (∀ x ∈ s.ctl.keptCopies s.env, ∃ e ∈ c.dir, e.id = x.id) ∧
        (∀ e ∈ c.dir, ∃ x ∈ s.ctl.keptCopies s.env, e.id = x.id ∧
          e.role = (if x.id.origin = s.env.me then .own else .replica) ∧
          e.localPage = (if x.remoteOnly then none else some x.page) ∧ e.known = x.n ∧
          e.ownDepth s.env = (if x.remoteOnly then 0 else x.n) ∧
          e.closed = (decide (x.id.origin = s.env.me) || x.closed)) ∧
        c.pool = (s.ctl.blocks.filter (fun b =>
          decide (b.state = .free) && !s.ctl.mount.erased.contains b.num)).map (·.num) ++ s.ctl.mount.erased ∧
        (∃ l, c.blocks = { num := 0, state := .mark, next := 0, pages := [] } ::
          { num := 1, state := .mark, next := 0, pages := [] } :: l) ∧
        c.nextSeq = (if s.ctl.mount.found.vals.ceiling < s.ctl.highestOwn s.env then
            (if s.ctl.highestOwn s.env = topSeq then none else some (s.ctl.highestOwn s.env + 1))
          else s.ctl.nextSeq) ∧
        c.frontier = (match (c.dir.filter (fun e => decide (e.id.origin = s.env.me))).getLast? with
          | some e => .extent e.id.seq (e.known - 1)
          | none => if s.ctl.ownMark = 0 then .none else .closing s.ctl.ownMark) ∧
        c.peers = s.ctl.peers ∧ c.pair = s.ctl.pair ∧ c.gen = s.ctl.gen ∧ c.ownMark = s.ctl.ownMark ∧
        (s.ctl.mark.recordedSeq ≠ topSeq → c.port = s.ctl.port))

/-- The completion of a mark page's program, for a write in progress (R51, R52, R65, R66, R68, R70). After PASS its
values are the recorded ones, the failure count is 0, the release mark rises to its release, a RELEASE at or below it
ends OK, and a further write begins when the wanted values differ. When the release mark rises, while no frame is
DEFERRED, no transmission is owed and no entry above the mark is settled: the own entries at or below it are removed,
and no other; the Extent Table entries of those pages are RELEASED with their timers stopped, and leave from the head;
no EXTENT of those pages waits or is held; their copy jobs are cancelled, and no COPY of one that was not reading
waits or is held. After a first or second FAIL the same values are written again into the next page; after the third
the log is unwritable: no write, FROZEN-OWED set, an ACTIVE station FROZEN, a waiting RELEASE FAIL, and FAIL for an
APPEND that waits for a ceiling. -/
def Obligations.MarkProgramDone : Prop :=
  ∀ (s : State) (u : UnitNo) (r : ProgramReport) (b : Busy) (q : ProgramReq) (w : MarkWrite), s.env.rstLow = false →
    s.ctl.takeCompleted u Requester.isMark = none → (s.ctl.units.get u).busy = some b → b.req.who = .mark →
    b.req.op = .program q → s.ctl.mark.write = some w →
    let m := s.ctl.mark
    let failed := { s.ctl.port with act := .idle, result := [ResultCode.fail.byte], resultPos := 0,
                                    lastResult := ResultCode.fail.byte }
    ∃ (fl : Flash) (c : Ctl),
      exec (.markProgramDone u r) s = .next
        { s with env := { s.env with fresh := s.env.fresh + 1 }, flash := fl, ctl := c } ∧
      (∀ n, r = .pass n →
        c.ownMark = maxSeq s.ctl.ownMark w.vals.release ∧
        (m.wanted = w.vals →
          c.mark = { m with recorded := w.vals, recordedSeq := w.seq, failures := 0, next := m.next + 1, write := none }) ∧
        (m.wanted ≠ w.vals → m.frozenOwed = false → w.seq ≠ topSeq →
          c.mark = { m with recorded := w.vals, recordedSeq := w.seq, failures := 0, next := m.next + 1,
                            write := some { vals := m.wanted, seq := w.seq + 1, erasing := decide (128 ≤ m.next + 1) } }) ∧
        (∀ v, s.ctl.port.act = .releaseWait v → v ≤ w.vals.release →
          c.port = { s.ctl.port with act := .idle, result := [ResultCode.ok.byte], resultPos := 0,
                                     lastResult := ResultCode.ok.byte }) ∧
        (w.vals.release ≤ s.ctl.ownMark →
          c.dir = s.ctl.dir ∧ c.et = s.ctl.et ∧ c.blocks = s.ctl.blocks ∧ c.tx = s.ctl.tx ∧ c.jobs = s.ctl.jobs) ∧
        (s.ctl.ownMark < w.vals.release → (∀ v h, s.ctl.rxHeld v = some h → h.phase ≠ .deferred) → s.ctl.owed = [] →
          (∀ x ∈ s.ctl.et, w.vals.release < x.seq → x.settled = .none) →
          let gone (id : PageId) : Prop := id.origin = s.env.me ∧ id.seq ≤ w.vals.release
          let ofGone (b : TxBody) : Prop := ∃ seq i mask src, b = .extent seq i mask src ∧ seq ≤ w.vals.release
          c.dir = s.ctl.dir.filter (fun e => !decide (gone e.id)) ∧
          c.et = (s.ctl.et.map (fun x =>
              if x.seq ≤ w.vals.release then { x with settled := .released, timer := none } else x)).dropWhile
            (fun x => decide (x.settled = .released)) ∧
          (∀ x ∈ c.tx.entries, x.sending = false → ¬ ofGone x.body) ∧ (∀ b ∈ c.tx.held, ¬ ofGone b) ∧
          (∀ slot j, c.jobs.get slot = some j → gone j.page → j.cancelled = true) ∧
          (∀ slot j, s.ctl.jobs.get slot = some j → gone j.page → j.cancelled = false → j.state ≠ .reading →
            (∀ x ∈ c.tx.entries, x.sending = false → ∀ id t, x.body ≠ .copy id t slot) ∧
            (∀ b ∈ c.tx.held, ∀ id t, b ≠ .copy id t slot)))) ∧
      (r = .fail →
        (m.failures + 1 < 3 →
          c = Ctl.enter
            { s.ctl with
              units := vput s.ctl.units u { s.ctl.units.get u with busy := none },
              mark := { m with failures := m.failures + 1, next := m.next + 1,
                               write := some { w with erasing := decide (128 ≤ m.next + 1) } } }
            (if 128 ≤ m.next + 1 then { who := .markErase, op := .erase m.other.val, emergency := false }
             else markProgramReq m.block (m.next + 1))) ∧
        (3 ≤ m.failures + 1 →
          c.mark = { m with failures := m.failures + 1, next := m.next + 1, write := none, frozenOwed := true } ∧
          c.station = (if s.ctl.station = .active then .frozen else s.ctl.station) ∧
          (∀ v, s.ctl.port.act = .releaseWait v → c.port = failed) ∧
          (∀ p seq, s.ctl.port.act = .appendOpening p → s.ctl.nextSeq = some seq → m.recorded.ceiling < seq →
            c.port = failed) ∧
          c.dir = s.ctl.dir ∧ c.et = s.ctl.et ∧ c.blocks = s.ctl.blocks))

/-! ## Programs of own pages and of replicas (Sections 7 and 8) -/

/-- The completion of an own program (R47, R48, R110, R114, R115, R117). The unit becomes IDLE, and the membership,
the mark log, the read pair, the scan and the enabled causes stay. A FAIL makes the block RETIRED. A result for a page
that the entry no longer names is else discarded. After PASS a FLUSH that waits for an extent below the new count ends
OK; while no entry of the table is settled, none of the page becomes durable, no frame is DEFERRED and no more extents
are formed, the copy's depth is the new count, its extents' entries are PROGRAMMED, and nothing else in the directory
or the table changes. After FAIL, of the program in place or of a relocation, while the fill buffer holds the page and
a page is to be had, one program of every extent formed so far is requested into that page. With no page to be had
(R116): the page is closed, and it is remote-only at own depth 0; DROPPED is said to all with the own depth, unless
the failed program restored a copy already said dropped; a FLUSH that waits for an extent not PROGRAMMED, and an
APPEND in its data phase into the open page, end PROGRAM-FAIL; and, while no station can take the page's places, its
PENDING entries are FAILED, each with an extra place. -/
def Obligations.OwnProgramDone : Prop :=
  ∀ (s : State) (u : UnitNo) (r : ProgramReport) (b : Busy) (q : ProgramReq) (seq : Word) (moved : Bool) (n : Nat),
    s.env.rstLow = false → s.ctl.takeCompleted u Requester.isOwn = none → (s.ctl.units.get u).busy = some b →
    b.req.who = .own seq moved n → b.req.op = .program q → n ≤ 3 →
    let id := ownId s.env seq
    let names (e : Entry) : Prop := e.pendingExt ≠ none ∧ (if moved then e.relocPage else e.localPage) = some q.page
    let owedWaits : Prop := s.ctl.owed = [] ∨ s.ctl.tx.held.any TxBody.isAnyExtent = true
    ∃ (fl : Flash) (c : Ctl),
      exec (.ownProgramDone u r) s = .next
        { s with env := { s.env with fresh := s.env.fresh + 1 }, flash := fl, ctl := c } ∧
      c.still = s.ctl.still ∧ (c.units.get u).busy = none ∧
      ((∀ e, s.ctl.entry id = some e → ¬ names e) → (∀ v h, s.ctl.rxHeld v = some h → h.phase ≠ .deferred) → owedWaits →
        c.dir = s.ctl.dir ∧ c.et = s.ctl.et ∧ c.port = s.ctl.port ∧ c.tx = s.ctl.tx ∧
        (∀ k, r = .pass k → c.blocks = s.ctl.blocks) ∧
        (∀ bl, r = .fail → s.ctl.block q.page.block = some bl →
          bl.state = .openOwn ∨ bl.state = .openReplica ∨ bl.state = .filled →
          c.block q.page.block = some { bl with state := .retired })) ∧
      (∀ k e ext x, r = .pass k → s.ctl.entry id = some e → names e → s.ctl.port.act = .flushWait seq ext → ext < n →
        s.ctl.etEntry seq ext = some x →
        c.port = { s.ctl.port with act := .idle, result := ResultCode.ok.byte :: (bytes32 seq ++ [byteOf ext]), resultPos := 0,
                                   lastResult := ResultCode.ok.byte }) ∧
      (∀ k e, r = .pass k → s.ctl.entry id = some e → names e →
        (∀ v h, s.ctl.rxHeld v = some h → h.phase ≠ .deferred) → owedWaits →
        (∀ y ∈ s.ctl.et, y.settled = .none ∧
          (y.seq = seq → moved = false ∧ (e.setDepth s.env.me n).extentHolders y.ext < s.env.copies)) →
        (∀ fb p, s.ctl.fillOf seq = some (fb, p) → p.extents.length ≤ n) →
        let e' := { e.setDepth s.env.me n with
                      pendingExt := none, copyEnd := q.first + q.count, relocPage := none,
                      localPage := if moved then e.relocPage else e.localPage }
        c.entry id = some { e' with under := s.ctl.underCopied s.env e' } ∧
        (∀ i, i ≠ id → c.entry i = s.ctl.entry i) ∧
        c.et = s.ctl.et.map (fun y => if y.seq = seq ∧ y.ext < n then { y with prog := .programmed } else y)) ∧
      (∀ e fb p a, r = .fail → s.ctl.entry id = some e → names e → s.ctl.fillOf seq = some (fb, p) →
        (∀ v h, s.ctl.rxHeld v = some h → h.phase ≠ .deferred) →
        (let c0 := if moved then (s.ctl.retire q.page.block).killPages [some q.page] else s.ctl.retire q.page.block
         (∃ bl, c0.openBlock .own = some bl ∧ a = { block := bl.num, page := bl.next }) ∨
          (c0.openBlock .own = none ∧ c0.pool.head? = some a.block ∧ a.page = 0)) →
        (c.entry id).map (fun e => (e.relocPage, e.pendingExt)) = some (some a, some p.extents.length) ∧
        { who := .own seq true p.extents.length, emergency := false,
          op := .program { page := a, first := 0, count := p.formed,
                           identity := some (identityBytes (byteOf s.env.me.val) seq),
                           descs := p.extents.map (p.descriptor e.holderSet), source := .fill fb } } ∈
          (c.units.get (unitOfBlock a.block)).queue) ∧
      (∀ e fb p, r = .fail → s.ctl.entry id = some e → names e → s.ctl.fillOf seq = some (fb, p) →
        (∀ v h, s.ctl.rxHeld v = some h → h.phase ≠ .deferred) → owedWaits →
        (let c0 := if moved then (s.ctl.retire q.page.block).killPages [some q.page] else s.ctl.retire q.page.block
         c0.openBlock .own = none) → s.ctl.pool = [] → (e.closed = true ∨ p.formed = p.used) →
        (∀ y ∈ s.ctl.et, y.settled = .none ∧ (y.seq = seq → ∀ z ∈ y.places, z.extra = false ∧
          ∃ t, z.target = some t ∧ t.state ≠ .dropped ∧ t.state ≠ .awaitingCopy)) →
        e.extra = none → s.ctl.substitute s.env e = none →
        let d := e.ownDepth s.env
        let failed := { s.ctl.port with act := .idle, result := [ResultCode.programFail.byte], resultPos := 0,
                                        lastResult := ResultCode.programFail.byte }
        c.et = s.ctl.et.map (fun y => if y.seq = seq ∧ y.prog = .pending then
          { y with prog := .failed, places := y.places ++ [{ extra := true, target := none }] } else y) ∧
        c.tx = (if e.localPage = none then s.ctl.tx else s.ctl.tx.answer
          { addressee := 0xFF, origin := byteOf s.env.me.val, seq := seq, ext := byteOf e.known, flags := 0,
            verdict := Verdict.dropped.code, aux := byteOf d }) ∧
        (c.entry id).map (fun e => (e.localPage, e.closed, e.pendingExt, e.relocPage)) =
          some (if d = 0 then none else e.localPage, true, none, none) ∧
        (∀ ext x, s.ctl.port.act = .flushWait seq ext → s.ctl.etEntry seq ext = some x → x.prog ≠ .programmed →
          c.port = failed) ∧
        (∀ x i, s.ctl.port.act = .appendData x i → e.closed = false → c.port = failed))

/-- The completion of a program that carries a frame into a replica (R47, R48, R135 to R138, R140), in place or by
relocation, while the entry names its page and no other frame is DEFERRED. After PASS the copy's depth is the extent
count that the frame brought, its end slot that of the frame, and it is CLOSED when an added extent or the COPY says
so; PROGRAMMED is answered and the buffer is FREE. After FAIL, of the program in place or of a relocation program,
with a page to be had, the copy is moved: the relocation page is recorded, and the relocation program is requested
when the buffer holds every earlier extent, else first the read-back of them. The buffer holds them when a read-back
has put as many descriptors into it as the own depth: a COPY that carries every earlier slot and descriptor itself is
read back all the same (log 38, the model's reading of R137). With none to be had the entry is removed, LOST is
answered and the buffer is FREE. -/
def Obligations.ReplicaProgramDone : Prop :=
  ∀ (s : State) (u : UnitNo) (r : ProgramReport) (i : Instr) (reloc : Bool) (kind : Requester → Bool) (b : Busy)
    (q : ProgramReq) (v : Fin 4) (h : RxHeld) (e : Entry), s.env.rstLow = false →
    (i = .replicaProgramDone u r ∧ reloc = false ∧ kind = (fun w => w.replicaBuf.isSome) ∧ b.req.who = .replica v ∨
      i = .replicaRelocationDone u r ∧ reloc = true ∧ kind = (fun w => w.relocBuf.isSome) ∧
        b.req.who = .replicaReloc v) →
    s.ctl.takeCompleted u kind = none → (s.ctl.units.get u).busy = some b → b.req.op = .program q →
    s.ctl.rx.get v = .held h → h.phase ≠ .deferred → (∀ w x, s.ctl.rxHeld w = some x → x.phase ≠ .deferred) →
    h.frame.id h.src = some e.id → s.ctl.entry e.id = some e → e.role = .replica → e.id.origin ≠ s.env.me →
    e.pendingExt ≠ none → (if reloc then e.relocPage else e.localPage) = some q.page →
    let answer (verdict : Verdict) : AnswerBody :=
      { addressee := byteOf h.src.val, origin := byteOf e.id.origin.val, seq := e.id.seq, ext := byteOf h.frame.number,
        flags := bitOf h.frame.isCopy 0, verdict := verdict.code, aux := byteOf 0 }
    let m := e.ownDepth s.env
    let c0 := if reloc then (s.ctl.retire q.page.block).killPages [some q.page] else s.ctl.retire q.page.block
    ∃ (fl : Flash) (c : Ctl),
      exec i s = .next { s with env := { s.env with fresh := s.env.fresh + 1 }, flash := fl, ctl := c } ∧
      c.still = s.ctl.still ∧ (c.units.get u).busy = none ∧ c.port = s.ctl.port ∧ c.et = s.ctl.et ∧ c.fill = s.ctl.fill ∧
      (∀ k, r = .pass k →
        let e' := { e.setDepth s.env.me (e.pendingExt.getD 0) with
                      pendingExt := none, closed := e.closed || h.frame.closes m, copyEnd := h.frame.last,
                      relocPage := none, localPage := if reloc then e.relocPage else e.localPage }
        c.entry e.id = some { e' with under := s.ctl.underCopied s.env e' } ∧
        (∀ j, j ≠ e.id → c.entry j = s.ctl.entry j) ∧ c.tx = s.ctl.tx.answer (answer .programmed) ∧
        c.rx = vput s.ctl.rx v .free ∧ c.jobs = s.ctl.jobs) ∧
      (r = .fail →
        (∀ a, ((∃ bl, c0.openBlock .replica = some bl ∧ a = { block := bl.num, page := bl.next }) ∨
            (c0.openBlock .replica = none ∧ c0.pool.head? = some a.block ∧ a.page = 0)) →
          (c.entry e.id).map (·.relocPage) = some (some a) ∧ c.tx = s.ctl.tx ∧ c.jobs = s.ctl.jobs ∧
          (m ≤ h.back.length →
            c.rx = vput s.ctl.rx v (.held { h with phase := .relocating }) ∧
            ∃ l, (c.units.get (unitOfBlock a.block)).queue = l ++
              [{ who := .replicaReloc v, emergency := false,
                 op := .program { page := a, first := 0, count := h.frame.last, identity := some e.id.group,
                                  descs := (List.range m).zip (h.back.take m) ++
                                    (h.frame.added m).map (h.descriptor s.env e.id),
                                  source := .rx v } }]) ∧
          (∀ p, h.back.length < m → e.localPage = some p →
            c.rx = vput s.ctl.rx v (.held { h with phase := .readingBack }) ∧
            ∃ l, (c.units.get (unitOfBlock p.block)).queue = l ++
              [{ who := .replicaReadBack v, op := .pageRead p, emergency := false }])) ∧
        (c0.openBlock .replica = none → c0.pool = [] →
          (∀ slot j, s.ctl.jobs.get slot = some j → j.page ≠ e.id) →
          c.dir = s.ctl.dir.filter (fun y => y.id != e.id) ∧ c.tx = s.ctl.tx.answer (answer .lost) ∧
          c.rx = vput s.ctl.rx v .free ∧ c.jobs = s.ctl.jobs))

/-! ## Reads of the engines (Sections 7 to 9) -/

/-- The read-back of an own page for one waiting transmission finds it sound (R118): the read-back buffer holds the
page, and the EXTENT of that transmission is requested from it, with the fields of its descriptor; the attempt is
counted now (log 17, the model's reading of R118).
A copy job's page read (R53, R55, R145, R146, R149). The slot of a cancelled job is FREE. A sound read of the page
that the entry still names fixes the job's extent count and closed mark, loads the staging buffer, and requests its
COPY, counted as an attempt; while another COPY is held the COPY is owed. A damaged replica is dropped, said DROPPED
to all, and the job ends. A page that the entry has left is read again at its present place (log 34, the model's
reading of R145). -/
def Obligations.OwnAndCopyReadsDone : Prop :=
 (∀ (s : State) (u : UnitNo) (r : ReadReport) (b : Busy) (a : PageAddr) (e : Entry) (x : ETEntry) (w : Wanted) (d : ReadDesc),
    s.env.rstLow = false → s.ctl.takeCompleted u (fun w => w.readBackSeq.isSome) = none →
    (s.ctl.units.get u).busy = some b → b.req.who = .ownReadBack w.seq → b.req.op = .pageRead a →
    s.ctl.ownEntry s.env w.seq = some e → e.localPage = some a → 1 ≤ e.ownDepth s.env →
    let rd := s.flash.readPage a r s.env.fresh
    rd.unsound (e.ownDepth s.env) e.copyEnd = false → rd.validDesc w.ext = some d →
    s.ctl.readBack.page = some w.seq → s.ctl.readBack.wants = [w] → s.ctl.owed = [] → s.ctl.fillOf w.seq = none →
    s.ctl.etEntry w.seq w.ext = some x → x.settled = .none → w.mask ≠ 0 → w.mask &&& x.awaiting = w.mask →
    s.ctl.tx.waitingExtent w.seq w.ext = false → s.ctl.tx.held = [] →
    ∃ c : Ctl,
      exec (.ownReadBackDone u r) s = .next
        { s with env := { s.env with fresh := s.env.fresh + 1 }, flash := s.flash.afterRead a r, ctl := c } ∧
      c.still = s.ctl.still ∧ (c.units.get u).busy = none ∧
      c.tx = s.ctl.tx.request (.extent w.seq d.info w.mask .readBack) ∧
      c.readBack = { page := some w.seq, reading := false, image := rd.image, wants := [] } ∧
      c.dir = s.ctl.dir ∧ c.port = s.ctl.port ∧
      c.et = s.ctl.et.map (fun y =>
        if y.seq = w.seq ∧ y.ext = w.ext then
          { y.onRecords (fun t =>
              if has w.mask t.station && decide (t.state = .awaiting) then { t with attempts := t.attempts + 1 } else t) with
            timer := none }
        else y)) ∧
 (∀ (s : State) (u : UnitNo) (r : ReadReport) (b : Busy) (a : PageAddr) (slot : Fin 2) (j : Job) (e : Entry),
    s.env.rstLow = false → s.ctl.takeCompleted u (fun w => w.jobSlot.isSome) = none →
    (s.ctl.units.get u).busy = some b → b.req.who = .copyJob slot → b.req.op = .pageRead a →
    s.ctl.jobs.get slot = some j → j.state = .reading → s.ctl.entry j.page = some e →
    let rd := s.flash.readPage a r s.env.fresh
    let n := e.ownDepth s.env
    let idle := { s.ctl with units := vput s.ctl.units u { s.ctl.units.get u with busy := none } }
    let answers (c : Ctl) : Prop :=
      exec (.copyReadDone u r) s = .next
        { s with env := { s.env with fresh := s.env.fresh + 1 }, flash := s.flash.afterRead a r, ctl := c }
    let sound : Prop := e.localPage = some a ∧ 1 ≤ n ∧ rd.unsound n e.copyEnd = false
    let loaded (owed : Bool) (attempts : Nat) : Job :=
      { j with n := some n, closed := e.closed && decide (n = e.known), image := rd.image, state := .queued, owed := owed,
               timer := none, attempts := attempts }
    (j.cancelled = true → sound ∨ e.localPage ≠ some a → answers { idle with jobs := vput s.ctl.jobs slot none }) ∧
    (j.cancelled = false →
      (sound → s.ctl.tx.held.any TxBody.isAnyCopy = false →
        answers { idle with jobs := vput s.ctl.jobs slot (some (loaded false (j.attempts + 1))),
                            tx := s.ctl.tx.request (.copy j.page j.target slot) }) ∧
      (sound → s.ctl.tx.held.any TxBody.isAnyCopy = true →
        answers { idle with jobs := vput s.ctl.jobs slot (some (loaded true j.attempts)) }) ∧
      (∀ p, e.localPage = some p → p ≠ a →
        answers (Ctl.enter idle { who := .copyJob slot, op := .pageRead p, emergency := false })) ∧
      (e.role = .replica → e.localPage = some a → 1 ≤ n → rd.unsound n e.copyEnd = true → j.purpose = .repair →
        (∀ w x, s.ctl.rxHeld w = some x → x.phase ≠ .deferred) →
        (∀ t i, s.ctl.jobs.get t = some i → t ≠ slot → i.page ≠ j.page) →
        ∃ c : Ctl, answers c ∧ c.still = s.ctl.still ∧ c.port = s.ctl.port ∧
          c.dir = s.ctl.dir.filter (fun y => y.id != j.page) ∧ c.jobs = vput s.ctl.jobs slot none ∧
          c.tx = s.ctl.tx.answer { addressee := 0xFF#8, origin := byteOf j.page.origin.val, seq := j.page.seq,
                                   ext := byteOf n, flags := 0, verdict := Verdict.dropped.code, aux := byteOf 0 })))

/-- The relocation read-back of the replica intake (R137, R138), while the entry names the page read and a relocation
page. A read that finds the parts the copy holds readable adds the slots below the frame's first, and the descriptors,
to the buffer, and the relocation program is requested. One that does not drops the replica: its entry is removed,
LOST is answered and the buffer is FREE. -/
def Obligations.RelocationReadBackDone : Prop :=
  ∀ (s : State) (u : UnitNo) (r : ReadReport) (b : Busy) (a t : PageAddr) (v : Fin 4) (h : RxHeld) (e : Entry),
    s.env.rstLow = false → s.ctl.takeCompleted u (fun w => w.readBackBuf.isSome) = none →
    (s.ctl.units.get u).busy = some b → b.req.who = .replicaReadBack v → b.req.op = .pageRead a →
    s.ctl.rx.get v = .held h → h.phase ≠ .deferred → (∀ w x, s.ctl.rxHeld w = some x → x.phase ≠ .deferred) →
    h.frame.id h.src = some e.id → s.ctl.entry e.id = some e → e.role = .replica → e.pendingExt ≠ none →
    e.localPage = some a → e.relocPage = some t →
    let rd := s.flash.readPage a r s.env.fresh
    let m := e.ownDepth s.env
    let h' := { h with
      image := Memory.write clearByte h.image 0 (Memory.readRun erasedByte rd.image 0 (h.frame.first * 512)),
      back := (List.range m).map (fun i => imagePart rd.image (placePart i)) }
    ∃ c : Ctl,
      exec (.relocationReadBackDone u r) s = .next
        { s with env := { s.env with fresh := s.env.fresh + 1 }, flash := s.flash.afterRead a r, ctl := c } ∧
      c.still = s.ctl.still ∧ (c.units.get u).busy = none ∧ c.port = s.ctl.port ∧ c.et = s.ctl.et ∧
      (rd.uncorrectableIn m e.copyEnd = false →
        c = Ctl.enter
          { s.ctl with units := vput s.ctl.units u { s.ctl.units.get u with busy := none },
                       rx := vput s.ctl.rx v (.held { h' with phase := .relocating }) }
          { who := .replicaReloc v, emergency := false,
            op := .program { page := t, first := 0, count := h.frame.last, identity := some e.id.group,
                             descs := (List.range m).zip (h'.back.take m) ++
                               (h.frame.added m).map (h'.descriptor s.env e.id),
                             source := .rx v } }) ∧
      (rd.uncorrectableIn m e.copyEnd = true → (∀ slot j, s.ctl.jobs.get slot = some j → j.page ≠ e.id) →
        c.dir = s.ctl.dir.filter (fun y => y.id != e.id) ∧
        c.tx = s.ctl.tx.answer { addressee := byteOf h.src.val, origin := byteOf e.id.origin.val, seq := e.id.seq,
                                 ext := byteOf h.frame.number, flags := bitOf h.frame.isCopy 0,
                                 verdict := Verdict.lost.code, aux := byteOf 0 } ∧
        c.rx = vput s.ctl.rx v .free ∧ c.jobs = s.ctl.jobs)

/-! ## Reads for the port (R53, R166 to R169) -/

/-- The page read of a READ completes (R53, R160, R167). NOT-HELD for a page that was DEAD at its grant, and for a
slot at or past the end of those held when the read was requested; NOT-RECORD for a slot that is no record start; OK
with the header fields and the highest corrected count, the payload ready, when it is one; DAMAGED when a part that
the copy holds is unsound (log 35), the buffer given up. The port's wait ends. -/
def Obligations.PortReadDone : Prop :=
  ∀ (s : State) (u : UnitNo) (r : ReadReport) (pb : Fin 2) (id : PageId) (held slot : Nat), s.env.rstLow = false →
    s.ctl.pair.get pb = .loading id held → s.ctl.port.act = .readWait pb slot →
    let kind := s.ctl.isPortRead PortRole.isRead
    let ends (code : ResultCode) (fields : List Byte) (load : Option Payload) : Port :=
      { s.ctl.port with act := .idle, result := code.byte :: fields, resultPos := 0, lastResult := code.byte,
                        payload := load }
    let pair (x : PairBuf) := vput s.ctl.pair pb x
    (∀ y c1, s.ctl.takeCompleted u kind = some (y, c1) → y.req.who = .port pb id →
      exec (.portReadDone u r) s = .next
        { s with ctl := { s.ctl with completed := s.ctl.completed.erase y, pair := pair .empty,
                                     port := ends .notHeld [] s.ctl.port.payload } }) ∧
    (∀ b a, s.ctl.takeCompleted u kind = none → (s.ctl.units.get u).busy = some b → b.req.who = .port pb id →
      b.req.op = .pageRead a →
      let rd := s.flash.readPage a r s.env.fresh
      let damaged : Bool :=
        match s.ctl.entry id with
        | some e =>
          if e.localPage = some a ∧ 1 ≤ e.ownDepth s.env then rd.unsound (e.ownDepth s.env) e.copyEnd
          else rd.unsound held (imageEnd rd.image held)
        | none => rd.unsound held (imageEnd rd.image held)
      let answers (c : Ctl) : Prop :=
        exec (.portReadDone u r) s = .next
          { s with env := { s.env with fresh := s.env.fresh + 1 }, flash := s.flash.afterRead a r, ctl := c }
      let idle := { s.ctl with units := vput s.ctl.units u { s.ctl.units.get u with busy := none } }
      let h := recordAt rd.image slot
      (damaged = false →
        (imageEnd rd.image held ≤ slot →
          answers { idle with pair := pair .empty, port := ends .notHeld [] s.ctl.port.payload }) ∧
        (slot < imageEnd rd.image held → recordStart rd.image held slot = false →
          answers { idle with pair := pair .empty, port := ends .notRecord [] s.ctl.port.payload }) ∧
        (slot < imageEnd rd.image held → recordStart rd.image held slot = true →
          answers { idle with
            pair := pair (.loaded id held rd.image rd.highest),
            port := ends .ok
              (bytes16 h.length ++ (bytes16 h.tag ++ (bytes16 h.gen ++ (bytes32 h.stamp ++
                [h.slots, h.index, byteOf rd.highest]))))
              (if h.length.toNat = 0 then none
               else some { buf := pb, slot := slot, length := h.length.toNat, pos := 0 }) })) ∧
      (damaged = true →
        ∃ c : Ctl, answers c ∧ c.still = Ctl.still { s.ctl with pair := pair .empty } ∧
          c.port = ends .damaged [] s.ctl.port.payload ∧
          (∀ e, s.ctl.entry id = some e → e.localPage = some a → e.role = .replica → 1 ≤ e.ownDepth s.env →
            (∀ w x, s.ctl.rxHeld w = some x → x.phase ≠ .deferred) → c.entry id = none)))

/-- The first page read of a SCAN completes (R53, R168, R169). A sound page becomes current with its position at slot
0, and the SCAN ends OK with its locator; a damaged one ends it DAMAGED with the locator, the buffer EMPTY; in both
cases the prefetch goes on from there. A page whose entry has gone or has moved is judged by the extents held at the
request (log 35, the model's reading of R53). A page that was DEAD at its grant is passed over: the read of the next
one held is requested, or the SCAN ends END. -/
def Obligations.ScanReadDone : Prop :=
  ∀ (s : State) (u : UnitNo) (r : ReadReport) (pb : Fin 2) (id : PageId) (held : Nat) (sc : Machine.Scan),
    s.env.rstLow = false →
    s.ctl.pair.get pb = .loading id held → s.ctl.port.act = .scanWait pb → s.ctl.scan = some sc → sc.current = pb →
    let kind := s.ctl.isPortRead (fun x => decide (x = .scan))
    let ends (code : ResultCode) (fields : List Byte) : Port :=
      { s.ctl.port with act := .idle, result := code.byte :: fields, resultPos := 0, lastResult := code.byte }
    (∀ y c1, s.ctl.takeCompleted u kind = some (y, c1) → y.req.who = .port pb id →
      let found := s.ctl.dir.find? (fun e =>
        decide (sc.cursor ≤ e.id.key) && decide (e.id.origin = sc.origin) &&
          (e.localPage.isSome && decide (1 ≤ e.ownDepth s.env)))
      (found = none →
        exec (.scanReadDone u r) s = .next
          { s with ctl := { s.ctl with completed := s.ctl.completed.erase y, scan := none,
                                       pair := vput s.ctl.pair pb .empty, port := ends .ended [] } }) ∧
      (∀ e a, found = some e → e.localPage = some a →
        exec (.scanReadDone u r) s = .next
          { s with
            ctl := Ctl.enter
              { s.ctl with completed := s.ctl.completed.erase y, scan := some { sc with cursor := e.id.key + 1 },
                           pair := vput s.ctl.pair pb (.loading e.id (e.ownDepth s.env)) }
              { who := .port pb e.id, op := .pageRead a, emergency := false } })) ∧
    (∀ b a, s.ctl.takeCompleted u kind = none → (s.ctl.units.get u).busy = some b → b.req.who = .port pb id →
      b.req.op = .pageRead a →
      let rd := s.flash.readPage a r s.env.fresh
      let damaged : Bool :=
        match s.ctl.entry id with
        | some e =>
          if e.localPage = some a ∧ 1 ≤ e.ownDepth s.env then rd.unsound (e.ownDepth s.env) e.copyEnd
          else rd.unsound held (imageEnd rd.image held)
        | none => rd.unsound held (imageEnd rd.image held)
      (damaged = false →
        ∃ (units : Vector UnitState 2) (pair : Vector PairBuf 2) (cursor : Nat),
          exec (.scanReadDone u r) s = .next
            { s with env := { s.env with fresh := s.env.fresh + 1 }, flash := s.flash.afterRead a r,
                     ctl := { s.ctl with units := units, pair := pair,
                                         scan := some { sc with position := some 0, cursor := cursor },
                                         port := ends .ok (locator id 0) } } ∧
          (units.get u).busy = none ∧ pair.get pb = .loaded id held rd.image rd.highest) ∧
      (damaged = true →
        ∃ (c : Ctl) (cursor : Nat),
          exec (.scanReadDone u r) s = .next
            { s with env := { s.env with fresh := s.env.fresh + 1 }, flash := s.flash.afterRead a r, ctl := c } ∧
          c.port = ends .damaged (locator id 0) ∧ c.pair.get pb = .empty ∧ c.scan = some { sc with cursor := cursor } ∧
          c.mark = s.ctl.mark ∧ c.peers = s.ctl.peers ∧ c.station = s.ctl.station))

/-- A prefetch read, and a read into an ABANDONED buffer, complete (R53, R166, R169, R172). A sound prefetched page is
LOADED; when the SCAN NEXT waits for it, it delivers the record at slot 0. A damaged one leaves the buffer DAMAGED
after R53, and ends a waiting SCAN NEXT DAMAGED with the locator. For a page that was DEAD at the grant, the read of
the next one held is requested, or END is left in the buffer. An ABANDONED buffer becomes EMPTY, damage that the read
found being reported (R53): a PORT RESET that waits ends, and a READ that waits requests its page into it, or ends
NOT-HELD. What is damaged is judged by the copy while the entry still names the page read; of a prefetched page that
it no longer names, by the extents held when the read was requested (log 35, the model's reading). -/
def Obligations.PrefetchAbandonedReadDone : Prop :=
  ∀ (s : State) (u : UnitNo) (r : ReadReport) (pb : Fin 2) (id : PageId) (held : Nat), s.env.rstLow = false →
    let prefetches := s.ctl.isPortRead (fun x => decide (x = .prefetch))
    let abandons := s.ctl.isPortRead (fun x => decide (x = .abandoned))
    let ends (code : ResultCode) (fields : List Byte) : Port :=
      { s.ctl.port with act := .idle, result := code.byte :: fields, resultPos := 0, lastResult := code.byte }
    let pair (x : PairBuf) := vput s.ctl.pair pb x
    let prefetching : Prop :=
      s.ctl.pair.get pb = .loading id held ∧ (∀ slot, s.ctl.port.act ≠ .readWait pb slot) ∧ s.ctl.port.act ≠ .scanWait pb
    (∀ y c1 sc, prefetching → s.ctl.takeCompleted u prefetches = some (y, c1) → y.req.who = .port pb id →
      s.ctl.scan = some sc → (s.ctl.port.act = .scanNextWait → sc.current = pb) →
      let found := s.ctl.dir.find? (fun e =>
        decide (sc.cursor ≤ e.id.key) && decide (e.id.origin = sc.origin) &&
          (e.localPage.isSome && decide (1 ≤ e.ownDepth s.env)))
      let rest := { s.ctl with completed := s.ctl.completed.erase y }
      let answers (c : Ctl) : Prop := exec (.prefetchReadDone u r) s = .next { s with ctl := c }
      (∀ e a, found = some e → e.localPage = some a →
        answers (Ctl.enter
          { rest with scan := some { sc with cursor := e.id.key + 1 }, pair := pair (.loading e.id (e.ownDepth s.env)) }
          { who := .port pb e.id, op := .pageRead a, emergency := false })) ∧
      (found = none → s.ctl.port.act ≠ .scanNextWait → answers { rest with pair := pair .ended }) ∧
      (found = none → s.ctl.port.act = .scanNextWait →
        answers { rest with pair := pair .ended, scan := none, port := ends .ended [] })) ∧
    (∀ b a, (s.ctl.units.get u).busy = some b → b.req.who = .port pb id → b.req.op = .pageRead a →
      let rd := s.flash.readPage a r s.env.fresh
      let idle := { s.ctl with units := vput s.ctl.units u { s.ctl.units.get u with busy := none } }
      let next (c : Ctl) : State :=
        { s with env := { s.env with fresh := s.env.fresh + 1 }, flash := s.flash.afterRead a r, ctl := c }
      let named (e : Entry) : Prop := e.localPage = some a ∧ 1 ≤ e.ownDepth s.env
      let dropped (c : Ctl) : Prop :=
        ∀ e, s.ctl.entry id = some e → named e → e.role = .replica →
          (∀ w x, s.ctl.rxHeld w = some x → x.phase ≠ .deferred) → c.entry id = none
      (prefetching → s.ctl.takeCompleted u prefetches = none →
        let answers (c : Ctl) : Prop := exec (.prefetchReadDone u r) s = .next (next c)
        let damaged : Bool :=
          match s.ctl.entry id with
          | some e =>
            if e.localPage = some a ∧ 1 ≤ e.ownDepth s.env then rd.unsound (e.ownDepth s.env) e.copyEnd
            else rd.unsound held (imageEnd rd.image held)
          | none => rd.unsound held (imageEnd rd.image held)
        (damaged = false →
          (s.ctl.port.act ≠ .scanNextWait → answers { idle with pair := pair (.loaded id held rd.image rd.highest) }) ∧
          (∀ sc, s.ctl.port.act = .scanNextWait → s.ctl.scan = some sc → sc.current = pb →
            let h := recordAt rd.image 0
            ∃ (units : Vector UnitState 2) (pair : Vector PairBuf 2) (cursor : Nat),
              answers { s.ctl with
                units := units, pair := pair,
                scan := some { sc with position := nextStart rd.image held 0, cursor := cursor },
                port := { s.ctl.port with
                  act := .idle,
                  result := ResultCode.ok.byte :: (locator id 0 ++ (bytes16 h.length ++ (bytes16 h.tag ++
                    (bytes16 h.gen ++ (bytes32 h.stamp ++ [h.slots, h.index, byteOf rd.highest]))))),
                  resultPos := 0, lastResult := ResultCode.ok.byte,
                  payload := if h.length.toNat = 0 then none
                             else some { buf := pb, slot := 0, length := h.length.toNat, pos := 0 } } } ∧
              (units.get u).busy = none ∧ pair.get pb = .loaded id held rd.image rd.highest)) ∧
        (damaged = true →
          ((s.ctl.port.act = .idle ∨ ∃ cmd args, s.ctl.port.act = .collecting cmd args) →
            ∃ c : Ctl, answers c ∧ c.still = Ctl.still { s.ctl with pair := pair (.damaged id) } ∧ dropped c ∧
              c.port = s.ctl.port) ∧
          (∀ sc, s.ctl.port.act = .scanNextWait → s.ctl.scan = some sc → sc.current = pb →
            ∃ (c : Ctl) (cursor : Nat),
              answers c ∧ c.port = ends .damaged (locator id 0) ∧ c.pair.get pb = .empty ∧ dropped c ∧
              c.scan = some { sc with cursor := cursor } ∧
              c.mark = s.ctl.mark ∧ c.peers = s.ctl.peers ∧ c.station = s.ctl.station))) ∧
      (s.ctl.pair.get pb = .abandoned id held → s.ctl.takeCompleted u abandons = none →
        let answers (c : Ctl) : Prop := exec (.abandonedReadDone u r) s = .next (next c)
        ((∀ e, s.ctl.entry id = some e → named e → rd.unsound (e.ownDepth s.env) e.copyEnd = false) →
          (s.ctl.port.act = .resetWait →
            answers { idle with pair := pair .empty, port := { s.ctl.port with act := .idle } }) ∧
          (s.ctl.port.act = .idle → s.ctl.scan = none → answers { idle with pair := pair .empty }) ∧
          (∀ w slot, s.ctl.port.act = .readBufWait w slot →
            ((∀ e, s.ctl.entry w = some e → e.localPage = none ∨ e.ownDepth s.env = 0) →
              answers { idle with pair := pair .empty, port := ends .notHeld [] }) ∧
            (∀ e p, s.ctl.entry w = some e → e.localPage = some p → 1 ≤ e.ownDepth s.env →
              answers (Ctl.enter
                { idle with pair := pair (.loading e.id (e.ownDepth s.env)),
                            port := { s.ctl.port with act := .readWait pb slot } }
                { who := .port pb e.id, op := .pageRead p, emergency := false })))) ∧
        (∀ e, s.ctl.entry id = some e → named e → rd.unsound (e.ownDepth s.env) e.copyEnd = true →
          (s.ctl.port.act = .resetWait ∨ s.ctl.port.act = .idle ∧ s.ctl.scan = none) →
          ∃ c : Ctl, answers c ∧ c.still = Ctl.still { s.ctl with pair := pair .empty } ∧ dropped c ∧
            c.port = { s.ctl.port with act := .idle })))

/-! ## Timers (Sections 6, 7 and 9) -/

/-- The presence timer's tick, and a missed count at its threshold (R90, R91, R94, R96, R98). Every 20 ms a PRESENCE
of the contents of R90 is requested and the missed count of every PRESENT or SILENT peer rises by 1, to at most 10;
with the timer stopped, or less than 20 ms on it, nothing happens. A PRESENT peer with 3 missed becomes SILENT. A
SILENT peer with 10 missed becomes DEPARTED: its report request is cleared, its copy jobs are cancelled, DEPARTURE(p)
stands in the repair list and MEMBERS is handed; with the own-extent engine at rest and no job or task of the peer,
nothing else changes. -/
def Obligations.PresenceTimer : Prop :=
  ∀ (s : State), s.env.rstLow = false →
    (s.ctl.presence = none ∨ (∃ n, s.ctl.presence = some n ∧ n < 20) → exec .presenceTick s = .next s) ∧
    (∀ n, s.ctl.presence = some n → 20 ≤ n →
      ∃ peers : Vector Peer 8,
        exec .presenceTick s = .next
          { s with ctl := { s.ctl with
            presence := some (n - 20), peers := peers,
            tx := s.ctl.tx.presence
              { code := s.ctl.station.presenceCode,
                flags := bitOf (!s.ctl.replicaRoom) 0 ||| bitOf (decide (s.ctl.station = .leaving)) 1,
                copies := byteOf s.env.copies, gen := s.ctl.gen, mark := s.ctl.ownMark,
                pool := halfOf s.ctl.pool.length,
                mask := maskOf (allStations.filter (fun p =>
                  decide (p ≠ s.env.me) && (s.ctl.peers.get p).reportReq)) } } } ∧
        ∀ p, peers.get p =
          if (s.ctl.peers.get p).state = .present ∨ (s.ctl.peers.get p).state = .silent then
            { s.ctl.peers.get p with missed := min ((s.ctl.peers.get p).missed + 1) 10 }
          else s.ctl.peers.get p) ∧
    (∀ p : Station,
      let x := s.ctl.peers.get p
      (x.state = .present → 3 ≤ x.missed →
        exec (.missedCountThreshold p) s = .next
          { s with ctl := { s.ctl with peers := vput s.ctl.peers p { x with state := .silent } } }) ∧
      (x.state = .silent → 10 ≤ x.missed →
        let gone := vput s.ctl.peers p { x with state := .departed, reportReq := false, received := none }
        (∃ c : Ctl,
          exec (.missedCountThreshold p) s = .next { s with ctl := c } ∧
          c.still = Ctl.still { s.ctl with peers := gone } ∧ c.alerts.pending &&& 0x04#8 = 0x04#8 ∧
          (∃ t ∈ c.repair, t.kind = .departure p) ∧
          ∀ slot j, c.jobs.get slot = some j → j.target = p → j.cancelled = true) ∧
        (s.ctl.atRest → (∀ slot j, s.ctl.jobs.get slot = some j → j.target ≠ p) →
          (∀ t ∈ s.ctl.repair, t.kind ≠ .departure p) →
          exec (.missedCountThreshold p) s = .next
            { s with ctl := { s.ctl with
              peers := gone,
              repair := s.ctl.repair ++ [{ kind := .departure p, cursor := 0, waiting := false }],
              alerts := { s.ctl.alerts with pending := s.ctl.alerts.pending ||| 0x04#8 } } })) ∧
      (¬ (x.state = .present ∧ 3 ≤ x.missed) → ¬ (x.state = .silent ∧ 10 ≤ x.missed) →
        exec (.missedCountThreshold p) s = .next s))

/-- The end of the listening window (R69, R70, R99, R100, R154). In LISTENING with the window run out, the station
becomes FROZEN, handing FAULT, when FROZEN-OWED is set, and else ACTIVE. At the end of the first window DEPARTURE(p)
is appended for every peer p still ABSENT, in ascending order (log 51, the model's choice). A pending holdings series
starts, with the next number, when none is in progress. At any other time nothing happens. -/
def Obligations.ListeningWindowEnd : Prop :=
  ∀ (s : State), s.env.rstLow = false →
    (s.ctl.station ≠ .listening ∨ s.ctl.window ≠ some 0 → exec .listeningWindowEnd s = .next s) ∧
    (s.ctl.station = .listening → s.ctl.window = some 0 →
      let absent := allStations.filter (fun p => decide (p ≠ s.env.me) && decide ((s.ctl.peers.get p).state = .absent))
      (s.ctl.firstWindow = true → ∀ t ∈ s.ctl.repair, ∀ p ∈ absent, t.kind ≠ .departure p) →
      let entered : Ctl :=
        { s.ctl with
          station := if s.ctl.mark.frozenOwed then .frozen else .active, window := none, firstWindow := false,
          repair := if s.ctl.firstWindow then
              s.ctl.repair ++ absent.map (fun p => { kind := .departure p, cursor := 0, waiting := false })
            else s.ctl.repair,
          alerts := if s.ctl.mark.frozenOwed then
              { s.ctl.alerts with pending := s.ctl.alerts.pending ||| 0x10#8 }
            else s.ctl.alerts }
      (s.ctl.holdings.pending = false ∨ s.ctl.holdings.series ≠ none →
        exec .listeningWindowEnd s = .next { s with ctl := entered }) ∧
      (s.ctl.holdings.pending = true → s.ctl.holdings.series = none →
        ∃ (series : Series) (flags : Byte) (items : List HoldItem),
          series.num = s.ctl.holdings.lastNum + 1 ∧ series.group = 0 ∧ series.index = 1 ∧
          s.ctl.formsHoldings s.env
            { num := s.ctl.holdings.lastNum + 1, group := 0, cursor := 0, index := 0, lastOrigin := false,
              lastSeries := false } series flags items ∧
          exec .listeningWindowEnd s = .next
            { s with ctl := { entered with
              holdings := { s.ctl.holdings with
                pending := false, lastNum := s.ctl.holdings.lastNum + 1, series := some series },
              tx := s.ctl.tx.request (.holdings
                { series := s.ctl.holdings.lastNum + 1, origin := byteOf 0, index := halfOf 0, flags := flags,
                  items := items }) } }))

/-- The answer timer of an Extent Table entry runs out (R119, R122). Not at its deadline, or outside ACTIVE and
FROZEN, nothing happens. When every AWAITING record has been tried fewer than 4 times and the page stands in a fill
buffer, one EXTENT is requested for them all and their attempts are counted. A record tried 4 times is LOST: when it
is the page's one target, waits for no job, and no station is PRESENT to take its place, its record is DROPPED, the
station leaves the targets and joins the excluded set. -/
def Obligations.AnswerTimerExpiry : Prop :=
  ∀ (s : State) (seq : Word) (ext : Fin 3), s.env.rstLow = false →
    (s.ctl.station ≠ .active ∧ s.ctl.station ≠ .frozen ∨
        (∀ x, s.ctl.etEntry seq ext.val = some x → x.timer ≠ some 0) →
      exec (.answerTimerExpiry seq ext) s = .next s) ∧
    (∀ x, s.ctl.station = .active ∨ s.ctl.station = .frozen → s.ctl.etEntry seq ext.val = some x → x.timer = some 0 →
      s.ctl.owed = [] →
      let awaiting := (x.places.filterMap (·.target)).filter (fun r => decide (r.state = .awaiting))
      (∀ b p i, awaiting ≠ [] → (∀ r ∈ awaiting, r.attempts < 4) → s.ctl.fillOf seq = some (b, p) →
        p.extents.find? (fun y => y.number == ext.val) = some i → s.ctl.tx.waitingExtent seq ext.val = false →
        (∀ f ∈ s.ctl.tx.held, f.isAnyExtent = false) →
        ∃ c : Ctl,
          exec (.answerTimerExpiry seq ext) s = .next { s with ctl := c } ∧ c.still = s.ctl.still ∧
          c.dir = s.ctl.dir ∧ c.port = s.ctl.port ∧ c.rx = s.ctl.rx ∧ c.jobs = s.ctl.jobs ∧
          c.tx = s.ctl.tx.request (.extent seq i (maskOf (awaiting.map (·.station))) (.fill b)) ∧
          c.et = s.ctl.et.map (fun y =>
            if y.seq = seq ∧ y.ext = ext.val then
              { y.onRecords (fun r =>
                  if has (maskOf (awaiting.map (·.station))) r.station && decide (r.state = .awaiting) then
                    { r with attempts := r.attempts + 1 } else r) with timer := none }
            else y)) ∧
      (∀ r e, s.ctl.et = [x] → x.settled = .none → x.places = [{ extra := false, target := some r }] →
        r.state = .awaiting → 4 ≤ r.attempts → s.ctl.ownEntry s.env seq = some e → e.targets = [r.station] →
        e.extra = none → (∀ p, s.ctl.countsPresent s.env p = true → p = s.env.me) →
        (∀ slot j, s.ctl.jobs.get slot = some j → j.target ≠ r.station) → s.ctl.catchUps = [] →
        ∃ c : Ctl,
          exec (.answerTimerExpiry seq ext) s = .next { s with ctl := c } ∧ c.still = s.ctl.still ∧
          c.port = s.ctl.port ∧ c.rx = s.ctl.rx ∧ c.jobs = s.ctl.jobs ∧
          c.et = [{ x with timer := none, places := [{ extra := false, target := some { r with state := .dropped } }] }] ∧
          (c.ownEntry s.env seq).map (fun e => (e.targets, e.excluded, e.depths)) =
            some ([], withStation e.excluded r.station, e.depths)))

/-- A copy job's timer and the recheck timer run out (R146, R148, R153). A job AWAITING its answer is QUEUED again:
its COPY is requested and counted, or owed while another COPY is held; after 4 attempts a repair job ends and its slot
is FREE, and a catch-up ends with its target LOST for the page. The recheck timer starts again at 5 s and requests a
RECHECK: one is appended, or, when its walk has begun, its AGAIN is set. Outside ACTIVE and FROZEN, or before the
deadline, nothing happens. -/
def Obligations.RepairTimers : Prop :=
  ∀ (s : State), s.env.rstLow = false →
    let runs := s.ctl.station = .active ∨ s.ctl.station = .frozen
    (∀ slot : Fin 2,
      let answers (c : Ctl) : Prop := exec (.copyJobTimerExpiry slot) s = .next { s with ctl := c }
      (¬ runs ∨ (∀ j, s.ctl.jobs.get slot = some j → j.state ≠ .awaiting ∨ j.timer ≠ some 0) → answers s.ctl) ∧
      (∀ j, runs → s.ctl.jobs.get slot = some j → j.state = .awaiting → j.timer = some 0 →
        (j.attempts < 4 → (∀ f ∈ s.ctl.tx.held, f.isAnyCopy = false) →
          answers { s.ctl with
            jobs := vput s.ctl.jobs slot (some { j with state := .queued, owed := false, timer := none,
                                                        attempts := j.attempts + 1 }),
            tx := s.ctl.tx.request (.copy j.page j.target slot) }) ∧
        (j.attempts < 4 → (∃ f ∈ s.ctl.tx.held, f.isAnyCopy = true) →
          answers { s.ctl with
            jobs := vput s.ctl.jobs slot (some { j with state := .queued, owed := true, timer := none }) }) ∧
        (4 ≤ j.attempts → j.purpose = .repair → answers { s.ctl with jobs := vput s.ctl.jobs slot none }) ∧
        (4 ≤ j.attempts → j.purpose = .catchUp →
          answers ((Ctl.loseTarget { s.ctl with jobs := vput s.ctl.jobs slot none } s.env j.page.seq j.target).sweepAll
            s.env)))) ∧
    (let answers (c : Ctl) : Prop := exec .recheckTimerExpiry s = .next { s with ctl := c }
     (¬ runs ∨ s.ctl.recheck ≠ some 0 → answers s.ctl) ∧
     (runs → s.ctl.recheck = some 0 →
       ((∀ t ∈ s.ctl.repair, t.isRecheck = false) →
         answers { s.ctl with
           recheck := some 5000,
           repair := s.ctl.repair ++ [{ kind := .recheck false false, cursor := 0, waiting := false }] }) ∧
       (∀ l t l', s.ctl.repair = l ++ t :: l' → (∀ y ∈ l ++ l', y.isRecheck = false) →
         (t.kind = .recheck false false → answers { s.ctl with recheck := some 5000 }) ∧
         (∀ again, t.kind = .recheck true again →
           answers { s.ctl with
             recheck := some 5000, repair := l ++ { t with kind := .recheck true true } :: l' }))))

/-! ## The record bus (Section 5) -/

/-- The start of a frame at an idle bus (R76, R77, R84, R85, R174). With a frame of the station's own on the bus, one
arriving into a claimed receive buffer (log 30, what the model takes for a busy bus), or no sendable WAITING entry,
nothing happens. Else the entry of the lowest class, and of those the earliest enqueued, becomes SENDING, with its
frame as its body stands now: an EXTENT's slots from its source, a COPY's descriptors and slots from its job's buffer,
both with the depth vector of the directory. PRESENCE may be sent in LISTENING, ACTIVE, FROZEN and LEAVING, ANSWER in
the last three, the other kinds in ACTIVE and FROZEN alone.
An attempt ends without the frame sent whole (R74, R77, R85, R87, R89). Without a frame on the bus nothing
happens. The bus is left; the entry waits in its place again, or, withdrawn meanwhile, leaves the queue, and a
cancelled job whose COPY it was is FREE. A transmit fault raises the consecutive fault count, to at most 16. At 16,
outside MOUNTING and ISOLATED, the station enters ISOLATED: its presence timer and window stop, FAULT is handed, and a
frame on the bus is cut short. -/
def Obligations.FrameStartAndFailure : Prop :=
 (∀ (s : State), s.env.rstLow = false →
    let maySend (b : TxBody) : Prop :=
      match b with
      | .presence _ => s.ctl.station ≠ .mounting ∧ s.ctl.station ≠ .isolated
      | .answer _ => s.ctl.station = .active ∨ s.ctl.station = .frozen ∨ s.ctl.station = .leaving
      | _ => s.ctl.station = .active ∨ s.ctl.station = .frozen
    let rank (b : TxBody) : Nat :=
      match b with
      | .presence _ => 0
      | .answer _ => 1
      | .holdings _ => 2
      | _ => 3
    let vector (id : PageId) : Half := match s.ctl.entry id with
      | some e => depthBits e.depths
      | none => 0
    (s.ctl.tx.onAir ≠ none ∨ (∃ b, s.ctl.rx.get b = .claimed) ∨
        (∀ e ∈ s.ctl.tx.entries, e.sending = false → ¬ maySend e.body) →
      exec .frameStart s = .next s) ∧
    (∀ (l : List TxEntry) (e : TxEntry) (l' : List TxEntry) (f : Frame),
      s.ctl.tx.onAir = none → (∀ b, s.ctl.rx.get b ≠ .claimed) → s.ctl.tx.entries = l ++ e :: l' →
      e.sending = false → maySend e.body →
      (∀ y ∈ l, y.sending = false → maySend y.body → rank e.body < rank y.body) →
      (∀ y ∈ l', y.sending = false → maySend y.body → rank e.body ≤ rank y.body) →
      (match e.body with
       | .presence p => f = .presence p
       | .answer a => f = .answer a
       | .holdings h => f = .holdings h
       | .extent seq i m src =>
         ∃ data, f = .extent
             { seq := seq, ext := byteOf i.number, mask := m, flags := bitOf i.closing 0, first := byteOf i.first,
               count := byteOf i.count, records := byteOf i.records, starts := i.starts,
               depths := vector { origin := s.env.me, seq := seq }, data := data } ∧
           (∀ b p, src = .fill b → s.ctl.fill.get b = some p →
             data = Memory.readRun 0x00#8 p.bytes (i.first * 512) (i.count * 512)) ∧
           (∀ b, src = .fill b → s.ctl.fill.get b = none → data = []) ∧
           (src = .readBack →
             data = Memory.readRun 0xFF#8 s.ctl.readBack.image (i.first * 512) (i.count * 512))
       | .copy id target slot =>
         ∃ j n, s.ctl.jobs.get slot = some j ∧ j.n = some n ∧
           f = .copy
             { origin := byteOf id.origin.val, seq := id.seq, target := byteOf target.val, flags := bitOf j.closed 0,
               descs := (imageExtents j.image n).map ExtentInfo.desc, depths := vector id,
               data := Memory.readRun 0xFF#8 j.image 0 (imageEnd j.image n * 512) }) →
      exec .frameStart s = .next
        { s with ctl := { s.ctl with tx := { s.ctl.tx with
          onAir := some { num := e.num, frame := f.send s.env.me },
          entries := s.ctl.tx.entries.map (fun x =>
            if x.num = e.num then { x with sending := true, renewed := false } else x) } } })) ∧
 (∀ (s : State) (i : Instr), s.env.rstLow = false → i = .lostArbitration ∨ i = .transmitFault →
    (s.ctl.tx.onAir = none → exec i s = .next s) ∧
    (∀ o e, s.ctl.tx.onAir = some o → s.ctl.tx.entries.find? (fun x => x.num == o.num) = some e →
      let faults := if i = .transmitFault then min (s.ctl.tx.faults + 1) 16 else s.ctl.tx.faults
      ∃ c : Ctl,
        exec i s = .next { s with ctl := c } ∧ c.still = s.ctl.still ∧ c.dir = s.ctl.dir ∧ c.et = s.ctl.et ∧
        c.rx = s.ctl.rx ∧ c.port = s.ctl.port ∧ c.alerts = s.ctl.alerts ∧
        (e.withdrawn = false → c.jobs = s.ctl.jobs ∧
          c.tx = { s.ctl.tx with
            onAir := none, faults := faults,
            entries := s.ctl.tx.entries.map (fun x =>
              if x.num = e.num then { x with sending := false, renewed := false } else x) }) ∧
        (e.withdrawn = true →
          c.tx = { s.ctl.tx with
            onAir := none, faults := faults, entries := s.ctl.tx.entries.filter (fun x => x.num != e.num) } ∧
          ∀ id t slot j, e.body = .copy id t slot → s.ctl.jobs.get slot = some j →
            c.jobs = if j.cancelled then vput s.ctl.jobs slot none else s.ctl.jobs)) ∧
    (s.ctl.tx.faults < 16 ∨ s.ctl.station = .isolated ∨ s.ctl.station = .mounting →
      exec .faultCountLimit s = .next s) ∧
    (16 ≤ s.ctl.tx.faults → s.ctl.station ≠ .isolated → s.ctl.station ≠ .mounting →
      ∃ c : Ctl,
        exec .faultCountLimit s = .next { s with ctl := c } ∧
        c.still = Ctl.still { s.ctl with station := .isolated, presence := none, window := none } ∧
        c.alerts = { s.ctl.alerts with pending := s.ctl.alerts.pending ||| 0x10#8 } ∧
        c.dir = s.ctl.dir ∧ c.et = s.ctl.et ∧ c.rx = s.ctl.rx ∧ c.port = s.ctl.port ∧
        (s.ctl.tx.onAir = none → c.tx = s.ctl.tx ∧ c.jobs = s.ctl.jobs) ∧
        (∀ o, s.ctl.tx.onAir = some o → (∃ e, s.ctl.tx.entries.find? (fun x => x.num == o.num) = some e) →
          c.tx.onAir = none)))

/-- A frame has been sent whole (R85, R87, R89, R118, R146, R155). The bus is left, the fault count is 0, and the
entry leaves the queue, but a PRESENCE renewed meanwhile waits again. An EXTENT not withdrawn is told to its entry:
the first transmission is done, and the answer timer starts at 40 ms when no other EXTENT of it stands and it is not
settled. A COPY not withdrawn makes its job AWAITING with 40 ms on its timer. After a HOLDINGS frame with
last-of-series the series has ended; otherwise the next frame of it is requested. -/
def Obligations.SentWhole : Prop :=
  ∀ (s : State), s.env.rstLow = false →
    (s.ctl.tx.onAir = none → exec .sentWhole s = .next s) ∧
    (∀ o e, s.ctl.tx.onAir = some o → s.ctl.tx.entries.find? (fun x => x.num == o.num) = some e →
      let sent : Tx :=
        { s.ctl.tx with
          onAir := none, faults := 0,
          entries := if e.renewed then s.ctl.tx.entries.map (fun x =>
                       if x.num = e.num then { x with sending := false, renewed := false } else x)
                     else s.ctl.tx.entries.filter (fun x => x.num != e.num) }
      (e.body.isHoldings = false ∨ e.withdrawn = true →
        ∃ c : Ctl,
          exec .sentWhole s = .next { s with ctl := c } ∧ c.still = s.ctl.still ∧ c.dir = s.ctl.dir ∧
          c.rx = s.ctl.rx ∧ c.port = s.ctl.port ∧ c.alerts = s.ctl.alerts ∧ c.tx = sent ∧
          (e.withdrawn = true ∨ e.body.isAnyExtent = false → c.et = s.ctl.et) ∧
          (e.body.isAnyCopy = false → c.jobs = s.ctl.jobs) ∧
          (∀ seq i m src, e.body = .extent seq i m src → e.withdrawn = false →
            let stands : Bool :=
              sent.entries.any (fun x => x.body.isExtent seq i.number) || sent.held.any (fun b => b.isExtent seq i.number)
                || s.ctl.owed.any (fun w => w.seq == seq && w.ext == i.number)
            c.et = s.ctl.et.map (fun y =>
              if y.seq = seq ∧ y.ext = i.number then
                { y with firstSent := true, timer := if stands || decide (y.settled ≠ .none) then none else some 40 }
              else y)) ∧
          (∀ id t slot j, e.body = .copy id t slot → s.ctl.jobs.get slot = some j →
            (j.cancelled = true → c.jobs = vput s.ctl.jobs slot none) ∧
            (j.cancelled = false → e.withdrawn = false → j.owed = false →
              c.jobs = vput s.ctl.jobs slot (some { j with state := .awaiting, timer := some 40 })))) ∧
      (∀ b series, e.body = .holdings b → e.withdrawn = false → s.ctl.holdings.series = some series →
        s.ctl.holdings.pending = false →
        ∃ c : Ctl,
          exec .sentWhole s = .next { s with ctl := c } ∧ c.dir = s.ctl.dir ∧ c.et = s.ctl.et ∧ c.rx = s.ctl.rx ∧
          c.port = s.ctl.port ∧ c.alerts = s.ctl.alerts ∧ c.jobs = s.ctl.jobs ∧
          (series.lastSeries = true →
            c.tx = sent ∧ c.holdings = { s.ctl.holdings with series := none, endedAt := some s.env.clock }) ∧
          (series.lastSeries = false →
            ∃ (next : Series) (flags : Byte) (items : List HoldItem),
              let group := if series.lastOrigin then series.group + 1 else series.group
              let index := if series.lastOrigin then 0 else series.index
              c.holdings = { s.ctl.holdings with series := some next } ∧ next.num = series.num ∧ next.group = group ∧
              next.index = index + 1 ∧ items.length ≤ 16 ∧
              s.ctl.formsHoldings s.env
                { series with group := group, cursor := if series.lastOrigin then 0 else series.cursor, index := index }
                next flags items ∧
              c.tx = sent.request (.holdings
                { series := series.num, origin := byteOf group, index := halfOf index, flags := flags,
                  items := items }))))

/-- The receiver's buffers (R79 to R81; log 27). The addressing field of a data frame that names the station, in
ACTIVE or FROZEN, with no other frame arriving, claims the lowest-numbered FREE buffer. A frame broken off, and one
that fails the checks, frees the buffer claimed for it; else nothing happens. The dispatch of a frame that passes its
checks (R74, R81, R82, Table 5-2). In MOUNTING and ISOLATED nothing happens. Else a frame from the station's own
number isolates it: its presence timer and window stop, and FAULT is handed. A kind that the state does not take is
let go. In each case a buffer claimed for it is FREE again, and a data frame that names another station is dropped so
too. What passes this is taken by the statements that follow. -/
def Obligations.ReceiveBuffersAndDispatch : Prop :=
 (∀ (s : State), s.env.rstLow = false →
    (∀ (a : Addressing),
      let named : Prop := match a with
        | .extentMask m => m.getLsbD s.env.me.val = true
        | .copyTarget t => t.toNat = s.env.me.val
      (¬ named ∨ (s.ctl.station ≠ .active ∧ s.ctl.station ≠ .frozen) ∨ (∃ b, s.ctl.rx.get b = .claimed) ∨
          (∀ b, s.ctl.rx.get b ≠ .free) →
        exec (.receiveBufferClaim a) s = .next s) ∧
      (∀ b, named → s.ctl.station = .active ∨ s.ctl.station = .frozen → (∀ v, s.ctl.rx.get v ≠ .claimed) →
        s.ctl.rx.get b = .free → (∀ v, v < b → s.ctl.rx.get v ≠ .free) →
        exec (.receiveBufferClaim a) s = .next { s with ctl := { s.ctl with rx := vput s.ctl.rx b .claimed } })) ∧
    (∀ (i : Instr), i = .frameAbandoned ∨ (∃ f, i = .frameFailsChecks f ∧ Machine.Heard.receive f = none) →
      ((∀ b, s.ctl.rx.get b ≠ .claimed) → exec i s = .next s) ∧
      (∀ b, s.ctl.rx.get b = .claimed → (∀ v, s.ctl.rx.get v = .claimed → v = b) →
        exec i s = .next { s with ctl := { s.ctl with rx := vput s.ctl.rx b .free } })) ∧
    (∀ f, Machine.Heard.receive f ≠ none → exec (.frameFailsChecks f) s = .next s)) ∧
 (∀ (s : State) (f : Heard) (i : Instr) (src : Station) (x : Frame) (b : Fin 4), s.env.rstLow = false →
    Machine.Heard.receive f = some (src, x) →
    (match x with
     | .presence _ => i = .presenceFrame f
     | .answer _ => i = .answerFrame f
     | .holdings _ => i = .holdingsFrame f
     | .extent _ => i = .extentFrame f
     | .copy _ => i = .copyFrame f) →
    s.ctl.rx.get b = .claimed → (∀ v, s.ctl.rx.get v = .claimed → v = b) →
    let freed := vput s.ctl.rx b .free
    let takes : Prop :=
      match x with
      | .answer _ => s.ctl.station = .active ∨ s.ctl.station = .frozen ∨ s.ctl.station = .leaving
      | .extent e => (s.ctl.station = .active ∨ s.ctl.station = .frozen) ∧ has e.mask s.env.me = true
      | .copy e => (s.ctl.station = .active ∨ s.ctl.station = .frozen) ∧ e.target = byteOf s.env.me.val
      | _ => s.ctl.station ≠ .mounting ∧ s.ctl.station ≠ .isolated
    (s.ctl.station = .mounting ∨ s.ctl.station = .isolated → exec i s = .next s) ∧
    (s.ctl.station ≠ .mounting → s.ctl.station ≠ .isolated →
      (src = s.env.me →
        ∃ c : Ctl,
          exec i s = .next { s with ctl := c } ∧
          c.still = Ctl.still { s.ctl with station := .isolated, presence := none, window := none } ∧
          c.alerts = { s.ctl.alerts with pending := s.ctl.alerts.pending ||| 0x10#8 } ∧ c.rx = freed ∧
          c.dir = s.ctl.dir ∧ c.et = s.ctl.et ∧ c.port = s.ctl.port) ∧
      (src ≠ s.env.me → ¬ takes → exec i s = .next { s with ctl := { s.ctl with rx := freed } })))

/-! ## Frames that arrive (Sections 5 to 9) -/

/-- A PRESENCE is taken (R92, R93, R95 to R101, Table 6-2). In every state the sender's entry holds the frame's
fields, its missed count is 0, its peer state and the notice are those of Table 6-2, and no other peer changes; an
arrival sets the report request, a departure clears it and discards the report-received state; both, and an entry to
INCOMPATIBLE, hand MEMBERS. With the own-extent engine at rest, no release mark raised and no holdings asked for: an
arrival leaves no DEPARTURE(p) and requests a RECHECK; a departure cancels the peer's jobs and appends DEPARTURE(p);
ABSENT to INCOMPATIBLE appends it alone; a FULL flag that clears requests a RECHECK; and nothing else changes. -/
def Obligations.PresenceFrame : Prop :=
  ∀ (s : State) (f : Heard) (p : Station) (b : PresenceBody), s.env.rstLow = false →
    Machine.Heard.receive f = some (p, .presence b) → p ≠ s.env.me →
    s.ctl.station ≠ .mounting → s.ctl.station ≠ .isolated →
    let old := s.ctl.peers.get p
    let after : PeerState :=
      if b.copies ≠ byteOf s.env.copies then .incompatible
      else if b.flags.getLsbD 1 = true then .departed else .present
    let arrives : Bool :=
      decide (after = .present) &&
        !((decide (old.state = .present) || decide (old.state = .silent)) && decide (old.gen = some b.gen))
    let departs : Bool :=
      (decide (after = .departed) && decide (old.state ≠ .departed)) ||
        (decide (after = .incompatible) && (decide (old.state = .present) || decide (old.state = .silent)))
    let enters : Bool := decide (after = .incompatible) && decide (old.state ≠ .incompatible)
    let roomAgain : Bool := old.full && !b.flags.getLsbD 0 && decide (after = .present) && !arrives
    let recorded : Peer :=
      { old with
        state := after, gen := some b.gen, missed := 0, code := stateCodeOf b.code, pool := b.pool,
        full := b.flags.getLsbD 0, mark := b.mark,
        reportReq := if arrives then true else if departs then false else old.reportReq,
        received := if departs then none else old.received }
    let peers := vput s.ctl.peers p recorded
    let members := if arrives || departs || enters then s.ctl.alerts.pending ||| 0x04#8 else s.ctl.alerts.pending
    (∃ (c : Ctl) (h : HoldGen),
      exec (.presenceFrame f) s = .next { s with ctl := c } ∧
      c.still = Ctl.still { s.ctl with peers := peers, holdings := h } ∧
      (b.mask.getLsbD s.env.me.val = false ∨ after ≠ .present → h = s.ctl.holdings) ∧
      members &&& c.alerts.pending = members) ∧
    (s.ctl.atRest → ¬ old.mark < b.mark → b.mask.getLsbD s.env.me.val = false →
      (∀ slot j, s.ctl.jobs.get slot = some j → j.target ≠ p) →
      (∀ t ∈ s.ctl.repair, t.kind ≠ .departure p ∧ t.isRecheck = false) →
      exec (.presenceFrame f) s = .next
        { s with ctl := { s.ctl with
          peers := peers, alerts := { s.ctl.alerts with pending := members },
          repair := s.ctl.repair ++
            (if arrives || roomAgain then [{ kind := .recheck false false, cursor := 0, waiting := false }]
             else if departs || (decide (after = .incompatible) && decide (old.state = .absent)) then
               [{ kind := .departure p, cursor := 0, waiting := false }]
             else []) } })

/-- What a PRESENCE asks and tells besides (R14, R95, R99, R142). A raised release mark gives up every replica of the
sender's pages at or below it, while no frame is DEFERRED and no copy job concerns one. An arrival takes a standing
DEPARTURE(p) out of the repair list, the task after it becoming the head, at the lowest key, when it was the head. A
report request from a PRESENT peer is kept pending while a series is in progress or the station is LISTENING or
LEAVING, is disregarded when a series ended less than 40 ms ago (the fortieth millisecond counted out, log 25), and
else starts the next series. Shown where the frame brings no other notice. -/
def Obligations.PresenceRequests : Prop :=
  ∀ (s : State) (f : Heard) (p : Station) (b : PresenceBody), s.env.rstLow = false →
    Machine.Heard.receive f = some (p, .presence b) → p ≠ s.env.me →
    s.ctl.station ≠ .mounting → s.ctl.station ≠ .isolated → b.copies = byteOf s.env.copies → b.flags.getLsbD 1 = false →
    let old := s.ctl.peers.get p
    let recorded : Peer :=
      { old with
        state := .present, gen := some b.gen, missed := 0, code := stateCodeOf b.code, pool := b.pool,
        full := b.flags.getLsbD 0, mark := b.mark }
    let peers := vput s.ctl.peers p recorded
    let answers (c : Ctl) : Prop := exec (.presenceFrame f) s = .next { s with ctl := c }
    (old.state = .present → old.gen = some b.gen → (old.full = true → b.flags.getLsbD 0 = true) →
      (old.mark < b.mark → b.mask.getLsbD s.env.me.val = false →
        (∀ v x, s.ctl.rxHeld v = some x → x.phase ≠ .deferred) →
        (∀ slot j, s.ctl.jobs.get slot = some j → j.page.origin ≠ p) →
        ∃ c : Ctl, answers c ∧ c.still = Ctl.still { s.ctl with peers := peers } ∧
          c.dir = s.ctl.dir.filter (fun e => !(decide (e.id.origin = p) && decide (e.id.seq ≤ b.mark))) ∧
          c.et = s.ctl.et ∧ c.tx = s.ctl.tx ∧ c.jobs = s.ctl.jobs ∧ c.port = s.ctl.port ∧ c.rx = s.ctl.rx) ∧
      (¬ old.mark < b.mark → b.mask.getLsbD s.env.me.val = true →
        let runs := s.ctl.station = .active ∨ s.ctl.station = .frozen
        (s.ctl.holdings.series ≠ none ∨ ¬ runs →
          answers { s.ctl with peers := peers, holdings := { s.ctl.holdings with pending := true } }) ∧
        (s.ctl.holdings.series = none → runs →
          (∀ t, s.ctl.holdings.endedAt = some t → (s.env.clock - t).toNat < 40 →
            answers { s.ctl with peers := peers }) ∧
          ((∀ t, s.ctl.holdings.endedAt = some t → 40 ≤ (s.env.clock - t).toNat) →
            ∃ (next : Series) (flags : Byte) (items : List HoldItem),
              next.num = s.ctl.holdings.lastNum + 1 ∧ next.group = 0 ∧ next.index = 1 ∧
              s.ctl.formsHoldings s.env
                { num := s.ctl.holdings.lastNum + 1, group := 0, cursor := 0, index := 0, lastOrigin := false,
                  lastSeries := false } next flags items ∧
              answers { s.ctl with
                peers := peers,
                holdings := { s.ctl.holdings with lastNum := s.ctl.holdings.lastNum + 1, series := some next },
                tx := s.ctl.tx.request (.holdings
                  { series := s.ctl.holdings.lastNum + 1, origin := byteOf 0, index := halfOf 0, flags := flags,
                    items := items }) })))) ∧
    (old.state = .departed → s.ctl.atRest → ¬ old.mark < b.mark → b.mask.getLsbD s.env.me.val = false →
      ∀ l t l', s.ctl.repair = l ++ t :: l' → t.kind = .departure p →
        (∀ y ∈ l ++ l', y.kind ≠ .departure p ∧ y.isRecheck = false) →
        let left : List Machine.Task := match l, l' with
          | [], y :: ys => { y with cursor := 0, waiting := false } :: ys
          | _, _ => l ++ l'
        answers { s.ctl with
          peers := vput s.ctl.peers p { recorded with reportReq := true },
          alerts := { s.ctl.alerts with pending := s.ctl.alerts.pending ||| 0x04#8 },
          repair := left ++ [{ kind := .recheck false false, cursor := 0, waiting := false }] })

/-- An ANSWER that names a page of another origin (R81, R86, R97, R141, R146, R147; log 14, log 15). One whose verdict
is none of Table 11-9 is disregarded, and so is one whose origin field is no station, but that its FULL sets the flag
too. FULL sets its sender's FULL flag. An answer to another station, or to FFH, records the sender's depth: PROGRAMMED
and HELD raise it to the extents they name, GAP and DROPPED set the depth they carry, LOST sets 0. An answer to this
station with its copy flag set records it alike, but for GAP and DROPPED; and with PROGRAMMED, HELD, FULL or LOST it
ends the job of this page and target that is past its read (log 37, the job states that the model matches): its COPY
is withdrawn, and its slot is FREE, or, while the COPY is SENDING, CANCELLED; when that COPY was the one held, the
COPY that another job owes is requested. No other entry, job, peer or queue entry changes. -/
def Obligations.AnswerFrame : Prop :=
  ∀ (s : State) (f : Heard) (t : Station) (a : AnswerBody), s.env.rstLow = false →
    Machine.Heard.receive f = some (t, .answer a) → t ≠ s.env.me →
    s.ctl.station = .active ∨ s.ctl.station = .frozen ∨ s.ctl.station = .leaving →
    (a.verdict = 0 ∨ 6 < a.verdict.toNat → exec (.answerFrame f) s = .next s) ∧
    (∀ v : Verdict, 8 ≤ a.origin.toNat → a.verdict = v.code →
      exec (.answerFrame f) s = .next { s with ctl := { s.ctl with
        peers := if v = .full then vput s.ctl.peers t { s.ctl.peers.get t with full := true } else s.ctl.peers } }) ∧
    (∀ (o : Station) (v : Verdict), a.origin.toNat = o.val → a.verdict = v.code → o ≠ s.env.me →
      let id : PageId := { origin := o, seq := a.seq }
      let mine := a.addressee = byteOf s.env.me.val
      let copy := a.flags.getLsbD 0 = true
      let peers := if v = .full then vput s.ctl.peers t { s.ctl.peers.get t with full := true } else s.ctl.peers
      let n := if copy then a.ext.toNat else a.ext.toNat + 1
      let deep (d : Nat) (e : Entry) : Entry :=
        { e with depths := vput e.depths t (min d 3), known := max e.known (min d 3) }
      let told (e : Entry) : Entry :=
        match v with
        | .programmed => if e.depths.get t < n then deep n e else e
        | .held => if e.depths.get t < n then deep n e else e
        | .gap => if mine then e else deep a.aux.toNat e
        | .dropped => if mine then e else deep a.aux.toNat e
        | .lost => deep 0 e
        | .full => e
      (mine → ¬ copy → exec (.answerFrame f) s = .next { s with ctl := { s.ctl with peers := peers } }) ∧
      ((mine → copy) →
        ∃ c : Ctl,
          exec (.answerFrame f) s = .next { s with ctl := c } ∧ c.still = Ctl.still { s.ctl with peers := peers } ∧
          c.et = s.ctl.et ∧ c.rx = s.ctl.rx ∧ c.port = s.ctl.port ∧
          c.entry id = (s.ctl.entry id).map (fun e => { told e with under := s.ctl.underCopied s.env (told e) }) ∧
          (∀ i, i ≠ id → c.entry i = s.ctl.entry i) ∧
          (¬ mine ∨ v = .gap ∨ v = .dropped ∨
              (∀ slot j, s.ctl.jobs.get slot = some j →
                j.target ≠ t ∨ j.page ≠ id ∨ j.cancelled = true ∨ j.state = .reading) →
            c.jobs = s.ctl.jobs ∧ c.tx = s.ctl.tx) ∧
          (∀ slot j, mine → v ≠ .gap → v ≠ .dropped → s.ctl.jobs.get slot = some j → j.target = t → j.page = id →
            j.cancelled = false → j.state ≠ .reading →
            (∀ other i, other ≠ slot → s.ctl.jobs.get other = some i → i.page ≠ id ∨ i.target ≠ t) →
            let withdrawn := s.ctl.tx.withdraw (fun b => b.isCopyOf slot)
            let freed := vput s.ctl.jobs slot
              (if ∃ e ∈ s.ctl.tx.entries, e.sending = true ∧ e.body.isCopyOf slot = true then
                some { j with cancelled := true, owed := false, timer := none } else none)
            ((∀ b ∈ s.ctl.tx.held, b.isAnyCopy = false) ∨
                (∀ other i, other ≠ slot → s.ctl.jobs.get other = some i → i.owed = false) →
              c.tx = withdrawn ∧ c.jobs = freed) ∧
            (∀ other i, other ≠ slot → s.ctl.jobs.get other = some i → i.owed = true →
              (∃ b ∈ s.ctl.tx.held, b.isCopyOf slot = true) →
              (∀ b ∈ s.ctl.tx.held, b.isAnyCopy = true → b.isCopyOf slot = true) →
              c.tx = withdrawn.request (.copy i.page i.target other) ∧
              c.jobs = vput freed other
                (some { i with state := .queued, owed := false, timer := none, attempts := i.attempts + 1 })))))

/-- An ANSWER that names an own page (R11, R12, R120 to R122, R125). PROGRAMMED or HELD for an EXTENT raises the
sender's depth; to this station it makes the sender's waiting records for the extents up to it DONE and takes the
sender out of their frames' masks. When it makes the one entry left durable, its program no longer pending, the entry
leaves: the frontier is its extent and FRONTIER is handed. FULL to this station makes the sender LOST for the page;
LOST sets its depth 0 and does the same. DROPPED sets the depth it carries; unsolicited, while some unsettled entry of
the page has a record of the sender that is not DROPPED, an entry reopened by it among them, it makes the sender LOST
too. GAP to this station at the extent it missed sets the depth, and the extent is sent again to it alone. The depths
are taken at most 3 (log 15), and a station that is no target is not LOST (log 44). -/
def Obligations.AnswerForOwnPage : Prop :=
  ∀ (s : State) (f : Heard) (t : Station) (a : AnswerBody) (v : Verdict) (e : Entry), s.env.rstLow = false →
    Machine.Heard.receive f = some (t, .answer a) → t ≠ s.env.me →
    s.ctl.station = .active ∨ s.ctl.station = .frozen ∨ s.ctl.station = .leaving →
    a.origin = byteOf s.env.me.val → a.verdict = v.code → a.flags.getLsbD 0 = false →
    s.ctl.ownEntry s.env a.seq = some e →
    let id := ownId s.env a.seq
    let mine := a.addressee = byteOf s.env.me.val
    let n := a.ext.toNat + 1
    let raised : Entry :=
      if e.depths.get t < n then { e with depths := vput e.depths t (min n 3), known := max e.known (min n 3) } else e
    let holders (x : Entry) (ext : Nat) : Nat := (allStations.filter (fun i => decide (ext < x.depths.get i))).length
    (v = .programmed ∨ v = .held →
      ((∀ y ∈ s.ctl.et, y.settled = .none) →
        (∀ y ∈ s.ctl.et, y.seq = a.seq → holders raised y.ext < s.env.copies ∧ (y.timer ≠ none ∨ y.firstSent = false)) →
        (let tx := if mine then s.ctl.tx.narrow (fun q k => q == a.seq && decide (k < n)) t else s.ctl.tx
         s.ctl.owed = [] ∨ tx.held.any TxBody.isAnyExtent = true) →
        ∃ c : Ctl,
          exec (.answerFrame f) s = .next { s with ctl := c } ∧ c.still = s.ctl.still ∧ c.rx = s.ctl.rx ∧
          c.port = s.ctl.port ∧ c.jobs = s.ctl.jobs ∧ c.frontier = s.ctl.frontier ∧
          c.entry id = some { raised with under := s.ctl.underCopied s.env raised } ∧
          (∀ i, i ≠ id → c.entry i = s.ctl.entry i) ∧
          (¬ mine → c.et = s.ctl.et ∧ c.tx = s.ctl.tx) ∧
          (mine →
            c.tx = s.ctl.tx.narrow (fun q k => q == a.seq && decide (k < n)) t ∧
            c.et = s.ctl.et.map (fun y =>
              if y.seq = a.seq ∧ y.ext < n then
                y.onRecord t (fun r => if r.state = .dropped then r else { r with state := .done })
              else y))) ∧
      (∀ x, s.ctl.et = [x] → x.seq = a.seq → x.settled = .none → x.prog ≠ .pending →
        s.env.copies ≤ holders raised x.ext →
        ∃ c : Ctl,
          exec (.answerFrame f) s = .next { s with ctl := c } ∧ c.still = s.ctl.still ∧ c.et = [] ∧
          c.frontier = .extent a.seq x.ext ∧ c.alerts.pending &&& 0x01#8 = 0x01#8 ∧
          (c.entry id).map (·.depths) = some raised.depths)) ∧
    (v = .full → mine →
      let heard : Ctl := { s.ctl with peers := vput s.ctl.peers t { s.ctl.peers.get t with full := true } }
      exec (.answerFrame f) s = .next { s with ctl := (heard.loseTarget s.env a.seq t).sweepAll s.env }) ∧
    (v = .lost → mine →
      let told : Ctl := s.ctl.recordOwnDepth s.env a.seq (fun x => x.setDepth t 0)
      exec (.answerFrame f) s = .next { s with ctl := (told.loseTarget s.env a.seq t).sweepAll s.env }) ∧
    (v = .dropped →
      let told : Ctl := s.ctl.recordOwnDepth s.env a.seq (fun x => x.setDepth t a.aux.toNat)
      let live (c : Ctl) : Prop := ∃ y ∈ c.et, y.seq = a.seq ∧ y.settled = .none ∧ y.liveRecord t = true
      (a.addressee = 0xFF#8 ∧ (live s.ctl ∨ live told) →
        exec (.answerFrame f) s = .next { s with ctl := (told.loseTarget s.env a.seq t).sweepAll s.env }) ∧
      (a.addressee ≠ 0xFF#8 ∨ (¬ live s.ctl ∧ ¬ live told) →
        exec (.answerFrame f) s = .next { s with ctl := told.sweepAll s.env })) ∧
    (v = .gap → mine → ∀ x r b p i,
      a.aux.toNat = a.ext.toNat → (∀ y ∈ s.ctl.et, y.settled = .none) →
      (let back : Entry := { e with depths := vput e.depths t (min a.aux.toNat 3), known := max e.known (min a.aux.toNat 3) }
       ∀ y ∈ s.ctl.et, y.seq = a.seq → holders back y.ext < s.env.copies) →
      s.ctl.etEntry a.seq a.ext.toNat = some x → x.record t = some r → r.state = .awaiting ∨ r.state = .done →
      r.attempts < 4 → s.ctl.fillOf a.seq = some (b, p) →
      p.extents.find? (fun y => y.number == a.ext.toNat) = some i → s.ctl.tx.waitingExtent a.seq a.ext.toNat = false →
      (∀ q ∈ s.ctl.tx.held, q.isAnyExtent = false) → s.ctl.owed = [] →
      ∃ c : Ctl,
        exec (.answerFrame f) s = .next { s with ctl := c } ∧ c.still = s.ctl.still ∧ c.port = s.ctl.port ∧
        c.jobs = s.ctl.jobs ∧ (c.entry id).map (·.depths) = some (vput e.depths t (min a.aux.toNat 3)) ∧
        c.tx = s.ctl.tx.request (.extent a.seq i (withStation 0 t) (.fill b)) ∧
        c.et = s.ctl.et.map (fun y =>
          if y.seq = a.seq ∧ y.ext = a.ext.toNat then
            { y.onRecord t (fun r =>
                if r.state = .awaiting ∨ r.state = .done then { r with state := .awaiting, attempts := r.attempts + 1 }
                else r) with
              timer := none }
          else y))

/-- The next frame of a holdings series is formed and requested (R155, R86): its contents are fixed at the request,
its items report the group's entries from the cursor on in RUNs and PAGEs, up to 16 of them, with the last-of-origin
and last-of-series flags, and the series goes on from just above the last entry reported. Nothing else changes. -/
def Obligations.HoldingsFormed : Prop :=
  ∀ (c : Ctl) (k : Env) (s : Series),
    ∃ (next : Series) (flags : Byte) (items : List HoldItem), c.formsHoldings k s next flags items ∧
      c.formHoldings k s =
        { c with
          holdings := { c.holdings with series := some next },
          tx := c.tx.request (.holdings
            { series := s.num, origin := byteOf s.group, index := halfOf s.index, flags := flags, items := items }) }

/-- A HOLDINGS frame is taken from a PRESENT or SILENT peer, and from no other (R9, R11, R156, R157). For every page
of its origin: named by nothing, the reporter's depth becomes 0 in the origin's first frame and else stays; a RUN that
covers it gives the reporter the known extent count; then a PAGE that names it gives the depth it says, at most the
known count, and closes a replica when its closed flag is set and its depth is the known count. In an own page with
Extent Table entries the depth is only ever raised. No other entry changes. For this station's own pages it is said
while no extent of the table is settled or owed, and none becomes durable even with the reporter counted. The
report-received state follows the frame: intact when it begins the series or continues it in order; the frame with
last-of-series discards it, and an intact series clears the report request. -/
def Obligations.HoldingsFrame : Prop :=
  ∀ (s : State) (f : Heard) (t : Station) (b : HoldingsBody), s.env.rstLow = false →
    Machine.Heard.receive f = some (t, .holdings b) → t ≠ s.env.me →
    s.ctl.station ≠ .mounting → s.ctl.station ≠ .isolated →
    let p := s.ctl.peers.get t
    (p.state ≠ .present ∧ p.state ≠ .silent → exec (.holdingsFrame f) s = .next s) ∧
    (∀ o : Station, p.state = .present ∨ p.state = .silent → dirOk s.ctl.dir → b.origin.toNat = o.val →
      (o = s.env.me → s.ctl.owed = [] ∧ ∀ y ∈ s.ctl.et, y.settled = .none ∧ ∀ e, s.ctl.ownEntry s.env y.seq = some e →
        (allStations.filter (fun i => decide (i = t) || decide (y.ext < e.depths.get i))).length < s.env.copies) →
      let intact : Bool :=
        (decide (b.origin = 0) && decide (b.index = 0)) ||
          (match p.received with
           | none => false
           | some x => x.intact && decide (x.series = b.series) && decide (x.group = o.val) &&
               decide (x.index = b.index.toNat))
      let received : Option SeriesState :=
        if b.flags.getLsbD 1 then none
        else some { series := b.series, group := if b.flags.getLsbD 0 then o.val + 1 else o.val,
                    index := if b.flags.getLsbD 0 then 0 else b.index.toNat + 1, intact := intact }
      let peer : Peer :=
        { p with received := received, reportReq := p.reportReq && !(b.flags.getLsbD 1 && intact) }
      ∃ c : Ctl,
        exec (.holdingsFrame f) s = .next { s with ctl := c } ∧
        c.still = Ctl.still { s.ctl with peers := vput s.ctl.peers t peer } ∧
        c.et = s.ctl.et ∧ c.tx = s.ctl.tx ∧ c.rx = s.ctl.rx ∧ c.jobs = s.ctl.jobs ∧ c.port = s.ctl.port ∧
        (∀ i, i.origin ≠ o → c.entry i = s.ctl.entry i) ∧
        (∀ e, s.ctl.entry e.id = some e → e.id.origin = o → e.known ≤ 3 →
          let raised : Bool := decide (o = s.env.me) && s.ctl.et.any (fun y => decide (y.seq = e.id.seq))
          let now (depth : Nat) (closed : Bool) : Prop :=
            ∃ u, c.entry e.id = some { e with depths := vput e.depths t depth, closed := closed, under := u }
          let covered : Bool := b.items.any (fun i =>
            match i with
            | .run q n => decide (q.toNat ≤ e.id.seq.toNat) && decide (e.id.seq.toNat < q.toNat + n.toNat)
            | .page _ _ _ => false)
          let first : Nat := if raised || decide (b.index ≠ 0) then e.depths.get t else 0
          let run : Nat := if covered then (if raised then max first e.known else e.known) else first
          ((∀ q d fl, HoldItem.page q d fl ∈ b.items → q ≠ e.id.seq) → now run e.closed) ∧
          (∀ l d fl l', b.items = l ++ .page e.id.seq d fl :: l' →
            (∀ q d' fl', HoldItem.page q d' fl' ∈ l ++ l' → q ≠ e.id.seq) →
            now (if raised then max run (min d.toNat e.known) else min d.toNat e.known)
              (e.closed || (fl.getLsbD 0 && decide (d.toNat = e.known) && decide (e.role = .replica))))))

/-- What becomes of a data frame that is not TAKEN, an EXTENT or a COPY from a peer (R127 to R134, R140). RELEASED, an
own page above the next seq, or ill-formed: its buffer is freed, and nothing else changes. Page unknown: an EXTENT
above extent 0 is answered GAP with aux 0, one of extent 0 not at slot 0 is discarded, and any other without room
FULL. A copy of a peer's page with a program outstanding: HELD when it holds the frame's extents, an EXTENT below
PENDING discarded, else DEFERRED. With none outstanding: HELD likewise, a COPY of exactly the depth with its closed
flag closing it; an EXTENT above the depth GAP with the depth; an EXTENT for a CLOSED copy, and a frame that does not
begin at the copy's end slot, discarded. HELD and GAP record the depth vector. A COPY returned to this station as
origin is judged by its OWN entry alike, its closed flag disregarded, and FULL when the page is remote-only and an own
page cannot be had; what is recorded there is said while nothing of the own-extent engine moves by it. -/
def Obligations.DataFramesJudged : Prop :=
  ∀ (s : State) (i : Instr) (t : Station) (x : DataFrame) (id : PageId) (u : Fin 4), s.dataArrives i t x id u →
    let kept (b : RxBuf) : Ctl := { s.ctl with rx := vput s.ctl.rx u b, rxNext := s.ctl.rxNext + 1 }
    let answer (v : Verdict) (aux : Nat) : AnswerBody :=
      { addressee := byteOf t.val, origin := byteOf id.origin.val, seq := id.seq, ext := byteOf x.number,
        flags := bitOf x.isCopy 0, verdict := v.code, aux := byteOf aux }
    let answered (v : Verdict) (aux : Nat) (told : Entry) : Prop :=
      ∃ f r d al rp rc, (id.origin ≠ s.env.me → f = s.ctl.fill ∧ r = s.ctl.readBack) ∧
        exec i s = .next
          { s with ctl := { kept .free with
            fill := f, readBack := r, tx := s.ctl.tx.answer (answer v aux), dir := d, alerts := al, repair := rp,
            recheck := rc } } ∧
        al.enabled = s.ctl.alerts.enabled ∧
        d.find? (fun y => y.id == id) = some { told with under := s.ctl.underCopied s.env told } ∧
        (∀ j, j ≠ id → d.find? (fun y => y.id == j) = s.ctl.entry j)
    let dropped : Prop := exec i s = .next { s with ctl := kept .free }
    (s.ctl.discards s.env x id → dropped) ∧
    (¬ s.ctl.discards s.env x id →
      (s.ctl.entry id = none →
        (∀ b, x = .extent b →
          (b.ext ≠ 0 → exec i s = .next { s with ctl := { kept .free with tx := s.ctl.tx.answer (answer .gap 0) } }) ∧
          (b.ext = 0 → b.first ≠ 0 → dropped)) ∧
        ((∀ b, x = .extent b → b.ext = 0 ∧ b.first = 0) →
          65536 ≤ s.ctl.dir.length ∨
            (s.ctl.openBlock (if id.origin = s.env.me then .own else .replica) = none ∧ s.ctl.pool.length < 3) →
          exec i s = .next { s with ctl := { kept .free with tx := s.ctl.tx.answer (answer .full 0) } })) ∧
      (∀ e, s.ctl.entry id = some e → (id.origin = s.env.me ↔ e.role = .own) →
        let m := e.depths.get s.env.me
        let closes := x.closedFlag && decide (x.number = m) && decide (e.role = .replica)
        (∀ p, e.pendingExt = some p →
          (x.count ≤ m → s.ctl.settlesNothing s.env id (e.heard s.env x) →
            answered .held 0 { e.heard s.env x with closed := e.closed || closes }) ∧
          (m < x.count → x.isCopy = false → x.number < p → dropped) ∧
          (m < x.count → x.isCopy = true ∨ p ≤ x.number →
            exec i s = .next { s with ctl := kept (.held (x.inBuffer t s.ctl.rxNext .deferred)) })) ∧
        (∀ a, e.pendingExt = none → e.localPage = some a →
          (x.count ≤ m → s.ctl.settlesNothing s.env id (e.heard s.env x) →
            answered .held 0 { e.heard s.env x with closed := e.closed || closes }) ∧
          (∀ b, x = .extent b →
            (m < b.ext.toNat → answered .gap m (e.heard s.env x)) ∧
            (b.ext.toNat = m → e.closed = true ∨ b.first.toNat ≠ e.copyEnd → dropped)) ∧
          (∀ b l d l', x = .copy b → m < x.count → b.descs = l ++ d :: l' → l.length = m → d.first.toNat ≠ e.copyEnd →
            dropped)) ∧
        (id.origin = s.env.me → e.pendingExt = none → e.localPage = none →
          s.ctl.openBlock .own = none → s.ctl.pool.length < 3 →
          exec i s = .next { s with ctl := { kept .free with tx := s.ctl.tx.answer (answer .full 0) } })))

/-- What becomes of a data frame that is TAKEN (R131 to R136; the refused relocation records nothing, log 16). A page
unknown here gets an entry, OPEN for a replica and CLOSED for an own page, with the frame's fields, own depth 0 and
PENDING its extent count, and a page by R45; one program writes its extents with the identity group. A frame that adds
to a replica in place records its depth vector, known count, used slots and PENDING, and one program writes the added
extents. A copy that is CLOSED, for a COPY, or lies in a RETIRED block is moved: without a page to be had the frame is
answered FULL; else the entry names the relocation page, and the copy is read back first, when it holds an extent.
Each descriptor carries the check of its slots, and the holder set names the page's origin, the stations whose depth
in the vector is above its number and those of an EXTENT's mask, but not this station. A COPY returned to this station
as origin adds to its own copy alike, unless a fill buffer holds the page, and restores a remote-only page by one
program of all its extents into a new own page; said while nothing of the own-extent engine moves by what is recorded.
-/
def Obligations.DataFramesTaken : Prop :=
  ∀ (s : State) (i : Instr) (t : Station) (x : DataFrame) (id : PageId) (u : Fin 4), s.dataArrives i t x id u →
    ¬ s.ctl.discards s.env x id →
    let role : Role := if id.origin = s.env.me then .own else .replica
    let buffer (phase : RxPhase) : RxHeld := x.inBuffer t s.ctl.rxNext phase
    let targets : Byte := match x with
      | .extent b => b.mask
      | .copy _ => 0
    let named (n : Nat) (j : Station) : Bool :=
      decide (j ≠ s.env.me) && (decide (j = id.origin) || decide (n < depthIn x.depths j) || has targets j)
    let program (hs : Nat → Byte) (who : Requester) (a : PageAddr) (join m : Nat) : Request :=
      { who := who, emergency := false,
        op := .program
          { page := a, first := join, count := x.last - join,
            identity := if m = 0 then some (identityBytes (byteOf id.origin.val) id.seq) else none,
            descs := (x.added m).map (fun y =>
              (y.number, descriptorBytes y (hs y.number)
                (crc (Memory.readRun 0x00#8 (buffer .judging).image (y.first * 512) (y.count * 512))))),
            source := .rx u } }
    let given (kind : Role) (relocation : Bool) (p : PageAddr) : Prop :=
      (∃ bl, s.ctl.openBlock kind = some bl ∧ p = { block := bl.num, page := bl.next }) ∨
      (s.ctl.openBlock kind = none ∧ (relocation = true ∨ 3 ≤ s.ctl.pool.length) ∧ s.ctl.pool.head? = some p.block ∧
        p.page = 0)
    let requested (r : Request) (phase : RxPhase) (new : Entry) (c : Ctl) : Prop :=
      exec i s = .next { s with ctl := c } ∧
      (∃ f rb d al rp rc bs po us,
        (id.origin ≠ s.env.me ∨ s.ctl.entry id = none → f = s.ctl.fill ∧ rb = s.ctl.readBack) ∧ c = { s.ctl with
        fill := f, readBack := rb, rx := vput s.ctl.rx u (.held (buffer phase)), rxNext := s.ctl.rxNext + 1, dir := d,
        alerts := al, repair := rp, recheck := rc, blocks := bs, pool := po, units := us }) ∧
      c.alerts.enabled = s.ctl.alerts.enabled ∧
      c.entry id = some { new with under := s.ctl.underCopied s.env new } ∧ (∀ j, j ≠ id → c.entry j = s.ctl.entry j) ∧
      c.units = vput s.ctl.units (unitOfBlock r.op.block)
        { s.ctl.units.get (unitOfBlock r.op.block) with
          queue := (s.ctl.units.get (unitOfBlock r.op.block)).queue ++ [r] }
    ∃ hs : Nat → Byte, (∀ n (j : Station), (hs n).getLsbD j.val = named n j) ∧
      (∀ p, s.ctl.entry id = none → (∀ b, x = .extent b → b.ext = 0 ∧ b.first = 0) → s.ctl.dir.length < 65536 →
        given role false p →
        ∃ c : Ctl,
          requested (program hs (.replica u) p (x.joinSlot 0) 0) .programming
            { id := id, role := role, localPage := some p, relocPage := none, pendingExt := some x.count,
              known := x.count, used := x.last, closed := decide (role = .own),
              depths := Vector.ofFn (fun j : Fin 8 => if j = s.env.me then 0 else min (depthIn x.depths j) x.count),
              targets := [], extra := none, excluded := 0, under := false, copyEnd := 0 } c) ∧
      (∀ e p, s.ctl.entry id = some e → id.origin = s.env.me → e.pendingExt = none → e.localPage = none →
        given .own false p →
        let restored : Entry :=
          { e.heard s.env x with
            known := max (e.heard s.env x).known x.count, used := max e.used x.last, pendingExt := some x.count,
            localPage := some p, copyEnd := 0 }
        s.ctl.settlesNothing s.env id restored →
        ∃ c : Ctl, requested (program hs (.replica u) p (x.joinSlot 0) 0) .programming restored c) ∧
      (∀ e a, s.ctl.entry id = some e → (id.origin = s.env.me ↔ e.role = .own) → e.pendingExt = none →
        e.localPage = some a →
        (id.origin = s.env.me → ∀ n q, s.ctl.fillOf id.seq = some (n, q) → q.failed = true) →
        let m := e.depths.get s.env.me
        let taken : Entry :=
          { e.heard s.env x with
            known := max (e.heard s.env x).known x.count, used := max e.used x.last, pendingExt := some x.count }
        s.ctl.settlesNothing s.env id taken →
        m < x.count → (∀ b, x = .extent b → b.ext.toNat = m ∧ e.closed = false) → x.joinSlot m = e.copyEnd →
        (s.ctl.inRetired a = false → e.closed = false →
          ∃ c : Ctl, requested (program hs (.replica u) a (x.joinSlot m) m) .programming taken c ∧
            c.blocks = s.ctl.blocks ∧ c.pool = s.ctl.pool) ∧
        (s.ctl.inRetired a = true ∨ e.closed = true →
          (s.ctl.openBlock e.role = none → s.ctl.pool = [] →
            exec i s = .next
              { s with ctl := { s.ctl with
                rx := vput s.ctl.rx u .free, rxNext := s.ctl.rxNext + 1,
                tx := s.ctl.tx.answer
                  { addressee := byteOf t.val, origin := byteOf id.origin.val, seq := id.seq, ext := byteOf x.number,
                    flags := bitOf x.isCopy 0, verdict := Verdict.full.code, aux := byteOf 0 } } }) ∧
          (∀ p, given e.role true p →
            (m = 0 → ∃ c : Ctl,
              requested (program hs (.replicaReloc u) p 0 0) .relocating { taken with relocPage := some p } c) ∧
            (0 < m → ∃ c : Ctl,
              requested { who := .replicaReadBack u, op := .pageRead a, emergency := false } .readingBack
                { taken with relocPage := some p } c))))

/-- A freed queue entry goes to a held request (R86, R118, R146). With the queue full, or nothing held, nothing
happens. Else the held HOLDINGS, or when none is held the oldest EXTENT or COPY, joins the queue with the next enqueue
number. After an EXTENT the owed transmissions are requested, each counting its attempts: with one that is still
wanted, whose page stands in a fill buffer and with no other EXTENT held, that one. After a COPY an owed COPY of a job
is requested likewise. -/
def Obligations.HeldRequestMet : Prop :=
  ∀ (s : State), s.env.rstLow = false →
    (11 ≤ (s.ctl.tx.entries.filter (fun e => !e.body.isPresence)).length ∨ s.ctl.tx.held = [] →
      exec .heldRequestMet s = .next s) ∧
    (∀ l b l', (s.ctl.tx.entries.filter (fun e => !e.body.isPresence)).length < 11 → s.ctl.tx.held = l ++ b :: l' →
      (∀ y ∈ l ++ l', y.isHoldings = false) → b.isHoldings = true ∨ l = [] →
      let met : Tx :=
        { s.ctl.tx with
          held := l ++ l', nextNum := s.ctl.tx.nextNum + 1,
          entries := s.ctl.tx.entries ++
            [{ num := s.ctl.tx.nextNum, sending := false, renewed := false, withdrawn := false, body := b }] }
      (b.isHoldings = true ∨
          (b.isAnyExtent = true ∧ s.ctl.owed = [] ∧ s.ctl.readBack.wants = []) ∨
          (b.isAnyCopy = true ∧ ∀ v j, s.ctl.jobs.get v = some j → j.owed = false) →
        exec .heldRequestMet s = .next { s with ctl := { s.ctl with tx := met } }) ∧
      (∀ w x n p y, b.isAnyExtent = true → s.ctl.owed = [w] → s.ctl.readBack.wants = [] →
        s.ctl.etEntry w.seq w.ext = some x → x.settled = .none → w.mask &&& x.awaiting = w.mask → w.mask ≠ 0 →
        s.ctl.fillOf w.seq = some (n, p) → p.extents.find? (fun i => i.number == w.ext) = some y →
        met.waitingExtent w.seq w.ext = false → (∀ q ∈ l ++ l', q.isAnyExtent = false) →
        exec .heldRequestMet s = .next { s with ctl := { s.ctl with
          tx := met.request (.extent w.seq y w.mask (.fill n)), owed := [],
          et := s.ctl.et.map (fun z =>
            if z.seq = w.seq ∧ z.ext = w.ext then
              { z.onRecords (fun r =>
                  if has w.mask r.station = true ∧ r.state = .awaiting then { r with attempts := r.attempts + 1 } else r) with
                timer := none }
            else z) } }) ∧
      (∀ v j, b.isAnyCopy = true → s.ctl.jobs.get v = some j → j.owed = true →
        (∀ v' j', v' ≠ v → s.ctl.jobs.get v' = some j' → j'.owed = false) → (∀ q ∈ l ++ l', q.isAnyCopy = false) →
        exec .heldRequestMet s = .next { s with ctl := { s.ctl with
          tx := met.request (.copy j.page j.target v),
          jobs := vput s.ctl.jobs v
            (some { j with state := .queued, owed := false, timer := none, attempts := j.attempts + 1 }) } }))

/-- A FREE job slot is given out (R144, R123, R152). With both slots taken, or nobody waiting for one, nothing
happens. The oldest catch-up request is granted: its job takes a FREE slot, of two the lower (log 57, the model's
choice), READING, and the read of its page's local copy is requested; when the page is remote-only with no restore
outstanding, its target's AWAITING-COPY records become SOURCELESS. With no request the waiting head task, in ACTIVE or
FROZEN, takes its step anew. -/
def Obligations.CopySlotGrant : Prop :=
  ∀ (s : State), s.env.rstLow = false →
    let runs : Prop := s.ctl.station = .active ∨ s.ctl.station = .frozen
    ((∀ v, s.ctl.jobs.get v ≠ none) ∨
        (s.ctl.catchUps = [] ∧ (s.ctl.repair = [] ∨ ¬ runs ∨ ∃ t rest, s.ctl.repair = t :: rest ∧ t.waiting = false)) →
      exec .copySlotGrant s = .next s) ∧
    (∀ v x rest, s.ctl.jobs.get v = none → (∀ v', v' < v → s.ctl.jobs.get v' ≠ none) → s.ctl.catchUps = x :: rest →
      let id : PageId := { origin := s.env.me, seq := x.seq }
      (∀ e a, s.ctl.entry id = some e → e.localPage = some a →
        exec .copySlotGrant s = .next { s with ctl := { s.ctl with
          catchUps := rest,
          jobs := vput s.ctl.jobs v
            (some { purpose := .catchUp, page := id, target := x.target, n := none, closed := false, state := .reading,
                    attempts := 0, timer := none, cancelled := false, owed := false, image := [] }),
          units := vput s.ctl.units (unitOfBlock a.block)
            { s.ctl.units.get (unitOfBlock a.block) with
              queue := (s.ctl.units.get (unitOfBlock a.block)).queue ++
                [{ who := .copyJob v, op := .pageRead a, emergency := false }] } } }) ∧
      (s.ctl.entry id = none → exec .copySlotGrant s = .next { s with ctl := { s.ctl with catchUps := rest } }) ∧
      (∀ e, s.ctl.entry id = some e → e.localPage = none →
        exec .copySlotGrant s = .next { s with ctl := { s.ctl with
          catchUps := rest,
          et := if e.pendingExt ≠ none then s.ctl.et else s.ctl.et.map (fun y =>
            if y.seq = x.seq then
              y.onRecord x.target (fun r => if r.state = .awaitingCopy then { r with state := .sourceless } else r)
            else y) } })) ∧
    (∀ v t rest, s.ctl.jobs.get v = none → s.ctl.catchUps = [] → s.ctl.repair = t :: rest → t.waiting = true → runs →
      exec .copySlotGrant s =
        exec (if t.isRecheck then .recheckWalkStep else .departureWalkStep)
          { s with ctl := { s.ctl with repair := { t with waiting := false } :: rest } })

/-- A step of the head task's walk (R150 to R153). Outside ACTIVE and FROZEN, with no task, a waiting one, or one of
the other kind, nothing happens. The walk takes the first entry at or above its cursor; with none it ends and the next
task begins at the lowest key, but a RECHECK with AGAIN set begins anew. A DEPARTURE(p) passes an own page in the
Extent Table over, and sets p's depth in any other entry to 0, here while another page stays under-copied. An
under-copied entry gets the repair decision: when the repairer is this station, no job of the page stands and there is
a target, a repair job takes a FREE slot, of two the lower (log 57, the model's choice), unless catch-ups wait, and
reads the local copy; with no slot to take the walk waits at the entry. Else the cursor goes just above it. -/
def Obligations.WalkSteps : Prop :=
  ∀ (s : State) (i : Instr), s.env.rstLow = false → i = .departureWalkStep ∨ i = .recheckWalkStep →
    let runs : Prop := s.ctl.station = .active ∨ s.ctl.station = .frozen
    let begun (l : List Task) : List Task :=
      match l with
      | [] => []
      | t :: rest => { t with cursor := 0, waiting := false } :: rest
    let decided (d : List Entry) (head : Task) (rest : List Task) (e : Entry) : Prop :=
      let wanted : Prop :=
        e.under = true ∧ e.known ≠ 0 ∧ s.ctl.repairer s.env e = some s.env.me ∧
          ∀ v j, s.ctl.jobs.get v = some j → j.page ≠ e.id
      let passed : Task := { head with waiting := false, cursor := e.id.key + 1 }
      (¬ wanted ∨ s.ctl.repairTarget s.env e s.env.me = none →
        exec i s = .next { s with ctl := { s.ctl with dir := d, repair := passed :: rest } }) ∧
      (∀ t v a, wanted → s.ctl.repairTarget s.env e s.env.me = some t → s.ctl.jobs.get v = none →
        (∀ v', v' < v → s.ctl.jobs.get v' ≠ none) → s.ctl.catchUps = [] → e.localPage = some a →
        exec i s = .next { s with ctl := { s.ctl with
          dir := d, repair := passed :: rest,
          jobs := vput s.ctl.jobs v
            (some { purpose := .repair, page := e.id, target := t, n := none, closed := false, state := .reading,
                    attempts := 0, timer := none, cancelled := false, owed := false, image := [] }),
          units := vput s.ctl.units (unitOfBlock a.block)
            { s.ctl.units.get (unitOfBlock a.block) with
              queue := (s.ctl.units.get (unitOfBlock a.block)).queue ++
                [{ who := .copyJob v, op := .pageRead a, emergency := false }] } } }) ∧
      (∀ t, wanted → s.ctl.repairTarget s.env e s.env.me = some t →
        (∀ v, s.ctl.jobs.get v ≠ none) ∨ s.ctl.catchUps ≠ [] →
        exec i s = .next { s with ctl := { s.ctl with dir := d, repair := { head with waiting := true } :: rest } })
    (¬ runs ∨ s.ctl.repair = [] ∨
        (∃ t rest, s.ctl.repair = t :: rest ∧ (t.waiting = true ∨ (t.isRecheck = true ↔ i = .departureWalkStep))) →
      exec i s = .next s) ∧
    (∀ p cursor rest, i = .departureWalkStep → runs →
      s.ctl.repair = { kind := .departure p, cursor := cursor, waiting := false } :: rest →
      ((∀ e ∈ s.ctl.dir, e.id.key < cursor) → exec i s = .next { s with ctl := { s.ctl with repair := begun rest } }) ∧
      (∀ e, s.ctl.dir.find? (fun y => decide (cursor ≤ y.id.key)) = some e → s.ctl.entry e.id = some e →
        (e.role = .own → (∃ y ∈ s.ctl.et, y.seq = e.id.seq) →
          exec i s = .next { s with ctl := { s.ctl with
            repair := { kind := .departure p, cursor := e.id.key + 1, waiting := false } :: rest } }) ∧
        (e.role = .replica ∨ (∀ y ∈ s.ctl.et, y.seq ≠ e.id.seq) → (∃ y ∈ s.ctl.dir, y.under = true ∧ y.id ≠ e.id) →
          let told : Entry := { e with depths := vput e.depths p 0 }
          let cleared : Entry := { told with under := s.ctl.underCopied s.env told }
          decided (s.ctl.dir.map (fun y => if y.id = e.id then
              { y with depths := vput y.depths p 0,
                       under := s.ctl.underCopied s.env { y with depths := vput y.depths p 0 } } else y))
            { kind := .departure p, cursor := cursor, waiting := false } rest cleared))) ∧
    (∀ seen again cursor rest, i = .recheckWalkStep → runs →
      s.ctl.repair = { kind := .recheck seen again, cursor := cursor, waiting := false } :: rest →
      ((∀ e ∈ s.ctl.dir, e.id.key < cursor) →
        exec i s = .next { s with ctl := { s.ctl with
          repair := if again then { kind := .recheck true false, cursor := 0, waiting := false } :: rest
                    else begun rest } }) ∧
      (∀ e, s.ctl.dir.find? (fun y => decide (cursor ≤ y.id.key)) = some e → s.ctl.entry e.id = some e →
        decided s.ctl.dir { kind := .recheck true again, cursor := cursor, waiting := false } rest e))

/-! ## Choices of stations (Sections 1 and 6) -/

/-- Holder counts (R12). The holder count of extent k is the number of stations whose depth is above k; that of the
page is the number whose depth equals the known extent count, and 0 when that is 0; and an own extent is durable when
its holder count is at least COPIES. -/
def Obligations.HolderCounts : Prop :=
  ∀ (c : Ctl) (k : Env) (e : Entry),
    (∀ n, e.extentHolders n = (allStations.filter (fun i => decide (n < e.depths.get i))).length) ∧
    (e.known ≠ 0 → e.pageHolders = (allStations.filter (fun i => decide (e.depths.get i = e.known))).length) ∧
    (e.known = 0 → e.pageHolders = 0) ∧
    (∀ seq n, c.entry { origin := k.me, seq := seq } = some e → (c.durable k seq n = true ↔ k.copies ≤ e.extentHolders n)) ∧
    (∀ i, i ∈ allStations) ∧ allStations.Nodup

/-- The repair target (R105): the first station in cyclic order starting at the origin that is not the repairer, counts as
PRESENT, does not count as FULL and has a depth below the full depth; none when no station qualifies. -/
def Obligations.RepairTarget : Prop :=
  ∀ (c : Ctl) (k : Env) (e : Entry) (r : Station),
    let present (i : Station) : Prop :=
      if i = k.me then c.station = .active ∨ c.station = .frozen else (c.peers.get i).state = .present
    let full (i : Station) : Prop :=
      if i = k.me then 65536 ≤ c.dir.length ∨ (c.openBlock .replica = none ∧ c.pool.length < 3)
      else (c.peers.get i).full = true
    let qualifies (i : Station) : Prop := i ≠ r ∧ present i ∧ ¬ full i ∧ e.depths.get i < e.known
    ((∀ i, ¬ qualifies i) → c.repairTarget k e r = none) ∧
    (∀ (d : Fin 8), qualifies (e.id.origin + d) → (∀ d', d' < d → ¬ qualifies (e.id.origin + d')) →
      c.repairTarget k e r = some (e.id.origin + d))

/-- The repairer of a page (R104): the origin, when it counts as PRESENT at the full depth; otherwise the
lowest-numbered station that does; none when no station does. No repair decision does anything at a station that the
rule does not name. -/
def Obligations.Repairer : Prop :=
  ∀ (c : Ctl) (k : Env) (e : Entry),
    let present (i : Station) : Prop :=
      if i = k.me then c.station = .active ∨ c.station = .frozen else (c.peers.get i).state = .present
    let deep (i : Station) : Prop := present i ∧ e.depths.get i = e.known
    (deep e.id.origin → c.repairer k e = some e.id.origin) ∧
    (∀ i, ¬ deep e.id.origin → deep i → (∀ j, j < i → ¬ deep j) → c.repairer k e = some i) ∧
    ((∀ i, ¬ deep i) → c.repairer k e = none) ∧
    (c.repairer k e ≠ some k.me → c.repairDecision k e = (c, false))

/-- The targets of an own page (R101 to R103). The assigned targets at opening are the first COPIES-1 stations in cyclic
order after the origin that count as PRESENT and not as FULL; a substitute is the first such that is neither a target
already nor excluded, and there is none when no station qualifies. -/
def Obligations.PlacementChoices : Prop :=
  ∀ (c : Ctl) (k : Env) (e : Entry),
    let present (i : Station) : Prop :=
      if i = k.me then c.station = .active ∨ c.station = .frozen else (c.peers.get i).state = .present
    let full (i : Station) : Prop :=
      if i = k.me then 65536 ≤ c.dir.length ∨ (c.openBlock .replica = none ∧ c.pool.length < 3)
      else (c.peers.get i).full = true
    let fit (i : Station) : Prop :=
      present i ∧ ¬ full i ∧ i ∉ e.targets ∧ e.extra ≠ some i ∧ e.excluded.getLsbD i.val = false
    ((∀ d, d ≠ 0 → ¬ fit (e.id.origin + d)) → c.substitute k e = none) ∧
    (∀ (d : Fin 8), d ≠ 0 → fit (e.id.origin + d) → (∀ d', d' ≠ 0 → d' < d → ¬ fit (e.id.origin + d')) →
      c.substitute k e = some (e.id.origin + d)) ∧
    (∃ (l : List (Fin 8)), c.placement k = l.map (fun d => k.me + d) ∧ l.length ≤ k.copies - 1 ∧ l.Pairwise (· < ·) ∧
      (∀ d ∈ l, d ≠ 0 ∧ present (k.me + d) ∧ ¬ full (k.me + d)) ∧
      (∀ d, d ≠ 0 → present (k.me + d) → ¬ full (k.me + d) → d ∉ l → l.length = k.copies - 1 ∧ ∀ d' ∈ l, d' < d))

/-! ## Encodings and invariants -/

/-- A frame in its envelope and back (R77, R79, R174, Tables 11-5 to 11-10). Every well-formed frame that a station
sends is received as it was sent, from that station; and every frame that passes the receiver's checks is well-formed,
and is, character for character, what its source sends of it. -/
def Obligations.FrameRoundTrip : Prop :=
  (∀ (src : Station) (f : Frame), f.wf = true → Machine.Heard.receive (f.send src) = some (src, f)) ∧
  (∀ (h : Heard) (src : Station) (f : Frame), Machine.Heard.receive h = some (src, f) → f.wf = true ∧ h = f.send src)

/-- Every step keeps the flash array in canonical form: its listed bytes in rising address order, none of them the erased
byte, and its programmed parts in rising order. -/
def Obligations.FlashStaysCanonical : Prop :=
  ∀ (s t : State), s.flash.wf → step s = .next t → t.flash.wf

/-- Every step keeps the bounds that the rules give the station's tables: the directory in key order, each identity
once, at most 65536 entries (R35, R38); at most 11 queue entries that are not PRESENCE and one that is, and a fault
count of at most 16 (R83, R86, R89); no alert bit but the five causes (R171); favour counts of at most 6 (R28); and in
the repair list one RECHECK and one DEPARTURE of each station at most (R150). -/
def Obligations.BoundsStay : Prop :=
  ∀ (s t : State), s.ctl.Ok → step s = .next t → t.ctl.Ok

end
end

