-- ==== Sys2Proof/Laws/Memory.lean ====
section
/-!
SUPPORT. Laws of the fixed collections and of the sparse memories: what a read gives after each operation, and that every
operation keeps the canonical form.
-/

namespace Sys2Proof.Machine

/-! ## Vectors -/

theorem vput_get {α : Type} {n : Nat} (v : Vector α n) (i j : Fin n) (x : α) :
    (vput v i x).get j = if j = i then x else v.get j := by
  unfold vput
  simp only [Vector.get_eq_getElem, Vector.getElem_set, Fin.ext_iff]
  by_cases h : i.val = j.val
  · simp [h]
  · simp [h, Ne.symm h]

@[simp] theorem vput_get_same {α : Type} {n : Nat} (v : Vector α n) (i : Fin n) (x : α) : (vput v i x).get i = x := by
  simp [vput_get]

theorem vput_get_other {α : Type} {n : Nat} (v : Vector α n) (i j : Fin n) (x : α) (h : j ≠ i) :
    (vput v i x).get j = v.get j := by
  simp [vput_get, h]

@[simp] theorem vmap_get {α β : Type} {n : Nat} (f : α → β) (v : Vector α n) (i : Fin n) :
    (vmap f v).get i = f (v.get i) := by
  simp [vmap, Vector.get_eq_getElem]

/-! ## The canonical form -/

theorem Memory.wfFrom_mono (d : Byte) {m : Memory} {lo lo' : Nat} (h : Memory.wfFrom d lo m = true) (hl : lo' ≤ lo) :
    Memory.wfFrom d lo' m = true := by
  cases m with
  | nil => rfl
  | cons c rest =>
    obtain ⟨a, b⟩ := c
    simp only [Memory.wfFrom, Bool.and_eq_true, decide_eq_true_eq] at h ⊢
    exact ⟨⟨le_trans hl h.1.1, h.1.2⟩, h.2⟩

/-- A canonical memory: addresses from `lo` on, ascending pairwise, no byte equal to the unlisted one. -/
theorem Memory.wfFrom_iff (d : Byte) (lo : Nat) (m : Memory) :
    Memory.wfFrom d lo m = true ↔
      (∀ c ∈ m, lo ≤ c.1 ∧ c.2 ≠ d) ∧ m.Pairwise (fun x y => x.1 < y.1) := by
  induction m generalizing lo with
  | nil => simp [Memory.wfFrom]
  | cons c rest ih =>
    obtain ⟨a, b⟩ := c
    simp only [Memory.wfFrom, Bool.and_eq_true, decide_eq_true_eq, bne_iff_ne, ne_eq, ih, List.mem_cons,
      forall_eq_or_imp, List.pairwise_cons]
    constructor
    · rintro ⟨⟨h1, h2⟩, h3, h4⟩
      exact ⟨⟨⟨h1, h2⟩, fun c hc => ⟨by have := (h3 c hc).1; omega, (h3 c hc).2⟩⟩,
        fun c hc => (h3 c hc).1, h4⟩
    · rintro ⟨⟨⟨h1, h2⟩, h3⟩, h4, h5⟩
      exact ⟨⟨h1, h2⟩, fun c hc => ⟨h4 c hc, (h3 c hc).2⟩, h5⟩

theorem Memory.wf_iff (d : Byte) (m : Memory) :
    Memory.wf d m = true ↔ (∀ c ∈ m, c.2 ≠ d) ∧ m.Pairwise (fun x y => x.1 < y.1) := by
  unfold Memory.wf
  rw [Memory.wfFrom_iff]
  simp

theorem Memory.mem_below (m : Memory) (a : Nat) (c : Host.Cell) : c ∈ m.below a ↔ c ∈ m ∧ c.1 < a := by
  simp [Memory.below]

theorem Memory.mem_above (m : Memory) (a : Nat) (c : Host.Cell) : c ∈ m.above a ↔ c ∈ m ∧ a ≤ c.1 := by
  simp [Memory.above]

theorem Memory.wf_below (d : Byte) (m : Memory) (a : Nat) (h : Memory.wf d m = true) : Memory.wf d (m.below a) = true := by
  rw [Memory.wf_iff] at h ⊢
  exact ⟨fun c hc => h.1 c ((Memory.mem_below m a c).1 hc).1, h.2.filter _⟩

theorem Memory.wf_above (d : Byte) (m : Memory) (a : Nat) (h : Memory.wf d m = true) : Memory.wf d (m.above a) = true := by
  rw [Memory.wf_iff] at h ⊢
  exact ⟨fun c hc => h.1 c ((Memory.mem_above m a c).1 hc).1, h.2.filter _⟩

theorem Memory.mem_cellsOf (d : Byte) (bytes : List Byte) (a : Nat) (c : Host.Cell) (h : c ∈ Memory.cellsOf d a bytes) :
    a ≤ c.1 ∧ c.1 < a + bytes.length ∧ c.2 ≠ d := by
  induction bytes generalizing a with
  | nil => simp [Memory.cellsOf] at h
  | cons b bs ih =>
    unfold Memory.cellsOf at h
    split at h
    · have h3 := ih (a + 1) h
      simp only [List.length_cons]
      exact ⟨by omega, by omega, h3.2.2⟩
    · rename_i hb
      simp only [List.mem_cons] at h
      rcases h with h | h
      · subst h
        simp [hb]
      · have h3 := ih (a + 1) h
        simp only [List.length_cons]
        exact ⟨by omega, by omega, h3.2.2⟩

theorem Memory.cellsOf_pairwise (d : Byte) (bytes : List Byte) (a : Nat) :
    (Memory.cellsOf d a bytes).Pairwise (fun x y => x.1 < y.1) := by
  induction bytes generalizing a with
  | nil => simp [Memory.cellsOf]
  | cons b bs ih =>
    unfold Memory.cellsOf
    split
    · exact ih (a + 1)
    · rw [List.pairwise_cons]
      exact ⟨fun c hc => by have := Memory.mem_cellsOf d bs (a + 1) c hc; simp only; omega, ih (a + 1)⟩

/-- A write keeps the canonical form. -/
theorem Memory.wf_write (d : Byte) (m : Memory) (a : Nat) (bytes : List Byte) (h : Memory.wf d m = true) :
    Memory.wf d (m.write d a bytes) = true := by
  rw [Memory.wf_iff] at h ⊢
  unfold Memory.write
  refine ⟨fun c hc => ?_, ?_⟩
  · simp only [List.mem_append] at hc
    rcases hc with hc | hc | hc
    · exact h.1 c ((Memory.mem_below _ _ _).1 hc).1
    · exact (Memory.mem_cellsOf d bytes a c hc).2.2
    · exact h.1 c ((Memory.mem_above _ _ _).1 hc).1
  · rw [List.pairwise_append, List.pairwise_append]
    refine ⟨h.2.filter _, ⟨Memory.cellsOf_pairwise d bytes a, h.2.filter _, fun x hx y hy => ?_⟩, fun x hx y hy => ?_⟩
    · have h1 := Memory.mem_cellsOf d bytes a x hx
      have h2 := ((Memory.mem_above _ _ _).1 hy).2
      omega
    · have h1 := ((Memory.mem_below _ _ _).1 hx).2
      simp only [List.mem_append] at hy
      rcases hy with hy | hy
      · have := Memory.mem_cellsOf d bytes a y hy
        omega
      · have := ((Memory.mem_above _ _ _).1 hy).2
        omega

/-- A clear keeps the canonical form. -/
theorem Memory.wf_clear (d : Byte) (m : Memory) (a len : Nat) (h : Memory.wf d m = true) :
    Memory.wf d (m.clear a len) = true := by
  rw [Memory.wf_iff] at h ⊢
  unfold Memory.clear
  refine ⟨fun c hc => ?_, ?_⟩
  · simp only [List.mem_append] at hc
    rcases hc with hc | hc
    · exact h.1 c ((Memory.mem_below _ _ _).1 hc).1
    · exact h.1 c ((Memory.mem_above _ _ _).1 hc).1
  · rw [List.pairwise_append]
    refine ⟨h.2.filter _, h.2.filter _, fun x hx y hy => ?_⟩
    have h1 := ((Memory.mem_below _ _ _).1 hx).2
    have h2 := ((Memory.mem_above _ _ _).1 hy).2
    omega

/-! ## Reads -/

theorem Memory.read_append (d : Byte) (x y : Memory) (a : Nat) :
    Memory.read d (x ++ y) a = if x.any (fun c => c.1 == a) then Memory.read d x a else Memory.read d y a := by
  induction x with
  | nil => simp
  | cons c rest ih =>
    obtain ⟨i, b⟩ := c
    by_cases h : i = a
    · simp [Memory.read, h]
    · simp [Memory.read, h, ih]

theorem Memory.read_none (d : Byte) (m : Memory) (a : Nat) (h : ∀ c ∈ m, c.1 ≠ a) : Memory.read d m a = d := by
  induction m with
  | nil => rfl
  | cons c rest ih =>
    obtain ⟨i, b⟩ := c
    have h0 : i ≠ a := h (i, b) (by simp)
    simp only [Memory.read, h0, if_false]
    exact ih (fun c hc => h c (by simp [hc]))

theorem Memory.read_below (d : Byte) (m : Memory) (a x : Nat) :
    Memory.read d (m.below a) x = if x < a then Memory.read d m x else d := by
  induction m with
  | nil => simp [Memory.below, Memory.read]
  | cons c rest ih =>
    obtain ⟨i, b⟩ := c
    unfold Memory.below at ih ⊢
    by_cases h : i < a
    · by_cases hx : i = x
      · subst hx
        simp [Memory.read, h]
      · simp [Memory.read, h, hx, ih]
    · by_cases hx : i = x
      · subst hx
        simp [h, ih]
      · simp [Memory.read, h, hx, ih]

theorem Memory.read_above (d : Byte) (m : Memory) (a x : Nat) :
    Memory.read d (m.above a) x = if a ≤ x then Memory.read d m x else d := by
  induction m with
  | nil => simp [Memory.above, Memory.read]
  | cons c rest ih =>
    obtain ⟨i, b⟩ := c
    unfold Memory.above at ih ⊢
    by_cases h : a ≤ i
    · by_cases hx : i = x
      · subst hx
        simp [Memory.read, h]
      · simp [Memory.read, h, hx, ih]
    · by_cases hx : i = x
      · subst hx
        simp [h, ih]
      · simp [Memory.read, h, hx, ih]

theorem Memory.read_cellsOf (d : Byte) (bytes : List Byte) (a x : Nat) :
    Memory.read d (Memory.cellsOf d a bytes) x = if a ≤ x then bytes.getD (x - a) d else d := by
  induction bytes generalizing a with
  | nil => simp [Memory.cellsOf, Memory.read]
  | cons b bs ih =>
    unfold Memory.cellsOf
    by_cases hx : x = a
    · subst hx
      by_cases hb : b = d
      · simp [hb, ih]
      · simp [hb, Memory.read]
    · by_cases hb : b = d
      · rw [if_pos hb, ih]
        by_cases h : a ≤ x
        · obtain ⟨n, rfl⟩ : ∃ n, x = a + 1 + n := ⟨x - a - 1, by omega⟩
          simp [show a + 1 + n - a = n + 1 by omega, show a ≤ a + 1 + n by omega]
        · simp [h, show ¬ a + 1 ≤ x by omega]
      · rw [if_neg hb]
        simp only [Memory.read, if_neg (Ne.symm hx), ih]
        by_cases h : a ≤ x
        · obtain ⟨n, rfl⟩ : ∃ n, x = a + 1 + n := ⟨x - a - 1, by omega⟩
          simp [show a + 1 + n - a = n + 1 by omega, show a ≤ a + 1 + n by omega]
        · simp [h, show ¬ a + 1 ≤ x by omega]

/-- What a byte reads as after a write: the byte written there, else what it read as before. -/
theorem Memory.read_write (d : Byte) (m : Memory) (a : Nat) (bytes : List Byte) (x : Nat) :
    Memory.read d (m.write d a bytes) x =
      if a ≤ x ∧ x < a + bytes.length then bytes.getD (x - a) d else Memory.read d m x := by
  unfold Memory.write
  rw [Memory.read_append, Memory.read_append]
  by_cases h1 : x < a
  · have hc : ¬ (Memory.cellsOf d a bytes).any (fun c => c.1 == x) = true := by
      simp only [List.any_eq_true, not_exists, not_and]
      intro c hc
      have := Memory.mem_cellsOf d bytes a c hc
      simp; omega
    rw [if_neg hc]
    by_cases hb : (m.below a).any (fun c => c.1 == x) = true
    · rw [if_pos hb, Memory.read_below, if_pos h1, if_neg (by omega)]
    · rw [if_neg hb, Memory.read_above, if_neg (by omega), if_neg (by omega)]
      rw [Memory.read_none]
      intro c hc he
      exact hb (List.any_eq_true.2 ⟨c, (Memory.mem_below m a c).2 ⟨hc, by omega⟩, by simp [he]⟩)
  · have hb : ¬ (m.below a).any (fun c => c.1 == x) = true := by
      simp only [List.any_eq_true, not_exists, not_and]
      intro c hc
      have := ((Memory.mem_below _ _ _).1 hc).2
      simp; omega
    rw [if_neg hb]
    by_cases h2 : x < a + bytes.length
    · have ha : Memory.read d (m.above (a + bytes.length)) x = d := by
        rw [Memory.read_above, if_neg (by omega)]
      have hr : a ≤ x ∧ x < a + bytes.length := ⟨by omega, h2⟩
      rw [if_pos hr]
      by_cases hc : (Memory.cellsOf d a bytes).any (fun c => c.1 == x) = true
      · rw [if_pos hc, Memory.read_cellsOf, if_pos (by omega)]
      · rw [if_neg hc, ha]
        have : Memory.read d (Memory.cellsOf d a bytes) x = d := by
          apply Memory.read_none
          intro c hc' he
          exact hc (List.any_eq_true.2 ⟨c, hc', by simp [he]⟩)
        rw [Memory.read_cellsOf, if_pos (by omega)] at this
        exact this.symm
    · have hc : ¬ (Memory.cellsOf d a bytes).any (fun c => c.1 == x) = true := by
        simp only [List.any_eq_true, not_exists, not_and]
        intro c hc
        have := Memory.mem_cellsOf d bytes a c hc
        simp; omega
      rw [if_neg hc, Memory.read_above, if_pos (by omega), if_neg (by omega)]

/-- What a byte reads as after a clear: the unlisted byte in the range, else what it read as before. -/
theorem Memory.read_clear (d : Byte) (m : Memory) (a len x : Nat) :
    Memory.read d (m.clear a len) x = if a ≤ x ∧ x < a + len then d else Memory.read d m x := by
  unfold Memory.clear
  rw [Memory.read_append]
  by_cases hb : (m.below a).any (fun c => c.1 == x) = true
  · obtain ⟨c, hc, he⟩ := List.any_eq_true.1 hb
    have := ((Memory.mem_below _ _ _).1 hc).2
    have he : c.1 = x := by simpa using he
    rw [if_pos hb, Memory.read_below, if_pos (by omega), if_neg (by omega)]
  · rw [if_neg hb, Memory.read_above]
    by_cases h1 : x < a
    · rw [if_neg (by omega), if_neg (by omega), Memory.read_none]
      intro c hc he
      exact hb (List.any_eq_true.2 ⟨c, (Memory.mem_below m a c).2 ⟨hc, by omega⟩, by simp [he]⟩)
    · by_cases h2 : a + len ≤ x
      · rw [if_pos h2, if_neg (by omega)]
      · rw [if_neg h2, if_pos (by omega)]

end Sys2Proof.Machine
end

