-- ==== Sys2Proof/Laws/Flash.lean ====
section
/-!
SUPPORT. Laws of the flash array: every operation keeps its canonical form, and changes no byte and no part but those it
names.
-/

namespace Sys2Proof.Machine

/-! ## Lists of parts -/

theorem mem_insertNat (n x : Nat) (l : List Nat) : x ∈ insertNat n l ↔ x = n ∨ x ∈ l := by
  induction l with
  | nil => simp [insertNat]
  | cons y ys ih =>
    unfold insertNat
    split
    · simp
    · split
      · rename_i h1 h2
        subst h2
        simp
      · simp only [List.mem_cons, ih]
        tauto

theorem insertNat_pairwise (n : Nat) (l : List Nat) (h : l.Pairwise (· < ·)) : (insertNat n l).Pairwise (· < ·) := by
  induction l with
  | nil => simp [insertNat]
  | cons y ys ih =>
    rw [List.pairwise_cons] at h
    unfold insertNat
    split
    · rename_i hn
      rw [List.pairwise_cons, List.pairwise_cons]
      refine ⟨fun z hz => ?_, h⟩
      rcases List.mem_cons.1 hz with hz | hz
      · omega
      · have := h.1 z hz
        omega
    · split
      · rw [List.pairwise_cons]
        exact h
      · rw [List.pairwise_cons]
        refine ⟨fun z hz => ?_, ih h.2⟩
        rcases (mem_insertNat _ _ _).1 hz with hz | hz
        · omega
        · exact h.1 z hz

/-! ## Lists of counts -/

theorem mem_raiseCountAt {x n : Nat} {l : List (Nat × Nat)} {y : Nat × Nat} (h : y ∈ raiseCountAt x n l) :
    (y.1 = x ∧ n ≤ y.2) ∨ y ∈ l := by
  induction l with
  | nil =>
    simp only [raiseCountAt, List.mem_singleton] at h
    subst h
    exact Or.inl ⟨rfl, le_refl _⟩
  | cons z zs ih =>
    unfold raiseCountAt at h
    split at h
    · rcases List.mem_cons.1 h with h | h
      · subst h
        exact Or.inl ⟨rfl, le_refl _⟩
      · exact Or.inr h
    · split at h
      · rcases List.mem_cons.1 h with h | h
        · subst h
          exact Or.inl ⟨rfl, le_max_left _ _⟩
        · exact Or.inr (List.mem_cons_of_mem _ h)
      · rcases List.mem_cons.1 h with h | h
        · exact Or.inr (h ▸ List.mem_cons_self)
        · exact (ih h).imp id (List.mem_cons_of_mem _)

theorem raiseCountAt_pairwise (x n : Nat) (l : List (Nat × Nat)) (h : l.Pairwise (fun a b => a.1 < b.1)) :
    (raiseCountAt x n l).Pairwise (fun a b => a.1 < b.1) := by
  induction l with
  | nil => simp [raiseCountAt]
  | cons z zs ih =>
    rw [List.pairwise_cons] at h
    unfold raiseCountAt
    split
    · rename_i hx
      rw [List.pairwise_cons, List.pairwise_cons]
      refine ⟨fun y hy => ?_, h⟩
      rcases List.mem_cons.1 hy with hy | hy
      · subst hy
        exact hx
      · exact lt_trans hx (h.1 y hy)
    · split
      · rename_i hx
        rw [List.pairwise_cons]
        exact ⟨fun y hy => hx ▸ h.1 y hy, h.2⟩
      · rw [List.pairwise_cons]
        refine ⟨fun y hy => ?_, ih h.2⟩
        rcases mem_raiseCountAt hy with hy | hy
        · omega
        · exact h.1 y hy

theorem countAt_none {x : Nat} {l : List (Nat × Nat)} (h : ∀ y ∈ l, y.1 ≠ x) : countAt x l = 0 := by
  induction l with
  | nil => rfl
  | cons z zs ih =>
    rw [countAt, if_neg (h z (by simp)), ih (fun y hy => h y (by simp [hy]))]

/-- The count of the number is at least the one given and the one before; the others stay. -/
theorem countAt_raiseCountAt (x n y : Nat) (l : List (Nat × Nat)) (h : l.Pairwise (fun a b => a.1 < b.1)) :
    countAt y (raiseCountAt x n l) = if y = x then max n (countAt x l) else countAt y l := by
  induction l with
  | nil =>
    by_cases hy : y = x
    · simp [raiseCountAt, countAt, hy]
    · simp [raiseCountAt, countAt, hy, Ne.symm hy]
  | cons z zs ih =>
    rw [List.pairwise_cons] at h
    have ih := ih h.2
    unfold raiseCountAt
    by_cases h1 : x < z.1
    · have hz : ¬ z.1 = x := by omega
      have hzs : countAt x zs = 0 := countAt_none (fun w hw => by have := h.1 w hw; omega)
      by_cases hy : y = x
      · simp [countAt, h1, hy, hz, hzs]
      · simp [countAt, h1, hy, Ne.symm hy]
    · by_cases h2 : x = z.1
      · subst h2
        by_cases hy : y = z.1
        · simp [countAt, hy]
        · simp [countAt, hy, Ne.symm hy]
      · by_cases hy : z.1 = y
        · subst hy
          simp [countAt, h1, h2, Ne.symm h2]
        · by_cases hx : y = x
          · subst hx
            simp [countAt, h1, h2, hy, ih]
          · simp [countAt, h1, h2, hy, hx, ih]

/-! ## Canonical form -/

theorem Flash.wf_writePart (f : Flash) (a : PageAddr) (k : Nat) (bytes : List Byte) (h : f.wf) :
    (f.writePart a k bytes).wf := by
  unfold Flash.writePart
  split
  · refine ⟨Memory.wf_write _ _ _ _ h.1, insertNat_pairwise _ _ h.2.1, h.2.2.1.filter _, fun x hx => ?_⟩
    have := h.2.2.2 x (List.mem_filter.1 hx).1
    exact ⟨this.1, (mem_insertNat _ _ _).2 (Or.inr this.2)⟩
  · exact h

theorem Flash.wf_erasePart (f : Flash) (a : PageAddr) (k : Nat) (h : f.wf) : (f.erasePart a k).wf := by
  refine ⟨Memory.wf_clear _ _ _ _ h.1, h.2.1.filter _, h.2.2.1.filter _, fun x hx => ?_⟩
  have hm := List.mem_filter.1 hx
  have := h.2.2.2 x hm.1
  exact ⟨this.1, List.mem_filter.2 ⟨this.2, hm.2⟩⟩

theorem Flash.wf_keepErrors (f : Flash) (a : PageAddr) (r : ReadReport) (k : Fin 12) (h : f.wf) :
    (f.keepErrors a r k).wf := by
  unfold Flash.keepErrors
  split
  · rename_i hc
    simp only [Bool.and_eq_true, decide_eq_true_eq, Flash.programmed, List.contains_iff_mem] at hc
    refine ⟨h.1, h.2.1, raiseCountAt_pairwise _ _ _ h.2.2.1, fun x hx => ?_⟩
    rcases mem_raiseCountAt hx with hx | hx
    · exact ⟨by omega, hx.1 ▸ hc.1⟩
    · exact h.2.2.2 x hx
  · exact h

theorem Flash.wf_writeParts (a : PageAddr) (l : List (Nat × List Byte)) (f : Flash) (h : f.wf) :
    (f.writeParts a l).wf := by
  unfold Flash.writeParts
  induction l generalizing f with
  | nil => exact h
  | cons x rest ih => exact ih _ (Flash.wf_writePart _ _ _ _ h)

theorem Flash.wf_programPass (f : Flash) (p : ProgramReq) (data : List Byte) (n : Nat) (h : f.wf) :
    (f.programPass p data n).wf := Flash.wf_writeParts _ _ _ h

theorem Flash.wf_programFail (f : Flash) (p : ProgramReq) (n : Nat) (h : f.wf) : (f.programFail p n).wf :=
  Flash.wf_writeParts _ _ _ h

theorem Flash.wf_programCut (f : Flash) (p : ProgramReq) (n : Nat) (h : f.wf) : (f.programCut p n).wf :=
  Flash.wf_writeParts _ _ _ h

theorem Flash.wf_erasePass (f : Flash) (b : Nat) (h : f.wf) : (f.erasePass b).wf := by
  refine ⟨Memory.wf_clear _ _ _ _ h.1, h.2.1.filter _, h.2.2.1.filter _, fun x hx => ?_⟩
  have hm := List.mem_filter.1 hx
  have := h.2.2.2 x hm.1
  exact ⟨this.1, List.mem_filter.2 ⟨this.2, hm.2⟩⟩

theorem Flash.wf_disturb (f : Flash) (n : Nat) (a : PageAddr) (k : Nat) (h : f.wf) :
    (f.disturb n a k).wf := by
  unfold Flash.disturb
  split
  · exact h
  · exact Flash.wf_writePart _ _ _ _ h
  · exact Flash.wf_erasePart _ _ _ h

/-- A fold of changes that each keep a property keeps it. -/
theorem foldl_keeps {α β : Type} (P : β → Prop) (g : β → α → β) (hg : ∀ b x, P b → P (g b x)) (l : List α) (b : β)
    (h : P b) : P (l.foldl g b) := by
  induction l generalizing b with
  | nil => exact h
  | cons x rest ih => exact ih _ (hg _ _ h)

theorem Flash.wf_eraseFail (f : Flash) (b n : Nat) (h : f.wf) : (f.eraseFail b n).wf :=
  foldl_keeps Flash.wf _ (fun _ _ hg => Flash.wf_disturb _ _ _ _ hg) _ _ h

theorem Flash.wf_afterRead (f : Flash) (a : PageAddr) (r : ReadReport) (h : f.wf) : (f.afterRead a r).wf :=
  foldl_keeps Flash.wf _ (fun _ _ hg => Flash.wf_keepErrors _ _ _ _ hg) _ _ h

theorem Flash.wf_afterHeaderRead (f : Flash) (a : PageAddr) (r : ReadReport) (h : f.wf) : (f.afterHeaderRead a r).wf :=
  foldl_keeps Flash.wf _ (fun _ _ hg => Flash.wf_keepErrors _ _ _ _ hg) _ _ h

theorem Flash.wf_eraseCut (f : Flash) (b n : Nat) (h : f.wf) : (f.eraseCut b n).wf := by
  unfold Flash.eraseCut
  refine foldl_keeps Flash.wf _ (fun g x hg => ?_) _ _ h
  split
  · exact Flash.wf_erasePart _ _ _ hg
  · split
    · exact Flash.wf_disturb _ _ _ _ hg
    · exact hg

theorem Flash.wf_cutShort (f : Flash) (b : Option Busy) (n : Nat) (h : f.wf) : (f.cutShort b n).wf := by
  unfold Flash.cutShort
  split
  · exact h
  · split
    · exact h
    · exact h
    · exact Flash.wf_programCut _ _ _ h
    · exact Flash.wf_eraseCut _ _ _ h

theorem Flash.wf_afterProgram (f : Flash) (p : ProgramReq) (data : List Byte) (r : ProgramReport) (n : Nat)
    (h : f.wf) : (f.afterProgram p data r n).wf := by
  unfold Flash.afterProgram
  split
  · exact Flash.wf_programPass _ _ _ _ h
  · exact Flash.wf_programFail _ _ _ h

theorem Flash.wf_afterErase (f : Flash) (b : Nat) (r : EraseReport) (n : Nat) (h : f.wf) :
    (f.afterErase b r n).wf := by
  unfold Flash.afterErase
  split
  · exact Flash.wf_erasePass _ _ h
  · exact Flash.wf_eraseFail _ _ _ h

/-! ## What a read keeps -/

/-- A read changes no byte and no programmed part: it keeps counts of bits in error alone. -/
theorem Flash.keepErrors_keeps (f : Flash) (a : PageAddr) (r : ReadReport) (k : Fin 12) :
    (f.keepErrors a r k).cells = f.cells ∧ (f.keepErrors a r k).parts = f.parts := by
  unfold Flash.keepErrors
  split <;> exact ⟨rfl, rfl⟩

theorem Flash.foldErrors_keeps (a : PageAddr) (r : ReadReport) (l : List (Fin 12)) (f : Flash) :
    (l.foldl (fun g k => g.keepErrors a r k) f).cells = f.cells ∧
      (l.foldl (fun g k => g.keepErrors a r k) f).parts = f.parts := by
  induction l generalizing f with
  | nil => exact ⟨rfl, rfl⟩
  | cons k rest ih =>
    rw [List.foldl_cons, (ih _).1, (ih _).2]
    exact Flash.keepErrors_keeps f a r k

@[simp] theorem Flash.afterRead_cells (f : Flash) (a : PageAddr) (r : ReadReport) : (f.afterRead a r).cells = f.cells :=
  (Flash.foldErrors_keeps a r _ f).1

@[simp] theorem Flash.afterRead_parts (f : Flash) (a : PageAddr) (r : ReadReport) : (f.afterRead a r).parts = f.parts :=
  (Flash.foldErrors_keeps a r _ f).2

@[simp] theorem Flash.afterHeaderRead_cells (f : Flash) (a : PageAddr) (r : ReadReport) :
    (f.afterHeaderRead a r).cells = f.cells := (Flash.foldErrors_keeps a r _ f).1

@[simp] theorem Flash.afterHeaderRead_parts (f : Flash) (a : PageAddr) (r : ReadReport) :
    (f.afterHeaderRead a r).parts = f.parts := (Flash.foldErrors_keeps a r _ f).2

theorem PageAddr.partNo_eq {a : PageAddr} {i k : Nat} : a.partNo i = a.partNo k ↔ i = k := by
  unfold PageAddr.partNo
  omega

theorem Flash.programmed_foldErrors (a b : PageAddr) (r : ReadReport) (l : List (Fin 12)) (f : Flash) (k : Nat) :
    (l.foldl (fun g k => g.keepErrors a r k) f).programmed b k = f.programmed b k := by
  unfold Flash.programmed
  rw [(Flash.foldErrors_keeps a r l f).2]

theorem Flash.wear_keepErrors (f : Flash) (a : PageAddr) (r : ReadReport) (i : Fin 12) (k : Nat) (h : f.wf) :
    (f.keepErrors a r i).wear a k =
      if k = i.val ∧ f.programmed a k = true then max (f.wear a k) (r.get i) else f.wear a k := by
  unfold Flash.keepErrors Flash.wear
  by_cases hk : k = i.val
  · subst hk
    by_cases hp : f.programmed a i.val = true
    · by_cases hr : r.get i = 0
      · simp [hr]
      · simp only [hp, hr, decide_true, Bool.and_true, ne_eq, not_false_eq_true, if_true, and_true]
        rw [countAt_raiseCountAt _ _ _ _ h.2.2.1, if_pos rfl, max_comm]
    · simp [hp]
  · have hn : ¬ (k = i.val ∧ f.programmed a k = true) := fun e => hk e.1
    rw [if_neg hn]
    split
    · exact (countAt_raiseCountAt _ _ _ _ h.2.2.1).trans (if_neg (fun e => hk (PageAddr.partNo_eq.1 e)))
    · rfl

theorem Flash.wear_foldErrors (a : PageAddr) (r : ReadReport) (l : List (Fin 12)) (f : Flash) (k : Fin 12) (h : f.wf) :
    (l.foldl (fun g k => g.keepErrors a r k) f).wear a k =
      if k ∈ l ∧ f.programmed a k = true then f.errorBits a r k else f.wear a k := by
  induction l generalizing f with
  | nil => simp
  | cons i rest ih =>
    rw [List.foldl_cons, ih _ (Flash.wf_keepErrors _ _ _ _ h)]
    have hp : (f.keepErrors a r i).programmed a k = f.programmed a k := by
      unfold Flash.programmed
      rw [(Flash.keepErrors_keeps f a r i).2]
    unfold Flash.errorBits
    rw [hp, Flash.wear_keepErrors _ _ _ _ _ h]
    by_cases hki : k = i
    · subst hki
      by_cases hq : f.programmed a k = true
      · simp [hq]
      · simp [hq]
    · have hv : ¬ k.val = i.val := fun e => hki (Fin.ext e)
      simp [hki, hv]

/-- What later reads find of a part after a page read (R20): the bits in error that it found, never fewer. -/
theorem Flash.wear_afterRead (f : Flash) (a : PageAddr) (r : ReadReport) (k : Fin 12) (h : f.wf) :
    (f.afterRead a r).wear a k = if f.programmed a k = true then f.errorBits a r k else f.wear a k := by
  unfold Flash.afterRead
  rw [Flash.wear_foldErrors _ _ _ _ _ h]
  have hk : k ∈ allParts := by revert k; decide
  simp [hk]

/-- What later reads find of a part after a header read (R20). -/
theorem Flash.wear_afterHeaderRead (f : Flash) (a : PageAddr) (r : ReadReport) (k : Fin 12) (h : f.wf) :
    (f.afterHeaderRead a r).wear a k =
      if 8 ≤ k.val ∧ f.programmed a k = true then f.errorBits a r k else f.wear a k := by
  unfold Flash.afterHeaderRead
  rw [Flash.wear_foldErrors _ _ _ _ _ h]
  have hk : k ∈ headerPartNos ↔ 8 ≤ k.val := by revert k; decide
  simp only [hk]

/-! ## What an operation leaves alone -/

theorem Flash.byteAt_writePart (f : Flash) (a : PageAddr) (k : Nat) (bytes : List Byte) (x : Nat)
    (h : ¬ a.inPart k x) : (f.writePart a k bytes).byteAt x = f.byteAt x := by
  unfold Flash.writePart
  split
  · unfold Flash.byteAt
    rw [Memory.read_write, if_neg]
    rintro ⟨h1, h2⟩
    have : (bytes.take (partLength k)).length ≤ partLength k := List.length_take_le _ _
    exact h ⟨h1, by omega⟩
  · rfl

theorem Flash.byteAt_erasePart (f : Flash) (a : PageAddr) (k x : Nat) (h : ¬ a.inPart k x) :
    (f.erasePart a k).byteAt x = f.byteAt x := by
  unfold Flash.erasePart Flash.byteAt
  rw [Memory.read_clear, if_neg]
  exact h

/-- A write of parts changes no byte outside them. -/
theorem Flash.byteAt_writeParts (a : PageAddr) (l : List (Nat × List Byte)) (f : Flash) (x : Nat)
    (h : ∀ y ∈ l, ¬ a.inPart y.1 x) : (f.writeParts a l).byteAt x = f.byteAt x := by
  unfold Flash.writeParts
  induction l generalizing f with
  | nil => rfl
  | cons y rest ih =>
    rw [List.foldl_cons, ih _ (fun z hz => h z (by simp [hz]))]
    exact Flash.byteAt_writePart _ _ _ _ _ (h y (by simp))

theorem Flash.mem_writeParts (a : PageAddr) (l : List (Nat × List Byte)) (f : Flash) (n : Nat)
    (h : ∀ y ∈ l, n ≠ a.partNo y.1) : n ∈ (f.writeParts a l).parts ↔ n ∈ f.parts := by
  unfold Flash.writeParts
  induction l generalizing f with
  | nil => rfl
  | cons y rest ih =>
    rw [List.foldl_cons, ih _ (fun z hz => h z (by simp [hz]))]
    unfold Flash.writePart
    split
    · have := h y (by simp)
      simp [mem_insertNat, this]
    · rfl

/-- A part of a block's page lies in the block. -/
theorem PageAddr.inPart_inBlock (a : PageAddr) (k x : Nat) (hp : a.page < 128) (hk : k < 12) (h : a.inPart k x) :
    inBlock a.block x := by
  unfold PageAddr.inPart PageAddr.partBase PageAddr.index partOffset partLength pageBytes at h
  unfold inBlock pageBytes
  have hp' : a.page ≤ 127 := by omega
  have hk' : k ≤ 11 := by omega
  by_cases hk8 : k < 8
  · simp only [hk8, if_true] at h
    have hk7 : k ≤ 7 := by omega
    constructor <;> nlinarith [h.1, h.2]
  · simp only [hk8, if_false] at h
    have hk3 : k - 8 ≤ 3 := by omega
    constructor <;> nlinarith [h.1, h.2]

theorem blockParts_mem (b : Nat) (y : PageAddr × Nat) (h : y ∈ blockParts b) :
    y.1.block = b ∧ y.1.page < 128 ∧ y.2 < 12 := by
  unfold blockParts at h
  simp only [List.mem_flatMap, List.mem_range, List.mem_map] at h
  obtain ⟨p, hp, k, hk, rfl⟩ := h
  exact ⟨rfl, hp, hk⟩

theorem Flash.byteAt_disturb (f : Flash) (n : Nat) (a : PageAddr) (k x : Nat) (h : ¬ a.inPart k x) :
    (f.disturb n a k).byteAt x = f.byteAt x := by
  unfold Flash.disturb
  split
  · rfl
  · exact Flash.byteAt_writePart _ _ _ _ _ h
  · exact Flash.byteAt_erasePart _ _ _ _ h

theorem byteAt_foldl {α : Type} (g : Flash → α → Flash) (x : Nat) (l : List α)
    (hg : ∀ f, ∀ y ∈ l, (g f y).byteAt x = f.byteAt x) (f : Flash) : (l.foldl g f).byteAt x = f.byteAt x := by
  induction l generalizing f with
  | nil => rfl
  | cons y rest ih =>
    rw [List.foldl_cons, ih (fun f z hz => hg f z (by simp [hz]))]
    exact hg f y (by simp)

/-- An erase changes no byte outside its block, however it ends. -/
theorem Flash.byteAt_erasePass (f : Flash) (b x : Nat) (h : ¬ inBlock b x) : (f.erasePass b).byteAt x = f.byteAt x := by
  unfold Flash.erasePass Flash.byteAt
  rw [Memory.read_clear, if_neg]
  rintro ⟨h1, h2⟩
  exact h ⟨h1, by unfold pageBytes at *; omega⟩

theorem Flash.byteAt_eraseFail (f : Flash) (b n x : Nat) (h : ¬ inBlock b x) :
    (f.eraseFail b n).byteAt x = f.byteAt x := by
  refine byteAt_foldl _ x _ (fun g y hy => ?_) f
  obtain ⟨h1, h2, h3⟩ := blockParts_mem b y hy
  exact Flash.byteAt_disturb _ _ _ _ _ (fun hp => h (h1 ▸ PageAddr.inPart_inBlock _ _ _ h2 h3 hp))

theorem Flash.byteAt_eraseCut (f : Flash) (b n x : Nat) (h : ¬ inBlock b x) :
    (f.eraseCut b n).byteAt x = f.byteAt x := by
  unfold Flash.eraseCut
  refine byteAt_foldl _ x _ (fun g y hy => ?_) f
  obtain ⟨h1, h2, h3⟩ := blockParts_mem b y hy
  have hq : ¬ y.1.inPart y.2 x := fun hp => h (h1 ▸ PageAddr.inPart_inBlock _ _ _ h2 h3 hp)
  split
  · exact Flash.byteAt_erasePart _ _ _ _ hq
  · split
    · exact Flash.byteAt_disturb _ _ _ _ _ hq
    · rfl

theorem Flash.byteAt_afterErase (f : Flash) (b : Nat) (r : EraseReport) (n x : Nat) (h : ¬ inBlock b x) :
    (f.afterErase b r n).byteAt x = f.byteAt x := by
  unfold Flash.afterErase
  split
  · exact Flash.byteAt_erasePass _ _ _ h
  · exact Flash.byteAt_eraseFail _ _ _ _ h

theorem ProgramReq.names_headerParts (p : ProgramReq) (y : Nat × List Byte) (h : y ∈ p.headerParts) : p.names y.1 := by
  unfold ProgramReq.headerParts at h
  simp only [List.mem_append, List.mem_map] at h
  rcases h with h | ⟨d, hd, rfl⟩
  · split at h
    · rename_i b hb
      simp only [List.mem_singleton] at h
      subst h
      exact Or.inr (Or.inl ⟨rfl, by simp [hb]⟩)
    · simp at h
  · exact Or.inr (Or.inr ⟨d, hd, rfl⟩)

/-- A program changes no byte outside the parts that it names, whether it passes, fails or is cut short. -/
theorem Flash.byteAt_programPass (f : Flash) (p : ProgramReq) (data : List Byte) (n x : Nat)
    (h : ∀ k, p.names k → ¬ p.page.inPart k x) : (f.programPass p data n).byteAt x = f.byteAt x := by
  unfold Flash.programPass
  refine Flash.byteAt_writeParts _ _ _ _ (fun y hy => ?_)
  simp only [List.mem_map, List.mem_append] at hy
  obtain ⟨z, hz, rfl⟩ := hy
  have hk : p.names z.1 := by
    rcases hz with hz | hz
    · unfold ProgramReq.slotParts at hz
      simp only [List.mem_map, List.mem_range] at hz
      obtain ⟨i, hi, rfl⟩ := hz
      exact Or.inl ⟨by simp, by simpa using hi⟩
    · exact p.names_headerParts z hz
  split
  · exact h _ hk
  · exact h _ hk

theorem Flash.byteAt_programFail (f : Flash) (p : ProgramReq) (n x : Nat)
    (h : ∀ k, p.names k → ¬ p.page.inPart k x) : (f.programFail p n).byteAt x = f.byteAt x := by
  unfold Flash.programFail
  refine Flash.byteAt_writeParts _ _ _ _ (fun y hy => ?_)
  simp only [List.mem_map, List.mem_append, List.mem_range] at hy
  rcases hy with ⟨i, hi, rfl⟩ | ⟨z, hz, rfl⟩
  · exact h _ (Or.inl ⟨by simp, by simpa using hi⟩)
  · exact h _ (p.names_headerParts z hz)

theorem Flash.byteAt_programCut (f : Flash) (p : ProgramReq) (n x : Nat)
    (h : ∀ k, p.names k → ¬ p.page.inPart k x) : (f.programCut p n).byteAt x = f.byteAt x := by
  unfold Flash.programCut
  refine Flash.byteAt_writeParts _ _ _ _ (fun y hy => ?_)
  simp only [List.mem_map, List.mem_append, List.mem_range] at hy
  rcases hy with ⟨i, hi, rfl⟩ | ⟨z, hz, rfl⟩
  · exact h _ (Or.inl ⟨by simp, by simpa using hi⟩)
  · exact h _ (p.names_headerParts z hz)

theorem Flash.byteAt_afterProgram (f : Flash) (p : ProgramReq) (data : List Byte) (r : ProgramReport) (n x : Nat)
    (h : ∀ k, p.names k → ¬ p.page.inPart k x) : (f.afterProgram p data r n).byteAt x = f.byteAt x := by
  unfold Flash.afterProgram
  split
  · exact Flash.byteAt_programPass _ _ _ _ _ h
  · exact Flash.byteAt_programFail _ _ _ _ h

end Sys2Proof.Machine
end

