-- ==== Sys2Proof/Laws/State.lean ====
section
/-!
SUPPORT. What each update of the controller does to each field: one lemma per field per update, all by rfl.
-/

namespace Sys2Proof.Machine

/-! ### setBlock -/

@[simp] theorem Ctl.setBlock_station (c : Ctl) (x : Block) : (c.setBlock x).station = c.station := rfl
@[simp] theorem Ctl.setBlock_window (c : Ctl) (x : Block) : (c.setBlock x).window = c.window := rfl
@[simp] theorem Ctl.setBlock_firstWindow (c : Ctl) (x : Block) : (c.setBlock x).firstWindow = c.firstWindow := rfl
@[simp] theorem Ctl.setBlock_presence (c : Ctl) (x : Block) : (c.setBlock x).presence = c.presence := rfl
@[simp] theorem Ctl.setBlock_gen (c : Ctl) (x : Block) : (c.setBlock x).gen = c.gen := rfl
@[simp] theorem Ctl.setBlock_ownMark (c : Ctl) (x : Block) : (c.setBlock x).ownMark = c.ownMark := rfl
@[simp] theorem Ctl.setBlock_nextSeq (c : Ctl) (x : Block) : (c.setBlock x).nextSeq = c.nextSeq := rfl
@[simp] theorem Ctl.setBlock_frontier (c : Ctl) (x : Block) : (c.setBlock x).frontier = c.frontier := rfl
@[simp] theorem Ctl.setBlock_mark (c : Ctl) (x : Block) : (c.setBlock x).mark = c.mark := rfl
@[simp] theorem Ctl.setBlock_mount (c : Ctl) (x : Block) : (c.setBlock x).mount = c.mount := rfl
@[simp] theorem Ctl.setBlock_units (c : Ctl) (x : Block) : (c.setBlock x).units = c.units := rfl
@[simp] theorem Ctl.setBlock_completed (c : Ctl) (x : Block) : (c.setBlock x).completed = c.completed := rfl
@[simp] theorem Ctl.setBlock_blocks (c : Ctl) (x : Block) : (c.setBlock x).blocks = putBlock x c.blocks := rfl
@[simp] theorem Ctl.setBlock_pool (c : Ctl) (x : Block) : (c.setBlock x).pool = c.pool := rfl
@[simp] theorem Ctl.setBlock_dir (c : Ctl) (x : Block) : (c.setBlock x).dir = c.dir := rfl
@[simp] theorem Ctl.setBlock_fill (c : Ctl) (x : Block) : (c.setBlock x).fill = c.fill := rfl
@[simp] theorem Ctl.setBlock_et (c : Ctl) (x : Block) : (c.setBlock x).et = c.et := rfl
@[simp] theorem Ctl.setBlock_owed (c : Ctl) (x : Block) : (c.setBlock x).owed = c.owed := rfl
@[simp] theorem Ctl.setBlock_readBack (c : Ctl) (x : Block) : (c.setBlock x).readBack = c.readBack := rfl
@[simp] theorem Ctl.setBlock_rx (c : Ctl) (x : Block) : (c.setBlock x).rx = c.rx := rfl
@[simp] theorem Ctl.setBlock_rxNext (c : Ctl) (x : Block) : (c.setBlock x).rxNext = c.rxNext := rfl
@[simp] theorem Ctl.setBlock_tx (c : Ctl) (x : Block) : (c.setBlock x).tx = c.tx := rfl
@[simp] theorem Ctl.setBlock_peers (c : Ctl) (x : Block) : (c.setBlock x).peers = c.peers := rfl
@[simp] theorem Ctl.setBlock_jobs (c : Ctl) (x : Block) : (c.setBlock x).jobs = c.jobs := rfl
@[simp] theorem Ctl.setBlock_catchUps (c : Ctl) (x : Block) : (c.setBlock x).catchUps = c.catchUps := rfl
@[simp] theorem Ctl.setBlock_repair (c : Ctl) (x : Block) : (c.setBlock x).repair = c.repair := rfl
@[simp] theorem Ctl.setBlock_recheck (c : Ctl) (x : Block) : (c.setBlock x).recheck = c.recheck := rfl
@[simp] theorem Ctl.setBlock_holdings (c : Ctl) (x : Block) : (c.setBlock x).holdings = c.holdings := rfl
@[simp] theorem Ctl.setBlock_port (c : Ctl) (x : Block) : (c.setBlock x).port = c.port := rfl
@[simp] theorem Ctl.setBlock_pair (c : Ctl) (x : Block) : (c.setBlock x).pair = c.pair := rfl
@[simp] theorem Ctl.setBlock_scan (c : Ctl) (x : Block) : (c.setBlock x).scan = c.scan := rfl
@[simp] theorem Ctl.setBlock_alerts (c : Ctl) (x : Block) : (c.setBlock x).alerts = c.alerts := rfl

/-! ### setUnit -/

@[simp] theorem Ctl.setUnit_station (c : Ctl) (u : UnitNo) (x : UnitState) : (c.setUnit u x).station = c.station := rfl
@[simp] theorem Ctl.setUnit_window (c : Ctl) (u : UnitNo) (x : UnitState) : (c.setUnit u x).window = c.window := rfl
@[simp] theorem Ctl.setUnit_firstWindow (c : Ctl) (u : UnitNo) (x : UnitState) :
    (c.setUnit u x).firstWindow = c.firstWindow := rfl
@[simp] theorem Ctl.setUnit_presence (c : Ctl) (u : UnitNo) (x : UnitState) :
    (c.setUnit u x).presence = c.presence := rfl
@[simp] theorem Ctl.setUnit_gen (c : Ctl) (u : UnitNo) (x : UnitState) : (c.setUnit u x).gen = c.gen := rfl
@[simp] theorem Ctl.setUnit_ownMark (c : Ctl) (u : UnitNo) (x : UnitState) : (c.setUnit u x).ownMark = c.ownMark := rfl
@[simp] theorem Ctl.setUnit_nextSeq (c : Ctl) (u : UnitNo) (x : UnitState) : (c.setUnit u x).nextSeq = c.nextSeq := rfl
@[simp] theorem Ctl.setUnit_frontier (c : Ctl) (u : UnitNo) (x : UnitState) :
    (c.setUnit u x).frontier = c.frontier := rfl
@[simp] theorem Ctl.setUnit_mark (c : Ctl) (u : UnitNo) (x : UnitState) : (c.setUnit u x).mark = c.mark := rfl
@[simp] theorem Ctl.setUnit_mount (c : Ctl) (u : UnitNo) (x : UnitState) : (c.setUnit u x).mount = c.mount := rfl
@[simp] theorem Ctl.setUnit_units (c : Ctl) (u : UnitNo) (x : UnitState) :
    (c.setUnit u x).units = vput c.units u x := rfl
@[simp] theorem Ctl.setUnit_completed (c : Ctl) (u : UnitNo) (x : UnitState) :
    (c.setUnit u x).completed = c.completed := rfl
@[simp] theorem Ctl.setUnit_blocks (c : Ctl) (u : UnitNo) (x : UnitState) : (c.setUnit u x).blocks = c.blocks := rfl
@[simp] theorem Ctl.setUnit_pool (c : Ctl) (u : UnitNo) (x : UnitState) : (c.setUnit u x).pool = c.pool := rfl
@[simp] theorem Ctl.setUnit_dir (c : Ctl) (u : UnitNo) (x : UnitState) : (c.setUnit u x).dir = c.dir := rfl
@[simp] theorem Ctl.setUnit_fill (c : Ctl) (u : UnitNo) (x : UnitState) : (c.setUnit u x).fill = c.fill := rfl
@[simp] theorem Ctl.setUnit_et (c : Ctl) (u : UnitNo) (x : UnitState) : (c.setUnit u x).et = c.et := rfl
@[simp] theorem Ctl.setUnit_owed (c : Ctl) (u : UnitNo) (x : UnitState) : (c.setUnit u x).owed = c.owed := rfl
@[simp] theorem Ctl.setUnit_readBack (c : Ctl) (u : UnitNo) (x : UnitState) :
    (c.setUnit u x).readBack = c.readBack := rfl
@[simp] theorem Ctl.setUnit_rx (c : Ctl) (u : UnitNo) (x : UnitState) : (c.setUnit u x).rx = c.rx := rfl
@[simp] theorem Ctl.setUnit_rxNext (c : Ctl) (u : UnitNo) (x : UnitState) : (c.setUnit u x).rxNext = c.rxNext := rfl
@[simp] theorem Ctl.setUnit_tx (c : Ctl) (u : UnitNo) (x : UnitState) : (c.setUnit u x).tx = c.tx := rfl
@[simp] theorem Ctl.setUnit_peers (c : Ctl) (u : UnitNo) (x : UnitState) : (c.setUnit u x).peers = c.peers := rfl
@[simp] theorem Ctl.setUnit_jobs (c : Ctl) (u : UnitNo) (x : UnitState) : (c.setUnit u x).jobs = c.jobs := rfl
@[simp] theorem Ctl.setUnit_catchUps (c : Ctl) (u : UnitNo) (x : UnitState) :
    (c.setUnit u x).catchUps = c.catchUps := rfl
@[simp] theorem Ctl.setUnit_repair (c : Ctl) (u : UnitNo) (x : UnitState) : (c.setUnit u x).repair = c.repair := rfl
@[simp] theorem Ctl.setUnit_recheck (c : Ctl) (u : UnitNo) (x : UnitState) : (c.setUnit u x).recheck = c.recheck := rfl
@[simp] theorem Ctl.setUnit_holdings (c : Ctl) (u : UnitNo) (x : UnitState) :
    (c.setUnit u x).holdings = c.holdings := rfl
@[simp] theorem Ctl.setUnit_port (c : Ctl) (u : UnitNo) (x : UnitState) : (c.setUnit u x).port = c.port := rfl
@[simp] theorem Ctl.setUnit_pair (c : Ctl) (u : UnitNo) (x : UnitState) : (c.setUnit u x).pair = c.pair := rfl
@[simp] theorem Ctl.setUnit_scan (c : Ctl) (u : UnitNo) (x : UnitState) : (c.setUnit u x).scan = c.scan := rfl
@[simp] theorem Ctl.setUnit_alerts (c : Ctl) (u : UnitNo) (x : UnitState) : (c.setUnit u x).alerts = c.alerts := rfl

/-! ### setFill -/

@[simp] theorem Ctl.setFill_station (c : Ctl) (b : Fin 2) (p : Option FillPage) :
    (c.setFill b p).station = c.station := rfl
@[simp] theorem Ctl.setFill_window (c : Ctl) (b : Fin 2) (p : Option FillPage) :
    (c.setFill b p).window = c.window := rfl
@[simp] theorem Ctl.setFill_firstWindow (c : Ctl) (b : Fin 2) (p : Option FillPage) :
    (c.setFill b p).firstWindow = c.firstWindow := rfl
@[simp] theorem Ctl.setFill_presence (c : Ctl) (b : Fin 2) (p : Option FillPage) :
    (c.setFill b p).presence = c.presence := rfl
@[simp] theorem Ctl.setFill_gen (c : Ctl) (b : Fin 2) (p : Option FillPage) : (c.setFill b p).gen = c.gen := rfl
@[simp] theorem Ctl.setFill_ownMark (c : Ctl) (b : Fin 2) (p : Option FillPage) :
    (c.setFill b p).ownMark = c.ownMark := rfl
@[simp] theorem Ctl.setFill_nextSeq (c : Ctl) (b : Fin 2) (p : Option FillPage) :
    (c.setFill b p).nextSeq = c.nextSeq := rfl
@[simp] theorem Ctl.setFill_frontier (c : Ctl) (b : Fin 2) (p : Option FillPage) :
    (c.setFill b p).frontier = c.frontier := rfl
@[simp] theorem Ctl.setFill_mark (c : Ctl) (b : Fin 2) (p : Option FillPage) : (c.setFill b p).mark = c.mark := rfl
@[simp] theorem Ctl.setFill_mount (c : Ctl) (b : Fin 2) (p : Option FillPage) : (c.setFill b p).mount = c.mount := rfl
@[simp] theorem Ctl.setFill_units (c : Ctl) (b : Fin 2) (p : Option FillPage) : (c.setFill b p).units = c.units := rfl
@[simp] theorem Ctl.setFill_completed (c : Ctl) (b : Fin 2) (p : Option FillPage) :
    (c.setFill b p).completed = c.completed := rfl
@[simp] theorem Ctl.setFill_blocks (c : Ctl) (b : Fin 2) (p : Option FillPage) :
    (c.setFill b p).blocks = c.blocks := rfl
@[simp] theorem Ctl.setFill_pool (c : Ctl) (b : Fin 2) (p : Option FillPage) : (c.setFill b p).pool = c.pool := rfl
@[simp] theorem Ctl.setFill_dir (c : Ctl) (b : Fin 2) (p : Option FillPage) : (c.setFill b p).dir = c.dir := rfl
@[simp] theorem Ctl.setFill_fill (c : Ctl) (b : Fin 2) (p : Option FillPage) :
    (c.setFill b p).fill = vput c.fill b p := rfl
@[simp] theorem Ctl.setFill_et (c : Ctl) (b : Fin 2) (p : Option FillPage) : (c.setFill b p).et = c.et := rfl
@[simp] theorem Ctl.setFill_owed (c : Ctl) (b : Fin 2) (p : Option FillPage) : (c.setFill b p).owed = c.owed := rfl
@[simp] theorem Ctl.setFill_readBack (c : Ctl) (b : Fin 2) (p : Option FillPage) :
    (c.setFill b p).readBack = c.readBack := rfl
@[simp] theorem Ctl.setFill_rx (c : Ctl) (b : Fin 2) (p : Option FillPage) : (c.setFill b p).rx = c.rx := rfl
@[simp] theorem Ctl.setFill_rxNext (c : Ctl) (b : Fin 2) (p : Option FillPage) :
    (c.setFill b p).rxNext = c.rxNext := rfl
@[simp] theorem Ctl.setFill_tx (c : Ctl) (b : Fin 2) (p : Option FillPage) : (c.setFill b p).tx = c.tx := rfl
@[simp] theorem Ctl.setFill_peers (c : Ctl) (b : Fin 2) (p : Option FillPage) : (c.setFill b p).peers = c.peers := rfl
@[simp] theorem Ctl.setFill_jobs (c : Ctl) (b : Fin 2) (p : Option FillPage) : (c.setFill b p).jobs = c.jobs := rfl
@[simp] theorem Ctl.setFill_catchUps (c : Ctl) (b : Fin 2) (p : Option FillPage) :
    (c.setFill b p).catchUps = c.catchUps := rfl
@[simp] theorem Ctl.setFill_repair (c : Ctl) (b : Fin 2) (p : Option FillPage) :
    (c.setFill b p).repair = c.repair := rfl
@[simp] theorem Ctl.setFill_recheck (c : Ctl) (b : Fin 2) (p : Option FillPage) :
    (c.setFill b p).recheck = c.recheck := rfl
@[simp] theorem Ctl.setFill_holdings (c : Ctl) (b : Fin 2) (p : Option FillPage) :
    (c.setFill b p).holdings = c.holdings := rfl
@[simp] theorem Ctl.setFill_port (c : Ctl) (b : Fin 2) (p : Option FillPage) : (c.setFill b p).port = c.port := rfl
@[simp] theorem Ctl.setFill_pair (c : Ctl) (b : Fin 2) (p : Option FillPage) : (c.setFill b p).pair = c.pair := rfl
@[simp] theorem Ctl.setFill_scan (c : Ctl) (b : Fin 2) (p : Option FillPage) : (c.setFill b p).scan = c.scan := rfl
@[simp] theorem Ctl.setFill_alerts (c : Ctl) (b : Fin 2) (p : Option FillPage) :
    (c.setFill b p).alerts = c.alerts := rfl

/-! ### setRx -/

@[simp] theorem Ctl.setRx_station (c : Ctl) (b : Fin 4) (x : RxBuf) : (c.setRx b x).station = c.station := rfl
@[simp] theorem Ctl.setRx_window (c : Ctl) (b : Fin 4) (x : RxBuf) : (c.setRx b x).window = c.window := rfl
@[simp] theorem Ctl.setRx_firstWindow (c : Ctl) (b : Fin 4) (x : RxBuf) :
    (c.setRx b x).firstWindow = c.firstWindow := rfl
@[simp] theorem Ctl.setRx_presence (c : Ctl) (b : Fin 4) (x : RxBuf) : (c.setRx b x).presence = c.presence := rfl
@[simp] theorem Ctl.setRx_gen (c : Ctl) (b : Fin 4) (x : RxBuf) : (c.setRx b x).gen = c.gen := rfl
@[simp] theorem Ctl.setRx_ownMark (c : Ctl) (b : Fin 4) (x : RxBuf) : (c.setRx b x).ownMark = c.ownMark := rfl
@[simp] theorem Ctl.setRx_nextSeq (c : Ctl) (b : Fin 4) (x : RxBuf) : (c.setRx b x).nextSeq = c.nextSeq := rfl
@[simp] theorem Ctl.setRx_frontier (c : Ctl) (b : Fin 4) (x : RxBuf) : (c.setRx b x).frontier = c.frontier := rfl
@[simp] theorem Ctl.setRx_mark (c : Ctl) (b : Fin 4) (x : RxBuf) : (c.setRx b x).mark = c.mark := rfl
@[simp] theorem Ctl.setRx_mount (c : Ctl) (b : Fin 4) (x : RxBuf) : (c.setRx b x).mount = c.mount := rfl
@[simp] theorem Ctl.setRx_units (c : Ctl) (b : Fin 4) (x : RxBuf) : (c.setRx b x).units = c.units := rfl
@[simp] theorem Ctl.setRx_completed (c : Ctl) (b : Fin 4) (x : RxBuf) : (c.setRx b x).completed = c.completed := rfl
@[simp] theorem Ctl.setRx_blocks (c : Ctl) (b : Fin 4) (x : RxBuf) : (c.setRx b x).blocks = c.blocks := rfl
@[simp] theorem Ctl.setRx_pool (c : Ctl) (b : Fin 4) (x : RxBuf) : (c.setRx b x).pool = c.pool := rfl
@[simp] theorem Ctl.setRx_dir (c : Ctl) (b : Fin 4) (x : RxBuf) : (c.setRx b x).dir = c.dir := rfl
@[simp] theorem Ctl.setRx_fill (c : Ctl) (b : Fin 4) (x : RxBuf) : (c.setRx b x).fill = c.fill := rfl
@[simp] theorem Ctl.setRx_et (c : Ctl) (b : Fin 4) (x : RxBuf) : (c.setRx b x).et = c.et := rfl
@[simp] theorem Ctl.setRx_owed (c : Ctl) (b : Fin 4) (x : RxBuf) : (c.setRx b x).owed = c.owed := rfl
@[simp] theorem Ctl.setRx_readBack (c : Ctl) (b : Fin 4) (x : RxBuf) : (c.setRx b x).readBack = c.readBack := rfl
@[simp] theorem Ctl.setRx_rx (c : Ctl) (b : Fin 4) (x : RxBuf) : (c.setRx b x).rx = vput c.rx b x := rfl
@[simp] theorem Ctl.setRx_rxNext (c : Ctl) (b : Fin 4) (x : RxBuf) : (c.setRx b x).rxNext = c.rxNext := rfl
@[simp] theorem Ctl.setRx_tx (c : Ctl) (b : Fin 4) (x : RxBuf) : (c.setRx b x).tx = c.tx := rfl
@[simp] theorem Ctl.setRx_peers (c : Ctl) (b : Fin 4) (x : RxBuf) : (c.setRx b x).peers = c.peers := rfl
@[simp] theorem Ctl.setRx_jobs (c : Ctl) (b : Fin 4) (x : RxBuf) : (c.setRx b x).jobs = c.jobs := rfl
@[simp] theorem Ctl.setRx_catchUps (c : Ctl) (b : Fin 4) (x : RxBuf) : (c.setRx b x).catchUps = c.catchUps := rfl
@[simp] theorem Ctl.setRx_repair (c : Ctl) (b : Fin 4) (x : RxBuf) : (c.setRx b x).repair = c.repair := rfl
@[simp] theorem Ctl.setRx_recheck (c : Ctl) (b : Fin 4) (x : RxBuf) : (c.setRx b x).recheck = c.recheck := rfl
@[simp] theorem Ctl.setRx_holdings (c : Ctl) (b : Fin 4) (x : RxBuf) : (c.setRx b x).holdings = c.holdings := rfl
@[simp] theorem Ctl.setRx_port (c : Ctl) (b : Fin 4) (x : RxBuf) : (c.setRx b x).port = c.port := rfl
@[simp] theorem Ctl.setRx_pair (c : Ctl) (b : Fin 4) (x : RxBuf) : (c.setRx b x).pair = c.pair := rfl
@[simp] theorem Ctl.setRx_scan (c : Ctl) (b : Fin 4) (x : RxBuf) : (c.setRx b x).scan = c.scan := rfl
@[simp] theorem Ctl.setRx_alerts (c : Ctl) (b : Fin 4) (x : RxBuf) : (c.setRx b x).alerts = c.alerts := rfl

/-! ### setJob -/

@[simp] theorem Ctl.setJob_station (c : Ctl) (i : Fin 2) (j : Option Job) : (c.setJob i j).station = c.station := rfl
@[simp] theorem Ctl.setJob_window (c : Ctl) (i : Fin 2) (j : Option Job) : (c.setJob i j).window = c.window := rfl
@[simp] theorem Ctl.setJob_firstWindow (c : Ctl) (i : Fin 2) (j : Option Job) :
    (c.setJob i j).firstWindow = c.firstWindow := rfl
@[simp] theorem Ctl.setJob_presence (c : Ctl) (i : Fin 2) (j : Option Job) : (c.setJob i j).presence = c.presence := rfl
@[simp] theorem Ctl.setJob_gen (c : Ctl) (i : Fin 2) (j : Option Job) : (c.setJob i j).gen = c.gen := rfl
@[simp] theorem Ctl.setJob_ownMark (c : Ctl) (i : Fin 2) (j : Option Job) : (c.setJob i j).ownMark = c.ownMark := rfl
@[simp] theorem Ctl.setJob_nextSeq (c : Ctl) (i : Fin 2) (j : Option Job) : (c.setJob i j).nextSeq = c.nextSeq := rfl
@[simp] theorem Ctl.setJob_frontier (c : Ctl) (i : Fin 2) (j : Option Job) : (c.setJob i j).frontier = c.frontier := rfl
@[simp] theorem Ctl.setJob_mark (c : Ctl) (i : Fin 2) (j : Option Job) : (c.setJob i j).mark = c.mark := rfl
@[simp] theorem Ctl.setJob_mount (c : Ctl) (i : Fin 2) (j : Option Job) : (c.setJob i j).mount = c.mount := rfl
@[simp] theorem Ctl.setJob_units (c : Ctl) (i : Fin 2) (j : Option Job) : (c.setJob i j).units = c.units := rfl
@[simp] theorem Ctl.setJob_completed (c : Ctl) (i : Fin 2) (j : Option Job) :
    (c.setJob i j).completed = c.completed := rfl
@[simp] theorem Ctl.setJob_blocks (c : Ctl) (i : Fin 2) (j : Option Job) : (c.setJob i j).blocks = c.blocks := rfl
@[simp] theorem Ctl.setJob_pool (c : Ctl) (i : Fin 2) (j : Option Job) : (c.setJob i j).pool = c.pool := rfl
@[simp] theorem Ctl.setJob_dir (c : Ctl) (i : Fin 2) (j : Option Job) : (c.setJob i j).dir = c.dir := rfl
@[simp] theorem Ctl.setJob_fill (c : Ctl) (i : Fin 2) (j : Option Job) : (c.setJob i j).fill = c.fill := rfl
@[simp] theorem Ctl.setJob_et (c : Ctl) (i : Fin 2) (j : Option Job) : (c.setJob i j).et = c.et := rfl
@[simp] theorem Ctl.setJob_owed (c : Ctl) (i : Fin 2) (j : Option Job) : (c.setJob i j).owed = c.owed := rfl
@[simp] theorem Ctl.setJob_readBack (c : Ctl) (i : Fin 2) (j : Option Job) : (c.setJob i j).readBack = c.readBack := rfl
@[simp] theorem Ctl.setJob_rx (c : Ctl) (i : Fin 2) (j : Option Job) : (c.setJob i j).rx = c.rx := rfl
@[simp] theorem Ctl.setJob_rxNext (c : Ctl) (i : Fin 2) (j : Option Job) : (c.setJob i j).rxNext = c.rxNext := rfl
@[simp] theorem Ctl.setJob_tx (c : Ctl) (i : Fin 2) (j : Option Job) : (c.setJob i j).tx = c.tx := rfl
@[simp] theorem Ctl.setJob_peers (c : Ctl) (i : Fin 2) (j : Option Job) : (c.setJob i j).peers = c.peers := rfl
@[simp] theorem Ctl.setJob_jobs (c : Ctl) (i : Fin 2) (j : Option Job) : (c.setJob i j).jobs = vput c.jobs i j := rfl
@[simp] theorem Ctl.setJob_catchUps (c : Ctl) (i : Fin 2) (j : Option Job) : (c.setJob i j).catchUps = c.catchUps := rfl
@[simp] theorem Ctl.setJob_repair (c : Ctl) (i : Fin 2) (j : Option Job) : (c.setJob i j).repair = c.repair := rfl
@[simp] theorem Ctl.setJob_recheck (c : Ctl) (i : Fin 2) (j : Option Job) : (c.setJob i j).recheck = c.recheck := rfl
@[simp] theorem Ctl.setJob_holdings (c : Ctl) (i : Fin 2) (j : Option Job) : (c.setJob i j).holdings = c.holdings := rfl
@[simp] theorem Ctl.setJob_port (c : Ctl) (i : Fin 2) (j : Option Job) : (c.setJob i j).port = c.port := rfl
@[simp] theorem Ctl.setJob_pair (c : Ctl) (i : Fin 2) (j : Option Job) : (c.setJob i j).pair = c.pair := rfl
@[simp] theorem Ctl.setJob_scan (c : Ctl) (i : Fin 2) (j : Option Job) : (c.setJob i j).scan = c.scan := rfl
@[simp] theorem Ctl.setJob_alerts (c : Ctl) (i : Fin 2) (j : Option Job) : (c.setJob i j).alerts = c.alerts := rfl

/-! ### setPair -/

@[simp] theorem Ctl.setPair_station (c : Ctl) (b : Fin 2) (x : PairBuf) : (c.setPair b x).station = c.station := rfl
@[simp] theorem Ctl.setPair_window (c : Ctl) (b : Fin 2) (x : PairBuf) : (c.setPair b x).window = c.window := rfl
@[simp] theorem Ctl.setPair_firstWindow (c : Ctl) (b : Fin 2) (x : PairBuf) :
    (c.setPair b x).firstWindow = c.firstWindow := rfl
@[simp] theorem Ctl.setPair_presence (c : Ctl) (b : Fin 2) (x : PairBuf) : (c.setPair b x).presence = c.presence := rfl
@[simp] theorem Ctl.setPair_gen (c : Ctl) (b : Fin 2) (x : PairBuf) : (c.setPair b x).gen = c.gen := rfl
@[simp] theorem Ctl.setPair_ownMark (c : Ctl) (b : Fin 2) (x : PairBuf) : (c.setPair b x).ownMark = c.ownMark := rfl
@[simp] theorem Ctl.setPair_nextSeq (c : Ctl) (b : Fin 2) (x : PairBuf) : (c.setPair b x).nextSeq = c.nextSeq := rfl
@[simp] theorem Ctl.setPair_frontier (c : Ctl) (b : Fin 2) (x : PairBuf) : (c.setPair b x).frontier = c.frontier := rfl
@[simp] theorem Ctl.setPair_mark (c : Ctl) (b : Fin 2) (x : PairBuf) : (c.setPair b x).mark = c.mark := rfl
@[simp] theorem Ctl.setPair_mount (c : Ctl) (b : Fin 2) (x : PairBuf) : (c.setPair b x).mount = c.mount := rfl
@[simp] theorem Ctl.setPair_units (c : Ctl) (b : Fin 2) (x : PairBuf) : (c.setPair b x).units = c.units := rfl
@[simp] theorem Ctl.setPair_completed (c : Ctl) (b : Fin 2) (x : PairBuf) :
    (c.setPair b x).completed = c.completed := rfl
@[simp] theorem Ctl.setPair_blocks (c : Ctl) (b : Fin 2) (x : PairBuf) : (c.setPair b x).blocks = c.blocks := rfl
@[simp] theorem Ctl.setPair_pool (c : Ctl) (b : Fin 2) (x : PairBuf) : (c.setPair b x).pool = c.pool := rfl
@[simp] theorem Ctl.setPair_dir (c : Ctl) (b : Fin 2) (x : PairBuf) : (c.setPair b x).dir = c.dir := rfl
@[simp] theorem Ctl.setPair_fill (c : Ctl) (b : Fin 2) (x : PairBuf) : (c.setPair b x).fill = c.fill := rfl
@[simp] theorem Ctl.setPair_et (c : Ctl) (b : Fin 2) (x : PairBuf) : (c.setPair b x).et = c.et := rfl
@[simp] theorem Ctl.setPair_owed (c : Ctl) (b : Fin 2) (x : PairBuf) : (c.setPair b x).owed = c.owed := rfl
@[simp] theorem Ctl.setPair_readBack (c : Ctl) (b : Fin 2) (x : PairBuf) : (c.setPair b x).readBack = c.readBack := rfl
@[simp] theorem Ctl.setPair_rx (c : Ctl) (b : Fin 2) (x : PairBuf) : (c.setPair b x).rx = c.rx := rfl
@[simp] theorem Ctl.setPair_rxNext (c : Ctl) (b : Fin 2) (x : PairBuf) : (c.setPair b x).rxNext = c.rxNext := rfl
@[simp] theorem Ctl.setPair_tx (c : Ctl) (b : Fin 2) (x : PairBuf) : (c.setPair b x).tx = c.tx := rfl
@[simp] theorem Ctl.setPair_peers (c : Ctl) (b : Fin 2) (x : PairBuf) : (c.setPair b x).peers = c.peers := rfl
@[simp] theorem Ctl.setPair_jobs (c : Ctl) (b : Fin 2) (x : PairBuf) : (c.setPair b x).jobs = c.jobs := rfl
@[simp] theorem Ctl.setPair_catchUps (c : Ctl) (b : Fin 2) (x : PairBuf) : (c.setPair b x).catchUps = c.catchUps := rfl
@[simp] theorem Ctl.setPair_repair (c : Ctl) (b : Fin 2) (x : PairBuf) : (c.setPair b x).repair = c.repair := rfl
@[simp] theorem Ctl.setPair_recheck (c : Ctl) (b : Fin 2) (x : PairBuf) : (c.setPair b x).recheck = c.recheck := rfl
@[simp] theorem Ctl.setPair_holdings (c : Ctl) (b : Fin 2) (x : PairBuf) : (c.setPair b x).holdings = c.holdings := rfl
@[simp] theorem Ctl.setPair_port (c : Ctl) (b : Fin 2) (x : PairBuf) : (c.setPair b x).port = c.port := rfl
@[simp] theorem Ctl.setPair_pair (c : Ctl) (b : Fin 2) (x : PairBuf) : (c.setPair b x).pair = vput c.pair b x := rfl
@[simp] theorem Ctl.setPair_scan (c : Ctl) (b : Fin 2) (x : PairBuf) : (c.setPair b x).scan = c.scan := rfl
@[simp] theorem Ctl.setPair_alerts (c : Ctl) (b : Fin 2) (x : PairBuf) : (c.setPair b x).alerts = c.alerts := rfl

/-! ### onPort -/

@[simp] theorem Ctl.onPort_station (c : Ctl) (f : Port → Port) : (c.onPort f).station = c.station := rfl
@[simp] theorem Ctl.onPort_window (c : Ctl) (f : Port → Port) : (c.onPort f).window = c.window := rfl
@[simp] theorem Ctl.onPort_firstWindow (c : Ctl) (f : Port → Port) : (c.onPort f).firstWindow = c.firstWindow := rfl
@[simp] theorem Ctl.onPort_presence (c : Ctl) (f : Port → Port) : (c.onPort f).presence = c.presence := rfl
@[simp] theorem Ctl.onPort_gen (c : Ctl) (f : Port → Port) : (c.onPort f).gen = c.gen := rfl
@[simp] theorem Ctl.onPort_ownMark (c : Ctl) (f : Port → Port) : (c.onPort f).ownMark = c.ownMark := rfl
@[simp] theorem Ctl.onPort_nextSeq (c : Ctl) (f : Port → Port) : (c.onPort f).nextSeq = c.nextSeq := rfl
@[simp] theorem Ctl.onPort_frontier (c : Ctl) (f : Port → Port) : (c.onPort f).frontier = c.frontier := rfl
@[simp] theorem Ctl.onPort_mark (c : Ctl) (f : Port → Port) : (c.onPort f).mark = c.mark := rfl
@[simp] theorem Ctl.onPort_mount (c : Ctl) (f : Port → Port) : (c.onPort f).mount = c.mount := rfl
@[simp] theorem Ctl.onPort_units (c : Ctl) (f : Port → Port) : (c.onPort f).units = c.units := rfl
@[simp] theorem Ctl.onPort_completed (c : Ctl) (f : Port → Port) : (c.onPort f).completed = c.completed := rfl
@[simp] theorem Ctl.onPort_blocks (c : Ctl) (f : Port → Port) : (c.onPort f).blocks = c.blocks := rfl
@[simp] theorem Ctl.onPort_pool (c : Ctl) (f : Port → Port) : (c.onPort f).pool = c.pool := rfl
@[simp] theorem Ctl.onPort_dir (c : Ctl) (f : Port → Port) : (c.onPort f).dir = c.dir := rfl
@[simp] theorem Ctl.onPort_fill (c : Ctl) (f : Port → Port) : (c.onPort f).fill = c.fill := rfl
@[simp] theorem Ctl.onPort_et (c : Ctl) (f : Port → Port) : (c.onPort f).et = c.et := rfl
@[simp] theorem Ctl.onPort_owed (c : Ctl) (f : Port → Port) : (c.onPort f).owed = c.owed := rfl
@[simp] theorem Ctl.onPort_readBack (c : Ctl) (f : Port → Port) : (c.onPort f).readBack = c.readBack := rfl
@[simp] theorem Ctl.onPort_rx (c : Ctl) (f : Port → Port) : (c.onPort f).rx = c.rx := rfl
@[simp] theorem Ctl.onPort_rxNext (c : Ctl) (f : Port → Port) : (c.onPort f).rxNext = c.rxNext := rfl
@[simp] theorem Ctl.onPort_tx (c : Ctl) (f : Port → Port) : (c.onPort f).tx = c.tx := rfl
@[simp] theorem Ctl.onPort_peers (c : Ctl) (f : Port → Port) : (c.onPort f).peers = c.peers := rfl
@[simp] theorem Ctl.onPort_jobs (c : Ctl) (f : Port → Port) : (c.onPort f).jobs = c.jobs := rfl
@[simp] theorem Ctl.onPort_catchUps (c : Ctl) (f : Port → Port) : (c.onPort f).catchUps = c.catchUps := rfl
@[simp] theorem Ctl.onPort_repair (c : Ctl) (f : Port → Port) : (c.onPort f).repair = c.repair := rfl
@[simp] theorem Ctl.onPort_recheck (c : Ctl) (f : Port → Port) : (c.onPort f).recheck = c.recheck := rfl
@[simp] theorem Ctl.onPort_holdings (c : Ctl) (f : Port → Port) : (c.onPort f).holdings = c.holdings := rfl
@[simp] theorem Ctl.onPort_port (c : Ctl) (f : Port → Port) : (c.onPort f).port = f c.port := rfl
@[simp] theorem Ctl.onPort_pair (c : Ctl) (f : Port → Port) : (c.onPort f).pair = c.pair := rfl
@[simp] theorem Ctl.onPort_scan (c : Ctl) (f : Port → Port) : (c.onPort f).scan = c.scan := rfl
@[simp] theorem Ctl.onPort_alerts (c : Ctl) (f : Port → Port) : (c.onPort f).alerts = c.alerts := rfl

/-! ### setAct -/

@[simp] theorem Ctl.setAct_station (c : Ctl) (a : Activity) : (c.setAct a).station = c.station := rfl
@[simp] theorem Ctl.setAct_window (c : Ctl) (a : Activity) : (c.setAct a).window = c.window := rfl
@[simp] theorem Ctl.setAct_firstWindow (c : Ctl) (a : Activity) : (c.setAct a).firstWindow = c.firstWindow := rfl
@[simp] theorem Ctl.setAct_presence (c : Ctl) (a : Activity) : (c.setAct a).presence = c.presence := rfl
@[simp] theorem Ctl.setAct_gen (c : Ctl) (a : Activity) : (c.setAct a).gen = c.gen := rfl
@[simp] theorem Ctl.setAct_ownMark (c : Ctl) (a : Activity) : (c.setAct a).ownMark = c.ownMark := rfl
@[simp] theorem Ctl.setAct_nextSeq (c : Ctl) (a : Activity) : (c.setAct a).nextSeq = c.nextSeq := rfl
@[simp] theorem Ctl.setAct_frontier (c : Ctl) (a : Activity) : (c.setAct a).frontier = c.frontier := rfl
@[simp] theorem Ctl.setAct_mark (c : Ctl) (a : Activity) : (c.setAct a).mark = c.mark := rfl
@[simp] theorem Ctl.setAct_mount (c : Ctl) (a : Activity) : (c.setAct a).mount = c.mount := rfl
@[simp] theorem Ctl.setAct_units (c : Ctl) (a : Activity) : (c.setAct a).units = c.units := rfl
@[simp] theorem Ctl.setAct_completed (c : Ctl) (a : Activity) : (c.setAct a).completed = c.completed := rfl
@[simp] theorem Ctl.setAct_blocks (c : Ctl) (a : Activity) : (c.setAct a).blocks = c.blocks := rfl
@[simp] theorem Ctl.setAct_pool (c : Ctl) (a : Activity) : (c.setAct a).pool = c.pool := rfl
@[simp] theorem Ctl.setAct_dir (c : Ctl) (a : Activity) : (c.setAct a).dir = c.dir := rfl
@[simp] theorem Ctl.setAct_fill (c : Ctl) (a : Activity) : (c.setAct a).fill = c.fill := rfl
@[simp] theorem Ctl.setAct_et (c : Ctl) (a : Activity) : (c.setAct a).et = c.et := rfl
@[simp] theorem Ctl.setAct_owed (c : Ctl) (a : Activity) : (c.setAct a).owed = c.owed := rfl
@[simp] theorem Ctl.setAct_readBack (c : Ctl) (a : Activity) : (c.setAct a).readBack = c.readBack := rfl
@[simp] theorem Ctl.setAct_rx (c : Ctl) (a : Activity) : (c.setAct a).rx = c.rx := rfl
@[simp] theorem Ctl.setAct_rxNext (c : Ctl) (a : Activity) : (c.setAct a).rxNext = c.rxNext := rfl
@[simp] theorem Ctl.setAct_tx (c : Ctl) (a : Activity) : (c.setAct a).tx = c.tx := rfl
@[simp] theorem Ctl.setAct_peers (c : Ctl) (a : Activity) : (c.setAct a).peers = c.peers := rfl
@[simp] theorem Ctl.setAct_jobs (c : Ctl) (a : Activity) : (c.setAct a).jobs = c.jobs := rfl
@[simp] theorem Ctl.setAct_catchUps (c : Ctl) (a : Activity) : (c.setAct a).catchUps = c.catchUps := rfl
@[simp] theorem Ctl.setAct_repair (c : Ctl) (a : Activity) : (c.setAct a).repair = c.repair := rfl
@[simp] theorem Ctl.setAct_recheck (c : Ctl) (a : Activity) : (c.setAct a).recheck = c.recheck := rfl
@[simp] theorem Ctl.setAct_holdings (c : Ctl) (a : Activity) : (c.setAct a).holdings = c.holdings := rfl
@[simp] theorem Ctl.setAct_port (c : Ctl) (a : Activity) : (c.setAct a).port = { c.port with act := a } := rfl
@[simp] theorem Ctl.setAct_pair (c : Ctl) (a : Activity) : (c.setAct a).pair = c.pair := rfl
@[simp] theorem Ctl.setAct_scan (c : Ctl) (a : Activity) : (c.setAct a).scan = c.scan := rfl
@[simp] theorem Ctl.setAct_alerts (c : Ctl) (a : Activity) : (c.setAct a).alerts = c.alerts := rfl

/-! ### onTx -/

@[simp] theorem Ctl.onTx_station (c : Ctl) (f : Tx → Tx) : (c.onTx f).station = c.station := rfl
@[simp] theorem Ctl.onTx_window (c : Ctl) (f : Tx → Tx) : (c.onTx f).window = c.window := rfl
@[simp] theorem Ctl.onTx_firstWindow (c : Ctl) (f : Tx → Tx) : (c.onTx f).firstWindow = c.firstWindow := rfl
@[simp] theorem Ctl.onTx_presence (c : Ctl) (f : Tx → Tx) : (c.onTx f).presence = c.presence := rfl
@[simp] theorem Ctl.onTx_gen (c : Ctl) (f : Tx → Tx) : (c.onTx f).gen = c.gen := rfl
@[simp] theorem Ctl.onTx_ownMark (c : Ctl) (f : Tx → Tx) : (c.onTx f).ownMark = c.ownMark := rfl
@[simp] theorem Ctl.onTx_nextSeq (c : Ctl) (f : Tx → Tx) : (c.onTx f).nextSeq = c.nextSeq := rfl
@[simp] theorem Ctl.onTx_frontier (c : Ctl) (f : Tx → Tx) : (c.onTx f).frontier = c.frontier := rfl
@[simp] theorem Ctl.onTx_mark (c : Ctl) (f : Tx → Tx) : (c.onTx f).mark = c.mark := rfl
@[simp] theorem Ctl.onTx_mount (c : Ctl) (f : Tx → Tx) : (c.onTx f).mount = c.mount := rfl
@[simp] theorem Ctl.onTx_units (c : Ctl) (f : Tx → Tx) : (c.onTx f).units = c.units := rfl
@[simp] theorem Ctl.onTx_completed (c : Ctl) (f : Tx → Tx) : (c.onTx f).completed = c.completed := rfl
@[simp] theorem Ctl.onTx_blocks (c : Ctl) (f : Tx → Tx) : (c.onTx f).blocks = c.blocks := rfl
@[simp] theorem Ctl.onTx_pool (c : Ctl) (f : Tx → Tx) : (c.onTx f).pool = c.pool := rfl
@[simp] theorem Ctl.onTx_dir (c : Ctl) (f : Tx → Tx) : (c.onTx f).dir = c.dir := rfl
@[simp] theorem Ctl.onTx_fill (c : Ctl) (f : Tx → Tx) : (c.onTx f).fill = c.fill := rfl
@[simp] theorem Ctl.onTx_et (c : Ctl) (f : Tx → Tx) : (c.onTx f).et = c.et := rfl
@[simp] theorem Ctl.onTx_owed (c : Ctl) (f : Tx → Tx) : (c.onTx f).owed = c.owed := rfl
@[simp] theorem Ctl.onTx_readBack (c : Ctl) (f : Tx → Tx) : (c.onTx f).readBack = c.readBack := rfl
@[simp] theorem Ctl.onTx_rx (c : Ctl) (f : Tx → Tx) : (c.onTx f).rx = c.rx := rfl
@[simp] theorem Ctl.onTx_rxNext (c : Ctl) (f : Tx → Tx) : (c.onTx f).rxNext = c.rxNext := rfl
@[simp] theorem Ctl.onTx_tx (c : Ctl) (f : Tx → Tx) : (c.onTx f).tx = f c.tx := rfl
@[simp] theorem Ctl.onTx_peers (c : Ctl) (f : Tx → Tx) : (c.onTx f).peers = c.peers := rfl
@[simp] theorem Ctl.onTx_jobs (c : Ctl) (f : Tx → Tx) : (c.onTx f).jobs = c.jobs := rfl
@[simp] theorem Ctl.onTx_catchUps (c : Ctl) (f : Tx → Tx) : (c.onTx f).catchUps = c.catchUps := rfl
@[simp] theorem Ctl.onTx_repair (c : Ctl) (f : Tx → Tx) : (c.onTx f).repair = c.repair := rfl
@[simp] theorem Ctl.onTx_recheck (c : Ctl) (f : Tx → Tx) : (c.onTx f).recheck = c.recheck := rfl
@[simp] theorem Ctl.onTx_holdings (c : Ctl) (f : Tx → Tx) : (c.onTx f).holdings = c.holdings := rfl
@[simp] theorem Ctl.onTx_port (c : Ctl) (f : Tx → Tx) : (c.onTx f).port = c.port := rfl
@[simp] theorem Ctl.onTx_pair (c : Ctl) (f : Tx → Tx) : (c.onTx f).pair = c.pair := rfl
@[simp] theorem Ctl.onTx_scan (c : Ctl) (f : Tx → Tx) : (c.onTx f).scan = c.scan := rfl
@[simp] theorem Ctl.onTx_alerts (c : Ctl) (f : Tx → Tx) : (c.onTx f).alerts = c.alerts := rfl

/-! ### onMark -/

@[simp] theorem Ctl.onMark_station (c : Ctl) (f : MarkLog → MarkLog) : (c.onMark f).station = c.station := rfl
@[simp] theorem Ctl.onMark_window (c : Ctl) (f : MarkLog → MarkLog) : (c.onMark f).window = c.window := rfl
@[simp] theorem Ctl.onMark_firstWindow (c : Ctl) (f : MarkLog → MarkLog) :
    (c.onMark f).firstWindow = c.firstWindow := rfl
@[simp] theorem Ctl.onMark_presence (c : Ctl) (f : MarkLog → MarkLog) : (c.onMark f).presence = c.presence := rfl
@[simp] theorem Ctl.onMark_gen (c : Ctl) (f : MarkLog → MarkLog) : (c.onMark f).gen = c.gen := rfl
@[simp] theorem Ctl.onMark_ownMark (c : Ctl) (f : MarkLog → MarkLog) : (c.onMark f).ownMark = c.ownMark := rfl
@[simp] theorem Ctl.onMark_nextSeq (c : Ctl) (f : MarkLog → MarkLog) : (c.onMark f).nextSeq = c.nextSeq := rfl
@[simp] theorem Ctl.onMark_frontier (c : Ctl) (f : MarkLog → MarkLog) : (c.onMark f).frontier = c.frontier := rfl
@[simp] theorem Ctl.onMark_mark (c : Ctl) (f : MarkLog → MarkLog) : (c.onMark f).mark = f c.mark := rfl
@[simp] theorem Ctl.onMark_mount (c : Ctl) (f : MarkLog → MarkLog) : (c.onMark f).mount = c.mount := rfl
@[simp] theorem Ctl.onMark_units (c : Ctl) (f : MarkLog → MarkLog) : (c.onMark f).units = c.units := rfl
@[simp] theorem Ctl.onMark_completed (c : Ctl) (f : MarkLog → MarkLog) : (c.onMark f).completed = c.completed := rfl
@[simp] theorem Ctl.onMark_blocks (c : Ctl) (f : MarkLog → MarkLog) : (c.onMark f).blocks = c.blocks := rfl
@[simp] theorem Ctl.onMark_pool (c : Ctl) (f : MarkLog → MarkLog) : (c.onMark f).pool = c.pool := rfl
@[simp] theorem Ctl.onMark_dir (c : Ctl) (f : MarkLog → MarkLog) : (c.onMark f).dir = c.dir := rfl
@[simp] theorem Ctl.onMark_fill (c : Ctl) (f : MarkLog → MarkLog) : (c.onMark f).fill = c.fill := rfl
@[simp] theorem Ctl.onMark_et (c : Ctl) (f : MarkLog → MarkLog) : (c.onMark f).et = c.et := rfl
@[simp] theorem Ctl.onMark_owed (c : Ctl) (f : MarkLog → MarkLog) : (c.onMark f).owed = c.owed := rfl
@[simp] theorem Ctl.onMark_readBack (c : Ctl) (f : MarkLog → MarkLog) : (c.onMark f).readBack = c.readBack := rfl
@[simp] theorem Ctl.onMark_rx (c : Ctl) (f : MarkLog → MarkLog) : (c.onMark f).rx = c.rx := rfl
@[simp] theorem Ctl.onMark_rxNext (c : Ctl) (f : MarkLog → MarkLog) : (c.onMark f).rxNext = c.rxNext := rfl
@[simp] theorem Ctl.onMark_tx (c : Ctl) (f : MarkLog → MarkLog) : (c.onMark f).tx = c.tx := rfl
@[simp] theorem Ctl.onMark_peers (c : Ctl) (f : MarkLog → MarkLog) : (c.onMark f).peers = c.peers := rfl
@[simp] theorem Ctl.onMark_jobs (c : Ctl) (f : MarkLog → MarkLog) : (c.onMark f).jobs = c.jobs := rfl
@[simp] theorem Ctl.onMark_catchUps (c : Ctl) (f : MarkLog → MarkLog) : (c.onMark f).catchUps = c.catchUps := rfl
@[simp] theorem Ctl.onMark_repair (c : Ctl) (f : MarkLog → MarkLog) : (c.onMark f).repair = c.repair := rfl
@[simp] theorem Ctl.onMark_recheck (c : Ctl) (f : MarkLog → MarkLog) : (c.onMark f).recheck = c.recheck := rfl
@[simp] theorem Ctl.onMark_holdings (c : Ctl) (f : MarkLog → MarkLog) : (c.onMark f).holdings = c.holdings := rfl
@[simp] theorem Ctl.onMark_port (c : Ctl) (f : MarkLog → MarkLog) : (c.onMark f).port = c.port := rfl
@[simp] theorem Ctl.onMark_pair (c : Ctl) (f : MarkLog → MarkLog) : (c.onMark f).pair = c.pair := rfl
@[simp] theorem Ctl.onMark_scan (c : Ctl) (f : MarkLog → MarkLog) : (c.onMark f).scan = c.scan := rfl
@[simp] theorem Ctl.onMark_alerts (c : Ctl) (f : MarkLog → MarkLog) : (c.onMark f).alerts = c.alerts := rfl

/-! ### onMount -/

@[simp] theorem Ctl.onMount_station (c : Ctl) (f : Mount → Mount) : (c.onMount f).station = c.station := rfl
@[simp] theorem Ctl.onMount_window (c : Ctl) (f : Mount → Mount) : (c.onMount f).window = c.window := rfl
@[simp] theorem Ctl.onMount_firstWindow (c : Ctl) (f : Mount → Mount) : (c.onMount f).firstWindow = c.firstWindow := rfl
@[simp] theorem Ctl.onMount_presence (c : Ctl) (f : Mount → Mount) : (c.onMount f).presence = c.presence := rfl
@[simp] theorem Ctl.onMount_gen (c : Ctl) (f : Mount → Mount) : (c.onMount f).gen = c.gen := rfl
@[simp] theorem Ctl.onMount_ownMark (c : Ctl) (f : Mount → Mount) : (c.onMount f).ownMark = c.ownMark := rfl
@[simp] theorem Ctl.onMount_nextSeq (c : Ctl) (f : Mount → Mount) : (c.onMount f).nextSeq = c.nextSeq := rfl
@[simp] theorem Ctl.onMount_frontier (c : Ctl) (f : Mount → Mount) : (c.onMount f).frontier = c.frontier := rfl
@[simp] theorem Ctl.onMount_mark (c : Ctl) (f : Mount → Mount) : (c.onMount f).mark = c.mark := rfl
@[simp] theorem Ctl.onMount_mount (c : Ctl) (f : Mount → Mount) : (c.onMount f).mount = f c.mount := rfl
@[simp] theorem Ctl.onMount_units (c : Ctl) (f : Mount → Mount) : (c.onMount f).units = c.units := rfl
@[simp] theorem Ctl.onMount_completed (c : Ctl) (f : Mount → Mount) : (c.onMount f).completed = c.completed := rfl
@[simp] theorem Ctl.onMount_blocks (c : Ctl) (f : Mount → Mount) : (c.onMount f).blocks = c.blocks := rfl
@[simp] theorem Ctl.onMount_pool (c : Ctl) (f : Mount → Mount) : (c.onMount f).pool = c.pool := rfl
@[simp] theorem Ctl.onMount_dir (c : Ctl) (f : Mount → Mount) : (c.onMount f).dir = c.dir := rfl
@[simp] theorem Ctl.onMount_fill (c : Ctl) (f : Mount → Mount) : (c.onMount f).fill = c.fill := rfl
@[simp] theorem Ctl.onMount_et (c : Ctl) (f : Mount → Mount) : (c.onMount f).et = c.et := rfl
@[simp] theorem Ctl.onMount_owed (c : Ctl) (f : Mount → Mount) : (c.onMount f).owed = c.owed := rfl
@[simp] theorem Ctl.onMount_readBack (c : Ctl) (f : Mount → Mount) : (c.onMount f).readBack = c.readBack := rfl
@[simp] theorem Ctl.onMount_rx (c : Ctl) (f : Mount → Mount) : (c.onMount f).rx = c.rx := rfl
@[simp] theorem Ctl.onMount_rxNext (c : Ctl) (f : Mount → Mount) : (c.onMount f).rxNext = c.rxNext := rfl
@[simp] theorem Ctl.onMount_tx (c : Ctl) (f : Mount → Mount) : (c.onMount f).tx = c.tx := rfl
@[simp] theorem Ctl.onMount_peers (c : Ctl) (f : Mount → Mount) : (c.onMount f).peers = c.peers := rfl
@[simp] theorem Ctl.onMount_jobs (c : Ctl) (f : Mount → Mount) : (c.onMount f).jobs = c.jobs := rfl
@[simp] theorem Ctl.onMount_catchUps (c : Ctl) (f : Mount → Mount) : (c.onMount f).catchUps = c.catchUps := rfl
@[simp] theorem Ctl.onMount_repair (c : Ctl) (f : Mount → Mount) : (c.onMount f).repair = c.repair := rfl
@[simp] theorem Ctl.onMount_recheck (c : Ctl) (f : Mount → Mount) : (c.onMount f).recheck = c.recheck := rfl
@[simp] theorem Ctl.onMount_holdings (c : Ctl) (f : Mount → Mount) : (c.onMount f).holdings = c.holdings := rfl
@[simp] theorem Ctl.onMount_port (c : Ctl) (f : Mount → Mount) : (c.onMount f).port = c.port := rfl
@[simp] theorem Ctl.onMount_pair (c : Ctl) (f : Mount → Mount) : (c.onMount f).pair = c.pair := rfl
@[simp] theorem Ctl.onMount_scan (c : Ctl) (f : Mount → Mount) : (c.onMount f).scan = c.scan := rfl
@[simp] theorem Ctl.onMount_alerts (c : Ctl) (f : Mount → Mount) : (c.onMount f).alerts = c.alerts := rfl

/-! ### onPeer -/

@[simp] theorem Ctl.onPeer_station (c : Ctl) (p : Station) (f : Peer → Peer) : (c.onPeer p f).station = c.station := rfl
@[simp] theorem Ctl.onPeer_window (c : Ctl) (p : Station) (f : Peer → Peer) : (c.onPeer p f).window = c.window := rfl
@[simp] theorem Ctl.onPeer_firstWindow (c : Ctl) (p : Station) (f : Peer → Peer) :
    (c.onPeer p f).firstWindow = c.firstWindow := rfl
@[simp] theorem Ctl.onPeer_presence (c : Ctl) (p : Station) (f : Peer → Peer) :
    (c.onPeer p f).presence = c.presence := rfl
@[simp] theorem Ctl.onPeer_gen (c : Ctl) (p : Station) (f : Peer → Peer) : (c.onPeer p f).gen = c.gen := rfl
@[simp] theorem Ctl.onPeer_ownMark (c : Ctl) (p : Station) (f : Peer → Peer) : (c.onPeer p f).ownMark = c.ownMark := rfl
@[simp] theorem Ctl.onPeer_nextSeq (c : Ctl) (p : Station) (f : Peer → Peer) : (c.onPeer p f).nextSeq = c.nextSeq := rfl
@[simp] theorem Ctl.onPeer_frontier (c : Ctl) (p : Station) (f : Peer → Peer) :
    (c.onPeer p f).frontier = c.frontier := rfl
@[simp] theorem Ctl.onPeer_mark (c : Ctl) (p : Station) (f : Peer → Peer) : (c.onPeer p f).mark = c.mark := rfl
@[simp] theorem Ctl.onPeer_mount (c : Ctl) (p : Station) (f : Peer → Peer) : (c.onPeer p f).mount = c.mount := rfl
@[simp] theorem Ctl.onPeer_units (c : Ctl) (p : Station) (f : Peer → Peer) : (c.onPeer p f).units = c.units := rfl
@[simp] theorem Ctl.onPeer_completed (c : Ctl) (p : Station) (f : Peer → Peer) :
    (c.onPeer p f).completed = c.completed := rfl
@[simp] theorem Ctl.onPeer_blocks (c : Ctl) (p : Station) (f : Peer → Peer) : (c.onPeer p f).blocks = c.blocks := rfl
@[simp] theorem Ctl.onPeer_pool (c : Ctl) (p : Station) (f : Peer → Peer) : (c.onPeer p f).pool = c.pool := rfl
@[simp] theorem Ctl.onPeer_dir (c : Ctl) (p : Station) (f : Peer → Peer) : (c.onPeer p f).dir = c.dir := rfl
@[simp] theorem Ctl.onPeer_fill (c : Ctl) (p : Station) (f : Peer → Peer) : (c.onPeer p f).fill = c.fill := rfl
@[simp] theorem Ctl.onPeer_et (c : Ctl) (p : Station) (f : Peer → Peer) : (c.onPeer p f).et = c.et := rfl
@[simp] theorem Ctl.onPeer_owed (c : Ctl) (p : Station) (f : Peer → Peer) : (c.onPeer p f).owed = c.owed := rfl
@[simp] theorem Ctl.onPeer_readBack (c : Ctl) (p : Station) (f : Peer → Peer) :
    (c.onPeer p f).readBack = c.readBack := rfl
@[simp] theorem Ctl.onPeer_rx (c : Ctl) (p : Station) (f : Peer → Peer) : (c.onPeer p f).rx = c.rx := rfl
@[simp] theorem Ctl.onPeer_rxNext (c : Ctl) (p : Station) (f : Peer → Peer) : (c.onPeer p f).rxNext = c.rxNext := rfl
@[simp] theorem Ctl.onPeer_tx (c : Ctl) (p : Station) (f : Peer → Peer) : (c.onPeer p f).tx = c.tx := rfl
@[simp] theorem Ctl.onPeer_peers (c : Ctl) (p : Station) (f : Peer → Peer) :
    (c.onPeer p f).peers = vput c.peers p (f (c.peers.get p)) := rfl
@[simp] theorem Ctl.onPeer_jobs (c : Ctl) (p : Station) (f : Peer → Peer) : (c.onPeer p f).jobs = c.jobs := rfl
@[simp] theorem Ctl.onPeer_catchUps (c : Ctl) (p : Station) (f : Peer → Peer) :
    (c.onPeer p f).catchUps = c.catchUps := rfl
@[simp] theorem Ctl.onPeer_repair (c : Ctl) (p : Station) (f : Peer → Peer) : (c.onPeer p f).repair = c.repair := rfl
@[simp] theorem Ctl.onPeer_recheck (c : Ctl) (p : Station) (f : Peer → Peer) : (c.onPeer p f).recheck = c.recheck := rfl
@[simp] theorem Ctl.onPeer_holdings (c : Ctl) (p : Station) (f : Peer → Peer) :
    (c.onPeer p f).holdings = c.holdings := rfl
@[simp] theorem Ctl.onPeer_port (c : Ctl) (p : Station) (f : Peer → Peer) : (c.onPeer p f).port = c.port := rfl
@[simp] theorem Ctl.onPeer_pair (c : Ctl) (p : Station) (f : Peer → Peer) : (c.onPeer p f).pair = c.pair := rfl
@[simp] theorem Ctl.onPeer_scan (c : Ctl) (p : Station) (f : Peer → Peer) : (c.onPeer p f).scan = c.scan := rfl
@[simp] theorem Ctl.onPeer_alerts (c : Ctl) (p : Station) (f : Peer → Peer) : (c.onPeer p f).alerts = c.alerts := rfl

/-! ### onScan -/

@[simp] theorem Ctl.onScan_station (c : Ctl) (f : Scan → Scan) : (c.onScan f).station = c.station := rfl
@[simp] theorem Ctl.onScan_window (c : Ctl) (f : Scan → Scan) : (c.onScan f).window = c.window := rfl
@[simp] theorem Ctl.onScan_firstWindow (c : Ctl) (f : Scan → Scan) : (c.onScan f).firstWindow = c.firstWindow := rfl
@[simp] theorem Ctl.onScan_presence (c : Ctl) (f : Scan → Scan) : (c.onScan f).presence = c.presence := rfl
@[simp] theorem Ctl.onScan_gen (c : Ctl) (f : Scan → Scan) : (c.onScan f).gen = c.gen := rfl
@[simp] theorem Ctl.onScan_ownMark (c : Ctl) (f : Scan → Scan) : (c.onScan f).ownMark = c.ownMark := rfl
@[simp] theorem Ctl.onScan_nextSeq (c : Ctl) (f : Scan → Scan) : (c.onScan f).nextSeq = c.nextSeq := rfl
@[simp] theorem Ctl.onScan_frontier (c : Ctl) (f : Scan → Scan) : (c.onScan f).frontier = c.frontier := rfl
@[simp] theorem Ctl.onScan_mark (c : Ctl) (f : Scan → Scan) : (c.onScan f).mark = c.mark := rfl
@[simp] theorem Ctl.onScan_mount (c : Ctl) (f : Scan → Scan) : (c.onScan f).mount = c.mount := rfl
@[simp] theorem Ctl.onScan_units (c : Ctl) (f : Scan → Scan) : (c.onScan f).units = c.units := rfl
@[simp] theorem Ctl.onScan_completed (c : Ctl) (f : Scan → Scan) : (c.onScan f).completed = c.completed := rfl
@[simp] theorem Ctl.onScan_blocks (c : Ctl) (f : Scan → Scan) : (c.onScan f).blocks = c.blocks := rfl
@[simp] theorem Ctl.onScan_pool (c : Ctl) (f : Scan → Scan) : (c.onScan f).pool = c.pool := rfl
@[simp] theorem Ctl.onScan_dir (c : Ctl) (f : Scan → Scan) : (c.onScan f).dir = c.dir := rfl
@[simp] theorem Ctl.onScan_fill (c : Ctl) (f : Scan → Scan) : (c.onScan f).fill = c.fill := rfl
@[simp] theorem Ctl.onScan_et (c : Ctl) (f : Scan → Scan) : (c.onScan f).et = c.et := rfl
@[simp] theorem Ctl.onScan_owed (c : Ctl) (f : Scan → Scan) : (c.onScan f).owed = c.owed := rfl
@[simp] theorem Ctl.onScan_readBack (c : Ctl) (f : Scan → Scan) : (c.onScan f).readBack = c.readBack := rfl
@[simp] theorem Ctl.onScan_rx (c : Ctl) (f : Scan → Scan) : (c.onScan f).rx = c.rx := rfl
@[simp] theorem Ctl.onScan_rxNext (c : Ctl) (f : Scan → Scan) : (c.onScan f).rxNext = c.rxNext := rfl
@[simp] theorem Ctl.onScan_tx (c : Ctl) (f : Scan → Scan) : (c.onScan f).tx = c.tx := rfl
@[simp] theorem Ctl.onScan_peers (c : Ctl) (f : Scan → Scan) : (c.onScan f).peers = c.peers := rfl
@[simp] theorem Ctl.onScan_jobs (c : Ctl) (f : Scan → Scan) : (c.onScan f).jobs = c.jobs := rfl
@[simp] theorem Ctl.onScan_catchUps (c : Ctl) (f : Scan → Scan) : (c.onScan f).catchUps = c.catchUps := rfl
@[simp] theorem Ctl.onScan_repair (c : Ctl) (f : Scan → Scan) : (c.onScan f).repair = c.repair := rfl
@[simp] theorem Ctl.onScan_recheck (c : Ctl) (f : Scan → Scan) : (c.onScan f).recheck = c.recheck := rfl
@[simp] theorem Ctl.onScan_holdings (c : Ctl) (f : Scan → Scan) : (c.onScan f).holdings = c.holdings := rfl
@[simp] theorem Ctl.onScan_port (c : Ctl) (f : Scan → Scan) : (c.onScan f).port = c.port := rfl
@[simp] theorem Ctl.onScan_pair (c : Ctl) (f : Scan → Scan) : (c.onScan f).pair = c.pair := rfl
@[simp] theorem Ctl.onScan_scan (c : Ctl) (f : Scan → Scan) : (c.onScan f).scan = c.scan.map f := rfl
@[simp] theorem Ctl.onScan_alerts (c : Ctl) (f : Scan → Scan) : (c.onScan f).alerts = c.alerts := rfl

/-! ### onPageEntries -/

@[simp] theorem Ctl.onPageEntries_station (c : Ctl) (w : Word) (f : ETEntry → ETEntry) :
    (c.onPageEntries w f).station = c.station := rfl
@[simp] theorem Ctl.onPageEntries_window (c : Ctl) (w : Word) (f : ETEntry → ETEntry) :
    (c.onPageEntries w f).window = c.window := rfl
@[simp] theorem Ctl.onPageEntries_firstWindow (c : Ctl) (w : Word) (f : ETEntry → ETEntry) :
    (c.onPageEntries w f).firstWindow = c.firstWindow := rfl
@[simp] theorem Ctl.onPageEntries_presence (c : Ctl) (w : Word) (f : ETEntry → ETEntry) :
    (c.onPageEntries w f).presence = c.presence := rfl
@[simp] theorem Ctl.onPageEntries_gen (c : Ctl) (w : Word) (f : ETEntry → ETEntry) :
    (c.onPageEntries w f).gen = c.gen := rfl
@[simp] theorem Ctl.onPageEntries_ownMark (c : Ctl) (w : Word) (f : ETEntry → ETEntry) :
    (c.onPageEntries w f).ownMark = c.ownMark := rfl
@[simp] theorem Ctl.onPageEntries_nextSeq (c : Ctl) (w : Word) (f : ETEntry → ETEntry) :
    (c.onPageEntries w f).nextSeq = c.nextSeq := rfl
@[simp] theorem Ctl.onPageEntries_frontier (c : Ctl) (w : Word) (f : ETEntry → ETEntry) :
    (c.onPageEntries w f).frontier = c.frontier := rfl
@[simp] theorem Ctl.onPageEntries_mark (c : Ctl) (w : Word) (f : ETEntry → ETEntry) :
    (c.onPageEntries w f).mark = c.mark := rfl
@[simp] theorem Ctl.onPageEntries_mount (c : Ctl) (w : Word) (f : ETEntry → ETEntry) :
    (c.onPageEntries w f).mount = c.mount := rfl
@[simp] theorem Ctl.onPageEntries_units (c : Ctl) (w : Word) (f : ETEntry → ETEntry) :
    (c.onPageEntries w f).units = c.units := rfl
@[simp] theorem Ctl.onPageEntries_completed (c : Ctl) (w : Word) (f : ETEntry → ETEntry) :
    (c.onPageEntries w f).completed = c.completed := rfl
@[simp] theorem Ctl.onPageEntries_blocks (c : Ctl) (w : Word) (f : ETEntry → ETEntry) :
    (c.onPageEntries w f).blocks = c.blocks := rfl
@[simp] theorem Ctl.onPageEntries_pool (c : Ctl) (w : Word) (f : ETEntry → ETEntry) :
    (c.onPageEntries w f).pool = c.pool := rfl
@[simp] theorem Ctl.onPageEntries_dir (c : Ctl) (w : Word) (f : ETEntry → ETEntry) :
    (c.onPageEntries w f).dir = c.dir := rfl
@[simp] theorem Ctl.onPageEntries_fill (c : Ctl) (w : Word) (f : ETEntry → ETEntry) :
    (c.onPageEntries w f).fill = c.fill := rfl
@[simp] theorem Ctl.onPageEntries_et (c : Ctl) (w : Word) (f : ETEntry → ETEntry) :
    (c.onPageEntries w f).et = c.et.map (fun x => if x.seq = w then f x else x) := rfl
@[simp] theorem Ctl.onPageEntries_owed (c : Ctl) (w : Word) (f : ETEntry → ETEntry) :
    (c.onPageEntries w f).owed = c.owed := rfl
@[simp] theorem Ctl.onPageEntries_readBack (c : Ctl) (w : Word) (f : ETEntry → ETEntry) :
    (c.onPageEntries w f).readBack = c.readBack := rfl
@[simp] theorem Ctl.onPageEntries_rx (c : Ctl) (w : Word) (f : ETEntry → ETEntry) :
    (c.onPageEntries w f).rx = c.rx := rfl
@[simp] theorem Ctl.onPageEntries_rxNext (c : Ctl) (w : Word) (f : ETEntry → ETEntry) :
    (c.onPageEntries w f).rxNext = c.rxNext := rfl
@[simp] theorem Ctl.onPageEntries_tx (c : Ctl) (w : Word) (f : ETEntry → ETEntry) :
    (c.onPageEntries w f).tx = c.tx := rfl
@[simp] theorem Ctl.onPageEntries_peers (c : Ctl) (w : Word) (f : ETEntry → ETEntry) :
    (c.onPageEntries w f).peers = c.peers := rfl
@[simp] theorem Ctl.onPageEntries_jobs (c : Ctl) (w : Word) (f : ETEntry → ETEntry) :
    (c.onPageEntries w f).jobs = c.jobs := rfl
@[simp] theorem Ctl.onPageEntries_catchUps (c : Ctl) (w : Word) (f : ETEntry → ETEntry) :
    (c.onPageEntries w f).catchUps = c.catchUps := rfl
@[simp] theorem Ctl.onPageEntries_repair (c : Ctl) (w : Word) (f : ETEntry → ETEntry) :
    (c.onPageEntries w f).repair = c.repair := rfl
@[simp] theorem Ctl.onPageEntries_recheck (c : Ctl) (w : Word) (f : ETEntry → ETEntry) :
    (c.onPageEntries w f).recheck = c.recheck := rfl
@[simp] theorem Ctl.onPageEntries_holdings (c : Ctl) (w : Word) (f : ETEntry → ETEntry) :
    (c.onPageEntries w f).holdings = c.holdings := rfl
@[simp] theorem Ctl.onPageEntries_port (c : Ctl) (w : Word) (f : ETEntry → ETEntry) :
    (c.onPageEntries w f).port = c.port := rfl
@[simp] theorem Ctl.onPageEntries_pair (c : Ctl) (w : Word) (f : ETEntry → ETEntry) :
    (c.onPageEntries w f).pair = c.pair := rfl
@[simp] theorem Ctl.onPageEntries_scan (c : Ctl) (w : Word) (f : ETEntry → ETEntry) :
    (c.onPageEntries w f).scan = c.scan := rfl
@[simp] theorem Ctl.onPageEntries_alerts (c : Ctl) (w : Word) (f : ETEntry → ETEntry) :
    (c.onPageEntries w f).alerts = c.alerts := rfl

/-! ### enter -/

@[simp] theorem Ctl.enter_station (c : Ctl) (r : Request) : (c.enter r).station = c.station := rfl
@[simp] theorem Ctl.enter_window (c : Ctl) (r : Request) : (c.enter r).window = c.window := rfl
@[simp] theorem Ctl.enter_firstWindow (c : Ctl) (r : Request) : (c.enter r).firstWindow = c.firstWindow := rfl
@[simp] theorem Ctl.enter_presence (c : Ctl) (r : Request) : (c.enter r).presence = c.presence := rfl
@[simp] theorem Ctl.enter_gen (c : Ctl) (r : Request) : (c.enter r).gen = c.gen := rfl
@[simp] theorem Ctl.enter_ownMark (c : Ctl) (r : Request) : (c.enter r).ownMark = c.ownMark := rfl
@[simp] theorem Ctl.enter_nextSeq (c : Ctl) (r : Request) : (c.enter r).nextSeq = c.nextSeq := rfl
@[simp] theorem Ctl.enter_frontier (c : Ctl) (r : Request) : (c.enter r).frontier = c.frontier := rfl
@[simp] theorem Ctl.enter_mark (c : Ctl) (r : Request) : (c.enter r).mark = c.mark := rfl
@[simp] theorem Ctl.enter_mount (c : Ctl) (r : Request) : (c.enter r).mount = c.mount := rfl
@[simp] theorem Ctl.enter_units (c : Ctl) (r : Request) :
    (c.enter r).units = vput c.units r.unit { c.units.get r.unit with queue := (c.units.get r.unit).queue ++ [r] } := rfl
@[simp] theorem Ctl.enter_completed (c : Ctl) (r : Request) : (c.enter r).completed = c.completed := rfl
@[simp] theorem Ctl.enter_blocks (c : Ctl) (r : Request) : (c.enter r).blocks = c.blocks := rfl
@[simp] theorem Ctl.enter_pool (c : Ctl) (r : Request) : (c.enter r).pool = c.pool := rfl
@[simp] theorem Ctl.enter_dir (c : Ctl) (r : Request) : (c.enter r).dir = c.dir := rfl
@[simp] theorem Ctl.enter_fill (c : Ctl) (r : Request) : (c.enter r).fill = c.fill := rfl
@[simp] theorem Ctl.enter_et (c : Ctl) (r : Request) : (c.enter r).et = c.et := rfl
@[simp] theorem Ctl.enter_owed (c : Ctl) (r : Request) : (c.enter r).owed = c.owed := rfl
@[simp] theorem Ctl.enter_readBack (c : Ctl) (r : Request) : (c.enter r).readBack = c.readBack := rfl
@[simp] theorem Ctl.enter_rx (c : Ctl) (r : Request) : (c.enter r).rx = c.rx := rfl
@[simp] theorem Ctl.enter_rxNext (c : Ctl) (r : Request) : (c.enter r).rxNext = c.rxNext := rfl
@[simp] theorem Ctl.enter_tx (c : Ctl) (r : Request) : (c.enter r).tx = c.tx := rfl
@[simp] theorem Ctl.enter_peers (c : Ctl) (r : Request) : (c.enter r).peers = c.peers := rfl
@[simp] theorem Ctl.enter_jobs (c : Ctl) (r : Request) : (c.enter r).jobs = c.jobs := rfl
@[simp] theorem Ctl.enter_catchUps (c : Ctl) (r : Request) : (c.enter r).catchUps = c.catchUps := rfl
@[simp] theorem Ctl.enter_repair (c : Ctl) (r : Request) : (c.enter r).repair = c.repair := rfl
@[simp] theorem Ctl.enter_recheck (c : Ctl) (r : Request) : (c.enter r).recheck = c.recheck := rfl
@[simp] theorem Ctl.enter_holdings (c : Ctl) (r : Request) : (c.enter r).holdings = c.holdings := rfl
@[simp] theorem Ctl.enter_port (c : Ctl) (r : Request) : (c.enter r).port = c.port := rfl
@[simp] theorem Ctl.enter_pair (c : Ctl) (r : Request) : (c.enter r).pair = c.pair := rfl
@[simp] theorem Ctl.enter_scan (c : Ctl) (r : Request) : (c.enter r).scan = c.scan := rfl
@[simp] theorem Ctl.enter_alerts (c : Ctl) (r : Request) : (c.enter r).alerts = c.alerts := rfl

/-! ### hand -/

@[simp] theorem Ctl.hand_station (c : Ctl) (x : Cause) : (c.hand x).station = c.station := rfl
@[simp] theorem Ctl.hand_window (c : Ctl) (x : Cause) : (c.hand x).window = c.window := rfl
@[simp] theorem Ctl.hand_firstWindow (c : Ctl) (x : Cause) : (c.hand x).firstWindow = c.firstWindow := rfl
@[simp] theorem Ctl.hand_presence (c : Ctl) (x : Cause) : (c.hand x).presence = c.presence := rfl
@[simp] theorem Ctl.hand_gen (c : Ctl) (x : Cause) : (c.hand x).gen = c.gen := rfl
@[simp] theorem Ctl.hand_ownMark (c : Ctl) (x : Cause) : (c.hand x).ownMark = c.ownMark := rfl
@[simp] theorem Ctl.hand_nextSeq (c : Ctl) (x : Cause) : (c.hand x).nextSeq = c.nextSeq := rfl
@[simp] theorem Ctl.hand_frontier (c : Ctl) (x : Cause) : (c.hand x).frontier = c.frontier := rfl
@[simp] theorem Ctl.hand_mark (c : Ctl) (x : Cause) : (c.hand x).mark = c.mark := rfl
@[simp] theorem Ctl.hand_mount (c : Ctl) (x : Cause) : (c.hand x).mount = c.mount := rfl
@[simp] theorem Ctl.hand_units (c : Ctl) (x : Cause) : (c.hand x).units = c.units := rfl
@[simp] theorem Ctl.hand_completed (c : Ctl) (x : Cause) : (c.hand x).completed = c.completed := rfl
@[simp] theorem Ctl.hand_blocks (c : Ctl) (x : Cause) : (c.hand x).blocks = c.blocks := rfl
@[simp] theorem Ctl.hand_pool (c : Ctl) (x : Cause) : (c.hand x).pool = c.pool := rfl
@[simp] theorem Ctl.hand_dir (c : Ctl) (x : Cause) : (c.hand x).dir = c.dir := rfl
@[simp] theorem Ctl.hand_fill (c : Ctl) (x : Cause) : (c.hand x).fill = c.fill := rfl
@[simp] theorem Ctl.hand_et (c : Ctl) (x : Cause) : (c.hand x).et = c.et := rfl
@[simp] theorem Ctl.hand_owed (c : Ctl) (x : Cause) : (c.hand x).owed = c.owed := rfl
@[simp] theorem Ctl.hand_readBack (c : Ctl) (x : Cause) : (c.hand x).readBack = c.readBack := rfl
@[simp] theorem Ctl.hand_rx (c : Ctl) (x : Cause) : (c.hand x).rx = c.rx := rfl
@[simp] theorem Ctl.hand_rxNext (c : Ctl) (x : Cause) : (c.hand x).rxNext = c.rxNext := rfl
@[simp] theorem Ctl.hand_tx (c : Ctl) (x : Cause) : (c.hand x).tx = c.tx := rfl
@[simp] theorem Ctl.hand_peers (c : Ctl) (x : Cause) : (c.hand x).peers = c.peers := rfl
@[simp] theorem Ctl.hand_jobs (c : Ctl) (x : Cause) : (c.hand x).jobs = c.jobs := rfl
@[simp] theorem Ctl.hand_catchUps (c : Ctl) (x : Cause) : (c.hand x).catchUps = c.catchUps := rfl
@[simp] theorem Ctl.hand_repair (c : Ctl) (x : Cause) : (c.hand x).repair = c.repair := rfl
@[simp] theorem Ctl.hand_recheck (c : Ctl) (x : Cause) : (c.hand x).recheck = c.recheck := rfl
@[simp] theorem Ctl.hand_holdings (c : Ctl) (x : Cause) : (c.hand x).holdings = c.holdings := rfl
@[simp] theorem Ctl.hand_port (c : Ctl) (x : Cause) : (c.hand x).port = c.port := rfl
@[simp] theorem Ctl.hand_pair (c : Ctl) (x : Cause) : (c.hand x).pair = c.pair := rfl
@[simp] theorem Ctl.hand_scan (c : Ctl) (x : Cause) : (c.hand x).scan = c.scan := rfl
@[simp] theorem Ctl.hand_alerts (c : Ctl) (x : Cause) :
    (c.hand x).alerts = { c.alerts with pending := c.alerts.pending ||| x.bit } := rfl

/-! ### endCommand -/

@[simp] theorem Ctl.endCommand_station (c : Ctl) (r : ResultCode) (l : List Byte) :
    (c.endCommand r l).station = c.station := rfl
@[simp] theorem Ctl.endCommand_window (c : Ctl) (r : ResultCode) (l : List Byte) :
    (c.endCommand r l).window = c.window := rfl
@[simp] theorem Ctl.endCommand_firstWindow (c : Ctl) (r : ResultCode) (l : List Byte) :
    (c.endCommand r l).firstWindow = c.firstWindow := rfl
@[simp] theorem Ctl.endCommand_presence (c : Ctl) (r : ResultCode) (l : List Byte) :
    (c.endCommand r l).presence = c.presence := rfl
@[simp] theorem Ctl.endCommand_gen (c : Ctl) (r : ResultCode) (l : List Byte) : (c.endCommand r l).gen = c.gen := rfl
@[simp] theorem Ctl.endCommand_ownMark (c : Ctl) (r : ResultCode) (l : List Byte) :
    (c.endCommand r l).ownMark = c.ownMark := rfl
@[simp] theorem Ctl.endCommand_nextSeq (c : Ctl) (r : ResultCode) (l : List Byte) :
    (c.endCommand r l).nextSeq = c.nextSeq := rfl
@[simp] theorem Ctl.endCommand_frontier (c : Ctl) (r : ResultCode) (l : List Byte) :
    (c.endCommand r l).frontier = c.frontier := rfl
@[simp] theorem Ctl.endCommand_mark (c : Ctl) (r : ResultCode) (l : List Byte) : (c.endCommand r l).mark = c.mark := rfl
@[simp] theorem Ctl.endCommand_mount (c : Ctl) (r : ResultCode) (l : List Byte) :
    (c.endCommand r l).mount = c.mount := rfl
@[simp] theorem Ctl.endCommand_units (c : Ctl) (r : ResultCode) (l : List Byte) :
    (c.endCommand r l).units = c.units := rfl
@[simp] theorem Ctl.endCommand_completed (c : Ctl) (r : ResultCode) (l : List Byte) :
    (c.endCommand r l).completed = c.completed := rfl
@[simp] theorem Ctl.endCommand_blocks (c : Ctl) (r : ResultCode) (l : List Byte) :
    (c.endCommand r l).blocks = c.blocks := rfl
@[simp] theorem Ctl.endCommand_pool (c : Ctl) (r : ResultCode) (l : List Byte) : (c.endCommand r l).pool = c.pool := rfl
@[simp] theorem Ctl.endCommand_dir (c : Ctl) (r : ResultCode) (l : List Byte) : (c.endCommand r l).dir = c.dir := rfl
@[simp] theorem Ctl.endCommand_fill (c : Ctl) (r : ResultCode) (l : List Byte) : (c.endCommand r l).fill = c.fill := rfl
@[simp] theorem Ctl.endCommand_et (c : Ctl) (r : ResultCode) (l : List Byte) : (c.endCommand r l).et = c.et := rfl
@[simp] theorem Ctl.endCommand_owed (c : Ctl) (r : ResultCode) (l : List Byte) : (c.endCommand r l).owed = c.owed := rfl
@[simp] theorem Ctl.endCommand_readBack (c : Ctl) (r : ResultCode) (l : List Byte) :
    (c.endCommand r l).readBack = c.readBack := rfl
@[simp] theorem Ctl.endCommand_rx (c : Ctl) (r : ResultCode) (l : List Byte) : (c.endCommand r l).rx = c.rx := rfl
@[simp] theorem Ctl.endCommand_rxNext (c : Ctl) (r : ResultCode) (l : List Byte) :
    (c.endCommand r l).rxNext = c.rxNext := rfl
@[simp] theorem Ctl.endCommand_tx (c : Ctl) (r : ResultCode) (l : List Byte) : (c.endCommand r l).tx = c.tx := rfl
@[simp] theorem Ctl.endCommand_peers (c : Ctl) (r : ResultCode) (l : List Byte) :
    (c.endCommand r l).peers = c.peers := rfl
@[simp] theorem Ctl.endCommand_jobs (c : Ctl) (r : ResultCode) (l : List Byte) : (c.endCommand r l).jobs = c.jobs := rfl
@[simp] theorem Ctl.endCommand_catchUps (c : Ctl) (r : ResultCode) (l : List Byte) :
    (c.endCommand r l).catchUps = c.catchUps := rfl
@[simp] theorem Ctl.endCommand_repair (c : Ctl) (r : ResultCode) (l : List Byte) :
    (c.endCommand r l).repair = c.repair := rfl
@[simp] theorem Ctl.endCommand_recheck (c : Ctl) (r : ResultCode) (l : List Byte) :
    (c.endCommand r l).recheck = c.recheck := rfl
@[simp] theorem Ctl.endCommand_holdings (c : Ctl) (r : ResultCode) (l : List Byte) :
    (c.endCommand r l).holdings = c.holdings := rfl
@[simp] theorem Ctl.endCommand_port (c : Ctl) (r : ResultCode) (l : List Byte) :
    (c.endCommand r l).port = { c.port with act := .idle, result := r.byte :: l, resultPos := 0, lastResult := r.byte } :=
  rfl
@[simp] theorem Ctl.endCommand_pair (c : Ctl) (r : ResultCode) (l : List Byte) : (c.endCommand r l).pair = c.pair := rfl
@[simp] theorem Ctl.endCommand_scan (c : Ctl) (r : ResultCode) (l : List Byte) : (c.endCommand r l).scan = c.scan := rfl
@[simp] theorem Ctl.endCommand_alerts (c : Ctl) (r : ResultCode) (l : List Byte) :
    (c.endCommand r l).alerts = c.alerts := rfl

/-! ### setOverrun -/

@[simp] theorem Ctl.setOverrun_station (c : Ctl) : c.setOverrun.station = c.station := rfl
@[simp] theorem Ctl.setOverrun_window (c : Ctl) : c.setOverrun.window = c.window := rfl
@[simp] theorem Ctl.setOverrun_firstWindow (c : Ctl) : c.setOverrun.firstWindow = c.firstWindow := rfl
@[simp] theorem Ctl.setOverrun_presence (c : Ctl) : c.setOverrun.presence = c.presence := rfl
@[simp] theorem Ctl.setOverrun_gen (c : Ctl) : c.setOverrun.gen = c.gen := rfl
@[simp] theorem Ctl.setOverrun_ownMark (c : Ctl) : c.setOverrun.ownMark = c.ownMark := rfl
@[simp] theorem Ctl.setOverrun_nextSeq (c : Ctl) : c.setOverrun.nextSeq = c.nextSeq := rfl
@[simp] theorem Ctl.setOverrun_frontier (c : Ctl) : c.setOverrun.frontier = c.frontier := rfl
@[simp] theorem Ctl.setOverrun_mark (c : Ctl) : c.setOverrun.mark = c.mark := rfl
@[simp] theorem Ctl.setOverrun_mount (c : Ctl) : c.setOverrun.mount = c.mount := rfl
@[simp] theorem Ctl.setOverrun_units (c : Ctl) : c.setOverrun.units = c.units := rfl
@[simp] theorem Ctl.setOverrun_completed (c : Ctl) : c.setOverrun.completed = c.completed := rfl
@[simp] theorem Ctl.setOverrun_blocks (c : Ctl) : c.setOverrun.blocks = c.blocks := rfl
@[simp] theorem Ctl.setOverrun_pool (c : Ctl) : c.setOverrun.pool = c.pool := rfl
@[simp] theorem Ctl.setOverrun_dir (c : Ctl) : c.setOverrun.dir = c.dir := rfl
@[simp] theorem Ctl.setOverrun_fill (c : Ctl) : c.setOverrun.fill = c.fill := rfl
@[simp] theorem Ctl.setOverrun_et (c : Ctl) : c.setOverrun.et = c.et := rfl
@[simp] theorem Ctl.setOverrun_owed (c : Ctl) : c.setOverrun.owed = c.owed := rfl
@[simp] theorem Ctl.setOverrun_readBack (c : Ctl) : c.setOverrun.readBack = c.readBack := rfl
@[simp] theorem Ctl.setOverrun_rx (c : Ctl) : c.setOverrun.rx = c.rx := rfl
@[simp] theorem Ctl.setOverrun_rxNext (c : Ctl) : c.setOverrun.rxNext = c.rxNext := rfl
@[simp] theorem Ctl.setOverrun_tx (c : Ctl) : c.setOverrun.tx = c.tx := rfl
@[simp] theorem Ctl.setOverrun_peers (c : Ctl) : c.setOverrun.peers = c.peers := rfl
@[simp] theorem Ctl.setOverrun_jobs (c : Ctl) : c.setOverrun.jobs = c.jobs := rfl
@[simp] theorem Ctl.setOverrun_catchUps (c : Ctl) : c.setOverrun.catchUps = c.catchUps := rfl
@[simp] theorem Ctl.setOverrun_repair (c : Ctl) : c.setOverrun.repair = c.repair := rfl
@[simp] theorem Ctl.setOverrun_recheck (c : Ctl) : c.setOverrun.recheck = c.recheck := rfl
@[simp] theorem Ctl.setOverrun_holdings (c : Ctl) : c.setOverrun.holdings = c.holdings := rfl
@[simp] theorem Ctl.setOverrun_port (c : Ctl) : c.setOverrun.port = { c.port with overrun := true } := rfl
@[simp] theorem Ctl.setOverrun_pair (c : Ctl) : c.setOverrun.pair = c.pair := rfl
@[simp] theorem Ctl.setOverrun_scan (c : Ctl) : c.setOverrun.scan = c.scan := rfl
@[simp] theorem Ctl.setOverrun_alerts (c : Ctl) : c.setOverrun.alerts = c.alerts := rfl

/-! ### takeCommand -/

@[simp] theorem Ctl.takeCommand_station (c : Ctl) : c.takeCommand.station = c.station := rfl
@[simp] theorem Ctl.takeCommand_window (c : Ctl) : c.takeCommand.window = c.window := rfl
@[simp] theorem Ctl.takeCommand_firstWindow (c : Ctl) : c.takeCommand.firstWindow = c.firstWindow := rfl
@[simp] theorem Ctl.takeCommand_presence (c : Ctl) : c.takeCommand.presence = c.presence := rfl
@[simp] theorem Ctl.takeCommand_gen (c : Ctl) : c.takeCommand.gen = c.gen := rfl
@[simp] theorem Ctl.takeCommand_ownMark (c : Ctl) : c.takeCommand.ownMark = c.ownMark := rfl
@[simp] theorem Ctl.takeCommand_nextSeq (c : Ctl) : c.takeCommand.nextSeq = c.nextSeq := rfl
@[simp] theorem Ctl.takeCommand_frontier (c : Ctl) : c.takeCommand.frontier = c.frontier := rfl
@[simp] theorem Ctl.takeCommand_mark (c : Ctl) : c.takeCommand.mark = c.mark := rfl
@[simp] theorem Ctl.takeCommand_mount (c : Ctl) : c.takeCommand.mount = c.mount := rfl
@[simp] theorem Ctl.takeCommand_units (c : Ctl) : c.takeCommand.units = c.units := rfl
@[simp] theorem Ctl.takeCommand_completed (c : Ctl) : c.takeCommand.completed = c.completed := rfl
@[simp] theorem Ctl.takeCommand_blocks (c : Ctl) : c.takeCommand.blocks = c.blocks := rfl
@[simp] theorem Ctl.takeCommand_pool (c : Ctl) : c.takeCommand.pool = c.pool := rfl
@[simp] theorem Ctl.takeCommand_dir (c : Ctl) : c.takeCommand.dir = c.dir := rfl
@[simp] theorem Ctl.takeCommand_fill (c : Ctl) : c.takeCommand.fill = c.fill := rfl
@[simp] theorem Ctl.takeCommand_et (c : Ctl) : c.takeCommand.et = c.et := rfl
@[simp] theorem Ctl.takeCommand_owed (c : Ctl) : c.takeCommand.owed = c.owed := rfl
@[simp] theorem Ctl.takeCommand_readBack (c : Ctl) : c.takeCommand.readBack = c.readBack := rfl
@[simp] theorem Ctl.takeCommand_rx (c : Ctl) : c.takeCommand.rx = c.rx := rfl
@[simp] theorem Ctl.takeCommand_rxNext (c : Ctl) : c.takeCommand.rxNext = c.rxNext := rfl
@[simp] theorem Ctl.takeCommand_tx (c : Ctl) : c.takeCommand.tx = c.tx := rfl
@[simp] theorem Ctl.takeCommand_peers (c : Ctl) : c.takeCommand.peers = c.peers := rfl
@[simp] theorem Ctl.takeCommand_jobs (c : Ctl) : c.takeCommand.jobs = c.jobs := rfl
@[simp] theorem Ctl.takeCommand_catchUps (c : Ctl) : c.takeCommand.catchUps = c.catchUps := rfl
@[simp] theorem Ctl.takeCommand_repair (c : Ctl) : c.takeCommand.repair = c.repair := rfl
@[simp] theorem Ctl.takeCommand_recheck (c : Ctl) : c.takeCommand.recheck = c.recheck := rfl
@[simp] theorem Ctl.takeCommand_holdings (c : Ctl) : c.takeCommand.holdings = c.holdings := rfl
@[simp] theorem Ctl.takeCommand_port (c : Ctl) :
    c.takeCommand.port = { c.port with act := .idle, result := [], resultPos := 0, payload := none } := rfl
@[simp] theorem Ctl.takeCommand_pair (c : Ctl) : c.takeCommand.pair = c.pair := rfl
@[simp] theorem Ctl.takeCommand_scan (c : Ctl) : c.takeCommand.scan = c.scan := rfl
@[simp] theorem Ctl.takeCommand_alerts (c : Ctl) : c.takeCommand.alerts = c.alerts := rfl

end Sys2Proof.Machine
end

