-- ==== Sys2Proof/Laws/Calm.lean ====
section
/-!
SUPPORT. `Calm w c d`: an event has taken the controller from `c` to `d`, has kept the bounds of `Ctl.Ok`, and has left the
operation in progress and the favour count of each unit alone. With `w` false it has moreover left alone the station state,
the membership, the mark log, the mount, the completions, the holdings generator, the read pair, the scan and the enabled
causes, has withdrawn no pending cause and no waiting request, and has changed the port only to end a FLUSH that waits or an
APPEND in its data phase. This file has the relation's laws and its lemmas for the shared updates.
-/

namespace Sys2Proof.Machine

/-- See the head of the file. -/
structure Calm (w : Bool) (c d : Ctl) : Prop where
  dir    : dirOk c.dir → dirOk d.dir
  tx     : txOk c.tx → txOk d.tx
  alerts : alertsOk c.alerts → alertsOk d.alerts
  repair : repairOk c.repair → repairOk d.repair
  busy   : ∀ i, (d.units.get i).busy = (c.units.get i).busy
  favour : ∀ i, (d.units.get i).favour = (c.units.get i).favour
  still  : w = false → d.still = c.still
  grows  : w = false → c.alerts.pending &&& d.alerts.pending = c.alerts.pending
  queue  : w = false → ∀ i, (c.units.get i).queue <+: (d.units.get i).queue
  port   : w = false → c.port.act.quiet = true → d.port = c.port

theorem Calm.units {w : Bool} {c d : Ctl} (h : Calm w c d) (hc : unitsOk c.units) : unitsOk d.units :=
  fun i => by rw [h.favour i]; exact hc i

theorem Calm.ok {w : Bool} {c d : Ctl} (h : Calm w c d) (hc : c.Ok) : d.Ok :=
  ⟨h.dir hc.1, h.tx hc.2.1, h.alerts hc.2.2.1, h.units hc.2.2.2.1, h.repair hc.2.2.2.2⟩

theorem Calm.refl {w : Bool} (c : Ctl) : Calm w c c :=
  ⟨id, id, id, id, fun _ => rfl, fun _ => rfl, fun _ => rfl, fun _ => by simp, fun _ _ => List.prefix_rfl,
    fun _ _ => rfl⟩

theorem byte_or_and (a b c : Byte) : (a ||| b) &&& c = (a &&& c) ||| (b &&& c) := by
  ext i hi
  simp [Bool.and_or_distrib_right]

theorem byte_and_trans (a b c : Byte) (h1 : a &&& b = a) (h2 : b &&& c = b) : a &&& c = a := by
  have : a &&& c = (a &&& b) &&& c := by rw [h1]
  rw [this, BitVec.and_assoc, h2, h1]

theorem Calm.trans {w : Bool} {a b c : Ctl} (h1 : Calm w a b) (h2 : Calm w b c) : Calm w a c :=
  ⟨h2.dir ∘ h1.dir, h2.tx ∘ h1.tx, h2.alerts ∘ h1.alerts, h2.repair ∘ h1.repair,
    fun i => (h2.busy i).trans (h1.busy i), fun i => (h2.favour i).trans (h1.favour i),
    fun hw => (h2.still hw).trans (h1.still hw), fun hw => byte_and_trans _ _ _ (h1.grows hw) (h2.grows hw),
    fun hw i => (h1.queue hw i).trans (h2.queue hw i),
    fun hw hq => (h2.port hw (by rw [h1.port hw hq]; exact hq)).trans (h1.port hw hq)⟩

theorem Calm.wide {w : Bool} {c d : Ctl} (h : Calm w c d) : Calm true c d :=
  ⟨h.dir, h.tx, h.alerts, h.repair, h.busy, h.favour, (nomatch ·), (nomatch ·), (nomatch ·), (nomatch ·)⟩

/-- The fields of the engines set anew. -/
theorem Calm.inner {w : Bool} {c₀ c : Ctl} (h : Calm w c₀ c) (frontier : Frontier) (blocks : List Block)
    (pool : List Nat) (fill : Vector (Option FillPage) 2) (et : List ETEntry) (owed : List Wanted)
    (readBack : ReadBack) (rx : Vector RxBuf 4) (rxNext : Nat) (jobs : Vector (Option Job) 2)
    (catchUps : List CatchUp) (recheck : Option Nat) :
    Calm w c₀ { c with frontier := frontier, blocks := blocks, pool := pool, fill := fill, et := et, owed := owed,
                       readBack := readBack, rx := rx, rxNext := rxNext, jobs := jobs, catchUps := catchUps,
                       recheck := recheck } :=
  ⟨h.dir, h.tx, h.alerts, h.repair, h.busy, h.favour, h.still, h.grows, h.queue, h.port⟩

/-- Every field set anew but those with a bound. -/
theorem Calm.outer {c₀ c : Ctl} (h : Calm true c₀ c) (station : StationState) (window : Option Nat)
    (firstWindow : Bool) (presence : Option Nat) (gen : Half) (ownMark : Word) (nextSeq : Option Word)
    (frontier : Frontier) (mark : MarkLog) (mount : Mount) (completed : List Completion) (blocks : List Block)
    (pool : List Nat) (fill : Vector (Option FillPage) 2) (et : List ETEntry) (owed : List Wanted)
    (readBack : ReadBack) (rx : Vector RxBuf 4) (rxNext : Nat) (peers : Vector Peer 8) (jobs : Vector (Option Job) 2)
    (catchUps : List CatchUp) (recheck : Option Nat) (holdings : HoldGen) (port : Port) (pair : Vector PairBuf 2)
    (scan : Option Scan) :
    Calm true c₀ { c with station := station, window := window, firstWindow := firstWindow, presence := presence,
                          gen := gen, ownMark := ownMark, nextSeq := nextSeq, frontier := frontier, mark := mark,
                          mount := mount, completed := completed, blocks := blocks, pool := pool, fill := fill,
                          et := et, owed := owed, readBack := readBack, rx := rx, rxNext := rxNext, peers := peers,
                          jobs := jobs, catchUps := catchUps, recheck := recheck, holdings := holdings, port := port,
                          pair := pair, scan := scan } :=
  ⟨h.dir, h.tx, h.alerts, h.repair, h.busy, h.favour, (nomatch ·), (nomatch ·), (nomatch ·), (nomatch ·)⟩

/-- The end of a FLUSH that waits, or of an APPEND in its data phase. -/
theorem Calm.endAct {w : Bool} {c₀ c : Ctl} (h : Calm w c₀ c) (p : Port) (hq : c.port.act.quiet = false) :
    Calm w c₀ { c with port := p } :=
  ⟨h.dir, h.tx, h.alerts, h.repair, h.busy, h.favour, h.still, h.grows, h.queue, fun hw hc => by
    have := h.port hw hc
    rw [this, hc] at hq
    exact absurd hq (by decide)⟩

theorem Calm.foldl {α : Type} {w : Bool} {c₀ : Ctl} {f : Ctl → α → Ctl} (l : List α)
    (hf : ∀ c x, Calm w c₀ c → Calm w c₀ (f c x)) {c : Ctl} (h : Calm w c₀ c) : Calm w c₀ (l.foldl f c) := by
  induction l generalizing c with
  | nil => exact h
  | cons x rest ih => exact ih (hf _ _ h)

/-! ## Units, alerts and the repair list -/

/-- The units set anew, with the operations in progress and the favour counts as they were, and requests only added. -/
theorem Calm.setUnits {w : Bool} {c₀ c : Ctl} (h : Calm w c₀ c) (u : Vector UnitState 2)
    (hb : ∀ i, (u.get i).busy = (c.units.get i).busy) (hf : ∀ i, (u.get i).favour = (c.units.get i).favour)
    (hq : w = false → ∀ i, (c.units.get i).queue <+: (u.get i).queue) : Calm w c₀ { c with units := u } :=
  ⟨h.dir, h.tx, h.alerts, h.repair, fun i => (hb i).trans (h.busy i), fun i => (hf i).trans (h.favour i), h.still,
    h.grows, fun hw i => (h.queue hw i).trans (hq hw i), h.port⟩

theorem Ctl.enter_calm {w : Bool} {c₀ c : Ctl} (h : Calm w c₀ c) (r : Request) : Calm w c₀ (c.enter r) := by
  refine h.setUnits _ (fun i => ?_) (fun i => ?_) (fun _ i => ?_) <;> rw [vput_get] <;> split
  · rename_i hi
    rw [hi]
  · rfl
  · rename_i hi
    rw [hi]
  · rfl
  · rename_i hi
    rw [hi]
    exact List.prefix_append _ _
  · exact List.prefix_rfl

/-- The waiting requests changed in their places. -/
theorem Ctl.onQueues_calm {c₀ c : Ctl} (hc₀ : Calm true c₀ c) (f : Request → Request) : Calm true c₀ (c.onQueues f) := by
  refine hc₀.setUnits _ (fun i => ?_) (fun i => ?_) (nomatch ·) <;> rw [vmap_get]

theorem Ctl.hand_calm {w : Bool} {c₀ c : Ctl} (h : Calm w c₀ c) (x : Cause) : Calm w c₀ (c.hand x) := by
  refine ⟨h.dir, h.tx, fun ha => ?_, h.repair, h.busy, h.favour, h.still, fun hw => ?_, h.queue, h.port⟩
  · obtain ⟨h1, h2⟩ := h.alerts ha
    refine ⟨?_, h2⟩
    have hx : x.bit &&& ~~~causeBits = 0 := by cases x <;> decide
    simp only [Ctl.hand_alerts]
    rw [byte_or_and, h1, hx]
    decide
  · have hg := h.grows hw
    simp only [Ctl.hand_alerts]
    refine byte_and_trans _ _ _ hg ?_
    ext i hi
    simp only [BitVec.getElem_and, BitVec.getElem_or]
    cases c.alerts.pending[i] <;> rfl

theorem Calm.setRepair {w : Bool} {c₀ c : Ctl} (h : Calm w c₀ c) (l : List Task)
    (hl : repairOk c.repair → repairOk l) : Calm w c₀ { c with repair := l } :=
  ⟨h.dir, h.tx, h.alerts, hl ∘ h.repair, h.busy, h.favour, h.still, h.grows, h.queue, h.port⟩

theorem countOf_map {α : Type} (p : α → Bool) (f : α → α) (hf : ∀ x, p (f x) = p x) (l : List α) :
    countOf p (l.map f) = countOf p l := by
  unfold countOf
  induction l with
  | nil => rfl
  | cons x rest ih => simp only [List.map_cons, List.filter_cons, hf]; split <;> simp [ih]

theorem countOf_filter_le {α : Type} (p q : α → Bool) (l : List α) : countOf p (l.filter q) ≤ countOf p l := by
  unfold countOf
  rw [List.filter_comm]
  exact List.length_filter_le _ _

theorem countOf_append {α : Type} (p : α → Bool) (l m : List α) : countOf p (l ++ m) = countOf p l + countOf p m := by
  simp [countOf]

theorem countOf_eq_zero {α : Type} (p : α → Bool) (l : List α) (h : l.any p = false) : countOf p l = 0 := by
  unfold countOf
  rw [List.length_eq_zero_iff, List.filter_eq_nil_iff]
  intro x hx hp
  have : l.any p = true := List.any_eq_true.2 ⟨x, hx, hp⟩
  simp [this] at h

theorem countOf_tail_le {α : Type} (p : α → Bool) (l : List α) : countOf p l.tail ≤ countOf p l := by
  cases l with
  | nil => simp
  | cons x rest =>
    unfold countOf
    simp only [List.tail_cons, List.filter_cons]
    split <;> simp

/-- Tasks changed in cursor and marks but not in kind: the bounds of the list stay. -/
theorem repairOk_map (f : Task → Task) (h1 : ∀ t, (f t).isRecheck = t.isRecheck)
    (h2 : ∀ t p, (f t).isDeparture p = t.isDeparture p) (l : List Task) (h : repairOk l) : repairOk (l.map f) := by
  refine ⟨?_, fun p => ?_⟩
  · rw [countOf_map _ _ h1]; exact h.1
  · rw [countOf_map _ _ (fun t => h2 t p)]; exact h.2 p

theorem repairOk_filter (q : Task → Bool) (l : List Task) (h : repairOk l) : repairOk (l.filter q) :=
  ⟨le_trans (countOf_filter_le _ _ _) h.1, fun p => le_trans (countOf_filter_le _ _ _) (h.2 p)⟩

theorem repairOk_tail (l : List Task) (h : repairOk l) : repairOk l.tail :=
  ⟨le_trans (countOf_tail_le _ _) h.1, fun p => le_trans (countOf_tail_le _ _) (h.2 p)⟩

theorem repairOk_recheck (l : List Task) (h : repairOk l) (hn : l.any Task.isRecheck = false) :
    repairOk (l ++ [{ kind := .recheck false false, cursor := 0, waiting := false }]) := by
  refine ⟨?_, fun p => ?_⟩
  · rw [countOf_append, countOf_eq_zero _ _ hn]
    decide
  · rw [countOf_append]
    have := h.2 p
    simpa [countOf, Task.isDeparture] using this

theorem repairOk_departure (l : List Task) (p : Station) (h : repairOk l)
    (hn : l.any (fun t => t.isDeparture p) = false) :
    repairOk (l ++ [{ kind := .departure p, cursor := 0, waiting := false }]) := by
  refine ⟨?_, fun q => ?_⟩
  · rw [countOf_append]
    have := h.1
    simpa [countOf, Task.isRecheck] using this
  · rw [countOf_append]
    by_cases hq : q = p
    · subst hq
      rw [countOf_eq_zero _ _ hn]
      simp [countOf, Task.isDeparture]
    · have := h.2 q
      have hb : (q == p) = false := by simpa using hq
      simpa [countOf, Task.isDeparture, hb] using this

theorem Ctl.requestRecheck_calm {w : Bool} {c₀ c : Ctl} (h : Calm w c₀ c) : Calm w c₀ c.requestRecheck := by
  unfold Ctl.requestRecheck
  split
  · refine h.setRepair _ (fun hl => repairOk_map _ (fun t => ?_) (fun t p => ?_) _ hl)
    · obtain ⟨kind, cur, wt⟩ := t
      rcases kind with p | ⟨_ | _, _⟩ <;> rfl
    · obtain ⟨kind, cur, wt⟩ := t
      rcases kind with p | ⟨_ | _, _⟩ <;> rfl
  · rename_i hn
    exact h.setRepair _ (fun hl => repairOk_recheck _ hl (by simpa using hn))

/-! ## The directory -/

theorem Ctl.withDir_calm {w : Bool} {c₀ c : Ctl} (h : Calm w c₀ c) (d : List Entry) (hd : dirOk c.dir → dirOk d) :
    Calm w c₀ (c.withDir d) := by
  have h1 : Calm w c₀ { c with dir := d } := ⟨hd ∘ h.dir, h.tx, h.alerts, h.repair, h.busy, h.favour, h.still, h.grows, h.queue, h.port⟩
  have h2 (r : Option Nat) : Calm w c₀ { c with dir := d, recheck := r } :=
    h1.inner _ _ _ _ _ _ _ _ _ _ _ r
  unfold Ctl.withDir
  simp only []
  split
  · exact h2 none
  · split
    · exact Ctl.requestRecheck_calm (Ctl.hand_calm (h2 _) _)
    · exact h1

theorem dirOk_map (d : List Entry) (f : Entry → Entry) (hf : ∀ e, (f e).id = e.id) (h : dirOk d) :
    dirOk (d.map f) := by
  refine ⟨?_, by simpa using h.2⟩
  rw [List.pairwise_map]
  exact h.1.imp (fun hxy => by simpa [hf] using hxy)

theorem Ctl.update_calm {w : Bool} {c₀ c : Ctl} (h : Calm w c₀ c) (k : Env) (id : PageId) (f : Entry → Entry)
    (hf : ∀ e, (f e).id = e.id) : Calm w c₀ (c.update k id f) := by
  refine Ctl.withDir_calm h _ (dirOk_map _ _ (fun e => ?_))
  split
  · exact hf e
  · rfl

theorem dirOk_filter (d : List Entry) (q : Entry → Bool) (h : dirOk d) : dirOk (d.filter q) :=
  ⟨h.1.filter _, le_trans (List.length_filter_le _ _) h.2⟩

theorem key_inj (a b : PageId) (h : a.key = b.key) : a = b := by
  obtain ⟨o, s⟩ := a
  obtain ⟨o', s'⟩ := b
  unfold PageId.key at h
  have hs := s.isLt
  have hs' := s'.isLt
  simp only at h
  have h1 : o.val = o'.val := by omega
  have h2 : s.toNat = s'.toNat := by omega
  simp [Fin.ext h1, BitVec.eq_of_toNat_eq h2]

theorem mem_putEntry (x y : Entry) (d : List Entry) : y ∈ putEntry x d ↔ y = x ∨ y ∈ d := by
  induction d with
  | nil => simp [putEntry]
  | cons z zs ih =>
    unfold putEntry
    split
    · simp
    · simp only [List.mem_cons, ih]
      tauto

theorem length_putEntry (x : Entry) (d : List Entry) : (putEntry x d).length = d.length + 1 := by
  induction d with
  | nil => rfl
  | cons z zs ih =>
    unfold putEntry
    split <;> simp [ih]

theorem putEntry_pairwise (x : Entry) (d : List Entry) (h : d.Pairwise (fun x y => x.id.key < y.id.key))
    (hx : ∀ y ∈ d, y.id.key ≠ x.id.key) : (putEntry x d).Pairwise (fun x y => x.id.key < y.id.key) := by
  induction d with
  | nil => simp [putEntry]
  | cons z zs ih =>
    rw [List.pairwise_cons] at h
    unfold putEntry
    split
    · rename_i hlt
      rw [List.pairwise_cons, List.pairwise_cons]
      refine ⟨fun y hy => ?_, h⟩
      rcases List.mem_cons.1 hy with hy | hy
      · subst hy; exact hlt
      · exact lt_trans hlt (h.1 y hy)
    · rename_i hlt
      rw [List.pairwise_cons]
      refine ⟨fun y hy => ?_, ih h.2 (fun y hy => hx y (by simp [hy]))⟩
      rcases (mem_putEntry _ _ _).1 hy with hy | hy
      · subst hy
        have := hx z (by simp)
        omega
      · exact h.1 y hy

theorem Ctl.create_calm {w : Bool} {c₀ c : Ctl} (h : Calm w c₀ c) (k : Env) (e : Entry) : Calm w c₀ (c.create k e) := by
  unfold Ctl.create
  split
  · exact h
  · rename_i hn
    refine Ctl.withDir_calm h _ (fun hd => ⟨putEntry_pairwise _ _ hd.1 (fun y hy hk => ?_), ?_⟩)
    · simp only [Bool.or_eq_true, not_or, Bool.not_eq_true, Option.isSome_eq_false_iff, Option.isNone_iff_eq_none] at hn
      unfold Ctl.entry at hn
      have := List.find?_eq_none.1 hn.1 y hy
      have hid : y.id = e.id := key_inj _ _ hk
      simp [hid] at this
    · simp only [Bool.or_eq_true, decide_eq_true_eq, not_or, not_le] at hn
      rw [length_putEntry]
      omega

/-! ## The transmit queue -/

theorem Calm.setTx {w : Bool} {c₀ c : Ctl} (h : Calm w c₀ c) (t : Tx) (ht : txOk c.tx → txOk t) :
    Calm w c₀ { c with tx := t } :=
  ⟨h.dir, ht ∘ h.tx, h.alerts, h.repair, h.busy, h.favour, h.still, h.grows, h.queue, h.port⟩

theorem Ctl.onTx_calm {w : Bool} {c₀ c : Ctl} (h : Calm w c₀ c) (f : Tx → Tx) (ht : txOk c.tx → txOk (f c.tx)) :
    Calm w c₀ (c.onTx f) := h.setTx _ ht

theorem txOk_map (t : Tx) (f : TxEntry → TxEntry) (hf : ∀ e, (f e).body.isPresence = e.body.isPresence)
    (o : Option OnAir) (n : Nat) (l : List TxBody) (hl : ∀ b ∈ l, b.isPresence = false) (h : txOk t) :
    txOk { t with entries := t.entries.map f, onAir := o, nextNum := n, held := l } := by
  refine ⟨?_, ?_, h.2.2.1, hl⟩
  · simp only
    rw [countOf_map _ _ (fun e => by rw [hf])]
    exact h.1
  · simp only
    rw [countOf_map _ _ hf]
    exact h.2.1

theorem txOk_filter (t : Tx) (q : TxEntry → Bool) (o : Option OnAir) (n : Nat) (l : List TxBody)
    (hl : ∀ b ∈ l, b.isPresence = false) (h : txOk t) :
    txOk { t with entries := t.entries.filter q, onAir := o, nextNum := n, held := l } :=
  ⟨le_trans (countOf_filter_le _ _ _) h.1, le_trans (countOf_filter_le _ _ _) h.2.1, h.2.2.1, hl⟩

theorem txOk_faults (t : Tx) (n : Nat) (hn : n ≤ 16) (h : txOk t) : txOk { t with faults := n } :=
  ⟨h.1, h.2.1, hn, h.2.2.2⟩

theorem txOk_onAir (t : Tx) (o : Option OnAir) (h : txOk t) : txOk { t with onAir := o } := h

theorem txOk_held (t : Tx) (l : List TxBody) (hl : ∀ b ∈ l, b.isPresence = false) (h : txOk t) :
    txOk { t with held := l } :=
  ⟨h.1, h.2.1, h.2.2.1, hl⟩

theorem txOk_join (t : Tx) (b : TxBody) (hb : b.isPresence = false) (hf : t.full = false) (h : txOk t) :
    txOk (t.join b) := by
  unfold Tx.full at hf
  simp only [decide_eq_false_iff_not, not_le] at hf
  refine ⟨?_, ?_, h.2.2⟩
  · simp only [Tx.join]
    rw [countOf_append]
    simp only [countOf, List.filter_cons, List.filter_nil, hb] at hf ⊢
    simp; omega
  · simp only [Tx.join]
    rw [countOf_append]
    have := h.2.1
    simpa [countOf, hb] using this

theorem txOk_answer (t : Tx) (a : AnswerBody) (h : txOk t) : txOk (t.answer a) := by
  unfold Tx.answer
  split
  · exact h
  · rename_i hf
    exact txOk_join _ _ rfl (by simpa using hf) h

theorem txOk_request (t : Tx) (b : TxBody) (hb : b.isPresence = false) (h : txOk t) : txOk (t.request b) := by
  unfold Tx.request
  split
  · refine txOk_held _ _ (fun x hx => ?_) h
    rcases List.mem_append.1 hx with hx | hx
    · exact h.2.2.2 x hx
    · rw [List.mem_singleton.1 hx]
      exact hb
  · rename_i hf
    exact txOk_join _ _ hb (by simp_all) h

theorem txOk_presence (t : Tx) (p : PresenceBody) (h : txOk t) : txOk (t.presence p) := by
  unfold Tx.presence
  split
  · refine txOk_map t _ (fun e => ?_) _ _ _ h.2.2.2 h
    split
    · rename_i he
      simp only [he]
      rfl
    · rfl
  · rename_i hn
    have hn' : t.entries.any (fun e => e.body.isPresence) = false := by simpa using hn
    refine ⟨?_, ?_, h.2.2⟩
    · simp only [Tx.join]
      rw [countOf_append]
      have := h.1
      simpa [countOf, TxBody.isPresence, TxBody.cls] using this
    · simp only [Tx.join]
      rw [countOf_append, countOf_eq_zero _ _ hn']
      simp [countOf, TxBody.isPresence, TxBody.cls]

theorem txOk_withdraw (t : Tx) (p : TxBody → Bool) (h : txOk t) : txOk (t.withdraw p) := by
  unfold Tx.withdraw
  have h1 := txOk_filter t (fun e => e.sending || !p e.body) t.onAir t.nextNum t.held h.2.2.2 h
  have h2 := txOk_map _ (fun e => if p e.body then { e with withdrawn := true } else e)
    (fun e => by split <;> rfl) t.onAir t.nextNum (t.held.filter (fun b => !p b))
    (fun b hb => h.2.2.2 b (List.mem_filter.1 hb).1) h1
  exact h2

theorem TxBody.narrow_isPresence (b : TxBody) (p : Word → Nat → Bool) (s : Station) :
    (b.narrow p s).isPresence = b.isPresence := by
  cases b <;> simp only [TxBody.narrow]
  split <;> rfl

theorem txOk_narrow (t : Tx) (p : Word → Nat → Bool) (s : Station) (h : txOk t) : txOk (t.narrow p s) := by
  unfold Tx.narrow
  refine txOk_withdraw _ _ (txOk_map t _ (fun e => TxBody.narrow_isPresence _ _ _) _ _ _ (fun b hb => ?_) h)
  obtain ⟨x, hx, rfl⟩ := List.mem_map.1 hb
  rw [TxBody.narrow_isPresence]
  exact h.2.2.2 x hx

theorem txOk_widen (t : Tx) (seq : Word) (ext : Nat) (mask : Byte) (h : txOk t) : txOk (t.widen seq ext mask) := by
  unfold Tx.widen
  refine txOk_map t _ (fun e => ?_) _ _ _ h.2.2.2 h
  split
  · rfl
  · split <;> rename_i hb <;> try rfl
    split
    · simp [hb, TxBody.isPresence, TxBody.cls]
    · rfl

theorem txOk_meetHeld (t t' : Tx) (b : TxBody) (h : txOk t) (he : t.meetHeld = some (b, t')) : txOk t' := by
  unfold Tx.meetHeld at he
  split at he
  · simp at he
  · rename_i hf
    have hf' : t.full = false := by simpa using hf
    split at he
    · rename_i x hx
      simp only [Option.some.injEq, Prod.mk.injEq] at he
      obtain ⟨rfl, rfl⟩ := he
      exact txOk_join { t with held := _ } _ (h.2.2.2 _ (List.mem_of_find?_eq_some hx)) hf'
        (txOk_held _ _ (fun y hy => h.2.2.2 y (List.mem_filter.1 hy).1) h)
    · split at he
      · simp at he
      · rename_i x rest hx
        simp only [Option.some.injEq, Prod.mk.injEq] at he
        obtain ⟨rfl, rfl⟩ := he
        exact txOk_join { t with held := _ } _ (h.2.2.2 _ (by simp [hx])) hf'
          (txOk_held _ _ (fun y hy => h.2.2.2 y (by simp [hx, hy])) h)

/-! ## Changes of an entry keep its identity -/

@[simp] theorem Entry.setDepth_id (e : Entry) (s : Station) (d : Nat) : (e.setDepth s d).id = e.id := rfl

@[simp] theorem Entry.raiseDepth_id (e : Entry) (s : Station) (d : Nat) : (e.raiseDepth s d).id = e.id := by
  unfold Entry.raiseDepth
  split <;> rfl

theorem foldl_entry_id {α : Type} (f : Entry → α → Entry) (hf : ∀ e x, (f e x).id = e.id) (l : List α) (e : Entry) :
    (l.foldl f e).id = e.id := by
  induction l generalizing e with
  | nil => rfl
  | cons x rest ih => rw [List.foldl_cons, ih, hf]

@[simp] theorem Entry.raiseAll_id (e : Entry) (k : Env) (v : Half) : (e.raiseAll k v).id = e.id := by
  unfold Entry.raiseAll
  refine foldl_entry_id _ (fun e s => ?_) _ _
  split <;> simp

@[simp] theorem Entry.taken_id (e : Entry) (k : Env) (f : DataFrame) : (e.taken k f).id = e.id := by
  simp [Entry.taken]

@[simp] theorem Entry.jobDepth_id (e : Entry) (t : Station) (n : Nat) (v : Verdict) : (e.jobDepth t n v).id = e.id := by
  cases v <;> simp [Entry.jobDepth]

@[simp] theorem Entry.snoop_id (e : Entry) (t : Station) (a : AnswerBody) (v : Verdict) : (e.snoop t a v).id = e.id := by
  cases v <;> simp [Entry.snoop]

@[simp] theorem Entry.holdItem_id (e : Entry) (s : Station) (r : Bool) (i : HoldItem) :
    (Entry.holdItem s r e i).id = e.id := by
  cases i with
  | run seq count =>
    simp only [Entry.holdItem]
    split
    · split <;> simp
    · rfl
  | page seq depth flags =>
    simp only [Entry.holdItem]
    split
    · cases r <;> simp
    · rfl

@[simp] theorem Entry.holdFrame_id (e : Entry) (s : Station) (r : Bool) (b : HoldingsBody) :
    (e.holdFrame s r b).id = e.id := by
  unfold Entry.holdFrame
  rw [foldl_entry_id _ (fun e x => Entry.holdItem_id e s r x)]
  split <;> simp

end Sys2Proof.Machine
end

