-- ==== Sys2Proof/Laws/CalmOwn.lean ====
section
/-!
SUPPORT. The events of Flags, Blocks, Directory, Transmit, OwnExtent: each is `Calm`.
-/

set_option linter.unreachableTactic false
set_option linter.unusedTactic false

namespace Sys2Proof.Machine

theorem Ctl.setOverrun_calm {c₀ c : Ctl} (hc₀ : Calm true c₀ c) :
    Calm true c₀ (c.setOverrun) := by
  unfold Ctl.setOverrun
  try simp only []
  repeat' first
    | with_reducible assumption
    | split
    | (intro e; first | rfl | (simp; done) | (split <;> simp))
    | with_reducible apply Calm.outer

theorem Ctl.endCommand_calm {c₀ c : Ctl} (hc₀ : Calm true c₀ c) (code : ResultCode) (fields : List Byte) :
    Calm true c₀ (c.endCommand code fields) := by
  unfold Ctl.endCommand
  try simp only []
  repeat' first
    | with_reducible assumption
    | split
    | (intro e; first | rfl | (simp; done) | (split <;> simp))
    | with_reducible apply Calm.outer

theorem Ctl.setBlock_calm {w : Bool} {c₀ c : Ctl} (hc₀ : Calm w c₀ c) (x : Block) :
    Calm w c₀ (c.setBlock x) := by
  unfold Ctl.setBlock
  try simp only []
  repeat' first
    | with_reducible assumption
    | split
    | (intro e; first | rfl | (simp; done) | (split <;> simp))
    | with_reducible apply Calm.inner

theorem Ctl.raiseCount_calm {w : Bool} {c₀ c : Ctl} (hc₀ : Calm w c₀ c) (a : PageAddr) :
    Calm w c₀ (c.raiseCount a) := by
  unfold Ctl.raiseCount
  try simp only []
  repeat' first
    | with_reducible assumption
    | with_reducible apply Ctl.setBlock_calm
    | split
    | (intro e; first | rfl | (simp; done) | (split <;> simp))
    | with_reducible apply Calm.inner

theorem Ctl.killPage_calm {w : Bool} {c₀ c : Ctl} (hc₀ : Calm w c₀ c) (a : PageAddr) :
    Calm w c₀ (c.killPage a) := by
  unfold Ctl.killPage
  try simp only []
  repeat' first
    | with_reducible assumption
    | with_reducible apply Ctl.setBlock_calm
    | with_reducible apply Ctl.enter_calm
    | split
    | (intro e; first | rfl | (simp; done) | (split <;> simp))
    | with_reducible apply Calm.inner

theorem Ctl.killPages_calm {w : Bool} {c₀ c : Ctl} (h : Calm w c₀ c) (l : List (Option PageAddr)) :
    Calm w c₀ (c.killPages l) := by
  unfold Ctl.killPages
  refine Calm.foldl _ (fun c x hc => ?_) h
  split
  · exact Ctl.killPage_calm hc _
  · exact hc

theorem Ctl.retire_calm {w : Bool} {c₀ c : Ctl} (hc₀ : Calm w c₀ c) (n : Nat) :
    Calm w c₀ (c.retire n) := by
  unfold Ctl.retire
  try simp only []
  repeat' first
    | with_reducible assumption
    | with_reducible apply Ctl.setBlock_calm
    | split
    | (intro e; first | rfl | (simp; done) | (split <;> simp))
    | with_reducible apply Calm.inner

theorem Ctl.giveOut_calm {w : Bool} {c₀ c : Ctl} (h : Calm w c₀ c) (b : Block) : Calm w c₀ (c.giveOut b).2 :=
  Ctl.setBlock_calm h _

theorem Ctl.takeHead_calm {w : Bool} {c₀ c : Ctl} (hc₀ : Calm w c₀ c) (rest : List Nat) :
    Calm w c₀ (c.takeHead rest) := by
  unfold Ctl.takeHead
  try simp only []
  repeat' first
    | with_reducible assumption
    | with_reducible apply Ctl.hand_calm
    | split
    | (intro e; first | rfl | (simp; done) | (split <;> simp))
    | with_reducible apply Calm.inner

theorem Ctl.allocate_calm {w : Bool} {c₀ c d : Ctl} {kind : Role} {relocation : Bool} {a : PageAddr} (h : Calm w c₀ c)
    (he : c.allocate kind relocation = some (a, d)) : Calm w c₀ d := by
  unfold Ctl.allocate at he
  split at he
  · simp only [Option.some.injEq] at he
    rw [show d = (c.giveOut _).2 from (congrArg Prod.snd he).symm]
    exact Ctl.giveOut_calm h _
  · split at he
    · simp at he
    · split at he
      · simp only [Option.some.injEq] at he
        rw [show d = ((c.takeHead _).giveOut _).2 from (congrArg Prod.snd he).symm]
        exact Ctl.giveOut_calm (Ctl.takeHead_calm h _) _
      · simp at he

theorem Ctl.remove_calm {w : Bool} {c₀ c : Ctl} (h : Calm w c₀ c) (id : PageId) : Calm w c₀ (c.remove id) := by
  unfold Ctl.remove
  split
  · exact h
  · exact Ctl.killPages_calm (Ctl.withDir_calm h _ (fun hd => dirOk_filter _ _ hd)) _

theorem Ctl.dropTargets_calm {w : Bool} {c₀ c : Ctl} (hc₀ : Calm w c₀ c) (k : Env) (seq : Word) :
    Calm w c₀ (c.dropTargets k seq) := by
  unfold Ctl.dropTargets
  try simp only []
  repeat' first
    | with_reducible assumption
    | with_reducible apply Ctl.update_calm
    | split
    | (intro e; first | rfl | (simp; done) | (split <;> simp))
    | with_reducible apply Calm.inner

theorem Ctl.setJob_calm {w : Bool} {c₀ c : Ctl} (hc₀ : Calm w c₀ c) (slot : Fin 2) (j : Option Job) :
    Calm w c₀ (c.setJob slot j) := by
  unfold Ctl.setJob
  try simp only []
  repeat' first
    | with_reducible assumption
    | split
    | (intro e; first | rfl | (simp; done) | (split <;> simp))
    | with_reducible apply Calm.inner

theorem Ctl.closeJob_calm {w : Bool} {c₀ c : Ctl} (hc₀ : Calm w c₀ c) (slot : Fin 2) :
    Calm w c₀ (c.closeJob slot) := by
  unfold Ctl.closeJob
  try simp only []
  repeat' first
    | with_reducible assumption
    | with_reducible apply Ctl.onTx_calm
    | with_reducible apply Ctl.setJob_calm
    | split
    | (intro ht; first
        | exact ht
        | exact txOk_withdraw _ _ ht
        | exact txOk_narrow _ _ _ ht
        | exact txOk_answer _ _ ht
        | exact txOk_presence _ _ ht
        | exact txOk_widen _ _ _ _ ht
        | exact txOk_request _ _ rfl ht
        | exact txOk_filter _ _ none _ _ ht.2.2.2 ht
        | exact txOk_map _ _ (fun e => by split <;> rfl) none _ _ ht.2.2.2 ht)
    | (intro e; first | rfl | (simp; done) | (split <;> simp))
    | with_reducible apply Calm.inner

theorem Ctl.cancelJob_calm {w : Bool} {c₀ c : Ctl} (hc₀ : Calm w c₀ c) (slot : Fin 2) :
    Calm w c₀ (c.cancelJob slot) := by
  unfold Ctl.cancelJob
  try simp only []
  repeat' first
    | with_reducible assumption
    | with_reducible apply Ctl.setJob_calm
    | with_reducible apply Ctl.closeJob_calm
    | split
    | (intro e; first | rfl | (simp; done) | (split <;> simp))
    | with_reducible apply Calm.inner

theorem Ctl.freeCancelled_calm {w : Bool} {c₀ c : Ctl} (hc₀ : Calm w c₀ c) (b : TxBody) :
    Calm w c₀ (c.freeCancelled b) := by
  unfold Ctl.freeCancelled
  try simp only []
  repeat' first
    | with_reducible assumption
    | with_reducible apply Ctl.setJob_calm
    | with_reducible apply Ctl.answer_calm
    | split
    | (intro e; first | rfl | (simp; done) | (split <;> simp))
    | with_reducible apply Calm.inner

theorem Ctl.endAttempt_calm {w : Bool} {c₀ c : Ctl} (hc₀ : Calm w c₀ c) :
    Calm w c₀ (c.endAttempt) := by
  unfold Ctl.endAttempt
  try simp only []
  repeat' first
    | with_reducible assumption
    | with_reducible apply Ctl.onTx_calm
    | with_reducible apply Ctl.freeCancelled_calm
    | split
    | (intro ht; first
        | exact ht
        | exact txOk_withdraw _ _ ht
        | exact txOk_narrow _ _ _ ht
        | exact txOk_answer _ _ ht
        | exact txOk_presence _ _ ht
        | exact txOk_widen _ _ _ _ ht
        | exact txOk_request _ _ rfl ht
        | exact txOk_filter _ _ none _ _ ht.2.2.2 ht
        | exact txOk_map _ _ (fun e => by split <;> rfl) none _ _ ht.2.2.2 ht)
    | (intro e; first | rfl | (simp; done) | (split <;> simp))
    | with_reducible apply Calm.inner

theorem Ctl.cutShort_calm {w : Bool} {c₀ c : Ctl} (hc₀ : Calm w c₀ c) :
    Calm w c₀ (c.cutShort) := by
  unfold Ctl.cutShort
  try simp only []
  repeat' first
    | with_reducible assumption
    | with_reducible apply Ctl.endAttempt_calm
    | split
    | (intro e; first | rfl | (simp; done) | (split <;> simp))
    | with_reducible apply Calm.inner

theorem Ctl.enterState_calm {c₀ c : Ctl} (hc₀ : Calm true c₀ c) (st : StationState) :
    Calm true c₀ (c.enterState st) := by
  unfold Ctl.enterState
  try simp only []
  repeat' first
    | with_reducible assumption
    | with_reducible apply Ctl.cutShort_calm
    | split
    | (intro e; first | rfl | (simp; done) | (split <;> simp))
    | with_reducible apply Calm.outer

theorem Ctl.requestPresence_calm {w : Bool} {c₀ c : Ctl} (hc₀ : Calm w c₀ c) (k : Env) :
    Calm w c₀ (c.requestPresence k) := by
  unfold Ctl.requestPresence
  try simp only []
  repeat' first
    | with_reducible assumption
    | with_reducible apply Ctl.onTx_calm
    | split
    | (intro ht; first
        | exact ht
        | exact txOk_withdraw _ _ ht
        | exact txOk_narrow _ _ _ ht
        | exact txOk_answer _ _ ht
        | exact txOk_presence _ _ ht
        | exact txOk_widen _ _ _ _ ht
        | exact txOk_request _ _ rfl ht
        | exact txOk_filter _ _ none _ _ ht.2.2.2 ht
        | exact txOk_map _ _ (fun e => by split <;> rfl) none _ _ ht.2.2.2 ht)
    | (intro e; first | rfl | (simp; done) | (split <;> simp))
    | with_reducible apply Calm.inner

theorem Ctl.answer_calm {w : Bool} {c₀ c : Ctl} (hc₀ : Calm w c₀ c) (a : AnswerBody) :
    Calm w c₀ (c.answer a) := by
  unfold Ctl.answer
  try simp only []
  repeat' first
    | with_reducible assumption
    | with_reducible apply Ctl.onTx_calm
    | split
    | (intro ht; first
        | exact ht
        | exact txOk_withdraw _ _ ht
        | exact txOk_narrow _ _ _ ht
        | exact txOk_answer _ _ ht
        | exact txOk_presence _ _ ht
        | exact txOk_widen _ _ _ _ ht
        | exact txOk_request _ _ rfl ht
        | exact txOk_filter _ _ none _ _ ht.2.2.2 ht
        | exact txOk_map _ _ (fun e => by split <;> rfl) none _ _ ht.2.2.2 ht)
    | (intro e; first | rfl | (simp; done) | (split <;> simp))
    | with_reducible apply Calm.inner

theorem Ctl.requestCopy_calm {w : Bool} {c₀ c : Ctl} (hc₀ : Calm w c₀ c) (slot : Fin 2) :
    Calm w c₀ (c.requestCopy slot) := by
  unfold Ctl.requestCopy
  try simp only []
  repeat' first
    | with_reducible assumption
    | with_reducible apply Ctl.setJob_calm
    | with_reducible apply Ctl.onTx_calm
    | split
    | (intro ht; first
        | exact ht
        | exact txOk_withdraw _ _ ht
        | exact txOk_narrow _ _ _ ht
        | exact txOk_answer _ _ ht
        | exact txOk_presence _ _ ht
        | exact txOk_widen _ _ _ _ ht
        | exact txOk_request _ _ rfl ht
        | exact txOk_filter _ _ none _ _ ht.2.2.2 ht
        | exact txOk_map _ _ (fun e => by split <;> rfl) none _ _ ht.2.2.2 ht)
    | (intro e; first | rfl | (simp; done) | (split <;> simp))
    | with_reducible apply Calm.inner

theorem Ctl.requestOwedCopies_calm {w : Bool} {c₀ c : Ctl} (hc₀ : Calm w c₀ c) :
    Calm w c₀ (c.requestOwedCopies) := by
  unfold Ctl.requestOwedCopies
  try simp only []
  repeat' first
    | with_reducible assumption
    | with_reducible apply Ctl.requestCopy_calm
    | split
    | (intro e; first | rfl | (simp; done) | (split <;> simp))
    | with_reducible apply Calm.inner

theorem Ctl.resumeCopies_calm {w : Bool} {c₀ c : Ctl} (hc₀ : Calm w c₀ c) (before : Tx) :
    Calm w c₀ (c.resumeCopies before) := by
  unfold Ctl.resumeCopies
  split
  · exact Ctl.requestOwedCopies_calm hc₀
  · exact hc₀

theorem Ctl.cancelJobs_calm {w : Bool} {c₀ c : Ctl} (hc₀ : Calm w c₀ c) (p : Job → Bool) :
    Calm w c₀ (c.cancelJobs p) := by
  unfold Ctl.cancelJobs
  try simp only []
  repeat' first
    | with_reducible assumption
    | with_reducible apply Ctl.cancelJob_calm
    | with_reducible apply Ctl.resumeCopies_calm
    | split
    | (intro e; first | rfl | (simp; done) | (split <;> simp))
    | with_reducible apply Calm.inner

theorem Ctl.startJob_calm {w : Bool} {c₀ c d : Ctl} {slot : Fin 2} {purpose : Purpose} {id : PageId} {t : Station}
    (h : Calm w c₀ c) (he : c.startJob slot purpose id t = some d) : Calm w c₀ d := by
  unfold Ctl.startJob at he
  split at he
  · simp at he
  · split at he
    · simp at he
    · simp only [Option.some.injEq] at he
      subst he
      exact Ctl.enter_calm (Ctl.setJob_calm h _ _) _

theorem Ctl.setFill_calm {w : Bool} {c₀ c : Ctl} (hc₀ : Calm w c₀ c) (b : Fin 2) (p : Option FillPage) :
    Calm w c₀ (c.setFill b p) := by
  unfold Ctl.setFill
  try simp only []
  repeat' first
    | with_reducible assumption
    | split
    | (intro e; first | rfl | (simp; done) | (split <;> simp))
    | with_reducible apply Calm.inner

theorem Ctl.onPageEntries_calm {w : Bool} {c₀ c : Ctl} (hc₀ : Calm w c₀ c) (seq : Word) (f : ETEntry → ETEntry) :
    Calm w c₀ (c.onPageEntries seq f) := by
  unfold Ctl.onPageEntries
  try simp only []
  repeat' first
    | with_reducible assumption
    | split
    | (intro e; first | rfl | (simp; done) | (split <;> simp))
    | with_reducible apply Calm.inner

theorem Ctl.pruneOwed_calm {w : Bool} {c₀ c : Ctl} (hc₀ : Calm w c₀ c) :
    Calm w c₀ (c.pruneOwed) := by
  unfold Ctl.pruneOwed
  try simp only []
  repeat' first
    | with_reducible assumption
    | split
    | (intro e; first | rfl | (simp; done) | (split <;> simp))
    | with_reducible apply Calm.inner

theorem Ctl.resumeTimers_calm {w : Bool} {c₀ c : Ctl} (hc₀ : Calm w c₀ c) (seq : Word) :
    Calm w c₀ (c.resumeTimers seq) := by
  unfold Ctl.resumeTimers
  try simp only []
  repeat' first
    | with_reducible assumption
    | with_reducible apply Ctl.onPageEntries_calm
    | split
    | (intro e; first | rfl | (simp; done) | (split <;> simp))
    | with_reducible apply Calm.inner

theorem Ctl.countAttempts_calm {w : Bool} {c₀ c : Ctl} (hc₀ : Calm w c₀ c) (seq : Word) (ext : Nat) (mask : Byte) :
    Calm w c₀ (c.countAttempts seq ext mask) := by
  unfold Ctl.countAttempts
  try simp only []
  repeat' first
    | with_reducible assumption
    | with_reducible apply Ctl.onPageEntries_calm
    | split
    | (intro e; first | rfl | (simp; done) | (split <;> simp))
    | with_reducible apply Calm.inner

theorem Ctl.sendExtent_calm {w : Bool} {c₀ c : Ctl} (hc₀ : Calm w c₀ c) (seq : Word) (info : ExtentInfo) (mask : Byte) (src : ExtSource) :
    Calm w c₀ (c.sendExtent seq info mask src) := by
  unfold Ctl.sendExtent
  try simp only []
  repeat' first
    | with_reducible assumption
    | with_reducible apply Ctl.onTx_calm
    | with_reducible apply Ctl.countAttempts_calm
    | with_reducible apply Ctl.onPageEntries_calm
    | split
    | (intro ht; first
        | exact ht
        | exact txOk_withdraw _ _ ht
        | exact txOk_narrow _ _ _ ht
        | exact txOk_answer _ _ ht
        | exact txOk_presence _ _ ht
        | exact txOk_widen _ _ _ _ ht
        | exact txOk_request _ _ rfl ht
        | exact txOk_filter _ _ none _ _ ht.2.2.2 ht
        | exact txOk_map _ _ (fun e => by split <;> rfl) none _ _ ht.2.2.2 ht)
    | (intro e; first | rfl | (simp; done) | (split <;> simp))
    | with_reducible apply Calm.inner

theorem Ctl.startReadBack_calm {w : Bool} {c₀ c : Ctl} (hc₀ : Calm w c₀ c) (k : Env) :
    Calm w c₀ (c.startReadBack k) := by
  unfold Ctl.startReadBack
  try simp only []
  repeat' first
    | with_reducible assumption
    | with_reducible apply Ctl.enter_calm
    | split
    | (intro e; first | rfl | (simp; done) | (split <;> simp))
    | with_reducible apply Calm.inner

theorem Ctl.transmit_calm {w : Bool} {c₀ c : Ctl} (hc₀ : Calm w c₀ c) (k : Env) (seq : Word) (ext : Nat) (mask : Byte) :
    Calm w c₀ (c.transmit k seq ext mask) := by
  unfold Ctl.transmit
  try simp only []
  repeat' first
    | with_reducible assumption
    | with_reducible apply Ctl.sendExtent_calm
    | with_reducible apply Ctl.startReadBack_calm
    | with_reducible apply Ctl.onPageEntries_calm
    | split
    | (intro e; first | rfl | (simp; done) | (split <;> simp))
    | with_reducible apply Calm.inner

theorem Ctl.requestOwed_calm {w : Bool} {c₀ c : Ctl} (hc₀ : Calm w c₀ c) (k : Env) :
    Calm w c₀ (c.requestOwed k) := by
  unfold Ctl.requestOwed
  try simp only []
  repeat' first
    | with_reducible assumption
    | with_reducible apply Ctl.pruneOwed_calm
    | with_reducible apply Ctl.transmit_calm
    | (refine Calm.foldl _ (fun c x hc => ?_) ?_ <;> try simp only [])
    | split
    | (intro e; first | rfl | (simp; done) | (split <;> simp))
    | with_reducible apply Calm.inner

theorem Ctl.narrowSettled_calm {w : Bool} {c₀ c : Ctl} (hc₀ : Calm w c₀ c) (x : ETEntry) :
    Calm w c₀ (c.narrowSettled x) := by
  unfold Ctl.narrowSettled
  try simp only []
  repeat' first
    | with_reducible assumption
    | with_reducible apply Ctl.onTx_calm
    | (refine Calm.foldl _ (fun c x hc => ?_) ?_ <;> try simp only [])
    | split
    | (intro ht; first
        | exact ht
        | exact txOk_withdraw _ _ ht
        | exact txOk_narrow _ _ _ ht
        | exact txOk_answer _ _ ht
        | exact txOk_presence _ _ ht
        | exact txOk_widen _ _ _ _ ht
        | exact txOk_request _ _ rfl ht
        | exact txOk_filter _ _ none _ _ ht.2.2.2 ht
        | exact txOk_map _ _ (fun e => by split <;> rfl) none _ _ ht.2.2.2 ht)
    | (intro e; first | rfl | (simp; done) | (split <;> simp))
    | with_reducible apply Calm.inner

theorem Ctl.leaveTable_calm {w : Bool} {c₀ c : Ctl} (hc₀ : Calm w c₀ c) (k : Env) (x : ETEntry) (rest : List ETEntry) :
    Calm w c₀ (c.leaveTable k x rest) := by
  unfold Ctl.leaveTable
  try simp only []
  repeat' first
    | with_reducible assumption
    | with_reducible apply Ctl.hand_calm
    | with_reducible apply Ctl.update_calm
    | with_reducible apply Ctl.dropTargets_calm
    | split
    | (intro e; first | rfl | (simp; done) | (split <;> simp))
    | with_reducible apply Calm.inner

theorem Ctl.judgeHeads_calm {w : Bool} {c₀ c : Ctl} (h : Calm w c₀ c) (k : Env) (n : Nat) :
    Calm w c₀ (c.judgeHeads k n) := by
  induction n generalizing c with
  | zero => exact h
  | succ n ih =>
    unfold Ctl.judgeHeads
    split
    · exact h
    · split
      · exact ih (Ctl.leaveTable_calm h _ _ _)
      · exact h

theorem Ctl.judge_calm {w : Bool} {c₀ c : Ctl} (hc₀ : Calm w c₀ c) (k : Env) :
    Calm w c₀ (c.judge k) := by
  unfold Ctl.judge
  try simp only []
  repeat' first
    | with_reducible assumption
    | with_reducible apply Ctl.judgeHeads_calm
    | split
    | (intro e; first | rfl | (simp; done) | (split <;> simp))
    | with_reducible apply Calm.inner

theorem Ctl.catchUpDamaged_calm {w : Bool} {c₀ c : Ctl} (hc₀ : Calm w c₀ c) (k : Env) (seq : Word) (t : Station) :
    Calm w c₀ (c.catchUpDamaged k seq t) := by
  unfold Ctl.catchUpDamaged
  try simp only []
  repeat' first
    | with_reducible assumption
    | with_reducible apply Ctl.onPageEntries_calm
    | split
    | (intro e; first | rfl | (simp; done) | (split <;> simp))
    | with_reducible apply Calm.inner

theorem Ctl.requestCatchUp_calm {w : Bool} {c₀ c : Ctl} (hc₀ : Calm w c₀ c) (k : Env) (seq : Word) (t : Station) :
    Calm w c₀ (c.requestCatchUp k seq t) := by
  unfold Ctl.requestCatchUp
  try simp only []
  repeat' first
    | with_reducible assumption
    | exact Ctl.startJob_calm (by assumption) (by assumption)
    | with_reducible apply Ctl.catchUpDamaged_calm
    | split
    | (intro e; first | rfl | (simp; done) | (split <;> simp))
    | with_reducible apply Calm.inner

theorem Ctl.setSourceless_calm {w : Bool} {c₀ c : Ctl} (hc₀ : Calm w c₀ c) (seq : Word) (t : Station) (st : RecState) :
    Calm w c₀ (c.setSourceless seq t st) := by
  unfold Ctl.setSourceless
  try simp only []
  repeat' first
    | with_reducible assumption
    | with_reducible apply Ctl.onPageEntries_calm
    | split
    | (intro e; first | rfl | (simp; done) | (split <;> simp))
    | with_reducible apply Calm.inner

theorem Ctl.bringUp_calm {w : Bool} {c₀ c : Ctl} (hc₀ : Calm w c₀ c) (k : Env) (seq : Word) (t : Station) :
    Calm w c₀ (c.bringUp k seq t) := by
  unfold Ctl.bringUp
  try simp only []
  repeat' first
    | with_reducible assumption
    | with_reducible apply Ctl.setSourceless_calm
    | with_reducible apply Ctl.requestCatchUp_calm
    | with_reducible apply Ctl.transmit_calm
    | (refine Calm.foldl _ (fun c x hc => ?_) ?_ <;> try simp only [])
    | split
    | (intro e; first | rfl | (simp; done) | (split <;> simp))
    | with_reducible apply Calm.inner

theorem Ctl.addSubstitutes_calm {w : Bool} {c₀ c : Ctl} (h : Calm w c₀ c) (k : Env) (seq : Word) (n : Nat) :
    Calm w c₀ (c.addSubstitutes k seq n) := by
  induction n generalizing c with
  | zero => exact h
  | succ n ih =>
    unfold Ctl.addSubstitutes
    split
    · exact h
    · split
      · exact h
      · exact ih (Ctl.update_calm h _ _ _ (fun e => rfl))

theorem Ctl.addExtraTarget_calm {w : Bool} {c₀ c : Ctl} (hc₀ : Calm w c₀ c) (k : Env) (seq : Word) :
    Calm w c₀ (c.addExtraTarget k seq) := by
  unfold Ctl.addExtraTarget
  try simp only []
  repeat' first
    | with_reducible assumption
    | with_reducible apply Ctl.update_calm
    | split
    | (intro e; first | rfl | (simp; done) | (split <;> simp))
    | with_reducible apply Calm.inner

theorem Ctl.placeTarget_calm {w : Bool} {c₀ c : Ctl} (hc₀ : Calm w c₀ c) (seq : Word) (extra : Bool) (t : Station) :
    Calm w c₀ (c.placeTarget seq extra t) := by
  unfold Ctl.placeTarget
  try simp only []
  repeat' first
    | with_reducible assumption
    | with_reducible apply Ctl.onPageEntries_calm
    | split
    | (intro e; first | rfl | (simp; done) | (split <;> simp))
    | with_reducible apply Calm.inner

theorem Ctl.placeAndBringUp_calm {w : Bool} {c₀ c : Ctl} (hc₀ : Calm w c₀ c) (k : Env) (seq : Word) (extra : Bool) (t : Station) :
    Calm w c₀ (c.placeAndBringUp k seq extra t) := by
  unfold Ctl.placeAndBringUp
  try simp only []
  repeat' first
    | with_reducible assumption
    | with_reducible apply Ctl.placeTarget_calm
    | with_reducible apply Ctl.bringUp_calm
    | split
    | (intro e; first | rfl | (simp; done) | (split <;> simp))
    | with_reducible apply Calm.inner

theorem Ctl.fillPlaces_calm {w : Bool} {c₀ c : Ctl} (hc₀ : Calm w c₀ c) (k : Env) (seq : Word) (retry : Bool) :
    Calm w c₀ (c.fillPlaces k seq retry) := by
  unfold Ctl.fillPlaces
  try simp only []
  repeat' first
    | with_reducible assumption
    | with_reducible apply Ctl.addSubstitutes_calm
    | with_reducible apply Ctl.addExtraTarget_calm
    | with_reducible apply Ctl.placeAndBringUp_calm
    | (refine Calm.foldl _ (fun c x hc => ?_) ?_ <;> try simp only [])
    | split
    | (intro e; first | rfl | (simp; done) | (split <;> simp))
    | with_reducible apply Calm.inner

theorem Ctl.testDurable_calm {w : Bool} {c₀ c : Ctl} (hc₀ : Calm w c₀ c) (k : Env) (seq : Word) :
    Calm w c₀ (c.testDurable k seq) := by
  unfold Ctl.testDurable
  try simp only []
  repeat' first
    | with_reducible assumption
    | with_reducible apply Ctl.onPageEntries_calm
    | with_reducible apply Ctl.narrowSettled_calm
    | with_reducible apply Ctl.pruneOwed_calm
    | with_reducible apply Ctl.fillPlaces_calm
    | with_reducible apply Ctl.resumeTimers_calm
    | with_reducible apply Ctl.judge_calm
    | (refine Calm.foldl _ (fun c x hc => ?_) ?_ <;> try simp only [])
    | split
    | (intro e; first | rfl | (simp; done) | (split <;> simp))
    | with_reducible apply Calm.inner

theorem Ctl.loseTarget_calm {w : Bool} {c₀ c : Ctl} (hc₀ : Calm w c₀ c) (k : Env) (seq : Word) (t : Station) :
    Calm w c₀ (c.loseTarget k seq t) := by
  unfold Ctl.loseTarget
  try simp only []
  repeat' first
    | with_reducible assumption
    | with_reducible apply Ctl.onPageEntries_calm
    | with_reducible apply Ctl.update_calm
    | with_reducible apply Ctl.onTx_calm
    | with_reducible apply Ctl.cancelJobs_calm
    | with_reducible apply Ctl.pruneOwed_calm
    | with_reducible apply Ctl.fillPlaces_calm
    | with_reducible apply Ctl.resumeTimers_calm
    | split
    | (intro ht; first
        | exact ht
        | exact txOk_withdraw _ _ ht
        | exact txOk_narrow _ _ _ ht
        | exact txOk_answer _ _ ht
        | exact txOk_presence _ _ ht
        | exact txOk_widen _ _ _ _ ht
        | exact txOk_request _ _ rfl ht
        | exact txOk_filter _ _ none _ _ ht.2.2.2 ht
        | exact txOk_map _ _ (fun e => by split <;> rfl) none _ _ ht.2.2.2 ht)
    | (intro e; first | rfl | (simp; done) | (split <;> simp))
    | with_reducible apply Calm.inner

theorem Ctl.addExtent_calm {w : Bool} {c₀ c : Ctl} (hc₀ : Calm w c₀ c) (k : Env) (b : Fin 2) (p : FillPage) (noFit : Bool) (entry : Option LocalProg) :
    Calm w c₀ (c.addExtent k b p noFit entry) := by
  unfold Ctl.addExtent
  try simp only []
  repeat' first
    | with_reducible assumption
    | with_reducible apply Ctl.setFill_calm
    | with_reducible apply Ctl.update_calm
    | split
    | (intro e; first | rfl | (simp; done) | (split <;> simp))
    | with_reducible apply Calm.inner

theorem Ctl.transmitNew_calm {w : Bool} {c₀ c : Ctl} (hc₀ : Calm w c₀ c) (k : Env) (seq : Word) (ext : Nat) :
    Calm w c₀ (c.transmitNew k seq ext) := by
  unfold Ctl.transmitNew
  try simp only []
  repeat' first
    | with_reducible assumption
    | with_reducible apply Ctl.transmit_calm
    | split
    | (intro e; first | rfl | (simp; done) | (split <;> simp))
    | with_reducible apply Calm.inner

theorem Ctl.answerFlush_calm {w : Bool} {c₀ c : Ctl} (hc₀ : Calm w c₀ c) (seq : Word) :
    Calm w c₀ (c.answerFlush seq) := by
  unfold Ctl.answerFlush
  repeat' first
    | exact hc₀
    | (refine Calm.endAct hc₀ _ ?_; simp only [*]; rfl)
    | split

theorem Ctl.failAppend_calm {w : Bool} {c₀ c : Ctl} (hc₀ : Calm w c₀ c) (b : Fin 2) :
    Calm w c₀ (c.failAppend b) := by
  unfold Ctl.failAppend
  repeat' first
    | exact hc₀
    | (refine Calm.endAct (Ctl.setFill_calm hc₀ _ _) _ ?_; simp only [Ctl.setFill, *]; rfl)
    | split

theorem Ctl.closeFailed_calm {w : Bool} {c₀ c : Ctl} (hc₀ : Calm w c₀ c) (k : Env) (seq : Word) (b : Fin 2) :
    Calm w c₀ (c.closeFailed k seq b) := by
  unfold Ctl.closeFailed
  try simp only []
  repeat' first
    | with_reducible assumption
    | with_reducible apply Ctl.failAppend_calm
    | with_reducible apply Ctl.addExtent_calm
    | with_reducible apply Ctl.transmitNew_calm
    | with_reducible apply Ctl.setFill_calm
    | with_reducible apply Ctl.hand_calm
    | with_reducible apply Ctl.update_calm
    | split
    | (intro e; first | rfl | (simp; done) | (split <;> simp))
    | with_reducible apply Calm.inner

theorem Ctl.loseSource_calm {w : Bool} {c₀ c : Ctl} (hc₀ : Calm w c₀ c) (k : Env) (seq : Word) :
    Calm w c₀ (c.loseSource k seq) := by
  unfold Ctl.loseSource
  exact Ctl.onPageEntries_calm hc₀ _ _

theorem Ctl.ownRefused_calm {w : Bool} {c₀ c : Ctl} (hc₀ : Calm w c₀ c) (k : Env) (seq : Word) (sayDropped : Bool) :
    Calm w c₀ (c.ownRefused k seq sayDropped) := by
  unfold Ctl.ownRefused
  try simp only []
  repeat' first
    | with_reducible assumption
    | with_reducible apply Ctl.loseSource_calm
    | with_reducible apply Ctl.update_calm
    | with_reducible apply Ctl.killPages_calm
    | with_reducible apply Ctl.onPageEntries_calm
    | with_reducible apply Ctl.answer_calm
    | with_reducible apply Ctl.answerFlush_calm
    | with_reducible apply Ctl.setFill_calm
    | with_reducible apply Ctl.closeFailed_calm
    | with_reducible apply Ctl.fillPlaces_calm
    | with_reducible apply Ctl.judge_calm
    | with_reducible apply Ctl.dropTargets_calm
    | split
    | (intro e; first | rfl | (simp; done) | (split <;> simp))
    | with_reducible apply Calm.inner

theorem Ctl.ownRelocate_calm {w : Bool} {c₀ c : Ctl} (hc₀ : Calm w c₀ c) (k : Env) (seq : Word) (sayDropped : Bool) :
    Calm w c₀ (c.ownRelocate k seq sayDropped) := by
  unfold Ctl.ownRelocate
  try simp only []
  repeat' first
    | with_reducible assumption
    | exact Ctl.allocate_calm (by assumption) (by assumption)
    | with_reducible apply Ctl.ownRefused_calm
    | with_reducible apply Ctl.update_calm
    | with_reducible apply Ctl.setFill_calm
    | with_reducible apply Ctl.enter_calm
    | split
    | (intro e; first | rfl | (simp; done) | (split <;> simp))
    | with_reducible apply Calm.inner

theorem Ctl.requestProgram_calm {w : Bool} {c₀ c : Ctl} (hc₀ : Calm w c₀ c) (k : Env) (seq : Word) :
    Calm w c₀ (c.requestProgram k seq) := by
  unfold Ctl.requestProgram
  try simp only []
  repeat' first
    | with_reducible assumption
    | with_reducible apply Ctl.ownRelocate_calm
    | with_reducible apply Ctl.update_calm
    | with_reducible apply Ctl.enter_calm
    | split
    | (intro e; first | rfl | (simp; done) | (split <;> simp))
    | with_reducible apply Calm.inner

theorem Ctl.formExtent_calm {w : Bool} {c₀ c : Ctl} (hc₀ : Calm w c₀ c) (k : Env) (b : Fin 2) (p : FillPage) (noFit : Bool) :
    Calm w c₀ (c.formExtent k b p noFit) := by
  unfold Ctl.formExtent
  try simp only []
  repeat' first
    | with_reducible assumption
    | with_reducible apply Ctl.addExtent_calm
    | with_reducible apply Ctl.requestProgram_calm
    | with_reducible apply Ctl.transmitNew_calm
    | split
    | (intro e; first | rfl | (simp; done) | (split <;> simp))
    | with_reducible apply Calm.inner

theorem Ctl.formEmergency_calm {w : Bool} {c₀ c : Ctl} (hc₀ : Calm w c₀ c) (k : Env) (b : Fin 2) (p : FillPage) :
    Calm w c₀ (c.formEmergency k b p) := by
  unfold Ctl.formEmergency
  try simp only []
  repeat' first
    | with_reducible assumption
    | with_reducible apply Ctl.formExtent_calm
    | with_reducible apply Ctl.addExtent_calm
    | with_reducible apply Ctl.requestProgram_calm
    | with_reducible apply Ctl.dropTargets_calm
    | split
    | (intro e; first | rfl | (simp; done) | (split <;> simp))
    | with_reducible apply Calm.inner

theorem Ctl.markProgrammed_calm {w : Bool} {c₀ c : Ctl} (hc₀ : Calm w c₀ c) (seq : Word) (n : Nat) :
    Calm w c₀ (c.markProgrammed seq n) := by
  unfold Ctl.markProgrammed
  try simp only []
  repeat' first
    | with_reducible assumption
    | with_reducible apply Ctl.onPageEntries_calm
    | split
    | (intro e; first | rfl | (simp; done) | (split <;> simp))
    | with_reducible apply Calm.inner

theorem Ctl.bringUpAll_calm {w : Bool} {c₀ c : Ctl} (hc₀ : Calm w c₀ c) (k : Env) (seq : Word) :
    Calm w c₀ (c.bringUpAll k seq) := by
  unfold Ctl.bringUpAll
  try simp only []
  repeat' first
    | with_reducible assumption
    | with_reducible apply Ctl.bringUp_calm
    | with_reducible apply Ctl.requestCatchUp_calm
    | (refine Calm.foldl _ (fun c x hc => ?_) ?_ <;> try simp only [])
    | split
    | (intro e; first | rfl | (simp; done) | (split <;> simp))
    | with_reducible apply Calm.inner

theorem Ctl.ownPassed_calm {w : Bool} {c₀ c : Ctl} (hc₀ : Calm w c₀ c) (k : Env) (e : Entry) (moved : Bool) (n endSlot : Nat) :
    Calm w c₀ (c.ownPassed k e moved n endSlot) := by
  unfold Ctl.ownPassed
  try simp only []
  repeat' first
    | with_reducible assumption
    | with_reducible apply Ctl.update_calm
    | with_reducible apply Ctl.killPages_calm
    | with_reducible apply Ctl.markProgrammed_calm
    | with_reducible apply Ctl.answerFlush_calm
    | with_reducible apply Ctl.testDurable_calm
    | with_reducible apply Ctl.requestProgram_calm
    | with_reducible apply Ctl.bringUpAll_calm
    | split
    | (intro e; first | rfl | (simp; done) | (split <;> simp))
    | with_reducible apply Calm.inner

theorem Ctl.ownProgramEnd_calm {w : Bool} {c₀ c : Ctl} (hc₀ : Calm w c₀ c) (k : Env) (seq : Word) (moved : Bool) (n : Nat) (p : ProgramReq) (out : ProgramOut) :
    Calm w c₀ (c.ownProgramEnd k seq moved n p out) := by
  unfold Ctl.ownProgramEnd
  try simp only []
  repeat' first
    | with_reducible assumption
    | with_reducible apply Ctl.retire_calm
    | with_reducible apply Ctl.ownPassed_calm
    | with_reducible apply Ctl.update_calm
    | with_reducible apply Ctl.killPages_calm
    | with_reducible apply Ctl.ownRelocate_calm
    | split
    | (intro e; first | rfl | (simp; done) | (split <;> simp))
    | with_reducible apply Calm.inner

theorem Ctl.ownDropNotice_calm {w : Bool} {c₀ c : Ctl} (hc₀ : Calm w c₀ c) (k : Env) (seq : Word) :
    Calm w c₀ (c.ownDropNotice k seq) := by
  unfold Ctl.ownDropNotice
  try simp only []
  repeat' first
    | with_reducible assumption
    | with_reducible apply Ctl.ownRelocate_calm
    | with_reducible apply Ctl.onPageEntries_calm
    | with_reducible apply Ctl.pruneOwed_calm
    | with_reducible apply Ctl.fillPlaces_calm
    | split
    | (intro e; first | rfl | (simp; done) | (split <;> simp))
    | with_reducible apply Calm.inner

theorem Ctl.recordsDone_calm {w : Bool} {c₀ c : Ctl} (hc₀ : Calm w c₀ c) (seq : Word) (t : Station) (n : Nat) :
    Calm w c₀ (c.recordsDone seq t n) := by
  unfold Ctl.recordsDone
  try simp only []
  repeat' first
    | with_reducible assumption
    | with_reducible apply Ctl.onPageEntries_calm
    | with_reducible apply Ctl.onTx_calm
    | with_reducible apply Ctl.pruneOwed_calm
    | with_reducible apply Ctl.resumeTimers_calm
    | split
    | (intro ht; first
        | exact ht
        | exact txOk_withdraw _ _ ht
        | exact txOk_narrow _ _ _ ht
        | exact txOk_answer _ _ ht
        | exact txOk_presence _ _ ht
        | exact txOk_widen _ _ _ _ ht
        | exact txOk_request _ _ rfl ht
        | exact txOk_filter _ _ none _ _ ht.2.2.2 ht
        | exact txOk_map _ _ (fun e => by split <;> rfl) none _ _ ht.2.2.2 ht)
    | (intro e; first | rfl | (simp; done) | (split <;> simp))
    | with_reducible apply Calm.inner

theorem Ctl.recordOwnDepth_calm {w : Bool} {c₀ c : Ctl} (h : Calm w c₀ c) (k : Env) (seq : Word) (f : Entry → Entry)
    (hf : ∀ e, (f e).id = e.id) : Calm w c₀ (c.recordOwnDepth k seq f) :=
  Ctl.testDurable_calm (Ctl.update_calm h _ _ _ hf) _ _

theorem Ctl.fillGap_calm {w : Bool} {c₀ c : Ctl} (hc₀ : Calm w c₀ c) (k : Env) (seq : Word) (t : Station) (m ext : Nat) :
    Calm w c₀ (c.fillGap k seq t m ext) := by
  unfold Ctl.fillGap
  try simp only []
  repeat' first
    | with_reducible assumption
    | with_reducible apply Ctl.loseTarget_calm
    | with_reducible apply Ctl.onPageEntries_calm
    | with_reducible apply Ctl.transmit_calm
    | with_reducible apply Ctl.onTx_calm
    | with_reducible apply Ctl.pruneOwed_calm
    | with_reducible apply Ctl.requestCatchUp_calm
    | (refine Calm.foldl _ (fun c x hc => ?_) ?_ <;> try simp only [])
    | split
    | (intro ht; first
        | exact ht
        | exact txOk_withdraw _ _ ht
        | exact txOk_narrow _ _ _ ht
        | exact txOk_answer _ _ ht
        | exact txOk_presence _ _ ht
        | exact txOk_widen _ _ _ _ ht
        | exact txOk_request _ _ rfl ht
        | exact txOk_filter _ _ none _ _ ht.2.2.2 ht
        | exact txOk_map _ _ (fun e => by split <;> rfl) none _ _ ht.2.2.2 ht)
    | (intro e; first | rfl | (simp; done) | (split <;> simp))
    | with_reducible apply Calm.inner

theorem Ctl.catchUpDone_calm {w : Bool} {c₀ c : Ctl} (hc₀ : Calm w c₀ c) (k : Env) (seq : Word) (t : Station) (n : Nat) :
    Calm w c₀ (c.catchUpDone k seq t n) := by
  unfold Ctl.catchUpDone
  try simp only []
  repeat' first
    | with_reducible assumption
    | with_reducible apply Ctl.recordsDone_calm
    | with_reducible apply Ctl.onPageEntries_calm
    | with_reducible apply Ctl.transmit_calm
    | with_reducible apply Ctl.testDurable_calm
    | (refine Calm.foldl _ (fun c x hc => ?_) ?_ <;> try simp only [])
    | split
    | (intro e; first | rfl | (simp; done) | (split <;> simp))
    | with_reducible apply Calm.inner

theorem Ctl.ownAnswer_calm {w : Bool} {c₀ c : Ctl} (hc₀ : Calm w c₀ c) (k : Env) (t : Station) (a : AnswerBody) (v : Verdict) (job : Bool) :
    Calm w c₀ (c.ownAnswer k t a v job) := by
  unfold Ctl.ownAnswer
  try simp only []
  repeat' first
    | with_reducible assumption
    | with_reducible apply Ctl.recordOwnDepth_calm
    | with_reducible apply Ctl.catchUpDone_calm
    | with_reducible apply Ctl.recordsDone_calm
    | with_reducible apply Ctl.testDurable_calm
    | with_reducible apply Ctl.fillGap_calm
    | with_reducible apply Ctl.loseTarget_calm
    | split
    | (intro e; first | rfl | (simp; done) | (split <;> simp))
    | with_reducible apply Calm.inner

theorem Ctl.retryPlacement_calm {w : Bool} {c₀ c : Ctl} (hc₀ : Calm w c₀ c) (k : Env) (emptyExcluded : Bool) :
    Calm w c₀ (c.retryPlacement k emptyExcluded) := by
  unfold Ctl.retryPlacement
  try simp only []
  repeat' first
    | with_reducible assumption
    | with_reducible apply Ctl.update_calm
    | with_reducible apply Ctl.fillPlaces_calm
    | (refine Calm.foldl _ (fun c x hc => ?_) ?_ <;> try simp only [])
    | split
    | (intro e; first | rfl | (simp; done) | (split <;> simp))
    | with_reducible apply Calm.inner

theorem Ctl.ownDeparture_calm {w : Bool} {c₀ c : Ctl} (hc₀ : Calm w c₀ c) (k : Env) (t : Station) :
    Calm w c₀ (c.ownDeparture k t) := by
  unfold Ctl.ownDeparture
  try simp only []
  repeat' first
    | with_reducible assumption
    | with_reducible apply Ctl.recordOwnDepth_calm
    | with_reducible apply Ctl.loseTarget_calm
    | (refine Calm.foldl _ (fun c x hc => ?_) ?_ <;> try simp only [])
    | split
    | (intro e; first | rfl | (simp; done) | (split <;> simp))
    | with_reducible apply Calm.inner

theorem Ctl.extentSent_calm {w : Bool} {c₀ c : Ctl} (hc₀ : Calm w c₀ c) (seq : Word) (ext : Nat) :
    Calm w c₀ (c.extentSent seq ext) := by
  unfold Ctl.extentSent
  try simp only []
  repeat' first
    | with_reducible assumption
    | with_reducible apply Ctl.onPageEntries_calm
    | split
    | (intro e; first | rfl | (simp; done) | (split <;> simp))
    | with_reducible apply Calm.inner

theorem Ctl.settleReleased_calm {w : Bool} {c₀ c : Ctl} (hc₀ : Calm w c₀ c) (m : Word) :
    Calm w c₀ (c.settleReleased m) := by
  unfold Ctl.settleReleased
  try simp only []
  repeat' first
    | with_reducible assumption
    | split
    | (intro e; first | rfl | (simp; done) | (split <;> simp))
    | with_reducible apply Calm.inner

theorem Ctl.ownRelease_calm {c₀ c : Ctl} (hc₀ : Calm true c₀ c) (k : Env) (m : Word) :
    Calm true c₀ (c.ownRelease k m) := by
  unfold Ctl.ownRelease
  have h0 : Calm true c₀ { c with ownMark := m } := by
    with_reducible apply Calm.outer
    assumption
  have h1 := Calm.foldl (f := Ctl.remove) ((c.dir.filter (fun e => decide (e.id.origin = k.me) && decide (e.id.seq ≤ m))).map
    (·.id)) (fun _ _ hc => Ctl.remove_calm hc _) h0
  with_reducible apply Ctl.judge_calm
  with_reducible refine Ctl.onTx_calm ?_ _ (fun ht => txOk_withdraw _ _ ht)
  with_reducible apply Ctl.cancelJobs_calm
  with_reducible apply Ctl.settleReleased_calm
  exact h1

theorem Ctl.sweepFill_calm {w : Bool} {c₀ c : Ctl} (hc₀ : Calm w c₀ c) (k : Env) :
    Calm w c₀ (c.sweepFill k) := by
  unfold Ctl.sweepFill
  try simp only []
  repeat' first
    | with_reducible assumption
    | with_reducible apply Ctl.setFill_calm
    | split
    | (intro e; first | rfl | (simp; done) | (split <;> simp))
    | with_reducible apply Calm.inner

theorem Ctl.sweepReadBack_calm {w : Bool} {c₀ c : Ctl} (hc₀ : Calm w c₀ c) (k : Env) :
    Calm w c₀ (c.sweepReadBack k) := by
  unfold Ctl.sweepReadBack
  try simp only []
  repeat' first
    | with_reducible assumption
    | with_reducible apply Ctl.startReadBack_calm
    | split
    | (intro e; first | rfl | (simp; done) | (split <;> simp))
    | with_reducible apply Calm.inner

theorem Ctl.sweep_calm {w : Bool} {c₀ c : Ctl} (hc₀ : Calm w c₀ c) (k : Env) :
    Calm w c₀ (c.sweep k) := by
  unfold Ctl.sweep
  try simp only []
  repeat' first
    | with_reducible assumption
    | with_reducible apply Ctl.sweepReadBack_calm
    | with_reducible apply Ctl.sweepFill_calm
    | split
    | (intro e; first | rfl | (simp; done) | (split <;> simp))
    | with_reducible apply Calm.inner

theorem Ctl.sweepOwed_calm {w : Bool} {c₀ c : Ctl} (hc₀ : Calm w c₀ c) (k : Env) : Calm w c₀ (c.sweepOwed k) := by
  unfold Ctl.sweepOwed
  split
  · exact hc₀
  · exact Ctl.requestOwed_calm hc₀ k

theorem Ctl.sweepAll_calm {w : Bool} {c₀ c : Ctl} (hc₀ : Calm w c₀ c) (k : Env) : Calm w c₀ (c.sweepAll k) :=
  Ctl.sweep_calm (Ctl.sweepOwed_calm hc₀ k) k

end Sys2Proof.Machine
end

