-- ==== Sys2Proof/Laws/CalmIntake.lean ====
section
/-!
SUPPORT. The events of Intake, Repair: each is `Calm`.
-/

set_option linter.unreachableTactic false
set_option linter.unusedTactic false

namespace Sys2Proof.Machine

theorem Ctl.setRx_calm {w : Bool} {c₀ c : Ctl} (hc₀ : Calm w c₀ c) (b : Fin 4) (x : RxBuf) :
    Calm w c₀ (c.setRx b x) := by
  unfold Ctl.setRx
  try simp only []
  repeat' first
    | with_reducible assumption
    | split
    | (intro e; first | rfl | (simp; done) | (split <;> simp))
    | with_reducible apply Calm.inner

theorem Ctl.rxPhase_calm {w : Bool} {c₀ c : Ctl} (hc₀ : Calm w c₀ c) (b : Fin 4) (p : RxPhase) :
    Calm w c₀ (c.rxPhase b p) := by
  unfold Ctl.rxPhase
  try simp only []
  repeat' first
    | with_reducible assumption
    | with_reducible apply Ctl.setRx_calm
    | split
    | (intro e; first | rfl | (simp; done) | (split <;> simp))
    | with_reducible apply Calm.inner

theorem Ctl.intakeAnswer_calm {w : Bool} {c₀ c : Ctl} (hc₀ : Calm w c₀ c) (h : RxHeld) (id : PageId) (v : Verdict) (aux : Nat) :
    Calm w c₀ (c.intakeAnswer h id v aux) := by
  unfold Ctl.intakeAnswer
  try simp only []
  repeat' first
    | with_reducible assumption
    | with_reducible apply Ctl.answer_calm
    | split
    | (intro e; first | rfl | (simp; done) | (split <;> simp))
    | with_reducible apply Calm.inner

theorem Ctl.answerAndFree_calm {w : Bool} {c₀ c : Ctl} (hc₀ : Calm w c₀ c) (b : Fin 4) (h : RxHeld) (id : PageId) (v : Verdict) (aux : Nat) :
    Calm w c₀ (c.answerAndFree b h id v aux) := by
  unfold Ctl.answerAndFree
  try simp only []
  repeat' first
    | with_reducible assumption
    | with_reducible apply Ctl.intakeAnswer_calm
    | with_reducible apply Ctl.setRx_calm
    | split
    | (intro e; first | rfl | (simp; done) | (split <;> simp))
    | with_reducible apply Calm.inner

theorem Ctl.recordFrom_calm {w : Bool} {c₀ c : Ctl} (h : Calm w c₀ c) (k : Env) (id : PageId) (f : Entry → Entry)
    (hf : ∀ e, (f e).id = e.id) : Calm w c₀ (c.recordFrom k id f) := by
  unfold Ctl.recordFrom
  simp only []
  split
  · exact Ctl.sweepAll_calm (Ctl.testDurable_calm (Ctl.update_calm h _ _ _ hf) _ _) _
  · exact Ctl.update_calm h _ _ _ hf

theorem Ctl.programFrame_calm {w : Bool} {c₀ c : Ctl} (hc₀ : Calm w c₀ c) (k : Env) (b : Fin 4) (h : RxHeld) (id : PageId) (a : PageAddr) (m : Nat) :
    Calm w c₀ (c.programFrame k b h id a m) := by
  unfold Ctl.programFrame
  try simp only []
  repeat' first
    | with_reducible assumption
    | with_reducible apply Ctl.enter_calm
    | with_reducible apply Ctl.rxPhase_calm
    | split
    | (intro e; first | rfl | (simp; done) | (split <;> simp))
    | with_reducible apply Calm.inner

theorem Ctl.programReloc_calm {w : Bool} {c₀ c : Ctl} (hc₀ : Calm w c₀ c) (k : Env) (b : Fin 4) (h : RxHeld) (id : PageId) (a : PageAddr) (m : Nat) :
    Calm w c₀ (c.programReloc k b h id a m) := by
  unfold Ctl.programReloc
  try simp only []
  repeat' first
    | with_reducible assumption
    | with_reducible apply Ctl.enter_calm
    | with_reducible apply Ctl.take_calm
    | with_reducible apply Ctl.rxPhase_calm
    | split
    | (intro e; first | rfl | (simp; done) | (split <;> simp))
    | with_reducible apply Calm.inner

theorem Ctl.continueReloc_calm {w : Bool} {c₀ c : Ctl} (hc₀ : Calm w c₀ c) (k : Env) (b : Fin 4) (h : RxHeld) (id : PageId) (from_ : Option PageAddr) (to_ : PageAddr) (m : Nat) :
    Calm w c₀ (c.continueReloc k b h id from_ to_ m) := by
  unfold Ctl.continueReloc
  try simp only []
  repeat' first
    | with_reducible assumption
    | with_reducible apply Ctl.programReloc_calm
    | with_reducible apply Ctl.enter_calm
    | with_reducible apply Ctl.rxPhase_calm
    | split
    | (intro e; first | rfl | (simp; done) | (split <;> simp))
    | with_reducible apply Calm.inner

theorem Ctl.takeFirst_calm {w : Bool} {c₀ c : Ctl} (hc₀ : Calm w c₀ c) (k : Env) (b : Fin 4) (h : RxHeld) (id : PageId) :
    Calm w c₀ (c.takeFirst k b h id) := by
  unfold Ctl.takeFirst
  simp only []
  split
  · exact Ctl.answerAndFree_calm hc₀ _ _ _ _ _
  · rename_i a d heq
    have hd : Calm w c₀ d := by
      split at heq
      · exact Ctl.allocate_calm hc₀ heq
      · simp at heq
    refine Ctl.programFrame_calm ?_ _ _ _ _ _ _
    split
    · exact Ctl.recordFrom_calm hd _ _ _ (fun e => by simp)
    · exact Ctl.create_calm hd _ _

theorem Ctl.takeMore_calm {w : Bool} {c₀ c : Ctl} (hc₀ : Calm w c₀ c) (k : Env) (b : Fin 4) (h : RxHeld) (e : Entry) (a : PageAddr) :
    Calm w c₀ (c.takeMore k b h e a) := by
  unfold Ctl.takeMore
  try simp only []
  repeat' first
    | with_reducible assumption
    | exact Ctl.allocate_calm (by assumption) (by assumption)
    | with_reducible apply Ctl.answerAndFree_calm
    | with_reducible apply Ctl.recordFrom_calm
    | with_reducible apply Ctl.continueReloc_calm
    | with_reducible apply Ctl.programFrame_calm
    | split
    | (intro e; first | rfl | (simp; done) | (split <;> simp))
    | with_reducible apply Calm.inner

theorem Ctl.answerHeld_calm {w : Bool} {c₀ c : Ctl} (hc₀ : Calm w c₀ c) (k : Env) (b : Fin 4) (h : RxHeld) (e : Entry) :
    Calm w c₀ (c.answerHeld k b h e) := by
  unfold Ctl.answerHeld
  try simp only []
  repeat' first
    | with_reducible assumption
    | with_reducible apply Ctl.recordFrom_calm
    | with_reducible apply Ctl.answerAndFree_calm
    | split
    | (intro e; first | rfl | (simp; done) | (split <;> simp))
    | with_reducible apply Calm.inner

theorem Ctl.judgeEntry_calm {w : Bool} {c₀ c : Ctl} (hc₀ : Calm w c₀ c) (k : Env) (b : Fin 4) (h : RxHeld) (e : Entry) :
    Calm w c₀ (c.judgeEntry k b h e) := by
  unfold Ctl.judgeEntry
  try simp only []
  repeat' first
    | with_reducible assumption
    | with_reducible apply Ctl.takeFirst_calm
    | with_reducible apply Ctl.answerHeld_calm
    | with_reducible apply Ctl.recordFrom_calm
    | with_reducible apply Ctl.answerAndFree_calm
    | with_reducible apply Ctl.setRx_calm
    | with_reducible apply Ctl.takeMore_calm
    | split
    | (intro e; first | rfl | (simp; done) | (split <;> simp))
    | with_reducible apply Calm.inner

theorem Ctl.judgePending_calm {w : Bool} {c₀ c : Ctl} (hc₀ : Calm w c₀ c) (k : Env) (b : Fin 4) (h : RxHeld) (e : Entry) (p : Nat) :
    Calm w c₀ (c.judgePending k b h e p) := by
  unfold Ctl.judgePending
  try simp only []
  repeat' first
    | with_reducible assumption
    | with_reducible apply Ctl.answerHeld_calm
    | with_reducible apply Ctl.setRx_calm
    | with_reducible apply Ctl.rxPhase_calm
    | split
    | (intro e; first | rfl | (simp; done) | (split <;> simp))
    | with_reducible apply Calm.inner

theorem Ctl.judgeUnknown_calm {w : Bool} {c₀ c : Ctl} (hc₀ : Calm w c₀ c) (k : Env) (b : Fin 4) (h : RxHeld) (id : PageId) :
    Calm w c₀ (c.judgeUnknown k b h id) := by
  unfold Ctl.judgeUnknown
  try simp only []
  repeat' first
    | with_reducible assumption
    | with_reducible apply Ctl.answerAndFree_calm
    | with_reducible apply Ctl.setRx_calm
    | with_reducible apply Ctl.takeFirst_calm
    | split
    | (intro e; first | rfl | (simp; done) | (split <;> simp))
    | with_reducible apply Calm.inner

theorem Ctl.judgeFrame_calm {w : Bool} {c₀ c : Ctl} (hc₀ : Calm w c₀ c) (k : Env) (b : Fin 4) :
    Calm w c₀ (c.judgeFrame k b) := by
  unfold Ctl.judgeFrame
  try simp only []
  repeat' first
    | with_reducible assumption
    | with_reducible apply Ctl.setRx_calm
    | with_reducible apply Ctl.judgeUnknown_calm
    | with_reducible apply Ctl.judgePending_calm
    | with_reducible apply Ctl.judgeEntry_calm
    | split
    | (intro e; first | rfl | (simp; done) | (split <;> simp))
    | with_reducible apply Calm.inner

theorem Ctl.rejudge_calm {w : Bool} {c₀ c : Ctl} (hc₀ : Calm w c₀ c) (k : Env) (id : PageId) :
    Calm w c₀ (c.rejudge k id) := by
  unfold Ctl.rejudge
  try simp only []
  repeat' first
    | with_reducible assumption
    | with_reducible apply Ctl.judgeFrame_calm
    | (refine Calm.foldl _ (fun c x hc => ?_) ?_ <;> try simp only [])
    | split
    | (intro e; first | rfl | (simp; done) | (split <;> simp))
    | with_reducible apply Calm.inner

theorem Ctl.rejudgeVanished_calm {w : Bool} {c₀ c : Ctl} (hc₀ : Calm w c₀ c) (k : Env) :
    Calm w c₀ (c.rejudgeVanished k) := by
  unfold Ctl.rejudgeVanished
  try simp only []
  repeat' first
    | with_reducible assumption
    | with_reducible apply Ctl.judgeFrame_calm
    | (refine Calm.foldl _ (fun c x hc => ?_) ?_ <;> try simp only [])
    | split
    | (intro e; first | rfl | (simp; done) | (split <;> simp))
    | with_reducible apply Calm.inner

theorem Ctl.framePassed_calm {w : Bool} {c₀ c : Ctl} (hc₀ : Calm w c₀ c) (k : Env) (b : Fin 4) (h : RxHeld) (e : Entry) (reloc : Bool) :
    Calm w c₀ (c.framePassed k b h e reloc) := by
  unfold Ctl.framePassed
  try simp only []
  repeat' first
    | with_reducible assumption
    | with_reducible apply Ctl.update_calm
    | with_reducible apply Ctl.killPages_calm
    | with_reducible apply Ctl.answerAndFree_calm
    | with_reducible apply Ctl.testDurable_calm
    | with_reducible apply Ctl.bringUpAll_calm
    | with_reducible apply Ctl.sweep_calm
    | with_reducible apply Ctl.sweepAll_calm
    | with_reducible apply Ctl.rejudge_calm
    | split
    | (intro e; first | rfl | (simp; done) | (split <;> simp))
    | with_reducible apply Calm.inner

theorem Ctl.dropCopy_calm {w : Bool} {c₀ c : Ctl} (hc₀ : Calm w c₀ c) (k : Env) (b : Fin 4) (h : RxHeld) (e : Entry) :
    Calm w c₀ (c.dropCopy k b h e) := by
  unfold Ctl.dropCopy
  try simp only []
  repeat' first
    | with_reducible assumption
    | with_reducible apply Ctl.update_calm
    | with_reducible apply Ctl.killPages_calm
    | with_reducible apply Ctl.remove_calm
    | with_reducible apply Ctl.answerAndFree_calm
    | with_reducible apply Ctl.cancelJobs_calm
    | with_reducible apply Ctl.ownDropNotice_calm
    | with_reducible apply Ctl.testDurable_calm
    | with_reducible apply Ctl.sweep_calm
    | with_reducible apply Ctl.sweepAll_calm
    | with_reducible apply Ctl.rejudge_calm
    | split
    | (intro e; first | rfl | (simp; done) | (split <;> simp))
    | with_reducible apply Calm.inner

theorem Ctl.relocateFrame_calm {w : Bool} {c₀ c : Ctl} (hc₀ : Calm w c₀ c) (k : Env) (b : Fin 4) (h : RxHeld) (e : Entry) :
    Calm w c₀ (c.relocateFrame k b h e) := by
  unfold Ctl.relocateFrame
  try simp only []
  repeat' first
    | with_reducible assumption
    | exact Ctl.allocate_calm (by assumption) (by assumption)
    | with_reducible apply Ctl.dropCopy_calm
    | with_reducible apply Ctl.update_calm
    | with_reducible apply Ctl.continueReloc_calm
    | split
    | (intro e; first | rfl | (simp; done) | (split <;> simp))
    | with_reducible apply Calm.inner

theorem Ctl.frameProgramEnd_calm {w : Bool} {c₀ c : Ctl} (hc₀ : Calm w c₀ c) (k : Env) (b : Fin 4) (reloc : Bool) (p : ProgramReq) (out : ProgramOut) :
    Calm w c₀ (c.frameProgramEnd k b reloc p out) := by
  unfold Ctl.frameProgramEnd
  try simp only []
  repeat' first
    | with_reducible assumption
    | with_reducible apply Ctl.retire_calm
    | with_reducible apply Ctl.judgeFrame_calm
    | with_reducible apply Ctl.framePassed_calm
    | with_reducible apply Ctl.update_calm
    | with_reducible apply Ctl.killPages_calm
    | with_reducible apply Ctl.relocateFrame_calm
    | split
    | (intro e; first | rfl | (simp; done) | (split <;> simp))
    | with_reducible apply Calm.inner

theorem Ctl.frameReadBackEnd_calm {w : Bool} {c₀ c : Ctl} (hc₀ : Calm w c₀ c) (k : Env) (b : Fin 4) (a : PageAddr) (r : Option PageRead) :
    Calm w c₀ (c.frameReadBackEnd k b a r) := by
  unfold Ctl.frameReadBackEnd
  try simp only []
  repeat' first
    | with_reducible assumption
    | with_reducible apply Ctl.dropCopy_calm
    | with_reducible apply Ctl.setRx_calm
    | with_reducible apply Ctl.programReloc_calm
    | with_reducible apply Ctl.judgeFrame_calm
    | split
    | (intro e; first | rfl | (simp; done) | (split <;> simp))
    | with_reducible apply Calm.inner

theorem Ctl.freeClaimed_calm {w : Bool} {c₀ c : Ctl} (hc₀ : Calm w c₀ c) :
    Calm w c₀ (c.freeClaimed) := by
  unfold Ctl.freeClaimed
  try simp only []
  repeat' first
    | with_reducible assumption
    | with_reducible apply Ctl.setRx_calm
    | split
    | (intro e; first | rfl | (simp; done) | (split <;> simp))
    | with_reducible apply Calm.inner

theorem Ctl.arriveData_calm {w : Bool} {c₀ c : Ctl} (hc₀ : Calm w c₀ c) (k : Env) (b : Fin 4) (src : Station) (f : DataFrame) :
    Calm w c₀ (c.arriveData k b src f) := by
  unfold Ctl.arriveData
  try simp only []
  repeat' first
    | with_reducible assumption
    | with_reducible apply Ctl.setRx_calm
    | with_reducible apply Ctl.judgeFrame_calm
    | split
    | (intro e; first | rfl | (simp; done) | (split <;> simp))
    | with_reducible apply Calm.inner

theorem Ctl.replicaRelease_calm {w : Bool} {c₀ c : Ctl} (hc₀ : Calm w c₀ c) (k : Env) (o : Station) (m : Word) :
    Calm w c₀ (c.replicaRelease k o m) := by
  unfold Ctl.replicaRelease
  try simp only []
  repeat' first
    | with_reducible assumption
    | with_reducible apply Ctl.remove_calm
    | with_reducible apply Ctl.cancelJobs_calm
    | with_reducible apply Ctl.rejudgeVanished_calm
    | (refine Calm.foldl _ (fun c x hc => ?_) ?_ <;> try simp only [])
    | split
    | (intro e; first | rfl | (simp; done) | (split <;> simp))
    | with_reducible apply Calm.inner

theorem Ctl.damage_calm {w : Bool} {c₀ c : Ctl} (hc₀ : Calm w c₀ c) (k : Env) (id : PageId) (a : PageAddr) :
    Calm w c₀ (c.damage k id a) := by
  unfold Ctl.damage
  try simp only []
  repeat' first
    | with_reducible assumption
    | with_reducible apply Ctl.update_calm
    | with_reducible apply Ctl.killPages_calm
    | with_reducible apply Ctl.answer_calm
    | with_reducible apply Ctl.hand_calm
    | with_reducible apply Ctl.ownDropNotice_calm
    | with_reducible apply Ctl.testDurable_calm
    | with_reducible apply Ctl.rejudge_calm
    | with_reducible apply Ctl.sweep_calm
    | with_reducible apply Ctl.sweepAll_calm
    | with_reducible apply Ctl.remove_calm
    | with_reducible apply Ctl.cancelJobs_calm
    | with_reducible apply Ctl.rejudgeVanished_calm
    | split
    | (intro e; first | rfl | (simp; done) | (split <;> simp))
    | with_reducible apply Calm.inner

theorem Ctl.jobDamaged_calm {w : Bool} {c₀ c : Ctl} (hc₀ : Calm w c₀ c) (k : Env) (slot : Fin 2) (j : Job) :
    Calm w c₀ (c.jobDamaged k slot j) := by
  unfold Ctl.jobDamaged
  try simp only []
  repeat' first
    | with_reducible assumption
    | with_reducible apply Ctl.setJob_calm
    | with_reducible apply Ctl.catchUpDamaged_calm
    | split
    | (intro e; first | rfl | (simp; done) | (split <;> simp))
    | with_reducible apply Calm.inner

theorem Ctl.jobMoved_calm {w : Bool} {c₀ c : Ctl} (hc₀ : Calm w c₀ c) (k : Env) (slot : Fin 2) (j : Job) :
    Calm w c₀ (c.jobMoved k slot j) := by
  unfold Ctl.jobMoved
  try simp only []
  repeat' first
    | with_reducible assumption
    | with_reducible apply Ctl.setJob_calm
    | with_reducible apply Ctl.enter_calm
    | with_reducible apply Ctl.jobDamaged_calm
    | split
    | (intro e; first | rfl | (simp; done) | (split <;> simp))
    | with_reducible apply Calm.inner

theorem Ctl.jobLoaded_calm {w : Bool} {c₀ c : Ctl} (hc₀ : Calm w c₀ c) (k : Env) (slot : Fin 2) (j : Job) (e : Entry) (r : PageRead) :
    Calm w c₀ (c.jobLoaded k slot j e r) := by
  unfold Ctl.jobLoaded
  try simp only []
  repeat' first
    | with_reducible assumption
    | with_reducible apply Ctl.setJob_calm
    | with_reducible apply Ctl.requestCopy_calm
    | split
    | (intro e; first | rfl | (simp; done) | (split <;> simp))
    | with_reducible apply Calm.inner

theorem Ctl.jobReadEnd_calm {w : Bool} {c₀ c : Ctl} (hc₀ : Calm w c₀ c) (k : Env) (slot : Fin 2) (a : PageAddr) (r : Option PageRead) :
    Calm w c₀ (c.jobReadEnd k slot a r) := by
  unfold Ctl.jobReadEnd
  try simp only []
  repeat' first
    | with_reducible assumption
    | with_reducible apply Ctl.setJob_calm
    | with_reducible apply Ctl.damage_calm
    | with_reducible apply Ctl.jobDamaged_calm
    | with_reducible apply Ctl.jobMoved_calm
    | with_reducible apply Ctl.jobLoaded_calm
    | split
    | (intro e; first | rfl | (simp; done) | (split <;> simp))
    | with_reducible apply Calm.inner

theorem Ctl.heardFull_calm {c₀ c : Ctl} (hc₀ : Calm true c₀ c) (t : Station) (v : Verdict) :
    Calm true c₀ (c.heardFull t v) := by
  unfold Ctl.heardFull
  try simp only []
  repeat' first
    | with_reducible assumption
    | split
    | (intro e; first | rfl | (simp; done) | (split <;> simp))
    | with_reducible apply Calm.outer

theorem Ctl.answerFor_calm {w : Bool} {c₀ c : Ctl} (hc₀ : Calm w c₀ c) (k : Env) (t : Station) (id : PageId) (a : AnswerBody) (v : Verdict) (catchUp : Bool) :
    Calm w c₀ (c.answerFor k t id a v catchUp) := by
  unfold Ctl.answerFor
  try simp only []
  repeat' first
    | with_reducible assumption
    | with_reducible apply Ctl.ownAnswer_calm
    | with_reducible apply Ctl.sweep_calm
    | with_reducible apply Ctl.sweepAll_calm
    | with_reducible apply Ctl.update_calm
    | split
    | (intro e; first | rfl | (simp; done) | (split <;> simp))
    | with_reducible apply Calm.inner

theorem Ctl.endMatched_calm {w : Bool} {c₀ c : Ctl} (hc₀ : Calm w c₀ c) (k : Env) (slot : Fin 2) (t : Station) (id : PageId) (a : AnswerBody) (v : Verdict) (matched : Bool) :
    Calm w c₀ (c.endMatched k slot t id a v matched) := by
  unfold Ctl.endMatched
  try simp only []
  repeat' first
    | with_reducible assumption
    | with_reducible apply Ctl.resumeCopies_calm
    | with_reducible apply Ctl.closeJob_calm
    | split
    | (intro e; first | rfl | (simp; done) | (split <;> simp))
    | with_reducible apply Calm.inner

theorem Ctl.takeVerdict_calm {w : Bool} {c₀ c : Ctl} (hc₀ : Calm w c₀ c) (k : Env) (t : Station) (id : PageId) (a : AnswerBody)
    (v : Verdict) : Calm w c₀ (c.takeVerdict k t id a v) := by
  unfold Ctl.takeVerdict
  exact Ctl.endMatched_calm (Ctl.endMatched_calm (Ctl.answerFor_calm hc₀ _ _ _ _ _ _) _ _ _ _ _ _ _) _ _ _ _ _ _ _

theorem Ctl.takeAnswer_calm {c₀ c : Ctl} (hc₀ : Calm true c₀ c) (k : Env) (t : Station) (a : AnswerBody) :
    Calm true c₀ (c.takeAnswer k t a) := by
  unfold Ctl.takeAnswer
  split
  · exact hc₀
  · split
    · exact Ctl.heardFull_calm hc₀ _ _
    · exact Ctl.takeVerdict_calm (Ctl.heardFull_calm hc₀ _ _) _ _ _ _ _

theorem Ctl.jobExpired_calm {w : Bool} {c₀ c : Ctl} (hc₀ : Calm w c₀ c) (k : Env) (slot : Fin 2) :
    Calm w c₀ (c.jobExpired k slot) := by
  unfold Ctl.jobExpired
  try simp only []
  repeat' first
    | with_reducible assumption
    | with_reducible apply Ctl.requestCopy_calm
    | with_reducible apply Ctl.setJob_calm
    | with_reducible apply Ctl.loseTarget_calm
    | with_reducible apply Ctl.sweep_calm
    | with_reducible apply Ctl.sweepAll_calm
    | split
    | (intro e; first | rfl | (simp; done) | (split <;> simp))
    | with_reducible apply Calm.inner

theorem Ctl.copySent_calm {w : Bool} {c₀ c : Ctl} (hc₀ : Calm w c₀ c) (slot : Fin 2) :
    Calm w c₀ (c.copySent slot) := by
  unfold Ctl.copySent
  try simp only []
  repeat' first
    | with_reducible assumption
    | with_reducible apply Ctl.setJob_calm
    | split
    | (intro e; first | rfl | (simp; done) | (split <;> simp))
    | with_reducible apply Calm.inner

theorem repairOk_head (t u : Task) (l : List Task) (h1 : u.isRecheck = t.isRecheck)
    (h2 : ∀ p, u.isDeparture p = t.isDeparture p) (h : repairOk (t :: l)) : repairOk (u :: l) := by
  have hc (p : Task → Bool) (hp : p u = p t) : countOf p (u :: l) = countOf p (t :: l) := by
    simp only [countOf, List.filter_cons, hp]
    split <;> rfl
  exact ⟨by rw [hc _ h1]; exact h.1, fun p => by rw [hc _ (h2 p)]; exact h.2 p⟩

theorem Ctl.onHead_calm {w : Bool} {c₀ c : Ctl} (hc₀ : Calm w c₀ c) (f : Task → Task)
    (h1 : ∀ t rest, c.repair = t :: rest → (f t).isRecheck = t.isRecheck)
    (h2 : ∀ t rest p, c.repair = t :: rest → (f t).isDeparture p = t.isDeparture p) : Calm w c₀ (c.onHead f) := by
  unfold Ctl.onHead
  split
  · exact hc₀
  · rename_i t rest ht
    exact hc₀.setRepair _ (fun hl => repairOk_head t _ _ (h1 t rest ht) (fun p => h2 t rest p ht) (ht ▸ hl))

theorem Ctl.appendDeparture_calm {w : Bool} {c₀ c : Ctl} (hc₀ : Calm w c₀ c) (p : Station) :
    Calm w c₀ (c.appendDeparture p) := by
  unfold Ctl.appendDeparture
  split
  · refine Ctl.onHead_calm hc₀ _ (fun t _ _ => ?_) (fun t _ q _ => ?_) <;> split <;> rfl
  · rename_i hn
    exact hc₀.setRepair _ (fun hl => repairOk_departure _ _ hl (by simpa using hn))

theorem repairOk_cons_filter (t : Task) (q : Task → Bool) (l : List Task) (h : repairOk (t :: l)) :
    repairOk (t :: l.filter q) := by
  have hc (p : Task → Bool) : countOf p (t :: l.filter q) ≤ countOf p (t :: l) := by
    have := countOf_filter_le p q l
    unfold countOf at this ⊢
    simp only [List.filter_cons]
    split
    · simp only [List.length_cons]
      omega
    · exact this
  exact ⟨le_trans (hc _) h.1, fun p => le_trans (hc _) (h.2 p)⟩

theorem Ctl.removeDeparture_calm {w : Bool} {c₀ c : Ctl} (hc₀ : Calm w c₀ c) (p : Station) :
    Calm w c₀ (c.removeDeparture p) := by
  unfold Ctl.removeDeparture
  split
  · exact hc₀
  · rename_i t rest ht
    split
    · exact Ctl.onHead_calm (hc₀.setRepair _ (fun hl => repairOk_tail (t :: rest) (ht ▸ hl))) _ (fun _ _ _ => rfl)
        (fun _ _ _ _ => rfl)
    · exact hc₀.setRepair _ (fun hl => repairOk_cons_filter _ _ _ (ht ▸ hl))

theorem Ctl.popTask_calm {w : Bool} {c₀ c : Ctl} (hc₀ : Calm w c₀ c) : Calm w c₀ c.popTask :=
  Ctl.onHead_calm (hc₀.setRepair _ (fun hl => repairOk_tail _ hl)) _ (fun _ _ _ => rfl) (fun _ _ _ _ => rfl)

theorem Ctl.repairDecision_calm {w : Bool} {c₀ c : Ctl} (h : Calm w c₀ c) (k : Env) (e : Entry) :
    Calm w c₀ (c.repairDecision k e).1 := by
  unfold Ctl.repairDecision
  repeat' first
    | exact h
    | exact Ctl.startJob_calm h (by assumption)
    | split

theorem Ctl.advanceHead_calm {w : Bool} {c₀ c : Ctl} (hc₀ : Calm w c₀ c) (e : Entry) (b : Bool) :
    Calm w c₀ (c.advanceHead e b) := by
  refine Ctl.onHead_calm hc₀ _ (fun t _ _ => ?_) (fun t _ q _ => ?_) <;> split <;> rfl

theorem Ctl.decideAt_calm {w : Bool} {c₀ c : Ctl} (hc₀ : Calm w c₀ c) (k : Env) (id : PageId) (e0 : Entry) :
    Calm w c₀ (c.decideAt k id e0) := by
  unfold Ctl.decideAt
  split
  · exact Ctl.advanceHead_calm hc₀ _ _
  · rename_i e he
    split
    · exact Ctl.advanceHead_calm (Ctl.repairDecision_calm hc₀ k e) _ _
    · exact Ctl.advanceHead_calm hc₀ _ _

theorem Ctl.departureStep_calm {w : Bool} {c₀ c : Ctl} (hc₀ : Calm w c₀ c) (k : Env) (t : Task) (p : Station) :
    Calm w c₀ (c.departureStep k t p) := by
  unfold Ctl.departureStep
  split
  · exact Ctl.popTask_calm hc₀
  · split
    · exact Ctl.advanceHead_calm hc₀ _ _
    · refine Ctl.decideAt_calm (Ctl.update_calm hc₀ _ _ _ ?_) _ _ _
      intro e
      rfl

/-- A RECHECK at the head changed into a RECHECK. -/
theorem Ctl.onHead_recheck_calm {w : Bool} {c₀ c : Ctl} (hc₀ : Calm w c₀ c) (f : Task → Task)
    (hr : ∀ t rest, c.repair = t :: rest → t.isRecheck = true) (hf : ∀ t, (f t).isRecheck = true) :
    Calm w c₀ (c.onHead f) := by
  have hd (t : Task) (p : Station) (h : t.isRecheck = true) : t.isDeparture p = false := by
    obtain ⟨kind, _, _⟩ := t
    cases kind
    · simp [Task.isRecheck] at h
    · rfl
  refine Ctl.onHead_calm hc₀ f (fun t rest ht => ?_) (fun t rest p ht => ?_)
  · rw [hf t, hr t rest ht]
  · rw [hd _ p (hf t), hd _ p (hr t rest ht)]

theorem Ctl.recheckStep_calm {w : Bool} {c₀ c : Ctl} (hc₀ : Calm w c₀ c) (k : Env) (t : Task) (again : Bool)
    (hr : ∀ t rest, c.repair = t :: rest → t.isRecheck = true) : Calm w c₀ (c.recheckStep k t again) := by
  unfold Ctl.recheckStep
  split
  · split
    · exact Ctl.onHead_recheck_calm hc₀ _ hr (fun _ => rfl)
    · exact Ctl.popTask_calm hc₀
  · exact Ctl.decideAt_calm (Ctl.onHead_recheck_calm hc₀ _ hr (fun _ => rfl)) _ _ _

theorem Ctl.walkStep_calm {w : Bool} {c₀ c : Ctl} (hc₀ : Calm w c₀ c) (k : Env) : Calm w c₀ (c.walkStep k) := by
  unfold Ctl.walkStep
  split
  · exact hc₀
  · rename_i t rest ht
    split
    · exact Ctl.departureStep_calm hc₀ _ _ _
    · rename_i b a hk
      refine Ctl.recheckStep_calm hc₀ _ _ _ (fun u l hu => ?_)
      rw [ht] at hu
      simp only [List.cons.injEq] at hu
      rw [← hu.1]
      simp [Task.isRecheck, hk]

theorem Ctl.grantSlot_calm {w : Bool} {c₀ c : Ctl} (hc₀ : Calm w c₀ c) (k : Env) : Calm w c₀ (c.grantSlot k) := by
  unfold Ctl.grantSlot
  split
  · exact hc₀
  · split
    · rename_i x rest hx
      have hd : Calm w c₀ { c with catchUps := rest } := hc₀.inner _ _ _ _ _ _ _ _ _ _ rest _
      simp only []
      split
      · exact Ctl.startJob_calm hd (by assumption)
      · exact Ctl.catchUpDamaged_calm hd _ _ _
    · split
      · split
        · refine Ctl.walkStep_calm (Ctl.onHead_calm hc₀ _ ?_ ?_) _ <;> intros <;> rfl
        · exact hc₀
      · exact hc₀

theorem Ctl.recheckExpired_calm {w : Bool} {c₀ c : Ctl} (hc₀ : Calm w c₀ c) :
    Calm w c₀ (c.recheckExpired) := by
  unfold Ctl.recheckExpired
  try simp only []
  repeat' first
    | with_reducible assumption
    | with_reducible apply Ctl.requestRecheck_calm
    | split
    | (intro e; first | rfl | (simp; done) | (split <;> simp))
    | with_reducible apply Calm.inner

theorem Ctl.formHoldings_calm {c₀ c : Ctl} (hc₀ : Calm true c₀ c) (k : Env) (s : Series) :
    Calm true c₀ (c.formHoldings k s) := by
  unfold Ctl.formHoldings
  try simp only []
  repeat' first
    | with_reducible assumption
    | with_reducible apply Ctl.onTx_calm
    | split
    | (intro ht; first
        | exact ht
        | exact txOk_withdraw _ _ ht
        | exact txOk_narrow _ _ _ ht
        | exact txOk_answer _ _ ht
        | exact txOk_presence _ _ ht
        | exact txOk_widen _ _ _ _ ht
        | exact txOk_request _ _ rfl ht
        | exact txOk_filter _ _ none _ _ ht.2.2.2 ht
        | exact txOk_map _ _ (fun e => by split <;> rfl) none _ _ ht.2.2.2 ht)
    | (intro e; first | rfl | (simp; done) | (split <;> simp))
    | with_reducible apply Calm.outer

theorem Ctl.startSeries_calm {c₀ c : Ctl} (hc₀ : Calm true c₀ c) (k : Env) :
    Calm true c₀ (c.startSeries k) := by
  unfold Ctl.startSeries
  try simp only []
  repeat' first
    | with_reducible assumption
    | with_reducible apply Ctl.formHoldings_calm
    | split
    | (intro e; first | rfl | (simp; done) | (split <;> simp))
    | with_reducible apply Calm.outer

theorem Ctl.actPending_calm {c₀ c : Ctl} (hc₀ : Calm true c₀ c) (k : Env) :
    Calm true c₀ (c.actPending k) := by
  unfold Ctl.actPending
  try simp only []
  repeat' first
    | with_reducible assumption
    | with_reducible apply Ctl.startSeries_calm
    | split
    | (intro e; first | rfl | (simp; done) | (split <;> simp))
    | with_reducible apply Calm.outer

theorem Ctl.holdingsSent_calm {c₀ c : Ctl} (hc₀ : Calm true c₀ c) (k : Env) :
    Calm true c₀ (c.holdingsSent k) := by
  unfold Ctl.holdingsSent
  try simp only []
  repeat' first
    | with_reducible assumption
    | with_reducible apply Ctl.actPending_calm
    | with_reducible apply Ctl.formHoldings_calm
    | split
    | (intro e; first | rfl | (simp; done) | (split <;> simp))
    | with_reducible apply Calm.outer

theorem Ctl.holdingsAsked_calm {c₀ c : Ctl} (hc₀ : Calm true c₀ c) (k : Env) :
    Calm true c₀ (c.holdingsAsked k) := by
  unfold Ctl.holdingsAsked
  try simp only []
  repeat' first
    | with_reducible assumption
    | with_reducible apply Ctl.startSeries_calm
    | split
    | (intro e; first | rfl | (simp; done) | (split <;> simp))
    | with_reducible apply Calm.outer

theorem Ctl.recordHoldings_calm {w : Bool} {c₀ c : Ctl} (hc₀ : Calm w c₀ c) (k : Env) (s : Station) (b : HoldingsBody) :
    Calm w c₀ (c.recordHoldings k s b) := by
  unfold Ctl.recordHoldings
  try simp only []
  repeat' first
    | with_reducible assumption
    | with_reducible apply Ctl.recordFrom_calm
    | (refine Calm.foldl _ (fun c x hc => ?_) ?_ <;> try simp only [])
    | split
    | (intro e; first | rfl | (simp; done) | (split <;> simp))
    | with_reducible apply Calm.inner

theorem Ctl.takeHoldings_calm {c₀ c : Ctl} (hc₀ : Calm true c₀ c) (k : Env) (s : Station) (b : HoldingsBody) :
    Calm true c₀ (c.takeHoldings k s b) := by
  unfold Ctl.takeHoldings
  try simp only []
  repeat' first
    | with_reducible assumption
    | with_reducible apply Ctl.recordHoldings_calm
    | split
    | (intro e; first | rfl | (simp; done) | (split <;> simp))
    | with_reducible apply Calm.outer

end Sys2Proof.Machine
end

