-- ==== Sys2Proof/Laws/CalmStation.lean ====
section
/-!
SUPPORT. The events of Membership, MarkLog, Mount, Array: each is `Calm`.
-/

set_option linter.unreachableTactic false
set_option linter.unusedTactic false

namespace Sys2Proof.Machine

theorem Ctl.enterFrozen_calm {c₀ c : Ctl} (hc₀ : Calm true c₀ c) :
    Calm true c₀ (c.enterFrozen) := by
  unfold Ctl.enterFrozen
  try simp only []
  repeat' first
    | with_reducible assumption
    | with_reducible apply Ctl.enterState_calm
    | with_reducible apply Ctl.hand_calm
    | split
    | (intro e; first | rfl | (simp; done) | (split <;> simp))
    | with_reducible apply Calm.outer

theorem Ctl.oweFrozen_calm {c₀ c : Ctl} (hc₀ : Calm true c₀ c) :
    Calm true c₀ (c.oweFrozen) := by
  unfold Ctl.oweFrozen
  try simp only []
  repeat' first
    | with_reducible assumption
    | with_reducible apply Ctl.enterFrozen_calm
    | split
    | (intro e; first | rfl | (simp; done) | (split <;> simp))
    | with_reducible apply Calm.outer

theorem Ctl.isolate_calm {c₀ c : Ctl} (hc₀ : Calm true c₀ c) :
    Calm true c₀ (c.isolate) := by
  unfold Ctl.isolate
  try simp only []
  repeat' first
    | with_reducible assumption
    | with_reducible apply Ctl.enterState_calm
    | with_reducible apply Ctl.hand_calm
    | split
    | (intro e; first | rfl | (simp; done) | (split <;> simp))
    | with_reducible apply Calm.outer

theorem Ctl.enterListening_calm {c₀ c : Ctl} (hc₀ : Calm true c₀ c) :
    Calm true c₀ (c.enterListening) := by
  unfold Ctl.enterListening
  try simp only []
  repeat' first
    | with_reducible assumption
    | with_reducible apply Ctl.enterState_calm
    | split
    | (intro e; first | rfl | (simp; done) | (split <;> simp))
    | with_reducible apply Calm.outer

theorem Ctl.onPeer_calm {c₀ c : Ctl} (hc₀ : Calm true c₀ c) (p : Station) (f : Peer → Peer) :
    Calm true c₀ (c.onPeer p f) := by
  unfold Ctl.onPeer
  try simp only []
  repeat' first
    | with_reducible assumption
    | split
    | (intro e; first | rfl | (simp; done) | (split <;> simp))
    | with_reducible apply Calm.outer

theorem Ctl.departure_calm {c₀ c : Ctl} (hc₀ : Calm true c₀ c) (k : Env) (p : Station) :
    Calm true c₀ (c.departure k p) := by
  unfold Ctl.departure
  try simp only []
  repeat' first
    | with_reducible assumption
    | with_reducible apply Ctl.ownDeparture_calm
    | with_reducible apply Ctl.sweep_calm
    | with_reducible apply Ctl.sweepAll_calm
    | with_reducible apply Ctl.cancelJobs_calm
    | with_reducible apply Ctl.appendDeparture_calm
    | with_reducible apply Ctl.onPeer_calm
    | with_reducible apply Ctl.hand_calm
    | split
    | (intro e; first | rfl | (simp; done) | (split <;> simp))
    | with_reducible apply Calm.outer

theorem Ctl.arrival_calm {c₀ c : Ctl} (hc₀ : Calm true c₀ c) (k : Env) (p : Station) :
    Calm true c₀ (c.arrival k p) := by
  unfold Ctl.arrival
  try simp only []
  repeat' first
    | with_reducible assumption
    | with_reducible apply Ctl.onPeer_calm
    | with_reducible apply Ctl.removeDeparture_calm
    | with_reducible apply Ctl.retryPlacement_calm
    | with_reducible apply Ctl.requestRecheck_calm
    | with_reducible apply Ctl.hand_calm
    | split
    | (intro e; first | rfl | (simp; done) | (split <;> simp))
    | with_reducible apply Calm.outer

theorem Ctl.give_calm {c₀ c : Ctl} (h : Calm true c₀ c) (k : Env) (p : Station) (n : Notice) :
    Calm true c₀ (c.give k p n) := by
  cases n
  · exact Ctl.arrival_calm h _ _
  · exact Ctl.departure_calm h _ _
  · exact Ctl.appendDeparture_calm h _
  · exact h

theorem Ctl.fullCleared_calm {w : Bool} {c₀ c : Ctl} (hc₀ : Calm w c₀ c) (k : Env) :
    Calm w c₀ (c.fullCleared k) := by
  unfold Ctl.fullCleared
  try simp only []
  repeat' first
    | with_reducible assumption
    | with_reducible apply Ctl.retryPlacement_calm
    | with_reducible apply Ctl.requestRecheck_calm
    | split
    | (intro e; first | rfl | (simp; done) | (split <;> simp))
    | with_reducible apply Calm.inner

theorem Ctl.takePresence_calm {c₀ c : Ctl} (hc₀ : Calm true c₀ c) (k : Env) (p : Station) (b : PresenceBody) :
    Calm true c₀ (c.takePresence k p b) := by
  unfold Ctl.takePresence
  try simp only []
  repeat' first
    | with_reducible assumption
    | with_reducible apply Ctl.onPeer_calm
    | with_reducible apply Ctl.replicaRelease_calm
    | with_reducible apply Ctl.give_calm
    | with_reducible apply Ctl.hand_calm
    | with_reducible apply Ctl.arrival_calm
    | with_reducible apply Ctl.fullCleared_calm
    | with_reducible apply Ctl.holdingsAsked_calm
    | split
    | (intro e; first | rfl | (simp; done) | (split <;> simp))
    | with_reducible apply Calm.outer

theorem Ctl.presenceTick_calm {c₀ c : Ctl} (hc₀ : Calm true c₀ c) (k : Env) :
    Calm true c₀ (c.presenceTick k) := by
  unfold Ctl.presenceTick
  try simp only []
  repeat' first
    | with_reducible assumption
    | with_reducible apply Ctl.requestPresence_calm
    | split
    | (intro e; first | rfl | (simp; done) | (split <;> simp))
    | with_reducible apply Calm.outer

theorem Ctl.missedThreshold_calm {c₀ c : Ctl} (hc₀ : Calm true c₀ c) (k : Env) (p : Station) :
    Calm true c₀ (c.missedThreshold k p) := by
  unfold Ctl.missedThreshold
  try simp only []
  repeat' first
    | with_reducible assumption
    | with_reducible apply Ctl.onPeer_calm
    | with_reducible apply Ctl.departure_calm
    | split
    | (intro e; first | rfl | (simp; done) | (split <;> simp))
    | with_reducible apply Calm.outer

theorem Ctl.clearAbsent_calm {w : Bool} {c₀ c : Ctl} (hc₀ : Calm w c₀ c) (k : Env) :
    Calm w c₀ (c.clearAbsent k) := by
  unfold Ctl.clearAbsent
  try simp only []
  repeat' first
    | with_reducible assumption
    | with_reducible apply Ctl.appendDeparture_calm
    | (refine Calm.foldl _ (fun c x hc => ?_) ?_ <;> try simp only [])
    | split
    | (intro e; first | rfl | (simp; done) | (split <;> simp))
    | with_reducible apply Calm.inner

theorem Ctl.windowEnd_calm {c₀ c : Ctl} (hc₀ : Calm true c₀ c) (k : Env) :
    Calm true c₀ (c.windowEnd k) := by
  unfold Ctl.windowEnd
  try simp only []
  repeat' first
    | with_reducible assumption
    | with_reducible apply Ctl.clearAbsent_calm
    | with_reducible apply Ctl.enterFrozen_calm
    | with_reducible apply Ctl.enterState_calm
    | with_reducible apply Ctl.actPending_calm
    | split
    | (intro e; first | rfl | (simp; done) | (split <;> simp))
    | with_reducible apply Calm.outer

theorem Ctl.onMark_calm {c₀ c : Ctl} (hc₀ : Calm true c₀ c) (f : MarkLog → MarkLog) :
    Calm true c₀ (c.onMark f) := by
  unfold Ctl.onMark
  try simp only []
  repeat' first
    | with_reducible assumption
    | split
    | (intro e; first | rfl | (simp; done) | (split <;> simp))
    | with_reducible apply Calm.outer

theorem Ctl.failMarkCauses_calm {c₀ c : Ctl} (hc₀ : Calm true c₀ c) :
    Calm true c₀ (c.failMarkCauses) := by
  unfold Ctl.failMarkCauses
  try simp only []
  repeat' first
    | with_reducible assumption
    | with_reducible apply Ctl.endCommand_calm
    | split
    | (intro e; first | rfl | (simp; done) | (split <;> simp))
    | with_reducible apply Calm.outer

theorem Ctl.markUnwritable_calm {c₀ c : Ctl} (hc₀ : Calm true c₀ c) :
    Calm true c₀ (c.markUnwritable) := by
  unfold Ctl.markUnwritable
  try simp only []
  repeat' first
    | with_reducible assumption
    | with_reducible apply Ctl.onMark_calm
    | with_reducible apply Ctl.failMarkCauses_calm
    | with_reducible apply Ctl.oweFrozen_calm
    | split
    | (intro e; first | rfl | (simp; done) | (split <;> simp))
    | with_reducible apply Calm.outer

theorem Ctl.writeMark_calm {c₀ c : Ctl} (hc₀ : Calm true c₀ c) (vals : MarkVals) (seq : Word) :
    Calm true c₀ (c.writeMark vals seq) := by
  unfold Ctl.writeMark
  try simp only []
  repeat' first
    | with_reducible assumption
    | with_reducible apply Ctl.onMark_calm
    | with_reducible apply Ctl.enter_calm
    | split
    | (intro e; first | rfl | (simp; done) | (split <;> simp))
    | with_reducible apply Calm.outer

theorem Ctl.beginWrite_calm {c₀ c : Ctl} (hc₀ : Calm true c₀ c) :
    Calm true c₀ (c.beginWrite) := by
  unfold Ctl.beginWrite
  try simp only []
  repeat' first
    | with_reducible assumption
    | with_reducible apply Ctl.markUnwritable_calm
    | with_reducible apply Ctl.writeMark_calm
    | split
    | (intro e; first | rfl | (simp; done) | (split <;> simp))
    | with_reducible apply Calm.outer

theorem Ctl.want_calm {c₀ c : Ctl} (hc₀ : Calm true c₀ c) (f : MarkVals → MarkVals) :
    Calm true c₀ (c.want f) := by
  unfold Ctl.want
  try simp only []
  repeat' first
    | with_reducible assumption
    | with_reducible apply Ctl.onMark_calm
    | with_reducible apply Ctl.beginWrite_calm
    | split
    | (intro e; first | rfl | (simp; done) | (split <;> simp))
    | with_reducible apply Calm.outer

theorem Ctl.wantCeiling_calm {c₀ c : Ctl} (hc₀ : Calm true c₀ c) :
    Calm true c₀ (c.wantCeiling) := by
  unfold Ctl.wantCeiling
  try simp only []
  repeat' first
    | with_reducible assumption
    | with_reducible apply Ctl.want_calm
    | split
    | (intro e; first | rfl | (simp; done) | (split <;> simp))
    | with_reducible apply Calm.outer

theorem Ctl.answerRelease_calm {c₀ c : Ctl} (hc₀ : Calm true c₀ c) :
    Calm true c₀ (c.answerRelease) := by
  unfold Ctl.answerRelease
  try simp only []
  repeat' first
    | with_reducible assumption
    | with_reducible apply Ctl.endCommand_calm
    | split
    | (intro e; first | rfl | (simp; done) | (split <;> simp))
    | with_reducible apply Calm.outer

theorem Ctl.markPassed_calm {c₀ c : Ctl} (hc₀ : Calm true c₀ c) (k : Env) (w : MarkWrite) :
    Calm true c₀ (c.markPassed k w) := by
  unfold Ctl.markPassed
  try simp only []
  repeat' first
    | with_reducible assumption
    | with_reducible apply Ctl.onMark_calm
    | with_reducible apply Ctl.ownRelease_calm
    | with_reducible apply Ctl.rejudgeVanished_calm
    | with_reducible apply Ctl.sweep_calm
    | with_reducible apply Ctl.sweepAll_calm
    | with_reducible apply Ctl.answerRelease_calm
    | with_reducible apply Ctl.beginWrite_calm
    | split
    | (intro e; first | rfl | (simp; done) | (split <;> simp))
    | with_reducible apply Calm.outer

theorem Ctl.markFailed_calm {c₀ c : Ctl} (hc₀ : Calm true c₀ c) (w : MarkWrite) :
    Calm true c₀ (c.markFailed w) := by
  unfold Ctl.markFailed
  try simp only []
  repeat' first
    | with_reducible assumption
    | with_reducible apply Ctl.onMark_calm
    | with_reducible apply Ctl.markUnwritable_calm
    | with_reducible apply Ctl.writeMark_calm
    | split
    | (intro e; first | rfl | (simp; done) | (split <;> simp))
    | with_reducible apply Calm.outer

theorem Ctl.markProgramEnd_calm {c₀ c : Ctl} (hc₀ : Calm true c₀ c) (k : Env) (out : ProgramOut) :
    Calm true c₀ (c.markProgramEnd k out) := by
  unfold Ctl.markProgramEnd
  try simp only []
  repeat' first
    | with_reducible assumption
    | with_reducible apply Ctl.markPassed_calm
    | with_reducible apply Ctl.markFailed_calm
    | split
    | (intro e; first | rfl | (simp; done) | (split <;> simp))
    | with_reducible apply Calm.outer

theorem Ctl.markEraseEnd_calm {c₀ c : Ctl} (hc₀ : Calm true c₀ c) (pass : Bool) :
    Calm true c₀ (c.markEraseEnd pass) := by
  unfold Ctl.markEraseEnd
  try simp only []
  repeat' first
    | with_reducible assumption
    | with_reducible apply Ctl.onMark_calm
    | with_reducible apply Ctl.enter_calm
    | with_reducible apply Ctl.markUnwritable_calm
    | split
    | (intro e; first | rfl | (simp; done) | (split <;> simp))
    | with_reducible apply Calm.outer

theorem Ctl.onMount_calm {c₀ c : Ctl} (hc₀ : Calm true c₀ c) (f : Mount → Mount) :
    Calm true c₀ (c.onMount f) := by
  unfold Ctl.onMount
  try simp only []
  repeat' first
    | with_reducible assumption
    | split
    | (intro e; first | rfl | (simp; done) | (split <;> simp))
    | with_reducible apply Calm.outer

theorem Ctl.beginMount_calm {w : Bool} {c₀ c : Ctl} (hc₀ : Calm w c₀ c) :
    Calm w c₀ (c.beginMount) := by
  unfold Ctl.beginMount
  try simp only []
  repeat' first
    | with_reducible assumption
    | with_reducible apply Ctl.enter_calm
    | (refine Calm.foldl _ (fun c x hc => ?_) ?_ <;> try simp only [])
    | split
    | (intro e; first | rfl | (simp; done) | (split <;> simp))
    | with_reducible apply Calm.inner

theorem Ctl.scanBlock_calm {c₀ c : Ctl} (hc₀ : Calm true c₀ c) (u : UnitNo) (block : Nat) :
    Calm true c₀ (c.scanBlock u block) := by
  unfold Ctl.scanBlock
  try simp only []
  repeat' first
    | with_reducible assumption
    | with_reducible apply Ctl.onMount_calm
    | with_reducible apply Ctl.enter_calm
    | split
    | (intro e; first | rfl | (simp; done) | (split <;> simp))
    | with_reducible apply Calm.outer

theorem Ctl.scanNext_calm {c₀ c : Ctl} (hc₀ : Calm true c₀ c) (u : UnitNo) (block : Nat) (p : ScanPhase) (r : Request) :
    Calm true c₀ (c.scanNext u block p r) := by
  unfold Ctl.scanNext
  try simp only []
  repeat' first
    | with_reducible assumption
    | with_reducible apply Ctl.onMount_calm
    | with_reducible apply Ctl.enter_calm
    | split
    | (intro e; first | rfl | (simp; done) | (split <;> simp))
    | with_reducible apply Calm.outer

theorem Ctl.fixMark_calm {c₀ c : Ctl} (hc₀ : Calm true c₀ c) :
    Calm true c₀ (c.fixMark) := by
  unfold Ctl.fixMark
  try simp only []
  repeat' first
    | with_reducible assumption
    | with_reducible apply Ctl.onMark_calm
    | with_reducible apply Ctl.want_calm
    | with_reducible apply Ctl.onMount_calm
    | with_reducible apply Ctl.scanBlock_calm
    | split
    | (intro e; first | rfl | (simp; done) | (split <;> simp))
    | with_reducible apply Calm.outer

theorem Ctl.markRead_calm {c₀ c : Ctl} (hc₀ : Calm true c₀ c) (a : PageAddr) (r : PageRead) :
    Calm true c₀ (c.markRead a r) := by
  unfold Ctl.markRead
  try simp only []
  repeat' first
    | with_reducible assumption
    | with_reducible apply Ctl.onMount_calm
    | with_reducible apply Ctl.fixMark_calm
    | split
    | (intro e; first | rfl | (simp; done) | (split <;> simp))
    | with_reducible apply Calm.outer

theorem Ctl.classify_calm {c₀ c : Ctl} (hc₀ : Calm true c₀ c) (u : UnitNo) (block : Nat) (st : BlockState) :
    Calm true c₀ (c.classify u block st) := by
  unfold Ctl.classify
  try simp only []
  repeat' first
    | with_reducible assumption
    | with_reducible apply Ctl.setBlock_calm
    | with_reducible apply Ctl.enter_calm
    | with_reducible apply Ctl.scanBlock_calm
    | split
    | (intro e; first | rfl | (simp; done) | (split <;> simp))
    | with_reducible apply Calm.outer

theorem Ctl.blockRead_calm {c₀ c : Ctl} (hc₀ : Calm true c₀ c) (u : UnitNo) (block : Nat) (found : List PageInfo) :
    Calm true c₀ (c.blockRead u block found) := by
  unfold Ctl.blockRead
  try simp only []
  repeat' first
    | with_reducible assumption
    | with_reducible apply Ctl.setBlock_calm
    | with_reducible apply Ctl.scanBlock_calm
    | split
    | (intro e; first | rfl | (simp; done) | (split <;> simp))
    | with_reducible apply Calm.outer

theorem Ctl.headerFound_calm {c₀ c : Ctl} (hc₀ : Calm true c₀ c) (u : UnitNo) (block p : Nat) (found : List PageInfo) (h : HeaderRead) :
    Calm true c₀ (c.headerFound u block p found h) := by
  unfold Ctl.headerFound
  try simp only []
  repeat' first
    | with_reducible assumption
    | with_reducible apply Ctl.scanNext_calm
    | with_reducible apply Ctl.blockRead_calm
    | split
    | (intro e; first | rfl | (simp; done) | (split <;> simp))
    | with_reducible apply Calm.outer

theorem Ctl.headerRead_calm {c₀ c : Ctl} (hc₀ : Calm true c₀ c) (u : UnitNo) (h : HeaderRead) :
    Calm true c₀ (c.headerRead u h) := by
  unfold Ctl.headerRead
  try simp only []
  repeat' first
    | with_reducible assumption
    | with_reducible apply Ctl.classify_calm
    | with_reducible apply Ctl.scanNext_calm
    | with_reducible apply Ctl.headerFound_calm
    | split
    | (intro e; first | rfl | (simp; done) | (split <;> simp))
    | with_reducible apply Calm.outer

theorem Ctl.pageFound_calm {c₀ c : Ctl} (hc₀ : Calm true c₀ c) (k : Env) (u : UnitNo) (a : PageAddr) (r : PageRead) :
    Calm true c₀ (c.pageFound k u a r) := by
  unfold Ctl.pageFound
  try simp only []
  repeat' first
    | with_reducible assumption
    | with_reducible apply Ctl.onMount_calm
    | with_reducible apply Ctl.blockRead_calm
    | with_reducible apply Ctl.scanNext_calm
    | split
    | (intro e; first | rfl | (simp; done) | (split <;> simp))
    | with_reducible apply Calm.outer

theorem Ctl.completeBlocks_calm {w : Bool} {c₀ c : Ctl} (hc₀ : Calm w c₀ c) (live : List PageAddr) :
    Calm w c₀ (c.completeBlocks live) := by
  unfold Ctl.completeBlocks
  try simp only []
  repeat' first
    | with_reducible assumption
    | with_reducible apply Ctl.enter_calm
    | (refine Calm.foldl _ (fun c x hc => ?_) ?_ <;> try simp only [])
    | split
    | (intro e; first | rfl | (simp; done) | (split <;> simp))
    | with_reducible apply Calm.inner

theorem Ctl.recompute_calm {c₀ c : Ctl} (hc₀ : Calm true c₀ c) (k : Env) :
    Calm true c₀ (c.recompute k) := by
  unfold Ctl.recompute
  try simp only []
  repeat' first
    | with_reducible assumption
    | with_reducible apply Ctl.onMark_calm
    | with_reducible apply Ctl.beginWrite_calm
    | split
    | (intro e; first | rfl | (simp; done) | (split <;> simp))
    | with_reducible apply Calm.outer

theorem Ctl.leaveMounting_calm {c₀ c : Ctl} (hc₀ : Calm true c₀ c) (k : Env) :
    Calm true c₀ (c.leaveMounting k) := by
  unfold Ctl.leaveMounting
  try simp only []
  repeat' first
    | with_reducible assumption
    | with_reducible apply Ctl.enterState_calm
    | with_reducible apply Ctl.requestPresence_calm
    | with_reducible apply Ctl.enterListening_calm
    | split
    | (intro e; first | rfl | (simp; done) | (split <;> simp))
    | with_reducible apply Calm.outer

theorem Ctl.mountResolve_calm {c₀ c : Ctl} (hc₀ : Calm true c₀ c) (k : Env) :
    Calm true c₀ (c.mountResolve k) := by
  unfold Ctl.mountResolve
  try simp only []
  repeat' first
    | with_reducible assumption
    | with_reducible apply Ctl.create_calm
    | with_reducible apply Ctl.recompute_calm
    | with_reducible apply Ctl.completeBlocks_calm
    | with_reducible apply Ctl.leaveMounting_calm
    | (refine Calm.foldl _ (fun c x hc => ?_) ?_ <;> try simp only [])
    | split
    | (intro e; first | rfl | (simp; done) | (split <;> simp))
    | with_reducible apply Calm.outer

theorem Ctl.takeCompleted_calm {c₀ c d : Ctl} {u : UnitNo} {p : Requester → Bool} {x : Completion}
    (h : Calm true c₀ c) (he : c.takeCompleted u p = some (x, d)) : Calm true c₀ d := by
  unfold Ctl.takeCompleted at he
  split at he
  · simp at he
  · simp only [Option.some.injEq, Prod.mk.injEq] at he
    obtain ⟨rfl, rfl⟩ := he
    apply Calm.outer
    exact h

theorem Ctl.markStale_calm {c₀ c : Ctl} (hc₀ : Calm true c₀ c) (block : Nat) : Calm true c₀ (c.markStale block) :=
  Ctl.onQueues_calm hc₀ _

theorem Ctl.recordEraseEnd_calm {c₀ c : Ctl} (hc₀ : Calm true c₀ c) (block : Nat) (pass : Bool) :
    Calm true c₀ (c.recordEraseEnd block pass) := by
  unfold Ctl.recordEraseEnd
  try simp only []
  repeat' first
    | with_reducible assumption
    | with_reducible apply Ctl.setBlock_calm
    | with_reducible apply Ctl.onMount_calm
    | with_reducible apply Ctl.markStale_calm
    | split
    | (intro e; first | rfl | (simp; done) | (split <;> simp))
    | with_reducible apply Calm.outer

theorem Ctl.dropReadBack_calm {w : Bool} {c₀ c : Ctl} (hc₀ : Calm w c₀ c) (seq : Word) :
    Calm w c₀ (c.dropReadBack seq) := by
  unfold Ctl.dropReadBack
  try simp only []
  repeat' first
    | with_reducible assumption
    | with_reducible apply Ctl.resumeTimers_calm
    | split
    | (intro e; first | rfl | (simp; done) | (split <;> simp))
    | with_reducible apply Calm.inner

theorem Ctl.ownReadBackEnd_calm {w : Bool} {c₀ c : Ctl} (hc₀ : Calm w c₀ c) (k : Env) (seq : Word) (a : PageAddr) (r : Option PageRead) :
    Calm w c₀ (c.ownReadBackEnd k seq a r) := by
  unfold Ctl.ownReadBackEnd
  try simp only []
  repeat' first
    | with_reducible assumption
    | with_reducible apply Ctl.dropReadBack_calm
    | with_reducible apply Ctl.sweep_calm
    | with_reducible apply Ctl.sweepAll_calm
    | with_reducible apply Ctl.damage_calm
    | with_reducible apply Ctl.pruneOwed_calm
    | with_reducible apply Ctl.transmit_calm
    | (refine Calm.foldl _ (fun c x hc => ?_) ?_ <;> try simp only [])
    | split
    | (intro e; first | rfl | (simp; done) | (split <;> simp))
    | with_reducible apply Calm.inner

end Sys2Proof.Machine
end

