-- ==== Sys2Proof/Laws/CalmPort.lean ====
section
/-!
SUPPORT. The events of Port, Reports: each is `Calm`.
-/

set_option linter.unreachableTactic false
set_option linter.unusedTactic false

namespace Sys2Proof.Machine

theorem Ctl.onPort_calm {c₀ c : Ctl} (hc₀ : Calm true c₀ c) (f : Port → Port) :
    Calm true c₀ (c.onPort f) := by
  unfold Ctl.onPort
  try simp only []
  repeat' first
    | with_reducible assumption
    | split
    | (intro e; first | rfl | (simp; done) | (split <;> simp))
    | with_reducible apply Calm.outer

theorem Ctl.setAct_calm {c₀ c : Ctl} (hc₀ : Calm true c₀ c) (a : Activity) :
    Calm true c₀ (c.setAct a) := by
  unfold Ctl.setAct
  try simp only []
  repeat' first
    | with_reducible assumption
    | with_reducible apply Ctl.onPort_calm
    | split
    | (intro e; first | rfl | (simp; done) | (split <;> simp))
    | with_reducible apply Calm.outer

theorem Ctl.takeCommand_calm {c₀ c : Ctl} (hc₀ : Calm true c₀ c) :
    Calm true c₀ (c.takeCommand) := by
  unfold Ctl.takeCommand
  try simp only []
  repeat' first
    | with_reducible assumption
    | with_reducible apply Ctl.onPort_calm
    | split
    | (intro e; first | rfl | (simp; done) | (split <;> simp))
    | with_reducible apply Calm.outer

theorem Ctl.discardAppend_calm {w : Bool} {c₀ c : Ctl} (hc₀ : Calm w c₀ c) (k : Env) :
    Calm w c₀ (c.discardAppend k) := by
  unfold Ctl.discardAppend
  try simp only []
  repeat' first
    | with_reducible assumption
    | with_reducible apply Ctl.setFill_calm
    | split
    | (intro e; first | rfl | (simp; done) | (split <;> simp))
    | with_reducible apply Calm.inner

theorem Ctl.abandon_calm {c₀ c : Ctl} (hc₀ : Calm true c₀ c) (k : Env) :
    Calm true c₀ (c.abandon k) := by
  unfold Ctl.abandon
  try simp only []
  repeat' first
    | with_reducible assumption
    | with_reducible apply Ctl.endCommand_calm
    | with_reducible apply Ctl.discardAppend_calm
    | split
    | (intro e; first | rfl | (simp; done) | (split <;> simp))
    | with_reducible apply Calm.outer

theorem Ctl.commandWrite_calm {c₀ c : Ctl} (hc₀ : Calm true c₀ c) (k : Env) (f : Ctl → Ctl)
    (hf : ∀ d, Calm true c₀ d → Calm true c₀ (f d)) : Calm true c₀ (c.commandWrite k f) := by
  unfold Ctl.commandWrite
  split
  · exact Ctl.setOverrun_calm hc₀
  · exact hf _ (Ctl.abandon_calm hc₀ _)

theorem Ctl.unknown_calm {c₀ c : Ctl} (hc₀ : Calm true c₀ c) (k : Env) (code : Byte) :
    Calm true c₀ (c.unknown k code) := by
  unfold Ctl.unknown
  split
  · exact hc₀
  · exact Ctl.commandWrite_calm hc₀ _ _ (fun _ hd => Ctl.endCommand_calm (Ctl.takeCommand_calm hd) _ _)

theorem Ctl.status_calm {c₀ c : Ctl} (hc₀ : Calm true c₀ c) :
    Calm true c₀ (c.status) := by
  unfold Ctl.status
  try simp only []
  repeat' first
    | with_reducible assumption
    | with_reducible apply Ctl.onPort_calm
    | split
    | (intro e; first | rfl | (simp; done) | (split <;> simp))
    | with_reducible apply Calm.outer

theorem Ctl.readLatch_calm {c₀ c : Ctl} (hc₀ : Calm true c₀ c) :
    Calm true c₀ (c.readLatch) := by
  unfold Ctl.readLatch
  try simp only []
  repeat' first
    | with_reducible assumption
    | with_reducible apply Ctl.onPort_calm
    | split
    | (intro e; first | rfl | (simp; done) | (split <;> simp))
    | with_reducible apply Calm.outer

theorem Ctl.readResult_calm {c₀ c : Ctl} (hc₀ : Calm true c₀ c) :
    Calm true c₀ (c.readResult) := by
  unfold Ctl.readResult
  try simp only []
  repeat' first
    | with_reducible assumption
    | with_reducible apply Ctl.onPort_calm
    | split
    | (intro e; first | rfl | (simp; done) | (split <;> simp))
    | with_reducible apply Calm.outer

theorem Ctl.closeNoFit_calm {w : Bool} {c₀ c : Ctl} (hc₀ : Calm w c₀ c) (k : Env) :
    Calm w c₀ (c.closeNoFit k) := by
  unfold Ctl.closeNoFit
  try simp only []
  repeat' first
    | with_reducible assumption
    | with_reducible apply Ctl.formExtent_calm
    | with_reducible apply Ctl.update_calm
    | with_reducible apply Ctl.dropTargets_calm
    | split
    | (intro e; first | rfl | (simp; done) | (split <;> simp))
    | with_reducible apply Calm.inner

theorem Ctl.acceptAppend_calm {c₀ c : Ctl} (hc₀ : Calm true c₀ c) (k : Env) (tag : Half) (length : Nat) :
    Calm true c₀ (c.acceptAppend k tag length) := by
  unfold Ctl.acceptAppend
  try simp only []
  repeat' first
    | with_reducible assumption
    | with_reducible apply Ctl.setAct_calm
    | with_reducible apply Ctl.closeNoFit_calm
    | with_reducible apply Ctl.sweep_calm
    | with_reducible apply Ctl.wantCeiling_calm
    | split
    | (intro e; first | rfl | (simp; done) | (split <;> simp))
    | with_reducible apply Calm.outer

theorem Ctl.doAppend_calm {c₀ c : Ctl} (hc₀ : Calm true c₀ c) (k : Env) (args : List Byte) :
    Calm true c₀ (c.doAppend k args) := by
  unfold Ctl.doAppend
  try simp only []
  repeat' first
    | with_reducible assumption
    | with_reducible apply Ctl.endCommand_calm
    | with_reducible apply Ctl.acceptAppend_calm
    | split
    | (intro e; first | rfl | (simp; done) | (split <;> simp))
    | with_reducible apply Calm.outer

theorem Ctl.openOwnPage_calm {c₀ c : Ctl} (hc₀ : Calm true c₀ c) (k : Env) : Calm true c₀ (c.openOwnPage k) := by
  unfold Ctl.openOwnPage
  split
  · split
    · exact hc₀
    · split
      · exact Ctl.endCommand_calm hc₀ _ _
      · rename_i p d heq
        have hd : Calm true c₀ d := by
          split at heq
          · exact Ctl.allocate_calm hc₀ heq
          · simp at heq
        refine Ctl.setAct_calm (Ctl.setFill_calm (Ctl.create_calm ?_ _ _) _ _) _
        apply Calm.outer
        exact hd
  · exact hc₀

theorem Ctl.placeRecord_calm {c₀ c : Ctl} (hc₀ : Calm true c₀ c) (k : Env) (b : Fin 2) (p : FillPage) (a : AppendCmd) :
    Calm true c₀ (c.placeRecord k b p a) := by
  unfold Ctl.placeRecord
  try simp only []
  repeat' first
    | with_reducible assumption
    | with_reducible apply Ctl.setFill_calm
    | with_reducible apply Ctl.endCommand_calm
    | with_reducible apply Ctl.formExtent_calm
    | with_reducible apply Ctl.sweep_calm
    | split
    | (intro e; first | rfl | (simp; done) | (split <;> simp))
    | with_reducible apply Calm.outer

theorem Ctl.payloadByte_calm {c₀ c : Ctl} (hc₀ : Calm true c₀ c) (k : Env) (d : Byte) :
    Calm true c₀ (c.payloadByte k d) := by
  unfold Ctl.payloadByte
  try simp only []
  repeat' first
    | with_reducible assumption
    | with_reducible apply Ctl.placeRecord_calm
    | with_reducible apply Ctl.setFill_calm
    | with_reducible apply Ctl.setAct_calm
    | with_reducible apply Ctl.setOverrun_calm
    | split
    | (intro e; first | rfl | (simp; done) | (split <;> simp))
    | with_reducible apply Calm.outer

theorem Ctl.doFlush_calm {c₀ c : Ctl} (hc₀ : Calm true c₀ c) (k : Env) :
    Calm true c₀ (c.doFlush k) := by
  unfold Ctl.doFlush
  try simp only []
  repeat' first
    | with_reducible assumption
    | with_reducible apply Ctl.endCommand_calm
    | with_reducible apply Ctl.setAct_calm
    | with_reducible apply Ctl.formExtent_calm
    | with_reducible apply Ctl.sweep_calm
    | split
    | (intro e; first | rfl | (simp; done) | (split <;> simp))
    | with_reducible apply Calm.outer

theorem Ctl.doRelease_calm {c₀ c : Ctl} (hc₀ : Calm true c₀ c) (k : Env) (args : List Byte) :
    Calm true c₀ (c.doRelease k args) := by
  unfold Ctl.doRelease
  try simp only []
  repeat' first
    | with_reducible assumption
    | with_reducible apply Ctl.endCommand_calm
    | with_reducible apply Ctl.setAct_calm
    | with_reducible apply Ctl.want_calm
    | split
    | (intro e; first | rfl | (simp; done) | (split <;> simp))
    | with_reducible apply Calm.outer

theorem Ctl.setPair_calm {c₀ c : Ctl} (hc₀ : Calm true c₀ c) (b : Fin 2) (x : PairBuf) :
    Calm true c₀ (c.setPair b x) := by
  unfold Ctl.setPair
  try simp only []
  repeat' first
    | with_reducible assumption
    | split
    | (intro e; first | rfl | (simp; done) | (split <;> simp))
    | with_reducible apply Calm.outer

theorem Ctl.endScan_calm {c₀ c : Ctl} (hc₀ : Calm true c₀ c) :
    Calm true c₀ (c.endScan) := by
  unfold Ctl.endScan
  try simp only []
  repeat' first
    | with_reducible assumption
    | split
    | (intro e; first | rfl | (simp; done) | (split <;> simp))
    | with_reducible apply Calm.outer

theorem Ctl.loadPair_calm {c₀ c : Ctl} (hc₀ : Calm true c₀ c) (k : Env) (b : Fin 2) (e : Entry) :
    Calm true c₀ (c.loadPair k b e) := by
  unfold Ctl.loadPair
  try simp only []
  repeat' first
    | with_reducible assumption
    | with_reducible apply Ctl.setPair_calm
    | with_reducible apply Ctl.enter_calm
    | split
    | (intro e; first | rfl | (simp; done) | (split <;> simp))
    | with_reducible apply Calm.outer

theorem Ctl.startRead_calm {c₀ c : Ctl} (hc₀ : Calm true c₀ c) (k : Env) (b : Fin 2) (id : PageId) (slot : Nat) :
    Calm true c₀ (c.startRead k b id slot) := by
  unfold Ctl.startRead
  try simp only []
  repeat' first
    | with_reducible assumption
    | with_reducible apply Ctl.endCommand_calm
    | with_reducible apply Ctl.setAct_calm
    | with_reducible apply Ctl.loadPair_calm
    | split
    | (intro e; first | rfl | (simp; done) | (split <;> simp))
    | with_reducible apply Calm.outer

theorem Ctl.doRead_calm {c₀ c : Ctl} (hc₀ : Calm true c₀ c) (k : Env) (args : List Byte) :
    Calm true c₀ (c.doRead k args) := by
  unfold Ctl.doRead
  try simp only []
  repeat' first
    | with_reducible assumption
    | with_reducible apply Ctl.endCommand_calm
    | with_reducible apply Ctl.endScan_calm
    | with_reducible apply Ctl.startRead_calm
    | with_reducible apply Ctl.setAct_calm
    | split
    | (intro e; first | rfl | (simp; done) | (split <;> simp))
    | with_reducible apply Calm.outer

theorem Ctl.portReadEnd_calm {c₀ c : Ctl} (hc₀ : Calm true c₀ c) (k : Env) (b : Fin 2) (id : PageId) (h slot : Nat) (a : PageAddr) (r : Option PageRead) :
    Calm true c₀ (c.portReadEnd k b id h slot a r) := by
  unfold Ctl.portReadEnd
  try simp only []
  repeat' first
    | with_reducible assumption
    | with_reducible apply Ctl.setPair_calm
    | with_reducible apply Ctl.endCommand_calm
    | with_reducible apply Ctl.damage_calm
    | with_reducible apply Ctl.onPort_calm
    | split
    | (intro e; first | rfl | (simp; done) | (split <;> simp))
    | with_reducible apply Calm.outer

theorem Ctl.readPayload_calm {c₀ c : Ctl} (hc₀ : Calm true c₀ c) :
    Calm true c₀ (c.readPayload) := by
  unfold Ctl.readPayload
  try simp only []
  repeat' first
    | with_reducible assumption
    | with_reducible apply Ctl.onPort_calm
    | split
    | (intro e; first | rfl | (simp; done) | (split <;> simp))
    | with_reducible apply Calm.outer

theorem Ctl.onScan_calm {c₀ c : Ctl} (hc₀ : Calm true c₀ c) (f : Scan → Scan) :
    Calm true c₀ (c.onScan f) := by
  unfold Ctl.onScan
  try simp only []
  repeat' first
    | with_reducible assumption
    | split
    | (intro e; first | rfl | (simp; done) | (split <;> simp))
    | with_reducible apply Calm.outer

theorem Ctl.walkScan_calm {c₀ c d : Ctl} {k : Env} {b : Fin 2} (h : Calm true c₀ c)
    (he : c.walkScan k b = some d) : Calm true c₀ d := by
  unfold Ctl.walkScan at he
  split at he
  · simp at he
  · split at he
    · simp at he
    · simp only [Option.some.injEq] at he
      subst he
      exact Ctl.loadPair_calm (Ctl.onScan_calm h _) _ _ _

theorem Ctl.prefetch_calm {c₀ c : Ctl} (hc₀ : Calm true c₀ c) (k : Env) :
    Calm true c₀ (c.prefetch k) := by
  unfold Ctl.prefetch
  try simp only []
  repeat' first
    | with_reducible assumption
    | exact Ctl.walkScan_calm (by assumption) (by assumption)
    | with_reducible apply Ctl.setPair_calm
    | split
    | (intro e; first | rfl | (simp; done) | (split <;> simp))
    | with_reducible apply Calm.outer

/-- The scan given up. -/
theorem Calm.dropScan {c₀ c : Ctl} (h : Calm true c₀ c) : Calm true c₀ { c with scan := none } := by
  apply Calm.outer
  exact h

theorem Ctl.startScan_calm {c₀ c : Ctl} (hc₀ : Calm true c₀ c) (k : Env) (b : Fin 2) :
    Calm true c₀ (c.startScan k b) := by
  have h1 := Ctl.onScan_calm hc₀ (fun s => { s with current := b })
  unfold Ctl.startScan
  simp only []
  split
  · exact Ctl.setAct_calm (Ctl.walkScan_calm h1 (by assumption)) _
  · exact Ctl.endCommand_calm (Ctl.setPair_calm h1.dropScan _ _) _ _

theorem Ctl.doScan_calm {c₀ c : Ctl} (hc₀ : Calm true c₀ c) (k : Env) (args : List Byte) :
    Calm true c₀ (c.doScan k args) := by
  unfold Ctl.doScan
  try simp only []
  repeat' first
    | with_reducible assumption
    | with_reducible apply Ctl.endCommand_calm
    | with_reducible apply Ctl.endScan_calm
    | with_reducible apply Ctl.startScan_calm
    | with_reducible apply Ctl.setAct_calm
    | split
    | (intro e; first | rfl | (simp; done) | (split <;> simp))
    | with_reducible apply Calm.outer

theorem Ctl.scanReadEnd_calm {c₀ c : Ctl} (hc₀ : Calm true c₀ c) (k : Env) (b : Fin 2) (id : PageId) (h : Nat) (a : PageAddr) (r : Option PageRead) :
    Calm true c₀ (c.scanReadEnd k b id h a r) := by
  unfold Ctl.scanReadEnd
  try simp only []
  repeat' first
    | with_reducible assumption
    | with_reducible apply Ctl.startScan_calm
    | with_reducible apply Ctl.setPair_calm
    | with_reducible apply Ctl.damage_calm
    | with_reducible apply Ctl.endCommand_calm
    | with_reducible apply Ctl.prefetch_calm
    | with_reducible apply Ctl.onScan_calm
    | split
    | (intro e; first | rfl | (simp; done) | (split <;> simp))
    | with_reducible apply Calm.outer

theorem Ctl.deliver_calm {c₀ c : Ctl} (hc₀ : Calm true c₀ c) (slot : Nat) :
    Calm true c₀ (c.deliver slot) := by
  unfold Ctl.deliver
  try simp only []
  repeat' first
    | with_reducible assumption
    | with_reducible apply Ctl.endCommand_calm
    | with_reducible apply Ctl.onScan_calm
    | with_reducible apply Ctl.onPort_calm
    | split
    | (intro e; first | rfl | (simp; done) | (split <;> simp))
    | with_reducible apply Calm.outer

theorem Ctl.settleNext_calm {c₀ c : Ctl} (hc₀ : Calm true c₀ c) (k : Env) :
    Calm true c₀ (c.settleNext k) := by
  unfold Ctl.settleNext
  try simp only []
  repeat' first
    | with_reducible assumption
    | with_reducible apply Ctl.endCommand_calm
    | with_reducible apply Ctl.onScan_calm
    | with_reducible apply Ctl.prefetch_calm
    | with_reducible apply Ctl.deliver_calm
    | with_reducible apply Ctl.setPair_calm
    | with_reducible apply Ctl.setAct_calm
    | exact Ctl.walkScan_calm (by assumption) (by assumption)
    | split
    | (intro e; first | rfl | (simp; done) | (split <;> simp))
    | with_reducible apply Calm.outer

theorem Ctl.doScanNext_calm {c₀ c : Ctl} (hc₀ : Calm true c₀ c) (k : Env) :
    Calm true c₀ (c.doScanNext k) := by
  unfold Ctl.doScanNext
  try simp only []
  repeat' first
    | with_reducible assumption
    | with_reducible apply Ctl.endCommand_calm
    | with_reducible apply Ctl.deliver_calm
    | with_reducible apply Ctl.setPair_calm
    | with_reducible apply Ctl.onScan_calm
    | with_reducible apply Ctl.settleNext_calm
    | split
    | (intro e; first | rfl | (simp; done) | (split <;> simp))
    | with_reducible apply Calm.outer

theorem Ctl.prefetchEnd_calm {c₀ c : Ctl} (hc₀ : Calm true c₀ c) (k : Env) (b : Fin 2) (id : PageId) (h : Nat)
    (a : PageAddr) (r : Option PageRead) : Calm true c₀ (c.prefetchEnd k b id h a r) := by
  have key (d : Ctl) (hd : Calm true c₀ d) :
      Calm true c₀ (match d.port.act with
        | .scanNextWait => d.settleNext k
        | _ => d) := by
    split
    · exact Ctl.settleNext_calm hd _
    · exact hd
  unfold Ctl.prefetchEnd
  refine key _ ?_
  split
  · split
    · exact Ctl.walkScan_calm (Ctl.setPair_calm hc₀ _ _) (by assumption)
    · exact Ctl.setPair_calm hc₀ _ _
  · split
    · exact Ctl.damage_calm (Ctl.setPair_calm hc₀ _ _) _ _ _
    · exact Ctl.setPair_calm hc₀ _ _

theorem Ctl.abandonedEnd_calm {c₀ c : Ctl} (hc₀ : Calm true c₀ c) (k : Env) (b : Fin 2) (id : PageId) (a : PageAddr) (r : Option PageRead) :
    Calm true c₀ (c.abandonedEnd k b id a r) := by
  unfold Ctl.abandonedEnd
  try simp only []
  repeat' first
    | with_reducible assumption
    | with_reducible apply Ctl.setPair_calm
    | with_reducible apply Ctl.damage_calm
    | with_reducible apply Ctl.setAct_calm
    | with_reducible apply Ctl.startRead_calm
    | with_reducible apply Ctl.startScan_calm
    | with_reducible apply Ctl.settleNext_calm
    | with_reducible apply Ctl.prefetch_calm
    | split
    | (intro e; first | rfl | (simp; done) | (split <;> simp))
    | with_reducible apply Calm.outer

theorem Ctl.portReset_calm {c₀ c : Ctl} (hc₀ : Calm true c₀ c) (k : Env) :
    Calm true c₀ (c.portReset k) := by
  unfold Ctl.portReset
  try simp only []
  repeat' first
    | with_reducible assumption
    | with_reducible apply Ctl.discardAppend_calm
    | with_reducible apply Ctl.endScan_calm
    | with_reducible apply Ctl.endCommand_calm
    | with_reducible apply Ctl.onPort_calm
    | split
    | (intro e; first | rfl | (simp; done) | (split <;> simp))
    | with_reducible apply Calm.outer

theorem Ctl.takeByte_calm {c₀ c : Ctl} (hc₀ : Calm true c₀ c) (k : Env) (cmd : ByteCmd) : Calm true c₀ (c.takeByte k cmd) := by
  cases cmd
  · exact Ctl.commandWrite_calm hc₀ _ _ (fun _ hd => Ctl.doFlush_calm (Ctl.takeCommand_calm hd) _)
  · exact Ctl.commandWrite_calm hc₀ _ _ (fun _ hd => Ctl.doScanNext_calm (Ctl.takeCommand_calm hd) _)
  · exact Ctl.status_calm hc₀
  · exact Ctl.portReset_calm hc₀ _

theorem Ctl.beginCommand_calm {c₀ c : Ctl} (hc₀ : Calm true c₀ c) (k : Env) (code : Byte) :
    Calm true c₀ (c.beginCommand k code) := by
  unfold Ctl.beginCommand
  split
  · exact Ctl.commandWrite_calm hc₀ _ _ (fun _ hd => Ctl.setAct_calm hd _)
  · split
    · exact Ctl.takeByte_calm hc₀ _ _
    · exact Ctl.unknown_calm hc₀ _ _

/-- The alert set changed. -/
theorem Calm.setAlerts {c₀ c : Ctl} (h : Calm true c₀ c) (a : AlertSet) (ha : alertsOk c.alerts → alertsOk a) :
    Calm true c₀ { c with alerts := a } :=
  ⟨h.dir, h.tx, ha ∘ h.alerts, h.repair, h.busy, h.favour, (nomatch ·), (nomatch ·), (nomatch ·), (nomatch ·)⟩

theorem Ctl.doAlertMask_calm {c₀ c : Ctl} (hc₀ : Calm true c₀ c) (args : List Byte) :
    Calm true c₀ (c.doAlertMask args) := by
  unfold Ctl.doAlertMask
  split
  · exact Ctl.endCommand_calm hc₀ _ _
  · refine Ctl.endCommand_calm (hc₀.setAlerts { c.alerts with enabled := argAt args 0 &&& causeBits } (fun ha => ⟨ha.1, ?_⟩)) _ _
    simp only [BitVec.and_assoc]
    rw [show causeBits &&& ~~~causeBits = 0 by decide]
    simp

theorem Ctl.doReport_calm {c₀ c : Ctl} (hc₀ : Calm true c₀ c) (k : Env) (sel : Byte) :
    Calm true c₀ (c.doReport k sel) := by
  unfold Ctl.doReport
  split
  · exact Ctl.endCommand_calm hc₀ _ _
  · exact Ctl.endCommand_calm hc₀ _ _
  · exact Ctl.endCommand_calm (hc₀.setAlerts { c.alerts with pending := 0 } (fun ha => ⟨by simp, ha.2⟩)) _ _
  · exact Ctl.endCommand_calm hc₀ _ _
  · exact Ctl.endCommand_calm hc₀ _ _

theorem Ctl.take_calm {c₀ c : Ctl} (hc₀ : Calm true c₀ c) (k : Env) (cmd : ArgCmd) (args : List Byte) :
    Calm true c₀ (c.take k cmd args) := by
  have h := Ctl.takeCommand_calm hc₀
  cases cmd
  · exact Ctl.doAppend_calm h _ _
  · exact Ctl.doRead_calm h _ _
  · exact Ctl.doScan_calm h _ _
  · exact Ctl.doRelease_calm h _ _
  · exact Ctl.doReport_calm h _ _
  · exact Ctl.doAlertMask_calm h _

theorem Ctl.argumentWrite_calm {c₀ c : Ctl} (hc₀ : Calm true c₀ c) (k : Env) (d : Byte) :
    Calm true c₀ (c.argumentWrite k d) := by
  unfold Ctl.argumentWrite
  split
  · simp only []
    split
    · exact Ctl.setAct_calm hc₀ _
    · exact Ctl.take_calm hc₀ _ _ _
  · exact Ctl.setOverrun_calm hc₀

theorem Ctl.takeLast_calm {c₀ c : Ctl} (hc₀ : Calm true c₀ c) (cmd : ArgCmd) (d : Byte) (f : Ctl → List Byte → Ctl)
    (hf : ∀ x args, Calm true c₀ x → Calm true c₀ (f x args)) : Calm true c₀ (c.takeLast cmd d f) := by
  unfold Ctl.takeLast
  split
  · exact hf _ _ (Ctl.takeCommand_calm hc₀)
  · exact hc₀

end Sys2Proof.Machine
end

