-- ==== Sys2Proof/Laws/CalmBus.lean ====
section
/-!
SUPPORT. The events of Bus, Power, EngineCmds, ArrayCmds, Clock: each is `Calm`.
-/

set_option linter.unreachableTactic false
set_option linter.unusedTactic false

namespace Sys2Proof.Machine

theorem Ctl.startFrame_calm {w : Bool} {c₀ c : Ctl} (hc₀ : Calm w c₀ c) (k : Env) : Calm w c₀ (c.startFrame k) := by
  unfold Ctl.startFrame
  split
  · exact hc₀
  · split
    · exact hc₀
    · split
      · exact hc₀
      · refine Ctl.onTx_calm hc₀ _ (fun ht => ?_)
        exact txOk_map _ _ (fun e => by split <;> rfl) (some _) _ _ ht.2.2.2 ht

theorem Ctl.loseArbitration_calm {w : Bool} {c₀ c : Ctl} (hc₀ : Calm w c₀ c) (k : Env) :
    Calm w c₀ (c.loseArbitration k) := by
  unfold Ctl.loseArbitration
  try simp only []
  repeat' first
    | with_reducible assumption
    | with_reducible apply Ctl.endAttempt_calm
    | with_reducible apply Ctl.sweep_calm
    | split
    | (intro e; first | rfl | (simp; done) | (split <;> simp))
    | with_reducible apply Calm.inner

theorem Ctl.transmitFault_calm {w : Bool} {c₀ c : Ctl} (hc₀ : Calm w c₀ c) (k : Env) :
    Calm w c₀ (c.transmitFault k) := by
  unfold Ctl.transmitFault
  split
  · refine Ctl.sweep_calm (Ctl.onTx_calm (Ctl.endAttempt_calm hc₀) _ (fun ht => ?_)) _
    exact txOk_faults _ _ (Nat.min_le_right _ _) ht
  · exact hc₀

theorem Ctl.faultLimit_calm {c₀ c : Ctl} (hc₀ : Calm true c₀ c) (k : Env) :
    Calm true c₀ (c.faultLimit k) := by
  unfold Ctl.faultLimit
  try simp only []
  repeat' first
    | with_reducible assumption
    | with_reducible apply Ctl.isolate_calm
    | with_reducible apply Ctl.sweep_calm
    | split
    | (intro e; first | rfl | (simp; done) | (split <;> simp))
    | with_reducible apply Calm.outer

theorem Ctl.tellSent_calm {c₀ c : Ctl} (hc₀ : Calm true c₀ c) (k : Env) (b : TxBody) :
    Calm true c₀ (c.tellSent k b) := by
  unfold Ctl.tellSent
  try simp only []
  repeat' first
    | with_reducible assumption
    | with_reducible apply Ctl.answer_calm
    | with_reducible apply Ctl.holdingsSent_calm
    | with_reducible apply Ctl.extentSent_calm
    | with_reducible apply Ctl.copySent_calm
    | split
    | (intro e; first | rfl | (simp; done) | (split <;> simp))
    | with_reducible apply Calm.outer

theorem txOk_sent (t : Tx) (e : TxEntry) (h : txOk t) : txOk (t.sent e) := by
  unfold Tx.sent
  have hf := txOk_faults t 0 (by omega) h
  split
  · exact txOk_map { t with faults := 0 } _ (fun x => by split <;> rfl) none _ _ hf.2.2.2 hf
  · exact txOk_filter { t with faults := 0 } _ none _ _ hf.2.2.2 hf

theorem Ctl.sentWhole_calm {c₀ c : Ctl} (hc₀ : Calm true c₀ c) (k : Env) : Calm true c₀ (c.sentWhole k) := by
  unfold Ctl.sentWhole
  split
  · exact hc₀
  · split
    · exact Ctl.onTx_calm hc₀ _ (fun ht => txOk_faults { c.tx with onAir := none } 0 (by omega) ht)
    · rename_i e he
      have h1 := Ctl.onTx_calm hc₀ (fun t => t.sent e) (fun ht => txOk_sent _ _ ht)
      refine Ctl.sweep_calm ?_ _
      split
      · exact Ctl.freeCancelled_calm h1 _
      · exact Ctl.tellSent_calm h1 _ _

theorem Ctl.meetHeld_calm {w : Bool} {c₀ c : Ctl} (hc₀ : Calm w c₀ c) (k : Env) : Calm w c₀ (c.meetHeld k) := by
  unfold Ctl.meetHeld
  split
  · exact hc₀
  · rename_i b t heq
    have h1 : Calm w c₀ { c with tx := t } := hc₀.setTx t (fun ht => txOk_meetHeld _ _ _ ht heq)
    simp only []
    split
    · exact Ctl.requestOwed_calm h1 _
    · exact Ctl.requestOwedCopies_calm h1
    · exact h1
    · exact h1
    · exact h1

theorem Ctl.claim_calm {w : Bool} {c₀ c : Ctl} (hc₀ : Calm w c₀ c) (k : Env) (a : Addressing) :
    Calm w c₀ (c.claim k a) := by
  unfold Ctl.claim
  try simp only []
  repeat' first
    | with_reducible assumption
    | with_reducible apply Ctl.setRx_calm
    | split
    | (intro e; first | rfl | (simp; done) | (split <;> simp))
    | with_reducible apply Calm.inner

theorem Ctl.dispatch_calm {c₀ c : Ctl} (hc₀ : Calm true c₀ c) (k : Env) (src : Station)
    (takes : StationState → Bool) (f : Ctl → Ctl) (hf : ∀ d, Calm true c₀ d → Calm true c₀ (f d)) :
    Calm true c₀ (c.dispatch k src takes f) := by
  unfold Ctl.dispatch
  split
  · exact hc₀
  · split
    · exact Ctl.sweep_calm (Ctl.isolate_calm (Ctl.freeClaimed_calm hc₀)) _
    · split
      · exact hf _ hc₀
      · exact Ctl.freeClaimed_calm hc₀

theorem Ctl.keepData_calm {w : Bool} {c₀ c : Ctl} (hc₀ : Calm w c₀ c) (k : Env) (src : Station) (addressed : Bool) (f : DataFrame) :
    Calm w c₀ (c.keepData k src addressed f) := by
  unfold Ctl.keepData
  try simp only []
  repeat' first
    | with_reducible assumption
    | with_reducible apply Ctl.arriveData_calm
    | with_reducible apply Ctl.setRx_calm
    | split
    | (intro e; first | rfl | (simp; done) | (split <;> simp))
    | with_reducible apply Calm.inner

theorem Ctl.hearPresence_calm {c₀ c : Ctl} (hc₀ : Calm true c₀ c) (k : Env) (f : Heard) :
    Calm true c₀ (c.hearPresence k f) := by
  unfold Ctl.hearPresence
  split
  · exact Ctl.dispatch_calm hc₀ _ _ _ _ (fun _ hd => Ctl.takePresence_calm hd _ _ _)
  · exact hc₀

theorem Ctl.hearAnswer_calm {c₀ c : Ctl} (hc₀ : Calm true c₀ c) (k : Env) (f : Heard) :
    Calm true c₀ (c.hearAnswer k f) := by
  unfold Ctl.hearAnswer
  split
  · exact Ctl.dispatch_calm hc₀ _ _ _ _ (fun _ hd => Ctl.takeAnswer_calm hd _ _ _)
  · exact hc₀

theorem Ctl.hearHoldings_calm {c₀ c : Ctl} (hc₀ : Calm true c₀ c) (k : Env) (f : Heard) :
    Calm true c₀ (c.hearHoldings k f) := by
  unfold Ctl.hearHoldings
  split
  · exact Ctl.dispatch_calm hc₀ _ _ _ _ (fun _ hd => Ctl.takeHoldings_calm hd _ _ _)
  · exact hc₀

theorem Ctl.hearExtent_calm {c₀ c : Ctl} (hc₀ : Calm true c₀ c) (k : Env) (f : Heard) :
    Calm true c₀ (c.hearExtent k f) := by
  unfold Ctl.hearExtent
  split
  · exact Ctl.dispatch_calm hc₀ _ _ _ _ (fun _ hd => Ctl.keepData_calm hd _ _ _ _)
  · exact hc₀

theorem Ctl.hearCopy_calm {c₀ c : Ctl} (hc₀ : Calm true c₀ c) (k : Env) (f : Heard) :
    Calm true c₀ (c.hearCopy k f) := by
  unfold Ctl.hearCopy
  split
  · exact Ctl.dispatch_calm hc₀ _ _ _ _ (fun _ hd => Ctl.keepData_calm hd _ _ _ _)
  · exact hc₀

theorem Ctl.hearBad_calm {w : Bool} {c₀ c : Ctl} (hc₀ : Calm w c₀ c) (f : Heard) :
    Calm w c₀ (c.hearBad f) := by
  unfold Ctl.hearBad
  try simp only []
  repeat' first
    | with_reducible assumption
    | with_reducible apply Ctl.freeClaimed_calm
    | split
    | (intro e; first | rfl | (simp; done) | (split <;> simp))
    | with_reducible apply Calm.inner

theorem Ctl.endPortForPower_calm {c₀ c : Ctl} (hc₀ : Calm true c₀ c) (k : Env) :
    Calm true c₀ (c.endPortForPower k) := by
  unfold Ctl.endPortForPower
  try simp only []
  repeat' first
    | with_reducible assumption
    | with_reducible apply Ctl.discardAppend_calm
    | with_reducible apply Ctl.endCommand_calm
    | split
    | (intro e; first | rfl | (simp; done) | (split <;> simp))
    | with_reducible apply Calm.outer

theorem Ctl.markEmergency_calm {c₀ c : Ctl} (hc₀ : Calm true c₀ c) : Calm true c₀ c.markEmergency :=
  Ctl.onQueues_calm hc₀ _

theorem Ctl.freeDeferred_calm {w : Bool} {c₀ c : Ctl} (hc₀ : Calm w c₀ c) :
    Calm w c₀ (c.freeDeferred) := by
  unfold Ctl.freeDeferred
  try simp only []
  repeat' first
    | with_reducible assumption
    | with_reducible apply Ctl.setRx_calm
    | (refine Calm.foldl _ (fun c x hc => ?_) ?_ <;> try simp only [])
    | split
    | (intro e; first | rfl | (simp; done) | (split <;> simp))
    | with_reducible apply Calm.inner

theorem Ctl.emergencyFlush_calm {w : Bool} {c₀ c : Ctl} (hc₀ : Calm w c₀ c) (k : Env) :
    Calm w c₀ (c.emergencyFlush k) := by
  unfold Ctl.emergencyFlush
  try simp only []
  repeat' first
    | with_reducible assumption
    | with_reducible apply Ctl.formEmergency_calm
    | split
    | (intro e; first | rfl | (simp; done) | (split <;> simp))
    | with_reducible apply Calm.inner

theorem Ctl.enterLeaving_calm {c₀ c : Ctl} (hc₀ : Calm true c₀ c) (k : Env) :
    Calm true c₀ (c.enterLeaving k) := by
  unfold Ctl.enterLeaving
  try simp only []
  repeat' first
    | with_reducible assumption
    | with_reducible apply Ctl.endPortForPower_calm
    | with_reducible apply Ctl.enterState_calm
    | with_reducible apply Ctl.markEmergency_calm
    | with_reducible apply Ctl.emergencyFlush_calm
    | with_reducible apply Ctl.freeDeferred_calm
    | with_reducible apply Ctl.requestPresence_calm
    | with_reducible apply Ctl.sweep_calm
    | split
    | (intro e; first | rfl | (simp; done) | (split <;> simp))
    | with_reducible apply Calm.outer

theorem Ctl.renewGeneration_calm {c₀ c : Ctl} (hc₀ : Calm true c₀ c) : Calm true c₀ c.renewGeneration := by
  unfold Ctl.renewGeneration
  split
  · exact hc₀
  · exact Ctl.onMark_calm hc₀ _

theorem Ctl.rejoin_calm {c₀ c : Ctl} (hc₀ : Calm true c₀ c) (k : Env) :
    Calm true c₀ (c.rejoin k) := by
  unfold Ctl.rejoin
  try simp only []
  repeat' first
    | with_reducible assumption
    | with_reducible apply Ctl.renewGeneration_calm
    | with_reducible apply Ctl.enterListening_calm
    | with_reducible apply Ctl.want_calm
    | with_reducible apply Ctl.requestPresence_calm
    | split
    | (intro e; first | rfl | (simp; done) | (split <;> simp))
    | with_reducible apply Calm.outer

theorem Ctl.answerExpired_calm {w : Bool} {c₀ c : Ctl} (hc₀ : Calm w c₀ c) (k : Env) (seq : Word) (ext : Nat) :
    Calm w c₀ (c.answerExpired k seq ext) := by
  unfold Ctl.answerExpired
  try simp only []
  repeat' first
    | with_reducible assumption
    | with_reducible apply Ctl.onPageEntries_calm
    | with_reducible apply Ctl.transmit_calm
    | with_reducible apply Ctl.loseTarget_calm
    | with_reducible apply Ctl.sweep_calm
    | with_reducible apply Ctl.sweepAll_calm
    | (refine Calm.foldl _ (fun c x hc => ?_) ?_ <;> try simp only [])
    | split
    | (intro e; first | rfl | (simp; done) | (split <;> simp))
    | with_reducible apply Calm.inner

theorem Ctl.portEnd_calm {c₀ c : Ctl} (hc₀ : Calm true c₀ c) (k : Env) (w : Requester) (a : PageAddr) (r : Option PageRead) :
    Calm true c₀ (c.portEnd k w a r) := by
  unfold Ctl.portEnd
  try simp only []
  repeat' first
    | with_reducible assumption
    | with_reducible apply Ctl.portReadEnd_calm
    | with_reducible apply Ctl.scanReadEnd_calm
    | with_reducible apply Ctl.prefetch_calm
    | with_reducible apply Ctl.prefetchEnd_calm
    | with_reducible apply Ctl.abandonedEnd_calm
    | split
    | (intro e; first | rfl | (simp; done) | (split <;> simp))
    | with_reducible apply Calm.outer

theorem Ctl.ownEnd_calm {b : Bool} {c₀ c : Ctl} (hc₀ : Calm b c₀ c) (k : Env) (w : Requester) (p : ProgramReq)
    (out : ProgramOut) : Calm b c₀ (c.ownEnd k w p out) := by
  unfold Ctl.ownEnd
  split
  · exact Ctl.sweepAll_calm (Ctl.rejudge_calm (Ctl.ownProgramEnd_calm hc₀ _ _ _ _ _ _) _ _) _
  · exact hc₀

theorem Ctl.tick_calm {c₀ c : Ctl} (hc₀ : Calm true c₀ c) :
    Calm true c₀ (c.tick) := by
  unfold Ctl.tick
  try simp only []
  repeat' first
    | with_reducible assumption
    | split
    | (intro e; first | rfl | (simp; done) | (split <;> simp))
    | with_reducible apply Calm.outer

end Sys2Proof.Machine
end

