-- ==== Sys2Proof/Laws/Commands.lean ====
section
/-!
SUPPORT. What the shared shapes of a command can do to the whole state, said once each: which fields they leave alone,
and that they are `Calm` when the controller's part is.
-/

namespace Sys2Proof.Machine

/-! ## Commands that change the controller alone -/

@[simp] theorem State.onCtl_pending (s : State) (f : Ctl → Env → Ctl) : (s.onCtl f).pending = s.pending := by
  unfold State.onCtl
  split <;> rfl

@[simp] theorem State.onCtl_env (s : State) (f : Ctl → Env → Ctl) : (s.onCtl f).env = s.env := by
  unfold State.onCtl
  split <;> rfl

@[simp] theorem State.onCtl_flash (s : State) (f : Ctl → Env → Ctl) : (s.onCtl f).flash = s.flash := by
  unfold State.onCtl
  split <;> rfl

/-- While RST# is low nothing happens (R56; log 5). -/
theorem State.onCtl_low (s : State) (f : Ctl → Env → Ctl) (h : s.env.rstLow = true) : s.onCtl f = s := by
  simp [State.onCtl, h]

/-- While RST# is high the controller changes as the command says. -/
theorem State.onCtl_high (s : State) (f : Ctl → Env → Ctl) (h : s.env.rstLow = false) :
    s.onCtl f = { s with ctl := f s.ctl s.env } := by
  simp [State.onCtl, h]

theorem State.onCtl_calm {w : Bool} (s : State) (f : Ctl → Env → Ctl) (hf : Calm w s.ctl (f s.ctl s.env)) :
    Calm w s.ctl (s.onCtl f).ctl := by
  unfold State.onCtl
  split
  · exact Calm.refl _
  · exact hf

@[simp] theorem State.onCtlFresh_pending (s : State) (f : Ctl → Env → Ctl) : (s.onCtlFresh f).pending = s.pending := by
  unfold State.onCtlFresh
  split <;> rfl

@[simp] theorem State.onCtlFresh_flash (s : State) (f : Ctl → Env → Ctl) : (s.onCtlFresh f).flash = s.flash := by
  unfold State.onCtlFresh
  split <;> rfl

theorem State.onCtlFresh_low (s : State) (f : Ctl → Env → Ctl) (h : s.env.rstLow = true) : s.onCtlFresh f = s := by
  simp [State.onCtlFresh, h]

theorem State.onCtlFresh_high (s : State) (f : Ctl → Env → Ctl) (h : s.env.rstLow = false) :
    s.onCtlFresh f = { s with env := { s.env with fresh := s.env.fresh + 1 }, ctl := f s.ctl s.env } := by
  simp [State.onCtlFresh, h]

theorem State.onCtlFresh_calm {w : Bool} (s : State) (f : Ctl → Env → Ctl) (hf : Calm w s.ctl (f s.ctl s.env)) :
    Calm w s.ctl (s.onCtlFresh f).ctl := by
  unfold State.onCtlFresh
  split
  · exact Calm.refl _
  · exact hf

/-! ## Completions of array operations -/

/-- The favour count after a grant of the arbiter's choice is 0 to 6 (R28). -/
theorem favourAfter_le {f : Nat} {l : List Request} {r : Request} (hf : f ≤ 6) (h : chooseRequest f l = some r) :
    favourAfter f r (l.any Request.low) ≤ 6 := by
  unfold favourAfter
  split
  · omega
  · rename_i hr
    split
    · rename_i hl
      by_cases h6 : f = 6
      · unfold chooseRequest at h
        simp only [h6, hl, decide_true, Bool.and_self, if_true] at h
        exact absurd (List.find?_some h) hr
      · omega
    · omega

/-- A unit set within its bound keeps the bounds. -/
theorem Ctl.setUnit_ok {c : Ctl} (h : c.Ok) (u : UnitNo) (x : UnitState) (hx : x.favour ≤ 6) : (c.setUnit u x).Ok := by
  refine ⟨h.1, h.2.1, h.2.2.1, fun i => ?_, h.2.2.2.2⟩
  simp only [Ctl.setUnit, vput_get]
  split
  · exact hx
  · exact h.2.2.2.1 i

theorem Ctl.setBusy_ok {c : Ctl} (h : c.Ok) (u : UnitNo) (r : Request) (queue : List Request) (lowWaits : Bool)
    (hf : favourAfter (c.units.get u).favour r lowWaits ≤ 6) : (c.setBusy u r queue lowWaits).Ok := by
  have h1 := Ctl.setUnit_ok h u
    { busy := some { req := r, data := c.requestBytes r }, queue := queue,
      favour := favourAfter (c.units.get u).favour r lowWaits } hf
  unfold Ctl.setBusy
  simp only []
  split
  · split
    · exact h1
    · exact (Ctl.raiseCount_calm (w := true) (Calm.refl _) _).ok h1
  · exact h1
  · exact h1
  · exact h1

theorem Ctl.completeAtGrant_ok {c : Ctl} (h : c.Ok) (u : UnitNo) (r : Request) (queue : List Request) (refused : Bool) :
    (c.completeAtGrant u r queue refused).Ok := by
  unfold Ctl.completeAtGrant
  have h1 : Ctl.Ok { c with completed := c.completed ++ [({ req := r, refused := refused } : Completion)] } := h
  exact Ctl.setUnit_ok h1 _ _ (h.2.2.2.1 u)

theorem Ctl.grant_ok {c : Ctl} (h : c.Ok) (u : UnitNo) (n : Nat) : (c.grant u n).Ok := by
  induction n generalizing c with
  | zero => exact h
  | succ n ih =>
    unfold Ctl.grant
    simp only []
    split
    · exact h
    · rename_i r hr
      split
      · exact ih (Ctl.completeAtGrant_ok h _ _ _ _)
      · split
        · exact ih ((Ctl.retire_calm (w := true) (Calm.refl _) _).ok (Ctl.completeAtGrant_ok h _ _ _ _))
        · exact Ctl.setBusy_ok h _ _ _ _ (favourAfter_le (h.2.2.2.1 u) hr)

/-- The arbiter keeps the bounds (R27 to R29). -/
theorem Ctl.arbitrate_ok {c : Ctl} (h : c.Ok) (u : UnitNo) : (c.arbitrate u).Ok := by
  unfold Ctl.arbitrate
  simp only []
  split
  · exact h
  · exact Ctl.grant_ok h _ _

theorem Ctl.takeBusy_eq {c : Ctl} {u : UnitNo} {p : Requester → Bool} {b : Busy} {d : Ctl}
    (h : c.takeBusy u p = some (b, d)) :
    (c.units.get u).busy = some b ∧ p b.req.who = true ∧ d = c.setUnit u { c.units.get u with busy := none } := by
  unfold Ctl.takeBusy at h
  split at h
  · simp at h
  · rename_i x hx
    split at h
    · rename_i hp
      simp only [Option.some.injEq, Prod.mk.injEq] at h
      obtain ⟨rfl, rfl⟩ := h
      exact ⟨hx, hp, rfl⟩
    · simp at h

theorem Ctl.takeBusy_ok {c d : Ctl} {u : UnitNo} {p : Requester → Bool} {b : Busy} (hc : c.Ok)
    (h : c.takeBusy u p = some (b, d)) : d.Ok := by
  rw [(Ctl.takeBusy_eq h).2.2]
  exact Ctl.setUnit_ok hc _ _ (hc.2.2.2.1 u)

theorem Ctl.takeCompleted_ok {c d : Ctl} {u : UnitNo} {p : Requester → Bool} {x : Completion} (hc : c.Ok)
    (h : c.takeCompleted u p = some (x, d)) : d.Ok :=
  (Ctl.takeCompleted_calm (Calm.refl c) h).ok hc

theorem Ctl.takeCompleted_eq {c : Ctl} {u : UnitNo} {p : Requester → Bool} {x : Completion} {d : Ctl}
    (h : c.takeCompleted u p = some (x, d)) :
    x ∈ c.completed ∧ x.req.unit = u ∧ p x.req.who = true ∧ d = { c with completed := c.completed.erase x } := by
  unfold Ctl.takeCompleted at h
  split at h
  · simp at h
  · rename_i y hy
    simp only [Option.some.injEq, Prod.mk.injEq] at h
    obtain ⟨rfl, rfl⟩ := h
    have hp := List.find?_some hy
    simp only [Bool.and_eq_true, beq_iff_eq] at hp
    exact ⟨List.mem_of_find?_eq_some hy, hp.1, hp.2, rfl⟩

/-- The three ways in which a page read's completion goes: it was not due, it was NOT-HELD, it was read. -/
theorem State.pageReadDone_cases (s : State) (u : UnitNo) (p : Requester → Bool) (r : ReadReport)
    (f : Ctl → Env → Requester → PageAddr → Option PageRead → Ctl) :
    s.pageReadDone u p r f = s ∨
    (∃ x c, s.ctl.takeCompleted u p = some (x, c) ∧
      s.pageReadDone u p r f = { s with ctl := f c s.env x.req.who x.req.pageOf none }) ∨
    (∃ b c, s.ctl.takeBusy u p = some (b, c) ∧
      s.pageReadDone u p r f =
        { s with env := { s.env with fresh := s.env.fresh + 1 },
                 flash := s.flash.afterRead b.req.pageOf r,
                 ctl := f c s.env b.req.who b.req.pageOf (some (s.flash.readPage b.req.pageOf r s.env.fresh)) }) := by
  unfold State.pageReadDone
  split
  · exact Or.inl rfl
  · split
    · rename_i x c h
      exact Or.inr (Or.inl ⟨x, c, h, rfl⟩)
    · split
      · exact Or.inl rfl
      · rename_i b c h
        exact Or.inr (Or.inr ⟨b, c, h, rfl⟩)

/-- A page read leaves the array as it was or keeps the bits in error that it found. -/
theorem State.pageReadDone_flash (s : State) (u : UnitNo) (p : Requester → Bool) (r : ReadReport)
    (f : Ctl → Env → Requester → PageAddr → Option PageRead → Ctl) :
    (s.pageReadDone u p r f).flash = s.flash ∨ ∃ a, (s.pageReadDone u p r f).flash = s.flash.afterRead a r := by
  rcases s.pageReadDone_cases u p r f with h | ⟨x, c, _, h⟩ | ⟨b, c, _, h⟩ <;> rw [h]
  · exact Or.inl rfl
  · exact Or.inl rfl
  · refine Or.inr ⟨b.req.pageOf, ?_⟩
    dsimp only

theorem State.pageReadDone_pending (s : State) (u : UnitNo) (p : Requester → Bool) (r : ReadReport)
    (f : Ctl → Env → Requester → PageAddr → Option PageRead → Ctl) : (s.pageReadDone u p r f).pending = s.pending := by
  rcases s.pageReadDone_cases u p r f with h | ⟨x, c, _, h⟩ | ⟨b, c, _, h⟩ <;> rw [h]

theorem State.pageReadDone_ok (s : State) (u : UnitNo) (p : Requester → Bool) (r : ReadReport)
    (f : Ctl → Env → Requester → PageAddr → Option PageRead → Ctl)
    (hc : s.ctl.Ok) (hf : ∀ c k w a x, c.Ok → (f c k w a x).Ok) :
    (s.pageReadDone u p r f).ctl.Ok := by
  rcases s.pageReadDone_cases u p r f with h | ⟨x, c, hx, h⟩ | ⟨b, c, hb, h⟩ <;> rw [h]
  · exact hc
  · exact hf _ _ _ _ _ (Ctl.takeCompleted_ok hc hx)
  · exact hf _ _ _ _ _ (Ctl.takeBusy_ok hc hb)

/-- The two ways in which a header read's completion goes. -/
theorem State.headerReadDone_cases (s : State) (u : UnitNo) (r : ReadReport) (f : Ctl → HeaderRead → Ctl) :
    s.headerReadDone u r f = s ∨
    (∃ b c, s.ctl.takeBusy u (fun w => decide (w = .mountHeader)) = some (b, c) ∧
      s.headerReadDone u r f =
        { s with env := { s.env with fresh := s.env.fresh + 1 },
                 flash := s.flash.afterHeaderRead b.req.pageOf r,
                 ctl := f c (s.flash.readHeader b.req.pageOf r s.env.fresh) }) := by
  unfold State.headerReadDone
  split
  · exact Or.inl rfl
  · split
    · exact Or.inl rfl
    · rename_i b c h
      exact Or.inr ⟨b, c, h, rfl⟩

theorem State.headerReadDone_ok (s : State) (u : UnitNo) (r : ReadReport) (f : Ctl → HeaderRead → Ctl)
    (hc : s.ctl.Ok) (hf : ∀ c h, c.Ok → (f c h).Ok) : (s.headerReadDone u r f).ctl.Ok := by
  rcases s.headerReadDone_cases u r f with h | ⟨b, c, hb, h⟩ <;> rw [h]
  · exact hc
  · exact hf _ _ (Ctl.takeBusy_ok hc hb)

/-- The three ways in which a program's completion goes: it was not due, it had completed at its grant, it was carried
out. -/
theorem State.programDone_cases (s : State) (u : UnitNo) (p : Requester → Bool) (r : ProgramReport)
    (f : Ctl → Env → Requester → ProgramReq → ProgramOut → Ctl) :
    s.programDone u p r f = s ∨
    (∃ x c q, s.ctl.takeCompleted u p = some (x, c) ∧ x.req.op = .program q ∧
      s.programDone u p r f =
        { s with ctl := f c s.env x.req.who q (if x.refused then .fail else .notHeld) }) ∨
    (∃ b c q, s.ctl.takeBusy u p = some (b, c) ∧ b.req.op = .program q ∧
      s.programDone u p r f =
        { s with env := { s.env with fresh := s.env.fresh + 1 },
                 flash := s.flash.afterProgram q b.data r s.env.fresh,
                 ctl := f c s.env b.req.who q (Sys2Proof.Machine.programOut r) }) := by
  unfold State.programDone
  split
  · exact Or.inl rfl
  · split
    · rename_i x c h
      split
      · rename_i q hq
        exact Or.inr (Or.inl ⟨x, c, q, h, hq, rfl⟩)
      · exact Or.inl rfl
    · split
      · exact Or.inl rfl
      · rename_i b c h
        split
        · rename_i q hq
          exact Or.inr (Or.inr ⟨b, c, q, h, hq, rfl⟩)
        · exact Or.inl rfl

theorem State.programDone_ok (s : State) (u : UnitNo) (p : Requester → Bool) (r : ProgramReport)
    (f : Ctl → Env → Requester → ProgramReq → ProgramOut → Ctl)
    (hc : s.ctl.Ok) (hf : ∀ c k w q o, c.Ok → (f c k w q o).Ok) :
    (s.programDone u p r f).ctl.Ok := by
  rcases s.programDone_cases u p r f with h | ⟨x, c, q, hx, _, h⟩ | ⟨b, c, q, hb, _, h⟩ <;> rw [h]
  · exact hc
  · exact hf _ _ _ _ _ (Ctl.takeCompleted_ok hc hx)
  · exact hf _ _ _ _ _ (Ctl.takeBusy_ok hc hb)

theorem State.programDone_flash (s : State) (u : UnitNo) (p : Requester → Bool) (r : ProgramReport)
    (f : Ctl → Env → Requester → ProgramReq → ProgramOut → Ctl) :
    (s.programDone u p r f).flash = s.flash ∨
    ∃ b q, (s.ctl.units.get u).busy = some b ∧ b.req.op = .program q ∧
      (s.programDone u p r f).flash = s.flash.afterProgram q b.data r s.env.fresh := by
  rcases s.programDone_cases u p r f with h | ⟨x, c, q, hx, _, h⟩ | ⟨b, c, q, hb, hq, h⟩
  · exact Or.inl (by rw [h])
  · exact Or.inl (by rw [h])
  · exact Or.inr ⟨b, q, (Ctl.takeBusy_eq hb).1, hq, by rw [h]⟩

/-- The two ways in which an erase's completion goes. -/
theorem State.eraseDone_cases (s : State) (u : UnitNo) (p : Requester → Bool) (r : EraseReport)
    (f : Ctl → Nat → Bool → Ctl) :
    s.eraseDone u p r f = s ∨
    (∃ b c, s.ctl.takeBusy u p = some (b, c) ∧
      s.eraseDone u p r f =
        { s with env := { s.env with fresh := s.env.fresh + 1 },
                 flash := s.flash.afterErase b.req.op.block r s.env.fresh,
                 ctl := f c b.req.op.block (Sys2Proof.Machine.erasePassed r) }) := by
  unfold State.eraseDone
  split
  · exact Or.inl rfl
  · split
    · exact Or.inl rfl
    · rename_i b c h
      exact Or.inr ⟨b, c, h, rfl⟩

theorem State.eraseDone_ok (s : State) (u : UnitNo) (p : Requester → Bool) (r : EraseReport)
    (f : Ctl → Nat → Bool → Ctl) (hc : s.ctl.Ok) (hf : ∀ c b x, c.Ok → (f c b x).Ok) :
    (s.eraseDone u p r f).ctl.Ok := by
  rcases s.eraseDone_cases u p r f with h | ⟨b, c, hb, h⟩ <;> rw [h]
  · exact hc
  · exact hf _ _ _ (Ctl.takeBusy_ok hc hb)

/-! ## Resets -/

/-- The controller right after a hard reset keeps every bound. -/
theorem Ctl.reset_ok : Ctl.reset.Ok := by
  refine ⟨⟨List.Pairwise.nil, by simp [Ctl.reset]⟩, ⟨by decide, by decide, by decide, by simp [Ctl.reset]⟩,
    ⟨by decide, by decide⟩, fun i => ?_, ⟨by decide, fun p => by simp [Ctl.reset, countOf]⟩⟩
  fin_cases i <;> simp [Ctl.reset, UnitState.reset]

/-- The first requests of the mount scan are `Calm`. -/
theorem Ctl.releaseReset_calm (c : Ctl) : Calm true c c.beginMount := Ctl.beginMount_calm (Calm.refl c)

theorem State.powerFail_calm (s : State) : Calm true s.ctl s.powerFail.ctl := by
  unfold State.powerFail
  simp only []
  split
  · dsimp only
    exact Ctl.enterLeaving_calm (Calm.refl _) _
  · exact Calm.refl _

theorem State.powerGood_calm (s : State) : Calm true s.ctl s.powerGood.ctl := by
  unfold State.powerGood
  simp only []
  split
  · dsimp only
    exact Ctl.rejoin_calm (Calm.refl _) _
  · exact Calm.refl _

theorem State.tick_calm (s : State) : Calm true s.ctl s.tick.ctl := by
  unfold State.tick
  split
  · exact Calm.refl _
  · dsimp only
    exact Ctl.tick_calm (Calm.refl _)

end Sys2Proof.Machine
end

