-- ==== Sys2Proof/Laws/Shapes.lean ====
section
/-!
SUPPORT. Which fields the composite updates of the controller may change: one shape lemma each, and for every other
field that it stays.
-/

namespace Sys2Proof.Machine

/-! ### startReadBack -/

theorem Ctl.startReadBack_shape (c : Ctl) (k : Env) :
    ∃ (units' : Vector UnitState 2) (readBack' : ReadBack),
      c.startReadBack k = { c with units := units', readBack := readBack' } := by
  unfold Ctl.startReadBack
  repeat' split
  all_goals exact ⟨_, _, rfl⟩

@[simp] theorem Ctl.startReadBack_station (c : Ctl) (k : Env) : (c.startReadBack k).station = c.station := by
  obtain ⟨_, _, h⟩ := c.startReadBack_shape k; rw [h]

@[simp] theorem Ctl.startReadBack_window (c : Ctl) (k : Env) : (c.startReadBack k).window = c.window := by
  obtain ⟨_, _, h⟩ := c.startReadBack_shape k; rw [h]

@[simp] theorem Ctl.startReadBack_firstWindow (c : Ctl) (k : Env) :
    (c.startReadBack k).firstWindow = c.firstWindow := by
  obtain ⟨_, _, h⟩ := c.startReadBack_shape k; rw [h]

@[simp] theorem Ctl.startReadBack_presence (c : Ctl) (k : Env) : (c.startReadBack k).presence = c.presence := by
  obtain ⟨_, _, h⟩ := c.startReadBack_shape k; rw [h]

@[simp] theorem Ctl.startReadBack_gen (c : Ctl) (k : Env) : (c.startReadBack k).gen = c.gen := by
  obtain ⟨_, _, h⟩ := c.startReadBack_shape k; rw [h]

@[simp] theorem Ctl.startReadBack_ownMark (c : Ctl) (k : Env) : (c.startReadBack k).ownMark = c.ownMark := by
  obtain ⟨_, _, h⟩ := c.startReadBack_shape k; rw [h]

@[simp] theorem Ctl.startReadBack_nextSeq (c : Ctl) (k : Env) : (c.startReadBack k).nextSeq = c.nextSeq := by
  obtain ⟨_, _, h⟩ := c.startReadBack_shape k; rw [h]

@[simp] theorem Ctl.startReadBack_frontier (c : Ctl) (k : Env) : (c.startReadBack k).frontier = c.frontier := by
  obtain ⟨_, _, h⟩ := c.startReadBack_shape k; rw [h]

@[simp] theorem Ctl.startReadBack_mark (c : Ctl) (k : Env) : (c.startReadBack k).mark = c.mark := by
  obtain ⟨_, _, h⟩ := c.startReadBack_shape k; rw [h]

@[simp] theorem Ctl.startReadBack_mount (c : Ctl) (k : Env) : (c.startReadBack k).mount = c.mount := by
  obtain ⟨_, _, h⟩ := c.startReadBack_shape k; rw [h]

@[simp] theorem Ctl.startReadBack_completed (c : Ctl) (k : Env) : (c.startReadBack k).completed = c.completed := by
  obtain ⟨_, _, h⟩ := c.startReadBack_shape k; rw [h]

@[simp] theorem Ctl.startReadBack_blocks (c : Ctl) (k : Env) : (c.startReadBack k).blocks = c.blocks := by
  obtain ⟨_, _, h⟩ := c.startReadBack_shape k; rw [h]

@[simp] theorem Ctl.startReadBack_pool (c : Ctl) (k : Env) : (c.startReadBack k).pool = c.pool := by
  obtain ⟨_, _, h⟩ := c.startReadBack_shape k; rw [h]

@[simp] theorem Ctl.startReadBack_dir (c : Ctl) (k : Env) : (c.startReadBack k).dir = c.dir := by
  obtain ⟨_, _, h⟩ := c.startReadBack_shape k; rw [h]

@[simp] theorem Ctl.startReadBack_fill (c : Ctl) (k : Env) : (c.startReadBack k).fill = c.fill := by
  obtain ⟨_, _, h⟩ := c.startReadBack_shape k; rw [h]

@[simp] theorem Ctl.startReadBack_et (c : Ctl) (k : Env) : (c.startReadBack k).et = c.et := by
  obtain ⟨_, _, h⟩ := c.startReadBack_shape k; rw [h]

@[simp] theorem Ctl.startReadBack_owed (c : Ctl) (k : Env) : (c.startReadBack k).owed = c.owed := by
  obtain ⟨_, _, h⟩ := c.startReadBack_shape k; rw [h]

@[simp] theorem Ctl.startReadBack_rx (c : Ctl) (k : Env) : (c.startReadBack k).rx = c.rx := by
  obtain ⟨_, _, h⟩ := c.startReadBack_shape k; rw [h]

@[simp] theorem Ctl.startReadBack_rxNext (c : Ctl) (k : Env) : (c.startReadBack k).rxNext = c.rxNext := by
  obtain ⟨_, _, h⟩ := c.startReadBack_shape k; rw [h]

@[simp] theorem Ctl.startReadBack_tx (c : Ctl) (k : Env) : (c.startReadBack k).tx = c.tx := by
  obtain ⟨_, _, h⟩ := c.startReadBack_shape k; rw [h]

@[simp] theorem Ctl.startReadBack_peers (c : Ctl) (k : Env) : (c.startReadBack k).peers = c.peers := by
  obtain ⟨_, _, h⟩ := c.startReadBack_shape k; rw [h]

@[simp] theorem Ctl.startReadBack_jobs (c : Ctl) (k : Env) : (c.startReadBack k).jobs = c.jobs := by
  obtain ⟨_, _, h⟩ := c.startReadBack_shape k; rw [h]

@[simp] theorem Ctl.startReadBack_catchUps (c : Ctl) (k : Env) : (c.startReadBack k).catchUps = c.catchUps := by
  obtain ⟨_, _, h⟩ := c.startReadBack_shape k; rw [h]

@[simp] theorem Ctl.startReadBack_repair (c : Ctl) (k : Env) : (c.startReadBack k).repair = c.repair := by
  obtain ⟨_, _, h⟩ := c.startReadBack_shape k; rw [h]

@[simp] theorem Ctl.startReadBack_recheck (c : Ctl) (k : Env) : (c.startReadBack k).recheck = c.recheck := by
  obtain ⟨_, _, h⟩ := c.startReadBack_shape k; rw [h]

@[simp] theorem Ctl.startReadBack_holdings (c : Ctl) (k : Env) : (c.startReadBack k).holdings = c.holdings := by
  obtain ⟨_, _, h⟩ := c.startReadBack_shape k; rw [h]

@[simp] theorem Ctl.startReadBack_port (c : Ctl) (k : Env) : (c.startReadBack k).port = c.port := by
  obtain ⟨_, _, h⟩ := c.startReadBack_shape k; rw [h]

@[simp] theorem Ctl.startReadBack_pair (c : Ctl) (k : Env) : (c.startReadBack k).pair = c.pair := by
  obtain ⟨_, _, h⟩ := c.startReadBack_shape k; rw [h]

@[simp] theorem Ctl.startReadBack_scan (c : Ctl) (k : Env) : (c.startReadBack k).scan = c.scan := by
  obtain ⟨_, _, h⟩ := c.startReadBack_shape k; rw [h]

@[simp] theorem Ctl.startReadBack_alerts (c : Ctl) (k : Env) : (c.startReadBack k).alerts = c.alerts := by
  obtain ⟨_, _, h⟩ := c.startReadBack_shape k; rw [h]

/-! ### sweepReadBack -/

theorem Ctl.sweepReadBack_shape (c : Ctl) (k : Env) :
    ∃ (units' : Vector UnitState 2) (readBack' : ReadBack),
      c.sweepReadBack k = { c with units := units', readBack := readBack' } := by
  unfold Ctl.sweepReadBack
  split
  · obtain ⟨u, r, h⟩ :=
      Ctl.startReadBack_shape { c with readBack := { c.readBack with page := none, image := [] } } k
    exact ⟨u, r, h⟩
  · exact c.startReadBack_shape k

@[simp] theorem Ctl.sweepReadBack_station (c : Ctl) (k : Env) : (c.sweepReadBack k).station = c.station := by
  obtain ⟨_, _, h⟩ := c.sweepReadBack_shape k; rw [h]

@[simp] theorem Ctl.sweepReadBack_window (c : Ctl) (k : Env) : (c.sweepReadBack k).window = c.window := by
  obtain ⟨_, _, h⟩ := c.sweepReadBack_shape k; rw [h]

@[simp] theorem Ctl.sweepReadBack_firstWindow (c : Ctl) (k : Env) :
    (c.sweepReadBack k).firstWindow = c.firstWindow := by
  obtain ⟨_, _, h⟩ := c.sweepReadBack_shape k; rw [h]

@[simp] theorem Ctl.sweepReadBack_presence (c : Ctl) (k : Env) : (c.sweepReadBack k).presence = c.presence := by
  obtain ⟨_, _, h⟩ := c.sweepReadBack_shape k; rw [h]

@[simp] theorem Ctl.sweepReadBack_gen (c : Ctl) (k : Env) : (c.sweepReadBack k).gen = c.gen := by
  obtain ⟨_, _, h⟩ := c.sweepReadBack_shape k; rw [h]

@[simp] theorem Ctl.sweepReadBack_ownMark (c : Ctl) (k : Env) : (c.sweepReadBack k).ownMark = c.ownMark := by
  obtain ⟨_, _, h⟩ := c.sweepReadBack_shape k; rw [h]

@[simp] theorem Ctl.sweepReadBack_nextSeq (c : Ctl) (k : Env) : (c.sweepReadBack k).nextSeq = c.nextSeq := by
  obtain ⟨_, _, h⟩ := c.sweepReadBack_shape k; rw [h]

@[simp] theorem Ctl.sweepReadBack_frontier (c : Ctl) (k : Env) : (c.sweepReadBack k).frontier = c.frontier := by
  obtain ⟨_, _, h⟩ := c.sweepReadBack_shape k; rw [h]

@[simp] theorem Ctl.sweepReadBack_mark (c : Ctl) (k : Env) : (c.sweepReadBack k).mark = c.mark := by
  obtain ⟨_, _, h⟩ := c.sweepReadBack_shape k; rw [h]

@[simp] theorem Ctl.sweepReadBack_mount (c : Ctl) (k : Env) : (c.sweepReadBack k).mount = c.mount := by
  obtain ⟨_, _, h⟩ := c.sweepReadBack_shape k; rw [h]

@[simp] theorem Ctl.sweepReadBack_completed (c : Ctl) (k : Env) : (c.sweepReadBack k).completed = c.completed := by
  obtain ⟨_, _, h⟩ := c.sweepReadBack_shape k; rw [h]

@[simp] theorem Ctl.sweepReadBack_blocks (c : Ctl) (k : Env) : (c.sweepReadBack k).blocks = c.blocks := by
  obtain ⟨_, _, h⟩ := c.sweepReadBack_shape k; rw [h]

@[simp] theorem Ctl.sweepReadBack_pool (c : Ctl) (k : Env) : (c.sweepReadBack k).pool = c.pool := by
  obtain ⟨_, _, h⟩ := c.sweepReadBack_shape k; rw [h]

@[simp] theorem Ctl.sweepReadBack_dir (c : Ctl) (k : Env) : (c.sweepReadBack k).dir = c.dir := by
  obtain ⟨_, _, h⟩ := c.sweepReadBack_shape k; rw [h]

@[simp] theorem Ctl.sweepReadBack_fill (c : Ctl) (k : Env) : (c.sweepReadBack k).fill = c.fill := by
  obtain ⟨_, _, h⟩ := c.sweepReadBack_shape k; rw [h]

@[simp] theorem Ctl.sweepReadBack_et (c : Ctl) (k : Env) : (c.sweepReadBack k).et = c.et := by
  obtain ⟨_, _, h⟩ := c.sweepReadBack_shape k; rw [h]

@[simp] theorem Ctl.sweepReadBack_owed (c : Ctl) (k : Env) : (c.sweepReadBack k).owed = c.owed := by
  obtain ⟨_, _, h⟩ := c.sweepReadBack_shape k; rw [h]

@[simp] theorem Ctl.sweepReadBack_rx (c : Ctl) (k : Env) : (c.sweepReadBack k).rx = c.rx := by
  obtain ⟨_, _, h⟩ := c.sweepReadBack_shape k; rw [h]

@[simp] theorem Ctl.sweepReadBack_rxNext (c : Ctl) (k : Env) : (c.sweepReadBack k).rxNext = c.rxNext := by
  obtain ⟨_, _, h⟩ := c.sweepReadBack_shape k; rw [h]

@[simp] theorem Ctl.sweepReadBack_tx (c : Ctl) (k : Env) : (c.sweepReadBack k).tx = c.tx := by
  obtain ⟨_, _, h⟩ := c.sweepReadBack_shape k; rw [h]

@[simp] theorem Ctl.sweepReadBack_peers (c : Ctl) (k : Env) : (c.sweepReadBack k).peers = c.peers := by
  obtain ⟨_, _, h⟩ := c.sweepReadBack_shape k; rw [h]

@[simp] theorem Ctl.sweepReadBack_jobs (c : Ctl) (k : Env) : (c.sweepReadBack k).jobs = c.jobs := by
  obtain ⟨_, _, h⟩ := c.sweepReadBack_shape k; rw [h]

@[simp] theorem Ctl.sweepReadBack_catchUps (c : Ctl) (k : Env) : (c.sweepReadBack k).catchUps = c.catchUps := by
  obtain ⟨_, _, h⟩ := c.sweepReadBack_shape k; rw [h]

@[simp] theorem Ctl.sweepReadBack_repair (c : Ctl) (k : Env) : (c.sweepReadBack k).repair = c.repair := by
  obtain ⟨_, _, h⟩ := c.sweepReadBack_shape k; rw [h]

@[simp] theorem Ctl.sweepReadBack_recheck (c : Ctl) (k : Env) : (c.sweepReadBack k).recheck = c.recheck := by
  obtain ⟨_, _, h⟩ := c.sweepReadBack_shape k; rw [h]

@[simp] theorem Ctl.sweepReadBack_holdings (c : Ctl) (k : Env) : (c.sweepReadBack k).holdings = c.holdings := by
  obtain ⟨_, _, h⟩ := c.sweepReadBack_shape k; rw [h]

@[simp] theorem Ctl.sweepReadBack_port (c : Ctl) (k : Env) : (c.sweepReadBack k).port = c.port := by
  obtain ⟨_, _, h⟩ := c.sweepReadBack_shape k; rw [h]

@[simp] theorem Ctl.sweepReadBack_pair (c : Ctl) (k : Env) : (c.sweepReadBack k).pair = c.pair := by
  obtain ⟨_, _, h⟩ := c.sweepReadBack_shape k; rw [h]

@[simp] theorem Ctl.sweepReadBack_scan (c : Ctl) (k : Env) : (c.sweepReadBack k).scan = c.scan := by
  obtain ⟨_, _, h⟩ := c.sweepReadBack_shape k; rw [h]

@[simp] theorem Ctl.sweepReadBack_alerts (c : Ctl) (k : Env) : (c.sweepReadBack k).alerts = c.alerts := by
  obtain ⟨_, _, h⟩ := c.sweepReadBack_shape k; rw [h]

/-! ### sweepFill -/

theorem Ctl.sweepFill_shape (c : Ctl) (k : Env) :
    ∃ (fill' : Vector (Option FillPage) 2),
      c.sweepFill k = { c with fill := fill' } := by
  unfold Ctl.sweepFill
  simp only []
  repeat' split
  all_goals exact ⟨_, rfl⟩

@[simp] theorem Ctl.sweepFill_station (c : Ctl) (k : Env) : (c.sweepFill k).station = c.station := by
  obtain ⟨_, h⟩ := c.sweepFill_shape k; rw [h]

@[simp] theorem Ctl.sweepFill_window (c : Ctl) (k : Env) : (c.sweepFill k).window = c.window := by
  obtain ⟨_, h⟩ := c.sweepFill_shape k; rw [h]

@[simp] theorem Ctl.sweepFill_firstWindow (c : Ctl) (k : Env) : (c.sweepFill k).firstWindow = c.firstWindow := by
  obtain ⟨_, h⟩ := c.sweepFill_shape k; rw [h]

@[simp] theorem Ctl.sweepFill_presence (c : Ctl) (k : Env) : (c.sweepFill k).presence = c.presence := by
  obtain ⟨_, h⟩ := c.sweepFill_shape k; rw [h]

@[simp] theorem Ctl.sweepFill_gen (c : Ctl) (k : Env) : (c.sweepFill k).gen = c.gen := by
  obtain ⟨_, h⟩ := c.sweepFill_shape k; rw [h]

@[simp] theorem Ctl.sweepFill_ownMark (c : Ctl) (k : Env) : (c.sweepFill k).ownMark = c.ownMark := by
  obtain ⟨_, h⟩ := c.sweepFill_shape k; rw [h]

@[simp] theorem Ctl.sweepFill_nextSeq (c : Ctl) (k : Env) : (c.sweepFill k).nextSeq = c.nextSeq := by
  obtain ⟨_, h⟩ := c.sweepFill_shape k; rw [h]

@[simp] theorem Ctl.sweepFill_frontier (c : Ctl) (k : Env) : (c.sweepFill k).frontier = c.frontier := by
  obtain ⟨_, h⟩ := c.sweepFill_shape k; rw [h]

@[simp] theorem Ctl.sweepFill_mark (c : Ctl) (k : Env) : (c.sweepFill k).mark = c.mark := by
  obtain ⟨_, h⟩ := c.sweepFill_shape k; rw [h]

@[simp] theorem Ctl.sweepFill_mount (c : Ctl) (k : Env) : (c.sweepFill k).mount = c.mount := by
  obtain ⟨_, h⟩ := c.sweepFill_shape k; rw [h]

@[simp] theorem Ctl.sweepFill_units (c : Ctl) (k : Env) : (c.sweepFill k).units = c.units := by
  obtain ⟨_, h⟩ := c.sweepFill_shape k; rw [h]

@[simp] theorem Ctl.sweepFill_completed (c : Ctl) (k : Env) : (c.sweepFill k).completed = c.completed := by
  obtain ⟨_, h⟩ := c.sweepFill_shape k; rw [h]

@[simp] theorem Ctl.sweepFill_blocks (c : Ctl) (k : Env) : (c.sweepFill k).blocks = c.blocks := by
  obtain ⟨_, h⟩ := c.sweepFill_shape k; rw [h]

@[simp] theorem Ctl.sweepFill_pool (c : Ctl) (k : Env) : (c.sweepFill k).pool = c.pool := by
  obtain ⟨_, h⟩ := c.sweepFill_shape k; rw [h]

@[simp] theorem Ctl.sweepFill_dir (c : Ctl) (k : Env) : (c.sweepFill k).dir = c.dir := by
  obtain ⟨_, h⟩ := c.sweepFill_shape k; rw [h]

@[simp] theorem Ctl.sweepFill_et (c : Ctl) (k : Env) : (c.sweepFill k).et = c.et := by
  obtain ⟨_, h⟩ := c.sweepFill_shape k; rw [h]

@[simp] theorem Ctl.sweepFill_owed (c : Ctl) (k : Env) : (c.sweepFill k).owed = c.owed := by
  obtain ⟨_, h⟩ := c.sweepFill_shape k; rw [h]

@[simp] theorem Ctl.sweepFill_readBack (c : Ctl) (k : Env) : (c.sweepFill k).readBack = c.readBack := by
  obtain ⟨_, h⟩ := c.sweepFill_shape k; rw [h]

@[simp] theorem Ctl.sweepFill_rx (c : Ctl) (k : Env) : (c.sweepFill k).rx = c.rx := by
  obtain ⟨_, h⟩ := c.sweepFill_shape k; rw [h]

@[simp] theorem Ctl.sweepFill_rxNext (c : Ctl) (k : Env) : (c.sweepFill k).rxNext = c.rxNext := by
  obtain ⟨_, h⟩ := c.sweepFill_shape k; rw [h]

@[simp] theorem Ctl.sweepFill_tx (c : Ctl) (k : Env) : (c.sweepFill k).tx = c.tx := by
  obtain ⟨_, h⟩ := c.sweepFill_shape k; rw [h]

@[simp] theorem Ctl.sweepFill_peers (c : Ctl) (k : Env) : (c.sweepFill k).peers = c.peers := by
  obtain ⟨_, h⟩ := c.sweepFill_shape k; rw [h]

@[simp] theorem Ctl.sweepFill_jobs (c : Ctl) (k : Env) : (c.sweepFill k).jobs = c.jobs := by
  obtain ⟨_, h⟩ := c.sweepFill_shape k; rw [h]

@[simp] theorem Ctl.sweepFill_catchUps (c : Ctl) (k : Env) : (c.sweepFill k).catchUps = c.catchUps := by
  obtain ⟨_, h⟩ := c.sweepFill_shape k; rw [h]

@[simp] theorem Ctl.sweepFill_repair (c : Ctl) (k : Env) : (c.sweepFill k).repair = c.repair := by
  obtain ⟨_, h⟩ := c.sweepFill_shape k; rw [h]

@[simp] theorem Ctl.sweepFill_recheck (c : Ctl) (k : Env) : (c.sweepFill k).recheck = c.recheck := by
  obtain ⟨_, h⟩ := c.sweepFill_shape k; rw [h]

@[simp] theorem Ctl.sweepFill_holdings (c : Ctl) (k : Env) : (c.sweepFill k).holdings = c.holdings := by
  obtain ⟨_, h⟩ := c.sweepFill_shape k; rw [h]

@[simp] theorem Ctl.sweepFill_port (c : Ctl) (k : Env) : (c.sweepFill k).port = c.port := by
  obtain ⟨_, h⟩ := c.sweepFill_shape k; rw [h]

@[simp] theorem Ctl.sweepFill_pair (c : Ctl) (k : Env) : (c.sweepFill k).pair = c.pair := by
  obtain ⟨_, h⟩ := c.sweepFill_shape k; rw [h]

@[simp] theorem Ctl.sweepFill_scan (c : Ctl) (k : Env) : (c.sweepFill k).scan = c.scan := by
  obtain ⟨_, h⟩ := c.sweepFill_shape k; rw [h]

@[simp] theorem Ctl.sweepFill_alerts (c : Ctl) (k : Env) : (c.sweepFill k).alerts = c.alerts := by
  obtain ⟨_, h⟩ := c.sweepFill_shape k; rw [h]

/-! ### sweep -/

theorem Ctl.sweep_shape (c : Ctl) (k : Env) :
    ∃ (units' : Vector UnitState 2) (fill' : Vector (Option FillPage) 2) (readBack' : ReadBack),
      c.sweep k = { c with units := units', fill := fill', readBack := readBack' } := by
  obtain ⟨u, r, h1⟩ := c.sweepReadBack_shape k
  obtain ⟨f, h2⟩ := (c.sweepReadBack k).sweepFill_shape k
  exact ⟨u, f, r, by rw [Ctl.sweep, h2, h1]⟩

@[simp] theorem Ctl.sweep_station (c : Ctl) (k : Env) : (c.sweep k).station = c.station := by
  obtain ⟨_, _, _, h⟩ := c.sweep_shape k; rw [h]

@[simp] theorem Ctl.sweep_window (c : Ctl) (k : Env) : (c.sweep k).window = c.window := by
  obtain ⟨_, _, _, h⟩ := c.sweep_shape k; rw [h]

@[simp] theorem Ctl.sweep_firstWindow (c : Ctl) (k : Env) : (c.sweep k).firstWindow = c.firstWindow := by
  obtain ⟨_, _, _, h⟩ := c.sweep_shape k; rw [h]

@[simp] theorem Ctl.sweep_presence (c : Ctl) (k : Env) : (c.sweep k).presence = c.presence := by
  obtain ⟨_, _, _, h⟩ := c.sweep_shape k; rw [h]

@[simp] theorem Ctl.sweep_gen (c : Ctl) (k : Env) : (c.sweep k).gen = c.gen := by
  obtain ⟨_, _, _, h⟩ := c.sweep_shape k; rw [h]

@[simp] theorem Ctl.sweep_ownMark (c : Ctl) (k : Env) : (c.sweep k).ownMark = c.ownMark := by
  obtain ⟨_, _, _, h⟩ := c.sweep_shape k; rw [h]

@[simp] theorem Ctl.sweep_nextSeq (c : Ctl) (k : Env) : (c.sweep k).nextSeq = c.nextSeq := by
  obtain ⟨_, _, _, h⟩ := c.sweep_shape k; rw [h]

@[simp] theorem Ctl.sweep_frontier (c : Ctl) (k : Env) : (c.sweep k).frontier = c.frontier := by
  obtain ⟨_, _, _, h⟩ := c.sweep_shape k; rw [h]

@[simp] theorem Ctl.sweep_mark (c : Ctl) (k : Env) : (c.sweep k).mark = c.mark := by
  obtain ⟨_, _, _, h⟩ := c.sweep_shape k; rw [h]

@[simp] theorem Ctl.sweep_mount (c : Ctl) (k : Env) : (c.sweep k).mount = c.mount := by
  obtain ⟨_, _, _, h⟩ := c.sweep_shape k; rw [h]

@[simp] theorem Ctl.sweep_completed (c : Ctl) (k : Env) : (c.sweep k).completed = c.completed := by
  obtain ⟨_, _, _, h⟩ := c.sweep_shape k; rw [h]

@[simp] theorem Ctl.sweep_blocks (c : Ctl) (k : Env) : (c.sweep k).blocks = c.blocks := by
  obtain ⟨_, _, _, h⟩ := c.sweep_shape k; rw [h]

@[simp] theorem Ctl.sweep_pool (c : Ctl) (k : Env) : (c.sweep k).pool = c.pool := by
  obtain ⟨_, _, _, h⟩ := c.sweep_shape k; rw [h]

@[simp] theorem Ctl.sweep_dir (c : Ctl) (k : Env) : (c.sweep k).dir = c.dir := by
  obtain ⟨_, _, _, h⟩ := c.sweep_shape k; rw [h]

@[simp] theorem Ctl.sweep_et (c : Ctl) (k : Env) : (c.sweep k).et = c.et := by
  obtain ⟨_, _, _, h⟩ := c.sweep_shape k; rw [h]

@[simp] theorem Ctl.sweep_owed (c : Ctl) (k : Env) : (c.sweep k).owed = c.owed := by
  obtain ⟨_, _, _, h⟩ := c.sweep_shape k; rw [h]

@[simp] theorem Ctl.sweep_rx (c : Ctl) (k : Env) : (c.sweep k).rx = c.rx := by
  obtain ⟨_, _, _, h⟩ := c.sweep_shape k; rw [h]

@[simp] theorem Ctl.sweep_rxNext (c : Ctl) (k : Env) : (c.sweep k).rxNext = c.rxNext := by
  obtain ⟨_, _, _, h⟩ := c.sweep_shape k; rw [h]

@[simp] theorem Ctl.sweep_tx (c : Ctl) (k : Env) : (c.sweep k).tx = c.tx := by
  obtain ⟨_, _, _, h⟩ := c.sweep_shape k; rw [h]

@[simp] theorem Ctl.sweep_peers (c : Ctl) (k : Env) : (c.sweep k).peers = c.peers := by
  obtain ⟨_, _, _, h⟩ := c.sweep_shape k; rw [h]

@[simp] theorem Ctl.sweep_jobs (c : Ctl) (k : Env) : (c.sweep k).jobs = c.jobs := by
  obtain ⟨_, _, _, h⟩ := c.sweep_shape k; rw [h]

@[simp] theorem Ctl.sweep_catchUps (c : Ctl) (k : Env) : (c.sweep k).catchUps = c.catchUps := by
  obtain ⟨_, _, _, h⟩ := c.sweep_shape k; rw [h]

@[simp] theorem Ctl.sweep_repair (c : Ctl) (k : Env) : (c.sweep k).repair = c.repair := by
  obtain ⟨_, _, _, h⟩ := c.sweep_shape k; rw [h]

@[simp] theorem Ctl.sweep_recheck (c : Ctl) (k : Env) : (c.sweep k).recheck = c.recheck := by
  obtain ⟨_, _, _, h⟩ := c.sweep_shape k; rw [h]

@[simp] theorem Ctl.sweep_holdings (c : Ctl) (k : Env) : (c.sweep k).holdings = c.holdings := by
  obtain ⟨_, _, _, h⟩ := c.sweep_shape k; rw [h]

@[simp] theorem Ctl.sweep_port (c : Ctl) (k : Env) : (c.sweep k).port = c.port := by
  obtain ⟨_, _, _, h⟩ := c.sweep_shape k; rw [h]

@[simp] theorem Ctl.sweep_pair (c : Ctl) (k : Env) : (c.sweep k).pair = c.pair := by
  obtain ⟨_, _, _, h⟩ := c.sweep_shape k; rw [h]

@[simp] theorem Ctl.sweep_scan (c : Ctl) (k : Env) : (c.sweep k).scan = c.scan := by
  obtain ⟨_, _, _, h⟩ := c.sweep_shape k; rw [h]

@[simp] theorem Ctl.sweep_alerts (c : Ctl) (k : Env) : (c.sweep k).alerts = c.alerts := by
  obtain ⟨_, _, _, h⟩ := c.sweep_shape k; rw [h]

/-! ### requestRecheck -/

theorem Ctl.requestRecheck_shape (c : Ctl) :
    ∃ (repair' : List Task),
      c.requestRecheck = { c with repair := repair' } := by
  unfold Ctl.requestRecheck
  split
  all_goals exact ⟨_, rfl⟩

@[simp] theorem Ctl.requestRecheck_station (c : Ctl) : (c.requestRecheck).station = c.station := by
  obtain ⟨_, h⟩ := c.requestRecheck_shape; rw [h]

@[simp] theorem Ctl.requestRecheck_window (c : Ctl) : (c.requestRecheck).window = c.window := by
  obtain ⟨_, h⟩ := c.requestRecheck_shape; rw [h]

@[simp] theorem Ctl.requestRecheck_firstWindow (c : Ctl) : (c.requestRecheck).firstWindow = c.firstWindow := by
  obtain ⟨_, h⟩ := c.requestRecheck_shape; rw [h]

@[simp] theorem Ctl.requestRecheck_presence (c : Ctl) : (c.requestRecheck).presence = c.presence := by
  obtain ⟨_, h⟩ := c.requestRecheck_shape; rw [h]

@[simp] theorem Ctl.requestRecheck_gen (c : Ctl) : (c.requestRecheck).gen = c.gen := by
  obtain ⟨_, h⟩ := c.requestRecheck_shape; rw [h]

@[simp] theorem Ctl.requestRecheck_ownMark (c : Ctl) : (c.requestRecheck).ownMark = c.ownMark := by
  obtain ⟨_, h⟩ := c.requestRecheck_shape; rw [h]

@[simp] theorem Ctl.requestRecheck_nextSeq (c : Ctl) : (c.requestRecheck).nextSeq = c.nextSeq := by
  obtain ⟨_, h⟩ := c.requestRecheck_shape; rw [h]

@[simp] theorem Ctl.requestRecheck_frontier (c : Ctl) : (c.requestRecheck).frontier = c.frontier := by
  obtain ⟨_, h⟩ := c.requestRecheck_shape; rw [h]

@[simp] theorem Ctl.requestRecheck_mark (c : Ctl) : (c.requestRecheck).mark = c.mark := by
  obtain ⟨_, h⟩ := c.requestRecheck_shape; rw [h]

@[simp] theorem Ctl.requestRecheck_mount (c : Ctl) : (c.requestRecheck).mount = c.mount := by
  obtain ⟨_, h⟩ := c.requestRecheck_shape; rw [h]

@[simp] theorem Ctl.requestRecheck_units (c : Ctl) : (c.requestRecheck).units = c.units := by
  obtain ⟨_, h⟩ := c.requestRecheck_shape; rw [h]

@[simp] theorem Ctl.requestRecheck_completed (c : Ctl) : (c.requestRecheck).completed = c.completed := by
  obtain ⟨_, h⟩ := c.requestRecheck_shape; rw [h]

@[simp] theorem Ctl.requestRecheck_blocks (c : Ctl) : (c.requestRecheck).blocks = c.blocks := by
  obtain ⟨_, h⟩ := c.requestRecheck_shape; rw [h]

@[simp] theorem Ctl.requestRecheck_pool (c : Ctl) : (c.requestRecheck).pool = c.pool := by
  obtain ⟨_, h⟩ := c.requestRecheck_shape; rw [h]

@[simp] theorem Ctl.requestRecheck_dir (c : Ctl) : (c.requestRecheck).dir = c.dir := by
  obtain ⟨_, h⟩ := c.requestRecheck_shape; rw [h]

@[simp] theorem Ctl.requestRecheck_fill (c : Ctl) : (c.requestRecheck).fill = c.fill := by
  obtain ⟨_, h⟩ := c.requestRecheck_shape; rw [h]

@[simp] theorem Ctl.requestRecheck_et (c : Ctl) : (c.requestRecheck).et = c.et := by
  obtain ⟨_, h⟩ := c.requestRecheck_shape; rw [h]

@[simp] theorem Ctl.requestRecheck_owed (c : Ctl) : (c.requestRecheck).owed = c.owed := by
  obtain ⟨_, h⟩ := c.requestRecheck_shape; rw [h]

@[simp] theorem Ctl.requestRecheck_readBack (c : Ctl) : (c.requestRecheck).readBack = c.readBack := by
  obtain ⟨_, h⟩ := c.requestRecheck_shape; rw [h]

@[simp] theorem Ctl.requestRecheck_rx (c : Ctl) : (c.requestRecheck).rx = c.rx := by
  obtain ⟨_, h⟩ := c.requestRecheck_shape; rw [h]

@[simp] theorem Ctl.requestRecheck_rxNext (c : Ctl) : (c.requestRecheck).rxNext = c.rxNext := by
  obtain ⟨_, h⟩ := c.requestRecheck_shape; rw [h]

@[simp] theorem Ctl.requestRecheck_tx (c : Ctl) : (c.requestRecheck).tx = c.tx := by
  obtain ⟨_, h⟩ := c.requestRecheck_shape; rw [h]

@[simp] theorem Ctl.requestRecheck_peers (c : Ctl) : (c.requestRecheck).peers = c.peers := by
  obtain ⟨_, h⟩ := c.requestRecheck_shape; rw [h]

@[simp] theorem Ctl.requestRecheck_jobs (c : Ctl) : (c.requestRecheck).jobs = c.jobs := by
  obtain ⟨_, h⟩ := c.requestRecheck_shape; rw [h]

@[simp] theorem Ctl.requestRecheck_catchUps (c : Ctl) : (c.requestRecheck).catchUps = c.catchUps := by
  obtain ⟨_, h⟩ := c.requestRecheck_shape; rw [h]

@[simp] theorem Ctl.requestRecheck_recheck (c : Ctl) : (c.requestRecheck).recheck = c.recheck := by
  obtain ⟨_, h⟩ := c.requestRecheck_shape; rw [h]

@[simp] theorem Ctl.requestRecheck_holdings (c : Ctl) : (c.requestRecheck).holdings = c.holdings := by
  obtain ⟨_, h⟩ := c.requestRecheck_shape; rw [h]

@[simp] theorem Ctl.requestRecheck_port (c : Ctl) : (c.requestRecheck).port = c.port := by
  obtain ⟨_, h⟩ := c.requestRecheck_shape; rw [h]

@[simp] theorem Ctl.requestRecheck_pair (c : Ctl) : (c.requestRecheck).pair = c.pair := by
  obtain ⟨_, h⟩ := c.requestRecheck_shape; rw [h]

@[simp] theorem Ctl.requestRecheck_scan (c : Ctl) : (c.requestRecheck).scan = c.scan := by
  obtain ⟨_, h⟩ := c.requestRecheck_shape; rw [h]

@[simp] theorem Ctl.requestRecheck_alerts (c : Ctl) : (c.requestRecheck).alerts = c.alerts := by
  obtain ⟨_, h⟩ := c.requestRecheck_shape; rw [h]

/-! ### withDir -/

theorem Ctl.withDir_shape (c : Ctl) (d : List Entry) :
    ∃ (dir' : List Entry) (repair' : List Task) (recheck' : Option Nat) (alerts' : AlertSet),
      c.withDir d = { c with dir := dir', repair := repair', recheck := recheck', alerts := alerts' } := by
  unfold Ctl.withDir
  simp only []
  repeat' split
  · exact ⟨_, _, _, _, rfl⟩
  · obtain ⟨l, h⟩ := Ctl.requestRecheck_shape
      (({ c with dir := d, recheck := some recheckInterval } : Ctl).hand .deficit)
    exact ⟨_, _, _, _, h⟩
  · exact ⟨_, _, _, _, rfl⟩

@[simp] theorem Ctl.withDir_station (c : Ctl) (d : List Entry) : (c.withDir d).station = c.station := by
  obtain ⟨_, _, _, _, h⟩ := c.withDir_shape d; rw [h]

@[simp] theorem Ctl.withDir_window (c : Ctl) (d : List Entry) : (c.withDir d).window = c.window := by
  obtain ⟨_, _, _, _, h⟩ := c.withDir_shape d; rw [h]

@[simp] theorem Ctl.withDir_firstWindow (c : Ctl) (d : List Entry) : (c.withDir d).firstWindow = c.firstWindow := by
  obtain ⟨_, _, _, _, h⟩ := c.withDir_shape d; rw [h]

@[simp] theorem Ctl.withDir_presence (c : Ctl) (d : List Entry) : (c.withDir d).presence = c.presence := by
  obtain ⟨_, _, _, _, h⟩ := c.withDir_shape d; rw [h]

@[simp] theorem Ctl.withDir_gen (c : Ctl) (d : List Entry) : (c.withDir d).gen = c.gen := by
  obtain ⟨_, _, _, _, h⟩ := c.withDir_shape d; rw [h]

@[simp] theorem Ctl.withDir_ownMark (c : Ctl) (d : List Entry) : (c.withDir d).ownMark = c.ownMark := by
  obtain ⟨_, _, _, _, h⟩ := c.withDir_shape d; rw [h]

@[simp] theorem Ctl.withDir_nextSeq (c : Ctl) (d : List Entry) : (c.withDir d).nextSeq = c.nextSeq := by
  obtain ⟨_, _, _, _, h⟩ := c.withDir_shape d; rw [h]

@[simp] theorem Ctl.withDir_frontier (c : Ctl) (d : List Entry) : (c.withDir d).frontier = c.frontier := by
  obtain ⟨_, _, _, _, h⟩ := c.withDir_shape d; rw [h]

@[simp] theorem Ctl.withDir_mark (c : Ctl) (d : List Entry) : (c.withDir d).mark = c.mark := by
  obtain ⟨_, _, _, _, h⟩ := c.withDir_shape d; rw [h]

@[simp] theorem Ctl.withDir_mount (c : Ctl) (d : List Entry) : (c.withDir d).mount = c.mount := by
  obtain ⟨_, _, _, _, h⟩ := c.withDir_shape d; rw [h]

@[simp] theorem Ctl.withDir_units (c : Ctl) (d : List Entry) : (c.withDir d).units = c.units := by
  obtain ⟨_, _, _, _, h⟩ := c.withDir_shape d; rw [h]

@[simp] theorem Ctl.withDir_completed (c : Ctl) (d : List Entry) : (c.withDir d).completed = c.completed := by
  obtain ⟨_, _, _, _, h⟩ := c.withDir_shape d; rw [h]

@[simp] theorem Ctl.withDir_blocks (c : Ctl) (d : List Entry) : (c.withDir d).blocks = c.blocks := by
  obtain ⟨_, _, _, _, h⟩ := c.withDir_shape d; rw [h]

@[simp] theorem Ctl.withDir_pool (c : Ctl) (d : List Entry) : (c.withDir d).pool = c.pool := by
  obtain ⟨_, _, _, _, h⟩ := c.withDir_shape d; rw [h]

@[simp] theorem Ctl.withDir_fill (c : Ctl) (d : List Entry) : (c.withDir d).fill = c.fill := by
  obtain ⟨_, _, _, _, h⟩ := c.withDir_shape d; rw [h]

@[simp] theorem Ctl.withDir_et (c : Ctl) (d : List Entry) : (c.withDir d).et = c.et := by
  obtain ⟨_, _, _, _, h⟩ := c.withDir_shape d; rw [h]

@[simp] theorem Ctl.withDir_owed (c : Ctl) (d : List Entry) : (c.withDir d).owed = c.owed := by
  obtain ⟨_, _, _, _, h⟩ := c.withDir_shape d; rw [h]

@[simp] theorem Ctl.withDir_readBack (c : Ctl) (d : List Entry) : (c.withDir d).readBack = c.readBack := by
  obtain ⟨_, _, _, _, h⟩ := c.withDir_shape d; rw [h]

@[simp] theorem Ctl.withDir_rx (c : Ctl) (d : List Entry) : (c.withDir d).rx = c.rx := by
  obtain ⟨_, _, _, _, h⟩ := c.withDir_shape d; rw [h]

@[simp] theorem Ctl.withDir_rxNext (c : Ctl) (d : List Entry) : (c.withDir d).rxNext = c.rxNext := by
  obtain ⟨_, _, _, _, h⟩ := c.withDir_shape d; rw [h]

@[simp] theorem Ctl.withDir_tx (c : Ctl) (d : List Entry) : (c.withDir d).tx = c.tx := by
  obtain ⟨_, _, _, _, h⟩ := c.withDir_shape d; rw [h]

@[simp] theorem Ctl.withDir_peers (c : Ctl) (d : List Entry) : (c.withDir d).peers = c.peers := by
  obtain ⟨_, _, _, _, h⟩ := c.withDir_shape d; rw [h]

@[simp] theorem Ctl.withDir_jobs (c : Ctl) (d : List Entry) : (c.withDir d).jobs = c.jobs := by
  obtain ⟨_, _, _, _, h⟩ := c.withDir_shape d; rw [h]

@[simp] theorem Ctl.withDir_catchUps (c : Ctl) (d : List Entry) : (c.withDir d).catchUps = c.catchUps := by
  obtain ⟨_, _, _, _, h⟩ := c.withDir_shape d; rw [h]

@[simp] theorem Ctl.withDir_holdings (c : Ctl) (d : List Entry) : (c.withDir d).holdings = c.holdings := by
  obtain ⟨_, _, _, _, h⟩ := c.withDir_shape d; rw [h]

@[simp] theorem Ctl.withDir_port (c : Ctl) (d : List Entry) : (c.withDir d).port = c.port := by
  obtain ⟨_, _, _, _, h⟩ := c.withDir_shape d; rw [h]

@[simp] theorem Ctl.withDir_pair (c : Ctl) (d : List Entry) : (c.withDir d).pair = c.pair := by
  obtain ⟨_, _, _, _, h⟩ := c.withDir_shape d; rw [h]

@[simp] theorem Ctl.withDir_scan (c : Ctl) (d : List Entry) : (c.withDir d).scan = c.scan := by
  obtain ⟨_, _, _, _, h⟩ := c.withDir_shape d; rw [h]

/-! ### update -/

theorem Ctl.update_shape (c : Ctl) (k : Env) (id : PageId) (f : Entry → Entry) :
    ∃ (dir' : List Entry) (repair' : List Task) (recheck' : Option Nat) (alerts' : AlertSet),
      c.update k id f = { c with dir := dir', repair := repair', recheck := recheck', alerts := alerts' } := by
  exact c.withDir_shape _

@[simp] theorem Ctl.update_station (c : Ctl) (k : Env) (id : PageId) (f : Entry → Entry) :
    (c.update k id f).station = c.station := by
  obtain ⟨_, _, _, _, h⟩ := c.update_shape k id f; rw [h]

@[simp] theorem Ctl.update_window (c : Ctl) (k : Env) (id : PageId) (f : Entry → Entry) :
    (c.update k id f).window = c.window := by
  obtain ⟨_, _, _, _, h⟩ := c.update_shape k id f; rw [h]

@[simp] theorem Ctl.update_firstWindow (c : Ctl) (k : Env) (id : PageId) (f : Entry → Entry) :
    (c.update k id f).firstWindow = c.firstWindow := by
  obtain ⟨_, _, _, _, h⟩ := c.update_shape k id f; rw [h]

@[simp] theorem Ctl.update_presence (c : Ctl) (k : Env) (id : PageId) (f : Entry → Entry) :
    (c.update k id f).presence = c.presence := by
  obtain ⟨_, _, _, _, h⟩ := c.update_shape k id f; rw [h]

@[simp] theorem Ctl.update_gen (c : Ctl) (k : Env) (id : PageId) (f : Entry → Entry) :
    (c.update k id f).gen = c.gen := by
  obtain ⟨_, _, _, _, h⟩ := c.update_shape k id f; rw [h]

@[simp] theorem Ctl.update_ownMark (c : Ctl) (k : Env) (id : PageId) (f : Entry → Entry) :
    (c.update k id f).ownMark = c.ownMark := by
  obtain ⟨_, _, _, _, h⟩ := c.update_shape k id f; rw [h]

@[simp] theorem Ctl.update_nextSeq (c : Ctl) (k : Env) (id : PageId) (f : Entry → Entry) :
    (c.update k id f).nextSeq = c.nextSeq := by
  obtain ⟨_, _, _, _, h⟩ := c.update_shape k id f; rw [h]

@[simp] theorem Ctl.update_frontier (c : Ctl) (k : Env) (id : PageId) (f : Entry → Entry) :
    (c.update k id f).frontier = c.frontier := by
  obtain ⟨_, _, _, _, h⟩ := c.update_shape k id f; rw [h]

@[simp] theorem Ctl.update_mark (c : Ctl) (k : Env) (id : PageId) (f : Entry → Entry) :
    (c.update k id f).mark = c.mark := by
  obtain ⟨_, _, _, _, h⟩ := c.update_shape k id f; rw [h]

@[simp] theorem Ctl.update_mount (c : Ctl) (k : Env) (id : PageId) (f : Entry → Entry) :
    (c.update k id f).mount = c.mount := by
  obtain ⟨_, _, _, _, h⟩ := c.update_shape k id f; rw [h]

@[simp] theorem Ctl.update_units (c : Ctl) (k : Env) (id : PageId) (f : Entry → Entry) :
    (c.update k id f).units = c.units := by
  obtain ⟨_, _, _, _, h⟩ := c.update_shape k id f; rw [h]

@[simp] theorem Ctl.update_completed (c : Ctl) (k : Env) (id : PageId) (f : Entry → Entry) :
    (c.update k id f).completed = c.completed := by
  obtain ⟨_, _, _, _, h⟩ := c.update_shape k id f; rw [h]

@[simp] theorem Ctl.update_blocks (c : Ctl) (k : Env) (id : PageId) (f : Entry → Entry) :
    (c.update k id f).blocks = c.blocks := by
  obtain ⟨_, _, _, _, h⟩ := c.update_shape k id f; rw [h]

@[simp] theorem Ctl.update_pool (c : Ctl) (k : Env) (id : PageId) (f : Entry → Entry) :
    (c.update k id f).pool = c.pool := by
  obtain ⟨_, _, _, _, h⟩ := c.update_shape k id f; rw [h]

@[simp] theorem Ctl.update_fill (c : Ctl) (k : Env) (id : PageId) (f : Entry → Entry) :
    (c.update k id f).fill = c.fill := by
  obtain ⟨_, _, _, _, h⟩ := c.update_shape k id f; rw [h]

@[simp] theorem Ctl.update_et (c : Ctl) (k : Env) (id : PageId) (f : Entry → Entry) :
    (c.update k id f).et = c.et := by
  obtain ⟨_, _, _, _, h⟩ := c.update_shape k id f; rw [h]

@[simp] theorem Ctl.update_owed (c : Ctl) (k : Env) (id : PageId) (f : Entry → Entry) :
    (c.update k id f).owed = c.owed := by
  obtain ⟨_, _, _, _, h⟩ := c.update_shape k id f; rw [h]

@[simp] theorem Ctl.update_readBack (c : Ctl) (k : Env) (id : PageId) (f : Entry → Entry) :
    (c.update k id f).readBack = c.readBack := by
  obtain ⟨_, _, _, _, h⟩ := c.update_shape k id f; rw [h]

@[simp] theorem Ctl.update_rx (c : Ctl) (k : Env) (id : PageId) (f : Entry → Entry) :
    (c.update k id f).rx = c.rx := by
  obtain ⟨_, _, _, _, h⟩ := c.update_shape k id f; rw [h]

@[simp] theorem Ctl.update_rxNext (c : Ctl) (k : Env) (id : PageId) (f : Entry → Entry) :
    (c.update k id f).rxNext = c.rxNext := by
  obtain ⟨_, _, _, _, h⟩ := c.update_shape k id f; rw [h]

@[simp] theorem Ctl.update_tx (c : Ctl) (k : Env) (id : PageId) (f : Entry → Entry) :
    (c.update k id f).tx = c.tx := by
  obtain ⟨_, _, _, _, h⟩ := c.update_shape k id f; rw [h]

@[simp] theorem Ctl.update_peers (c : Ctl) (k : Env) (id : PageId) (f : Entry → Entry) :
    (c.update k id f).peers = c.peers := by
  obtain ⟨_, _, _, _, h⟩ := c.update_shape k id f; rw [h]

@[simp] theorem Ctl.update_jobs (c : Ctl) (k : Env) (id : PageId) (f : Entry → Entry) :
    (c.update k id f).jobs = c.jobs := by
  obtain ⟨_, _, _, _, h⟩ := c.update_shape k id f; rw [h]

@[simp] theorem Ctl.update_catchUps (c : Ctl) (k : Env) (id : PageId) (f : Entry → Entry) :
    (c.update k id f).catchUps = c.catchUps := by
  obtain ⟨_, _, _, _, h⟩ := c.update_shape k id f; rw [h]

@[simp] theorem Ctl.update_holdings (c : Ctl) (k : Env) (id : PageId) (f : Entry → Entry) :
    (c.update k id f).holdings = c.holdings := by
  obtain ⟨_, _, _, _, h⟩ := c.update_shape k id f; rw [h]

@[simp] theorem Ctl.update_port (c : Ctl) (k : Env) (id : PageId) (f : Entry → Entry) :
    (c.update k id f).port = c.port := by
  obtain ⟨_, _, _, _, h⟩ := c.update_shape k id f; rw [h]

@[simp] theorem Ctl.update_pair (c : Ctl) (k : Env) (id : PageId) (f : Entry → Entry) :
    (c.update k id f).pair = c.pair := by
  obtain ⟨_, _, _, _, h⟩ := c.update_shape k id f; rw [h]

@[simp] theorem Ctl.update_scan (c : Ctl) (k : Env) (id : PageId) (f : Entry → Entry) :
    (c.update k id f).scan = c.scan := by
  obtain ⟨_, _, _, _, h⟩ := c.update_shape k id f; rw [h]

/-! ### create -/

theorem Ctl.create_shape (c : Ctl) (k : Env) (e : Entry) :
    ∃ (dir' : List Entry) (repair' : List Task) (recheck' : Option Nat) (alerts' : AlertSet),
      c.create k e = { c with dir := dir', repair := repair', recheck := recheck', alerts := alerts' } := by
  unfold Ctl.create
  split
  · exact ⟨_, _, _, _, rfl⟩
  · exact c.withDir_shape _

@[simp] theorem Ctl.create_station (c : Ctl) (k : Env) (e : Entry) : (c.create k e).station = c.station := by
  obtain ⟨_, _, _, _, h⟩ := c.create_shape k e; rw [h]

@[simp] theorem Ctl.create_window (c : Ctl) (k : Env) (e : Entry) : (c.create k e).window = c.window := by
  obtain ⟨_, _, _, _, h⟩ := c.create_shape k e; rw [h]

@[simp] theorem Ctl.create_firstWindow (c : Ctl) (k : Env) (e : Entry) :
    (c.create k e).firstWindow = c.firstWindow := by
  obtain ⟨_, _, _, _, h⟩ := c.create_shape k e; rw [h]

@[simp] theorem Ctl.create_presence (c : Ctl) (k : Env) (e : Entry) : (c.create k e).presence = c.presence := by
  obtain ⟨_, _, _, _, h⟩ := c.create_shape k e; rw [h]

@[simp] theorem Ctl.create_gen (c : Ctl) (k : Env) (e : Entry) : (c.create k e).gen = c.gen := by
  obtain ⟨_, _, _, _, h⟩ := c.create_shape k e; rw [h]

@[simp] theorem Ctl.create_ownMark (c : Ctl) (k : Env) (e : Entry) : (c.create k e).ownMark = c.ownMark := by
  obtain ⟨_, _, _, _, h⟩ := c.create_shape k e; rw [h]

@[simp] theorem Ctl.create_nextSeq (c : Ctl) (k : Env) (e : Entry) : (c.create k e).nextSeq = c.nextSeq := by
  obtain ⟨_, _, _, _, h⟩ := c.create_shape k e; rw [h]

@[simp] theorem Ctl.create_frontier (c : Ctl) (k : Env) (e : Entry) : (c.create k e).frontier = c.frontier := by
  obtain ⟨_, _, _, _, h⟩ := c.create_shape k e; rw [h]

@[simp] theorem Ctl.create_mark (c : Ctl) (k : Env) (e : Entry) : (c.create k e).mark = c.mark := by
  obtain ⟨_, _, _, _, h⟩ := c.create_shape k e; rw [h]

@[simp] theorem Ctl.create_mount (c : Ctl) (k : Env) (e : Entry) : (c.create k e).mount = c.mount := by
  obtain ⟨_, _, _, _, h⟩ := c.create_shape k e; rw [h]

@[simp] theorem Ctl.create_units (c : Ctl) (k : Env) (e : Entry) : (c.create k e).units = c.units := by
  obtain ⟨_, _, _, _, h⟩ := c.create_shape k e; rw [h]

@[simp] theorem Ctl.create_completed (c : Ctl) (k : Env) (e : Entry) : (c.create k e).completed = c.completed := by
  obtain ⟨_, _, _, _, h⟩ := c.create_shape k e; rw [h]

@[simp] theorem Ctl.create_blocks (c : Ctl) (k : Env) (e : Entry) : (c.create k e).blocks = c.blocks := by
  obtain ⟨_, _, _, _, h⟩ := c.create_shape k e; rw [h]

@[simp] theorem Ctl.create_pool (c : Ctl) (k : Env) (e : Entry) : (c.create k e).pool = c.pool := by
  obtain ⟨_, _, _, _, h⟩ := c.create_shape k e; rw [h]

@[simp] theorem Ctl.create_fill (c : Ctl) (k : Env) (e : Entry) : (c.create k e).fill = c.fill := by
  obtain ⟨_, _, _, _, h⟩ := c.create_shape k e; rw [h]

@[simp] theorem Ctl.create_et (c : Ctl) (k : Env) (e : Entry) : (c.create k e).et = c.et := by
  obtain ⟨_, _, _, _, h⟩ := c.create_shape k e; rw [h]

@[simp] theorem Ctl.create_owed (c : Ctl) (k : Env) (e : Entry) : (c.create k e).owed = c.owed := by
  obtain ⟨_, _, _, _, h⟩ := c.create_shape k e; rw [h]

@[simp] theorem Ctl.create_readBack (c : Ctl) (k : Env) (e : Entry) : (c.create k e).readBack = c.readBack := by
  obtain ⟨_, _, _, _, h⟩ := c.create_shape k e; rw [h]

@[simp] theorem Ctl.create_rx (c : Ctl) (k : Env) (e : Entry) : (c.create k e).rx = c.rx := by
  obtain ⟨_, _, _, _, h⟩ := c.create_shape k e; rw [h]

@[simp] theorem Ctl.create_rxNext (c : Ctl) (k : Env) (e : Entry) : (c.create k e).rxNext = c.rxNext := by
  obtain ⟨_, _, _, _, h⟩ := c.create_shape k e; rw [h]

@[simp] theorem Ctl.create_tx (c : Ctl) (k : Env) (e : Entry) : (c.create k e).tx = c.tx := by
  obtain ⟨_, _, _, _, h⟩ := c.create_shape k e; rw [h]

@[simp] theorem Ctl.create_peers (c : Ctl) (k : Env) (e : Entry) : (c.create k e).peers = c.peers := by
  obtain ⟨_, _, _, _, h⟩ := c.create_shape k e; rw [h]

@[simp] theorem Ctl.create_jobs (c : Ctl) (k : Env) (e : Entry) : (c.create k e).jobs = c.jobs := by
  obtain ⟨_, _, _, _, h⟩ := c.create_shape k e; rw [h]

@[simp] theorem Ctl.create_catchUps (c : Ctl) (k : Env) (e : Entry) : (c.create k e).catchUps = c.catchUps := by
  obtain ⟨_, _, _, _, h⟩ := c.create_shape k e; rw [h]

@[simp] theorem Ctl.create_holdings (c : Ctl) (k : Env) (e : Entry) : (c.create k e).holdings = c.holdings := by
  obtain ⟨_, _, _, _, h⟩ := c.create_shape k e; rw [h]

@[simp] theorem Ctl.create_port (c : Ctl) (k : Env) (e : Entry) : (c.create k e).port = c.port := by
  obtain ⟨_, _, _, _, h⟩ := c.create_shape k e; rw [h]

@[simp] theorem Ctl.create_pair (c : Ctl) (k : Env) (e : Entry) : (c.create k e).pair = c.pair := by
  obtain ⟨_, _, _, _, h⟩ := c.create_shape k e; rw [h]

@[simp] theorem Ctl.create_scan (c : Ctl) (k : Env) (e : Entry) : (c.create k e).scan = c.scan := by
  obtain ⟨_, _, _, _, h⟩ := c.create_shape k e; rw [h]

/-! ### killPage -/

theorem Ctl.killPage_shape (c : Ctl) (a : PageAddr) :
    ∃ (units' : Vector UnitState 2) (blocks' : List Block),
      c.killPage a = { c with units := units', blocks := blocks' } := by
  unfold Ctl.killPage
  simp only []
  repeat' split
  all_goals exact ⟨_, _, rfl⟩

@[simp] theorem Ctl.killPage_station (c : Ctl) (a : PageAddr) : (c.killPage a).station = c.station := by
  obtain ⟨_, _, h⟩ := c.killPage_shape a; rw [h]

@[simp] theorem Ctl.killPage_window (c : Ctl) (a : PageAddr) : (c.killPage a).window = c.window := by
  obtain ⟨_, _, h⟩ := c.killPage_shape a; rw [h]

@[simp] theorem Ctl.killPage_firstWindow (c : Ctl) (a : PageAddr) : (c.killPage a).firstWindow = c.firstWindow := by
  obtain ⟨_, _, h⟩ := c.killPage_shape a; rw [h]

@[simp] theorem Ctl.killPage_presence (c : Ctl) (a : PageAddr) : (c.killPage a).presence = c.presence := by
  obtain ⟨_, _, h⟩ := c.killPage_shape a; rw [h]

@[simp] theorem Ctl.killPage_gen (c : Ctl) (a : PageAddr) : (c.killPage a).gen = c.gen := by
  obtain ⟨_, _, h⟩ := c.killPage_shape a; rw [h]

@[simp] theorem Ctl.killPage_ownMark (c : Ctl) (a : PageAddr) : (c.killPage a).ownMark = c.ownMark := by
  obtain ⟨_, _, h⟩ := c.killPage_shape a; rw [h]

@[simp] theorem Ctl.killPage_nextSeq (c : Ctl) (a : PageAddr) : (c.killPage a).nextSeq = c.nextSeq := by
  obtain ⟨_, _, h⟩ := c.killPage_shape a; rw [h]

@[simp] theorem Ctl.killPage_frontier (c : Ctl) (a : PageAddr) : (c.killPage a).frontier = c.frontier := by
  obtain ⟨_, _, h⟩ := c.killPage_shape a; rw [h]

@[simp] theorem Ctl.killPage_mark (c : Ctl) (a : PageAddr) : (c.killPage a).mark = c.mark := by
  obtain ⟨_, _, h⟩ := c.killPage_shape a; rw [h]

@[simp] theorem Ctl.killPage_mount (c : Ctl) (a : PageAddr) : (c.killPage a).mount = c.mount := by
  obtain ⟨_, _, h⟩ := c.killPage_shape a; rw [h]

@[simp] theorem Ctl.killPage_completed (c : Ctl) (a : PageAddr) : (c.killPage a).completed = c.completed := by
  obtain ⟨_, _, h⟩ := c.killPage_shape a; rw [h]

@[simp] theorem Ctl.killPage_pool (c : Ctl) (a : PageAddr) : (c.killPage a).pool = c.pool := by
  obtain ⟨_, _, h⟩ := c.killPage_shape a; rw [h]

@[simp] theorem Ctl.killPage_dir (c : Ctl) (a : PageAddr) : (c.killPage a).dir = c.dir := by
  obtain ⟨_, _, h⟩ := c.killPage_shape a; rw [h]

@[simp] theorem Ctl.killPage_fill (c : Ctl) (a : PageAddr) : (c.killPage a).fill = c.fill := by
  obtain ⟨_, _, h⟩ := c.killPage_shape a; rw [h]

@[simp] theorem Ctl.killPage_et (c : Ctl) (a : PageAddr) : (c.killPage a).et = c.et := by
  obtain ⟨_, _, h⟩ := c.killPage_shape a; rw [h]

@[simp] theorem Ctl.killPage_owed (c : Ctl) (a : PageAddr) : (c.killPage a).owed = c.owed := by
  obtain ⟨_, _, h⟩ := c.killPage_shape a; rw [h]

@[simp] theorem Ctl.killPage_readBack (c : Ctl) (a : PageAddr) : (c.killPage a).readBack = c.readBack := by
  obtain ⟨_, _, h⟩ := c.killPage_shape a; rw [h]

@[simp] theorem Ctl.killPage_rx (c : Ctl) (a : PageAddr) : (c.killPage a).rx = c.rx := by
  obtain ⟨_, _, h⟩ := c.killPage_shape a; rw [h]

@[simp] theorem Ctl.killPage_rxNext (c : Ctl) (a : PageAddr) : (c.killPage a).rxNext = c.rxNext := by
  obtain ⟨_, _, h⟩ := c.killPage_shape a; rw [h]

@[simp] theorem Ctl.killPage_tx (c : Ctl) (a : PageAddr) : (c.killPage a).tx = c.tx := by
  obtain ⟨_, _, h⟩ := c.killPage_shape a; rw [h]

@[simp] theorem Ctl.killPage_peers (c : Ctl) (a : PageAddr) : (c.killPage a).peers = c.peers := by
  obtain ⟨_, _, h⟩ := c.killPage_shape a; rw [h]

@[simp] theorem Ctl.killPage_jobs (c : Ctl) (a : PageAddr) : (c.killPage a).jobs = c.jobs := by
  obtain ⟨_, _, h⟩ := c.killPage_shape a; rw [h]

@[simp] theorem Ctl.killPage_catchUps (c : Ctl) (a : PageAddr) : (c.killPage a).catchUps = c.catchUps := by
  obtain ⟨_, _, h⟩ := c.killPage_shape a; rw [h]

@[simp] theorem Ctl.killPage_repair (c : Ctl) (a : PageAddr) : (c.killPage a).repair = c.repair := by
  obtain ⟨_, _, h⟩ := c.killPage_shape a; rw [h]

@[simp] theorem Ctl.killPage_recheck (c : Ctl) (a : PageAddr) : (c.killPage a).recheck = c.recheck := by
  obtain ⟨_, _, h⟩ := c.killPage_shape a; rw [h]

@[simp] theorem Ctl.killPage_holdings (c : Ctl) (a : PageAddr) : (c.killPage a).holdings = c.holdings := by
  obtain ⟨_, _, h⟩ := c.killPage_shape a; rw [h]

@[simp] theorem Ctl.killPage_port (c : Ctl) (a : PageAddr) : (c.killPage a).port = c.port := by
  obtain ⟨_, _, h⟩ := c.killPage_shape a; rw [h]

@[simp] theorem Ctl.killPage_pair (c : Ctl) (a : PageAddr) : (c.killPage a).pair = c.pair := by
  obtain ⟨_, _, h⟩ := c.killPage_shape a; rw [h]

@[simp] theorem Ctl.killPage_scan (c : Ctl) (a : PageAddr) : (c.killPage a).scan = c.scan := by
  obtain ⟨_, _, h⟩ := c.killPage_shape a; rw [h]

@[simp] theorem Ctl.killPage_alerts (c : Ctl) (a : PageAddr) : (c.killPage a).alerts = c.alerts := by
  obtain ⟨_, _, h⟩ := c.killPage_shape a; rw [h]

/-! ### killPages -/

theorem Ctl.killPages_shape (c : Ctl) (l : List (Option PageAddr)) :
    ∃ (units' : Vector UnitState 2) (blocks' : List Block),
      c.killPages l = { c with units := units', blocks := blocks' } := by
  unfold Ctl.killPages
  suffices h : ∀ d : Ctl, (∃ units blocks, d = { c with units := units, blocks := blocks }) →
      ∃ units blocks, l.foldl (fun c a =>
        match a with
        | some p => c.killPage p
        | none => c) d = { c with units := units, blocks := blocks } from h c ⟨_, _, rfl⟩
  induction l with
  | nil => exact fun d h => h
  | cons x rest ih =>
    rintro d ⟨u, b, rfl⟩
    refine ih _ ?_
    cases x with
    | none => exact ⟨_, _, rfl⟩
    | some p => exact Ctl.killPage_shape { c with units := u, blocks := b } p

@[simp] theorem Ctl.killPages_station (c : Ctl) (l : List (Option PageAddr)) :
    (c.killPages l).station = c.station := by
  obtain ⟨_, _, h⟩ := c.killPages_shape l; rw [h]

@[simp] theorem Ctl.killPages_window (c : Ctl) (l : List (Option PageAddr)) : (c.killPages l).window = c.window := by
  obtain ⟨_, _, h⟩ := c.killPages_shape l; rw [h]

@[simp] theorem Ctl.killPages_firstWindow (c : Ctl) (l : List (Option PageAddr)) :
    (c.killPages l).firstWindow = c.firstWindow := by
  obtain ⟨_, _, h⟩ := c.killPages_shape l; rw [h]

@[simp] theorem Ctl.killPages_presence (c : Ctl) (l : List (Option PageAddr)) :
    (c.killPages l).presence = c.presence := by
  obtain ⟨_, _, h⟩ := c.killPages_shape l; rw [h]

@[simp] theorem Ctl.killPages_gen (c : Ctl) (l : List (Option PageAddr)) : (c.killPages l).gen = c.gen := by
  obtain ⟨_, _, h⟩ := c.killPages_shape l; rw [h]

@[simp] theorem Ctl.killPages_ownMark (c : Ctl) (l : List (Option PageAddr)) :
    (c.killPages l).ownMark = c.ownMark := by
  obtain ⟨_, _, h⟩ := c.killPages_shape l; rw [h]

@[simp] theorem Ctl.killPages_nextSeq (c : Ctl) (l : List (Option PageAddr)) :
    (c.killPages l).nextSeq = c.nextSeq := by
  obtain ⟨_, _, h⟩ := c.killPages_shape l; rw [h]

@[simp] theorem Ctl.killPages_frontier (c : Ctl) (l : List (Option PageAddr)) :
    (c.killPages l).frontier = c.frontier := by
  obtain ⟨_, _, h⟩ := c.killPages_shape l; rw [h]

@[simp] theorem Ctl.killPages_mark (c : Ctl) (l : List (Option PageAddr)) : (c.killPages l).mark = c.mark := by
  obtain ⟨_, _, h⟩ := c.killPages_shape l; rw [h]

@[simp] theorem Ctl.killPages_mount (c : Ctl) (l : List (Option PageAddr)) : (c.killPages l).mount = c.mount := by
  obtain ⟨_, _, h⟩ := c.killPages_shape l; rw [h]

@[simp] theorem Ctl.killPages_completed (c : Ctl) (l : List (Option PageAddr)) :
    (c.killPages l).completed = c.completed := by
  obtain ⟨_, _, h⟩ := c.killPages_shape l; rw [h]

@[simp] theorem Ctl.killPages_pool (c : Ctl) (l : List (Option PageAddr)) : (c.killPages l).pool = c.pool := by
  obtain ⟨_, _, h⟩ := c.killPages_shape l; rw [h]

@[simp] theorem Ctl.killPages_dir (c : Ctl) (l : List (Option PageAddr)) : (c.killPages l).dir = c.dir := by
  obtain ⟨_, _, h⟩ := c.killPages_shape l; rw [h]

@[simp] theorem Ctl.killPages_fill (c : Ctl) (l : List (Option PageAddr)) : (c.killPages l).fill = c.fill := by
  obtain ⟨_, _, h⟩ := c.killPages_shape l; rw [h]

@[simp] theorem Ctl.killPages_et (c : Ctl) (l : List (Option PageAddr)) : (c.killPages l).et = c.et := by
  obtain ⟨_, _, h⟩ := c.killPages_shape l; rw [h]

@[simp] theorem Ctl.killPages_owed (c : Ctl) (l : List (Option PageAddr)) : (c.killPages l).owed = c.owed := by
  obtain ⟨_, _, h⟩ := c.killPages_shape l; rw [h]

@[simp] theorem Ctl.killPages_readBack (c : Ctl) (l : List (Option PageAddr)) :
    (c.killPages l).readBack = c.readBack := by
  obtain ⟨_, _, h⟩ := c.killPages_shape l; rw [h]

@[simp] theorem Ctl.killPages_rx (c : Ctl) (l : List (Option PageAddr)) : (c.killPages l).rx = c.rx := by
  obtain ⟨_, _, h⟩ := c.killPages_shape l; rw [h]

@[simp] theorem Ctl.killPages_rxNext (c : Ctl) (l : List (Option PageAddr)) : (c.killPages l).rxNext = c.rxNext := by
  obtain ⟨_, _, h⟩ := c.killPages_shape l; rw [h]

@[simp] theorem Ctl.killPages_tx (c : Ctl) (l : List (Option PageAddr)) : (c.killPages l).tx = c.tx := by
  obtain ⟨_, _, h⟩ := c.killPages_shape l; rw [h]

@[simp] theorem Ctl.killPages_peers (c : Ctl) (l : List (Option PageAddr)) : (c.killPages l).peers = c.peers := by
  obtain ⟨_, _, h⟩ := c.killPages_shape l; rw [h]

@[simp] theorem Ctl.killPages_jobs (c : Ctl) (l : List (Option PageAddr)) : (c.killPages l).jobs = c.jobs := by
  obtain ⟨_, _, h⟩ := c.killPages_shape l; rw [h]

@[simp] theorem Ctl.killPages_catchUps (c : Ctl) (l : List (Option PageAddr)) :
    (c.killPages l).catchUps = c.catchUps := by
  obtain ⟨_, _, h⟩ := c.killPages_shape l; rw [h]

@[simp] theorem Ctl.killPages_repair (c : Ctl) (l : List (Option PageAddr)) : (c.killPages l).repair = c.repair := by
  obtain ⟨_, _, h⟩ := c.killPages_shape l; rw [h]

@[simp] theorem Ctl.killPages_recheck (c : Ctl) (l : List (Option PageAddr)) :
    (c.killPages l).recheck = c.recheck := by
  obtain ⟨_, _, h⟩ := c.killPages_shape l; rw [h]

@[simp] theorem Ctl.killPages_holdings (c : Ctl) (l : List (Option PageAddr)) :
    (c.killPages l).holdings = c.holdings := by
  obtain ⟨_, _, h⟩ := c.killPages_shape l; rw [h]

@[simp] theorem Ctl.killPages_port (c : Ctl) (l : List (Option PageAddr)) : (c.killPages l).port = c.port := by
  obtain ⟨_, _, h⟩ := c.killPages_shape l; rw [h]

@[simp] theorem Ctl.killPages_pair (c : Ctl) (l : List (Option PageAddr)) : (c.killPages l).pair = c.pair := by
  obtain ⟨_, _, h⟩ := c.killPages_shape l; rw [h]

@[simp] theorem Ctl.killPages_scan (c : Ctl) (l : List (Option PageAddr)) : (c.killPages l).scan = c.scan := by
  obtain ⟨_, _, h⟩ := c.killPages_shape l; rw [h]

@[simp] theorem Ctl.killPages_alerts (c : Ctl) (l : List (Option PageAddr)) : (c.killPages l).alerts = c.alerts := by
  obtain ⟨_, _, h⟩ := c.killPages_shape l; rw [h]

/-! ### remove -/

theorem Ctl.remove_shape (c : Ctl) (id : PageId) :
    ∃ (units' : Vector UnitState 2) (blocks' : List Block) (dir' : List Entry) (repair' : List Task) (recheck' : Option Nat) (alerts' : AlertSet),
      c.remove id = { c with units := units', blocks := blocks', dir := dir', repair := repair', recheck := recheck', alerts := alerts' } := by
  unfold Ctl.remove
  split
  · exact ⟨_, _, _, _, _, _, rfl⟩
  · obtain ⟨d, l, r, a, h⟩ := c.withDir_shape (c.dir.filter (fun x => x.id != id))
    rw [h]
    obtain ⟨u, b, h2⟩ := Ctl.killPages_shape { c with dir := d, repair := l, recheck := r, alerts := a } [_, _]
    exact ⟨u, b, d, l, r, a, h2⟩

@[simp] theorem Ctl.remove_station (c : Ctl) (id : PageId) : (c.remove id).station = c.station := by
  obtain ⟨_, _, _, _, _, _, h⟩ := c.remove_shape id; rw [h]

@[simp] theorem Ctl.remove_window (c : Ctl) (id : PageId) : (c.remove id).window = c.window := by
  obtain ⟨_, _, _, _, _, _, h⟩ := c.remove_shape id; rw [h]

@[simp] theorem Ctl.remove_firstWindow (c : Ctl) (id : PageId) : (c.remove id).firstWindow = c.firstWindow := by
  obtain ⟨_, _, _, _, _, _, h⟩ := c.remove_shape id; rw [h]

@[simp] theorem Ctl.remove_presence (c : Ctl) (id : PageId) : (c.remove id).presence = c.presence := by
  obtain ⟨_, _, _, _, _, _, h⟩ := c.remove_shape id; rw [h]

@[simp] theorem Ctl.remove_gen (c : Ctl) (id : PageId) : (c.remove id).gen = c.gen := by
  obtain ⟨_, _, _, _, _, _, h⟩ := c.remove_shape id; rw [h]

@[simp] theorem Ctl.remove_ownMark (c : Ctl) (id : PageId) : (c.remove id).ownMark = c.ownMark := by
  obtain ⟨_, _, _, _, _, _, h⟩ := c.remove_shape id; rw [h]

@[simp] theorem Ctl.remove_nextSeq (c : Ctl) (id : PageId) : (c.remove id).nextSeq = c.nextSeq := by
  obtain ⟨_, _, _, _, _, _, h⟩ := c.remove_shape id; rw [h]

@[simp] theorem Ctl.remove_frontier (c : Ctl) (id : PageId) : (c.remove id).frontier = c.frontier := by
  obtain ⟨_, _, _, _, _, _, h⟩ := c.remove_shape id; rw [h]

@[simp] theorem Ctl.remove_mark (c : Ctl) (id : PageId) : (c.remove id).mark = c.mark := by
  obtain ⟨_, _, _, _, _, _, h⟩ := c.remove_shape id; rw [h]

@[simp] theorem Ctl.remove_mount (c : Ctl) (id : PageId) : (c.remove id).mount = c.mount := by
  obtain ⟨_, _, _, _, _, _, h⟩ := c.remove_shape id; rw [h]

@[simp] theorem Ctl.remove_completed (c : Ctl) (id : PageId) : (c.remove id).completed = c.completed := by
  obtain ⟨_, _, _, _, _, _, h⟩ := c.remove_shape id; rw [h]

@[simp] theorem Ctl.remove_pool (c : Ctl) (id : PageId) : (c.remove id).pool = c.pool := by
  obtain ⟨_, _, _, _, _, _, h⟩ := c.remove_shape id; rw [h]

@[simp] theorem Ctl.remove_fill (c : Ctl) (id : PageId) : (c.remove id).fill = c.fill := by
  obtain ⟨_, _, _, _, _, _, h⟩ := c.remove_shape id; rw [h]

@[simp] theorem Ctl.remove_et (c : Ctl) (id : PageId) : (c.remove id).et = c.et := by
  obtain ⟨_, _, _, _, _, _, h⟩ := c.remove_shape id; rw [h]

@[simp] theorem Ctl.remove_owed (c : Ctl) (id : PageId) : (c.remove id).owed = c.owed := by
  obtain ⟨_, _, _, _, _, _, h⟩ := c.remove_shape id; rw [h]

@[simp] theorem Ctl.remove_readBack (c : Ctl) (id : PageId) : (c.remove id).readBack = c.readBack := by
  obtain ⟨_, _, _, _, _, _, h⟩ := c.remove_shape id; rw [h]

@[simp] theorem Ctl.remove_rx (c : Ctl) (id : PageId) : (c.remove id).rx = c.rx := by
  obtain ⟨_, _, _, _, _, _, h⟩ := c.remove_shape id; rw [h]

@[simp] theorem Ctl.remove_rxNext (c : Ctl) (id : PageId) : (c.remove id).rxNext = c.rxNext := by
  obtain ⟨_, _, _, _, _, _, h⟩ := c.remove_shape id; rw [h]

@[simp] theorem Ctl.remove_tx (c : Ctl) (id : PageId) : (c.remove id).tx = c.tx := by
  obtain ⟨_, _, _, _, _, _, h⟩ := c.remove_shape id; rw [h]

@[simp] theorem Ctl.remove_peers (c : Ctl) (id : PageId) : (c.remove id).peers = c.peers := by
  obtain ⟨_, _, _, _, _, _, h⟩ := c.remove_shape id; rw [h]

@[simp] theorem Ctl.remove_jobs (c : Ctl) (id : PageId) : (c.remove id).jobs = c.jobs := by
  obtain ⟨_, _, _, _, _, _, h⟩ := c.remove_shape id; rw [h]

@[simp] theorem Ctl.remove_catchUps (c : Ctl) (id : PageId) : (c.remove id).catchUps = c.catchUps := by
  obtain ⟨_, _, _, _, _, _, h⟩ := c.remove_shape id; rw [h]

@[simp] theorem Ctl.remove_holdings (c : Ctl) (id : PageId) : (c.remove id).holdings = c.holdings := by
  obtain ⟨_, _, _, _, _, _, h⟩ := c.remove_shape id; rw [h]

@[simp] theorem Ctl.remove_port (c : Ctl) (id : PageId) : (c.remove id).port = c.port := by
  obtain ⟨_, _, _, _, _, _, h⟩ := c.remove_shape id; rw [h]

@[simp] theorem Ctl.remove_pair (c : Ctl) (id : PageId) : (c.remove id).pair = c.pair := by
  obtain ⟨_, _, _, _, _, _, h⟩ := c.remove_shape id; rw [h]

@[simp] theorem Ctl.remove_scan (c : Ctl) (id : PageId) : (c.remove id).scan = c.scan := by
  obtain ⟨_, _, _, _, _, _, h⟩ := c.remove_shape id; rw [h]

/-! ### retire -/

theorem Ctl.retire_shape (c : Ctl) (n : Nat) :
    ∃ (blocks' : List Block),
      c.retire n = { c with blocks := blocks' } := by
  unfold Ctl.retire
  repeat' split
  all_goals exact ⟨_, rfl⟩

@[simp] theorem Ctl.retire_station (c : Ctl) (n : Nat) : (c.retire n).station = c.station := by
  obtain ⟨_, h⟩ := c.retire_shape n; rw [h]

@[simp] theorem Ctl.retire_window (c : Ctl) (n : Nat) : (c.retire n).window = c.window := by
  obtain ⟨_, h⟩ := c.retire_shape n; rw [h]

@[simp] theorem Ctl.retire_firstWindow (c : Ctl) (n : Nat) : (c.retire n).firstWindow = c.firstWindow := by
  obtain ⟨_, h⟩ := c.retire_shape n; rw [h]

@[simp] theorem Ctl.retire_presence (c : Ctl) (n : Nat) : (c.retire n).presence = c.presence := by
  obtain ⟨_, h⟩ := c.retire_shape n; rw [h]

@[simp] theorem Ctl.retire_gen (c : Ctl) (n : Nat) : (c.retire n).gen = c.gen := by
  obtain ⟨_, h⟩ := c.retire_shape n; rw [h]

@[simp] theorem Ctl.retire_ownMark (c : Ctl) (n : Nat) : (c.retire n).ownMark = c.ownMark := by
  obtain ⟨_, h⟩ := c.retire_shape n; rw [h]

@[simp] theorem Ctl.retire_nextSeq (c : Ctl) (n : Nat) : (c.retire n).nextSeq = c.nextSeq := by
  obtain ⟨_, h⟩ := c.retire_shape n; rw [h]

@[simp] theorem Ctl.retire_frontier (c : Ctl) (n : Nat) : (c.retire n).frontier = c.frontier := by
  obtain ⟨_, h⟩ := c.retire_shape n; rw [h]

@[simp] theorem Ctl.retire_mark (c : Ctl) (n : Nat) : (c.retire n).mark = c.mark := by
  obtain ⟨_, h⟩ := c.retire_shape n; rw [h]

@[simp] theorem Ctl.retire_mount (c : Ctl) (n : Nat) : (c.retire n).mount = c.mount := by
  obtain ⟨_, h⟩ := c.retire_shape n; rw [h]

@[simp] theorem Ctl.retire_units (c : Ctl) (n : Nat) : (c.retire n).units = c.units := by
  obtain ⟨_, h⟩ := c.retire_shape n; rw [h]

@[simp] theorem Ctl.retire_completed (c : Ctl) (n : Nat) : (c.retire n).completed = c.completed := by
  obtain ⟨_, h⟩ := c.retire_shape n; rw [h]

@[simp] theorem Ctl.retire_pool (c : Ctl) (n : Nat) : (c.retire n).pool = c.pool := by
  obtain ⟨_, h⟩ := c.retire_shape n; rw [h]

@[simp] theorem Ctl.retire_dir (c : Ctl) (n : Nat) : (c.retire n).dir = c.dir := by
  obtain ⟨_, h⟩ := c.retire_shape n; rw [h]

@[simp] theorem Ctl.retire_fill (c : Ctl) (n : Nat) : (c.retire n).fill = c.fill := by
  obtain ⟨_, h⟩ := c.retire_shape n; rw [h]

@[simp] theorem Ctl.retire_et (c : Ctl) (n : Nat) : (c.retire n).et = c.et := by
  obtain ⟨_, h⟩ := c.retire_shape n; rw [h]

@[simp] theorem Ctl.retire_owed (c : Ctl) (n : Nat) : (c.retire n).owed = c.owed := by
  obtain ⟨_, h⟩ := c.retire_shape n; rw [h]

@[simp] theorem Ctl.retire_readBack (c : Ctl) (n : Nat) : (c.retire n).readBack = c.readBack := by
  obtain ⟨_, h⟩ := c.retire_shape n; rw [h]

@[simp] theorem Ctl.retire_rx (c : Ctl) (n : Nat) : (c.retire n).rx = c.rx := by
  obtain ⟨_, h⟩ := c.retire_shape n; rw [h]

@[simp] theorem Ctl.retire_rxNext (c : Ctl) (n : Nat) : (c.retire n).rxNext = c.rxNext := by
  obtain ⟨_, h⟩ := c.retire_shape n; rw [h]

@[simp] theorem Ctl.retire_tx (c : Ctl) (n : Nat) : (c.retire n).tx = c.tx := by
  obtain ⟨_, h⟩ := c.retire_shape n; rw [h]

@[simp] theorem Ctl.retire_peers (c : Ctl) (n : Nat) : (c.retire n).peers = c.peers := by
  obtain ⟨_, h⟩ := c.retire_shape n; rw [h]

@[simp] theorem Ctl.retire_jobs (c : Ctl) (n : Nat) : (c.retire n).jobs = c.jobs := by
  obtain ⟨_, h⟩ := c.retire_shape n; rw [h]

@[simp] theorem Ctl.retire_catchUps (c : Ctl) (n : Nat) : (c.retire n).catchUps = c.catchUps := by
  obtain ⟨_, h⟩ := c.retire_shape n; rw [h]

@[simp] theorem Ctl.retire_repair (c : Ctl) (n : Nat) : (c.retire n).repair = c.repair := by
  obtain ⟨_, h⟩ := c.retire_shape n; rw [h]

@[simp] theorem Ctl.retire_recheck (c : Ctl) (n : Nat) : (c.retire n).recheck = c.recheck := by
  obtain ⟨_, h⟩ := c.retire_shape n; rw [h]

@[simp] theorem Ctl.retire_holdings (c : Ctl) (n : Nat) : (c.retire n).holdings = c.holdings := by
  obtain ⟨_, h⟩ := c.retire_shape n; rw [h]

@[simp] theorem Ctl.retire_port (c : Ctl) (n : Nat) : (c.retire n).port = c.port := by
  obtain ⟨_, h⟩ := c.retire_shape n; rw [h]

@[simp] theorem Ctl.retire_pair (c : Ctl) (n : Nat) : (c.retire n).pair = c.pair := by
  obtain ⟨_, h⟩ := c.retire_shape n; rw [h]

@[simp] theorem Ctl.retire_scan (c : Ctl) (n : Nat) : (c.retire n).scan = c.scan := by
  obtain ⟨_, h⟩ := c.retire_shape n; rw [h]

@[simp] theorem Ctl.retire_alerts (c : Ctl) (n : Nat) : (c.retire n).alerts = c.alerts := by
  obtain ⟨_, h⟩ := c.retire_shape n; rw [h]

/-! ### raiseCount -/

theorem Ctl.raiseCount_shape (c : Ctl) (a : PageAddr) :
    ∃ (blocks' : List Block),
      c.raiseCount a = { c with blocks := blocks' } := by
  unfold Ctl.raiseCount
  split
  all_goals exact ⟨_, rfl⟩

@[simp] theorem Ctl.raiseCount_station (c : Ctl) (a : PageAddr) : (c.raiseCount a).station = c.station := by
  obtain ⟨_, h⟩ := c.raiseCount_shape a; rw [h]

@[simp] theorem Ctl.raiseCount_window (c : Ctl) (a : PageAddr) : (c.raiseCount a).window = c.window := by
  obtain ⟨_, h⟩ := c.raiseCount_shape a; rw [h]

@[simp] theorem Ctl.raiseCount_firstWindow (c : Ctl) (a : PageAddr) :
    (c.raiseCount a).firstWindow = c.firstWindow := by
  obtain ⟨_, h⟩ := c.raiseCount_shape a; rw [h]

@[simp] theorem Ctl.raiseCount_presence (c : Ctl) (a : PageAddr) : (c.raiseCount a).presence = c.presence := by
  obtain ⟨_, h⟩ := c.raiseCount_shape a; rw [h]

@[simp] theorem Ctl.raiseCount_gen (c : Ctl) (a : PageAddr) : (c.raiseCount a).gen = c.gen := by
  obtain ⟨_, h⟩ := c.raiseCount_shape a; rw [h]

@[simp] theorem Ctl.raiseCount_ownMark (c : Ctl) (a : PageAddr) : (c.raiseCount a).ownMark = c.ownMark := by
  obtain ⟨_, h⟩ := c.raiseCount_shape a; rw [h]

@[simp] theorem Ctl.raiseCount_nextSeq (c : Ctl) (a : PageAddr) : (c.raiseCount a).nextSeq = c.nextSeq := by
  obtain ⟨_, h⟩ := c.raiseCount_shape a; rw [h]

@[simp] theorem Ctl.raiseCount_frontier (c : Ctl) (a : PageAddr) : (c.raiseCount a).frontier = c.frontier := by
  obtain ⟨_, h⟩ := c.raiseCount_shape a; rw [h]

@[simp] theorem Ctl.raiseCount_mark (c : Ctl) (a : PageAddr) : (c.raiseCount a).mark = c.mark := by
  obtain ⟨_, h⟩ := c.raiseCount_shape a; rw [h]

@[simp] theorem Ctl.raiseCount_mount (c : Ctl) (a : PageAddr) : (c.raiseCount a).mount = c.mount := by
  obtain ⟨_, h⟩ := c.raiseCount_shape a; rw [h]

@[simp] theorem Ctl.raiseCount_units (c : Ctl) (a : PageAddr) : (c.raiseCount a).units = c.units := by
  obtain ⟨_, h⟩ := c.raiseCount_shape a; rw [h]

@[simp] theorem Ctl.raiseCount_completed (c : Ctl) (a : PageAddr) : (c.raiseCount a).completed = c.completed := by
  obtain ⟨_, h⟩ := c.raiseCount_shape a; rw [h]

@[simp] theorem Ctl.raiseCount_pool (c : Ctl) (a : PageAddr) : (c.raiseCount a).pool = c.pool := by
  obtain ⟨_, h⟩ := c.raiseCount_shape a; rw [h]

@[simp] theorem Ctl.raiseCount_dir (c : Ctl) (a : PageAddr) : (c.raiseCount a).dir = c.dir := by
  obtain ⟨_, h⟩ := c.raiseCount_shape a; rw [h]

@[simp] theorem Ctl.raiseCount_fill (c : Ctl) (a : PageAddr) : (c.raiseCount a).fill = c.fill := by
  obtain ⟨_, h⟩ := c.raiseCount_shape a; rw [h]

@[simp] theorem Ctl.raiseCount_et (c : Ctl) (a : PageAddr) : (c.raiseCount a).et = c.et := by
  obtain ⟨_, h⟩ := c.raiseCount_shape a; rw [h]

@[simp] theorem Ctl.raiseCount_owed (c : Ctl) (a : PageAddr) : (c.raiseCount a).owed = c.owed := by
  obtain ⟨_, h⟩ := c.raiseCount_shape a; rw [h]

@[simp] theorem Ctl.raiseCount_readBack (c : Ctl) (a : PageAddr) : (c.raiseCount a).readBack = c.readBack := by
  obtain ⟨_, h⟩ := c.raiseCount_shape a; rw [h]

@[simp] theorem Ctl.raiseCount_rx (c : Ctl) (a : PageAddr) : (c.raiseCount a).rx = c.rx := by
  obtain ⟨_, h⟩ := c.raiseCount_shape a; rw [h]

@[simp] theorem Ctl.raiseCount_rxNext (c : Ctl) (a : PageAddr) : (c.raiseCount a).rxNext = c.rxNext := by
  obtain ⟨_, h⟩ := c.raiseCount_shape a; rw [h]

@[simp] theorem Ctl.raiseCount_tx (c : Ctl) (a : PageAddr) : (c.raiseCount a).tx = c.tx := by
  obtain ⟨_, h⟩ := c.raiseCount_shape a; rw [h]

@[simp] theorem Ctl.raiseCount_peers (c : Ctl) (a : PageAddr) : (c.raiseCount a).peers = c.peers := by
  obtain ⟨_, h⟩ := c.raiseCount_shape a; rw [h]

@[simp] theorem Ctl.raiseCount_jobs (c : Ctl) (a : PageAddr) : (c.raiseCount a).jobs = c.jobs := by
  obtain ⟨_, h⟩ := c.raiseCount_shape a; rw [h]

@[simp] theorem Ctl.raiseCount_catchUps (c : Ctl) (a : PageAddr) : (c.raiseCount a).catchUps = c.catchUps := by
  obtain ⟨_, h⟩ := c.raiseCount_shape a; rw [h]

@[simp] theorem Ctl.raiseCount_repair (c : Ctl) (a : PageAddr) : (c.raiseCount a).repair = c.repair := by
  obtain ⟨_, h⟩ := c.raiseCount_shape a; rw [h]

@[simp] theorem Ctl.raiseCount_recheck (c : Ctl) (a : PageAddr) : (c.raiseCount a).recheck = c.recheck := by
  obtain ⟨_, h⟩ := c.raiseCount_shape a; rw [h]

@[simp] theorem Ctl.raiseCount_holdings (c : Ctl) (a : PageAddr) : (c.raiseCount a).holdings = c.holdings := by
  obtain ⟨_, h⟩ := c.raiseCount_shape a; rw [h]

@[simp] theorem Ctl.raiseCount_port (c : Ctl) (a : PageAddr) : (c.raiseCount a).port = c.port := by
  obtain ⟨_, h⟩ := c.raiseCount_shape a; rw [h]

@[simp] theorem Ctl.raiseCount_pair (c : Ctl) (a : PageAddr) : (c.raiseCount a).pair = c.pair := by
  obtain ⟨_, h⟩ := c.raiseCount_shape a; rw [h]

@[simp] theorem Ctl.raiseCount_scan (c : Ctl) (a : PageAddr) : (c.raiseCount a).scan = c.scan := by
  obtain ⟨_, h⟩ := c.raiseCount_shape a; rw [h]

@[simp] theorem Ctl.raiseCount_alerts (c : Ctl) (a : PageAddr) : (c.raiseCount a).alerts = c.alerts := by
  obtain ⟨_, h⟩ := c.raiseCount_shape a; rw [h]

/-! ### freeCancelled -/

theorem Ctl.freeCancelled_shape (c : Ctl) (b : TxBody) :
    ∃ (jobs' : Vector (Option Job) 2),
      c.freeCancelled b = { c with jobs := jobs' } := by
  unfold Ctl.freeCancelled
  repeat' split
  all_goals exact ⟨_, rfl⟩

@[simp] theorem Ctl.freeCancelled_station (c : Ctl) (b : TxBody) : (c.freeCancelled b).station = c.station := by
  obtain ⟨_, h⟩ := c.freeCancelled_shape b; rw [h]

@[simp] theorem Ctl.freeCancelled_window (c : Ctl) (b : TxBody) : (c.freeCancelled b).window = c.window := by
  obtain ⟨_, h⟩ := c.freeCancelled_shape b; rw [h]

@[simp] theorem Ctl.freeCancelled_firstWindow (c : Ctl) (b : TxBody) :
    (c.freeCancelled b).firstWindow = c.firstWindow := by
  obtain ⟨_, h⟩ := c.freeCancelled_shape b; rw [h]

@[simp] theorem Ctl.freeCancelled_presence (c : Ctl) (b : TxBody) : (c.freeCancelled b).presence = c.presence := by
  obtain ⟨_, h⟩ := c.freeCancelled_shape b; rw [h]

@[simp] theorem Ctl.freeCancelled_gen (c : Ctl) (b : TxBody) : (c.freeCancelled b).gen = c.gen := by
  obtain ⟨_, h⟩ := c.freeCancelled_shape b; rw [h]

@[simp] theorem Ctl.freeCancelled_ownMark (c : Ctl) (b : TxBody) : (c.freeCancelled b).ownMark = c.ownMark := by
  obtain ⟨_, h⟩ := c.freeCancelled_shape b; rw [h]

@[simp] theorem Ctl.freeCancelled_nextSeq (c : Ctl) (b : TxBody) : (c.freeCancelled b).nextSeq = c.nextSeq := by
  obtain ⟨_, h⟩ := c.freeCancelled_shape b; rw [h]

@[simp] theorem Ctl.freeCancelled_frontier (c : Ctl) (b : TxBody) : (c.freeCancelled b).frontier = c.frontier := by
  obtain ⟨_, h⟩ := c.freeCancelled_shape b; rw [h]

@[simp] theorem Ctl.freeCancelled_mark (c : Ctl) (b : TxBody) : (c.freeCancelled b).mark = c.mark := by
  obtain ⟨_, h⟩ := c.freeCancelled_shape b; rw [h]

@[simp] theorem Ctl.freeCancelled_mount (c : Ctl) (b : TxBody) : (c.freeCancelled b).mount = c.mount := by
  obtain ⟨_, h⟩ := c.freeCancelled_shape b; rw [h]

@[simp] theorem Ctl.freeCancelled_units (c : Ctl) (b : TxBody) : (c.freeCancelled b).units = c.units := by
  obtain ⟨_, h⟩ := c.freeCancelled_shape b; rw [h]

@[simp] theorem Ctl.freeCancelled_completed (c : Ctl) (b : TxBody) : (c.freeCancelled b).completed = c.completed := by
  obtain ⟨_, h⟩ := c.freeCancelled_shape b; rw [h]

@[simp] theorem Ctl.freeCancelled_blocks (c : Ctl) (b : TxBody) : (c.freeCancelled b).blocks = c.blocks := by
  obtain ⟨_, h⟩ := c.freeCancelled_shape b; rw [h]

@[simp] theorem Ctl.freeCancelled_pool (c : Ctl) (b : TxBody) : (c.freeCancelled b).pool = c.pool := by
  obtain ⟨_, h⟩ := c.freeCancelled_shape b; rw [h]

@[simp] theorem Ctl.freeCancelled_dir (c : Ctl) (b : TxBody) : (c.freeCancelled b).dir = c.dir := by
  obtain ⟨_, h⟩ := c.freeCancelled_shape b; rw [h]

@[simp] theorem Ctl.freeCancelled_fill (c : Ctl) (b : TxBody) : (c.freeCancelled b).fill = c.fill := by
  obtain ⟨_, h⟩ := c.freeCancelled_shape b; rw [h]

@[simp] theorem Ctl.freeCancelled_et (c : Ctl) (b : TxBody) : (c.freeCancelled b).et = c.et := by
  obtain ⟨_, h⟩ := c.freeCancelled_shape b; rw [h]

@[simp] theorem Ctl.freeCancelled_owed (c : Ctl) (b : TxBody) : (c.freeCancelled b).owed = c.owed := by
  obtain ⟨_, h⟩ := c.freeCancelled_shape b; rw [h]

@[simp] theorem Ctl.freeCancelled_readBack (c : Ctl) (b : TxBody) : (c.freeCancelled b).readBack = c.readBack := by
  obtain ⟨_, h⟩ := c.freeCancelled_shape b; rw [h]

@[simp] theorem Ctl.freeCancelled_rx (c : Ctl) (b : TxBody) : (c.freeCancelled b).rx = c.rx := by
  obtain ⟨_, h⟩ := c.freeCancelled_shape b; rw [h]

@[simp] theorem Ctl.freeCancelled_rxNext (c : Ctl) (b : TxBody) : (c.freeCancelled b).rxNext = c.rxNext := by
  obtain ⟨_, h⟩ := c.freeCancelled_shape b; rw [h]

@[simp] theorem Ctl.freeCancelled_tx (c : Ctl) (b : TxBody) : (c.freeCancelled b).tx = c.tx := by
  obtain ⟨_, h⟩ := c.freeCancelled_shape b; rw [h]

@[simp] theorem Ctl.freeCancelled_peers (c : Ctl) (b : TxBody) : (c.freeCancelled b).peers = c.peers := by
  obtain ⟨_, h⟩ := c.freeCancelled_shape b; rw [h]

@[simp] theorem Ctl.freeCancelled_catchUps (c : Ctl) (b : TxBody) : (c.freeCancelled b).catchUps = c.catchUps := by
  obtain ⟨_, h⟩ := c.freeCancelled_shape b; rw [h]

@[simp] theorem Ctl.freeCancelled_repair (c : Ctl) (b : TxBody) : (c.freeCancelled b).repair = c.repair := by
  obtain ⟨_, h⟩ := c.freeCancelled_shape b; rw [h]

@[simp] theorem Ctl.freeCancelled_recheck (c : Ctl) (b : TxBody) : (c.freeCancelled b).recheck = c.recheck := by
  obtain ⟨_, h⟩ := c.freeCancelled_shape b; rw [h]

@[simp] theorem Ctl.freeCancelled_holdings (c : Ctl) (b : TxBody) : (c.freeCancelled b).holdings = c.holdings := by
  obtain ⟨_, h⟩ := c.freeCancelled_shape b; rw [h]

@[simp] theorem Ctl.freeCancelled_port (c : Ctl) (b : TxBody) : (c.freeCancelled b).port = c.port := by
  obtain ⟨_, h⟩ := c.freeCancelled_shape b; rw [h]

@[simp] theorem Ctl.freeCancelled_pair (c : Ctl) (b : TxBody) : (c.freeCancelled b).pair = c.pair := by
  obtain ⟨_, h⟩ := c.freeCancelled_shape b; rw [h]

@[simp] theorem Ctl.freeCancelled_scan (c : Ctl) (b : TxBody) : (c.freeCancelled b).scan = c.scan := by
  obtain ⟨_, h⟩ := c.freeCancelled_shape b; rw [h]

@[simp] theorem Ctl.freeCancelled_alerts (c : Ctl) (b : TxBody) : (c.freeCancelled b).alerts = c.alerts := by
  obtain ⟨_, h⟩ := c.freeCancelled_shape b; rw [h]

/-! ### endAttempt -/

theorem Ctl.endAttempt_shape (c : Ctl) :
    ∃ (tx' : Tx) (jobs' : Vector (Option Job) 2),
      c.endAttempt = { c with tx := tx', jobs := jobs' } := by
  unfold Ctl.endAttempt
  split
  · exact ⟨_, _, rfl⟩
  · split
    · obtain ⟨j, h⟩ := Ctl.freeCancelled_shape (c.onTx _) _
      exact ⟨_, j, h⟩
    · exact ⟨_, _, rfl⟩

@[simp] theorem Ctl.endAttempt_station (c : Ctl) : (c.endAttempt).station = c.station := by
  obtain ⟨_, _, h⟩ := c.endAttempt_shape; rw [h]

@[simp] theorem Ctl.endAttempt_window (c : Ctl) : (c.endAttempt).window = c.window := by
  obtain ⟨_, _, h⟩ := c.endAttempt_shape; rw [h]

@[simp] theorem Ctl.endAttempt_firstWindow (c : Ctl) : (c.endAttempt).firstWindow = c.firstWindow := by
  obtain ⟨_, _, h⟩ := c.endAttempt_shape; rw [h]

@[simp] theorem Ctl.endAttempt_presence (c : Ctl) : (c.endAttempt).presence = c.presence := by
  obtain ⟨_, _, h⟩ := c.endAttempt_shape; rw [h]

@[simp] theorem Ctl.endAttempt_gen (c : Ctl) : (c.endAttempt).gen = c.gen := by
  obtain ⟨_, _, h⟩ := c.endAttempt_shape; rw [h]

@[simp] theorem Ctl.endAttempt_ownMark (c : Ctl) : (c.endAttempt).ownMark = c.ownMark := by
  obtain ⟨_, _, h⟩ := c.endAttempt_shape; rw [h]

@[simp] theorem Ctl.endAttempt_nextSeq (c : Ctl) : (c.endAttempt).nextSeq = c.nextSeq := by
  obtain ⟨_, _, h⟩ := c.endAttempt_shape; rw [h]

@[simp] theorem Ctl.endAttempt_frontier (c : Ctl) : (c.endAttempt).frontier = c.frontier := by
  obtain ⟨_, _, h⟩ := c.endAttempt_shape; rw [h]

@[simp] theorem Ctl.endAttempt_mark (c : Ctl) : (c.endAttempt).mark = c.mark := by
  obtain ⟨_, _, h⟩ := c.endAttempt_shape; rw [h]

@[simp] theorem Ctl.endAttempt_mount (c : Ctl) : (c.endAttempt).mount = c.mount := by
  obtain ⟨_, _, h⟩ := c.endAttempt_shape; rw [h]

@[simp] theorem Ctl.endAttempt_units (c : Ctl) : (c.endAttempt).units = c.units := by
  obtain ⟨_, _, h⟩ := c.endAttempt_shape; rw [h]

@[simp] theorem Ctl.endAttempt_completed (c : Ctl) : (c.endAttempt).completed = c.completed := by
  obtain ⟨_, _, h⟩ := c.endAttempt_shape; rw [h]

@[simp] theorem Ctl.endAttempt_blocks (c : Ctl) : (c.endAttempt).blocks = c.blocks := by
  obtain ⟨_, _, h⟩ := c.endAttempt_shape; rw [h]

@[simp] theorem Ctl.endAttempt_pool (c : Ctl) : (c.endAttempt).pool = c.pool := by
  obtain ⟨_, _, h⟩ := c.endAttempt_shape; rw [h]

@[simp] theorem Ctl.endAttempt_dir (c : Ctl) : (c.endAttempt).dir = c.dir := by
  obtain ⟨_, _, h⟩ := c.endAttempt_shape; rw [h]

@[simp] theorem Ctl.endAttempt_fill (c : Ctl) : (c.endAttempt).fill = c.fill := by
  obtain ⟨_, _, h⟩ := c.endAttempt_shape; rw [h]

@[simp] theorem Ctl.endAttempt_et (c : Ctl) : (c.endAttempt).et = c.et := by
  obtain ⟨_, _, h⟩ := c.endAttempt_shape; rw [h]

@[simp] theorem Ctl.endAttempt_owed (c : Ctl) : (c.endAttempt).owed = c.owed := by
  obtain ⟨_, _, h⟩ := c.endAttempt_shape; rw [h]

@[simp] theorem Ctl.endAttempt_readBack (c : Ctl) : (c.endAttempt).readBack = c.readBack := by
  obtain ⟨_, _, h⟩ := c.endAttempt_shape; rw [h]

@[simp] theorem Ctl.endAttempt_rx (c : Ctl) : (c.endAttempt).rx = c.rx := by
  obtain ⟨_, _, h⟩ := c.endAttempt_shape; rw [h]

@[simp] theorem Ctl.endAttempt_rxNext (c : Ctl) : (c.endAttempt).rxNext = c.rxNext := by
  obtain ⟨_, _, h⟩ := c.endAttempt_shape; rw [h]

@[simp] theorem Ctl.endAttempt_peers (c : Ctl) : (c.endAttempt).peers = c.peers := by
  obtain ⟨_, _, h⟩ := c.endAttempt_shape; rw [h]

@[simp] theorem Ctl.endAttempt_catchUps (c : Ctl) : (c.endAttempt).catchUps = c.catchUps := by
  obtain ⟨_, _, h⟩ := c.endAttempt_shape; rw [h]

@[simp] theorem Ctl.endAttempt_repair (c : Ctl) : (c.endAttempt).repair = c.repair := by
  obtain ⟨_, _, h⟩ := c.endAttempt_shape; rw [h]

@[simp] theorem Ctl.endAttempt_recheck (c : Ctl) : (c.endAttempt).recheck = c.recheck := by
  obtain ⟨_, _, h⟩ := c.endAttempt_shape; rw [h]

@[simp] theorem Ctl.endAttempt_holdings (c : Ctl) : (c.endAttempt).holdings = c.holdings := by
  obtain ⟨_, _, h⟩ := c.endAttempt_shape; rw [h]

@[simp] theorem Ctl.endAttempt_port (c : Ctl) : (c.endAttempt).port = c.port := by
  obtain ⟨_, _, h⟩ := c.endAttempt_shape; rw [h]

@[simp] theorem Ctl.endAttempt_pair (c : Ctl) : (c.endAttempt).pair = c.pair := by
  obtain ⟨_, _, h⟩ := c.endAttempt_shape; rw [h]

@[simp] theorem Ctl.endAttempt_scan (c : Ctl) : (c.endAttempt).scan = c.scan := by
  obtain ⟨_, _, h⟩ := c.endAttempt_shape; rw [h]

@[simp] theorem Ctl.endAttempt_alerts (c : Ctl) : (c.endAttempt).alerts = c.alerts := by
  obtain ⟨_, _, h⟩ := c.endAttempt_shape; rw [h]

/-! ### closeJob -/

theorem Ctl.closeJob_shape (c : Ctl) (slot : Fin 2) :
    ∃ (tx' : Tx) (jobs' : Vector (Option Job) 2),
      c.closeJob slot = { c with tx := tx', jobs := jobs' } := by
  unfold Ctl.closeJob
  simp only []
  repeat' split
  all_goals exact ⟨_, _, rfl⟩

@[simp] theorem Ctl.closeJob_station (c : Ctl) (slot : Fin 2) : (c.closeJob slot).station = c.station := by
  obtain ⟨_, _, h⟩ := c.closeJob_shape slot; rw [h]

@[simp] theorem Ctl.closeJob_window (c : Ctl) (slot : Fin 2) : (c.closeJob slot).window = c.window := by
  obtain ⟨_, _, h⟩ := c.closeJob_shape slot; rw [h]

@[simp] theorem Ctl.closeJob_firstWindow (c : Ctl) (slot : Fin 2) :
    (c.closeJob slot).firstWindow = c.firstWindow := by
  obtain ⟨_, _, h⟩ := c.closeJob_shape slot; rw [h]

@[simp] theorem Ctl.closeJob_presence (c : Ctl) (slot : Fin 2) : (c.closeJob slot).presence = c.presence := by
  obtain ⟨_, _, h⟩ := c.closeJob_shape slot; rw [h]

@[simp] theorem Ctl.closeJob_gen (c : Ctl) (slot : Fin 2) : (c.closeJob slot).gen = c.gen := by
  obtain ⟨_, _, h⟩ := c.closeJob_shape slot; rw [h]

@[simp] theorem Ctl.closeJob_ownMark (c : Ctl) (slot : Fin 2) : (c.closeJob slot).ownMark = c.ownMark := by
  obtain ⟨_, _, h⟩ := c.closeJob_shape slot; rw [h]

@[simp] theorem Ctl.closeJob_nextSeq (c : Ctl) (slot : Fin 2) : (c.closeJob slot).nextSeq = c.nextSeq := by
  obtain ⟨_, _, h⟩ := c.closeJob_shape slot; rw [h]

@[simp] theorem Ctl.closeJob_frontier (c : Ctl) (slot : Fin 2) : (c.closeJob slot).frontier = c.frontier := by
  obtain ⟨_, _, h⟩ := c.closeJob_shape slot; rw [h]

@[simp] theorem Ctl.closeJob_mark (c : Ctl) (slot : Fin 2) : (c.closeJob slot).mark = c.mark := by
  obtain ⟨_, _, h⟩ := c.closeJob_shape slot; rw [h]

@[simp] theorem Ctl.closeJob_mount (c : Ctl) (slot : Fin 2) : (c.closeJob slot).mount = c.mount := by
  obtain ⟨_, _, h⟩ := c.closeJob_shape slot; rw [h]

@[simp] theorem Ctl.closeJob_units (c : Ctl) (slot : Fin 2) : (c.closeJob slot).units = c.units := by
  obtain ⟨_, _, h⟩ := c.closeJob_shape slot; rw [h]

@[simp] theorem Ctl.closeJob_completed (c : Ctl) (slot : Fin 2) : (c.closeJob slot).completed = c.completed := by
  obtain ⟨_, _, h⟩ := c.closeJob_shape slot; rw [h]

@[simp] theorem Ctl.closeJob_blocks (c : Ctl) (slot : Fin 2) : (c.closeJob slot).blocks = c.blocks := by
  obtain ⟨_, _, h⟩ := c.closeJob_shape slot; rw [h]

@[simp] theorem Ctl.closeJob_pool (c : Ctl) (slot : Fin 2) : (c.closeJob slot).pool = c.pool := by
  obtain ⟨_, _, h⟩ := c.closeJob_shape slot; rw [h]

@[simp] theorem Ctl.closeJob_dir (c : Ctl) (slot : Fin 2) : (c.closeJob slot).dir = c.dir := by
  obtain ⟨_, _, h⟩ := c.closeJob_shape slot; rw [h]

@[simp] theorem Ctl.closeJob_fill (c : Ctl) (slot : Fin 2) : (c.closeJob slot).fill = c.fill := by
  obtain ⟨_, _, h⟩ := c.closeJob_shape slot; rw [h]

@[simp] theorem Ctl.closeJob_et (c : Ctl) (slot : Fin 2) : (c.closeJob slot).et = c.et := by
  obtain ⟨_, _, h⟩ := c.closeJob_shape slot; rw [h]

@[simp] theorem Ctl.closeJob_owed (c : Ctl) (slot : Fin 2) : (c.closeJob slot).owed = c.owed := by
  obtain ⟨_, _, h⟩ := c.closeJob_shape slot; rw [h]

@[simp] theorem Ctl.closeJob_readBack (c : Ctl) (slot : Fin 2) : (c.closeJob slot).readBack = c.readBack := by
  obtain ⟨_, _, h⟩ := c.closeJob_shape slot; rw [h]

@[simp] theorem Ctl.closeJob_rx (c : Ctl) (slot : Fin 2) : (c.closeJob slot).rx = c.rx := by
  obtain ⟨_, _, h⟩ := c.closeJob_shape slot; rw [h]

@[simp] theorem Ctl.closeJob_rxNext (c : Ctl) (slot : Fin 2) : (c.closeJob slot).rxNext = c.rxNext := by
  obtain ⟨_, _, h⟩ := c.closeJob_shape slot; rw [h]

@[simp] theorem Ctl.closeJob_peers (c : Ctl) (slot : Fin 2) : (c.closeJob slot).peers = c.peers := by
  obtain ⟨_, _, h⟩ := c.closeJob_shape slot; rw [h]

@[simp] theorem Ctl.closeJob_catchUps (c : Ctl) (slot : Fin 2) : (c.closeJob slot).catchUps = c.catchUps := by
  obtain ⟨_, _, h⟩ := c.closeJob_shape slot; rw [h]

@[simp] theorem Ctl.closeJob_repair (c : Ctl) (slot : Fin 2) : (c.closeJob slot).repair = c.repair := by
  obtain ⟨_, _, h⟩ := c.closeJob_shape slot; rw [h]

@[simp] theorem Ctl.closeJob_recheck (c : Ctl) (slot : Fin 2) : (c.closeJob slot).recheck = c.recheck := by
  obtain ⟨_, _, h⟩ := c.closeJob_shape slot; rw [h]

@[simp] theorem Ctl.closeJob_holdings (c : Ctl) (slot : Fin 2) : (c.closeJob slot).holdings = c.holdings := by
  obtain ⟨_, _, h⟩ := c.closeJob_shape slot; rw [h]

@[simp] theorem Ctl.closeJob_port (c : Ctl) (slot : Fin 2) : (c.closeJob slot).port = c.port := by
  obtain ⟨_, _, h⟩ := c.closeJob_shape slot; rw [h]

@[simp] theorem Ctl.closeJob_pair (c : Ctl) (slot : Fin 2) : (c.closeJob slot).pair = c.pair := by
  obtain ⟨_, _, h⟩ := c.closeJob_shape slot; rw [h]

@[simp] theorem Ctl.closeJob_scan (c : Ctl) (slot : Fin 2) : (c.closeJob slot).scan = c.scan := by
  obtain ⟨_, _, h⟩ := c.closeJob_shape slot; rw [h]

@[simp] theorem Ctl.closeJob_alerts (c : Ctl) (slot : Fin 2) : (c.closeJob slot).alerts = c.alerts := by
  obtain ⟨_, _, h⟩ := c.closeJob_shape slot; rw [h]

/-! ### cancelJob -/

theorem Ctl.cancelJob_shape (c : Ctl) (slot : Fin 2) :
    ∃ (tx' : Tx) (jobs' : Vector (Option Job) 2),
      c.cancelJob slot = { c with tx := tx', jobs := jobs' } := by
  unfold Ctl.cancelJob
  repeat' split
  · exact ⟨_, _, rfl⟩
  · exact ⟨_, _, rfl⟩
  · exact c.closeJob_shape _
  · exact c.closeJob_shape _

@[simp] theorem Ctl.cancelJob_station (c : Ctl) (slot : Fin 2) : (c.cancelJob slot).station = c.station := by
  obtain ⟨_, _, h⟩ := c.cancelJob_shape slot; rw [h]

@[simp] theorem Ctl.cancelJob_window (c : Ctl) (slot : Fin 2) : (c.cancelJob slot).window = c.window := by
  obtain ⟨_, _, h⟩ := c.cancelJob_shape slot; rw [h]

@[simp] theorem Ctl.cancelJob_firstWindow (c : Ctl) (slot : Fin 2) :
    (c.cancelJob slot).firstWindow = c.firstWindow := by
  obtain ⟨_, _, h⟩ := c.cancelJob_shape slot; rw [h]

@[simp] theorem Ctl.cancelJob_presence (c : Ctl) (slot : Fin 2) : (c.cancelJob slot).presence = c.presence := by
  obtain ⟨_, _, h⟩ := c.cancelJob_shape slot; rw [h]

@[simp] theorem Ctl.cancelJob_gen (c : Ctl) (slot : Fin 2) : (c.cancelJob slot).gen = c.gen := by
  obtain ⟨_, _, h⟩ := c.cancelJob_shape slot; rw [h]

@[simp] theorem Ctl.cancelJob_ownMark (c : Ctl) (slot : Fin 2) : (c.cancelJob slot).ownMark = c.ownMark := by
  obtain ⟨_, _, h⟩ := c.cancelJob_shape slot; rw [h]

@[simp] theorem Ctl.cancelJob_nextSeq (c : Ctl) (slot : Fin 2) : (c.cancelJob slot).nextSeq = c.nextSeq := by
  obtain ⟨_, _, h⟩ := c.cancelJob_shape slot; rw [h]

@[simp] theorem Ctl.cancelJob_frontier (c : Ctl) (slot : Fin 2) : (c.cancelJob slot).frontier = c.frontier := by
  obtain ⟨_, _, h⟩ := c.cancelJob_shape slot; rw [h]

@[simp] theorem Ctl.cancelJob_mark (c : Ctl) (slot : Fin 2) : (c.cancelJob slot).mark = c.mark := by
  obtain ⟨_, _, h⟩ := c.cancelJob_shape slot; rw [h]

@[simp] theorem Ctl.cancelJob_mount (c : Ctl) (slot : Fin 2) : (c.cancelJob slot).mount = c.mount := by
  obtain ⟨_, _, h⟩ := c.cancelJob_shape slot; rw [h]

@[simp] theorem Ctl.cancelJob_units (c : Ctl) (slot : Fin 2) : (c.cancelJob slot).units = c.units := by
  obtain ⟨_, _, h⟩ := c.cancelJob_shape slot; rw [h]

@[simp] theorem Ctl.cancelJob_completed (c : Ctl) (slot : Fin 2) : (c.cancelJob slot).completed = c.completed := by
  obtain ⟨_, _, h⟩ := c.cancelJob_shape slot; rw [h]

@[simp] theorem Ctl.cancelJob_blocks (c : Ctl) (slot : Fin 2) : (c.cancelJob slot).blocks = c.blocks := by
  obtain ⟨_, _, h⟩ := c.cancelJob_shape slot; rw [h]

@[simp] theorem Ctl.cancelJob_pool (c : Ctl) (slot : Fin 2) : (c.cancelJob slot).pool = c.pool := by
  obtain ⟨_, _, h⟩ := c.cancelJob_shape slot; rw [h]

@[simp] theorem Ctl.cancelJob_dir (c : Ctl) (slot : Fin 2) : (c.cancelJob slot).dir = c.dir := by
  obtain ⟨_, _, h⟩ := c.cancelJob_shape slot; rw [h]

@[simp] theorem Ctl.cancelJob_fill (c : Ctl) (slot : Fin 2) : (c.cancelJob slot).fill = c.fill := by
  obtain ⟨_, _, h⟩ := c.cancelJob_shape slot; rw [h]

@[simp] theorem Ctl.cancelJob_et (c : Ctl) (slot : Fin 2) : (c.cancelJob slot).et = c.et := by
  obtain ⟨_, _, h⟩ := c.cancelJob_shape slot; rw [h]

@[simp] theorem Ctl.cancelJob_owed (c : Ctl) (slot : Fin 2) : (c.cancelJob slot).owed = c.owed := by
  obtain ⟨_, _, h⟩ := c.cancelJob_shape slot; rw [h]

@[simp] theorem Ctl.cancelJob_readBack (c : Ctl) (slot : Fin 2) : (c.cancelJob slot).readBack = c.readBack := by
  obtain ⟨_, _, h⟩ := c.cancelJob_shape slot; rw [h]

@[simp] theorem Ctl.cancelJob_rx (c : Ctl) (slot : Fin 2) : (c.cancelJob slot).rx = c.rx := by
  obtain ⟨_, _, h⟩ := c.cancelJob_shape slot; rw [h]

@[simp] theorem Ctl.cancelJob_rxNext (c : Ctl) (slot : Fin 2) : (c.cancelJob slot).rxNext = c.rxNext := by
  obtain ⟨_, _, h⟩ := c.cancelJob_shape slot; rw [h]

@[simp] theorem Ctl.cancelJob_peers (c : Ctl) (slot : Fin 2) : (c.cancelJob slot).peers = c.peers := by
  obtain ⟨_, _, h⟩ := c.cancelJob_shape slot; rw [h]

@[simp] theorem Ctl.cancelJob_catchUps (c : Ctl) (slot : Fin 2) : (c.cancelJob slot).catchUps = c.catchUps := by
  obtain ⟨_, _, h⟩ := c.cancelJob_shape slot; rw [h]

@[simp] theorem Ctl.cancelJob_repair (c : Ctl) (slot : Fin 2) : (c.cancelJob slot).repair = c.repair := by
  obtain ⟨_, _, h⟩ := c.cancelJob_shape slot; rw [h]

@[simp] theorem Ctl.cancelJob_recheck (c : Ctl) (slot : Fin 2) : (c.cancelJob slot).recheck = c.recheck := by
  obtain ⟨_, _, h⟩ := c.cancelJob_shape slot; rw [h]

@[simp] theorem Ctl.cancelJob_holdings (c : Ctl) (slot : Fin 2) : (c.cancelJob slot).holdings = c.holdings := by
  obtain ⟨_, _, h⟩ := c.cancelJob_shape slot; rw [h]

@[simp] theorem Ctl.cancelJob_port (c : Ctl) (slot : Fin 2) : (c.cancelJob slot).port = c.port := by
  obtain ⟨_, _, h⟩ := c.cancelJob_shape slot; rw [h]

@[simp] theorem Ctl.cancelJob_pair (c : Ctl) (slot : Fin 2) : (c.cancelJob slot).pair = c.pair := by
  obtain ⟨_, _, h⟩ := c.cancelJob_shape slot; rw [h]

@[simp] theorem Ctl.cancelJob_scan (c : Ctl) (slot : Fin 2) : (c.cancelJob slot).scan = c.scan := by
  obtain ⟨_, _, h⟩ := c.cancelJob_shape slot; rw [h]

@[simp] theorem Ctl.cancelJob_alerts (c : Ctl) (slot : Fin 2) : (c.cancelJob slot).alerts = c.alerts := by
  obtain ⟨_, _, h⟩ := c.cancelJob_shape slot; rw [h]

/-! ### requestOwedCopies -/

theorem Ctl.requestCopy_shape (c : Ctl) (slot : Fin 2) :
    ∃ (tx' : Tx) (jobs' : Vector (Option Job) 2), c.requestCopy slot = { c with tx := tx', jobs := jobs' } := by
  unfold Ctl.requestCopy
  repeat' split
  all_goals exact ⟨_, _, rfl⟩

theorem Ctl.requestOwedCopies_shape (c : Ctl) :
    ∃ (tx' : Tx) (jobs' : Vector (Option Job) 2), c.requestOwedCopies = { c with tx := tx', jobs := jobs' } := by
  have one (d : Ctl) (h : ∃ tx jobs, d = { c with tx := tx, jobs := jobs }) (slot : Fin 2) :
      ∃ tx jobs, (match d.jobs.get slot with
        | some j => if j.owed && !d.tx.held.any TxBody.isAnyCopy then d.requestCopy slot else d
        | none => d) = { c with tx := tx, jobs := jobs } := by
    obtain ⟨t, j, rfl⟩ := h
    split
    · split
      · exact Ctl.requestCopy_shape { c with tx := t, jobs := j } slot
      · exact ⟨_, _, rfl⟩
    · exact ⟨_, _, rfl⟩
  exact one _ (one _ ⟨_, _, rfl⟩ 0) 1

theorem Ctl.resumeCopies_shape (c : Ctl) (before : Tx) :
    ∃ (tx' : Tx) (jobs' : Vector (Option Job) 2), c.resumeCopies before = { c with tx := tx', jobs := jobs' } := by
  unfold Ctl.resumeCopies
  split
  · exact c.requestOwedCopies_shape
  · exact ⟨_, _, rfl⟩

/-- While a COPY is held, nothing owed is requested. -/
theorem Ctl.requestOwedCopies_held {c : Ctl} (h : c.tx.held.any TxBody.isAnyCopy = true) : c.requestOwedCopies = c := by
  have one (d : Ctl) (e : d = c) (slot : Fin 2) : (match d.jobs.get slot with
      | some j => if j.owed && !d.tx.held.any TxBody.isAnyCopy then d.requestCopy slot else d
      | none => d) = c := by
    subst e
    split <;> simp [h]
  exact one _ (one _ rfl 0) 1

/-- Nothing is owed to the jobs while what was held is held still. -/
@[simp] theorem Ctl.resumeCopies_self (c : Ctl) : c.resumeCopies c.tx = c := by
  unfold Ctl.resumeCopies
  split
  · rename_i h
    exact Ctl.requestOwedCopies_held h
  · rfl

/-! ### cancelJobs -/

theorem Ctl.cancelJobs_shape (c : Ctl) (p : Job → Bool) :
    ∃ (tx' : Tx) (jobs' : Vector (Option Job) 2),
      c.cancelJobs p = { c with tx := tx', jobs := jobs' } := by
  have one (d : Ctl) (h : ∃ tx jobs, d = { c with tx := tx, jobs := jobs }) (slot : Fin 2) :
      ∃ tx jobs, (match d.jobs.get slot with
        | some j => if p j && !j.cancelled then d.cancelJob slot else d
        | none => d) = { c with tx := tx, jobs := jobs } := by
    obtain ⟨t, j, rfl⟩ := h
    split
    · split
      · exact Ctl.cancelJob_shape { c with tx := t, jobs := j } slot
      · exact ⟨_, _, rfl⟩
    · exact ⟨_, _, rfl⟩
  obtain ⟨t, j, h⟩ := one _ (one _ ⟨_, _, rfl⟩ 0) 1
  unfold Ctl.cancelJobs
  obtain ⟨t', j', h'⟩ := Ctl.resumeCopies_shape { c with tx := t, jobs := j } c.tx
  exact ⟨t', j', (congrArg (fun d => Ctl.resumeCopies d c.tx) h).trans h'⟩

@[simp] theorem Ctl.cancelJobs_station (c : Ctl) (p : Job → Bool) : (c.cancelJobs p).station = c.station := by
  obtain ⟨_, _, h⟩ := c.cancelJobs_shape p; rw [h]

@[simp] theorem Ctl.cancelJobs_window (c : Ctl) (p : Job → Bool) : (c.cancelJobs p).window = c.window := by
  obtain ⟨_, _, h⟩ := c.cancelJobs_shape p; rw [h]

@[simp] theorem Ctl.cancelJobs_firstWindow (c : Ctl) (p : Job → Bool) :
    (c.cancelJobs p).firstWindow = c.firstWindow := by
  obtain ⟨_, _, h⟩ := c.cancelJobs_shape p; rw [h]

@[simp] theorem Ctl.cancelJobs_presence (c : Ctl) (p : Job → Bool) : (c.cancelJobs p).presence = c.presence := by
  obtain ⟨_, _, h⟩ := c.cancelJobs_shape p; rw [h]

@[simp] theorem Ctl.cancelJobs_gen (c : Ctl) (p : Job → Bool) : (c.cancelJobs p).gen = c.gen := by
  obtain ⟨_, _, h⟩ := c.cancelJobs_shape p; rw [h]

@[simp] theorem Ctl.cancelJobs_ownMark (c : Ctl) (p : Job → Bool) : (c.cancelJobs p).ownMark = c.ownMark := by
  obtain ⟨_, _, h⟩ := c.cancelJobs_shape p; rw [h]

@[simp] theorem Ctl.cancelJobs_nextSeq (c : Ctl) (p : Job → Bool) : (c.cancelJobs p).nextSeq = c.nextSeq := by
  obtain ⟨_, _, h⟩ := c.cancelJobs_shape p; rw [h]

@[simp] theorem Ctl.cancelJobs_frontier (c : Ctl) (p : Job → Bool) : (c.cancelJobs p).frontier = c.frontier := by
  obtain ⟨_, _, h⟩ := c.cancelJobs_shape p; rw [h]

@[simp] theorem Ctl.cancelJobs_mark (c : Ctl) (p : Job → Bool) : (c.cancelJobs p).mark = c.mark := by
  obtain ⟨_, _, h⟩ := c.cancelJobs_shape p; rw [h]

@[simp] theorem Ctl.cancelJobs_mount (c : Ctl) (p : Job → Bool) : (c.cancelJobs p).mount = c.mount := by
  obtain ⟨_, _, h⟩ := c.cancelJobs_shape p; rw [h]

@[simp] theorem Ctl.cancelJobs_units (c : Ctl) (p : Job → Bool) : (c.cancelJobs p).units = c.units := by
  obtain ⟨_, _, h⟩ := c.cancelJobs_shape p; rw [h]

@[simp] theorem Ctl.cancelJobs_completed (c : Ctl) (p : Job → Bool) : (c.cancelJobs p).completed = c.completed := by
  obtain ⟨_, _, h⟩ := c.cancelJobs_shape p; rw [h]

@[simp] theorem Ctl.cancelJobs_blocks (c : Ctl) (p : Job → Bool) : (c.cancelJobs p).blocks = c.blocks := by
  obtain ⟨_, _, h⟩ := c.cancelJobs_shape p; rw [h]

@[simp] theorem Ctl.cancelJobs_pool (c : Ctl) (p : Job → Bool) : (c.cancelJobs p).pool = c.pool := by
  obtain ⟨_, _, h⟩ := c.cancelJobs_shape p; rw [h]

@[simp] theorem Ctl.cancelJobs_dir (c : Ctl) (p : Job → Bool) : (c.cancelJobs p).dir = c.dir := by
  obtain ⟨_, _, h⟩ := c.cancelJobs_shape p; rw [h]

@[simp] theorem Ctl.cancelJobs_fill (c : Ctl) (p : Job → Bool) : (c.cancelJobs p).fill = c.fill := by
  obtain ⟨_, _, h⟩ := c.cancelJobs_shape p; rw [h]

@[simp] theorem Ctl.cancelJobs_et (c : Ctl) (p : Job → Bool) : (c.cancelJobs p).et = c.et := by
  obtain ⟨_, _, h⟩ := c.cancelJobs_shape p; rw [h]

@[simp] theorem Ctl.cancelJobs_owed (c : Ctl) (p : Job → Bool) : (c.cancelJobs p).owed = c.owed := by
  obtain ⟨_, _, h⟩ := c.cancelJobs_shape p; rw [h]

@[simp] theorem Ctl.cancelJobs_readBack (c : Ctl) (p : Job → Bool) : (c.cancelJobs p).readBack = c.readBack := by
  obtain ⟨_, _, h⟩ := c.cancelJobs_shape p; rw [h]

@[simp] theorem Ctl.cancelJobs_rx (c : Ctl) (p : Job → Bool) : (c.cancelJobs p).rx = c.rx := by
  obtain ⟨_, _, h⟩ := c.cancelJobs_shape p; rw [h]

@[simp] theorem Ctl.cancelJobs_rxNext (c : Ctl) (p : Job → Bool) : (c.cancelJobs p).rxNext = c.rxNext := by
  obtain ⟨_, _, h⟩ := c.cancelJobs_shape p; rw [h]

@[simp] theorem Ctl.cancelJobs_peers (c : Ctl) (p : Job → Bool) : (c.cancelJobs p).peers = c.peers := by
  obtain ⟨_, _, h⟩ := c.cancelJobs_shape p; rw [h]

@[simp] theorem Ctl.cancelJobs_catchUps (c : Ctl) (p : Job → Bool) : (c.cancelJobs p).catchUps = c.catchUps := by
  obtain ⟨_, _, h⟩ := c.cancelJobs_shape p; rw [h]

@[simp] theorem Ctl.cancelJobs_repair (c : Ctl) (p : Job → Bool) : (c.cancelJobs p).repair = c.repair := by
  obtain ⟨_, _, h⟩ := c.cancelJobs_shape p; rw [h]

@[simp] theorem Ctl.cancelJobs_recheck (c : Ctl) (p : Job → Bool) : (c.cancelJobs p).recheck = c.recheck := by
  obtain ⟨_, _, h⟩ := c.cancelJobs_shape p; rw [h]

@[simp] theorem Ctl.cancelJobs_holdings (c : Ctl) (p : Job → Bool) : (c.cancelJobs p).holdings = c.holdings := by
  obtain ⟨_, _, h⟩ := c.cancelJobs_shape p; rw [h]

@[simp] theorem Ctl.cancelJobs_port (c : Ctl) (p : Job → Bool) : (c.cancelJobs p).port = c.port := by
  obtain ⟨_, _, h⟩ := c.cancelJobs_shape p; rw [h]

@[simp] theorem Ctl.cancelJobs_pair (c : Ctl) (p : Job → Bool) : (c.cancelJobs p).pair = c.pair := by
  obtain ⟨_, _, h⟩ := c.cancelJobs_shape p; rw [h]

@[simp] theorem Ctl.cancelJobs_scan (c : Ctl) (p : Job → Bool) : (c.cancelJobs p).scan = c.scan := by
  obtain ⟨_, _, h⟩ := c.cancelJobs_shape p; rw [h]

@[simp] theorem Ctl.cancelJobs_alerts (c : Ctl) (p : Job → Bool) : (c.cancelJobs p).alerts = c.alerts := by
  obtain ⟨_, _, h⟩ := c.cancelJobs_shape p; rw [h]

/-! ### transmit and sweepAll -/

/-- A transmission changes the transmit queue, the Extent Table, what is owed and the read-back. -/
theorem Ctl.transmit_shape (c : Ctl) (k : Env) (seq : Word) (ext : Nat) (mask : Byte) :
    ∃ (tx' : Tx) (et' : List ETEntry) (owed' : List Wanted) (readBack' : ReadBack) (units' : Vector UnitState 2),
      c.transmit k seq ext mask =
        { c with tx := tx', et := et', owed := owed', readBack := readBack', units := units' } := by
  have hs (i : ExtentInfo) (src : ExtSource) : ∃ tx et owed rb us, c.sendExtent seq i mask src =
      { c with tx := tx, et := et, owed := owed, readBack := rb, units := us } := by
    unfold Ctl.sendExtent
    repeat' split
    all_goals exact ⟨_, _, _, _, _, rfl⟩
  have hr (d : Ctl) (hd : ∃ rb, d = { c with readBack := rb }) : ∃ tx et owed rb us, d.startReadBack k =
      { c with tx := tx, et := et, owed := owed, readBack := rb, units := us } := by
    obtain ⟨rb, rfl⟩ := hd
    unfold Ctl.startReadBack
    repeat' split
    all_goals exact ⟨_, _, _, _, _, rfl⟩
  unfold Ctl.transmit
  dsimp only
  repeat' first | split | dsimp only
  all_goals first
    | exact hs _ _
    | exact hr _ ⟨_, rfl⟩
    | exact ⟨_, _, _, _, _, rfl⟩

/-- Requesting what is owed, and freeing what is unwanted, changes only the transmit side. -/
theorem Ctl.sweepAll_shape (c : Ctl) (k : Env) :
    ∃ (tx' : Tx) (et' : List ETEntry) (owed' : List Wanted) (readBack' : ReadBack) (units' : Vector UnitState 2)
      (fill' : Vector (Option FillPage) 2),
      c.sweepAll k =
        { c with tx := tx', et := et', owed := owed', readBack := readBack', units := units', fill := fill' } := by
  have hl (l : List Wanted) (d : Ctl) (hd : ∃ tx et owed rb us,
      d = { c with tx := tx, et := et, owed := owed, readBack := rb, units := us }) :
      ∃ tx et owed rb us, l.foldl (fun c w => c.transmit k w.seq w.ext w.mask) d =
        { c with tx := tx, et := et, owed := owed, readBack := rb, units := us } := by
    induction l generalizing d with
    | nil => exact hd
    | cons w l ih =>
      refine ih _ ?_
      obtain ⟨tx, et, owed, rb, us, rfl⟩ := hd
      obtain ⟨_, _, _, _, _, h⟩ := Ctl.transmit_shape { c with tx := tx, et := et, owed := owed, readBack := rb,
                                                               units := us } k w.seq w.ext w.mask
      exact ⟨_, _, _, _, _, h⟩
  obtain ⟨tx, et, owed, rb, us, h⟩ : ∃ tx et owed rb us, c.sweepOwed k =
      { c with tx := tx, et := et, owed := owed, readBack := rb, units := us } := by
    unfold Ctl.sweepOwed Ctl.requestOwed
    split
    · exact ⟨_, _, _, _, _, rfl⟩
    · exact hl _ _ ⟨_, _, _, _, _, rfl⟩
  obtain ⟨u, f, r, h'⟩ := (c.sweepOwed k).sweep_shape k
  exact ⟨_, _, _, _, _, _, by rw [Ctl.sweepAll, h', h]⟩

@[simp] theorem Ctl.sweepAll_dir (c : Ctl) (k : Env) : (c.sweepAll k).dir = c.dir := by
  obtain ⟨_, _, _, _, _, _, h⟩ := c.sweepAll_shape k; rw [h]

@[simp] theorem Ctl.sweepAll_blocks (c : Ctl) (k : Env) : (c.sweepAll k).blocks = c.blocks := by
  obtain ⟨_, _, _, _, _, _, h⟩ := c.sweepAll_shape k; rw [h]

@[simp] theorem Ctl.sweepAll_port (c : Ctl) (k : Env) : (c.sweepAll k).port = c.port := by
  obtain ⟨_, _, _, _, _, _, h⟩ := c.sweepAll_shape k; rw [h]

@[simp] theorem Ctl.sweepAll_rx (c : Ctl) (k : Env) : (c.sweepAll k).rx = c.rx := by
  obtain ⟨_, _, _, _, _, _, h⟩ := c.sweepAll_shape k; rw [h]

@[simp] theorem Ctl.sweepAll_jobs (c : Ctl) (k : Env) : (c.sweepAll k).jobs = c.jobs := by
  obtain ⟨_, _, _, _, _, _, h⟩ := c.sweepAll_shape k; rw [h]

@[simp] theorem Ctl.sweepAll_alerts (c : Ctl) (k : Env) : (c.sweepAll k).alerts = c.alerts := by
  obtain ⟨_, _, _, _, _, _, h⟩ := c.sweepAll_shape k; rw [h]

@[simp] theorem Ctl.sweepAll_repair (c : Ctl) (k : Env) : (c.sweepAll k).repair = c.repair := by
  obtain ⟨_, _, _, _, _, _, h⟩ := c.sweepAll_shape k; rw [h]

end Sys2Proof.Machine
end

