-- ==== Sys2Proof/Laws/Parts.lean ====
section
/-!
SUPPORT. Facts about single parts of the controller: how a command's answer is written as a next state, which fields a
frame record fixes, and what the shared updates do to the directory, the Extent Table, the mark log and the port.
-/

namespace Sys2Proof.Machine

/-! ## Answers of commands -/

theorem next_onCtl (s : State) (f : Ctl → Env → Ctl) (h : s.env.rstLow = false) :
    Host.Outcome.next (φ := Fault) (ρ := Refusal) (s.onCtl f) = .next { s with ctl := f s.ctl s.env } := by
  rw [State.onCtl_high _ _ h]

theorem next_onCtlFresh (s : State) (f : Ctl → Env → Ctl) (h : s.env.rstLow = false) :
    Host.Outcome.next (φ := Fault) (ρ := Refusal) (s.onCtlFresh f) =
      .next { s with env := { s.env with fresh := s.env.fresh + 1 }, ctl := f s.ctl s.env } := by
  rw [State.onCtlFresh_high _ _ h]

/-- A page read's completion with its unit busy for the kind and none completed at a grant. -/
theorem next_pageReadDone {s : State} {u : UnitNo} {p : Requester → Bool} {r : ReadReport}
    {f : Ctl → Env → Requester → PageAddr → Option PageRead → Ctl} {b : Busy} (h : s.env.rstLow = false)
    (hc : s.ctl.takeCompleted u p = none) (hb : (s.ctl.units.get u).busy = some b) (hp : p b.req.who = true) :
    Host.Outcome.next (φ := Fault) (ρ := Refusal) (s.pageReadDone u p r f) =
      .next { s with
        env := { s.env with fresh := s.env.fresh + 1 },
        flash := s.flash.afterRead b.req.pageOf r,
        ctl := f (s.ctl.setUnit u { s.ctl.units.get u with busy := none }) s.env b.req.who b.req.pageOf
          (some (s.flash.readPage b.req.pageOf r s.env.fresh)) } := by
  unfold State.pageReadDone
  rw [if_neg (by simp [h]), hc]
  have : s.ctl.takeBusy u p = some (b, s.ctl.setUnit u { s.ctl.units.get u with busy := none }) := by
    unfold Ctl.takeBusy
    rw [hb]
    simp [hp]
  simp only [this]

/-- A page read's completion for a request that completed NOT-HELD at its grant. -/
theorem next_pageReadDone_notHeld {s : State} {u : UnitNo} {p : Requester → Bool} {r : ReadReport}
    {f : Ctl → Env → Requester → PageAddr → Option PageRead → Ctl} {x : Completion} {c : Ctl} (h : s.env.rstLow = false)
    (hc : s.ctl.takeCompleted u p = some (x, c)) :
    Host.Outcome.next (φ := Fault) (ρ := Refusal) (s.pageReadDone u p r f) =
      .next { s with ctl := f c s.env x.req.who x.req.pageOf none } := by
  unfold State.pageReadDone
  rw [if_neg (by simp [h]), hc]

/-- A program's completion with its unit busy for the kind and none completed at a grant. -/
theorem next_programDone {s : State} {u : UnitNo} {p : Requester → Bool} {r : ProgramReport}
    {f : Ctl → Env → Requester → ProgramReq → ProgramOut → Ctl} {b : Busy} {q : ProgramReq} (h : s.env.rstLow = false)
    (hc : s.ctl.takeCompleted u p = none) (hb : (s.ctl.units.get u).busy = some b) (hp : p b.req.who = true)
    (hq : b.req.op = .program q) :
    Host.Outcome.next (φ := Fault) (ρ := Refusal) (s.programDone u p r f) =
      .next { s with
        env := { s.env with fresh := s.env.fresh + 1 },
        flash := s.flash.afterProgram q b.data r s.env.fresh,
        ctl := f (s.ctl.setUnit u { s.ctl.units.get u with busy := none }) s.env b.req.who q (programOut r) } := by
  unfold State.programDone
  rw [if_neg (by simp [h]), hc]
  have : s.ctl.takeBusy u p = some (b, s.ctl.setUnit u { s.ctl.units.get u with busy := none }) := by
    unfold Ctl.takeBusy
    rw [hb]
    simp [hp]
  simp only [this, hq]

/-- An erase's completion with its unit busy for the kind. -/
theorem next_eraseDone {s : State} {u : UnitNo} {p : Requester → Bool} {r : EraseReport} {f : Ctl → Nat → Bool → Ctl}
    {b : Busy} (h : s.env.rstLow = false) (hb : (s.ctl.units.get u).busy = some b) (hp : p b.req.who = true) :
    Host.Outcome.next (φ := Fault) (ρ := Refusal) (s.eraseDone u p r f) =
      .next { s with
        env := { s.env with fresh := s.env.fresh + 1 },
        flash := s.flash.afterErase b.req.op.block r s.env.fresh,
        ctl := f (s.ctl.setUnit u { s.ctl.units.get u with busy := none }) b.req.op.block (erasePassed r) } := by
  unfold State.eraseDone
  rw [if_neg (by simp [h])]
  have : s.ctl.takeBusy u p = some (b, s.ctl.setUnit u { s.ctl.units.get u with busy := none }) := by
    unfold Ctl.takeBusy
    rw [hb]
    simp [hp]
  simp only [this]

/-- The last argument byte of the command that the port collects completes it. -/
theorem Ctl.takeLast_of {c : Ctl} {cmd : ArgCmd} {args : List Byte} (h : c.port.act = .collecting cmd args)
    (hl : args.length + 1 = cmd.bytes) (d : Byte) (f : Ctl → List Byte → Ctl) :
    c.takeLast cmd d f = f c.takeCommand (args ++ [d]) := by
  simp [Ctl.takeLast, Ctl.lastArgument, h, hl]

/-- What an equality of frame records says of each field. -/
theorem Ctl.still_eq {c d : Ctl} (h : d.still = c.still) :
    d.station = c.station ∧ d.window = c.window ∧ d.firstWindow = c.firstWindow ∧ d.presence = c.presence ∧
    d.gen = c.gen ∧ d.ownMark = c.ownMark ∧ d.nextSeq = c.nextSeq ∧ d.mark = c.mark ∧ d.mount = c.mount ∧
    d.completed = c.completed ∧ d.peers = c.peers ∧ d.holdings = c.holdings ∧ d.pair = c.pair ∧ d.scan = c.scan ∧
    d.alerts.enabled = c.alerts.enabled := by
  simp only [Ctl.still, Ctl.mk.injEq, AlertSet.mk.injEq] at h
  simp_all

theorem Ctl.openPage_takeCommand (c : Ctl) (k : Env) : c.takeCommand.openPage k = c.openPage k := rfl

/-! ## The directory -/

@[simp] theorem Ctl.withDir_dir (c : Ctl) (d : List Entry) : (c.withDir d).dir = d := by
  unfold Ctl.withDir
  dsimp only
  split
  · rfl
  · split
    · simp
    · rfl

@[simp] theorem Ctl.update_dir (c : Ctl) (k : Env) (id : PageId) (f : Entry → Entry) :
    (c.update k id f).dir = c.dir.map (fun e => if e.id = id then c.flagged k (f e) else e) := by
  simp [Ctl.update]

/-- A directory whose under-copied count is as before gives no notice but that of a count of 0 (R37, R153). -/
theorem Ctl.withDir_same {c : Ctl} {d : List Entry} (h : underCount d = underCount c.dir) :
    c.withDir d = { c with dir := d, recheck := if underCount d = 0 then none else c.recheck } := by
  unfold Ctl.withDir
  dsimp only
  split
  · rfl
  · rw [if_neg (by omega)]

/-- A lookup in an updated directory. -/
theorem Ctl.entry_update {c : Ctl} {k : Env} {id : PageId} {f : Entry → Entry} (hf : ∀ e, (f e).id = e.id) (x : PageId) :
    (c.update k id f).entry x = (c.entry x).map (fun e => if e.id = id then c.flagged k (f e) else e) := by
  simp only [Ctl.entry, Ctl.update_dir, List.find?_map]
  congr 1
  refine congrFun (congrArg _ (funext fun e => ?_)) _
  simp only [Function.comp]
  split
  · simp [Ctl.flagged, hf]
  · rfl

theorem Ctl.entry_id {c : Ctl} {id : PageId} {e : Entry} (h : c.entry id = some e) : e.id = id := by
  have := List.find?_some h
  simpa using this

/-- The flag of an entry put in counts as it is. -/
theorem underCount_putEntry (e : Entry) (d : List Entry) :
    underCount (putEntry e d) = underCount d + (if e.under then 1 else 0) := by
  induction d with
  | nil => cases h : e.under <;> simp [putEntry, underCount, countOf, h]
  | cons y ys ih =>
    unfold putEntry
    split
    · cases h : e.under <;> simp [underCount, countOf, List.filter_cons, h]
    · simp only [underCount, countOf, List.filter_cons] at ih ⊢
      split
      · simp only [List.length_cons, ih]
        omega
      · exact ih

/-- An allocation changes the block table, the pool and the pending causes, and gives the next page of the open block or
page 0 of the head of the pool (R44, R45). -/
theorem Ctl.allocate_spec {c : Ctl} {kind : Role} {relocation : Bool} {p : PageAddr}
    (h : (∃ bl, c.openBlock kind = some bl ∧ p = { block := bl.num, page := bl.next }) ∨
      (c.openBlock kind = none ∧ (relocation = true ∨ 3 ≤ c.pool.length) ∧ c.pool.head? = some p.block ∧ p.page = 0)) :
    ∃ bs al, c.allocate kind relocation = some (p,
      { c with blocks := bs, pool := if c.openBlock kind = none then c.pool.tail else c.pool, alerts := al }) ∧
      al.enabled = c.alerts.enabled := by
  unfold Ctl.allocate
  rcases h with ⟨bl, hb, rfl⟩ | ⟨hb, hr, hh, hp⟩
  · simp only [hb]
    rw [if_neg (by simp)]
    exact ⟨_, _, rfl, rfl⟩
  · simp only [hb]
    cases hpool : c.pool with
    | nil => rw [hpool] at hh; simp at hh
    | cons n rest =>
      rw [hpool] at hh hr
      simp only [List.head?_cons, Option.some.injEq] at hh
      dsimp only
      rw [if_pos (by rcases hr with hr | hr <;> simp only [hr, decide_true, Bool.or_true, Bool.true_or])]
      have e1 : ({ block := n, page := 0 } : PageAddr) = p := by
        cases p
        simp only at hh hp
        simp [hh, hp]
      unfold Ctl.giveOut Ctl.takeHead
      dsimp only
      rw [e1]
      split
      · exact ⟨_, _, rfl, rfl⟩
      · exact ⟨_, _, rfl, rfl⟩

/-- An allocation is refused (R45). -/
theorem Ctl.allocate_none {c : Ctl} {kind : Role} (h : c.openBlock kind = none) (hp : c.pool.length < 3) :
    c.allocate kind false = none := by
  unfold Ctl.allocate
  rw [h]
  dsimp only
  split
  · rfl
  · rename_i n rest hh
    rw [if_neg]
    simp only [Bool.false_or, decide_eq_true_eq, not_le]
    exact hp

/-! ## The mark log -/

theorem Ctl.failMarkCauses_shape (c : Ctl) : ∃ p, c.failMarkCauses = { c with port := p } := by
  unfold Ctl.failMarkCauses
  repeat' split
  all_goals exact ⟨_, rfl⟩

theorem Ctl.enterFrozen_shape (c : Ctl) :
    c.enterFrozen = { c with station := .frozen,
                             alerts := { c.alerts with pending := c.alerts.pending ||| Cause.fault.bit } } := by
  unfold Ctl.enterFrozen Ctl.enterState Ctl.cutShort
  split
  · rfl
  · rw [if_pos (by rfl)]
    rfl

/-- A write of wanted values changes the mark log, the units, and, when the log is unwritable, the port, the station state
and the alerts. -/
theorem Ctl.want_shape (c : Ctl) (f : MarkVals → MarkVals) :
    ∃ st m p us al, c.want f = { c with station := st, mark := m, port := p, units := us, alerts := al } := by
  unfold Ctl.want Ctl.beginWrite
  split
  · exact ⟨_, _, _, _, _, rfl⟩
  · split
    · unfold Ctl.markUnwritable Ctl.oweFrozen
      obtain ⟨p, hp⟩ := Ctl.failMarkCauses_shape
        ((c.onMark (fun m => { m with wanted := f m.wanted })).onMark (fun m => { m with write := none }))
      rw [hp]
      dsimp only
      split
      · rw [Ctl.enterFrozen_shape]
        exact ⟨_, _, _, _, _, rfl⟩
      · exact ⟨_, _, _, _, _, rfl⟩
    · unfold Ctl.writeMark
      dsimp only
      split <;> exact ⟨_, _, _, _, _, rfl⟩

/-- A write of wanted values takes no waiting request away. -/
theorem Ctl.want_queue (c : Ctl) (f : MarkVals → MarkVals) (u : UnitNo) :
    (c.units.get u).queue <+: ((c.want f).units.get u).queue := by
  have kept : ∀ r : Request, ∀ d : Ctl, d.units = c.units → (c.units.get u).queue <+: ((d.enter r).units.get u).queue :=
    fun r d hd => by
      rw [← hd]
      exact (Ctl.enter_calm (w := false) (Calm.refl d) r).queue rfl u
  unfold Ctl.want Ctl.beginWrite
  split
  · exact List.prefix_rfl
  · split
    · unfold Ctl.markUnwritable Ctl.oweFrozen
      obtain ⟨p, hp⟩ := Ctl.failMarkCauses_shape
        ((c.onMark (fun m => { m with wanted := f m.wanted })).onMark (fun m => { m with write := none }))
      rw [hp]
      dsimp only
      split
      · rw [Ctl.enterFrozen_shape]
        exact List.prefix_rfl
      · exact List.prefix_rfl
    · unfold Ctl.writeMark
      dsimp only
      split <;> exact kept _ _ rfl

/-- The request that carries out a write of a mark page: the program, or first the erase of the other block (R65, R67). -/
def MarkLog.writeReq (m : MarkLog) : Request :=
  if 128 ≤ m.next then { who := .markErase, op := .erase m.other.val, emergency := false }
  else markProgramReq m.block m.next

/-- A write begins when it may and a wanted value differs (R65). -/
theorem Ctl.want_begins {c : Ctl} {f : MarkVals → MarkVals} (hw : c.mark.write = none) (hf : c.mark.frozenOwed = false)
    (hs : c.mark.recordedSeq ≠ topSeq) (hne : f c.mark.wanted ≠ c.mark.recorded) :
    c.want f = Ctl.enter
      { c with mark := { c.mark with
          wanted := f c.mark.wanted,
          write := some { vals := f c.mark.wanted, seq := c.mark.recordedSeq + 1, erasing := decide (128 ≤ c.mark.next) } } }
      c.mark.writeReq := by
  unfold Ctl.want Ctl.beginWrite
  rw [if_neg (by simp [Ctl.onMark, hw, hf, hne]), if_neg (by simpa [Ctl.onMark] using hs)]
  unfold Ctl.writeMark MarkLog.writeReq
  by_cases h : 128 ≤ c.mark.next
  · rw [if_pos h]
    simp only [Ctl.onMark, h, decide_true, if_true]
    rfl
  · rw [if_neg h]
    simp only [Ctl.onMark, h, decide_false, Bool.false_eq_true, if_false]
    rfl

/-- While a write is in progress a cause only raises the wanted values (R65). -/
theorem Ctl.want_waits {c : Ctl} {f : MarkVals → MarkVals} {w : MarkWrite} (hw : c.mark.write = some w) :
    c.want f = { c with mark := { c.mark with wanted := f c.mark.wanted } } := by
  unfold Ctl.want Ctl.beginWrite
  rw [if_pos (by simp [Ctl.onMark, hw])]
  rfl

/-- With no mark write in progress there is none to renew (R73). -/
theorem Ctl.renewGeneration_idle {c : Ctl} (hw : c.mark.write = none) : c.renewGeneration = c := by
  unfold Ctl.renewGeneration Ctl.onMark
  split
  · rfl
  · simp only [hw, Option.map_none]
    rw [← hw]

/-- A mark write that is not granted carries the generation in use, when it carried one not yet recorded (R73). -/
theorem Ctl.renewGeneration_waiting {c : Ctl} {w : MarkWrite} (hw : c.mark.write = some w) (hg : c.markGranted = false)
    (hne : w.vals.gen ≠ c.mark.recorded.gen) :
    c.renewGeneration =
      { c with mark := { c.mark with write := some { w with vals := { w.vals with gen := c.gen } } } } := by
  unfold Ctl.renewGeneration Ctl.onMark
  simp [hw, hg, hne]

/-- What the renewal of a waiting mark write leaves: everything but the write in progress (R73). -/
theorem Ctl.renewGeneration_shape (c : Ctl) : ∃ w, c.renewGeneration = { c with mark := { c.mark with write := w } } := by
  unfold Ctl.renewGeneration Ctl.onMark
  split
  · exact ⟨_, rfl⟩
  · exact ⟨_, rfl⟩

theorem ceilingAbove_gt {a b : Word} (h : a < b) : a < ceilingAbove a := by
  have hb := b.isLt
  simp only [BitVec.lt_def] at h ⊢
  unfold ceilingAbove wordOf
  rw [BitVec.toNat_ofNat, Nat.mod_eq_of_lt (by omega)]
  omega

theorem maxSeq_ge_right (a b : Word) : b ≤ maxSeq a b := by
  unfold maxSeq
  split
  · exact BitVec.le_refl _
  · rename_i h
    simpa [BitVec.not_lt] using h

/-! ## The fill pair and the Extent Table -/

theorem Ctl.openPage_spec {c : Ctl} {k : Env} {b : Fin 2} {p : FillPage} (h : c.openPage k = some (b, p)) :
    c.fill.get b = some p ∧ ∃ e, c.ownEntry k p.seq = some e ∧ e.closed = false := by
  have one (i : Fin 2) (x : Fin 2 × FillPage)
      (hx : (match c.fill.get i with
        | some p =>
          match c.ownEntry k p.seq with
          | some e => if e.closed then none else some (i, p)
          | none => none
        | none => none) = some x) :
      c.fill.get x.1 = some x.2 ∧ ∃ e, c.ownEntry k x.2.seq = some e ∧ e.closed = false := by
    split at hx
    · rename_i q hq
      split at hx
      · rename_i e he
        split at hx
        · simp at hx
        · rename_i hcl
          simp only [Option.some.injEq] at hx
          subst hx
          exact ⟨hq, e, he, by simpa using hcl⟩
      · simp at hx
    · simp at hx
  unfold Ctl.openPage at h
  dsimp only at h
  split at h
  · rename_i x hx
    simp only [Option.some.injEq] at h
    subst h
    exact one 0 _ hx
  · exact one 1 _ h

/-- A fill buffer that holds the page is found. -/
theorem Ctl.fillOf_isSome {c : Ctl} {b : Fin 2} {p : FillPage} (h : c.fill.get b = some p) :
    ∃ x, c.fillOf p.seq = some x := by
  unfold Ctl.fillOf
  dsimp only
  split
  · exact ⟨_, rfl⟩
  · rename_i h0
    match b with
    | 0 => rw [h] at h0; simp at h0
    | 1 => rw [h]; exact ⟨_, if_pos rfl⟩

/-- A change of Extent Table entries that leaves their keys, places in the page and local programs. -/
def ETEntry.keeps (g : ETEntry → ETEntry) : Prop :=
  ∀ x, (g x).seq = x.seq ∧ (g x).ext = x.ext ∧ (g x).first = x.first ∧ (g x).count = x.count ∧ (g x).prog = x.prog ∧
    (g x).settled = x.settled

theorem Ctl.countAttempts_et (c : Ctl) (seq : Word) (ext : Nat) (mask : Byte) :
    ∃ g, ETEntry.keeps g ∧ (∀ x, ¬ (x.seq = seq ∧ x.ext = ext) → g x = x) ∧
      (c.countAttempts seq ext mask).et = c.et.map g := by
  refine ⟨_, ?_, ?_, rfl⟩
  · intro x
    dsimp only
    split
    · split <;> exact ⟨rfl, rfl, rfl, rfl, rfl, rfl⟩
    · exact ⟨rfl, rfl, rfl, rfl, rfl, rfl⟩
  · intro x hx
    dsimp only
    split
    · rename_i hs
      rw [if_neg (fun he => hx ⟨hs, he⟩)]
    · rfl

theorem Ctl.sendExtent_et (c : Ctl) (seq : Word) (i : ExtentInfo) (mask : Byte) (src : ExtSource) :
    ∃ g, ETEntry.keeps g ∧ (∀ x, ¬ (x.seq = seq ∧ x.ext = i.number) → g x = x) ∧
      (c.sendExtent seq i mask src).et = c.et.map g := by
  unfold Ctl.sendExtent
  split
  · exact Ctl.countAttempts_et (c.onTx _) seq i.number mask
  · split
    · refine ⟨_, ?_, ?_, rfl⟩
      · intro x
        dsimp only
        split
        · split <;> exact ⟨rfl, rfl, rfl, rfl, rfl, rfl⟩
        · exact ⟨rfl, rfl, rfl, rfl, rfl, rfl⟩
      · intro x hx
        dsimp only
        split
        · rename_i hs
          rw [if_neg (fun he => hx ⟨hs, he⟩)]
        · rfl
    · exact Ctl.countAttempts_et (c.onTx _) seq i.number mask

theorem ETEntry.keeps_id : ETEntry.keeps id := fun _ => ⟨rfl, rfl, rfl, rfl, rfl, rfl⟩

/-- A transmission from the fill buffer changes no entry but that of its extent, and of that one no key. -/
theorem Ctl.transmit_et {c : Ctl} {k : Env} {seq : Word} (ext : Nat) (mask : Byte) {x : Fin 2 × FillPage}
    (h : c.fillOf seq = some x) :
    ∃ g, ETEntry.keeps g ∧ (∀ y, ¬ (y.seq = seq ∧ y.ext = ext) → g y = y) ∧
      (c.transmit k seq ext mask).et = c.et.map g := by
  unfold Ctl.transmit
  split
  · exact ⟨id, ETEntry.keeps_id, fun _ _ => rfl, by simp⟩
  · obtain ⟨b, p⟩ := x
    simp only [h]
    split
    · rename_i i hi
      have hn : i.number = ext := by simpa using List.find?_some hi
      rw [← hn]
      exact Ctl.sendExtent_et _ _ _ _ _
    · exact ⟨id, ETEntry.keeps_id, fun _ _ => rfl, by simp⟩

@[simp] theorem Ctl.sendExtent_port (c : Ctl) (seq : Word) (i : ExtentInfo) (mask : Byte) (src : ExtSource) :
    (c.sendExtent seq i mask src).port = c.port := by
  unfold Ctl.sendExtent
  split
  · rfl
  · split <;> rfl

@[simp] theorem Ctl.transmit_port (c : Ctl) (k : Env) (seq : Word) (ext : Nat) (mask : Byte) :
    (c.transmit k seq ext mask).port = c.port := by
  unfold Ctl.transmit
  split
  · rfl
  · split
    · split <;> simp
    · dsimp only
      repeat' split
      all_goals first | rfl | simp

/-- The next program of a page whose block is not RETIRED is requested in place: it changes the directory and the queue of
its unit alone (R114). -/
theorem Ctl.requestProgram_inPlace {c : Ctl} {k : Env} {seq : Word}
    (h : ∀ e a, c.ownEntry k seq = some e → e.localPage = some a → c.inRetired a = false) :
    c.requestProgram k seq = c ∨ ∃ f r, (∀ e, (f e).id = e.id) ∧ c.requestProgram k seq = (c.update k (ownId k seq) f).enter r := by
  unfold Ctl.requestProgram
  split
  · rename_i e he
    split
    · exact Or.inl rfl
    · split
      · rename_i a ha
        rw [if_neg (by rw [h _ _ he ha]; simp)]
        refine Or.inr ⟨fun e => { e with pendingExt := some _ }, _, fun _ => rfl, rfl⟩
      · exact Or.inl rfl
  · exact Or.inl rfl

theorem Ctl.inRetired_congr {c d : Ctl} (h : d.blocks = c.blocks) (a : PageAddr) : d.inRetired a = c.inRetired a := by
  simp [Ctl.inRetired, Ctl.blockState, Ctl.block, h]

/-! ## The array -/

/-- Two parts of a page have no byte in common (Table 11-2). -/
theorem PageAddr.inPart_unique {a : PageAddr} {k k' x : Nat} (hk : k < 12) (hk' : k' < 12) (h : a.inPart k x)
    (h' : a.inPart k' x) : k = k' := by
  unfold PageAddr.inPart PageAddr.partBase partOffset partLength at h h'
  split_ifs at h h' <;> omega

theorem PageAddr.inPart_add {a : PageAddr} {k j : Nat} (h : j < partLength k) : a.inPart k (a.partBase k + j) :=
  ⟨by omega, by omega⟩

theorem PageAddr.partNo_inj {a : PageAddr} {k k' : Nat} (h : a.partNo k = a.partNo k') : k = k' := by
  unfold PageAddr.partNo at h
  omega

/-- A part that is written once in a list of parts reads as it was written, and is programmed (R16, R21). -/
theorem Flash.writeParts_read {a : PageAddr} {l : List (Nat × List Byte)} {f : Flash} {k : Nat} {bytes : List Byte}
    (hn : (l.map Prod.fst).Nodup) (hl : ∀ y ∈ l, y.1 < 12) (hm : (k, bytes) ∈ l) (hb : bytes.length = partLength k) :
    (f.writeParts a l).programmed a k = true ∧
      ∀ j, j < partLength k → (f.writeParts a l).byteAt (a.partBase k + j) = bytes.getD j 0 := by
  induction l generalizing f with
  | nil => simp at hm
  | cons y rest ih =>
    rw [List.map_cons, List.nodup_cons] at hn
    have hr : ∀ z ∈ rest, z.1 < 12 := fun z hz => hl z (by simp [hz])
    rcases List.mem_cons.1 hm with hy | hy
    · subst hy
      have hk : k < 12 := hl (k, bytes) (by simp)
      have hne : ∀ z ∈ rest, z.1 ≠ k := fun z hz h => hn.1 (List.mem_map.2 ⟨z, hz, h⟩)
      have e : f.writeParts a ((k, bytes) :: rest) = (f.writePart a k bytes).writeParts a rest := rfl
      rw [e]
      refine ⟨?_, fun j hj => ?_⟩
      · unfold Flash.programmed
        rw [List.contains_iff_mem,
          Flash.mem_writeParts a rest _ _ (fun z hz h => hne z hz (PageAddr.partNo_inj h).symm)]
        unfold Flash.writePart
        rw [if_pos hk]
        exact (mem_insertNat _ _ _).2 (Or.inl rfl)
      · rw [Flash.byteAt_writeParts a rest _ _ (fun z hz h =>
          hne z hz (PageAddr.inPart_unique (hr z hz) hk h (PageAddr.inPart_add hj)))]
        unfold Flash.writePart Flash.byteAt
        rw [if_pos hk]
        dsimp only
        rw [List.take_of_length_le (by omega), Memory.read_write, if_pos ⟨by omega, by omega⟩]
        rw [show a.partBase k + j - a.partBase k = j by omega]
        simp only [List.getD_eq_getElem?_getD]
        rw [List.getElem?_eq_getElem (by omega)]
        rfl
    · exact ih hn.2 hr hy

end Sys2Proof.Machine
end

