-- ==== Sys2Proof/Laws/Engines.lean ====
section
/-!
SUPPORT. What the engines' shared operations do under simple conditions: when a judging again, a test of durability, a
request for the next program or a sweep changes nothing, and what the mark log and the mount leave alone.
-/

namespace Sys2Proof.Machine

/-! ## Lookups that depend on one field -/

theorem Ctl.fillOf_congr {c d : Ctl} (h : d.fill = c.fill) (seq : Word) : d.fillOf seq = c.fillOf seq := by
  simp [Ctl.fillOf, h]

theorem Ctl.entry_congr {c d : Ctl} (h : d.dir = c.dir) (id : PageId) : d.entry id = c.entry id := by
  simp [Ctl.entry, h]

theorem Ctl.ownEntry_congr {c d : Ctl} (h : d.dir = c.dir) (k : Env) (seq : Word) :
    d.ownEntry k seq = c.ownEntry k seq := Ctl.entry_congr h _

theorem Ctl.rxHeld_congr {c d : Ctl} (h : d.rx = c.rx) (b : Fin 4) : d.rxHeld b = c.rxHeld b := by
  simp [Ctl.rxHeld, h]

theorem Ctl.etEntry_congr {c d : Ctl} (h : d.et = c.et) (seq : Word) (ext : Nat) : d.etEntry seq ext = c.etEntry seq ext := by
  simp [Ctl.etEntry, h]

theorem Ctl.rxHeld_of {c : Ctl} {b : Fin 4} {h : RxHeld} (hb : c.rx.get b = .held h) : c.rxHeld b = some h := by
  simp [Ctl.rxHeld, hb]

/-! ## The block table -/

theorem find_putBlock (x : Block) (l : List Block) : (putBlock x l).find? (fun y => y.num == x.num) = some x := by
  induction l with
  | nil => simp [putBlock]
  | cons y ys ih =>
    unfold putBlock
    split
    · simp
    · split
      · simp
      · rename_i h1 h2
        rw [List.find?_cons_of_neg (by simp; omega)]
        exact ih

theorem Ctl.block_setBlock (c : Ctl) (x : Block) : (c.setBlock x).block x.num = some x := find_putBlock _ _

theorem Ctl.block_num {c : Ctl} {n : Nat} {b : Block} (h : c.block n = some b) : b.num = n := by
  have := List.find?_some h
  simpa using this

/-- A block in use becomes RETIRED (R48). -/
theorem Ctl.retire_block {c : Ctl} {n : Nat} {b : Block} (h : c.block n = some b)
    (hs : b.state = .openOwn ∨ b.state = .openReplica ∨ b.state = .filled) :
    (c.retire n).block n = some { b with state := .retired } := by
  have hn := Ctl.block_num h
  subst hn
  have := Ctl.block_setBlock c { b with state := .retired }
  unfold Ctl.retire
  rw [h]
  rcases hs with hs | hs | hs <;> simp only [hs] <;> exact this

/-! ## Frames judged again -/

/-- No frame is DEFERRED: none is judged again (R129, R139). -/
theorem Ctl.deferredBufs_none {c : Ctl} (h : ∀ b x, c.rxHeld b = some x → x.phase ≠ .deferred) (p : PageId → Bool) :
    c.deferredBufs p = [] := by
  have h0 := h 0
  have h1 := h 1
  have h2 := h 2
  have h3 := h 3
  unfold Ctl.deferredBufs
  cases hx0 : c.rxHeld 0 <;> cases hx1 : c.rxHeld 1 <;> cases hx2 : c.rxHeld 2 <;> cases hx3 : c.rxHeld 3 <;>
    simp_all

theorem Ctl.rejudge_none {c : Ctl} (h : ∀ b x, c.rxHeld b = some x → x.phase ≠ .deferred) (k : Env) (id : PageId) :
    c.rejudge k id = c := by
  unfold Ctl.rejudge
  rw [Ctl.deferredBufs_none h]
  rfl

theorem Ctl.rejudgeVanished_none {c : Ctl} (h : ∀ b x, c.rxHeld b = some x → x.phase ≠ .deferred) (k : Env) :
    c.rejudgeVanished k = c := by
  unfold Ctl.rejudgeVanished
  rw [Ctl.deferredBufs_none h]
  rfl

/-! ## Tests that find nothing to do -/

/-- A test of durability of a page of which no entry is settled, and none becomes durable, only prunes what is owed
(R118, R125). -/
theorem Ctl.testDurable_quiet {c : Ctl} {k : Env} {seq : Word} (h : ∀ y ∈ c.et, y.settled = .none)
    (hd : ∀ y ∈ c.et, y.seq = seq → c.durable k seq y.ext = false) : c.testDurable k seq = c.pruneOwed := by
  have hs : ∀ x ∈ c.et, (if x.seq = seq then c.settleEntry k x else x) = x := by
    intro x hx
    split
    · rename_i hq
      unfold Ctl.settleEntry
      rw [h x hx]
      dsimp only
      rw [hq, hd x hx hq]
      rfl
    · rfl
  have h1 : c.onPageEntries seq (c.settleEntry k) = c := by
    unfold Ctl.onPageEntries
    rw [List.map_congr_left hs, List.map_id']
  have h2 : ∀ l : List ETEntry, (∀ x ∈ l, x.settled = .none) → l.foldl Ctl.narrowSettled c = c := by
    intro l hl
    induction l with
    | nil => rfl
    | cons x xs ih =>
      rw [List.foldl_cons]
      have : c.narrowSettled x = c := by
        unfold Ctl.narrowSettled
        rw [if_pos (by simp [ETEntry.unsettled, hl x (by simp)])]
      rw [this]
      exact ih (fun y hy => hl y (by simp [hy]))
  have h3 : (c.et.any (fun x => x.seq == seq && decide (x.settled = .durable) && !c.durable k x.seq x.ext)) = false := by
    rw [List.any_eq_false]
    intro x hx
    simp [h x hx]
  have h4 : ∀ d : Ctl, d.et = c.et → d.judge k = d := by
    intro d hd
    unfold Ctl.judge
    cases hn : d.et.length with
    | zero => rfl
    | succ n =>
      unfold Ctl.judgeHeads
      split
      · rfl
      · rename_i x rest hx
        have hx' : x ∈ c.et := by rw [← hd, hx]; simp
        rw [if_neg (by simp [Ctl.headLeaves, h x hx'])]
  unfold Ctl.testDurable
  dsimp only
  rw [h3, h1, h2 _ (fun x hx => h x (List.mem_of_mem_filter hx))]
  simp only [Bool.false_eq_true, if_false]
  exact h4 _ rfl

/-- Every extent formed is programmed: no further program is requested (R114). -/
theorem Ctl.requestProgram_done {c : Ctl} {k : Env} {seq : Word} {e : Entry} (he : c.ownEntry k seq = some e)
    (h : ∀ b p, c.fillOf seq = some (b, p) → p.extents.length ≤ e.ownDepth k) : c.requestProgram k seq = c := by
  unfold Ctl.requestProgram
  rw [he]
  split
  · rename_i b p e' hf he'
    cases he'
    split
    · rfl
    · rw [List.getElem?_eq_none (h _ _ hf)]
  · rfl

/-- A page without Extent Table entries has no records to bring up. -/
theorem Ctl.bringUpAll_none {c : Ctl} {k : Env} {seq : Word} (h : ∀ y ∈ c.et, y.seq ≠ seq) : c.bringUpAll k seq = c := by
  have hu : c.unsettledOf seq = [] := by
    unfold Ctl.unsettledOf
    rw [List.filter_eq_nil_iff]
    intro y hy
    simp [h y hy]
  unfold Ctl.bringUpAll
  have : ∀ l : List Station, l.foldl (fun c t =>
      let recs := (c.unsettledOf seq).filterMap (fun x => x.record t)
      if recs.any (fun r => decide (r.state = .sourceless)) then c.bringUp k seq t
      else if recs.any (fun r => decide (r.state = .awaitingCopy)) then c.requestCatchUp k seq t
      else c) c = c := by
    intro l
    induction l with
    | nil => rfl
    | cons t ts ih =>
      rw [List.foldl_cons]
      simp only [hu, List.filterMap_nil, List.any_nil, Bool.false_eq_true, if_false]
      exact ih
  exact this _

/-- A waiting FLUSH changes the port alone. -/
theorem Ctl.answerFlush_shape (c : Ctl) (seq : Word) : ∃ p, c.answerFlush seq = { c with port := p } := by
  unfold Ctl.answerFlush
  repeat' split
  all_goals exact ⟨_, rfl⟩

end Sys2Proof.Machine
end

