-- ==== Sys2Proof/Laws/Mounting.lean ====
section
/-!
SUPPORT. Laws of the mark log, the mount scan and the power pins.
-/

namespace Sys2Proof.Machine

theorem timersRun_iff (st : StationState) : st.timersRun = true ↔
    st = .active ∨ st = .frozen := by cases st <;> simp [StationState.timersRun]

theorem pair_eq {α : Type} (v : Vector α 2) : v = #v[v.get 0, v.get 1] := by
  ext i hi
  match i, hi with
  | 0, _ => rfl
  | 1, _ => rfl

theorem mountReads_fold (l : List Nat) : ∀ (c : Ctl) (q0 q1 : List Request), c.units =
    #v[{ busy := none, queue := q0, favour := 0 }, { busy := none, queue := q1, favour := 0 }] →
    l.foldl (fun c p => (c.enter (mountMarkReq 0 p)).enter (mountMarkReq 1 p)) c =
        { c with units := #v[{ busy := none, queue := q0 ++ l.map (mountMarkReq 0), favour := 0 }, { busy := none, queue := q1 ++ l.map (mountMarkReq 1), favour := 0 }] } := by
  induction l with
  | nil => intro c q0 q1 h; simp [← h]
  | cons p l ih =>
    intro c q0 q1 h
    rw [List.foldl_cons, ih _ (q0 ++ [mountMarkReq 0 p]) (q1 ++ [mountMarkReq 1 p])]
    · simp [Ctl.enter]
    · simp only [Ctl.enter_units, h]
      rfl

theorem warned_iff (st : StationState) : st.warned = true ↔ (st = .listening ∨ st = .active ∨ st =
    .frozen) := by cases st <;> simp [StationState.warned]

theorem sweep_calm_self (c : Ctl) (k : Env) : Calm false c (c.sweep k) := Ctl.sweep_calm (Calm.refl c) k

theorem still_eq {c d : Ctl} (h : d.still = c.still) : d.station = c.station ∧ d.window = c.window ∧
    d.firstWindow = c.firstWindow ∧ d.presence = c.presence ∧ d.gen = c.gen ∧ d.ownMark = c.ownMark ∧
    d.nextSeq = c.nextSeq ∧ d.mark = c.mark ∧ d.mount = c.mount ∧ d.completed = c.completed ∧ d.peers = c.peers ∧
    d.holdings = c.holdings ∧ d.pair = c.pair ∧ d.scan = c.scan ∧ d.alerts.enabled = c.alerts.enabled := by
  simp only [Ctl.still, Ctl.mk.injEq, AlertSet.mk.injEq] at h
  simp_all

theorem cutShort_calm_self (c : Ctl) : Calm false c c.cutShort := Ctl.cutShort_calm (Calm.refl c)

theorem failMark_shape (c : Ctl) : ∃ p, c.failMarkCauses = { c with port := p } := by
  unfold Ctl.failMarkCauses
  repeat' split
  all_goals exact ⟨_, rfl⟩

/-- Outside ACTIVE a write that begins leaves the station state, and no request leaves its queue. -/
theorem beginWrite_quiet (c : Ctl) (hs : c.station ≠ .active) :
    ∃ m p us, c.beginWrite = { c with mark := m, port := p, units := us } ∧ ∀ u, (c.units.get u).queue <+:
    (us.get u).queue := by
  unfold Ctl.beginWrite
  split
  · exact ⟨_, _, _, rfl, fun u => List.prefix_rfl⟩
  · split
    · unfold Ctl.markUnwritable Ctl.oweFrozen
      obtain ⟨p, hp⟩ := failMark_shape (c.onMark (fun m => { m with write := none }))
      rw [hp]
      simp only []
      rw [if_neg (by simpa using hs)]
      exact ⟨_, _, _, rfl, fun u => List.prefix_rfl⟩
    · have hw : ∃ m r, c.writeMark c.mark.wanted (c.mark.recordedSeq + 1) = ({ c with mark := m } : Ctl).enter r := by
        unfold Ctl.writeMark
        simp only []
        split
        · exact ⟨_, _, rfl⟩
        · exact ⟨_, _, rfl⟩
      obtain ⟨m, r, hm⟩ := hw
      rw [hm]
      exact ⟨m, c.port, _, rfl, fun u => (Ctl.enter_calm (w := false) (Calm.refl c) r).queue rfl u⟩

theorem want_quiet (c : Ctl) (f : MarkVals → MarkVals) (hs : c.station ≠ .active) :
    ∃ m p us, c.want f = { c with mark := m, port := p, units := us } ∧ ∀ u, (c.units.get u).queue <+:
    (us.get u).queue := by
  unfold Ctl.want
  obtain ⟨m, p, us, h, hq⟩ := beginWrite_quiet (c.onMark (fun m => { m with wanted := f m.wanted })) hs
  exact ⟨m, p, us, h, hq⟩

theorem want_mark (c : Ctl) (f : MarkVals → MarkVals) :
    ∃ w fo, (c.want f).mark = { c.mark with wanted := f c.mark.wanted, write := w, frozenOwed := fo } := by
  unfold Ctl.want Ctl.beginWrite
  split
  · exact ⟨_, _, rfl⟩
  · split
    · unfold Ctl.markUnwritable Ctl.oweFrozen
      obtain ⟨p, hp⟩ := Ctl.failMarkCauses_shape
        ((c.onMark (fun m => { m with wanted := f m.wanted })).onMark (fun m => { m with write := none }))
      rw [hp]
      dsimp only
      split
      · rw [Ctl.enterFrozen_shape]
        exact ⟨_, _, rfl⟩
      · exact ⟨_, _, rfl⟩
    · unfold Ctl.writeMark
      dsimp only
      split <;> exact ⟨_, _, rfl⟩

theorem scanBlock_mount (c : Ctl) (u : UnitNo) (b : Nat) : ∃ us, c.scanBlock u b =
    { c with units := us, mount := { c.mount with scans := vput c.mount.scans u (if b < 512 then some { block := b, phase := .first } else none) } } := by
  unfold Ctl.scanBlock
  split
  · exact ⟨_, rfl⟩
  · exact ⟨c.units, rfl⟩

theorem unitPair_eq {α : Type} (v : Vector α 2) (a b : α) : vput (vput v 0 a) 1 b = #v[a, b] := by
  obtain ⟨⟨l⟩, h⟩ := v
  match l, h with
  | [_, _], _ => rfl

theorem beginWrite_changes (c : Ctl) :
    ∃ st m p us al, c.beginWrite = { c with station := st, mark := m, port := p, units := us, alerts := al } ∧
      (c.mark.recordedSeq ≠ topSeq → p = c.port ∧ st = c.station ∧ al = c.alerts) ∧
          (c.station ≠ .active → st = c.station) ∧
      (c.port.act = .idle → p = c.port) := by
  unfold Ctl.beginWrite
  split
  · exact ⟨_, _, _, _, _, rfl, fun _ => ⟨rfl, rfl, rfl⟩, fun _ => rfl, fun _ => rfl⟩
  · split
    · rename_i ht
      unfold Ctl.markUnwritable Ctl.oweFrozen
      obtain ⟨p, hp⟩ := Ctl.failMarkCauses_shape (c.onMark (fun m => { m with write := none }))
      have hp2 : c.port.act = .idle → p = c.port := by
        intro h
        have h2 := congrArg Ctl.port hp
        unfold Ctl.failMarkCauses at h2
        dsimp only [Ctl.onMark] at h2
        rw [h] at h2
        exact h2.symm
      rw [hp]
      dsimp only [Ctl.onMark]
      by_cases hs : c.station = .active
      · simp only [hs, if_true]
        rw [Ctl.enterFrozen_shape]
        exact ⟨_, _, _, _, _, rfl, fun h => absurd ht h, fun h => absurd rfl h, hp2⟩
      · simp only [hs, if_false]
        exact ⟨_, _, _, _, _, rfl, fun h => absurd ht h, fun _ => rfl, hp2⟩
    · unfold Ctl.writeMark
      dsimp only
      split <;> exact ⟨_, _, _, _, _, rfl, fun _ => ⟨rfl, rfl, rfl⟩, fun _ => rfl, fun _ => rfl⟩

theorem recompute_fields (c : Ctl) (k : Env) :
    let d := c.recompute k
    d.dir = c.dir ∧ d.blocks = c.blocks ∧ d.pool = c.pool ∧ d.mount = c.mount ∧ d.ownMark = c.ownMark ∧ d.gen = c.gen ∧
        d.peers = c.peers ∧ d.pair = c.pair ∧ d.window = c.window ∧
    d.nextSeq = (if c.mount.found.vals.ceiling < c.highestOwn k then seqAbove (c.highestOwn k) else c.nextSeq) ∧
      (c.mark.recordedSeq ≠ topSeq → d.port = c.port) := by
  unfold Ctl.recompute
  dsimp only
  by_cases hh : c.mount.found.vals.ceiling < c.highestOwn k
  · rw [if_pos hh, if_pos hh]
    generalize hg : Ctl.onMark _ _ = g
    obtain ⟨st, m, p, us, al, h, h2, h3, h4⟩ := beginWrite_changes g
    rw [h]
    rw [← hg] at h2 ⊢
    dsimp only [Ctl.onMark] at h2
    exact ⟨rfl, rfl, rfl, rfl, rfl, rfl, rfl, rfl, rfl, rfl, fun h => (h2 h).1⟩
  · rw [if_neg hh, if_neg hh]
    exact ⟨rfl, rfl, rfl, rfl, rfl, rfl, rfl, rfl, rfl, rfl, fun h => rfl⟩

theorem foldEnter_shape (l : List Nat) (f : Nat → Request) (c : Ctl) :
    ∃ us, l.foldl (fun c n => c.enter (f n)) c = { c with units := us } := by
  induction l generalizing c with
  | nil => exact ⟨_, rfl⟩
  | cons x xs ih =>
    rw [List.foldl_cons]
    obtain ⟨us, h⟩ := ih (c.enter (f x))
    exact ⟨us, h⟩

/-- The entries of the copies found at mount, created one after another. -/
theorem create_fold (k : Env) (l pre : List FoundCopy) (c : Ctl) (hlen : pre.length + l.length ≤ 65536) (hl :
    c.dir.length ≤ pre.length)
    (h1 : ∀ x ∈ pre, ∃ e ∈ c.dir, e.id = x.id) (h2 : ∀ e ∈ c.dir, ∃ x ∈ pre, ∃ u, e = { x.entry k with under := u }) :
    let c' := l.foldl (fun c x => c.create k (x.entry k)) c
    (∃ d al rp rc, c' = { c with dir := d, alerts := al, repair := rp, recheck := rc }) ∧
    (∀ x ∈ pre ++ l, ∃ e ∈ c'.dir, e.id = x.id) ∧ (∀ e ∈ c'.dir, ∃ x ∈ pre ++ l, ∃ u, e = { x.entry k with under := u }) := by
  induction l generalizing pre c with
  | nil =>
    refine ⟨⟨_, _, _, _, rfl⟩, ?_, ?_⟩
    · simpa using h1
    · simpa using h2
  | cons x xs ih =>
    intro c'
    have hc' : c' = xs.foldl (fun c x => c.create k (x.entry k)) (c.create k (x.entry k)) := rfl
    have hsh : ∃ d al rp rc, c.create k (x.entry k) = { c with dir := d, alerts := al, repair := rp, recheck := rc } := by
      obtain ⟨d, al, rp, rc, h⟩ := c.create_shape k (x.entry k)
      first
        | exact ⟨_, _, _, _, h⟩
    have hdir : ((c.create k (x.entry k)).dir = c.dir ∧ ∃ e ∈ c.dir, e.id = x.id) ∨ (c.create k (x.entry k)).dir = putEntry (c.flagged k (x.entry k)) c.dir := by
      unfold Ctl.create
      split
      · rename_i h
        left
        refine ⟨rfl, ?_⟩
        simp only [Bool.or_eq_true, decide_eq_true_eq] at h
        rcases h with h | h
        · obtain ⟨e, he⟩ := Option.isSome_iff_exists.1 h
          exact ⟨e, List.mem_of_find?_eq_some he, Ctl.entry_id he⟩
        · simp only [List.length_cons] at hlen; omega
      · right; simp
    have hres := ih (pre ++ [x]) (c.create k (x.entry k)) (by simp only [List.length_append, List.length_cons, List.length_nil] at hlen ⊢; omega) ?_ ?_ ?_
    · obtain ⟨⟨d, al, rp, rc, h⟩, h3, h4⟩ := hres
      obtain ⟨d', al', rp', rc', h'⟩ := hsh
      refine ⟨⟨d, al, rp, rc, ?_⟩, ?_, ?_⟩
      · rw [hc', h, h']
      · intro y hy
        exact h3 y (by simpa using hy)
      · intro e he
        obtain ⟨y, hy, hu⟩ := h4 e he
        exact ⟨y, by simpa using hy, hu⟩
    · rcases hdir with ⟨h, _⟩ | h
      · rw [h]; simp only [List.length_append, List.length_cons, List.length_nil]; omega
      · rw [h, length_putEntry]; simp only [List.length_append, List.length_cons, List.length_nil]; omega
    · intro y hy
      rcases hdir with ⟨h, e, he, hid⟩ | h
      · rw [h]
        rcases List.mem_append.1 hy with hy | hy
        · exact h1 y hy
        · rw [List.mem_singleton.1 hy]; exact ⟨e, he, hid⟩
      · rw [h]
        rcases List.mem_append.1 hy with hy | hy
        · obtain ⟨e, he, hid⟩ := h1 y hy
          exact ⟨e, (mem_putEntry _ _ _).2 (Or.inr he), hid⟩
        · rw [List.mem_singleton.1 hy]
          exact ⟨_, (mem_putEntry _ _ _).2 (Or.inl rfl), rfl⟩
    · intro e he
      rcases hdir with ⟨h, _⟩ | h
      · rw [h] at he
        obtain ⟨y, hy, hu⟩ := h2 e he
        exact ⟨y, by simp [hy], hu⟩
      · rw [h] at he
        rcases (mem_putEntry _ _ _).1 he with rfl | he
        · exact ⟨x, by simp, _, rfl⟩
        · obtain ⟨y, hy, hu⟩ := h2 e he
          exact ⟨y, by simp [hy], hu⟩

theorem cutShort_shape (c : Ctl) : ∃ tx jobs, c.cutShort = { c with tx := tx, jobs := jobs } := by
  unfold Ctl.cutShort
  split
  · exact ⟨_, _, rfl⟩
  · split
    · exact ⟨_, _, rfl⟩
    · obtain ⟨tx, jobs, h⟩ := c.endAttempt_shape
      exact ⟨tx, jobs, h⟩

theorem ofFn_get {n : Nat} {α : Type} (f : Fin n → α) (i : Fin n) : (Vector.ofFn f).get i = f i := by
  simp [Vector.get_eq_getElem]

/-- The block table after the mount: the mark blocks first, the free blocks in the pool. -/
theorem completeBlocks_shape (c : Ctl) (live : List PageAddr) :
    ∃ us l, c.completeBlocks live = { c with units := us, blocks := { num := 0, state := .mark, next := 0, pages := [] } :: { num := 1, state := .mark, next := 0, pages := [] } :: l, pool := (c.blocks.filter (fun b => decide (b.state = .free) && !c.mount.erased.contains b.num)).map (·.num) ++ c.mount.erased } := by
  unfold Ctl.completeBlocks
  dsimp only
  generalize (List.filter (fun b => decide (b.state = .filled) && decide ((b.resolved live).state =
      .erasing)) c.blocks).map (·.num) = l
  generalize c.blocks.map (fun b => if b.state = .filled then b.resolved live else b) = bs
  obtain ⟨us, h⟩ := foldEnter_shape l recordEraseReq { c with blocks := [0, 1].map (fun n => ({ num := n, state := .mark, next := 0, pages := [] } : Block)) ++ bs, pool := (c.blocks.filter (fun b => decide (b.state = .free) && !c.mount.erased.contains b.num)).map (·.num) ++ c.mount.erased }
  exact ⟨us, bs, h⟩

/-- The end of the mount: LISTENING with its window, or LEAVING while PFW# is low. -/
theorem leaveMounting_shape (c0 : Ctl) (k : Env) : ∃ tx jobs sta win, Ctl.leaveMounting c0 k =
    { c0 with mount := Mount.reset, presence := some presencePeriod, tx := tx, jobs := jobs, station := sta, window := win } ∧
        (k.pfwLow = false → sta = .listening ∧ win = some 60) ∧
            (k.pfwLow = true → sta = .leaving ∧ win = c0.window) := by
  unfold Ctl.leaveMounting
  dsimp only
  by_cases hp : k.pfwLow = true
  · rw [if_pos hp]
    unfold Ctl.enterState
    obtain ⟨tx, jobs, hc⟩ := cutShort_shape { c0 with mount := Mount.reset, presence := some presencePeriod, station := .leaving }
    rw [hc]
    exact ⟨_, _, _, _, rfl, fun h => by simp [hp] at h, fun _ => ⟨rfl, rfl⟩⟩
  · rw [if_neg hp]
    unfold Ctl.enterListening Ctl.enterState
    obtain ⟨tx, jobs, hc⟩ := cutShort_shape { c0 with mount := Mount.reset, presence := some presencePeriod, window := some listeningWindow, station := .listening }
    rw [hc]
    exact ⟨_, _, _, _, rfl, fun _ => ⟨rfl, rfl⟩, fun h => absurd h hp⟩

theorem ownRelease_from {w : Bool} (c : Ctl) (k : Env) (m : Word) :
    Calm w { c with ownMark := m } (c.ownRelease k m) := by
  unfold Ctl.ownRelease
  try simp only []
  repeat' first
    | with_reducible assumption
    | with_reducible exact Calm.refl _
    | with_reducible apply Ctl.remove_calm
    | with_reducible apply Ctl.settleReleased_calm
    | with_reducible apply Ctl.cancelJobs_calm
    | with_reducible apply Ctl.onTx_calm
    | with_reducible apply Ctl.answer_calm
    | with_reducible apply Ctl.judge_calm
    | (refine Calm.foldl _ (fun c x hc => ?_) ?_ <;> try simp only [])
    | split
    | (intro ht; first
        | exact ht
        | exact txOk_withdraw _ _ ht)

/-- What a write that begins can change. -/
theorem beginWrite_shape (c : Ctl) :
    ∃ st m p us al, c.beginWrite = { c with station := st, mark := m, port := p, units := us, alerts := al } ∧
      (c.mark.recordedSeq ≠ topSeq → p = c.port ∧ st = c.station ∧ al = c.alerts) ∧
          (c.station ≠ .active → st = c.station) ∧
      (c.port.act = .idle → p = c.port) := by
  have hf : ∀ c : Ctl, ∃ p, c.failMarkCauses = { c with port := p } ∧ (c.port.act = .idle → p = c.port) := by
    intro c
    unfold Ctl.failMarkCauses
    split <;> first
      | exact ⟨_, rfl, fun _ => rfl⟩
      | (split <;> first
          | exact ⟨_, rfl, fun _ => rfl⟩
          | (rename_i h _; exact ⟨_, rfl, fun h' => by rw [h] at h'; cases h'⟩))
      | (rename_i h; exact ⟨_, rfl, fun h' => by rw [h] at h'; cases h'⟩)
  have ho : ∀ c : Ctl, ∃ st m al, c.oweFrozen = { c with station := st, mark := m, alerts := al } ∧
      (c.station ≠ .active → st = c.station) := by
    intro c
    unfold Ctl.oweFrozen
    dsimp only [Ctl.onMark]
    split
    · rename_i h
      rw [Ctl.enterFrozen_shape]
      refine ⟨_, _, _, rfl, fun h' => absurd ?_ h'⟩
      simpa using h
    · exact ⟨_, _, _, rfl, fun _ => rfl⟩
  unfold Ctl.beginWrite
  split
  · exact ⟨_, _, _, _, _, rfl, fun _ => ⟨rfl, rfl, rfl⟩, fun _ => rfl, fun _ => rfl⟩
  · split
    · rename_i ht
      unfold Ctl.markUnwritable
      obtain ⟨p, h1, h1'⟩ := hf (c.onMark (fun m => { m with write := none }))
      obtain ⟨st, m, al, h2, h2'⟩ := ho { c.onMark (fun m => { m with write := none }) with port := p }
      rw [h1, h2]
      exact ⟨_, _, _, _, _, rfl, fun h => absurd ht h, h2', h1'⟩
    · unfold Ctl.writeMark
      dsimp only
      split <;> exact ⟨_, _, _, _, _, rfl, fun _ => ⟨rfl, rfl, rfl⟩, fun _ => rfl, fun _ => rfl⟩

end Sys2Proof.Machine
end

