-- ==== Sys2Proof/Laws/Programs.lean ====
section
/-!
SUPPORT. Laws of the arbiter, the programs and the reads of the engines.
-/

namespace Sys2Proof.Machine

/-- The arbiter's choice among ready requests (R27, R28), said by where it stands among them. -/
theorem choose_of {favour : Nat} {l l' ready : List Request} {r : Request} (he : ready = l ++ r :: l')
    (h : if favour = 6 ∧ (∃ y ∈ ready, 3 ≤ y.who.cls) then 3 ≤ r.who.cls ∧ ∀ y ∈ l, y.who.cls < 3
       else (∀ y ∈ ready, r.who.cls ≤ y.who.cls) ∧ ∀ y ∈ l, r.who.cls < y.who.cls) :
    chooseRequest favour ready = some r := by
  unfold chooseRequest
  by_cases hc : favour = 6 ∧ (∃ y ∈ ready, 3 ≤ y.who.cls)
  · rw [if_pos hc] at h
    rw [if_pos (by simpa [Request.low] using hc)]
    subst he
    rw [List.find?_append, List.find?_eq_none.2 (fun y hy => by have := h.2 y hy; simp [Request.low]; omega)]
    simp [Request.low, h.1]
  · rw [if_neg hc] at h
    rw [if_neg (by simpa [Request.low] using hc)]
    have hf (n : Nat) : (n = r.who.cls → ready.find? (fun r => r.who.cls == n) = some r) ∧
        (n < r.who.cls → ready.find? (fun r => r.who.cls == n) = none) := by
      refine ⟨fun hn => ?_, fun hn => ?_⟩
      · subst he
        rw [List.find?_append, List.find?_eq_none.2 (fun y hy => by have := h.2 y hy; simp; omega)]
        simp [hn]
      · rw [List.find?_eq_none]
        intro y hy
        have := h.1 y hy
        simp; omega
    have hr : r.who.cls = 1 ∨ r.who.cls = 2 ∨ r.who.cls = 3 ∨ r.who.cls = 4 ∨ r.who.cls = 5 := by
      cases r.who <;> simp [Requester.cls]
    rcases hr with hr | hr | hr | hr | hr
    · rw [(hf 1).1 (by omega)]
    · rw [(hf 1).2 (by omega), (hf 2).1 (by omega)]
    · rw [(hf 1).2 (by omega), (hf 2).2 (by omega), (hf 3).1 (by omega)]
    · rw [(hf 1).2 (by omega), (hf 2).2 (by omega), (hf 3).2 (by omega), (hf 4).1 (by omega)]
    · rw [(hf 1).2 (by omega), (hf 2).2 (by omega), (hf 3).2 (by omega), (hf 4).2 (by omega), (hf 5).1 (by omega)]

theorem headerParts_mem {q : ProgramReq} (hd : ∀ d ∈ q.descs, d.1 < 3 ∧ d.2.length = 16) (hi :
    ∀ g, q.identity = some g → g.length = 16) {y : Nat × List Byte} (h : y ∈ q.headerParts) :
    8 ≤ y.1 ∧ y.1 < 12 ∧ y.2.length = 16 := by
  unfold ProgramReq.headerParts at h
  simp only [List.mem_append, List.mem_map] at h
  rcases h with h | ⟨d, hd', rfl⟩
  · split at h
    · rename_i g hg
      simp only [List.mem_singleton] at h
      subst h
      exact ⟨by simp [identityPart], by simp [identityPart], hi g hg⟩
    · simp at h
  · have := hd d hd'
    simp only [placePart]
    omega

theorem headerParts_nodup {q : ProgramReq} (hn : (q.descs.map Prod.fst).Nodup) :
    (q.headerParts.map Prod.fst).Nodup := by
  unfold ProgramReq.headerParts
  have h1 : ((q.descs.map (fun d => (placePart d.1, d.2))).map Prod.fst).Nodup := by
    rw [List.map_map, show (Prod.fst ∘ fun d : Nat × List Byte => (placePart d.1, d.2)) =
        (placePart ∘ Prod.fst) from rfl, ← List.map_map]
    exact hn.map (fun a b h => by simpa [placePart] using h)
  split
  · simp only [List.map_cons, List.cons_append, List.nil_append, List.nodup_cons]
    refine ⟨?_, h1⟩
    simp only [List.map_map, List.mem_map, Function.comp, placePart, identityPart]
    rintro ⟨d, _, h⟩
    omega
  · exact h1

theorem inBlock_iff (n x : Nat) : inBlock n x ↔ n * 128 * pageBytes ≤ x ∧
    x < n * 128 * pageBytes + 128 * pageBytes := by
  unfold inBlock
  rw [show (n + 1) * 128 * pageBytes = n * 128 * pageBytes + 128 * pageBytes by ring]

theorem setBlock_pool (c : Ctl) (x : Block) : (c.setBlock x).pool = c.pool := rfl

theorem pruneOwed_fields (c : Ctl) : c.pruneOwed.dir = c.dir ∧ c.pruneOwed.et = c.et ∧ c.pruneOwed.rx = c.rx ∧
    c.pruneOwed.fill = c.fill := ⟨rfl, rfl, rfl, rfl⟩

theorem setDepth_same (e : Entry) (s : Station) (d : Nat) : (e.setDepth s d).depth s = min d 3 := by
  simp [Entry.setDepth, Entry.depth]

theorem retire_blocks (c : Ctl) (n : Nat) : c.retire n = { c with blocks := (c.retire n).blocks } := by
  obtain ⟨bl, h⟩ := c.retire_shape n
  rw [h]

theorem retire_blocks_congr {c d : Ctl} (h : d.blocks = c.blocks) (n : Nat) :
    (d.retire n).blocks = (c.retire n).blocks := by
  have hb : d.block n = c.block n := by simp [Ctl.block, h]
  unfold Ctl.retire
  rw [hb]
  cases c.block n with
  | none => exact h
  | some b =>
    dsimp only
    cases b.state <;> simp [Ctl.setBlock, h]

theorem cancelJobs_none {c : Ctl} {p : Job → Bool} (h : ∀ slot j, c.jobs.get slot = some j → p j = false) :
    c.cancelJobs p = c := by
  have h0 := h 0
  have h1 := h 1
  unfold Ctl.cancelJobs
  cases hx0 : c.jobs.get 0 <;> cases hx1 : c.jobs.get 1 <;> simp_all

theorem underCopied_et {c d : Ctl} (h : d.et = c.et) (k : Env) (e : Entry) : d.underCopied k e = c.underCopied k e := by
  simp [Ctl.underCopied, Ctl.inTable, h]

theorem allocate_openBlock {c d : Ctl} (h : d.blocks = c.blocks) (kind : Role) :
    d.openBlock kind = c.openBlock kind := by
  simp [Ctl.openBlock, h]

theorem allocate_empty {c : Ctl} {kind : Role} (h : c.openBlock kind = none) (hp : c.pool = []) (rl : Bool) :
    c.allocate kind rl = none := by
  unfold Ctl.allocate
  rw [h, hp]

theorem remove_dir (c : Ctl) (id : PageId) (e : Entry) (h : c.entry id = some e) :
    (c.remove id).dir = c.dir.filter (fun y => y.id != id) := by
  unfold Ctl.remove
  rw [h]
  dsimp only
  rw [Ctl.killPages_dir, Ctl.withDir_dir]

theorem rxPhase_fields (c : Ctl) (b : Fin 4) (p : RxPhase) : (c.rxPhase b p).port = c.port ∧ (c.rxPhase b p).et = c.et ∧ (c.rxPhase b p).fill = c.fill := by
  unfold Ctl.rxPhase
  split <;> exact ⟨rfl, rfl, rfl⟩

/-- A relocation of a replica leaves the port, the Extent Table and the fill pair alone. -/
theorem relocateFrame_fields {c : Ctl} {k : Env} {b : Fin 4} {h : RxHeld} {e : Entry} (hr : e.role = .replica)
    (hd : ∀ w x, c.rxHeld w = some x → x.phase ≠ .deferred) :
    let d := c.relocateFrame k b h e
    d.port = c.port ∧ d.et = c.et ∧ d.fill = c.fill := by
  have hown : decide (e.role = Role.own) = false := by rw [hr]; rfl
  unfold Ctl.relocateFrame
  dsimp only
  cases hal : c.allocate e.role true with
  | none =>
    dsimp only
    unfold Ctl.dropCopy
    dsimp only
    rw [hown]
    simp only [Bool.false_eq_true, if_false]
    obtain ⟨tx, jobs, hcj⟩ := Ctl.cancelJobs_shape ((c.remove e.id).answerAndFree b h e.id .lost 0) (fun j => decide (j.page = e.id))
    rw [hcj]
    rw [Ctl.rejudge_none]
    · exact ⟨by show (c.remove e.id).port = _; simp, by show (c.remove e.id).et = _; simp, by show (c.remove e.id).fill = _; simp⟩
    · intro w x hx
      have hx' : Ctl.rxHeld ((c.remove e.id).answerAndFree b h e.id .lost 0) w = some x := hx
      unfold Ctl.rxHeld at hx'
      rw [show ((c.remove e.id).answerAndFree b h e.id .lost 0).rx =
          vput (c.remove e.id).rx b .free from rfl, Ctl.remove_rx, vput_get] at hx'
      split at hx'
      · rename_i hh
        split at hh
        · cases hh
        · simp only [Option.some.injEq] at hx'
          subst hx'
          exact hd w _ (by unfold Ctl.rxHeld; rw [hh])
      · cases hx'
      · cases hx'
  | some ac =>
    obtain ⟨a, c'⟩ := ac
    have hsh : ∃ bs po al, c' = { c with blocks := bs, pool := po, alerts := al } := by
      unfold Ctl.allocate at hal
      split at hal
      · cases hal; exact ⟨_, _, _, rfl⟩
      · split at hal
        · cases hal
        · split at hal
          · cases hal
            unfold Ctl.takeHead
            dsimp only
            split <;> exact ⟨_, _, _, rfl⟩
          · cases hal
    obtain ⟨bs, po, al, rfl⟩ := hsh
    dsimp only
    have hu : ∀ d : Ctl, ∀ q, (d.enter q).port = d.port ∧ (d.enter q).et = d.et ∧
        (d.enter q).fill = d.fill := fun d q => ⟨rfl, rfl, rfl⟩
    unfold Ctl.continueReloc Ctl.programReloc
    repeat' split
    all_goals
      rw [(rxPhase_fields _ _ _).1, (rxPhase_fields _ _ _).2.1, (rxPhase_fields _ _ _).2.2]
      simp

theorem validDesc_spec {p : PageRead} {k : Nat} {d : ReadDesc} (h : p.validDesc k = some d) :
    imageDesc p.image k = some d ∧ d.info.number = k := by
  unfold PageRead.validDesc at h
  split at h
  · split at h
    · rename_i x hx
      split at h
      · rename_i hc
        cases h
        simp only [Bool.and_eq_true, beq_iff_eq] at hc
        exact ⟨hx, hc.1.1.1.1.1.2⟩
      · cases h
    · cases h
  · cases h

theorem request_stands (t : Tx) (b : TxBody) (p : TxBody → Bool) (h : p b = true) : (t.request b).stands p = true := by
  unfold Tx.request Tx.stands
  split <;> simp [Tx.join, h]

/-- A sound read is no damage (R53). -/
theorem foundDamage_sound {c : Ctl} {k : Env} {id : PageId} {a : PageAddr} {r : PageRead} {e : Entry} (he :
    c.entry id = some e) (h : r.unsound (e.ownDepth k) e.copyEnd = false) : c.foundDamage k id a r = false := by
  simp [Ctl.foundDamage, he, h]

theorem sweep_readBack {c : Ctl} {k : Env} (h1 : c.readBack.page.isSome = true) (h2 : c.readBack.reading = false) (h3 :
    c.tx.stands TxBody.fromReadBack = true) : c.sweep k = c.sweepFill k := by
  unfold Ctl.sweep Ctl.sweepReadBack
  rw [if_neg (by simp [h3])]
  unfold Ctl.startReadBack
  rw [if_pos h1]

theorem rxPhase_of {c : Ctl} {b : Fin 4} {h : RxHeld} (hb : c.rx.get b = .held h) (p : RxPhase) :
    c.rxPhase b p = { c with rx := vput c.rx b (.held { h with phase := p }) } := by
  unfold Ctl.rxPhase
  rw [hb]
  rfl

theorem vput_vput {α : Type} {n : Nat} (v : Vector α n) (i : Fin n) (a b : α) : vput (vput v i a) i b = vput v i b := by
  unfold vput
  ext j hj
  simp only [Vector.getElem_set]
  split <;> rfl

theorem cancelJobs_reading {c : Ctl} {p : Job → Bool} {slot : Fin 2} {j : Job} (hj : c.jobs.get slot = some j) (hs :
    j.state = .reading) (hn : j.cancelled = false) (hp : p j = true) (ho : ∀ t i, c.jobs.get t = some i → t ≠ slot →
    p i = false) : c.cancelJobs p = c.setJob slot (some { j with cancelled := true }) := by
  have h0 := ho 0
  have h1 := ho 1
  have hsl : slot = 0 ∨ slot = 1 := by omega
  have hc : c.cancelJob slot = c.setJob slot (some { j with cancelled := true }) := by
    unfold Ctl.cancelJob
    rw [hj]
    dsimp only
    rw [hs]
  have rs := (c.setJob slot (some { j with cancelled := true })).resumeCopies_self
  unfold Ctl.cancelJobs
  rcases hsl with rfl | rfl
  · dsimp only
    rw [hj]
    dsimp only
    rw [hp, hn]
    simp only [Bool.not_false, Bool.and_self, if_true]
    rw [hc]
    rw [show (c.setJob 0 (some { j with cancelled := true })).jobs.get 1 =
        c.jobs.get 1 from vput_get_other _ _ _ _ (by decide)]
    cases hx1 : c.jobs.get 1 with
    | none => exact rs
    | some i =>
      dsimp only
      rw [h1 i hx1 (by decide)]
      exact rs
  · dsimp only
    cases hx1 : c.jobs.get 0 with
    | none =>
      dsimp only
      rw [hj]
      dsimp only
      rw [hp, hn]
      simp only [Bool.not_false, Bool.and_self, if_true]
      rw [hc]
      exact rs
    | some i =>
      dsimp only
      rw [h0 i hx1 (by decide)]
      simp only [Bool.false_and, Bool.false_eq_true, if_false]
      rw [hj]
      dsimp only
      rw [hp, hn]
      simp only [Bool.not_false, Bool.and_self, if_true]
      rw [hc]
      exact rs

end Sys2Proof.Machine
end

