-- ==== Sys2Proof/Laws/PortReads.lean ====
section
/-!
SUPPORT. Laws of the local port, its reports and its reads.
-/

namespace Sys2Proof.Machine

theorem takeLast_of {c : Ctl} {cmd : ArgCmd} {args : List Byte} (h : c.port.act = .collecting cmd args) (hl :
    args.length + 1 = cmd.bytes) (d : Byte) (f : Ctl → List Byte → Ctl) :
    c.takeLast cmd d f = f c.takeCommand (args ++ [d]) := by
  simp [Ctl.takeLast, Ctl.lastArgument, h, hl]

theorem status_bits : ∀ (r d o a : Bool) (st : StationState), 
   ((bitOf r 0 ||| bitOf d 1 ||| bitOf o 2 ||| bitOf a 3 ||| (st.code <<< 4) : Byte).getLsbD 0 = r) ∧
   ((bitOf r 0 ||| bitOf d 1 ||| bitOf o 2 ||| bitOf a 3 ||| (st.code <<< 4) : Byte).getLsbD 1 = d) ∧
   ((bitOf r 0 ||| bitOf d 1 ||| bitOf o 2 ||| bitOf a 3 ||| (st.code <<< 4) : Byte).getLsbD 2 = o) ∧
   ((bitOf r 0 ||| bitOf d 1 ||| bitOf o 2 ||| bitOf a 3 ||| (st.code <<< 4) : Byte).getLsbD 3 = a) ∧
   ((bitOf r 0 ||| bitOf d 1 ||| bitOf o 2 ||| bitOf a 3 ||| (st.code <<< 4) : Byte) >>> 4 = st.code) ∧
   ((bitOf r 0 ||| bitOf d 1 ||| bitOf o 2 ||| bitOf a 3 ||| (st.code <<< 4) : Byte).getLsbD 7 = false) := by
  intro r d o a st
  cases r <;> cases d <;> cases o <;> cases a <;> cases st <;> decide

theorem entryBytes_len (c : Ctl) (k : Env) (x : ETEntry) (i : Nat) : (c.entryBytes k x i).length = 18 := by
  have h (i : Nat) (p : Option Place) : (placeBytes k i p).length = 3 := by
    unfold placeBytes; split <;> simp [absentBytes]
  simp [Ctl.entryBytes, bytes32, h]

theorem entriesBytes_len (c : Ctl) (k : Env) (l : List ETEntry) (i : Nat) :
    (c.entriesBytes k l i).length = 18 * l.length := by
  induction l generalizing i with
  | nil => rfl
  | cons x l ih => simp only [Ctl.entriesBytes, List.length_append, entryBytes_len, ih, List.length_cons]; omega

theorem seriesBytes_len (k : Env) (i : Nat) (x : Option SeriesState) : (seriesBytes k i x).length = 5 := by
  cases x <;> simp [seriesBytes, absentBytes, bytes16]

theorem peerBytes_len (p : Peer) (k : Env) (i : Nat) : (p.bytes k i).length = 17 := by
  have : (genHeard k i p.gen).length = 2 := by cases p.gen <;> simp [genHeard, absentBytes, bytes16]
  simp [Peer.bytes, this, seriesBytes_len, bytes16, bytes32]

theorem ownRecord_len (c : Ctl) (p : Peer) (k : Env) (i : Nat) : (c.ownRecord k p i).length = 17 := by
  simp [Ctl.ownRecord, seriesBytes_len, bytes16, bytes32]

theorem entriesBytes_take (c : Ctl) (k : Env) (l : List ETEntry) (i : Nat) :
    c.takeCommand.entriesBytes k l i = c.entriesBytes k l i := by
  induction l generalizing i with
  | nil => rfl
  | cons x l ih => simp only [Ctl.entriesBytes, ih]; rfl

theorem extentReport_take (c : Ctl) (k : Env) : c.takeCommand.extentReport k = c.extentReport k := by
  simp only [Ctl.extentReport]; rw [entriesBytes_take]; rfl

/-- The end of a PORT RESET, once the command in progress is off the port (R172). -/
def portResetEnd (c : Ctl) : Ctl :=
  let c := c.endScan.endCommand .aborted []
  c.onPort (fun p =>
    { p with act := if c.freePair.isNone then .resetWait else .idle, payload := none, overrun := false, latchTurn := false })

theorem portResetEnd_eq (c : Ctl) : portResetEnd c = { c with scan := none, pair := vmap PairBuf.release c.pair, port := { c.port.ended .aborted [] with overrun := false, latchTurn := false, act := if (c.pair.get 0).outstanding && (c.pair.get 1).outstanding then .resetWait else .idle } } := by
  have key : (vmap PairBuf.release c.pair).get 0 = (c.pair.get 0).release := vmap_get _ _ _
  have key1 : (vmap PairBuf.release c.pair).get 1 = (c.pair.get 1).release := vmap_get _ _ _
  have ro (b : PairBuf) : b.release.outstanding = b.outstanding := by cases b <;> rfl
  have fin : (c.endScan.endCommand .aborted []).freePair.isNone =
      ((c.pair.get 0).outstanding && (c.pair.get 1).outstanding) := by
    simp only [Ctl.freePair, Ctl.endCommand_pair, Ctl.endScan, key, key1, ro]
    cases (c.pair.get 0).outstanding <;> cases (c.pair.get 1).outstanding <;> rfl
  unfold portResetEnd
  dsimp only
  rw [fin]; rfl

theorem freePair_of {c : Ctl} {b : Fin 2} (h1 : (c.pair.get b).outstanding = false) (h2 : b = 1 →
    (c.pair.get 0).outstanding = true) : c.freePair = some b := by
  unfold Ctl.freePair
  match b with
  | 0 => simp [h1]
  | 1 => simp [h1, h2 rfl]

theorem freePair_none {c : Ctl} (h1 : (c.pair.get 0).outstanding = true) (h2 : (c.pair.get 1).outstanding = true) :
    c.freePair = none := by
  simp [Ctl.freePair, h1, h2]

theorem stationOf_of {o : Byte} {org : Station} (h : org.val = o.toNat) : stationOf o = some org := by
  unfold stationOf
  rw [dif_pos (by omega)]
  congr 1
  exact Fin.ext h.symm

theorem exec_read_held {s : State} {o s0 s1 s2 s3 slot : Byte} (hr : s.env.rstLow = false) (hs :
    s.ctl.station ≠ .mounting) (ha : s.ctl.port.act = .collecting .read [o, s0, s1, s2, s3]) {org : Station} (ho :
    org.val = o.toNat) (hsl : slot.toNat ≤ 7) (hsq : word s0 s1 s2 s3 ≠ 0) :
    exec (.read slot) s = .next { s with ctl := if !(s.ctl.entry { origin := org, seq := word s0 s1 s2 s3 }).any (fun e => e.readable s.env) then s.ctl.takeCommand.endScan.endCommand .notHeld []
        else
          match s.ctl.takeCommand.endScan.freePair with
          | some b => s.ctl.takeCommand.endScan.startRead s.env b { origin := org, seq := word s0 s1 s2 s3 } slot.toNat
          | none => s.ctl.takeCommand.endScan.setAct (.readBufWait { origin := org, seq := word s0 s1 s2 s3 }
                slot.toNat) } := by
  refine (next_onCtl s _ hr).trans ?_
  rw [Ctl.takeLast_of ha rfl]
  simp only [Ctl.doRead, List.cons_append, List.nil_append]
  rw [if_neg (show ¬ s.ctl.takeCommand.station = .mounting from hs)]
  rw [show argWord [o, s0, s1, s2, s3, slot] 1 = word s0 s1 s2 s3 from rfl, show argAt [o, s0, s1, s2, s3, slot] 0 =
      o from rfl, show argAt [o, s0, s1, s2, s3, slot] 5 = slot from rfl]
  rw [stationOf_of ho]
  dsimp only
  rw [if_neg (by rintro (h | h); · omega
                 · exact hsq h)]
  rfl

theorem nextHeld_eq (c : Ctl) (k : Env) (sc : Scan) : c.nextHeld k sc = c.dir.find? (fun e =>
        decide (sc.cursor ≤ e.id.key) && decide (e.id.origin =
            sc.origin) && (e.localPage.isSome && decide (1 ≤ e.ownDepth k))) := rfl

/-- What a prefetch can change (R169). -/
theorem prefetch_shape (c : Ctl) (k : Env) : ∃ us pr sc, c.prefetch k = { c with units := us, pair := pr, scan := sc } ∧
    (∀ s, c.scan = some s → ∃ cur, sc = some { s with cursor := cur }) ∧
    (∀ s, c.scan = some s → pr.get s.current = c.pair.get s.current) := by
  unfold Ctl.prefetch
  split
  · exact ⟨_, _, _, rfl, fun s h => ⟨s.cursor, by rw [h]⟩, fun _ _ => rfl⟩
  · rename_i s hs
    have hne : s.current ≠ s.current + 1 := by generalize s.current = x; revert x; decide
    dsimp only
    split
    · split
      · rename_i c' hc'
        unfold Ctl.walkScan at hc'
        rw [hs] at hc'
        dsimp only at hc'
        split at hc'
        · simp at hc'
        · rename_i e he
          simp only [Option.some.injEq] at hc'
          subst hc'
          unfold Ctl.loadPair
          split
          · refine ⟨_, _, _, rfl, fun s' h => ⟨e.id.key + 1, ?_⟩, fun s' h => ?_⟩
            · show c.scan.map _ = _
              rw [h]; rfl
            · have : s' = s := by rw [hs] at h; exact (Option.some.inj h).symm
              subst this
              simp only [Ctl.setPair, Ctl.onScan, vput_get]
              rw [if_neg hne]
          · refine ⟨_, _, _, rfl, fun s' h => ⟨e.id.key + 1, ?_⟩, fun s' h => rfl⟩
            show c.scan.map _ = _
            rw [h]; rfl
      · refine ⟨_, _, _, rfl, fun s' h => ⟨s'.cursor, by rw [h]⟩, fun s' h => ?_⟩
        have : s' = s := by rw [hs] at h; exact (Option.some.inj h).symm
        subst this
        simp only [vput_get]
        rw [if_neg hne]
    · exact ⟨_, _, _, rfl, fun s' h => ⟨s'.cursor, by rw [h]⟩, fun _ _ => rfl⟩

theorem exec_scanNext_idle {s : State} (hr : s.env.rstLow = false) (h : s.ctl.port.act = .idle) (hs :
    s.ctl.station ≠ .mounting) : exec .scanNext s = .next { s with ctl := match s.ctl.scan with
    | none => s.ctl.takeCommand.endCommand .ended []
    | some sc =>
      match sc.position with
      | some slot => s.ctl.takeCommand.deliver slot
      | none =>
        ((s.ctl.takeCommand.setPair sc.current (s.ctl.pair.get sc.current).release).onScan
            (fun s => { s with current := s.current + 1 })).settleNext
          s.env } := by
  refine (next_onCtl s _ hr).trans ?_
  unfold Ctl.scanNextByte Ctl.commandWrite
  rw [if_neg (by simp [Ctl.busy, h, Activity.waits])]
  simp only [Ctl.abandon, h]
  unfold Ctl.doScanNext
  rw [if_neg (show ¬ s.ctl.takeCommand.station = .mounting from hs)]
  rfl

/-- When a read for the port has found damage (R53, log 35). -/
theorem portDamage_eq (c : Ctl) (k : Env) (id : PageId) (a : PageAddr) (h : Nat) (r : PageRead) :
    c.portDamage k id a h r =
    (match c.entry id with
        | some e =>
          if e.localPage = some a ∧ 1 ≤ e.ownDepth k then r.unsound (e.ownDepth k) e.copyEnd
          else r.unsound h (imageEnd r.image h)
        | none => r.unsound h (imageEnd r.image h)) := by
  unfold Ctl.portDamage Ctl.foundDamage
  cases he : c.entry id with
  | none => simp
  | some e => by_cases h1 : e.localPage = some a <;> by_cases h2 : 1 ≤ e.ownDepth k <;> simp [h1, h2]

theorem remove_entry_none (c : Ctl) (id : PageId) : (c.remove id).entry id = none := by
  unfold Ctl.remove
  cases h : c.entry id with
  | none => exact h
  | some e =>
    dsimp only
    rw [Ctl.entry_congr (Ctl.killPages_dir _ _)]
    unfold Ctl.entry
    rw [Ctl.withDir_dir]
    simp [List.find?_eq_none]

theorem damage_replica_entry {c : Ctl} {k : Env} {id : PageId} {a : PageAddr} {e : Entry} (he : c.entry id = some e)
    (hl : e.localPage = some a) (hr : e.role = .replica) (hd : ∀ w x, c.rxHeld w = some x → x.phase ≠ .deferred) :
    (c.damage k id a).entry id = none := by
  unfold Ctl.damage
  rw [he]
  dsimp only
  rw [if_neg (by simp [hl]), hr]
  dsimp only
  obtain ⟨tx, jobs, hcj⟩ := Ctl.cancelJobs_shape ((c.remove id).answer (droppedAnswer id (e.ownDepth k) 0))
      (fun i => decide (i.page = id))
  rw [hcj, Ctl.rejudgeVanished_none]
  · exact remove_entry_none c id
  · intro w x hx
    refine hd w x ?_
    rw [← hx]
    exact (Ctl.rxHeld_congr (c := c) (d := { ((c.remove id).answer (droppedAnswer id (e.ownDepth k) 0)) with tx := tx, jobs := jobs }) (Ctl.remove_rx c id) w).symm

theorem loadPair_eq (c : Ctl) (k : Env) (b : Fin 2) (e : Entry) {a : PageAddr} (h : e.localPage = some a) :
    c.loadPair k b e = (c.setPair b (.loading e.id (e.ownDepth k))).enter
    { who := .port b e.id, op := .pageRead a, emergency := false } := by
  unfold Ctl.loadPair
  rw [h]

end Sys2Proof.Machine
end

