-- ==== Sys2Proof/Laws/Bus.lean ====
section
/-!
SUPPORT. Laws of station masks, the transmit queue and the receive buffers.
-/

namespace Sys2Proof.Machine

theorem has_withStation (m : Byte) (i j : Station) : has (withStation m i) j = (has m j || decide (j = i)) := by
  revert m i j
  unfold has withStation
  intro m i j
  simp only [BitVec.getLsbD_or, BitVec.getLsbD_shiftLeft, Fin.ext_iff]
  congr 1
  by_cases h : j.val = i.val
  · simp [h, i.isLt]
  · rcases Nat.lt_or_gt_of_ne h with h1 | h1
    · simp [h, h1]
    · have : j.val - i.val ≠ 0 := by omega
      simp [h, this]

theorem has_foldl (l : List Station) (m : Byte) (j : Station) :
    has (l.foldl withStation m) j = (has m j || decide (j ∈ l)) := by
  induction l generalizing m with
  | nil => simp
  | cons i l ih =>
    rw [List.foldl_cons, ih, has_withStation, Bool.or_assoc]
    congr 1
    by_cases h1 : j = i <;> by_cases h2 : j ∈ l <;> simp [h1, h2]

theorem has_maskOf (l : List Station) (j : Station) : has (maskOf l) j = decide (j ∈ l) := by
  unfold maskOf
  rw [has_foldl]
  simp [has]

theorem maskOf_ne {l : List Station} (h : l ≠ []) : maskOf l ≠ 0 := by
  intro h0
  cases l with
  | nil => exact h rfl
  | cons i l =>
    have := has_maskOf (i :: l) i
    rw [h0] at this
    simp [has] at this

theorem fillPlaces_none {c : Ctl} {k : Env} {seq : Word} {e : Entry} (retry : Bool) (he : c.ownEntry k seq = some e)
    (hs : c.substitute k e = none) (ht : e.targets = []) (hx : e.extra = none) : c.fillPlaces k seq retry = c := by
  have h1 : ∀ n, c.addSubstitutes k seq n = c := by
    intro n
    cases n with
    | zero => rfl
    | succ n => unfold Ctl.addSubstitutes; rw [he]; dsimp only; rw [hs]
  have h2 : c.addExtraTarget k seq = c := by
    unfold Ctl.addExtraTarget
    rw [he]
    dsimp only
    rw [hs]
    split <;> rfl
  unfold Ctl.fillPlaces
  rw [he]
  dsimp only
  rw [h1, h2, he]
  dsimp only
  rw [ht, hx]
  rfl

theorem cyclicAfter_ne (o s : Station) (h : s ∈ cyclicAfter o) : s ≠ o := by
  revert o s; decide

theorem substitute_none {c : Ctl} {k : Env} {e : Entry} (ho : e.id.origin = k.me) (h : ∀ p, c.countsPresent k p = true →
    p = k.me) : c.substitute k e = none := by
  unfold Ctl.substitute
  rw [List.find?_eq_none]
  intro s hs hc
  simp only [Bool.and_eq_true] at hc
  exact cyclicAfter_ne _ _ hs ((h s hc.1.1.1.1).trans ho.symm)

theorem entry_id {c : Ctl} {id : PageId} {e : Entry} (h : c.entry id = some e) : e.id = id := by
  have := List.find?_some h
  simpa using this

theorem find_split {α : Type} {p : α → Bool} {l l' : List α} {e : α} (hl : ∀ y ∈ l, p y = false) (he : p e = true) :
    (l ++ e :: l').find? p = some e := by
  rw [List.find?_append, List.find?_eq_none.2 (fun y hy => by simp [hl y hy])]
  simp [he]

theorem rxFind_none {c : Ctl} (p : RxBuf → Bool) : c.rxFind p = none ↔ ∀ b, p (c.rx.get b) = false := by
  unfold Ctl.rxFind
  constructor
  · intro h b
    split at h
    · cases h
    · split at h
      · cases h
      · split at h
        · cases h
        · split at h
          · cases h
          · have hb : b = 0 ∨ b = 1 ∨ b = 2 ∨ b = 3 := by omega
            rcases hb with rfl | rfl | rfl | rfl <;> simp_all
  · intro h
    simp [h]

theorem rxFind_some {c : Ctl} {p : RxBuf → Bool} {b : Fin 4} (hb : p (c.rx.get b) = true) (hl : ∀ v, v < b →
    p (c.rx.get v) = false) : c.rxFind p = some b := by
  unfold Ctl.rxFind
  have h4 : b = 0 ∨ b = 1 ∨ b = 2 ∨ b = 3 := by omega
  rcases h4 with rfl | rfl | rfl | rfl
  · rw [if_pos hb]
  · rw [if_neg (by simp [hl 0 (by decide)]), if_pos hb]
  · rw [if_neg (by simp [hl 0 (by decide)]), if_neg (by simp [hl 1 (by decide)]), if_pos hb]
  · rw [if_neg (by simp [hl 0 (by decide)]), if_neg (by simp [hl 1 (by decide)]), if_neg (by simp [hl 2 (by decide)]),
        if_pos hb]

theorem isClaimed_iff (b : RxBuf) : b.isClaimed = true ↔ b = .claimed := by
  cases b <;> simp [RxBuf.isClaimed]

theorem isFree_iff (b : RxBuf) : b.isFree = true ↔ b = .free := by
  cases b <;> simp [RxBuf.isFree]

theorem receiving_false {c : Ctl} (h : ∀ b, c.rx.get b ≠ .claimed) : c.receiving = false := by
  unfold Ctl.receiving
  rw [(rxFind_none _).2 (fun b => by rw [Bool.eq_false_iff]; exact fun hc => h b ((isClaimed_iff _).1 hc))]
  rfl

theorem receiving_true {c : Ctl} (h : ∃ b, c.rx.get b = .claimed) : c.receiving = true := by
  unfold Ctl.receiving
  obtain ⟨b, hb⟩ := h
  cases hf : c.rxFind RxBuf.isClaimed with
  | some _ => rfl
  | none => have := (rxFind_none _).1 hf b; rw [hb] at this; cases this

theorem cls_le (b : TxBody) : b.cls ≤ 3 := by cases b <;> simp [TxBody.cls]

theorem chosen_none {t : Tx} {st : StationState} (h : ∀ e ∈ t.entries, e.sending = false → e.body.sendable st = false) :
    t.chosen st = none := by
  unfold Tx.chosen
  have : ∀ n, t.entries.find? (fun e => !e.sending && e.body.cls == n && e.body.sendable st) = none := by
    intro n
    rw [List.find?_eq_none]
    intro e he hc
    simp only [Bool.and_eq_true, Bool.not_eq_true'] at hc
    rw [h e he hc.1.1] at hc
    exact absurd hc.2 (by simp)
  simp only [this]

/-- The entry that is sent next: the lowest class, and the first of its class (R84). -/
theorem chosen_first {t : Tx} {st : StationState} {l l' : List TxEntry} {e : TxEntry} (ht : t.entries = l ++ e :: l')
    (hs : e.sending = false) (hb : e.body.sendable st = true) (hl : ∀ y ∈ l, y.sending = false →
    y.body.sendable st = true → e.body.cls < y.body.cls) (hl' : ∀ y ∈ l', y.sending = false →
    y.body.sendable st = true → e.body.cls ≤ y.body.cls) : t.chosen st = some e := by
  have hnone : ∀ n, n < e.body.cls → t.entries.find? (fun e => !e.sending && e.body.cls == n && e.body.sendable st) =
      none := by
    intro n hn
    rw [List.find?_eq_none, ht]
    intro y hy hc
    simp only [Bool.and_eq_true, Bool.not_eq_true', beq_iff_eq] at hc
    simp only [List.mem_append, List.mem_cons] at hy
    rcases hy with hy | rfl | hy
    · have := hl y hy hc.1.1 hc.2; omega
    · omega
    · have := hl' y hy hc.1.1 hc.2; omega
  have hsome : t.entries.find? (fun y => !y.sending && y.body.cls == e.body.cls && y.body.sendable st) = some e := by
    rw [ht]
    refine find_split (fun y hy => ?_) (by simp [hs, hb])
    rw [Bool.eq_false_iff]
    intro hc
    simp only [Bool.and_eq_true, Bool.not_eq_true', beq_iff_eq] at hc
    have := hl y hy hc.1.1 hc.2
    omega
  have hc := cls_le e.body
  unfold Tx.chosen
  have h4 : e.body.cls = 0 ∨ e.body.cls = 1 ∨ e.body.cls = 2 ∨ e.body.cls = 3 := by omega
  rcases h4 with h | h | h | h <;> rw [h] at hsome hnone
  · simp only [hsome]
  · simp only [hnone 0 (by omega), hsome]
  · simp only [hnone 0 (by omega), hnone 1 (by omega), hsome]
  · simp only [hnone 0 (by omega), hnone 1 (by omega), hnone 2 (by omega), hsome]

/-- The end of an attempt: the entry waits again, or leaves the queue when it was withdrawn (R85, R88). -/
theorem endAttempt_of {c : Ctl} {o : OnAir} {e : TxEntry} (ho : c.tx.onAir = some o) (he :
    c.tx.entries.find? (fun x => x.num == o.num) = some e) :
    (e.withdrawn = false → c.endAttempt = { c with tx := { c.tx with onAir := none, entries := c.tx.entries.map (fun x => if x.num = e.num then { x with sending := false, renewed := false } else x) } }) ∧
    (e.withdrawn = true → c.endAttempt = Ctl.freeCancelled { c with tx := { c.tx with onAir := none, entries := c.tx.entries.filter (fun x => x.num != e.num) } } e.body) := by
  have hs : c.tx.sendingEntry = some e := by
    unfold Tx.sendingEntry
    rw [ho]
    exact he
  unfold Ctl.endAttempt
  rw [hs]
  dsimp only
  exact ⟨fun h => by rw [h]; rfl, fun h => by rw [h]; rfl⟩

theorem freeCancelled_shape (c : Ctl) (b : TxBody) : ∃ jobs, c.freeCancelled b = { c with jobs := jobs } ∧
    (∀ id t slot j, b = .copy id t slot → c.jobs.get slot = some j →
    jobs = if j.cancelled then vput c.jobs slot none else c.jobs) ∧ (b.isAnyCopy = false → jobs = c.jobs) := by
  cases b with
  | presence _ => exact ⟨_, rfl, fun _ _ _ _ h => (by cases h), fun _ => rfl⟩
  | answer _ => exact ⟨_, rfl, fun _ _ _ _ h => (by cases h), fun _ => rfl⟩
  | holdings _ => exact ⟨_, rfl, fun _ _ _ _ h => (by cases h), fun _ => rfl⟩
  | extent _ _ _ _ => exact ⟨_, rfl, fun _ _ _ _ h => (by cases h), fun _ => rfl⟩
  | copy id t slot =>
    unfold Ctl.freeCancelled
    dsimp only
    cases hj : c.jobs.get slot with
    | none => exact ⟨_, rfl, fun _ _ _ _ h h2 => (by cases h; rw [hj] at h2; cases h2), fun h => by cases h⟩
    | some j =>
      dsimp only
      refine ⟨if j.cancelled then vput c.jobs slot none else c.jobs, ?_, fun _ _ _ _ h h2 => ?_, fun h => by cases h⟩
      · split <;> rfl
      · cases h; rw [hj] at h2; cases h2; rfl

/-- The form of a HOLDINGS frame depends on the directory alone. -/
theorem Ctl.formsHoldings_congr {c d : Ctl} (h : d.dir = c.dir) (k : Env) (s next : Series) (flags : Byte)
    (items : List HoldItem) : d.formsHoldings k s next flags items = c.formsHoldings k s next flags items := by
  unfold Ctl.formsHoldings
  rw [h]

/-- The entry is held CLOSED at its known extent count. -/
theorem heldWhole_iff (e : Entry) (k : Env) : e.heldWhole k = true ↔ (e.closed = true ∧ e.depths.get k.me = e.known) := by
  unfold Entry.heldWhole Entry.ownDepth Entry.depth
  rw [Bool.and_eq_true, decide_eq_true_eq]

/-- What a run takes of the entries after it. -/
theorem extendRun_spec (k : Env) (next : Word) (count : Nat) (l : List Entry) (hc : count ≤ 65535) :
    ∃ es, l = es ++ (extendRun k next count l).2 ∧ (extendRun k next count l).1 = count + es.length ∧
      count + es.length ≤ 65535 ∧ (∀ e ∈ es, e.heldWhole k = true) ∧
      es.map (·.id.seq) = (List.range es.length).map (fun j => next + BitVec.ofNat 32 j) ∧
      (∀ e rest, (extendRun k next count l).2 = e :: rest → e.heldWhole k = true →
        e.id.seq = next + BitVec.ofNat 32 es.length → count + es.length = 65535) := by
  induction l generalizing next count with
  | nil => exact ⟨[], rfl, rfl, hc, by simp, rfl, fun e rest h => by cases h⟩
  | cons x l ih =>
    by_cases h : x.heldWhole k && decide (x.id.seq = next) && decide (count < 65535)
    · have hu : extendRun k next count (x :: l) = extendRun k (next + 1) (count + 1) l := by
        show (if _ then _ else _) = _
        rw [if_pos h]
      simp only [Bool.and_eq_true, decide_eq_true_eq] at h
      obtain ⟨es, h1, h2, h3, h4, h5, h6⟩ := ih (next + 1) (count + 1) (by omega)
      rw [hu]
      have hs (j : Nat) : next + 1 + BitVec.ofNat 32 j = next + BitVec.ofNat 32 (j + 1) := by
        rw [BitVec.add_assoc]; congr 1
        apply BitVec.eq_of_toNat_eq
        simp [Nat.add_comm]
      refine ⟨x :: es, by rw [List.cons_append, ← h1], by rw [h2, List.length_cons]; omega, by rw [List.length_cons]; omega,
        ?_, ?_, ?_⟩
      · intro e he
        rcases List.mem_cons.1 he with rfl | he
        · exact h.1.1
        · exact h4 e he
      · rw [List.map_cons, h5, List.length_cons, List.range_succ_eq_map, List.map_cons, List.map_map, h.1.2]
        refine congrArg₂ _ (by simp) (List.map_congr_left fun j _ => ?_)
        exact hs j
      · intro e rest he hw hq
        have := h6 e rest he hw (by rw [hs]; exact hq)
        rw [List.length_cons]; omega
    · have hu : extendRun k next count (x :: l) = (count, x :: l) := by
        show (if _ then _ else _) = _
        rw [if_neg h]
      rw [hu]
      refine ⟨[], rfl, rfl, hc, by simp, rfl, fun e rest he hw hq => ?_⟩
      cases he
      simp only [Bool.and_eq_true, decide_eq_true_eq, not_and] at h
      have := h ⟨hw, by simpa using hq⟩
      simp; omega

/-- The items of a frame report a first part of the held entries, one item after the other (R155). -/
theorem holdItems_spec (k : Env) (n : Nat) (l : List Entry) :
    ∃ told : List (HoldItem × List Entry), (holdItems k n l).1 = told.map Prod.fst ∧
      l = (told.map Prod.snd).flatten ++ (holdItems k n l).2 ∧
      (∀ l₁ x l₂, told = l₁ ++ x :: l₂ → x.1.reports k x.2 ((l₂.map Prod.snd).flatten ++ (holdItems k n l).2)) ∧
      told.length ≤ n ∧ ((holdItems k n l).2 ≠ [] → told.length = n) := by
  induction n generalizing l with
  | zero => exact ⟨[], rfl, rfl, fun l₁ x l₂ h => by simp at h, le_refl _, fun _ => rfl⟩
  | succ n ih =>
    cases l with
    | nil => exact ⟨[], rfl, rfl, fun l₁ x l₂ h => by simp at h, Nat.zero_le _, fun h => absurd rfl h⟩
    | cons e rest =>
      by_cases hw : e.heldWhole k = true
      · obtain ⟨es, g1, g2, g3, g4, g5, g6⟩ := extendRun_spec k (e.id.seq + 1) 1 rest (by omega)
        obtain ⟨told, h1, h2, h3, h4, h5⟩ := ih (extendRun k (e.id.seq + 1) 1 rest).2
        have hu : holdItems k (n + 1) (e :: rest) =
            (.run e.id.seq (halfOf (extendRun k (e.id.seq + 1) 1 rest).1) ::
              (holdItems k n (extendRun k (e.id.seq + 1) 1 rest).2).1, (holdItems k n (extendRun k (e.id.seq + 1) 1 rest).2).2) := by
          show (if _ then _ else _) = _
          rw [if_pos hw]
        rw [hu]
        generalize extendRun k (e.id.seq + 1) 1 rest = r at *
        have hn : (halfOf r.1).toNat = es.length + 1 := by
          rw [g2]; unfold halfOf; rw [BitVec.toNat_ofNat, Nat.mod_eq_of_lt (by omega)]; omega
        refine ⟨(.run e.id.seq (halfOf r.1), e :: es) :: told, by rw [List.map_cons, h1], ?_, ?_, by simpa using h4,
          fun h => by simpa using h5 h⟩
        · rw [List.map_cons, List.flatten_cons, List.append_assoc, ← h2, List.cons_append, ← g1]
        · intro l₁ x l₂ hx
          cases l₁ with
          | nil =>
            obtain ⟨rfl, rfl⟩ := List.cons.inj hx
            show HoldItem.reports _ _ _ _
            unfold HoldItem.reports
            dsimp only
            rw [hn, ← h2]
            refine ⟨fun y hy => (heldWhole_iff y k).1 ?_, ?_, ?_, fun y ys hy hyw hq => ?_⟩
            · rcases List.mem_cons.1 hy with rfl | hy
              · exact hw
              · exact g4 y hy
            · rw [List.map_cons, g5, List.range_succ_eq_map, List.map_cons, List.map_map]
              refine congrArg₂ _ (by simp) (List.map_congr_left fun j _ => ?_)
              show e.id.seq + 1 + BitVec.ofNat 32 j = e.id.seq + BitVec.ofNat 32 (j + 1)
              rw [BitVec.add_assoc]; congr 1
              apply BitVec.eq_of_toNat_eq
              simp [Nat.add_comm]
            · intro h0
              rw [h0] at hn
              simp at hn
            · have := g6 y ys hy ((heldWhole_iff y k).2 hyw) (by
                rw [hq, BitVec.add_assoc]; congr 1
                apply BitVec.eq_of_toNat_eq
                simp [Nat.add_comm])
              omega
          | cons y l₁ =>
            exact h3 l₁ x l₂ (List.cons.inj hx).2
      · obtain ⟨told, h1, h2, h3, h4, h5⟩ := ih rest
        have hu : holdItems k (n + 1) (e :: rest) =
            (.page e.id.seq (byteOf (e.ownDepth k)) (bitOf e.closed 0) :: (holdItems k n rest).1, (holdItems k n rest).2) := by
          show (if _ then _ else _) = _
          rw [if_neg hw]
        rw [hu]
        refine ⟨(.page e.id.seq (byteOf (e.ownDepth k)) (bitOf e.closed 0), [e]) :: told, by rw [List.map_cons, h1], ?_, ?_,
          by simpa using h4, fun h => by simpa using h5 h⟩
        · rw [List.map_cons, List.flatten_cons, List.append_assoc, ← h2]; rfl
        · intro l₁ x l₂ hx
          cases l₁ with
          | nil =>
            obtain ⟨rfl, rfl⟩ := List.cons.inj hx
            exact ⟨e, rfl, fun h => hw ((heldWhole_iff e k).2 h), rfl, rfl, rfl⟩
          | cons y l₁ =>
            exact h3 l₁ x l₂ (List.cons.inj hx).2

/-- The next HOLDINGS frame of a series (R155): formed as `Ctl.formsHoldings` says, and requested. -/
theorem formHoldings_spec (c : Ctl) (k : Env) (s : Series) :
    ∃ (next : Series) (flags : Byte) (items : List HoldItem), c.formsHoldings k s next flags items ∧
      c.formHoldings k s =
        { c with
          holdings := { c.holdings with series := some next },
          tx := c.tx.request (.holdings
            { series := s.num, origin := byteOf s.group, index := halfOf s.index, flags := flags, items := items }) } := by
  refine ⟨_, _, _, ?_, rfl⟩
  obtain ⟨told, h1, h2, h3, h4, h5⟩ := holdItems_spec k 16 (c.heldOf k s.group s.cursor)
  refine ⟨told, _, h1, h2, h3, by rw [h1, List.length_map]; exact h4, fun h => by rw [h1, List.length_map]; exact h5 h, rfl, ?_⟩
  congr 1
  unfold nextCursor
  have : (c.heldOf k s.group s.cursor).take ((c.heldOf k s.group s.cursor).length -
      (holdItems k 16 (c.heldOf k s.group s.cursor)).2.length) = (told.map Prod.snd).flatten := by
    generalize (holdItems k 16 (c.heldOf k s.group s.cursor)).2 = left at h2 ⊢
    rw [h2]
    simp
  generalize (c.heldOf k s.group s.cursor).take ((c.heldOf k s.group s.cursor).length -
      (holdItems k 16 (c.heldOf k s.group s.cursor)).2.length) = l at this ⊢
  subst this
  cases (told.map Prod.snd).flatten.getLast? <;> rfl

/-- The series after a frame of it, and the size of the frame (R155). -/
theorem Ctl.formsHoldings_next {c : Ctl} {k : Env} {s next : Series} {flags : Byte} {items : List HoldItem}
    (h : c.formsHoldings k s next flags items) :
    next.num = s.num ∧ next.group = s.group ∧ next.index = s.index + 1 ∧ items.length ≤ 16 := by
  obtain ⟨told, left, -, -, -, hlen, -, -, rfl⟩ := h
  exact ⟨rfl, rfl, rfl, hlen⟩

/-- A full series starts with the next number and the first frame of origin 0 (R154). -/
theorem startSeries_spec (c : Ctl) (k : Env) :
    ∃ (next : Series) (flags : Byte) (items : List HoldItem),
      c.formsHoldings k
        { num := c.holdings.lastNum + 1, group := 0, cursor := 0, index := 0, lastOrigin := false, lastSeries := false }
        next flags items ∧
      c.startSeries k =
        { c with
          holdings := { c.holdings with lastNum := c.holdings.lastNum + 1, series := some next },
          tx := c.tx.request (.holdings
            { series := c.holdings.lastNum + 1, origin := byteOf 0, index := halfOf 0, flags := flags, items := items }) } := by
  unfold Ctl.startSeries
  obtain ⟨next, flags, items, h, he⟩ := formHoldings_spec
    { c with holdings := { c.holdings with lastNum := c.holdings.lastNum + 1 } } k
    { num := c.holdings.lastNum + 1, group := 0, cursor := 0, index := 0, lastOrigin := false, lastSeries := false }
  exact ⟨next, flags, items, h, he⟩

theorem isolate_shape (c : Ctl) : ∃ tx jobs, c.isolate = { c with station := .isolated, presence := none, window := none, alerts := { c.alerts with pending := c.alerts.pending ||| 0x10#8 }, tx := tx, jobs := jobs } := by
  unfold Ctl.isolate Ctl.enterState Ctl.cutShort
  split
  · exact ⟨_, _, rfl⟩
  · rename_i e he
    rw [if_neg (by show ¬ e.body.sendable .isolated = true; cases e.body <;> simp [TxBody.sendable])]
    unfold Ctl.endAttempt
    rw [he]
    dsimp only
    split
    · obtain ⟨jobs, hj, -, -⟩ := freeCancelled_shape (Ctl.onTx
          { c with presence := none, window := none, station := .isolated }
          (fun t => { t with onAir := none, entries := t.entries.filter (fun x => x.num != e.num) })) e.body
      rw [hj]
      exact ⟨_, _, rfl⟩
    · exact ⟨_, _, rfl⟩

theorem freeClaimed_of {c : Ctl} {b : Fin 4} (hb : c.rx.get b = .claimed) (hu : ∀ v, c.rx.get v = .claimed → v = b) :
    c.freeClaimed = { c with rx := vput c.rx b .free } := by
  unfold Ctl.freeClaimed
  rw [rxFind_some (b := b) ((isClaimed_iff _).2 hb) (fun v hv => by
        rw [Bool.eq_false_iff]
        intro hc
        have := hu v ((isClaimed_iff _).1 hc)
        subst this
        exact absurd hv (lt_irrefl _))]
  rfl

end Sys2Proof.Machine
end

