-- ==== Sys2Proof/Laws/Members.lean ====
section
/-!
SUPPORT. Laws of the peer table, its notices and the repair list.
-/

namespace Sys2Proof.Machine

theorem sweep_rest {c : Ctl} (k : Env) (h : c.atRest) : c.sweep k = c := by
  obtain ⟨h1, h2, h3, h4, h5⟩ := h
  have e1 : c.startReadBack k = c := by
    unfold Ctl.startReadBack
    simp [h4, h1]
  have e2 : c.sweepReadBack k = c := by
    unfold Ctl.sweepReadBack
    simp [h4, e1]
  unfold Ctl.sweep
  rw [e2]
  unfold Ctl.sweepFill
  simp [h2]

theorem sweepAll_rest {c : Ctl} (k : Env) (h : c.atRest) : c.sweepAll k = c := by
  unfold Ctl.sweepAll Ctl.sweepOwed
  rw [if_pos (by simp [h.2.2.1])]
  exact sweep_rest k h

theorem cancelJob_target {c : Ctl} (slot : Fin 2) : (∀ t, t ≠ slot → (c.cancelJob slot).jobs.get t = c.jobs.get t) ∧
    (∀ j, (c.cancelJob slot).jobs.get slot = some j → j.cancelled = true) := by
  unfold Ctl.cancelJob
  cases h : c.jobs.get slot with
  | none => exact ⟨fun _ _ => rfl, fun j hj => by rw [h] at hj; cases hj⟩
  | some j =>
    have hclose : (∀ t, t ≠ slot → (c.closeJob slot).jobs.get t = c.jobs.get t) ∧
        (∀ j, (c.closeJob slot).jobs.get slot = some j → j.cancelled = true) := by
      unfold Ctl.closeJob
      rw [h]
      dsimp only
      split
      · refine ⟨fun t ht => vput_get_other _ _ _ _ ht, fun j hj => ?_⟩
        simp only [Ctl.setJob, Ctl.onTx, vput_get_same, Option.some.injEq] at hj
        rw [← hj]
      · refine ⟨fun t ht => vput_get_other _ _ _ _ ht, fun j hj => ?_⟩
        simp [Ctl.setJob, Ctl.onTx] at hj
    dsimp only
    split
    · refine ⟨fun t ht => vput_get_other _ _ _ _ ht, fun j hj => ?_⟩
      simp only [Ctl.setJob, vput_get_same, Option.some.injEq] at hj
      rw [← hj]
    · exact hclose
    · exact hclose

/-- Requesting a COPY brings no job that satisfies a test of its page or target and is not cancelled. -/
theorem requestCopy_all {c : Ctl} {p : Job → Bool}
    (hp : ∀ (j : Job) x o n, p { j with state := x, owed := o, timer := none, attempts := n } = p j)
    (hc : ∀ (slot : Fin 2) j, c.jobs.get slot = some j → p j = false ∨ j.cancelled = true) (s slot : Fin 2) (j : Job)
    (h : (c.requestCopy s).jobs.get slot = some j) : p j = false ∨ j.cancelled = true := by
  unfold Ctl.requestCopy at h
  split at h
  · exact hc slot j h
  · rename_i i hi
    by_cases hs : slot = s
    · subst hs
      split at h <;> simp only [Ctl.setJob, Ctl.onTx, vput_get_same, Option.some.injEq] at h <;> subst h
      all_goals
        rw [hp]
        exact hc slot i hi
    · split at h <;> exact hc slot j ((vput_get_other _ _ _ _ hs).symm.trans h)

theorem resumeCopies_all {c : Ctl} {p : Job → Bool}
    (hp : ∀ (j : Job) x o n, p { j with state := x, owed := o, timer := none, attempts := n } = p j)
    (hc : ∀ (slot : Fin 2) j, c.jobs.get slot = some j → p j = false ∨ j.cancelled = true) (before : Tx) (slot : Fin 2)
    (j : Job) (h : (c.resumeCopies before).jobs.get slot = some j) : p j = false ∨ j.cancelled = true := by
  have one (d : Ctl) (hd : ∀ (slot : Fin 2) j, d.jobs.get slot = some j → p j = false ∨ j.cancelled = true) (s : Fin 2) :
      ∀ (slot : Fin 2) j, (match d.jobs.get s with
        | some j => if j.owed && !d.tx.held.any TxBody.isAnyCopy then d.requestCopy s else d
        | none => d).jobs.get slot = some j → p j = false ∨ j.cancelled = true := by
    split
    · split
      · exact requestCopy_all hp hd s
      · exact hd
    · exact hd
  unfold Ctl.resumeCopies at h
  split at h
  · exact one _ (one c hc 0) 1 slot j h
  · exact hc slot j h

/-- After the jobs that satisfy a test are cancelled, each job fails the test or is cancelled (R149). -/
theorem cancelJobs_all (c : Ctl) (p : Job → Bool)
    (hp : ∀ (j : Job) x o n, p { j with state := x, owed := o, timer := none, attempts := n } = p j)
    (slot : Fin 2) (j : Job) (h : (c.cancelJobs p).jobs.get slot = some j) : p j = false ∨ j.cancelled = true := by
  have one (c : Ctl) (s : Fin 2) : ∀ d : Ctl, d = (match c.jobs.get s with
    | some j => if p j && !j.cancelled then c.cancelJob s else c
    | none => c) → (∀ t, t ≠ s → d.jobs.get t = c.jobs.get t) ∧
          (∀ j, d.jobs.get s = some j → (c.jobs.get s = some j ∧ p j = false) ∨ j.cancelled = true) := by
    intro d hd
    cases hx : c.jobs.get s with
    | none => rw [hx] at hd; subst hd; exact ⟨fun _ _ => rfl, fun j hj => by rw [hx] at hj; cases hj⟩
    | some y =>
      rw [hx] at hd
      dsimp only at hd
      by_cases hc : (p y && !y.cancelled) = true
      · rw [if_pos hc] at hd
        subst hd
        exact ⟨(cancelJob_target s).1, fun j hj => Or.inr ((cancelJob_target s).2 j hj)⟩
      · rw [if_neg hc] at hd
        subst hd
        refine ⟨fun _ _ => rfl, fun j hj => ?_⟩
        rw [hx] at hj
        cases hj
        cases h1 : p y with
        | false => exact Or.inl ⟨rfl, rfl⟩
        | true =>
          cases h2 : y.cancelled with
          | true => exact Or.inr rfl
          | false => exact absurd (by rw [h1, h2]; rfl) hc
  obtain ⟨d, e, b1, a2, b2, he⟩ : ∃ d e : Ctl, (∀ t, t ≠ 1 → e.jobs.get t = d.jobs.get t) ∧
      (∀ j, d.jobs.get 0 = some j → (c.jobs.get 0 = some j ∧ p j = false) ∨ j.cancelled = true) ∧
      (∀ j, e.jobs.get 1 = some j → (d.jobs.get 1 = some j ∧ p j = false) ∨ j.cancelled = true) ∧
      c.cancelJobs p = e.resumeCopies c.tx :=
    ⟨_, _, (one _ 1 _ rfl).1, (one c 0 _ rfl).2, (one _ 1 _ rfl).2, rfl⟩
  rw [he] at h
  refine resumeCopies_all hp (fun slot j h => ?_) c.tx slot j h
  have hs : slot = 0 ∨ slot = 1 := by omega
  rcases hs with rfl | rfl
  · rw [b1 0 (by decide)] at h
    exact (a2 j h).imp_left And.right
  · exact (b2 j h).imp_left And.right

theorem appendDeparture_mem (c : Ctl) (p : Station) : ∃ t ∈ (c.appendDeparture p).repair, t.kind = .departure p := by
  unfold Ctl.appendDeparture
  split
  · rename_i h
    rw [List.any_eq_true] at h
    obtain ⟨t, ht, hk⟩ := h
    have hkind : t.kind = .departure p := by
      unfold Task.isDeparture at hk
      split at hk
      · rename_i q hq
        rw [hq]
        simp at hk
        rw [hk]
      · cases hk
    unfold Ctl.onHead
    cases hr : c.repair with
    | nil => rw [hr] at ht; simp at ht
    | cons y ys =>
      dsimp only
      rw [hr] at ht
      rcases List.mem_cons.1 ht with rfl | hm
      · refine ⟨_, List.mem_cons_self, ?_⟩
        split <;> exact hkind
      · exact ⟨t, List.mem_cons_of_mem _ hm, hkind⟩
  · exact ⟨_, List.mem_append_right _ (List.mem_cons_self), rfl⟩

theorem isDeparture_iff (t : Task) (p : Station) : t.isDeparture p = true ↔ t.kind = .departure p := by
  unfold Task.isDeparture
  cases t.kind with
  | departure q =>
    dsimp only
    rw [beq_iff_eq]
    exact ⟨fun h => by rw [h], fun h => by injection h with h; exact h.symm⟩
  | recheck a b =>
    constructor
    · intro h; cases h
    · intro h; cases h

theorem appendDeparture_new {c : Ctl} {p : Station} (h : ∀ t ∈ c.repair, t.kind ≠ .departure p) :
    c.appendDeparture p = { c with repair := c.repair ++ [{ kind := .departure p, cursor := 0, waiting := false }] } := by
  unfold Ctl.appendDeparture
  rw [if_neg]
  rw [Bool.not_eq_true, List.any_eq_false]
  intro t ht hk
  exact h t ht ((isDeparture_iff t p).1 hk)

theorem ownDeparture_rest {c : Ctl} (k : Env) (p : Station) (h : c.et = []) : c.ownDeparture k p = c := by
  unfold Ctl.ownDeparture Ctl.tablePages
  rw [h]
  rfl

theorem appendDeparture_shape (c : Ctl) (p : Station) : ∃ l, c.appendDeparture p = { c with repair := l } := by
  unfold Ctl.appendDeparture Ctl.onHead
  split
  · split
    · exact ⟨_, rfl⟩
    · exact ⟨_, rfl⟩
  · exact ⟨_, rfl⟩

/-- A departure at a station whose own-extent engine has nothing in hand (R96). -/
theorem departure_rest {c : Ctl} (k : Env) (p : Station) (h : c.atRest) (hj : ∀ slot j, c.jobs.get slot = some j →
    j.target ≠ p) (ht : ∀ t ∈ c.repair, t.kind ≠ .departure p) :
    c.departure k p = { c with
      peers := vput c.peers p { c.peers.get p with reportReq := false, received := none },
      repair := c.repair ++ [{ kind := .departure p, cursor := 0, waiting := false }],
      alerts := { c.alerts with pending := c.alerts.pending ||| 0x04#8 } } := by
  unfold Ctl.departure
  dsimp only
  rw [ownDeparture_rest k p h.1, sweepAll_rest k h, cancelJobs_none (fun slot j hjj => by simp [hj slot j hjj]),
      appendDeparture_new ht]
  rfl

theorem sweep_pair (c : Ctl) (k : Env) : (c.sweep k).pair = c.pair := by simp

theorem appendDeparture_fold (l : List Station) (hn : l.Nodup) (c : Ctl) (h :
    ∀ t ∈ c.repair, ∀ p ∈ l, t.kind ≠ .departure p) : l.foldl Ctl.appendDeparture c =
    { c with repair := c.repair ++ l.map (fun p => { kind := .departure p, cursor := 0, waiting := false }) } := by
  induction l generalizing c with
  | nil => simp
  | cons p ps ih =>
    rw [List.foldl_cons, appendDeparture_new (fun t ht => h t ht p (by simp))]
    rw [ih (List.nodup_cons.1 hn).2]
    · simp
    · intro t ht q hq
      simp only [List.mem_append, List.mem_singleton] at ht
      rcases ht with ht | rfl
      · exact h t ht q (by simp [hq])
      · intro hk
        injection hk with hk
        subst hk
        exact (List.nodup_cons.1 hn).1 hq

theorem cutShort_sendable {c : Ctl} (h : ∀ b : TxBody, b.sendable c.station = true) : c.cutShort = c := by
  unfold Ctl.cutShort
  split
  · rfl
  · rw [if_pos (h _)]

theorem or_bit (z m : Byte) : (z ||| m) &&& m = m := by
  ext i
  simp only [BitVec.getElem_and, BitVec.getElem_or]
  cases z[i] <;> cases m[i] <;> rfl

theorem bit_mono {a b m : Byte} (h : a &&& b = a) (g : a &&& m = m) : b &&& m = m := by
  ext i hi
  have h1 : (a &&& b)[i] = a[i] := by rw [h]
  have h2 : (a &&& m)[i] = m[i] := by rw [g]
  simp only [BitVec.getElem_and] at h1 h2 ⊢
  revert h1 h2
  cases a[i] <;> cases b[i] <;> cases m[i] <;> simp

theorem or_mono {a b m : Byte} (h : a &&& b = a) (g : b &&& m = m) : (a ||| m) &&& b = a ||| m := by
  ext i hi
  have h1 : (a &&& b)[i] = a[i] := by rw [h]
  have h2 : (b &&& m)[i] = m[i] := by rw [g]
  simp only [BitVec.getElem_and, BitVec.getElem_or] at h1 h2 ⊢
  revert h1 h2
  cases a[i] <;> cases b[i] <;> cases m[i] <;> simp

/-- From `c` to `d` the still fields but the peers and the holdings generator stay, and no pending cause is withdrawn. -/
def NoticeRel (c d : Ctl) : Prop := (∀ X Y, Ctl.still { d with peers := X, holdings := Y } =
    Ctl.still { c with peers := X, holdings := Y }) ∧ c.alerts.pending &&& d.alerts.pending = c.alerts.pending

theorem NoticeRel.refl (c : Ctl) : NoticeRel c c := ⟨fun _ _ => rfl, by simp⟩

theorem NoticeRel.trans {a b c : Ctl} (h : NoticeRel a b) (g : NoticeRel b c) :
    NoticeRel a c := ⟨fun X Y => (g.1 X Y).trans (h.1 X Y), by
  have h1 := h.2
  have h2 := g.2
  rw [← h1, BitVec.and_assoc, h2, h1]⟩

theorem NoticeRel.calm {c d : Ctl} (h : Calm false c d) : NoticeRel c d := ⟨fun X Y => by
  have : Ctl.still { d with peers := X, holdings := Y } = { d.still with peers := X, holdings := Y } := rfl
  rw [this, h.still rfl]
  rfl, h.grows rfl⟩

theorem NoticeRel.peers (c : Ctl) (P : Vector Peer 8) : NoticeRel c { c with peers := P } := ⟨fun _ _ => rfl, by simp⟩

theorem NoticeRel.hand (c : Ctl) (x : Cause) : NoticeRel c (c.hand x) := ⟨fun _ _ => rfl, by
  show c.alerts.pending &&& (c.alerts.pending ||| _) = _
  ext i; simp; intro h; simp [h]⟩

theorem calm_peers {c d : Ctl} (h : Calm false c d) : d.peers = c.peers := by
  show d.still.peers = c.still.peers
  rw [h.still rfl]

theorem calm_holdings {c d : Ctl} (h : Calm false c d) : d.holdings = c.holdings := by
  show d.still.holdings = c.still.holdings
  rw [h.still rfl]

/-- An arrival (R95). -/
theorem arrival_spec (c : Ctl) (k : Env) (p : Station) : NoticeRel c (c.arrival k p) ∧
    (c.arrival k p).peers = vput c.peers p { c.peers.get p with reportReq := true } ∧
    (c.arrival k p).holdings = c.holdings ∧ (c.arrival k p).alerts.pending &&& 0x04#8 = 0x04#8 := by
  unfold Ctl.arrival
  dsimp only
  generalize hc1 : c.onPeer p (fun x => { x with reportReq := true }) = c1
  have hcalm : Calm false c1 (((c1.removeDeparture p).retryPlacement k true).requestRecheck) :=
      Ctl.requestRecheck_calm (Ctl.retryPlacement_calm (Ctl.removeDeparture_calm (Calm.refl c1) _) _ _)
  refine ⟨((hc1 ▸ NoticeRel.peers c _ : NoticeRel c c1).trans (NoticeRel.calm hcalm)).trans (NoticeRel.hand _ _), ?_,
      ?_, ?_⟩
  · show Ctl.peers (Ctl.requestRecheck _) = _
    rw [calm_peers hcalm, ← hc1]; rfl
  · show Ctl.holdings (Ctl.requestRecheck _) = _
    rw [calm_holdings hcalm, ← hc1]; rfl
  · show (_ ||| 0x04#8) &&& 0x04#8 = 0x04#8
    exact or_bit _ _

/-- A departure (R96). -/
theorem departure_spec (c : Ctl) (k : Env) (p : Station) : NoticeRel c (c.departure k p) ∧
    (c.departure k p).peers = vput c.peers p { c.peers.get p with reportReq := false, received := none } ∧
    (c.departure k p).holdings = c.holdings ∧ (c.departure k p).alerts.pending &&& 0x04#8 = 0x04#8 := by
  unfold Ctl.departure
  dsimp only
  have hcalm : Calm false c ((((c.ownDeparture k p).sweepAll k).cancelJobs (fun j => decide (j.target =
      p))).appendDeparture p) := Ctl.appendDeparture_calm (Ctl.cancelJobs_calm
      (Ctl.sweepAll_calm (Ctl.ownDeparture_calm (Calm.refl c) _ _) _) _) _
  generalize (((c.ownDeparture k p).sweepAll k).cancelJobs (fun j => decide (j.target = p))).appendDeparture p =
      c1 at hcalm ⊢
  refine ⟨((NoticeRel.calm hcalm).trans (NoticeRel.peers _ _)).trans (NoticeRel.hand _ _), ?_, ?_, ?_⟩
  · show vput c1.peers p _ = _
    rw [calm_peers hcalm]
  · show c1.holdings = _
    exact calm_holdings hcalm
  · show (_ ||| 0x04#8) &&& 0x04#8 = 0x04#8
    exact or_bit _ _

theorem holdingsAsked_spec (c : Ctl) (k : Env) : ∃ h tx, c.holdingsAsked k = { c with holdings := h, tx := tx } := by
  unfold Ctl.holdingsAsked
  split
  · exact ⟨_, _, rfl⟩
  · split
    · exact ⟨_, _, rfl⟩
    · exact ⟨_, _, rfl⟩

theorem exec_presenceFrame {s : State} {f : Heard} {p : Station} {b : PresenceBody} (hr : s.env.rstLow = false) (hf :
    Machine.Heard.receive f = some (p, .presence b)) (hp : p ≠ s.env.me) (h1 : s.ctl.station ≠ .mounting) (h2 :
    s.ctl.station ≠ .isolated) : exec (.presenceFrame f) s = .next { s with ctl := s.ctl.takePresence s.env p b } := by
  refine (next_onCtl s _ hr).trans ?_
  unfold Ctl.hearPresence
  rw [hf]
  dsimp only
  unfold Ctl.dispatch
  have : s.ctl.station.takesPresence = true := by cases hs : s.ctl.station <;> simp_all [StationState.takesPresence]
  rw [if_neg (by simp [this]), if_neg hp, if_pos this]

/-- Which notice a change of peer state gives (R95, R96). -/
theorem noticeOf_eq (before after : PeerState) (isNew : Bool) (ha :
    after = .incompatible ∨ after = .departed ∨ after = .present) :
    noticeOf before after isNew =
      if decide (after = .present) && !((decide (before = .present) || decide (before =
          .silent)) && !isNew) then .arrival
      else if (decide (after = .departed) && decide (before ≠ .departed)) || (decide (after =
          .incompatible) && (decide (before = .present) || decide (before = .silent))) then .departure
      else if decide (after = .incompatible) && decide (before = .absent) then .clearing else .none := by
  cases isNew <;> rcases ha with rfl | rfl | rfl <;> cases before <;> rfl

theorem retry_rest {c : Ctl} (k : Env) (e : Bool) (h : c.et = []) : c.retryPlacement k e = c := by
  unfold Ctl.retryPlacement Ctl.tablePages
  rw [h]
  rfl

theorem requestRecheck_new {c : Ctl} (h : ∀ t ∈ c.repair, t.isRecheck = false) :
    c.requestRecheck = { c with repair := c.repair ++ [{ kind := .recheck false false, cursor := 0, waiting := false }] } := by
  unfold Ctl.requestRecheck
  rw [if_neg]
  rw [Bool.not_eq_true, List.any_eq_false]
  intro t ht; simp [h t ht]

theorem removeDeparture_absent {c : Ctl} {p : Station} (h : ∀ t ∈ c.repair, t.kind ≠ .departure p) :
    c.removeDeparture p = c := by
  unfold Ctl.removeDeparture
  cases hr : c.repair with
  | nil => rfl
  | cons t rest =>
    rw [hr] at h
    have hf : ∀ y ∈ t :: rest, y.isDeparture p = false := fun y hy => by
      rw [Bool.eq_false_iff]
      exact fun hc => h y hy ((isDeparture_iff _ _).1 hc)
    dsimp only
    rw [if_neg (by simp [hf t (by simp)])]
    have : rest.filter (fun x => !x.isDeparture p) = rest := by
      rw [List.filter_eq_self]
      intro y hy
      simp [hf y (by simp [hy])]
    rw [this, ← hr]

theorem deferred_free {c d : Ctl} (h : d.rx = c.rx) (hd : ∀ v x, c.rxHeld v = some x → x.phase ≠ .deferred) :
    ∀ v x, d.rxHeld v = some x → x.phase ≠ .deferred := by
  intro v x hx
  exact hd v x (by rw [← Ctl.rxHeld_congr h]; exact hx)

theorem removeAll_dir (l : List PageId) (c : Ctl) : (l.foldl Ctl.remove c).dir =
    c.dir.filter (fun e => !l.contains e.id) := by
  induction l generalizing c with
  | nil => simp
  | cons id l ih =>
    rw [List.foldl_cons, ih]
    have : (c.remove id).dir = c.dir.filter (fun y => y.id != id) := by
      unfold Ctl.remove
      cases h : c.entry id with
      | none =>
        dsimp only
        symm
        rw [List.filter_eq_self]
        intro y hy
        have := List.find?_eq_none.1 h y hy
        simpa using this
      | some e =>
        dsimp only
        rw [Ctl.killPages_dir, Ctl.withDir_dir]
    rw [this, List.filter_filter]
    refine List.filter_congr (fun y _ => ?_)
    simp only [List.contains_cons, bne]
    cases y.id == id <;> simp

theorem foldl_remove_same {β : Type} (g : Ctl → β) (hg : ∀ c id, g (c.remove id) = g c) (l : List PageId) (c : Ctl) :
    g (l.foldl Ctl.remove c) = g c := by
  induction l generalizing c with
  | nil => rfl
  | cons id l ih => rw [List.foldl_cons, ih, hg]

end Sys2Proof.Machine
end

