-- ==== Sys2Proof/Laws/Answers.lean ====
section
/-!
SUPPORT. Laws of ANSWER and HOLDINGS frames, and the Extent Table after them.
-/

namespace Sys2Proof.Machine

theorem exec_answerFrame {s : State} {f : Heard} {t : Station} {a : AnswerBody} (hr : s.env.rstLow = false) (hf :
    Machine.Heard.receive f = some (t, .answer a)) (hp : t ≠ s.env.me) (h1 :
    s.ctl.station = .active ∨ s.ctl.station = .frozen ∨ s.ctl.station = .leaving) :
    exec (.answerFrame f) s = .next { s with ctl := s.ctl.takeAnswer s.env t a } := by
  refine (next_onCtl s _ hr).trans ?_
  unfold Ctl.hearAnswer
  rw [hf]
  dsimp only
  unfold Ctl.dispatch
  have : s.ctl.station.takesPresence = true ∧ s.ctl.station.takesAnswer = true := by rcases h1 with h | h | h <;> rw [h]
      <;> exact ⟨rfl, rfl⟩
  rw [if_neg (by simp [this.1]), if_neg hp, if_pos this.2]

theorem verdictOf_code (v : Verdict) : verdictOf v.code = some v := by cases v <;> rfl

theorem jobMatches_iff (c : Ctl) (k : Env) (slot : Fin 2) (t : Station) (id : PageId) (a : AnswerBody) :
    c.jobMatches k slot t id a = true ↔ ∃ j, c.jobs.get slot = some j ∧ j.target = t ∧ a.addressee = byteOf k.me.val ∧
    a.isCopy = true ∧ j.page = id ∧ j.cancelled = false ∧ j.state ≠ .reading := by
  unfold Ctl.jobMatches
  cases c.jobs.get slot with
  | none => simp
  | some j => simp [and_assoc]

theorem jobMatches_congr {c d : Ctl} (h : d.jobs = c.jobs) (k : Env) (slot : Fin 2) (t : Station) (id : PageId) (a :
    AnswerBody) : d.jobMatches k slot t id a = c.jobMatches k slot t id a := by
  unfold Ctl.jobMatches
  rw [h]

theorem endMatched_false (c : Ctl) (k : Env) (slot : Fin 2) (t : Station) (id : PageId) (a : AnswerBody) (v : Verdict)
    (m : Bool) (h : v.endsJob = false ∨ m = false ∨ c.jobMatches k slot t id a = false) :
    c.endMatched k slot t id a v m = c := by
  unfold Ctl.endMatched
  rw [if_neg]
  intro hc
  simp only [Bool.and_eq_true] at hc
  rcases h with h | h | h
  · rw [h] at hc; exact absurd hc.1.1 (by simp)
  · rw [h] at hc; exact absurd hc.1.2 (by simp)
  · rw [h] at hc; exact absurd hc.2 (by simp)

theorem closeJob_shape (c : Ctl) (slot : Fin 2) {j : Job} (hj : c.jobs.get slot = some j) : c.closeJob slot = { c with
    tx := c.tx.withdraw (fun b => b.isCopyOf slot),
    jobs := vput c.jobs slot (if ∃ e ∈ c.tx.entries, e.sending = true ∧
        e.body.isCopyOf slot = true then some { j with cancelled := true, owed := false, timer := none } else none)
        } := by
  unfold Ctl.closeJob
  rw [hj]
  dsimp only
  have : c.copySending slot = true ↔ ∃ e ∈ c.tx.entries, e.sending = true ∧ e.body.isCopyOf slot = true := by
    unfold Ctl.copySending
    simp [List.any_eq_true]
  by_cases h : c.copySending slot = true
  · rw [if_pos h, if_pos (this.1 h)]; rfl
  · rw [if_neg h, if_neg (fun hc => h (this.2 hc))]; rfl

theorem update_still (c : Ctl) (k : Env) (id : PageId) (f : Entry → Entry) (hf : ∀ e, (f e).id = e.id) :
    (c.update k id f).still = c.still := (Ctl.update_calm (w := false) (Calm.refl c) k id f hf).still rfl

theorem underCopied_congr {c d : Ctl} (h : d.et = c.et) (k : Env) (e : Entry) :
    d.underCopied k e = c.underCopied k e := by
  unfold Ctl.underCopied Ctl.inTable
  rw [h]

/-- Updates of several entries, one after another. -/
theorem fold_update {k : Env} {g : Entry → Entry} (hg : ∀ e, (g e).id = e.id) (l : List PageId) (hn : l.Nodup) (c :
    Ctl) :
    (l.foldl (fun c id => c.update k id g) c).et = c.et ∧ (l.foldl (fun c id => c.update k id g) c).tx = c.tx ∧
        (l.foldl (fun c id => c.update k id g) c).rx = c.rx ∧ (l.foldl (fun c id => c.update k id g) c).jobs = c.jobs ∧
        (l.foldl (fun c id => c.update k id g) c).port = c.port ∧
        (l.foldl (fun c id => c.update k id g) c).still = c.still ∧
    ∀ x, (l.foldl (fun c id => c.update k id g) c).entry x = (c.entry x).map
        (fun e => if e.id ∈ l then { g e with under := c.underCopied k (g e) } else e) := by
  induction l generalizing c with
  | nil =>
    refine ⟨rfl, rfl, rfl, rfl, rfl, rfl, fun x => ?_⟩
    simp
  | cons id l ih =>
    obtain ⟨h1, h2, h3, h4, h5, h6, h7⟩ := ih (List.nodup_cons.1 hn).2 (c.update k id g)
    simp only [List.foldl_cons]
    refine ⟨h1.trans (by simp), h2.trans (by simp), h3.trans (by simp), h4.trans (by simp), h5.trans (by simp),
        h6.trans ((Ctl.update_calm (w := false) (Calm.refl c) k id g hg).still rfl), fun x => ?_⟩
    rw [h7, Ctl.entry_update hg, Option.map_map]
    cases he : c.entry x with
    | none => rfl
    | some e =>
      simp only [Option.map_some, Function.comp]
      congr 1
      by_cases h8 : e.id = id
      · rw [if_pos h8, if_neg (show ¬ (Ctl.flagged c k (g e)).id ∈ l from by
            rw [show (Ctl.flagged c k (g e)).id = e.id from hg e, h8]
            exact (List.nodup_cons.1 hn).1), if_pos (by rw [h8]; simp)]
        rfl
      · rw [if_neg h8]
        by_cases h9 : e.id ∈ l
        · rw [if_pos h9, if_pos (by simp [h9]), underCopied_congr (Ctl.update_et _ _ _ _)]
        · rw [if_neg h9, if_neg (by simp [h8, h9])]

theorem foldl_ext {α β : Type} {f g : β → α → β} (l : List α) (h : ∀ a ∈ l, ∀ b, f b a = g b a) (b : β) :
    l.foldl f b = l.foldl g b := by
  induction l generalizing b with
  | nil => rfl
  | cons a l ih =>
    rw [List.foldl_cons, List.foldl_cons, h a (by simp), ih (fun x hx => h x (by simp [hx]))]

theorem holdItem_id (t : Station) (r : Bool) (e : Entry) (i : HoldItem) : (Entry.holdItem t r e i).id = e.id := by
  unfold Entry.holdItem Entry.raiseDepth Entry.setDepth
  cases i <;> dsimp only <;> (repeat' split) <;> rfl

theorem holdItems_id (t : Station) (r : Bool) (l : List HoldItem) (e : Entry) :
    (l.foldl (Entry.holdItem t r) e).id = e.id := by
  induction l generalizing e with
  | nil => rfl
  | cons i l ih => rw [List.foldl_cons, ih, holdItem_id]

theorem holdFrame_id (t : Station) (r : Bool) (b : HoldingsBody) (e : Entry) : (e.holdFrame t r b).id = e.id := by
  unfold Entry.holdFrame
  rw [holdItems_id]
  split <;> rfl

/-- A holdings item names the page seq `q` of its origin (Table 11-10). -/
def namesSeq (i : HoldItem) (q : Word) : Prop := match i with
  | .run s n => s.toNat ≤ q.toNat ∧ q.toNat < s.toNat + n.toNat
  | .page s _ _ => s = q

/-- Items that do not name an entry leave it alone. -/
theorem hold_skip (t : Station) (l : List HoldItem) (e : Entry) (h : ∀ i ∈ l, ¬ namesSeq i e.id.seq) :
    l.foldl (Entry.holdItem t false) e = e := by
  induction l with
  | nil => rfl
  | cons i l ih =>
    have hi := h i (by simp)
    have : Entry.holdItem t false e i = e := by
      unfold Entry.holdItem
      cases i with
      | run s n => exact if_neg hi
      | page s d fl => exact if_neg hi
    rw [List.foldl_cons, this]
    exact ih (fun y hy => h y (by simp [hy]))

theorem vput_self {α : Type} {n : Nat} (v : Vector α n) (i : Fin n) : vput v i (v.get i) = v := by
  unfold vput
  ext j hj
  simp only [Vector.getElem_set]
  split
  · rename_i h; subst h; rfl
  · rfl

theorem stationOf_me (k : Station) : stationOf (byteOf k.val) = some k := by revert k; decide

theorem jobMatches_false (c : Ctl) (k : Env) (slot : Fin 2) (t : Station) (id : PageId) (a : AnswerBody) (h :
    a.isCopy = false) : c.jobMatches k slot t id a = false := by
  unfold Ctl.jobMatches
  cases c.jobs.get slot with
  | none => rfl
  | some j => simp [h]

theorem takeAnswer_own {c : Ctl} {k : Env} {t : Station} {a : AnswerBody} {v : Verdict} (ho :
    a.origin = byteOf k.me.val) (hv : a.verdict = v.code) (hc : a.flags.getLsbD 0 = false) :
    c.takeAnswer k t a = ((c.heardFull t v).ownAnswer k t a v false).sweepAll k := by
  have hm := fun slot => jobMatches_false (c.heardFull t v) k slot t { origin := k.me, seq := a.seq } a hc
  unfold Ctl.takeAnswer
  rw [ho, stationOf_me, hv, verdictOf_code]
  dsimp only
  unfold Ctl.takeVerdict
  dsimp only
  rw [hm 0, hm 1]
  unfold Ctl.endMatched Ctl.answerFor
  simp

/-- Nothing owed is requested when nothing is owed or an EXTENT is held (R86, R118). -/
theorem Ctl.sweepOwed_held {c : Ctl} (h : c.owed = [] ∨ c.tx.held.any TxBody.isAnyExtent = true) (k : Env) :
    c.sweepOwed k = c := by
  unfold Ctl.sweepOwed
  rw [if_pos (by rcases h with h | h <;> simp [h])]

/-- Nothing owed is left to request when no entry is left. -/
theorem Ctl.sweepOwed_noEntry {c : Ctl} (h : c.et = []) (k : Env) :
    ∃ o r, c.sweepOwed k = { c with owed := o, readBack := r } := by
  have hw (w : Wanted) : c.stillWanted w = none := by simp [Ctl.stillWanted, Ctl.etEntry, h]
  have hp : c.pruneOwed = { c with owed := [], readBack := { c.readBack with wants := [] } } := by
    simp [Ctl.pruneOwed, hw]
  unfold Ctl.sweepOwed Ctl.requestOwed
  rw [hp]
  split
  · exact ⟨_, _, rfl⟩
  · exact ⟨_, _, rfl⟩

/-- durability after an update -/
theorem durable_update {c : Ctl} {k : Env} {seq : Word} {e : Entry} (g : Entry → Entry) (hg : ∀ e, (g e).id = e.id)
    (he : c.ownEntry k seq = some e) (ext : Nat) : (c.update k (ownId k seq) g).durable k seq ext =
    decide (k.copies ≤ (allStations.filter (fun i => decide (ext < (g e).depths.get i))).length) := by
  have hid : e.id = ownId k seq := Ctl.entry_id he
  unfold Ctl.durable Ctl.ownEntry
  rw [Ctl.entry_update hg, show c.entry (ownId k seq) = some e from he]
  simp only [Option.map_some, hid, if_true]
  rfl

theorem update_other {c : Ctl} {k : Env} {id : PageId} (g : Entry → Entry) (hg : ∀ e, (g e).id = e.id) (i : PageId)
    (hi : i ≠ id) : (c.update k id g).entry i = c.entry i := by
  rw [Ctl.entry_update hg]
  cases he : c.entry i with
  | none => rfl
  | some e => simp [Ctl.entry_id he, hi]

theorem update_self {c : Ctl} {k : Env} {id : PageId} {e : Entry} (g : Entry → Entry) (hg : ∀ e, (g e).id = e.id) (he :
    c.entry id = some e) : (c.update k id g).entry id = some { g e with under := c.underCopied k (g e) } := by
  rw [Ctl.entry_update hg, he]
  simp [Ctl.entry_id he, Ctl.flagged]

theorem durable_congr {c d : Ctl} (h : d.dir = c.dir) (k : Env) (seq : Word) (n : Nat) :
    d.durable k seq n = c.durable k seq n := by
  unfold Ctl.durable
  rw [Ctl.ownEntry_congr h]

theorem onRecord_eq (y : ETEntry) (t : Station) (f g : TargetRec → TargetRec) (h : ∀ r, f r = g r) :
    y.onRecord t f = y.onRecord t g := by
  rw [show f = g from funext h]

theorem raiseDepth_id (t : Station) (n : Nat) (e : Entry) : (e.raiseDepth t n).id = e.id := by
  unfold Entry.raiseDepth; split <;> rfl

theorem quiet_map {c : Ctl} {k : Env} {q : Word} {l : List ETEntry} {g : ETEntry → ETEntry} (hm : c.et = l.map g) (hg :
    ∀ y, (g y).seq = y.seq ∧ (g y).ext = y.ext ∧ (g y).settled = y.settled) (h : ∀ y ∈ l, y.settled = .none) (hd :
    ∀ y ∈ l, y.seq = q → c.durable k q y.ext = false) : c.testDurable k q = c.pruneOwed := by
  refine Ctl.testDurable_quiet ?_ ?_
  · rw [hm]
    intro y hy
    obtain ⟨z, hz, rfl⟩ := List.mem_map.1 hy
    rw [(hg z).2.2]
    exact h z hz
  · rw [hm]
    intro y hy hys
    obtain ⟨z, hz, rfl⟩ := List.mem_map.1 hy
    rw [(hg z).2.1]
    exact hd z hz ((hg z).1.symm.trans hys)

theorem markDone_seq (y : ETEntry) (q : Word) (n : Nat) (t : Station) (f : TargetRec → TargetRec) :
    (if y.seq = q ∧ y.ext < n then y.onRecord t f else y).seq = y.seq ∧
        (if y.seq = q ∧ y.ext < n then y.onRecord t f else y).ext = y.ext ∧
        (if y.seq = q ∧ y.ext < n then y.onRecord t f else y).settled = y.settled := by
  split <;> exact ⟨rfl, rfl, rfl⟩

/-- A target's records are DONE below an extent (R120). -/
theorem recordsDone_et {c : Ctl} {q : Word} {t : Station} {n : Nat} (hq : ∀ y ∈ c.et, y.seq = q →
    y.timer ≠ none ∨ y.firstSent = false) :
    (c.recordsDone q t n).et = c.et.map (fun y => if y.seq = q ∧
        y.ext < n then y.onRecord t (fun r => if r.state = .dropped then r else { r with state := .done }) else y) := by
  show List.map _ (List.map _ c.et) = _
  rw [List.map_map]
  refine List.map_congr_left (fun y hy => ?_)
  by_cases h1 : y.seq = q
  · have hq := hq y hy h1
    by_cases h2 : y.ext < n
    · simp only [Function.comp, h1, h2, if_true, and_self]
      rw [if_pos (show (y.onRecord t _).seq = q from h1), if_neg (by
        rcases hq with hq | hq
        · have : (y.timer.isNone) = false := by cases h : y.timer <;> simp_all
          simp [ETEntry.onRecord, this]
        · simp [ETEntry.onRecord, hq])]
      exact onRecord_eq _ _ _ _ (fun r => by cases r with | mk a b c => cases b <;> rfl)
    · simp only [Function.comp, h1, h2, if_true, and_false, if_false]
      rw [if_neg (by
        rcases hq with hq | hq
        · have : (y.timer.isNone) = false := by cases h : y.timer <;> simp_all
          simp [this]
        · simp [hq])]
  · simp [Function.comp, h1]

theorem ownAnswer_raise {c : Ctl} {k : Env} {t : Station} {a : AnswerBody} {v : Verdict} {e : Entry} (he :
    c.ownEntry k a.seq = some e) (hv' : v = .programmed ∨ v = .held) (hcp : a.isCopy = false) :
    c.ownAnswer k t a v false = if decide (a.addressee = byteOf k.me.val) then
        ((c.recordOwnDepth k a.seq (fun e => e.raiseDepth t (a.ext.toNat + 1))).recordsDone a.seq t
        (a.ext.toNat + 1)).testDurable k a.seq else c.recordOwnDepth k a.seq
        (fun e => e.raiseDepth t (a.ext.toNat + 1)) := by
  unfold Ctl.ownAnswer
  dsimp only
  rw [he]
  rcases hv' with rfl | rfl <;> (dsimp only; rw [hcp]; simp only [Bool.false_eq_true, if_false])

theorem narrow_rest (c : Ctl) (x : ETEntry) : ∃ tx, c.narrowSettled x = { c with tx := tx } := by
  unfold Ctl.narrowSettled
  split
  · exact ⟨_, rfl⟩
  · generalize stationsOf x.awaiting = l
    induction l generalizing c with
    | nil => exact ⟨_, rfl⟩
    | cons t l ih =>
      rw [List.foldl_cons]
      obtain ⟨tx, h⟩ := ih (c.onTx (fun q => q.narrow (fun s e => s == x.seq && e == x.ext) t))
      exact ⟨tx, by rw [h]; rfl⟩

theorem dropTargets_facts (c : Ctl) (k : Env) (q : Word) : (c.dropTargets k q).et = c.et ∧
    (c.dropTargets k q).frontier = c.frontier ∧ ((c.dropTargets k q).entry (ownId k q)).map (·.depths) =
    (c.entry (ownId k q)).map (·.depths) := by
  unfold Ctl.dropTargets
  split
  · split
    · refine ⟨by simp, by simp, ?_⟩
      rw [Ctl.entry_update (f := fun e => { e with targets := [], extra := none, excluded := 0 }) (fun _ => rfl)]
      cases h : c.entry (ownId k q) with
      | none => rfl
      | some e => simp [Ctl.entry_id h, Ctl.flagged]
    · exact ⟨rfl, rfl, rfl⟩
  · exact ⟨rfl, rfl, rfl⟩

/-- The one entry of the table becomes durable and leaves it (R125, R126). -/
theorem testDurable_leaves {c : Ctl} {k : Env} {q : Word} {x : ETEntry} (het : c.et = [x]) (hxs : x.seq = q) (hset :
    x.settled = .none) (hprog : x.prog ≠ .pending) (hd : c.durable k q x.ext = true) :
    (c.testDurable k q).et = [] ∧ (c.testDurable k q).frontier = .extent q x.ext ∧
        (c.testDurable k q).alerts.pending &&& 0x01#8 = 0x01#8 ∧
        ((c.testDurable k q).entry (ownId k q)).map (·.depths) = (c.entry (ownId k q)).map (·.depths) := by
  have hall : ∃ d : Ctl, c.testDurable k q = ((Ctl.hand { d with et := [], frontier := .extent q x.ext }
      .frontier).update k (ownId k q) id).dropTargets k q ∧ d.dir = c.dir := by
    have hre : (c.et.any (fun x => x.seq == q && decide (x.settled = .durable) && !c.durable k x.seq x.ext)) =
        false := by
      rw [het]; simp [hset]
    have hse : (c.onPageEntries q (c.settleEntry k)) = { c with et := [{ x with settled := .durable, timer := none }] } := by
      unfold Ctl.onPageEntries
      rw [het]
      simp only [List.map_cons, List.map_nil, hxs, if_true]
      unfold Ctl.settleEntry
      rw [hset, hxs, hd]
      rfl
    unfold Ctl.testDurable
    rw [hre, hse]
    dsimp only
    rw [show [({ x with settled := .durable, timer := none } : ETEntry)].filter (fun x => x.seq == q) =
        [{ x with settled := .durable, timer := none }] from by simp [hxs]]
    simp only [List.foldl_cons, List.foldl_nil, Bool.false_eq_true, if_false]
    obtain ⟨tx, htx⟩ := narrow_rest { c with et := [{ x with settled := .durable, timer := none }] }
        { x with settled := .durable, timer := none }
    rw [htx]
    generalize hd1 : Ctl.pruneOwed { c with et := [{ x with settled := .durable, timer := none }], tx := tx } = d
    have a1 : d.et = [{ x with settled := .durable, timer := none }] := by rw [← hd1]; rfl
    have a2 : d.dir = c.dir := by rw [← hd1]; rfl
    refine ⟨d, ?_, a2⟩
    unfold Ctl.judge
    rw [a1]
    show Ctl.judgeHeads d k 1 = _
    unfold Ctl.judgeHeads
    rw [a1]
    dsimp only
    rw [if_pos (by
      unfold Ctl.headLeaves
      dsimp only
      rw [durable_congr a2, hxs, hd]
      simp [hprog])]
    show Ctl.leaveTable d k _ [] = _
    unfold Ctl.leaveTable
    dsimp only
    rw [hxs, if_neg (by
      show ¬ Ctl.inTable _ q = true
      unfold Ctl.inTable
      simp [Ctl.hand])]
  obtain ⟨d, h, hdir⟩ := hall
  rw [h]
  generalize hc1 : (Ctl.hand { d with et := [], frontier := .extent q x.ext } .frontier) = c1
  have b1 : c1.et = [] := by rw [← hc1]; simp [Ctl.hand]
  have b2 : c1.frontier = .extent q x.ext := by rw [← hc1]; simp [Ctl.hand]
  have b3 : c1.dir = c.dir := by rw [← hc1, ← hdir]; simp [Ctl.hand]
  have b4 : c1.alerts.pending &&& 0x01#8 = 0x01#8 := by
    rw [← hc1]
    simp only [Ctl.hand_alerts, Cause.bit]
    generalize d.alerts.pending = p
    revert p
    decide
  obtain ⟨d1, d2, d3⟩ := dropTargets_facts (c1.update k (ownId k q) id) k q
  have hcalm : Calm false c1 ((c1.update k (ownId k q) id).dropTargets k q) :=
      Ctl.dropTargets_calm (Ctl.update_calm (Calm.refl _) _ _ _ (fun _ => rfl)) _ _
  refine ⟨d1.trans (by simpa using b1), d2.trans (by simpa using b2), ?_, d3.trans ?_⟩
  · have := hcalm.grows rfl
    generalize ((c1.update k (ownId k q) id).dropTargets k q).alerts.pending = y at this
    generalize c1.alerts.pending = z at this b4
    rw [BitVec.and_comm] at b4 ⊢
    exact byte_and_trans _ _ _ b4 this
  · rw [Ctl.entry_update (f := id) (fun _ => rfl), Ctl.entry_congr b3]
    cases h : c.entry (ownId k q) with
    | none => rfl
    | some e => simp [Ctl.entry_id h, Ctl.flagged]

theorem recordsDone_empty {c : Ctl} (h : c.et = []) (k : Env) (q : Word) (t : Station) (n : Nat) :
    ((c.recordsDone q t n).testDurable k q).et = [] ∧ ((c.recordsDone q t n).testDurable k q).frontier = c.frontier ∧
    ((c.recordsDone q t n).testDurable k q).alerts = c.alerts ∧
    ((c.recordsDone q t n).testDurable k q).dir = c.dir := by
  have h1 : (c.recordsDone q t n).et = [] := by
    show List.map _ (List.map _ c.et) = []
    rw [h]; rfl
  have hq : (c.recordsDone q t n).testDurable k q = (c.recordsDone q t n).pruneOwed :=
      Ctl.testDurable_quiet (by rw [h1]; simp) (by rw [h1]; simp)
  rw [hq]
  refine ⟨h1, ?_, ?_, ?_⟩ <;> simp only [Ctl.pruneOwed, Ctl.recordsDone, Ctl.resumeTimers, Ctl.onPageEntries, Ctl.onTx]

/-- A PROGRAMMED or HELD answer that makes the one extent of the table durable. -/
theorem ownAnswer_empties {c : Ctl} {k : Env} {t : Station} {a : AnswerBody} {v : Verdict} {e : Entry} {x : ETEntry}
    (he : c.ownEntry k a.seq = some e) (hv' : v = .programmed ∨ v = .held) (hcp : a.isCopy = false) (het : c.et = [x])
    (hxs : x.seq = a.seq) (hset : x.settled = .none) (hprog : x.prog ≠ .pending)
    (hdur : k.copies ≤ (allStations.filter (fun i => decide (x.ext <
        (e.raiseDepth t (a.ext.toNat + 1)).depths.get i))).length) :
    ((c.ownAnswer k t a v false).sweepAll k).et = [] ∧ ((c.ownAnswer k t a v false).sweepAll k).frontier =
        .extent a.seq x.ext ∧ ((c.ownAnswer k t a v false).sweepAll k).alerts.pending &&& 0x01#8 = 0x01#8 ∧
        (((c.ownAnswer k t a v false).sweepAll k).entry (ownId k a.seq)).map (·.depths) =
        some (e.raiseDepth t (a.ext.toNat + 1)).depths := by
  rw [ownAnswer_raise (t := t) he hv' hcp]
  generalize hc1 : c.update k (ownId k a.seq) (fun e => e.raiseDepth t (a.ext.toNat + 1)) = c1
  have hd : c1.durable k a.seq x.ext = true := by
    rw [← hc1, durable_update _ (raiseDepth_id t _) he]
    exact decide_eq_true hdur
  have hself : (c1.entry (ownId k a.seq)).map (·.depths) = some (e.raiseDepth t (a.ext.toNat + 1)).depths := by
    rw [← hc1, update_self _ (raiseDepth_id t _) he]
    rfl
  obtain ⟨f1, f2, f3, f4⟩ := testDurable_leaves (c := c1) (by rw [← hc1]; simpa using het) hxs hset hprog hd
  have hr : c.recordOwnDepth k a.seq (fun e => e.raiseDepth t (a.ext.toNat + 1)) = c1.testDurable k a.seq := by
    unfold Ctl.recordOwnDepth; rw [hc1]
  rw [hr]
  generalize c1.testDurable k a.seq = c2 at f1 f2 f3 f4
  have swept (d : Ctl) (h1 : d.et = []) (h2 : d.frontier = .extent a.seq x.ext) (h3 : d.alerts.pending &&& 0x01#8 = 0x01#8)
      (h4 : (d.entry (ownId k a.seq)).map (·.depths) = some (e.raiseDepth t (a.ext.toNat + 1)).depths) :
      (d.sweepAll k).et = [] ∧ (d.sweepAll k).frontier = .extent a.seq x.ext ∧
        (d.sweepAll k).alerts.pending &&& 0x01#8 = 0x01#8 ∧
        ((d.sweepAll k).entry (ownId k a.seq)).map (·.depths) =
          some (e.raiseDepth t (a.ext.toNat + 1)).depths := by
    obtain ⟨o, r, hd⟩ := Ctl.sweepOwed_noEntry h1 k
    unfold Ctl.sweepAll
    rw [Ctl.sweep_et, Ctl.sweep_frontier, Ctl.sweep_alerts, Ctl.entry_congr (Ctl.sweep_dir _ _), hd]
    exact ⟨h1, h2, h3, h4⟩
  split
  · obtain ⟨g1, g2, g3, g4⟩ := recordsDone_empty f1 k a.seq t (a.ext.toNat + 1)
    exact swept _ g1 (g2.trans f2) (by rw [g3]; exact f3) (by rw [Ctl.entry_congr g4, f4]; exact hself)
  · exact swept _ f1 f2 f3 (by rw [f4]; exact hself)

theorem setDepth_id (t : Station) (n : Nat) (e : Entry) : (e.setDepth t n).id = e.id := rfl

theorem range_filter (n : Nat) : (List.range (n + 1)).filter (fun i => decide (n ≤ i)) = [n] := by
  rw [List.range_succ, List.filter_append]
  have : (List.range n).filter (fun i => decide (n ≤ i)) = [] := by
    rw [List.filter_eq_nil_iff]
    intro i hi
    simp at hi
    simp; omega
  rw [this]
  simp

theorem withStation_ne (t : Station) : withStation 0 t ≠ 0 := by revert t; decide

theorem withStation_self (t : Station) : has (withStation 0#8 t) t = true := by revert t; decide

theorem withStation_other (t u : Station) : u ≠ t → has (withStation 0#8 t) u = false := by revert t u; decide

/-- A GAP for the extent that the record awaits: it is sent again (R121). -/
theorem ownAnswer_gap {c : Ctl} {k : Env} {t : Station} {q : Word} {n : Nat} {x : ETEntry} {r : TargetRec} {b : Fin 2}
    {p : FillPage} {i : ExtentInfo}
    (hx : c.etEntry q n = some x) (hrec : x.record t = some r) (hst : r.state = .awaiting ∨ r.state = .done) (hatt :
        r.attempts < 4)
    (hfill : c.fillOf q = some (b, p)) (hi : p.extents.find? (fun y => y.number == n) = some i) (hw :
        c.tx.waitingExtent q n = false)
    (hheld : ∀ q ∈ c.tx.held, q.isAnyExtent = false) :
    ∃ et, c.fillGap k q t n n = { c with tx := c.tx.request (.extent q i (withStation 0 t) (.fill b)), et := et } ∧
      et = c.et.map (fun y =>
        if y.seq = q ∧ y.ext = n then
          { y.onRecord t (fun r =>
              if r.state = .awaiting ∨ r.state = .done then { r with state := .awaiting, attempts := r.attempts + 1 } else r) with
            timer := none }
        else y) := by
  have hnum : i.number = n := by
    have := List.find?_some hi
    simpa using this
  have hmask : withStation 0 t ≠ 0 := withStation_ne t
  refine ⟨_, ?_, rfl⟩
  have hr : c.recordOf q t n = some r := by
    unfold Ctl.recordOf
    rw [hx]
    exact hrec
  have hs : r.resends = true := by
    unfold TargetRec.resends
    rcases hst with h | h <;> simp [h]
  unfold Ctl.fillGap
  rw [range_filter]
  simp only [hr, hs, List.all_cons, List.all_nil, decide_true, Bool.true_or, Bool.and_true, if_true, List.filter_cons,
      List.filter_nil, Option.any_some, List.any_cons, List.any_nil, Bool.or_false, List.foldl_cons, List.foldl_nil]
  rw [if_neg (by simp; omega)]
  unfold Ctl.transmit
  rw [if_neg hmask, show Ctl.fillOf (c.onPageEntries q _) q = some (b, p) from hfill]
  dsimp only
  rw [hi]
  dsimp only
  unfold Ctl.sendExtent
  rw [hnum, show (c.onPageEntries q _).tx = c.tx from rfl, hw]
  simp only [Bool.false_eq_true, if_false]
  rw [if_neg (by rw [Bool.not_eq_true, List.any_eq_false]; intro f hf; simp [hheld f hf])]
  unfold Ctl.countAttempts Ctl.onPageEntries Ctl.onTx
  dsimp only
  rw [List.map_map]
  congr 1
  refine List.map_congr_left (fun y _ => ?_)
  by_cases h1 : y.seq = q
  · by_cases h2 : y.ext = n
    · subst h2
      simp only [Function.comp, h1, if_true, le_refl, and_self]
      rw [if_pos (show (y.onRecord t _).seq = q from h1), if_pos (show (y.onRecord t _).ext = y.ext from rfl)]
      unfold ETEntry.onRecords ETEntry.onRecord
      dsimp only
      rw [List.map_map]
      congr 1
      refine List.map_congr_left (fun z _ => ?_)
      simp only [Function.comp]
      cases hz : z.target with
      | none => cases z; simp_all
      | some r =>
        dsimp only
        by_cases h3 : r.station = t
        · subst h3
          unfold TargetRec.resends
          by_cases h4 : r.state = .awaiting ∨ r.state = .done
          · simp [withStation_self, h4]
          · have h5 : ¬ r.state = .awaiting := fun h => h4 (Or.inl h)
            have h6 : ¬ r.state = .done := fun h => h4 (Or.inr h)
            simp [h5, h6]
        · have hh := withStation_other t r.station h3
          cases z
          simp_all
    · have : ¬ (n ≤ y.ext ∧ y.ext ≤ n) := by omega
      simp [Function.comp, h1, h2, this]
  · simp [Function.comp, h1]

end Sys2Proof.Machine
end

