-- ==== Sys2Proof/Laws/DataFrames.lean ====
section
/-!
SUPPORT. Laws of data frames, from their arrival to what becomes of them.
-/

namespace Sys2Proof.Machine

/-- The controller with a frame kept in a buffer. -/
def keptIn (c : Ctl) (u : Fin 4) (b : RxBuf) : Ctl := { c with rx := vput c.rx u b, rxNext := c.rxNext + 1 }

/-- A data frame that arrives is kept in its buffer and judged. -/
theorem exec_dataArrives {s : State} {i : Instr} {t : Station} {x : DataFrame} {id : PageId} {u : Fin 4} (h :
    s.dataArrives i t x id u) :
    exec i s = .next { s with ctl := (keptIn s.ctl u (.held (x.inBuffer t s.ctl.rxNext .judging))).judgeFrame s.env u }
        ∧ x.id t = some id ∧ (x.isCopy = false → id.origin = t) := by
  obtain ⟨hr, ht, hst, hcl, huniq, f, hf⟩ := h
  have hfind : s.ctl.rxFind RxBuf.isClaimed = some u := rxFind_some (by rw [hcl]; rfl) (fun v hv => by
    rw [Bool.eq_false_iff]
    intro hc
    have := huniq v ((isClaimed_iff _).1 hc)
    rw [this] at hv
    exact absurd hv (lt_irrefl _))
  have h1 : s.ctl.station.takesPresence = true ∧ s.ctl.station.takesData = true := by
    rcases hst with h | h <;> rw [h] <;> exact ⟨rfl, rfl⟩
  rcases hf with ⟨b, rfl, hrec, hm, rfl, rfl⟩ | ⟨b, rfl, hrec, hm, rfl, hio, his⟩
  · refine ⟨?_, rfl, fun _ => rfl⟩
    refine (next_onCtl s _ hr).trans ?_
    unfold Ctl.hearExtent
    rw [hrec]
    dsimp only
    unfold Ctl.dispatch
    rw [if_neg (by simp [h1.1]), if_neg ht, if_pos h1.2]
    unfold Ctl.keepData
    dsimp only
    rw [hfind]
    dsimp only
    rw [if_pos hm]
    rfl
  · have hso : stationOf b.origin = some id.origin := by
      unfold stationOf
      rw [dif_pos (by omega)]
      congr 1
      exact Fin.ext hio.symm
    refine ⟨?_, ?_, (nomatch ·)⟩
    · refine (next_onCtl s _ hr).trans ?_
      unfold Ctl.hearCopy
      rw [hrec]
      dsimp only
      unfold Ctl.dispatch
      rw [if_neg (by simp [h1.1]), if_neg ht, if_pos h1.2]
      unfold Ctl.keepData
      dsimp only
      rw [hfind]
      dsimp only
      rw [if_pos (by simp [hm])]
      rfl
    · show (stationOf b.origin).map _ = _
      rw [hso, ← his]
      rfl

theorem chained_iff (at_ : Nat) (l : List DescBody) : chained at_ l = true ↔ (∀ d r, l = d :: r → d.first.toNat = at_) ∧
    ∀ p d d' q, l = p ++ d :: d' :: q → d'.first.toNat = d.first.toNat + d.count.toNat := by
  induction l generalizing at_ with
  | nil =>
    simp only [chained, true_iff]
    refine ⟨fun d r h => (by cases h), fun p d d' q h => ?_⟩
    simp at h
  | cons x l ih =>
    simp only [chained, Bool.and_eq_true, decide_eq_true_eq, ih]
    constructor
    · rintro ⟨h1, h2, h3⟩
      refine ⟨fun d r h => (by cases h; exact h1), fun p d d' q h => ?_⟩
      cases p with
      | nil =>
        simp only [List.nil_append, List.cons.injEq] at h
        obtain ⟨rfl, rfl⟩ := h
        have := h2 d' q rfl
        omega
      | cons y p =>
        simp only [List.cons_append, List.cons.injEq] at h
        exact h3 p d d' q h.2
    · rintro ⟨h1, h2⟩
      have hx := h1 x l rfl
      refine ⟨hx, fun d r h => ?_, fun p d d' q h => h2 (x :: p) d d' q (by rw [h]; rfl)⟩
      have := h2 [] x d r (by rw [h]; rfl)
      omega

/-- The third check of R128, as the specification of ill-formed frames has it. -/
theorem wellFormed_iff (x : DataFrame) : x.wellFormed = true ↔ ¬ x.illFormed := by
  cases x with
  | extent b =>
    have : b.info.last = b.first.toNat + b.count.toNat := rfl
    simp only [DataFrame.wellFormed, DataFrame.illFormed, Bool.and_eq_true, decide_eq_true_eq, this]
    omega
  | copy b =>
    simp only [DataFrame.wellFormed, DataFrame.illFormed, Bool.and_eq_true, decide_eq_true_eq, chained_iff, not_or]
    constructor
    · rintro ⟨⟨h1, h2, h3⟩, h4⟩
      refine ⟨not_not.2 h1, ?_, ?_⟩
      · rintro ⟨d, l, hl, hd⟩
        have := h2 d l hl
        exact hd (BitVec.eq_of_toNat_eq (by simpa using this))
      · rintro ⟨l, d, d', l', hl, hd⟩
        rcases hd with hd | hd
        · exact hd (h3 l d d' l' hl)
        · simp only [Bool.not_eq_true', List.any_eq_false] at h4
          have : d ∈ b.descs.dropLast := by
            rw [hl, List.dropLast_append_of_ne_nil (by simp)]
            simp
          exact h4 d this hd
    · rintro ⟨h1, h2, h3⟩
      refine ⟨⟨not_not.1 h1, fun d r h => ?_, fun p d d' q h => ?_⟩, ?_⟩
      · by_contra hc
        exact h2 ⟨d, r, h, fun h0 => hc (by rw [h0]; rfl)⟩
      · by_contra hc
        exact h3 ⟨p, d, d', q, h, Or.inl hc⟩
      · simp only [Bool.not_eq_true', List.any_eq_false]
        intro d hd hc
        have hne : b.descs ≠ [] := by intro h; rw [h] at hd; simp at hd
        obtain ⟨p, q, hpq⟩ := List.append_of_mem hd
        have hl : b.descs = p ++ d :: (q ++ [b.descs.getLast hne]) := by
          conv_lhs => rw [← List.dropLast_append_getLast hne]
          rw [hpq]
          simp
        cases hq : q ++ [b.descs.getLast hne] with
        | nil => simp at hq
        | cons d' l' => exact h3 ⟨p, d, d', l', by rw [hl, hq], Or.inr hc⟩

theorem released_iff (c : Ctl) (k : Env) (id : PageId) : c.released k id = true ↔
    id.seq ≤ (if id.origin = k.me then c.ownMark else (c.peers.get id.origin).mark) := by
  unfold Ctl.released Ctl.knownMark
  rw [decide_eq_true_eq]

/-- The checks of R128 together. -/
theorem discards_iff {c : Ctl} {k : Env} {x : DataFrame} {id : PageId} : c.discards k x id ↔
    (c.released k id || (decide (id.origin = k.me) && (c.entry id).isNone && c.aboveNext id.seq) || !x.wellFormed) =
    true := by
  have hab : c.aboveNext id.seq = true ↔ ∃ n, c.nextSeq = some n ∧ n ≤ id.seq := by
    unfold Ctl.aboveNext
    cases c.nextSeq <;> simp
  have hwf : (!x.wellFormed) = true ↔ x.illFormed := by
    rw [Bool.not_eq_true', ← Bool.not_eq_true, wellFormed_iff, not_not]
  rw [Bool.or_eq_true, Bool.or_eq_true, Bool.and_eq_true, Bool.and_eq_true, released_iff, hab, hwf]
  unfold Ctl.discards
  simp only [decide_eq_true_eq, Option.isNone_iff_eq_none, or_assoc, and_assoc]

theorem keptIn_rxHeld (c : Ctl) (u : Fin 4) (h : RxHeld) : (keptIn c u (.held h)).rxHeld u = some h := by
  apply Ctl.rxHeld_of
  show (vput c.rx u _).get u = _
  simp [vput_get]

/-- The judgement of a kept frame, step by step (R128 to R133). -/
theorem judge_kept {c : Ctl} {k : Env} {u : Fin 4} {h : RxHeld} {id : PageId} (hid : h.frame.id h.src = some id) (hst :
    c.station = .active ∨ c.station = .frozen) :
    (keptIn c u (.held h)).judgeFrame k u =
      if (c.released k id || (decide (id.origin = k.me) && (c.entry id).isNone && c.aboveNext id.seq) ||
          !h.frame.wellFormed) = true then keptIn c u .free
      else match c.entry id with
        | none => (keptIn c u (.held h)).judgeUnknown k u h id
        | some e => match e.pendingExt with
          | some p => (keptIn c u (.held h)).judgePending k u h e p
          | none => (keptIn c u (.held h)).judgeEntry k u h e := by
  unfold Ctl.judgeFrame
  rw [keptIn_rxHeld]
  dsimp only
  rw [hid]
  dsimp only
  have hs : decide ((keptIn c u (.held h)).station = .leaving) = false := by
    show decide (c.station = .leaving) = false
    rcases hst with h | h <;> rw [h] <;> rfl
  have hfree : (keptIn c u (.held h)).setRx u .free = keptIn c u .free := by
    unfold Ctl.setRx keptIn
    simp only [vput_vput]
  rw [hs, Bool.false_or, hfree]
  rfl

theorem heard_fold (k : Env) (v : Half) : ∀ (l : List Station), l.Nodup → ∀ e : Entry,
    l.foldl (fun e s => if s = k.me then e else e.raiseDepth s (depthIn v s)) e =
      { e with
        depths := Vector.ofFn (fun i : Fin 8 => if i ∈ l ∧ i ≠ k.me then max (e.depths.get i)
            (depthIn v i) else e.depths.get i),
        known := l.foldl (fun m i => if i ≠ k.me ∧ e.depths.get i < depthIn v i then max m
            (depthIn v i) else m) e.known } := by
  intro l
  induction l with
  | nil =>
    intro _ e
    simp only [List.foldl_nil, List.not_mem_nil, false_and, if_false]
    have : Vector.ofFn (fun i : Fin 8 => e.depths.get i) = e.depths := by
      ext j hj
      simp [Vector.get]
    rw [this]
  | cons a l ih =>
    intro hn e
    rw [List.nodup_cons] at hn
    rw [List.foldl_cons, List.foldl_cons]
    by_cases ha : a = k.me
    · rw [if_pos ha, ih hn.2 e, if_neg (by simp [ha])]
      congr 1
      ext j hj
      simp only [Vector.getElem_ofFn, List.mem_cons]
      by_cases hj : (⟨j, hj⟩ : Fin 8) = k.me
      · simp [hj]
      · have : (⟨j, by assumption⟩ : Fin 8) ≠ a := by rw [ha]; exact hj
        simp [hj, this]
    · rw [if_neg ha, ih hn.2]
      have hlt : depthIn v a < 4 := Nat.mod_lt _ (by decide)
      unfold Entry.raiseDepth Entry.depth
      by_cases hd : e.depths.get a < depthIn v a
      · rw [if_pos hd, if_pos ⟨ha, hd⟩]
        have hm : min (depthIn v a) 3 = depthIn v a := by omega
        unfold Entry.setDepth
        simp only [hm]
        congr 1
        · refine foldl_congr_mem l ?_ _
          intro i hi m
          have : i ≠ a := fun h => hn.1 (h ▸ hi)
          simp [vput_get, this]
        · ext j hj
          simp only [Vector.getElem_ofFn, List.mem_cons, vput_get]
          by_cases h1 : (⟨j, hj⟩ : Fin 8) = a
          · simp only [h1, hn.1, false_and, if_false, true_or, ha, ne_eq, not_false_eq_true, and_self, if_true]
            omega
          · simp [h1]
      · rw [if_neg hd, if_neg (by simp [hd])]
        congr 1
        ext j hj
        simp only [Vector.getElem_ofFn, List.mem_cons]
        by_cases h1 : (⟨j, hj⟩ : Fin 8) = a
        · simp only [h1, hn.1, false_and, if_false, true_or, ha, ne_eq, not_false_eq_true, and_self, if_true]
          omega
        · simp [h1]
where
  foldl_congr_mem {α β : Type} {f g : β → α → β} (l : List α) (h : ∀ a ∈ l, ∀ b, f b a = g b a) (b : β) :
      l.foldl f b = l.foldl g b := by
    induction l generalizing b with
    | nil => rfl
    | cons a l ih =>
      rw [List.foldl_cons, List.foldl_cons, h a (by simp), ih (fun x hx => h x (by simp [hx]))]

/-- An entry with a frame's depth vector recorded (R134). -/
theorem raiseAll_heard (e : Entry) (k : Env) (x : DataFrame) : e.raiseAll k x.depths = e.heard k x := by
  unfold Entry.raiseAll Entry.heard
  rw [heard_fold k x.depths allStations (by decide) e]
  congr 1
  ext j hj
  simp only [Vector.getElem_ofFn]
  have : (⟨j, hj⟩ : Fin 8) ∈ allStations := by
    have : ∀ i : Fin 8, i ∈ allStations := by decide
    exact this _
  by_cases h : (⟨j, hj⟩ : Fin 8) = k.me <;> simp [this, h]

theorem heard_id (e : Entry) (k : Env) (x : DataFrame) : (e.raiseAll k x.depths).id =
    e.id := by rw [raiseAll_heard]; rfl

/-- an update and nothing else -/
theorem update_one {c : Ctl} {k : Env} {id : PageId} {e : Entry} (he : c.entry id = some e) (f : Entry → Entry) (hf :
    ∀ e, (f e).id = e.id) :
    ∃ d al rp rc, c.update k id f = { c with dir := d, alerts := al, repair := rp, recheck := rc } ∧
        al.enabled = c.alerts.enabled ∧
      d.find? (fun y => y.id == id) = some { f e with under := c.underCopied k (f e) } ∧ ∀ j, j ≠ id →
          d.find? (fun y => y.id == j) = c.entry j := by
  obtain ⟨d, rp, rc, al, h⟩ := Ctl.withDir_shape c (c.dir.map (fun e => if e.id = id then c.flagged k (f e) else e))
  have hu : c.update k id f = { c with dir := d, alerts := al, repair := rp, recheck := rc } := h
  have hst := (Ctl.update_calm (w := false) (Calm.refl c) k id f hf).still rfl
  refine ⟨d, al, rp, rc, hu, ?_, ?_, fun j hj => ?_⟩
  · rw [hu] at hst
    exact (Ctl.still_eq hst).2.2.2.2.2.2.2.2.2.2.2.2.2.2
  · have := Ctl.entry_update (c := c) (k := k) (id := id) hf id
    rw [hu, he] at this
    refine (show _ = _ from this).trans ?_
    simp [Ctl.entry_id he, Ctl.flagged]
  · have := Ctl.entry_update (c := c) (k := k) (id := id) hf j
    rw [hu] at this
    refine (show _ = _ from this).trans ?_
    cases h : c.entry j with
    | none => rfl
    | some y => simp [Ctl.entry_id h, hj]

/-- The ANSWER to a kept frame (Table 11-9). -/
def theAnswer (h : RxHeld) (id : PageId) (v : Verdict) (aux : Nat) : AnswerBody :=
  { addressee := byteOf h.src.val, origin := byteOf id.origin.val, seq := id.seq,
    ext := byteOf h.frame.number, flags := bitOf h.frame.isCopy 0, verdict := v.code, aux := byteOf aux }

theorem judge_answered {c : Ctl} {k : Env} {u : Fin 4} {h : RxHeld} {id : PageId} {e : Entry} (he : c.entry id = some e)
    (hom : id.origin ≠ k.me) (f : Entry → Entry) (hf : ∀ e, (f e).id = e.id) (v : Verdict) (aux : Nat) :
    ∃ d al rp rc, ((keptIn c u (.held h)).recordFrom k id f).answerAndFree u h id v aux =
        { keptIn c u .free with
          tx := c.tx.answer (theAnswer h id v aux), dir := d, alerts := al, repair := rp, recheck := rc } ∧
      al.enabled = c.alerts.enabled ∧ d.find? (fun y => y.id == id) = some { f e with under := c.underCopied k (f e) } ∧
      (∀ j, j ≠ id → d.find? (fun y => y.id == j) = c.entry j) := by
  obtain ⟨d, al, rp, rc, hu, h1, h2, h3⟩ := update_one (c := keptIn c u (.held h)) (k := k) (id := id) (e := e) he f hf
  refine ⟨d, al, rp, rc, ?_, h1, h2, h3⟩
  unfold Ctl.recordFrom
  dsimp only
  rw [if_neg hom, hu]
  unfold Ctl.answerAndFree Ctl.intakeAnswer Ctl.answer Ctl.onTx Ctl.setRx keptIn
  dsimp only
  rw [vput_vput]
  rfl

theorem judge_free (c : Ctl) (u : Fin 4) (b : RxBuf) : (keptIn c u b).setRx u .free = keptIn c u .free := by
  unfold Ctl.setRx keptIn
  simp only [vput_vput]

theorem answerAndFree_kept (c : Ctl) (u : Fin 4) (h : RxHeld) (id : PageId) (v : Verdict) (aux : Nat) :
    (keptIn c u (.held h)).answerAndFree u h id v aux = { keptIn c u .free with tx := c.tx.answer (theAnswer h id v aux) } := by
  unfold Ctl.answerAndFree Ctl.intakeAnswer Ctl.answer Ctl.onTx Ctl.setRx keptIn
  dsimp only
  rw [vput_vput]
  rfl

theorem judge_full (c : Ctl) (k : Env) (u : Fin 4) (h : RxHeld) (id : PageId) (he : c.entry id = none)
    (hr : 65536 ≤ c.dir.length ∨ (c.openBlock (if id.origin = k.me then .own else .replica) = none ∧
        c.pool.length < 3)) :
    (keptIn c u (.held h)).takeFirst k u h id = { keptIn c u .free with tx := c.tx.answer (theAnswer h id .full 0) } := by
  unfold Ctl.takeFirst
  dsimp only
  rw [show (keptIn c u (.held h)).entry id = none from he]
  simp only [Option.isSome_none, Bool.false_or]
  rcases hr with hr | ⟨hr, hp⟩
  · rw [if_neg (show ¬ (keptIn c u (.held h)).dirRoom = true from by
      show ¬ decide (c.dir.length < 65536) = true
      simp; omega)]
    exact answerAndFree_kept _ _ _ _ _ _
  · have : (keptIn c u (.held h)).allocate (if id.origin = k.me then Role.own else Role.replica) false = none :=
        Ctl.allocate_none (c := keptIn c u (.held h)) hr hp
    rw [this]
    simp only [ite_self]
    exact answerAndFree_kept _ _ _ _ _ _

theorem judge_held {c : Ctl} {k : Env} {u : Fin 4} {h : RxHeld} {id : PageId} {e : Entry} (he : c.entry id = some e)
    (hom : id.origin ≠ k.me) (hrole : e.role = .replica) :
    ∃ d al rp rc, (keptIn c u (.held h)).answerHeld k u h e =
        { keptIn c u .free with tx := c.tx.answer (theAnswer h id .held 0), dir := d, alerts := al, repair := rp, recheck := rc } ∧
      al.enabled = c.alerts.enabled ∧ d.find? (fun y => y.id == id) =
          some { e.heard k h.frame with closed := e.closed || (h.frame.closedFlag && decide (h.frame.number = e.ownDepth k)), under := c.underCopied k { e.heard k h.frame with closed := e.closed || (h.frame.closedFlag && decide (h.frame.number = e.ownDepth k)) } } ∧
      (∀ j, j ≠ id → d.find? (fun y => y.id == j) = c.entry j) := by
  have hid := Ctl.entry_id he
  obtain ⟨d, al, rp, rc, h1, h2, h3, h4⟩ := judge_answered (u := u)
      (h := h) he hom (fun x => { x.raiseAll k h.frame.depths with closed := (x.raiseAll k h.frame.depths).closed || (h.frame.closedFlag && decide (h.frame.number = e.ownDepth k) && decide (e.role = .replica)) }) (fun x => heard_id x k h.frame) .held 0
  refine ⟨d, al, rp, rc, ?_, h2, ?_, h4⟩
  · rw [← h1]
    unfold Ctl.answerHeld
    dsimp only
    rw [hid]
  · rw [h3, raiseAll_heard]
    rw [hrole]
    simp only [decide_true, Bool.and_true]
    rfl

theorem has_without (m : Byte) (i j : Station) : has (withoutStation m i) j = (decide (j ≠ i) && has m j) := by
  unfold has withoutStation
  simp only [BitVec.getLsbD_and, BitVec.getLsbD_not, BitVec.getLsbD_shiftLeft, ne_eq, Fin.ext_iff]
  have hj : j.val < 8 := j.isLt
  by_cases h : j.val = i.val
  · simp [h, i.isLt]
  · rcases Nat.lt_or_gt_of_ne h with h1 | h1
    · simp [h, h1, hj]
    · have : j.val - i.val ≠ 0 := by omega
      simp [h, this, hj]

theorem has_or (a b : Byte) (j : Station) : has (a ||| b) j = (has a j || has b j) := by
  unfold has; simp

theorem mem_all (j : Station) : j ∈ allStations := by revert j; decide

/-- The holder set of a descriptor, station by station (R135). -/
theorem holderSet_spec (x : DataFrame) (k : Env) (o : Station) (n : Nat) (j : Station) :
    (x.holderSet k o n).getLsbD j.val = (decide (j ≠ k.me) && (decide (j =
        o) || decide (n < depthIn x.depths j) || has (match x with
      | .extent b => b.mask
      | .copy _ => 0) j)) := by
  show has (x.holderSet k o n) j = _
  unfold DataFrame.holderSet
  rw [has_without, has_or, has_or, has_withStation, has_maskOf]
  congr 1
  congr 1
  · congr 1
    · simp [has]
    · simp [mem_all]

theorem rxPhase_at (c : Ctl) (u : Fin 4) (h : RxHeld) (p : RxPhase) (hc : c.rx.get u = .held h) :
    c.rxPhase u p = { c with rx := vput c.rx u (.held { h with phase := p }) } := by
  unfold Ctl.rxPhase
  rw [hc]
  rfl

theorem find_putEntry (x : Entry) (l : List Entry) (j : PageId) (hx : ∀ e ∈ l, e.id ≠ x.id) :
    (putEntry x l).find? (fun y => y.id == j) = if j = x.id then some x else l.find? (fun y => y.id == j) := by
  induction l with
  | nil =>
    by_cases h : j = x.id
    · simp [putEntry, h]
    · have : ¬ x.id = j := fun h2 => h h2.symm
      simp [putEntry, h, this]
  | cons y ys ih =>
    unfold putEntry
    have hy := hx y (by simp)
    have ih := ih (fun e he => hx e (by simp [he]))
    by_cases h : j = x.id
    · subst h
      rw [if_pos rfl] at ih ⊢
      split
      · simp
      · rw [List.find?_cons_of_neg (by simpa using hy), ih]
    · have h2 : ¬ x.id = j := fun h3 => h h3.symm
      rw [if_neg h] at ih ⊢
      split
      · rw [List.find?_cons_of_neg (by simpa using h2)]
      · by_cases h3 : y.id = j
        · rw [List.find?_cons_of_pos (by simpa using h3), List.find?_cons_of_pos (by simpa using h3)]
        · rw [List.find?_cons_of_neg (by simpa using h3), List.find?_cons_of_neg (by simpa using h3), ih]

/-- An entry created in a directory that has room. -/
theorem create_one {c : Ctl} {k : Env} {e : Entry} (he : c.entry e.id = none) (hl : c.dir.length < 65536) :
    ∃ d al rp rc, c.create k e = { c with dir := d, alerts := al, repair := rp, recheck := rc } ∧
        al.enabled = c.alerts.enabled ∧
      d.find? (fun y => y.id == e.id) = some { e with under := c.underCopied k e } ∧ ∀ j, j ≠ e.id →
          d.find? (fun y => y.id == j) = c.entry j := by
  have hno : ∀ y ∈ c.dir, y.id ≠ e.id := by
    intro y hy h
    unfold Ctl.entry at he
    rw [List.find?_eq_none] at he
    exact he y hy (by simpa using h)
  have hcr : c.create k e = c.withDir (putEntry (c.flagged k e) c.dir) := by
    unfold Ctl.create
    rw [if_neg]
    rw [he]
    simp; omega
  obtain ⟨d, rp, rc, al, h⟩ := Ctl.withDir_shape c (putEntry (c.flagged k e) c.dir)
  have hd : d = putEntry (c.flagged k e) c.dir := by
    have := congrArg Ctl.dir h
    rw [Ctl.withDir_dir] at this
    exact this.symm
  have hal : al.enabled = c.alerts.enabled := by
    have h2 : (c.withDir (putEntry (c.flagged k e) c.dir)).alerts.enabled = c.alerts.enabled := by
      unfold Ctl.withDir Ctl.requestRecheck Ctl.hand
      dsimp only
      repeat' split
      all_goals rfl
    rw [h] at h2
    exact h2
  refine ⟨d, al, rp, rc, by rw [hcr, h], hal, ?_, fun j hj => ?_⟩
  · rw [hd, find_putEntry _ _ _ (by simpa [Ctl.flagged] using hno)]
    exact if_pos rfl
  · rw [hd, find_putEntry _ _ _ (by simpa [Ctl.flagged] using hno), if_neg (by simpa [Ctl.flagged] using hj)]
    rfl

theorem descriptor_eq (h : RxHeld) (k : Env) (id : PageId) (y : ExtentInfo) :
    h.descriptor k id y = (y.number, descriptorBytes y (h.frame.holderSet k id.origin y.number)
    (crc (Memory.readRun 0x00#8 h.image (y.first * 512) (y.count * 512)))) := rfl

end Sys2Proof.Machine
end

