-- ==== Sys2Proof/Laws/Repairs.lean ====
section
/-!
SUPPORT. Laws of held requests, job slots, walks and the choices of stations.
-/

namespace Sys2Proof.Machine

theorem freeSlot_none {c : Ctl} : c.freeSlot = none ↔ ∀ v, c.jobs.get v ≠ none := by
  unfold Ctl.freeSlot
  constructor
  · intro h v hv
    have : v = 0 ∨ v = 1 := by omega
    rcases this with rfl | rfl
    · simp [hv] at h
    · split at h
      · cases h
      · simp [hv] at h
  · intro h
    have h0 := h 0
    have h1 := h 1
    rw [if_neg (by simpa using h0), if_neg (by simpa using h1)]

theorem freeSlot_some {c : Ctl} {v : Fin 2} (h : c.jobs.get v = none) (hl : ∀ v', v' < v → c.jobs.get v' ≠ none) :
    c.freeSlot = some v := by
  unfold Ctl.freeSlot
  have : v = 0 ∨ v = 1 := by omega
  rcases this with rfl | rfl
  · rw [if_pos (by simp [h])]
  · rw [if_neg (by simpa using hl 0 (by decide)), if_pos (by simp [h])]

theorem find_holdings {l l' : List TxBody} {b : TxBody} (h : ∀ y ∈ l ++ l', y.isHoldings = false) (hb :
    b.isHoldings = true) : (l ++ b :: l').find? TxBody.isHoldings = some b ∧
    (l ++ b :: l').filter (fun x => !x.isHoldings) = l ++ l' := by
  constructor
  · rw [List.find?_append, List.find?_eq_none.2 (fun y hy => by simp [h y (by simp [hy])])]
    simp [hb]
  · rw [List.filter_append, List.filter_cons_of_neg (by simp [hb]), ← List.filter_append]
    rw [List.filter_eq_self]
    intro y hy
    simp [h y hy]

theorem sendExtent_new {c : Ctl} {k : Env} {seq : Word} {ext : Nat} {mask : Byte} {b : Fin 2} {p : FillPage}
    {i : ExtentInfo} (hmask : mask ≠ 0) (hfill : c.fillOf seq = some (b, p)) (hi :
    p.extents.find? (fun i => i.number == ext) = some i) (hw : c.tx.waitingExtent seq ext = false) (hheld :
    ∀ q ∈ c.tx.held, q.isAnyExtent = false) :
    c.transmit k seq ext mask = (c.onTx (fun t => t.request (.extent seq i mask (.fill b)))).countAttempts seq ext
        mask := by
  have hnum : i.number = ext := by
    have := List.find?_some hi
    simpa using this
  unfold Ctl.transmit
  rw [if_neg hmask, hfill]
  dsimp only
  rw [hi]
  dsimp only
  unfold Ctl.sendExtent
  rw [hnum, hw]
  simp only [Bool.false_eq_true, if_false]
  rw [if_neg (by rw [Bool.not_eq_true, List.any_eq_false]; intro f hf; simp [hheld f hf])]

/-- A job whose COPY is owed requests it, when no COPY of the station is held (R146). -/
def oneCopy (c : Ctl) (slot : Fin 2) : Ctl :=
  match c.jobs.get slot with
  | some j => if j.owed && !c.tx.held.any TxBody.isAnyCopy then c.requestCopy slot else c
  | none => c

theorem requestOwedCopies_eq (c : Ctl) : c.requestOwedCopies = oneCopy (oneCopy c 0) 1 := rfl

theorem oneCopy_skip {c : Ctl} {v : Fin 2} (h : ∀ j, c.jobs.get v = some j → j.owed = false) : oneCopy c v = c := by
  unfold oneCopy
  cases hj : c.jobs.get v with
  | none => rfl
  | some j => dsimp only; rw [h j hj]; rfl

/-- The COPY owed to a job is requested (R146). -/
theorem oneCopy_req {c : Ctl} {v : Fin 2} {j : Job} (hj : c.jobs.get v = some j) (ho : j.owed = true) (hn :
    ∀ q ∈ c.tx.held, q.isAnyCopy = false) :
    oneCopy c v = { c with tx := c.tx.request (.copy j.page j.target v), jobs := vput c.jobs v (some { j with state := .queued, owed := false, timer := none, attempts := j.attempts + 1 }) } := by
  have hnc : c.tx.held.any TxBody.isAnyCopy = false := by
    rw [List.any_eq_false]; intro q hq; simp [hn q hq]
  unfold oneCopy
  rw [hj]
  dsimp only
  rw [if_pos (by rw [ho, hnc]; rfl)]
  unfold Ctl.requestCopy
  rw [hj]
  dsimp only
  rw [if_neg (by simp [hnc])]
  rfl

theorem requestOwed_none {c : Ctl} (h1 : c.owed = []) (h2 : c.readBack.wants = []) (k : Env) : c.requestOwed k = c := by
  have hp : c.pruneOwed = c := by
    unfold Ctl.pruneOwed
    rw [h1, h2]
    simp only [List.filterMap_nil]
    have : ({ c.readBack with wants := [] } : ReadBack) = c.readBack := by rw [← h2]
    rw [this, ← h1]
  unfold Ctl.requestOwed
  dsimp only
  rw [hp, h1]
  simp only [List.foldl_nil]
  rw [← h1]

/-- The one transmission owed is requested (R118). -/
theorem requestOwed_one {c : Ctl} {w : Wanted} {x : ETEntry} (h1 : c.owed = [w]) (h2 : c.readBack.wants = []) (k : Env)
    (hx : c.etEntry w.seq w.ext = some x) (hset : x.settled = .none) (hmask : w.mask &&& x.awaiting = w.mask) (hne :
    w.mask ≠ 0) :
    c.requestOwed k = Ctl.transmit { c with owed := [] } k w.seq w.ext w.mask := by
  have hst : c.stillWanted w = some w := by
    unfold Ctl.stillWanted
    rw [hx]
    dsimp only
    rw [hmask, if_pos (by simp only [ETEntry.unsettled, hset]; simpa using hne)]
  have hp : c.pruneOwed = c := by
    unfold Ctl.pruneOwed
    rw [h1, h2]
    simp only [List.filterMap_nil, List.filterMap_cons, hst]
    have : ({ c.readBack with wants := [] } : ReadBack) = c.readBack := by rw [← h2]
    rw [this, ← h1]
  unfold Ctl.requestOwed
  dsimp only
  rw [hp, h1]
  rfl

theorem startJob_of {c : Ctl} {v : Fin 2} {pu : Purpose} {id : PageId} {t : Station} {e : Entry} {a : PageAddr} (he :
    c.entry id = some e) (ha : e.localPage = some a) :
    c.startJob v pu id t = some { c with
          jobs := vput c.jobs v
            (some { purpose := pu, page := id, target := t, n := none, closed := false, state := .reading,
                    attempts := 0, timer := none, cancelled := false, owed := false, image := [] }),
          units := vput c.units (unitOfBlock a.block)
            { c.units.get (unitOfBlock a.block) with
              queue := (c.units.get (unitOfBlock a.block)).queue ++
                [{ who := .copyJob v, op := .pageRead a, emergency := false }] } } := by
  unfold Ctl.startJob
  rw [he]
  dsimp only
  rw [ha]
  rfl

theorem runs_iff (st : StationState) : st.timersRun = true ↔ st = .active ∨ st = .frozen := by cases st
    <;> simp [StationState.timersRun]

theorem walkAt_none {c : Ctl} {n : Nat} (h : ∀ e ∈ c.dir, e.id.key < n) : c.walkAt n = none := by
  unfold Ctl.walkAt
  rw [List.find?_eq_none]
  intro e he
  simp [h e he]

theorem popTask_nil {c : Ctl} {t : Task} (h : c.repair = [t]) : c.popTask = { c with repair := [] } := by
  unfold Ctl.popTask
  rw [show c.repair.tail = [] from by rw [h]; rfl]
  rfl

theorem popTask_cons {c : Ctl} {t u : Task} {rest : List Task} (h : c.repair = t :: u :: rest) :
    c.popTask = { c with repair := { u with cursor := 0, waiting := false } :: rest } := by
  unfold Ctl.popTask
  rw [show c.repair.tail = u :: rest from by rw [h]; rfl]
  rfl

theorem jobFor_iff {c : Ctl} {id : PageId} : c.jobFor id = true ↔ ∃ v j, c.jobs.get v = some j ∧ j.page = id := by
  unfold Ctl.jobFor
  rw [Bool.or_eq_true, Option.any_eq_true, Option.any_eq_true]
  simp only [decide_eq_true_eq]
  constructor
  · rintro (⟨j, h1, h2⟩ | ⟨j, h1, h2⟩)
    · exact ⟨0, j, h1, h2⟩
    · exact ⟨1, j, h1, h2⟩
  · rintro ⟨v, j, h1, h2⟩
    have : v = 0 ∨ v = 1 := by omega
    rcases this with rfl | rfl
    · exact Or.inl ⟨j, h1, h2⟩
    · exact Or.inr ⟨j, h1, h2⟩

theorem advance_of {c : Ctl} {t : Task} {rest : List Task} (h : c.repair = t :: rest) (e : Entry) (w : Bool) :
    c.advanceHead e w = { c with repair := (if w then { t with waiting := true } else { t with waiting := false, cursor := e.id.key + 1 }) :: rest } := by
  unfold Ctl.advanceHead Ctl.onHead
  rw [h]

/-- The repair decision at an entry (R152). -/
theorem decide_spec {c : Ctl} {k : Env} {id : PageId} {e e0 : Entry} {t : Task} {rest : List Task} (hrep :
    c.repair = t :: rest) (he : c.entry id = some e) (h0 : e0.id = e.id) :
    (¬ (e.under = true ∧ e.known ≠ 0 ∧ c.repairer k e = some k.me ∧ ∀ v j, c.jobs.get v = some j →
        j.page ≠ e.id) ∨ c.repairTarget k e k.me = none →
      c.decideAt k id e0 = { c with repair := { t with waiting := false, cursor := e.id.key + 1 } :: rest }) ∧
    (∀ tg v a, (e.under = true ∧ e.known ≠ 0 ∧ c.repairer k e = some k.me ∧ ∀ v j, c.jobs.get v = some j →
        j.page ≠ e.id) → c.repairTarget k e k.me = some tg → c.jobs.get v = none →
      (∀ v', v' < v → c.jobs.get v' ≠ none) → c.catchUps = [] → e.localPage = some a →
      c.decideAt k id e0 = { c with
        repair := { t with waiting := false, cursor := e.id.key + 1 } :: rest,
        jobs := vput c.jobs v
            (some { purpose := .repair, page := e.id, target := tg, n := none, closed := false, state := .reading,
                    attempts := 0, timer := none, cancelled := false, owed := false, image := [] }),
        units := vput c.units (unitOfBlock a.block)
            { c.units.get (unitOfBlock a.block) with
              queue := (c.units.get (unitOfBlock a.block)).queue ++
                [{ who := .copyJob v, op := .pageRead a, emergency := false }] } }) ∧
    (∀ tg, (e.under = true ∧ e.known ≠ 0 ∧ c.repairer k e = some k.me ∧ ∀ v j, c.jobs.get v = some j → j.page ≠ e.id) →
        c.repairTarget k e k.me = some tg →
      (∀ v, c.jobs.get v ≠ none) ∨ c.catchUps ≠ [] →
      c.decideAt k id e0 = { c with repair := { t with waiting := true } :: rest }) := by
  have hid := Ctl.entry_id he
  have hadv : ∀ (d : Ctl) (x : Entry), d.repair = t :: rest → x.id = e.id →
      d.advanceHead x false = { d with repair := { t with waiting := false, cursor := e.id.key + 1 } :: rest } := by
    intro d x hd hx
    rw [advance_of hd, hx]
    rfl
  refine ⟨fun h => ?_, fun tg v a hw ht hv hl hc ha => ?_, fun tg hw ht hno => ?_⟩
  · unfold Ctl.decideAt
    rw [he]
    dsimp only
    by_cases hu : e.under = true
    · rw [if_pos hu]
      have : c.repairDecision k e = (c, false) := by
        unfold Ctl.repairDecision
        by_cases h1 : e.known = 0
        · rw [if_pos h1]
        · rw [if_neg h1]
          by_cases h2 : c.repairer k e ≠ some k.me
          · rw [if_pos h2]
          · rw [if_neg h2]
            by_cases h3 : c.jobFor e.id = true
            · rw [if_pos h3]
            · rw [if_neg h3]
              rcases h with h | h
              · exact absurd ⟨hu, h1, not_not.1 h2, fun v j hj hp => h3 (jobFor_iff.2 ⟨v, j, hj, hp⟩)⟩ h
              · rw [h]
      rw [this]
      exact hadv c e hrep rfl
    · rw [if_neg hu]
      exact hadv c e hrep rfl
  · obtain ⟨h1, h2, h3, h4⟩ := hw
    have h5 : ¬ c.jobFor e.id = true := fun hc => by
      obtain ⟨v, j, hj, hp⟩ := jobFor_iff.1 hc
      exact h4 v j hj hp
    have : c.repairDecision k e = ({ c with
        jobs := vput c.jobs v
            (some { purpose := .repair, page := e.id, target := tg, n := none, closed := false, state := .reading,
                    attempts := 0, timer := none, cancelled := false, owed := false, image := [] }),
        units := vput c.units (unitOfBlock a.block)
            { c.units.get (unitOfBlock a.block) with
              queue := (c.units.get (unitOfBlock a.block)).queue ++
                [{ who := .copyJob v, op := .pageRead a, emergency := false }] } }, false) := by
      unfold Ctl.repairDecision
      rw [if_neg h2, if_neg (not_not.2 h3), if_neg h5, ht]
      dsimp only
      rw [freeSlot_some hv hl]
      dsimp only
      rw [if_pos (by rw [hc]; rfl), startJob_of (e := e) (by rw [hid]; exact he) ha]
    unfold Ctl.decideAt
    rw [he]
    dsimp only
    rw [if_pos h1, this]
    dsimp only
    exact hadv _ e (by exact hrep) rfl
  · obtain ⟨h1, h2, h3, h4⟩ := hw
    have h5 : ¬ c.jobFor e.id = true := fun hc => by
      obtain ⟨v, j, hj, hp⟩ := jobFor_iff.1 hc
      exact h4 v j hj hp
    have : c.repairDecision k e = (c, true) := by
      unfold Ctl.repairDecision
      rw [if_neg h2, if_neg (not_not.2 h3), if_neg h5, ht]
      dsimp only
      cases hf : c.freeSlot with
      | none => rfl
      | some v =>
        dsimp only
        rcases hno with hno | hno
        · rw [freeSlot_none.2 hno] at hf; cases hf
        · rw [if_neg (by simpa using hno)]
    unfold Ctl.decideAt
    rw [he]
    dsimp only
    rw [if_pos h1, this]
    dsimp only
    rw [advance_of hrep]
    rfl

theorem underCount_pos {d : List Entry} (h : ∃ y ∈ d, y.under = true) : underCount d ≠ 0 := by
  obtain ⟨y, hy, hu⟩ := h
  unfold underCount countOf
  intro hc
  rw [List.length_eq_zero_iff, List.filter_eq_nil_iff] at hc
  exact hc y hy hu

theorem allStations_eq : allStations = List.finRange 8 := by decide

theorem cyclicFrom_eq (s : Station) : cyclicFrom s = (List.finRange 8).map (fun d => s + d) := by
  fin_cases s <;> decide

theorem cyclicAfter_eq (s : Station) : cyclicAfter s = ([1,2,3,4,5,6,7] : List (Fin 8)).map (fun d => s + d) := by
  fin_cases s <;> decide

theorem find_first {α : Type} {p : α → Bool} {l₁ l₂ : List α} {x : α} (h : ∀ y ∈ l₁, p y = false) (hx : p x = true) :
    (l₁ ++ x :: l₂).find? p = some x := by
  rw [List.find?_append, List.find?_eq_none.2 (by simpa using h)]
  simp [hx]

/-- The first element of a rising list that satisfies a test. -/
theorem find_sorted {α : Type} (lt : α → α → Prop) (p : α → Bool) (l : List α) (hl : l.Pairwise lt) (x : α) (hm : x ∈ l)
    (hx : p x = true) (h : ∀ y, y ∈ l → lt y x → p y = false) : l.find? p = some x := by
  obtain ⟨l₁, l₂, rfl⟩ := List.append_of_mem hm
  refine find_first (fun y hy => h y (by simp [hy]) ?_) hx
  rw [List.pairwise_append] at hl
  exact hl.2.2 y hy x (by simp)

/-- When a station counts as PRESENT (R101). -/
theorem countsPresent_iff (c : Ctl) (k : Env) (i : Station) : c.countsPresent k i = true ↔
    (if i = k.me then c.station = .active ∨ c.station = .frozen else (c.peers.get i).state = .present) := by
  unfold Ctl.countsPresent; split <;> simp

/-- When a station counts as FULL (R101). -/
theorem countsFull_iff (c : Ctl) (k : Env) (i : Station) : c.countsFull k i = true ↔
    (if i = k.me then 65536 ≤ c.dir.length ∨ (c.openBlock .replica = none ∧ c.pool.length < 3)
      else (c.peers.get i).full = true) := by
  unfold Ctl.countsFull; split
  · unfold Ctl.replicaRoom; cases c.openBlock .replica <;> simp <;> omega
  · rfl

end Sys2Proof.Machine
end

