-- ==== Sys2Proof/Laws/Frames.lean ====
section
/-!
SUPPORT. Laws of frames as bytes and back.
-/

namespace Sys2Proof.Machine

theorem half_split (h : Half) : half (h.extractLsb' 0 8) (h.extractLsb' 8 8) = h := by
  unfold half
  ext i hi
  simp only [BitVec.getElem_append, BitVec.getElem_extractLsb']
  split
  · simp [BitVec.getLsbD_eq_getElem, hi]
  · have : 8 + (i - 8) = i := by omega
    simp [this, BitVec.getLsbD_eq_getElem, hi]

theorem word_split (w : Word) : word (w.extractLsb' 0 8) (w.extractLsb' 8 8) (w.extractLsb' 16 8) (w.extractLsb' 24 8) =
    w := by
  unfold word
  ext i hi
  simp only [BitVec.getElem_append, BitVec.getElem_extractLsb']
  split
  · simp [BitVec.getLsbD_eq_getElem, hi]
  · split
    · have : 8 + (i - 8) = i := by omega
      simp [this, BitVec.getLsbD_eq_getElem, hi]
    · split
      · have : 16 + (i - 8 - 8) = i := by omega
        simp [this, BitVec.getLsbD_eq_getElem, hi]
      · have : 24 + (i - 8 - 8 - 8) = i := by omega
        simp [this, BitVec.getLsbD_eq_getElem, hi]

theorem bytes16_half (a b : Byte) : bytes16 (half a b) = [a, b] := by
  unfold bytes16 half
  congr 1
  · ext i hi; simp only [BitVec.getElem_extractLsb', BitVec.getLsbD_append]
    rw [if_pos (by omega)]; simp [hi]
  · congr 1
    ext i hi; simp only [BitVec.getElem_extractLsb', BitVec.getLsbD_append]
    rw [if_neg (by omega)]; simp [show 8 + i - 8 = i by omega, hi]

theorem bytes32_word (a b c d : Byte) : bytes32 (word a b c d) = [a, b, c, d] := by
  unfold bytes32 word
  congr 1
  · ext i hi; simp only [BitVec.getElem_extractLsb', BitVec.getLsbD_append]
    rw [if_pos (by omega)]; simp [hi]
  · congr 1
    · ext i hi; simp only [BitVec.getElem_extractLsb', BitVec.getLsbD_append]
      rw [if_neg (by omega), if_pos (by omega)]; simp [hi]
    · congr 1
      · ext i hi; simp only [BitVec.getElem_extractLsb', BitVec.getLsbD_append]
        rw [if_neg (by omega), if_neg (by omega), if_pos (by omega)]; simp [show 16 + i - 8 - 8 = i by omega, hi]
      · congr 1
        ext i hi; simp only [BitVec.getElem_extractLsb', BitVec.getLsbD_append]
        rw [if_neg (by omega), if_neg (by omega), if_neg (by omega)]; simp [show 24 + i - 8 - 8 - 8 = i by omega, hi]

theorem byteOf_toNat (b : Byte) : byteOf b.toNat = b := by simp [byteOf]

theorem toNat_byteOf {n : Nat} (h : n < 256) : (byteOf n).toNat = n := by simp [byteOf]; omega

/-- Holdings items read back from their bytes. -/
theorem items_back (l : List HoldItem) (h : (l.all (fun i =>
      match i with
      | .run _ count => count != 0
      | .page _ depth _ => decide (depth.toNat ≤ 3))) = true) :
    parseItems l.length (l.flatMap HoldItem.bytes) = some l := by
  induction l with
  | nil => rfl
  | cons x l ih =>
    rw [List.all_cons, Bool.and_eq_true] at h
    have := ih h.2
    rw [List.flatMap_cons, List.length_cons]
    cases x with
    | run s c =>
      have hc : c ≠ 0#16 := by simpa using h.1
      simp only [HoldItem.bytes, bytes32, bytes16, List.cons_append, List.nil_append, parseItems, this, half_split,
          word_split]
      simp [hc]
    | page s d f =>
      have hc : d.toNat ≤ 3 := by simpa using h.1
      simp only [HoldItem.bytes, bytes32, bytes16, List.cons_append, List.nil_append, parseItems, this, half_split,
          word_split]
      simp [hc]

/-- Holdings items read from bytes are written back as those bytes. -/
theorem items_fwd : ∀ (n : Nat) (b : List Byte) (l : List HoldItem), parseItems n b = some l →
    l.length = n ∧ l.flatMap HoldItem.bytes = b ∧ (l.all (fun i =>
      match i with
      | .run _ count => count != 0
      | .page _ depth _ => decide (depth.toNat ≤ 3))) = true
  | 0, [], l, h => by simp [parseItems] at h; subst h; simp
  | 0, _ :: _, l, h => by simp [parseItems] at h
  | n + 1, form :: s0 :: s1 :: s2 :: s3 :: x :: y :: rest, l, h => by
    unfold parseItems at h
    split at h
    · simp at h
    · rename_i items hi
      obtain ⟨h1, h2, h3⟩ := items_fwd n rest items hi
      split at h
      · rename_i hf
        split at h
        · simp at h
        · rename_i hx
          simp only [Option.some.injEq] at h; subst h
          refine ⟨by simp [h1], ?_, ?_⟩
          · simp [HoldItem.bytes, bytes32_word, bytes16_half, h2, hf]
          · rw [List.all_cons, h3, Bool.and_true]; simpa using hx
      · split at h
        · rename_i hf
          split at h
          · rename_i hx
            simp only [Option.some.injEq] at h; subst h
            refine ⟨by simp [h1], ?_, ?_⟩
            · simp [HoldItem.bytes, bytes32_word, h2, hf]
            · rw [List.all_cons, h3, Bool.and_true]; simpa using hx
          · simp at h
        · simp at h
  | n + 1, [], l, h => by simp [parseItems] at h
  | n + 1, [_], l, h => by simp [parseItems] at h
  | n + 1, [_,_], l, h => by simp [parseItems] at h
  | n + 1, [_,_,_], l, h => by simp [parseItems] at h
  | n + 1, [_,_,_,_], l, h => by simp [parseItems] at h
  | n + 1, [_,_,_,_,_], l, h => by simp [parseItems] at h
  | n + 1, [_,_,_,_,_,_], l, h => by simp [parseItems] at h

/-- Descriptors read back from their bytes. -/
theorem descs_back (l : List DescBody) (r : List Byte) :
    parseDescs l.length (l.flatMap DescBody.bytes ++ r) = some (l, r) := by
  induction l with
  | nil => rfl
  | cons x l ih => simp [DescBody.bytes, parseDescs, ih]

/-- Descriptors read from bytes are written back as those bytes. -/
theorem descs_fwd : ∀ (n : Nat) (b : List Byte) (l : List DescBody) (r : List Byte), parseDescs n b = some (l, r) →
    l.length = n ∧ l.flatMap DescBody.bytes ++ r = b
  | 0, b, l, r, h => by simp [parseDescs] at h; obtain ⟨rfl, rfl⟩ := h; simp
  | n + 1, a :: b :: c :: d :: e :: f :: rest, l, r, h => by
    unfold parseDescs at h
    split at h
    · simp at h
    · rename_i l' r' hi
      obtain ⟨h1, h2⟩ := descs_fwd n rest l' r' hi
      simp only [Option.some.injEq, Prod.mk.injEq] at h
      obtain ⟨rfl, rfl⟩ := h
      simp [DescBody.bytes, h1, h2]
  | n + 1, [], l, r, h => by simp [parseDescs] at h
  | n + 1, [_], l, r, h => by simp [parseDescs] at h
  | n + 1, [_,_], l, r, h => by simp [parseDescs] at h
  | n + 1, [_,_,_], l, r, h => by simp [parseDescs] at h
  | n + 1, [_,_,_,_], l, r, h => by simp [parseDescs] at h
  | n + 1, [_,_,_,_,_], l, r, h => by simp [parseDescs] at h

/-- The body of a well-formed frame is read back as the frame. -/
theorem body_back (f : Frame) (h : f.wf = true) : parseBody f.kindCode f.body = some f := by
  cases f with
  | presence b =>
    simp [parseBody, Frame.kindCode, Frame.body, parsePresence, bytes16, bytes32, half_split, word_split]
  | answer b =>
    simp [parseBody, Frame.kindCode, Frame.body, parseAnswer, bytes32, word_split]
  | holdings b =>
    simp only [Frame.wf, Bool.and_eq_true, decide_eq_true_eq] at h
    simp only [parseBody, Frame.kindCode, Frame.body, bytes16, List.cons_append, List.nil_append]
    rw [if_neg (by decide), if_neg (by decide), if_pos trivial]
    unfold parseHoldings
    simp only [toNat_byteOf (show b.items.length < 256 by omega), half_split]
    rw [if_pos h.1, items_back _ h.2]
  | extent b =>
    simp only [Frame.wf, decide_eq_true_eq] at h
    simp only [parseBody, Frame.kindCode, Frame.body, bytes16, bytes32, List.cons_append, List.nil_append]
    rw [if_neg (by decide), if_neg (by decide), if_neg (by decide), if_pos trivial]
    unfold parseExtent
    simp only [half_split, word_split]
    rw [if_pos h]
  | copy b =>
    simp only [Frame.wf, decide_eq_true_eq] at h
    simp only [parseBody, Frame.kindCode, Frame.body, bytes16, bytes32, List.cons_append, List.nil_append]
    rw [if_neg (by decide), if_neg (by decide), if_neg (by decide), if_neg (by decide), if_pos trivial]
    unfold parseCopy
    simp only [toNat_byteOf (show b.descs.length < 256 by omega), half_split, word_split, descs_back]
    rw [if_pos ⟨h.1, h.2.1⟩, if_pos h.2.2]

/-- A body that is read is well-formed, of its kind, and written back as the same bytes. -/
theorem body_fwd (kind : Byte) (b : List Byte) (f : Frame) (h : parseBody kind b = some f) :
    f.wf = true ∧ f.kindCode = kind ∧ f.body = b := by
  unfold parseBody at h
  split at h
  · rename_i hk; subst hk
    unfold parsePresence at h
    split at h
    · simp only [Option.some.injEq] at h; subst h
      simp [Frame.wf, Frame.kindCode, Frame.body, bytes16_half, bytes32_word]
    · simp at h
  split at h
  · rename_i hk; subst hk
    unfold parseAnswer at h
    split at h
    · simp only [Option.some.injEq] at h; subst h
      simp [Frame.wf, Frame.kindCode, Frame.body, bytes32_word]
    · simp at h
  split at h
  · rename_i hk; subst hk
    unfold parseHoldings at h
    split at h
    · split at h
      · rename_i hn
        split at h
        · rename_i items hi
          obtain ⟨h1, h2, h3⟩ := items_fwd _ _ _ hi
          simp only [Option.some.injEq] at h; subst h
          refine ⟨?_, rfl, ?_⟩
          · simp only [Frame.wf, Bool.and_eq_true, decide_eq_true_eq]
            exact ⟨by omega, h3⟩
          · simp [Frame.body, bytes16_half, h1, h2, byteOf_toNat]
        · simp at h
      · simp at h
    · simp at h
  split at h
  · rename_i hk; subst hk
    unfold parseExtent at h
    split at h
    · split at h
      · rename_i hn
        simp only [Option.some.injEq] at h; subst h
        refine ⟨?_, rfl, ?_⟩
        · simp only [Frame.wf, decide_eq_true_eq]; exact hn
        · simp [Frame.body, bytes16_half, bytes32_word]
      · simp at h
    · simp at h
  split at h
  · rename_i hk; subst hk
    unfold parseCopy at h
    split at h
    · split at h
      · rename_i hn
        split at h
        · rename_i descs d0 d1 data hi
          obtain ⟨h1, h2⟩ := descs_fwd _ _ _ _ hi
          split at h
          · rename_i hu
            simp only [Option.some.injEq] at h; subst h
            refine ⟨?_, rfl, ?_⟩
            · simp only [Frame.wf, decide_eq_true_eq]
              exact ⟨by omega, by omega, hu⟩
            · simp only [Frame.body, bytes16_half, bytes32_word, h1, byteOf_toNat, List.cons_append, List.nil_append,
                  h2]
          · simp at h
        · simp at h
      · simp at h
    · simp at h
  · simp at h

/-- No body is longer than 4124 bytes (R174). -/
theorem body_len (f : Frame) (h : f.wf = true) : f.body.length ≤ 4124 := by
  cases f with
  | presence b => simp [Frame.body, bytes16, bytes32]
  | answer b => simp [Frame.body, bytes32]
  | holdings b =>
    simp only [Frame.wf, Bool.and_eq_true, decide_eq_true_eq] at h
    have : (b.items.flatMap HoldItem.bytes).length = 7 * b.items.length := by
      generalize b.items = l
      induction l with
      | nil => rfl
      | cons x l ih =>
        rw [List.flatMap_cons, List.length_append, ih]
        cases x <;> simp [HoldItem.bytes, bytes16, bytes32] <;> omega
    simp only [Frame.body, bytes16, List.cons_append, List.nil_append, List.length_cons, this]; omega
  | extent b =>
    simp only [Frame.wf, decide_eq_true_eq] at h
    simp only [Frame.body, bytes16, bytes32, List.cons_append, List.nil_append, List.length_cons, h.2.2]; omega
  | copy b =>
    simp only [Frame.wf, decide_eq_true_eq] at h
    have : (b.descs.flatMap DescBody.bytes).length = 6 * b.descs.length := by
      generalize b.descs = l
      induction l with
      | nil => rfl
      | cons x l ih =>
        rw [List.flatMap_cons, List.length_append, ih]
        simp [DescBody.bytes]; omega
    simp only [Frame.body, bytes16, bytes32, List.cons_append, List.nil_append, List.length_cons, List.length_append,
        this, h.2.2.2.2]; omega

theorem arb_src (c : BitVec 2) (s : Station) : arbSource (arbField c s) = s := by
  revert c s; decide

theorem arb_cls (c : BitVec 2) (s : Station) : arbClass (arbField c s) = c := by
  revert c s; decide

theorem arb_all (a : BitVec 5) : arbField (arbClass a) (arbSource a) = a := by
  revert a; decide

end Sys2Proof.Machine
end

