-- ==== Sys2Proof/Laws/Steps.lean ====
section
/-!
SUPPORT. Laws of what a command can do to the bounds and to the canonical form of the flash array.
-/

namespace Sys2Proof.Machine

theorem next_onCtl_ok {s t : State} {f : Ctl → Env → Ctl} (hs : s.ctl.Ok) (hf : ∀ c k, c.Ok → (f c k).Ok)
    (h : Host.Outcome.next (s.onCtl f) = (.next t : Host.Outcome State Fault Refusal)) : t.ctl.Ok := by
  injection h with h; subst h
  unfold State.onCtl; split
  · exact hs
  · exact hf _ _ hs

theorem next_onCtl_calm {s t : State} {f : Ctl → Env → Ctl} (hs : s.ctl.Ok) (hf : ∀ c k, Calm true c (f c k))
    (h : Host.Outcome.next (s.onCtl f) = (.next t : Host.Outcome State Fault Refusal)) : t.ctl.Ok :=
  next_onCtl_ok hs (fun c k hc => (hf c k).ok hc) h

theorem next_onCtlFresh_calm {s t : State} {f : Ctl → Env → Ctl} (hs : s.ctl.Ok) (hf : ∀ c k, Calm true c (f c k))
    (h : Host.Outcome.next (s.onCtlFresh f) = (.next t : Host.Outcome State Fault Refusal)) : t.ctl.Ok := by
  injection h with h; subst h
  unfold State.onCtlFresh; split
  · exact hs
  · exact (hf _ _).ok hs

theorem next_pageReadDone_calm {s t : State} {u p r} {f : Ctl → Env → Requester → PageAddr → Option PageRead → Ctl}
    (hs : s.ctl.Ok)
    (hf : ∀ c k w a x, Calm true c (f c k w a x))
    (h : Host.Outcome.next (s.pageReadDone u p r f) = (.next t : Host.Outcome State Fault Refusal)) : t.ctl.Ok := by
  injection h with h; subst h
  exact s.pageReadDone_ok u p r f hs (fun c k w a x hc => (hf c k w a x).ok hc)

theorem next_programDone_calm {s t : State} {u p r} {f : Ctl → Env → Requester → ProgramReq → ProgramOut → Ctl} (hs :
    s.ctl.Ok)
    (hf : ∀ c k w a x, Calm true c (f c k w a x))
    (h : Host.Outcome.next (s.programDone u p r f) = (.next t : Host.Outcome State Fault Refusal)) : t.ctl.Ok := by
  injection h with h; subst h
  exact s.programDone_ok u p r f hs (fun c k w a x hc => (hf c k w a x).ok hc)

theorem next_eraseDone_calm {s t : State} {u p r} {f : Ctl → Nat → Bool → Ctl} (hs : s.ctl.Ok)
    (hf : ∀ c b x, Calm true c (f c b x))
    (h : Host.Outcome.next (s.eraseDone u p r f) = (.next t : Host.Outcome State Fault Refusal)) : t.ctl.Ok := by
  injection h with h; subst h
  exact s.eraseDone_ok u p r f hs (fun c b x hc => (hf c b x).ok hc)

theorem next_onCtl_flash {s t : State} {f : Ctl → Env → Ctl} (hs : s.flash.wf)
    (h : Host.Outcome.next (s.onCtl f) = (.next t : Host.Outcome State Fault Refusal)) : t.flash.wf := by
  injection h with h; subst h
  rw [State.onCtl_flash]; exact hs

theorem next_onCtlFresh_flash {s t : State} {f : Ctl → Env → Ctl} (hs : s.flash.wf)
    (h : Host.Outcome.next (s.onCtlFresh f) = (.next t : Host.Outcome State Fault Refusal)) : t.flash.wf := by
  injection h with h; subst h
  rw [State.onCtlFresh_flash]; exact hs

theorem next_pageReadDone_flash {s t : State} {u p r} {f : Ctl → Env → Requester → PageAddr → Option PageRead → Ctl}
    (hs : s.flash.wf)
    (h : Host.Outcome.next (s.pageReadDone u p r f) = (.next t : Host.Outcome State Fault Refusal)) : t.flash.wf := by
  injection h with h; subst h
  rcases s.pageReadDone_flash u p r f with h | ⟨a, h⟩ <;> rw [h]
  · exact hs
  · exact Flash.wf_afterRead _ _ _ hs

theorem next_programDone_flash {s t : State} {u p r} {f : Ctl → Env → Requester → ProgramReq → ProgramOut → Ctl} (hs :
    s.flash.wf)
    (h : Host.Outcome.next (s.programDone u p r f) = (.next t : Host.Outcome State Fault Refusal)) : t.flash.wf := by
  injection h with h; subst h
  rcases State.programDone_flash s u p r f with h | ⟨b, q, _, _, h⟩ <;> rw [h]
  · exact hs
  · exact Flash.wf_afterProgram _ _ _ _ _ hs

theorem next_eraseDone_flash {s t : State} {u p r} {f : Ctl → Nat → Bool → Ctl} (hs : s.flash.wf)
    (h : Host.Outcome.next (s.eraseDone u p r f) = (.next t : Host.Outcome State Fault Refusal)) : t.flash.wf := by
  injection h with h; subst h
  rcases State.eraseDone_cases s u p r f with h | ⟨b, q, _, h⟩ <;> rw [h]
  · exact hs
  · exact Flash.wf_afterErase _ _ _ _ hs

end Sys2Proof.Machine
end

