-- ==== Sys2Proof/Laws/Forming.lean ====
section
/-!
SUPPORT. Laws of formation (R7, R8, R111): what forming an extent of a page does to the directory, the fill pair, the Extent
Table and the queue of its unit.
-/

namespace Sys2Proof.Machine

theorem Ctl.fillOf_setFill {c : Ctl} {seq : Word} {b : Fin 2} {p p' : FillPage} (h : c.fillOf seq = some (b, p))
    (hp : p'.seq = seq) : (c.setFill b (some p')).fillOf seq = some (b, p') := by
  unfold Ctl.fillOf at h ⊢
  unfold Ctl.setFill
  dsimp only at h ⊢
  match b with
  | 0 => rw [vput_get_same]; simp [hp]
  | 1 =>
    rw [vput_get_other _ _ _ _ (by decide), vput_get_same]
    cases h0 : c.fill.get 0 with
    | none => simp [hp]
    | some q =>
      rw [h0] at h
      by_cases hq : q.seq = seq
      · simp [hq] at h
      · simp [hq, hp]

/-- The buffer of the open page is the one that holds its seq. -/
theorem Ctl.fillOf_openPage {c : Ctl} {k : Env} {b : Fin 2} {p : FillPage} (h : c.openPage k = some (b, p)) :
    c.fillOf p.seq = some (b, p) := by
  obtain ⟨hb, e, he, hc⟩ := Ctl.openPage_spec h
  unfold Ctl.fillOf
  dsimp only
  match b with
  | 0 => rw [hb]; simp
  | 1 =>
    rw [hb]
    cases h0 : c.fill.get 0 with
    | none => simp
    | some q =>
      by_cases hq : q.seq = p.seq
      · unfold Ctl.openPage at h
        dsimp only at h
        rw [h0] at h
        dsimp only at h
        rw [hq, he] at h
        simp [hc] at h
      · simp [hq]

/-- A transmission from the fill buffer changes the transmit queue, the Extent Table and what is owed. -/
theorem Ctl.transmit_fill_shape {c : Ctl} {k : Env} {seq : Word} (ext : Nat) (mask : Byte) {x : Fin 2 × FillPage}
    (h : c.fillOf seq = some x) :
    ∃ tx et owed, c.transmit k seq ext mask = { c with tx := tx, et := et, owed := owed } := by
  unfold Ctl.transmit
  split
  · exact ⟨_, _, _, rfl⟩
  · obtain ⟨b, p⟩ := x
    simp only [h]
    split
    · unfold Ctl.sendExtent
      repeat' split
      all_goals exact ⟨_, _, _, rfl⟩
    · exact ⟨_, _, _, rfl⟩

/-- The request of the program of one extent of a page (R114). -/
def Ctl.extentProgram (c : Ctl) (k : Env) (b : Fin 2) (p : FillPage) (e : Entry) (a : PageAddr) (i : ExtentInfo) : Request :=
  { who := .own p.seq false (i.number + 1), emergency := decide (c.station = .leaving) && decide (p.urgent = some i.number),
    op := .program { page := a, first := i.first, count := i.count,
                     identity := if i.number = 0 then some (identityBytes (byteOf k.me.val) p.seq) else none,
                     descs := [p.descriptor e.holderSet i], source := .fill b } }

/-- The next program of a page that has none outstanding and is kept in place (R114). -/
theorem Ctl.requestProgram_eq {c : Ctl} {k : Env} {b : Fin 2} {p : FillPage} {e : Entry} {a : PageAddr} {i : ExtentInfo}
    (hf : c.fillOf p.seq = some (b, p)) (he : c.ownEntry k p.seq = some e) (ha : e.localPage = some a)
    (hr : c.inRetired a = false) (hp : p.failed = false) (hn : e.pendingExt = none)
    (hi : p.extents[e.ownDepth k]? = some i) :
    c.requestProgram k p.seq =
      (c.update k (ownId k p.seq) (fun e => { e with pendingExt := some (i.number + 1) })).enter
        (c.extentProgram k b p e a i) := by
  unfold Ctl.requestProgram Ctl.extentProgram
  rw [hf, he]
  simp only [hp, hn, hi, ha, hr, Option.isSome_none, Bool.or_self, Bool.false_eq_true, if_false]

/-- While a program of the page is outstanding no other is requested (R114). -/
theorem Ctl.requestProgram_pending {c : Ctl} {k : Env} {seq : Word} {e : Entry} (he : c.ownEntry k seq = some e)
    (h : e.pendingExt.isSome = true) : c.requestProgram k seq = c := by
  unfold Ctl.requestProgram
  rw [he]
  split
  · rename_i e' he'
    cases he'
    rw [h, Bool.or_true, if_pos rfl]
  · rfl

/-- The entry of an extent just formed (R113). -/
structure NewEntry (p : FillPage) (i : ExtentInfo) (prog : LocalProg) (x : ETEntry) : Prop where
  seq : x.seq = p.seq
  ext : x.ext = i.number
  first : x.first = i.first
  count : x.count = i.count
  prog : x.prog = prog
  settled : x.settled = .none

/-- The fields of the directory entry that a formation sets (R111). -/
def Entry.withExtent (i : ExtentInfo) (e : Entry) : Entry :=
  { e with known := max e.known (i.number + 1), used := i.last, closed := e.closed || i.closing }

/-- Forming an extent of a page in the directory sets its buffer, one entry at the tail at most, and its fields. -/
theorem Ctl.addExtent_eq {c : Ctl} {k : Env} {p : FillPage} {e : Entry} (he : c.ownEntry k p.seq = some e) (b : Fin 2)
    (noFit : Bool) (entry : Option LocalProg) :
    ∃ l, (entry = none → l = []) ∧ (∀ prog, entry = some prog → ∃ x, l = [x] ∧ NewEntry p (p.nextExtent noFit) prog x) ∧
      c.addExtent k b p noFit entry =
        Ctl.update { c with fill := vput c.fill b (some { p with extents := p.extents ++ [p.nextExtent noFit] }),
                            et := c.et ++ l } k (ownId k p.seq) (Entry.withExtent (p.nextExtent noFit)) := by
  have he' : (c.setFill b (some { p with extents := p.extents ++ [p.nextExtent noFit] })).ownEntry k p.seq = some e := he
  unfold Ctl.addExtent
  dsimp only
  cases entry with
  | none => exact ⟨[], fun _ => rfl, by simp, by simp only [List.append_nil]; rfl⟩
  | some prog =>
    rw [he']
    refine ⟨[_], by simp, fun _ h => ⟨_, rfl, ?_⟩, rfl⟩
    cases h
    split
    · unfold ETEntry.withExtra
      split <;> exact ⟨rfl, rfl, rfl, rfl, rfl, rfl⟩
    · exact ⟨rfl, rfl, rfl, rfl, rfl, rfl⟩

/-- What forming extent `i` of the page in buffer `b` leaves, the Extent Table apart (R8, R111, R114): the page's entry `e`
was at hand, its local page `a` in a block that is not RETIRED. -/
structure Formed (c d : Ctl) (k : Env) (b : Fin 2) (p : FillPage) (e : Entry) (a : PageAddr) (i : ExtentInfo) : Prop where
  fill : d.fill = vput c.fill b (some { p with extents := p.extents ++ [i] })
  port : d.port = c.port
  rx : d.rx = c.rx
  entry : ∃ x, d.ownEntry k p.seq = some x ∧ x.known = max e.known (i.number + 1) ∧ x.used = i.last ∧
    x.closed = (e.closed || i.closing) ∧ x.localPage = some a ∧ x.ownDepth k = e.ownDepth k ∧
    (e.pendingExt.isSome = true ∨ e.ownDepth k ≤ p.extents.length → x.pendingExt.isSome = true)
  others : ∀ j, j ≠ ownId k p.seq → d.entry j = c.entry j
  program : e.pendingExt = none → e.ownDepth k = p.extents.length →
    ∃ l, (d.units.get (unitOfBlock a.block)).queue =
      l ++ [c.extentProgram k b { p with extents := p.extents ++ [i] } e a i]

theorem Ctl.update_formed {c : Ctl} {k : Env} {id : PageId} {e : Entry} (g : Entry → Entry) (hg : ∀ e, (g e).id = e.id)
    (he : c.entry id = some e) : ∃ u, (c.update k id g).entry id = some { g e with under := u } := by
  rw [Ctl.entry_update hg, he]
  simp [Ctl.entry_id he, Ctl.flagged]

theorem Ctl.update_others {c : Ctl} {k : Env} {id : PageId} (g : Entry → Entry) (hg : ∀ e, (g e).id = e.id) (j : PageId)
    (hj : j ≠ id) : (c.update k id g).entry j = c.entry j := by
  rw [Ctl.entry_update hg]
  cases he : c.entry j with
  | none => rfl
  | some e => simp [Ctl.entry_id he, hj]

/-- An extent is formed and its program requested, in place, when none is outstanding (R111, R114). -/
theorem Ctl.addExtent_program {c : Ctl} {k : Env} {b : Fin 2} {p p₀ : FillPage} {e : Entry} {a : PageAddr}
    (hf : c.fillOf p.seq = some (b, p₀)) (he : c.ownEntry k p.seq = some e) (ha : e.localPage = some a)
    (hr : c.inRetired a = false) (hp : p.failed = false) (noFit : Bool) (entry : Option LocalProg) :
    ∃ l, (entry = none → l = []) ∧ (∀ prog, entry = some prog → ∃ x, l = [x] ∧ NewEntry p (p.nextExtent noFit) prog x) ∧
      ((c.addExtent k b p noFit entry).requestProgram k p.seq).et = c.et ++ l ∧
      Formed c ((c.addExtent k b p noFit entry).requestProgram k p.seq) k b p e a (p.nextExtent noFit) := by
  obtain ⟨l, h1, h2, h3⟩ := Ctl.addExtent_eq he b noFit entry
  refine ⟨l, h1, h2, ?_⟩
  rw [h3]
  clear h1 h2 h3
  set i := p.nextExtent noFit
  set c1 : Ctl := { c with fill := vput c.fill b (some { p with extents := p.extents ++ [i] }), et := c.et ++ l } with hc1
  have he1 : c1.entry (ownId k p.seq) = some e := he
  obtain ⟨u, hu⟩ := Ctl.update_formed (k := k) (Entry.withExtent i) (fun _ => rfl) he1
  have ho := Ctl.update_others (c := c1) (k := k) (id := ownId k p.seq) (Entry.withExtent i) (fun _ => rfl)
  have hfill : (c1.update k (ownId k p.seq) (Entry.withExtent i)).fillOf p.seq =
      some (b, { p with extents := p.extents ++ [i] }) := by
    have : (c1.update k (ownId k p.seq) (Entry.withExtent i)).fill =
        (c.setFill b (some { p with extents := p.extents ++ [i] })).fill := by rw [Ctl.update_fill]; rfl
    exact (Ctl.fillOf_congr this p.seq).trans (Ctl.fillOf_setFill hf rfl)
  by_cases hn : e.pendingExt = none ∧ e.ownDepth k ≤ p.extents.length
  · obtain ⟨hn, hd⟩ := hn
    obtain ⟨j, hj⟩ : ∃ j, (p.extents ++ [i])[e.ownDepth k]? = some j :=
      ⟨_, List.getElem?_eq_getElem (by simp; omega)⟩
    rw [Ctl.requestProgram_eq (p := { p with extents := p.extents ++ [i] }) hfill hu ha
      (by rw [Ctl.inRetired_congr (c := c) (by simp [hc1])]; exact hr) hp hn hj]
    obtain ⟨u2, hu2⟩ := Ctl.update_formed (k := k) (fun e => { e with pendingExt := some (j.number + 1) }) (fun _ => rfl) hu
    refine ⟨by simp [hc1], ⟨by simp [hc1], by simp [hc1], by simp [hc1],
      ⟨_, (Ctl.entry_congr (Ctl.enter_dir _ _) _).trans hu2, rfl, rfl, rfl, ha, rfl, fun _ => rfl⟩, ?_, ?_⟩⟩
    · intro j' hj'
      exact (Ctl.entry_congr (Ctl.enter_dir _ _) j').trans ((Ctl.update_others
        (fun e => { e with pendingExt := some (j.number + 1) }) (fun _ => rfl) j' hj').trans (ho j' hj'))
    · intro _ hdd
      rw [hdd, List.getElem?_append_right (le_refl _)] at hj
      simp at hj
      subst hj
      refine ⟨(c.units.get (unitOfBlock a.block)).queue, ?_⟩
      rw [Ctl.enter_units, Ctl.update_units, Ctl.update_units]
      refine (congrArg UnitState.queue (vput_get_same _ _ _)).trans ?_
      unfold Ctl.extentProgram
      rw [Ctl.update_station]
      rfl
  · have same : (c1.update k (ownId k p.seq) (Entry.withExtent i)).requestProgram k p.seq =
        c1.update k (ownId k p.seq) (Entry.withExtent i) := by
      by_cases hs : e.pendingExt.isSome = true
      · exact Ctl.requestProgram_pending hu hs
      · have hd : p.extents.length < e.ownDepth k := by
          rw [Bool.not_eq_true, Option.isSome_eq_false_iff, Option.isNone_iff_eq_none] at hs
          exact Nat.lt_of_not_le (fun h => hn ⟨hs, h⟩)
        refine Ctl.requestProgram_done hu (fun b' p' h => ?_)
        rw [hfill] at h
        cases h
        rw [List.length_append]
        exact hd
    rw [same]
    refine ⟨by simp [hc1], ⟨by simp [hc1], by simp [hc1], by simp [hc1],
      ⟨_, hu, rfl, rfl, rfl, ha, rfl, ?_⟩, fun j hj => (ho j hj).trans rfl, fun h1 h2 => absurd ⟨h1, h2.le⟩ hn⟩⟩
    rintro (h | h)
    · exact h
    · cases hx : e.pendingExt with
      | none => exact absurd ⟨hx, h⟩ hn
      | some n => exact Eq.trans (congrArg Option.isSome hx) rfl

theorem Formed.congr {c d d' : Ctl} {k : Env} {b : Fin 2} {p : FillPage} {e : Entry} {a : PageAddr} {i : ExtentInfo}
    (h : Formed c d k b p e a i) (hd : d'.dir = d.dir) (hu : d'.units = d.units) (hf : d'.fill = d.fill)
    (hp : d'.port = d.port) (hr : d'.rx = d.rx) : Formed c d' k b p e a i := by
  obtain ⟨h1, h2, h3, h4, h5, h6⟩ := h
  refine ⟨hf.trans h1, hp.trans h2, hr.trans h3, ?_, fun j hj => (Ctl.entry_congr hd j).trans (h5 j hj), ?_⟩
  · obtain ⟨x, hx, hrest⟩ := h4
    exact ⟨x, (Ctl.ownEntry_congr hd k p.seq).trans hx, hrest⟩
  · rw [hu]
    exact h6

/-- The first transmission of an extent of a page in the fill pair changes the transmit queue, the Extent Table and what is
owed, and of the table only the entry of that extent. -/
theorem Ctl.transmitNew_fill {c : Ctl} {k : Env} {seq : Word} (ext : Nat) {x : Fin 2 × FillPage} (h : c.fillOf seq = some x) :
    (∃ tx et owed, c.transmitNew k seq ext = { c with tx := tx, et := et, owed := owed }) ∧
    ∃ g, ETEntry.keeps g ∧ (∀ y, ¬ (y.seq = seq ∧ y.ext = ext) → g y = y) ∧ (c.transmitNew k seq ext).et = c.et.map g := by
  unfold Ctl.transmitNew
  split
  · exact ⟨Ctl.transmit_fill_shape ext _ h, Ctl.transmit_et ext _ h⟩
  · exact ⟨⟨_, _, _, rfl⟩, id, ETEntry.keeps_id, fun _ _ => rfl, by simp⟩

/-- An extent formed with an Extent Table entry (R111). -/
theorem Ctl.formExtent_spec {c : Ctl} {k : Env} {b : Fin 2} {p p₀ : FillPage} {e : Entry} {a : PageAddr}
    (hf : c.fillOf p.seq = some (b, p₀)) (he : c.ownEntry k p.seq = some e) (ha : e.localPage = some a)
    (hr : c.inRetired a = false) (hp : p.failed = false) (noFit : Bool) :
    Formed c (c.formExtent k b p noFit) k b p e a (p.nextExtent noFit) ∧
      (c.etEntry p.seq p.extents.length = none → ∃ x, (c.formExtent k b p noFit).et = c.et ++ [x] ∧ NewEntry p (p.nextExtent noFit) .pending x) := by
  obtain ⟨l, -, h2, h3, h4⟩ := Ctl.addExtent_program hf he ha hr hp noFit (some .pending)
  obtain ⟨x, rfl, hx⟩ := h2 _ rfl
  have hfill : ((c.addExtent k b p noFit (some .pending)).requestProgram k p.seq).fillOf p.seq =
      some (b, { p with extents := p.extents ++ [p.nextExtent noFit] }) :=
    (Ctl.fillOf_congr (c := c.setFill b (some { p with extents := p.extents ++ [p.nextExtent noFit] })) h4.fill p.seq).trans
      (Ctl.fillOf_setFill hf rfl)
  obtain ⟨⟨tx, et, owed, ht⟩, g, g1, g2, g3⟩ := Ctl.transmitNew_fill (k := k) p.extents.length hfill
  refine ⟨h4.congr ?_ ?_ ?_ ?_ ?_, fun hn => ⟨g x, ?_, ?_⟩⟩
  iterate 5
    unfold Ctl.formExtent
    rw [ht]
  · unfold Ctl.formExtent
    rw [g3, h3, List.map_append]
    congr 1
    refine (List.map_congr_left (fun y hy => g2 y (fun hh => ?_))).trans (List.map_id _)
    have := List.find?_eq_none.1 hn y hy
    simp [hh] at this
  · obtain ⟨a1, a2, a3, a4, a5, a6⟩ := g1 x
    obtain ⟨b1, b2, b3, b4, b5, b6⟩ := hx
    exact ⟨a1.trans b1, a2.trans b2, a3.trans b3, a4.trans b4, a5.trans b5, a6.trans b6⟩

/-- The fields of R41 of a page are discarded, or nothing changes. -/
theorem Ctl.dropTargets_cases (c : Ctl) (k : Env) (seq : Word) : c.dropTargets k seq = c ∨
    c.dropTargets k seq =
      c.update k (ownId k seq) (fun e => { e with targets := [], extra := none, excluded := 0 }) := by
  unfold Ctl.dropTargets
  split
  · split
    · exact Or.inr rfl
    · exact Or.inl rfl
  · exact Or.inl rfl

theorem Formed.dropTargets {c d : Ctl} {k : Env} {b : Fin 2} {p : FillPage} {e : Entry} {a : PageAddr} {i : ExtentInfo}
    (h : Formed c d k b p e a i) : Formed c (d.dropTargets k p.seq) k b p e a i := by
  rcases Ctl.dropTargets_cases d k p.seq with hd | hd <;> rw [hd]
  · exact h
  · obtain ⟨h1, h2, h3, ⟨x, hx, h4⟩, h5, h6⟩ := h
    obtain ⟨u, hu⟩ := Ctl.update_formed (k := k) (fun e => { e with targets := [], extra := none, excluded := 0 })
      (fun _ => rfl) hx
    exact ⟨(Ctl.update_fill ..).trans h1, (Ctl.update_port ..).trans h2, (Ctl.update_rx ..).trans h3, ⟨_, hu, h4⟩,
      fun j hj => (Ctl.update_others (fun e => { e with targets := [], extra := none, excluded := 0 }) (fun _ => rfl) j hj).trans
        (h5 j hj), by rw [Ctl.update_units]; exact h6⟩

/-- The extent of the emergency flush (R71): with an Extent Table entry when one is free, else without. -/
theorem Ctl.formEmergency_spec {c : Ctl} {k : Env} {b : Fin 2} {p : FillPage} {e : Entry} {a : PageAddr}
    (hf : c.fillOf p.seq = some (b, p)) (he : c.ownEntry k p.seq = some e) (ha : e.localPage = some a)
    (hr : c.inRetired a = false) (hp : p.failed = false) :
    Formed c (c.formEmergency k b p) k b { p with urgent := some p.extents.length } e a (p.nextExtent false) ∧
    (1 ≤ c.tableRoom → c.etEntry p.seq p.extents.length = none →
      ∃ x, (c.formEmergency k b p).et = c.et ++ [x] ∧ NewEntry p (p.nextExtent false) .pending x) ∧
    (c.tableRoom = 0 → (c.formEmergency k b p).et = c.et) := by
  unfold Ctl.formEmergency
  dsimp only
  by_cases h : 1 ≤ c.tableRoom
  · rw [if_pos h]
    obtain ⟨h1, h2⟩ := Ctl.formExtent_spec (p := { p with urgent := some p.extents.length }) hf he ha hr hp false
    refine ⟨h1, fun _ hn => ?_, fun h' => by omega⟩
    obtain ⟨x, h2, h3⟩ := h2 hn
    exact ⟨x, h2, ⟨h3.1, h3.2, h3.3, h3.4, h3.5, h3.6⟩⟩
  · rw [if_neg h]
    obtain ⟨l, h1, -, h3, h4⟩ := Ctl.addExtent_program (p := { p with urgent := some p.extents.length }) hf he ha hr hp false none
    rw [h1 rfl, List.append_nil] at h3
    exact ⟨h4.dropTargets, fun h' => absurd h' h, fun _ => (dropTargets_facts _ k p.seq).1.trans h3⟩

/-- Formation as the statements say it, from what the forming operation does and what follows it. -/
theorem Ctl.formsExtent_of {c d d' : Ctl} {k : Env} {b : Fin 2} {p p' : FillPage} {noFit emergency : Bool}
    (hlt : p.formed < p.used) (hseq : p'.seq = p.seq) (hused : p'.used = p.used) (hext : p'.extents = p.extents)
    (hform : p'.nextExtent noFit = p.nextExtent noFit)
    (hem : (decide (c.station = .leaving) && decide (p'.urgent = some p.extents.length)) = emergency)
    (hdir : d'.dir = d.dir) (het : d'.et = d.et) (hq : ∀ u, (d.units.get u).queue <+: (d'.units.get u).queue)
    (hfill : ∀ q x, d.fill.get b = some q → d.ownEntry k q.seq = some x → x.closed = false ∨ x.pendingExt.isSome = true →
      d'.fill.get b = some q)
    (h : ∀ e a, c.ownEntry k p.seq = some e → e.localPage = some a → c.inRetired a = false → p.failed = false →
      Formed c d k b p' e a (p'.nextExtent noFit) ∧
      (c.et.length < 16 → c.etEntry p.seq p.extents.length = none →
        ∃ x, d.et = c.et ++ [x] ∧ NewEntry p' (p'.nextExtent noFit) .pending x) ∧
      (emergency = true → 16 ≤ c.et.length → d.et = c.et)) : c.formsExtent d' k b p noFit emergency := by
  intro e a he ha hr hp hd n starts i
  obtain ⟨f, h1, h2⟩ := h e a he ha hr hp
  rw [hform] at f h1
  have hlast : (p.nextExtent noFit).last = p.used := by
    show p.formed + (p.used - p.formed) = p.used
    omega
  obtain ⟨x, x1, x2, x3, x4, x5, x6, x7⟩ := f.entry
  rw [hseq] at x1
  refine ⟨⟨_, hfill { p' with extents := p'.extents ++ [p.nextExtent noFit] } x
    ((congrArg (fun v => v.get b) f.fill).trans (vput_get_same _ _ _)) (by rw [hseq]; exact x1)
    (Or.inr (x7 (Or.inr (by rw [hext]; exact hd)))), hseq, hused, by rw [hext]; rfl⟩, ?_, fun hl hn => ?_, fun hm hl => ?_,
    fun hn hdn => ?_⟩
  · rw [Ctl.entry_congr hdir, show d.entry (ownId k p.seq) = some x from x1, Option.map_some, x2, x3, x4, hlast]
    rfl
  · obtain ⟨y, y1, y2⟩ := h1 hl hn
    exact ⟨y, het.trans y1, y2.seq.trans hseq, y2.ext, y2.first, y2.count, y2.prog, y2.settled⟩
  · exact het.trans (h2 hm hl)
  · obtain ⟨l, hl⟩ := f.program hn (by rw [hext]; exact hdn)
    refine ⟨_, (hq _).subset (by rw [hl]; exact List.mem_append_right _ (List.mem_singleton_self _)), ?_, ?_, _, rfl, rfl,
      rfl, rfl⟩
    · show Requester.own p'.seq false _ = _
      rw [hseq]
      rfl
    · rw [← hem]
      rfl

theorem Ctl.formsExtent_congr {c c' d : Ctl} {k k' : Env} {b : Fin 2} {p p' : FillPage} {noFit emergency : Bool}
    (h : c'.formsExtent d k' b p' noFit emergency) (hdir : c'.dir = c.dir) (het : c'.et = c.et) (hb : c'.blocks = c.blocks)
    (hk : k'.me = k.me) (hs : p'.seq = p.seq) (hu : p'.used = p.used) (hx : p'.extents = p.extents)
    (hst : p'.starts = p.starts) (hf : p'.failed = p.failed) : c.formsExtent d k b p noFit emergency := by
  intro e a he ha hr hp hd
  have hformed : p'.formed = p.formed := by
    unfold FillPage.formed
    rw [hx]
  have := h e a (by rw [Ctl.ownEntry_congr hdir, hs]; unfold Ctl.ownEntry ownId; rw [hk]; exact he) ha
    (by rw [Ctl.inRetired_congr hb]; exact hr) (hf.trans hp) (by unfold Entry.ownDepth; rw [hk, hx]; exact hd)
  unfold Ctl.etEntry Entry.ownDepth ownId at this
  rw [hs, hu, hx, hst, hformed, het, hk] at this
  exact this

/-- A buffer whose page is kept in the directory, open or with a program outstanding, is kept (R106). -/
theorem Ctl.sweep_fill_kept {c : Ctl} {k : Env} {b : Fin 2} {p : FillPage} {e : Entry} (hb : c.fill.get b = some p)
    (he : c.ownEntry k p.seq = some e) (h : e.closed = false ∨ e.pendingExt.isSome = true) :
    (c.sweep k).fill.get b = some p := by
  have kept (d : Ctl) (hd : d.dir = c.dir) : d.fillDone k b p = false := by
    have := (Ctl.ownEntry_congr hd k p.seq).trans he
    unfold Ctl.fillDone
    rw [this]
    dsimp only
    rcases h with h | h
    · simp [h]
    · obtain ⟨n, hn⟩ := Option.isSome_iff_exists.1 h
      simp [hn]
  have one (d : Ctl) (i : Fin 2) (hd : d.dir = c.dir) (hf : d.fill.get b = some p) :
      (match d.fill.get i with
        | some q => if d.fillDone k i q then d.setFill i none else d
        | none => d).fill.get b = some p ∧
      (match d.fill.get i with
        | some q => if d.fillDone k i q then d.setFill i none else d
        | none => d).dir = c.dir := by
    split
    · rename_i q hq
      split
      · rename_i hdone
        refine ⟨?_, hd⟩
        by_cases hi : b = i
        · subst hi
          rw [hf] at hq
          cases hq
          rw [kept d hd] at hdone
          exact absurd hdone (by decide)
        · exact (vput_get_other _ _ _ _ hi).trans hf
      · exact ⟨hf, hd⟩
    · exact ⟨hf, hd⟩
  obtain ⟨u, r, hrb⟩ := c.sweepReadBack_shape k
  have h0 := one (c.sweepReadBack k) 0 (by rw [hrb]) (by rw [hrb]; exact hb)
  exact (one _ 1 h0.2 h0.1).1

theorem Ctl.mem_deferredBufs (c : Ctl) (p : PageId → Bool) (b : Fin 4) :
    b ∈ c.deferredBufs p ↔ ∃ h, c.rxHeld b = some h ∧ h.phase = .deferred ∧ (h.frame.id h.src).any p = true := by
  have one (i j : Fin 4) : (∃ n : Nat, (n, j) ∈ (match c.rxHeld i with
      | some h => if h.phase = RxPhase.deferred && (h.frame.id h.src).any p then [(h.order, i)] else []
      | none => [])) ↔ i = j ∧ ∃ h, c.rxHeld j = some h ∧ h.phase = .deferred ∧ (h.frame.id h.src).any p = true := by
    cases hi : c.rxHeld i with
    | none =>
      simp only [List.not_mem_nil, exists_false, false_iff, not_and, not_exists]
      rintro rfl h
      simp [hi]
    | some h =>
      dsimp only
      split
      · rename_i hc
        simp only [Bool.and_eq_true, decide_eq_true_eq] at hc
        simp only [List.mem_singleton, Prod.mk.injEq, exists_eq_left]
        constructor
        · intro he
          subst he
          exact ⟨rfl, h, hi, hc⟩
        · exact fun he => he.1.symm
      · rename_i hc
        simp only [Bool.and_eq_true, decide_eq_true_eq] at hc
        simp only [List.not_mem_nil, exists_false, false_iff, not_and, not_exists]
        rintro rfl h' hh
        rw [hi] at hh
        cases hh
        exact fun h1 h2 => hc ⟨h1, h2⟩
  unfold Ctl.deferredBufs
  dsimp only
  simp only [List.mem_map, List.mem_insertionSort, List.mem_append]
  constructor
  · rintro ⟨⟨n, i⟩, ((h | h) | h) | h, rfl⟩ <;> exact ((one _ i).1 ⟨n, h⟩).2
  · intro h
    obtain ⟨n, hn⟩ := (one b b).2 ⟨rfl, h⟩
    refine ⟨(n, b), ?_, rfl⟩
    have : b = 0 ∨ b = 1 ∨ b = 2 ∨ b = 3 := by omega
    rcases this with rfl | rfl | rfl | rfl
    · exact Or.inl (Or.inl (Or.inl hn))
    · exact Or.inl (Or.inl (Or.inr hn))
    · exact Or.inl (Or.inr hn)
    · exact Or.inr hn

/-- Freeing buffers frees those of the list and no other. -/
theorem Ctl.freeRx_get (l : List (Fin 4)) (c : Ctl) (b : Fin 4) :
    (l.foldl (fun c b => c.setRx b .free) c).rx.get b = if b ∈ l then .free else c.rx.get b := by
  induction l generalizing c with
  | nil => rfl
  | cons x l ih =>
    rw [List.foldl_cons, ih]
    by_cases hx : b = x
    · subst hx
      by_cases hb : b ∈ l <;> simp [hb, Ctl.setRx]
    · simp [hx, Ctl.setRx, vput_get_other _ _ _ _ hx]

end Sys2Proof.Machine
end

