-- ==== Sys2Proof/Laws/Releases.lean ====
section
/-!
SUPPORT. What an own release does (R52): the entries it removes, the Extent Table entries it settles and lets go, the EXTENT
frames it withdraws and the copy jobs it cancels.
-/

namespace Sys2Proof.Machine

/-- Removing an entry leaves every other one, whether or not it was there. -/
theorem Ctl.remove_filter (c : Ctl) (id : PageId) : (c.remove id).dir = c.dir.filter (fun y => y.id != id) := by
  cases he : c.entry id with
  | some e => exact remove_dir c id e he
  | none =>
    have hn : ∀ y ∈ c.dir, y.id ≠ id := fun y hy h => by
      have := List.find?_eq_none.1 he y hy
      simp [h] at this
    unfold Ctl.remove
    rw [he]
    exact (List.filter_eq_self.2 (fun y hy => by simpa using hn y hy)).symm

/-- Removing several entries leaves every other one, and touches only what `remove_shape` names. -/
theorem Ctl.removeAll_spec (l : List PageId) (c : Ctl) :
    (l.foldl Ctl.remove c).dir = c.dir.filter (fun y => !l.contains y.id) ∧
    (l.foldl Ctl.remove c).et = c.et ∧ (l.foldl Ctl.remove c).owed = c.owed ∧ (l.foldl Ctl.remove c).tx = c.tx ∧
    (l.foldl Ctl.remove c).jobs = c.jobs ∧ (l.foldl Ctl.remove c).rx = c.rx := by
  induction l generalizing c with
  | nil => exact ⟨by simp, rfl, rfl, rfl, rfl, rfl⟩
  | cons i l ih =>
    obtain ⟨h1, h2, h3, h4, h5, h6⟩ := ih (c.remove i)
    simp only [List.foldl_cons]
    refine ⟨?_, by rw [h2]; simp, by rw [h3]; simp, by rw [h4]; simp, by rw [h5]; simp, by rw [h6]; simp⟩
    rw [h1, Ctl.remove_filter, List.filter_filter]
    congr 1
    funext y
    rw [List.contains_cons, Bool.not_or, Bool.and_comm]
    rfl

/-- The head of a released page leaves the table, and the directory does not change. -/
theorem Ctl.leaveTable_absent {c : Ctl} {k : Env} {x : ETEntry} (rest : List ETEntry)
    (h : c.ownEntry k x.seq = none) :
    (c.leaveTable k x rest).dir = c.dir ∧ (c.leaveTable k x rest).et = rest ∧ (c.leaveTable k x rest).owed = c.owed ∧
    (c.leaveTable k x rest).tx = c.tx ∧ (c.leaveTable k x rest).jobs = c.jobs ∧ (c.leaveTable k x rest).rx = c.rx := by
  have hne : ∀ y ∈ c.dir, y.id ≠ ownId k x.seq := fun y hy he => by
    have := List.find?_eq_none.1 h y hy
    simp [he] at this
  unfold Ctl.leaveTable
  dsimp only
  generalize hd : Ctl.hand { c with et := rest, frontier := .extent x.seq x.ext } .frontier = d
  have h0 : d.dir = c.dir ∧ d.et = rest ∧ d.owed = c.owed ∧ d.tx = c.tx ∧ d.jobs = c.jobs ∧ d.rx = c.rx := by
    rw [← hd]; exact ⟨rfl, rfl, rfl, rfl, rfl, rfl⟩
  split
  · exact h0
  · have hu : (d.update k (ownId k x.seq) id).dir = c.dir := by
      rw [Ctl.update_dir, h0.1]
      conv_rhs => rw [← List.map_id c.dir]
      exact List.map_congr_left (fun y hy => by rw [if_neg (hne y hy)]; rfl)
    have hdrop : (d.update k (ownId k x.seq) id).dropTargets k x.seq = d.update k (ownId k x.seq) id := by
      unfold Ctl.dropTargets
      rw [show (d.update k (ownId k x.seq) id).ownEntry k x.seq = none from (Ctl.entry_congr hu _).trans h]
    rw [hdrop]
    exact ⟨hu, by simpa using h0.2.1, by simpa using h0.2.2.1, by simpa using h0.2.2.2.1, by simpa using h0.2.2.2.2.1,
      by simpa using h0.2.2.2.2.2⟩

/-- The table judged from its head while every entry is unsettled, or RELEASED with its page gone: the leading RELEASED
entries leave, and nothing else of the directory, the queue or the jobs changes (R125, R126). -/
theorem Ctl.judgeHeads_released (k : Env) : ∀ (n : Nat) (c : Ctl), c.et.length ≤ n →
    (∀ x ∈ c.et, x.settled = .none ∨ x.settled = .released ∧ c.ownEntry k x.seq = none) →
    (c.judgeHeads k n).dir = c.dir ∧ (c.judgeHeads k n).et = c.et.dropWhile (fun x => decide (x.settled = .released)) ∧
    (c.judgeHeads k n).owed = c.owed ∧ (c.judgeHeads k n).tx = c.tx ∧ (c.judgeHeads k n).jobs = c.jobs ∧
    (c.judgeHeads k n).rx = c.rx := by
  intro n
  induction n with
  | zero =>
    intro c hl _
    have : c.et = [] := List.length_eq_zero_iff.1 (by omega)
    exact ⟨rfl, by simp [Ctl.judgeHeads, this], rfl, rfl, rfl, rfl⟩
  | succ n ih =>
    intro c hl hx
    unfold Ctl.judgeHeads
    cases het : c.et with
    | nil => exact ⟨rfl, by simp [het], rfl, rfl, rfl, rfl⟩
    | cons x rest =>
      dsimp only
      rcases hx x (by simp [het]) with h | ⟨h, ha⟩
      · rw [if_neg (by simp [Ctl.headLeaves, h])]
        exact ⟨rfl, by simp [het, h], rfl, rfl, rfl, rfl⟩
      · rw [if_pos (by simp [Ctl.headLeaves, h])]
        obtain ⟨h1, h2, h3, h4, h5, h6⟩ := Ctl.leaveTable_absent rest ha
        obtain ⟨g1, g2, g3, g4, g5, g6⟩ := ih (c.leaveTable k x rest) (by rw [h2]; simp [het] at hl; omega) (by
          intro y hy
          rw [h2] at hy
          rcases hx y (by simp [het, hy]) with h' | ⟨h', ha'⟩
          · exact Or.inl h'
          · exact Or.inr ⟨h', (Ctl.entry_congr h1 _).trans ha'⟩)
        exact ⟨g1.trans h1, by rw [g2, h2]; simp [h], g3.trans h3, g4.trans h4, g5.trans h5,
          g6.trans h6⟩

/-- No entry that waits, and no held request, satisfies a test that frames were withdrawn by (R87). -/
theorem Tx.withdraw_none (t : Tx) (p : TxBody → Bool) :
    (∀ x ∈ (t.withdraw p).entries, x.sending = false → p x.body = false) ∧ (∀ b ∈ (t.withdraw p).held, p b = false) := by
  refine ⟨fun x hx hs => ?_, fun b hb => ?_⟩
  · obtain ⟨y, hy, rfl⟩ := List.mem_map.1 hx
    have hy' := (List.mem_filter.1 hy).2
    by_cases hp : p y.body = true
    · rw [if_pos hp] at hs
      simp only at hs
      simp [hs, hp] at hy'
    · rw [if_neg hp]
      simpa using hp
  · simpa using (List.mem_filter.1 hb).2

/-- Nothing of the job in a slot waits to be sent: no COPY of it stands WAITING or held, and none is owed (R149). -/
def Ctl.copyGone (c : Ctl) (slot : Fin 2) : Prop :=
  (∀ x ∈ c.tx.entries, x.sending = false → x.body.isCopyOf slot = false) ∧
  (∀ b ∈ c.tx.held, b.isCopyOf slot = false) ∧ ∀ i, c.jobs.get slot = some i → i.owed = false

theorem Ctl.copyGone.withdraw {c : Ctl} {slot : Fin 2} (h : c.copyGone slot) (p : TxBody → Bool) :
    (c.onTx (fun t => t.withdraw p)).copyGone slot := by
  refine ⟨fun x hx hs => ?_, fun b hb => h.2.1 b (List.mem_filter.1 hb).1, h.2.2⟩
  obtain ⟨y, hy, rfl⟩ := List.mem_map.1 hx
  have hm := (List.mem_filter.1 hy).1
  split
  · rename_i hp
    rw [if_pos hp] at hs
    exact h.1 y hm hs
  · rename_i hp
    rw [if_neg hp] at hs
    exact h.1 y hm hs

theorem Ctl.copyGone.setJob {c : Ctl} {slot : Fin 2} (h : c.copyGone slot) (t : Fin 2) (j : Option Job)
    (hj : t = slot → ∀ i, j = some i → i.owed = false) : (c.setJob t j).copyGone slot := by
  refine ⟨h.1, h.2.1, fun i hi => ?_⟩
  by_cases ht : slot = t
  · subst ht
    exact hj rfl i ((vput_get_same ..).symm.trans hi)
  · exact h.2.2 i ((vput_get_other _ _ _ _ ht).symm.trans hi)

/-- A job that closes leaves nothing waiting to be sent. -/
theorem Ctl.closeJob_copyGone {c : Ctl} {slot : Fin 2} {j : Job} (hj : c.jobs.get slot = some j) :
    (c.closeJob slot).copyGone slot := by
  have hw := Tx.withdraw_none c.tx (fun b => b.isCopyOf slot)
  unfold Ctl.closeJob
  rw [hj]
  dsimp only
  split
  · exact ⟨hw.1, hw.2, fun i hi => by
      have := (vput_get_same ..).symm.trans hi
      cases this
      rfl⟩
  · exact ⟨hw.1, hw.2, fun i hi => by
      have := (vput_get_same ..).symm.trans hi
      cases this⟩

theorem Ctl.copyGone.closeJob {c : Ctl} {slot : Fin 2} (h : c.copyGone slot) (t : Fin 2) (ht : t ≠ slot) :
    (c.closeJob t).copyGone slot := by
  unfold Ctl.closeJob
  split
  · exact h
  · dsimp only
    split <;> exact (h.withdraw _).setJob _ _ (fun e => absurd e ht)

theorem Ctl.copyGone.cancelJob {c : Ctl} {slot : Fin 2} (h : c.copyGone slot) (t : Fin 2) (ht : t ≠ slot) :
    (c.cancelJob t).copyGone slot := by
  unfold Ctl.cancelJob
  split
  · exact h
  · split
    · exact h.setJob _ _ (fun e => absurd e ht)
    · exact h.closeJob t ht
    · exact h.closeJob t ht

theorem Ctl.copyGone.requestCopy {c : Ctl} {slot : Fin 2} (h : c.copyGone slot) (t : Fin 2) (ht : t ≠ slot) :
    (c.requestCopy t).copyGone slot := by
  unfold Ctl.requestCopy
  split
  · exact h
  · split
    · exact h.setJob _ _ (fun e => absurd e ht)
    · rename_i j _ _
      have h' := h.setJob t (some { j with state := .queued, owed := false, timer := none, attempts := j.attempts + 1 })
        (fun e => absurd e ht)
      have hb : TxBody.isCopyOf (.copy j.page j.target t) slot = false := by simpa [TxBody.isCopyOf] using ht
      refine ⟨fun x hx hs => ?_, fun b hx => ?_, h'.2.2⟩
      · unfold Ctl.onTx Tx.request at hx
        dsimp only at hx
        split at hx
        · exact h'.1 x hx hs
        · rcases List.mem_append.1 hx with hx | hx
          · exact h'.1 x hx hs
          · cases List.mem_singleton.1 hx
            exact hb
      · unfold Ctl.onTx Tx.request at hx
        dsimp only at hx
        split at hx
        · rcases List.mem_append.1 hx with hx | hx
          · exact h'.2.1 b hx
          · cases List.mem_singleton.1 hx
            exact hb
        · exact h'.2.1 b hx

/-- The COPY of each job that is cancelled with no read outstanding is withdrawn (R149). -/
theorem cancelJobs_copies {c : Ctl} {p : Job → Bool} {slot : Fin 2} {j : Job} (hj : c.jobs.get slot = some j)
    (hp : p j = true) (hn : j.cancelled = false) (hs : j.state ≠ .reading) : (c.cancelJobs p).copyGone slot := by
  have first (d : Ctl) (hd : d.jobs.get slot = some j) : (match d.jobs.get slot with
      | some j => if p j && !j.cancelled then d.cancelJob slot else d
      | none => d).copyGone slot := by
    rw [hd]
    dsimp only
    rw [hp, hn, if_pos (show (true && !false) = true from rfl)]
    unfold Ctl.cancelJob
    rw [hd]
    dsimp only
    split
    · rename_i h; exact absurd h hs
    · exact Ctl.closeJob_copyGone hd
    · exact Ctl.closeJob_copyGone hd
  have later (d : Ctl) (h : d.copyGone slot) (t : Fin 2) (ht : t ≠ slot) : (match d.jobs.get t with
      | some j => if p j && !j.cancelled then d.cancelJob t else d
      | none => d).copyGone slot := by
    split
    · split
      · exact h.cancelJob t ht
      · exact h
    · exact h
  have kept (d : Ctl) (hd : d.jobs.get slot = some j) (t : Fin 2) (ht : slot ≠ t) : (match d.jobs.get t with
      | some j => if p j && !j.cancelled then d.cancelJob t else d
      | none => d).jobs.get slot = some j := by
    split
    · split
      · rw [(cancelJob_target (c := d) t).1 slot ht]; exact hd
      · exact hd
    · exact hd
  have resume (d : Ctl) (h : d.copyGone slot) : (d.resumeCopies c.tx).copyGone slot := by
    have one (d : Ctl) (h : d.copyGone slot) (t : Fin 2) : (match d.jobs.get t with
        | some j => if j.owed && !d.tx.held.any TxBody.isAnyCopy then d.requestCopy t else d
        | none => d).copyGone slot := by
      split
      · rename_i i hi
        split
        · rename_i ho
          refine h.requestCopy t (fun e => ?_)
          subst e
          simp [h.2.2 i hi] at ho
        · exact h
      · exact h
    unfold Ctl.resumeCopies
    split
    · exact one _ (one d h 0) 1
    · exact h
  unfold Ctl.cancelJobs
  refine resume _ ?_
  have hsl : slot = 0 ∨ slot = 1 := by omega
  rcases hsl with rfl | rfl
  · exact later _ (first c hj) 1 (by decide)
  · exact first _ (kept c hj 0 (by decide))

/-- An own release (R52), while every entry of the table above the mark is unsettled. -/
theorem ownRelease_spec {c : Ctl} {k : Env} {m : Word} (hs : ∀ x ∈ c.et, m < x.seq → x.settled = .none) :
    (c.ownRelease k m).dir = c.dir.filter (fun e => !(decide (e.id.origin = k.me) && decide (e.id.seq ≤ m))) ∧
    (c.ownRelease k m).et =
      (c.et.map (fun x => if x.seq ≤ m then { x with settled := .released, timer := none } else x)).dropWhile
        (fun x => decide (x.settled = .released)) ∧
    (c.ownRelease k m).owed = c.owed.filter (fun w => !decide (w.seq ≤ m)) ∧
    (∀ x ∈ (c.ownRelease k m).tx.entries, x.sending = false → ∀ seq i mask src, x.body = .extent seq i mask src →
      m < seq) ∧
    (∀ b ∈ (c.ownRelease k m).tx.held, ∀ seq i mask src, b = .extent seq i mask src → m < seq) ∧
    (∀ (slot : Fin 2) j, (c.ownRelease k m).jobs.get slot = some j → j.page.origin = k.me → j.page.seq ≤ m →
      j.cancelled = true) ∧
    (∀ (slot : Fin 2) j, c.jobs.get slot = some j → j.page.origin = k.me → j.page.seq ≤ m → j.cancelled = false →
      j.state ≠ .reading → (c.ownRelease k m).copyGone slot) ∧
    (c.ownRelease k m).rx = c.rx := by
  unfold Ctl.ownRelease
  dsimp only
  generalize hl : (c.dir.filter (fun e => decide (e.id.origin = k.me) && decide (e.id.seq ≤ m))).map (·.id) = l
  obtain ⟨a1, a2, a3, a4, a5, a6⟩ := Ctl.removeAll_spec l { c with ownMark := m }
  generalize hd : l.foldl Ctl.remove { c with ownMark := m } = d at a1 a2 a3 a4 a5 a6
  generalize hP : (fun j : Job => decide (j.page.origin = k.me) && decide (j.page.seq ≤ m)) = P
  have hall := cancelJobs_all (d.settleReleased m) P (fun j x o n => by rw [← hP])
  have hcop (slot : Fin 2) (j : Job) (hj : c.jobs.get slot = some j) (hp : P j = true) (hn : j.cancelled = false)
      (hst : j.state ≠ .reading) : ((d.settleReleased m).cancelJobs P).copyGone slot :=
    cancelJobs_copies (show d.jobs.get slot = some j by rw [a5]; exact hj) hp hn hst
  obtain ⟨t, js, hcj⟩ := Ctl.cancelJobs_shape (d.settleReleased m) P
  rw [hcj] at hall hcop ⊢
  generalize hW : (fun b : TxBody => (match b with
    | .extent s _ _ _ => decide (s ≤ m)
    | .presence _ => false
    | .answer _ => false
    | .holdings _ => false
    | .copy _ _ _ => false : Bool)) = W
  generalize he : Ctl.onTx { d.settleReleased m with tx := t, jobs := js } (fun t => t.withdraw W) = e
  have e1 : e.dir = c.dir.filter (fun e => !(decide (e.id.origin = k.me) && decide (e.id.seq ≤ m))) := by
    rw [← he]
    show d.dir = _
    rw [a1]
    refine List.filter_congr (fun y hy => ?_)
    congr 1
    rw [← hl, Bool.eq_iff_iff, List.contains_iff_mem]
    simp only [List.mem_map, List.mem_filter, Bool.and_eq_true, decide_eq_true_eq]
    constructor
    · rintro ⟨z, ⟨-, hz⟩, hzy⟩
      rwa [hzy] at hz
    · exact fun h => ⟨y, ⟨hy, h⟩, rfl⟩
  have e2 : e.et = c.et.map (fun x => if x.seq ≤ m then { x with settled := .released, timer := none } else x) := by
    rw [← he]
    show d.et.map _ = _
    rw [a2]
  have e3 : e.owed = c.owed.filter (fun w => !decide (w.seq ≤ m)) := by
    rw [← he]
    show d.owed.filter _ = _
    rw [a3]
  have e4 : e.tx = t.withdraw W := by rw [← he]; rfl
  have e5 : e.jobs = js := by rw [← he]; rfl
  have e6 : e.rx = c.rx := by rw [← he]; exact a6
  have hj := Ctl.judgeHeads_released k e.et.length e le_rfl (by
    intro x hx
    rw [e2] at hx
    obtain ⟨y, hy, rfl⟩ := List.mem_map.1 hx
    by_cases h : y.seq ≤ m
    · rw [if_pos h]
      refine Or.inr ⟨rfl, ?_⟩
      show e.entry (ownId k y.seq) = none
      unfold Ctl.entry
      rw [e1, List.find?_eq_none]
      intro z hz hzy
      have hz' := (List.mem_filter.1 hz).2
      have hid : z.id = ownId k y.seq := by simpa using hzy
      rw [hid] at hz'
      simp [ownId, h] at hz'
    · rw [if_neg h]
      refine Or.inl (hs y hy ?_)
      rw [BitVec.lt_def]
      rw [BitVec.le_def] at h
      omega)
  obtain ⟨b1, b2, b3, b4, b5, b6⟩ := hj
  have hw := Tx.withdraw_none t W
  have hwm : ∀ b, W b = false → ∀ seq i mask src, b = .extent seq i mask src → m < seq := by
    rintro b hb seq i mask src rfl
    rw [← hW] at hb
    simp only [decide_eq_false_iff_not] at hb
    rw [BitVec.lt_def]
    rw [BitVec.le_def] at hb
    omega
  refine ⟨b1.trans e1, b2.trans (by rw [e2]), b3.trans e3, ?_, ?_, ?_, ?_, b6.trans e6⟩
  · intro x hx hsx
    rw [show Ctl.judge e k = e.judgeHeads k e.et.length from rfl, b4, e4] at hx
    exact hwm _ (hw.1 x hx hsx)
  · intro b hb
    rw [show Ctl.judge e k = e.judgeHeads k e.et.length from rfl, b4, e4] at hb
    exact hwm _ (hw.2 b hb)
  · intro slot j hjj ho hq
    rw [show Ctl.judge e k = e.judgeHeads k e.et.length from rfl, b5, e5] at hjj
    rcases hall slot j hjj with h | h
    · rw [← hP] at h
      simp [ho, hq] at h
    · exact h
  · intro slot j hjj ho hq hn hst
    have h := (hcop slot j hjj (by rw [← hP]; simp [ho, hq]) hn hst).withdraw W
    rw [he] at h
    unfold Ctl.copyGone
    rw [show Ctl.judge e k = e.judgeHeads k e.et.length from rfl, b4, b5]
    exact h

end Sys2Proof.Machine
end

