-- ==== Sys2Proof/Laws/Refusals.lean ====
section
/-!
SUPPORT. What the refusal of an own relocation allocation does (R116), while no station is there to take the page's places.
-/

namespace Sys2Proof.Machine

/-- What becomes of the blocks when a page becomes DEAD depends on the blocks alone (R49). -/
theorem killPage_blocks_congr {c d : Ctl} (h : c.blocks = d.blocks) (a : PageAddr) :
    (c.killPage a).blocks = (d.killPage a).blocks := by
  have hb : c.block a.block = d.block a.block := by simp [Ctl.block, h]
  unfold Ctl.killPage
  rw [hb]
  split
  · exact h
  · split
    · dsimp only
      split
      · split <;> simp [Ctl.setBlock, h, Ctl.enter]
      · simp [Ctl.setBlock, h]
    · exact h

/-- No place of one kind stands in any of the entries. -/
theorem mostPlaces_zero {l : List ETEntry} {p : Place → Bool} (h : ∀ x ∈ l, ∀ z ∈ x.places, p z = false) :
    mostPlaces l p = 0 := by
  have key : ∀ (l : List ETEntry) (m : Nat), (∀ x ∈ l, ∀ z ∈ x.places, p z = false) →
      l.foldl (fun m x => max m (countOf p x.places)) m = m := by
    intro l
    induction l with
    | nil => intro m _; rfl
    | cons x l ih =>
      intro m h
      have hx : countOf p x.places = 0 := by
        unfold countOf
        rw [List.filter_eq_nil_iff.2 (fun z hz => by simp [h x (by simp) z hz])]
        rfl
      rw [List.foldl_cons, hx, Nat.max_zero]
      exact ih m (fun y hy => h y (by simp [hy]))
  exact key l 0 h

/-- A page whose assigned places are all taken, and for whose extra place no station can be had, stays as it is (R122). -/
theorem Ctl.fillPlaces_idle {c : Ctl} {k : Env} {seq : Word} {e : Entry} (he : c.ownEntry k seq = some e)
    (hx : e.extra = none) (hs : c.substitute k e = none)
    (hp : ∀ y ∈ c.et, y.seq = seq → ∀ z ∈ y.places, z.extra = false → z.wants = false) :
    c.fillPlaces k seq false = c := by
  have hu : ∀ y ∈ c.unsettledOf seq, ∀ z ∈ y.places, z.extra = false → z.wants = false := fun y hy => by
    have := List.mem_filter.1 hy
    exact hp y this.1 (by simpa using (Bool.and_eq_true_iff.1 this.2).1)
  have hw : mostPlaces (c.unsettledOf seq) (fun p => !p.extra && (p.isDropped || (false && p.isEmpty))) = 0 := by
    refine mostPlaces_zero (fun y hy z hz => ?_)
    cases h : z.extra with
    | true => rfl
    | false =>
      have := hu y hy z hz h
      simp only [Place.wants, Bool.or_eq_false_iff] at this
      simp [this.2]
  have hextra : c.addExtraTarget k seq = c := by
    unfold Ctl.addExtraTarget
    rw [he]
    dsimp only
    split
    · rw [hs]
    · rfl
  have hplace : ∀ l : List Station, l.foldl (fun c t => c.placeAndBringUp k seq false t) c = c := by
    intro l
    induction l with
    | nil => rfl
    | cons t l ih =>
      have : c.placeAndBringUp k seq false t = c := by
        unfold Ctl.placeAndBringUp
        rw [if_neg]
        simp only [List.any_eq_true, Bool.and_eq_true, decide_eq_true_eq, not_exists, not_and]
        intro y hy hl z hz hze
        simp [hu y hy z hz hze]
      rw [List.foldl_cons, this]
      exact ih
  unfold Ctl.fillPlaces
  rw [he]
  dsimp only
  rw [hw, Nat.zero_min]
  unfold Ctl.addSubstitutes
  rw [hextra, he]
  dsimp only
  rw [hplace, hx]

/-- No substitute is to be had, whatever the directory and the blocks have become. -/
theorem Ctl.substitute_none {c d : Ctl} {k : Env} {e f : Entry} (ho : e.id.origin = k.me) (hp : d.peers = c.peers)
    (hi : f.id = e.id) (ht : f.targets = e.targets) (hx : f.extra = e.extra) (hl : f.excluded = e.excluded)
    (h : c.substitute k e = none) : d.substitute k f = none := by
  unfold Ctl.substitute at h ⊢
  rw [List.find?_eq_none] at h ⊢
  intro s hs
  rw [hi] at hs
  have hne : s ≠ k.me := by
    rw [ho] at hs
    intro heq
    subst heq
    revert hs
    generalize k.me = i
    revert i
    decide
  have := h s hs
  simpa [Ctl.countsPresent, Ctl.countsFull, hne, hp, ht, hx, hl] using this

/-- A table whose entries are all unsettled keeps them. -/
theorem Ctl.judge_unsettled {c : Ctl} (k : Env) (h : ∀ y ∈ c.et, y.settled = .none) : c.judge k = c := by
  unfold Ctl.judge
  cases het : c.et with
  | nil => simp [Ctl.judgeHeads]
  | cons x rest =>
    simp only [List.length_cons, Ctl.judgeHeads, het]
    rw [if_neg (by simp [Ctl.headLeaves, h x (by simp [het])])]

/-- An APPEND in its data phase ends PROGRAM-FAIL when the page it fills fails (R116, R163); no other use of the port
changes. -/
theorem Ctl.failAppend_spec {c : Ctl} {b : Fin 2} {p : FillPage} (hb : c.fill.get b = some p) :
    ∃ (fill : Vector (Option FillPage) 2) (port : Port) (q : FillPage), c.failAppend b = { c with fill := fill, port := port } ∧
      fill.get b = some q ∧ q.formed = p.formed ∧ q.used = p.used ∧
      (∀ x i, c.port.act = .appendData x i →
        port = { c.port with act := .idle, result := [ResultCode.programFail.byte], resultPos := 0,
                             lastResult := ResultCode.programFail.byte }) ∧
      ((∀ x i, c.port.act ≠ .appendData x i) → port = c.port) := by
  unfold Ctl.failAppend
  split
  · rename_i x i h
    rw [hb]
    exact ⟨_, _, p.cleared, rfl, by simp, rfl, rfl, fun _ _ _ => rfl, fun hn => absurd h (hn x i)⟩
  all_goals
    rename_i h
    refine ⟨_, _, p, rfl, hb, rfl, rfl, fun x i h' => ?_, fun _ => rfl⟩
    rw [h] at h'
    cases h'

/-- The refusal of an own relocation allocation (R116) for a page with no unflushed slots, while every entry of the table is
unsettled, every place of the page holds a live record that waits for no catch-up, and no station is to be had. -/
theorem ownRefused_spec {c : Ctl} {k : Env} {seq : Word} {say : Bool} {e : Entry} {b : Fin 2} {p : FillPage}
    (he : c.ownEntry k seq = some e) (hf : c.fillOf seq = some (b, p))
    (hc : e.closed = true ∨ p.formed = p.used)
    (hy : ∀ y ∈ c.et, y.settled = .none ∧ (y.seq = seq → ∀ z ∈ y.places, z.extra = false ∧
      ∃ t, z.target = some t ∧ t.state ≠ .dropped ∧ t.state ≠ .awaitingCopy))
    (hx : e.extra = none) (hs : c.substitute k e = none) :
    let d := c.ownRefused k seq say
    d.et = c.et.map (fun y => if y.seq = seq ∧ y.prog = .pending then
      { y with prog := .failed, places := y.places ++ [{ extra := true, target := none }] } else y) ∧
    d.tx = (if say then c.tx.answer (droppedAnswer (ownId k seq) e.known (e.ownDepth k)) else c.tx) ∧
    d.owed = c.owed ∧ d.rx = c.rx ∧
    (∃ e', d.ownEntry k seq = some e' ∧ e'.localPage = (if e.ownDepth k = 0 then none else e.localPage) ∧
      e'.closed = true ∧ e'.pendingExt = none ∧ e'.relocPage = e.relocPage) ∧
    (∀ ext x, c.port.act = .flushWait seq ext → c.etEntry seq ext = some x → x.prog ≠ .programmed →
      d.port = { c.port with act := .idle, result := [ResultCode.programFail.byte], resultPos := 0,
                             lastResult := ResultCode.programFail.byte }) ∧
    (∀ x i, c.port.act = .appendData x i → e.closed = false →
      d.port = { c.port with act := .idle, result := [ResultCode.programFail.byte], resultPos := 0,
                             lastResult := ResultCode.programFail.byte }) := by
  intro d
  have hid : e.id = ownId k seq := Ctl.entry_id he
  -- the page's entry
  let F : Entry → Entry := fun x => { x with pendingExt := none, localPage := if e.ownDepth k = 0 then none else x.localPage,
                                             copyEnd := if e.ownDepth k = 0 then 0 else x.copyEnd }
  obtain ⟨u1, h1⟩ := Ctl.update_formed (k := k) F (fun _ => rfl) he
  generalize hc1 : c.update k (ownId k seq) F = c1 at h1
  have a1 : c1.et = c.et ∧ c1.tx = c.tx ∧ c1.owed = c.owed ∧ c1.rx = c.rx ∧ c1.port = c.port ∧ c1.fill = c.fill ∧
      c1.peers = c.peers := by
    rw [← hc1]; simp
  -- a copy of no extents is given up
  generalize hc2 : (if e.ownDepth k = 0 then (c1.killPages [e.localPage]).loseSource k seq else c1) = c2
  have a2 : c2.et = c.et ∧ c2.tx = c.tx ∧ c2.owed = c.owed ∧ c2.rx = c.rx ∧ c2.port = c.port ∧ c2.fill = c.fill ∧
      c2.peers = c.peers ∧ c2.dir = c1.dir := by
    rw [← hc2]
    split
    · have hk : (c1.killPages [e.localPage]).et = c.et := by simp [a1.1]
      refine ⟨?_, by simpa [Ctl.loseSource, Ctl.onPageEntries] using a1.2.1,
        by simpa [Ctl.loseSource, Ctl.onPageEntries] using a1.2.2.1,
        by simpa [Ctl.loseSource, Ctl.onPageEntries] using a1.2.2.2.1,
        by simpa [Ctl.loseSource, Ctl.onPageEntries] using a1.2.2.2.2.1,
        by simpa [Ctl.loseSource, Ctl.onPageEntries] using a1.2.2.2.2.2.1,
        by simpa [Ctl.loseSource, Ctl.onPageEntries] using a1.2.2.2.2.2.2, by simp [Ctl.loseSource, Ctl.onPageEntries]⟩
      unfold Ctl.loseSource Ctl.onPageEntries
      dsimp only
      rw [hk]
      conv_rhs => rw [← List.map_id c.et]
      refine List.map_congr_left (fun y hyy => ?_)
      split
      · rename_i hys
        have : y.places.map (fun p => ({ p with target := p.target.map (fun r =>
            if decide (r.state = .awaitingCopy) && !(c1.killPages [e.localPage]).catchingUp (ownId k seq) r.station
            then { r with state := .sourceless } else r) } : Place)) = y.places := by
          conv_rhs => rw [← List.map_id y.places]
          refine List.map_congr_left (fun z hz => ?_)
          obtain ⟨-, t, ht, -, htc⟩ := (hy y hyy).2 hys z hz
          obtain ⟨ze, zt⟩ := z
          dsimp only at ht
          subst ht
          simp [htc]
        show ETEntry.onRecords y _ = y
        unfold ETEntry.onRecords
        rw [this]
      · rfl
    · exact ⟨a1.1, a1.2.1, a1.2.2.1, a1.2.2.2.1, a1.2.2.2.2.1, a1.2.2.2.2.2.1, a1.2.2.2.2.2.2, rfl⟩
  -- the PENDING entries are FAILED
  have hE : c2.et.map (fun x => if x.seq = seq then
        (if x.prog = .pending then { x with prog := .failed }.withExtra else x) else x) =
      c.et.map (fun y => if y.seq = seq ∧ y.prog = .pending then
        { y with prog := .failed, places := y.places ++ [{ extra := true, target := none }] } else y) := by
    rw [a2.1]
    refine List.map_congr_left (fun y hyy => ?_)
    by_cases h1 : y.seq = seq
    · by_cases h2 : y.prog = .pending
      · rw [if_pos h1, if_pos h2, if_pos ⟨h1, h2⟩]
        unfold ETEntry.withExtra
        rw [if_neg]
        simp only [Bool.not_eq_true, List.any_eq_false]
        exact fun z hz => by simp [((hy y hyy).2 h1 z hz).1]
      · rw [if_pos h1, if_neg h2, if_neg (fun h => h2 h.2)]
    · rw [if_neg h1, if_neg (fun h => h1 h.1)]
  generalize hG : c.et.map (fun y => if y.seq = seq ∧ y.prog = .pending then
        ({ y with prog := .failed, places := y.places ++ [{ extra := true, target := none }] } : ETEntry) else y) = G at hE
  generalize hc3 : c2.onPageEntries seq (fun x => if x.prog = .pending then { x with prog := .failed }.withExtra else x) = c3
  have a3 : c3 = { c2 with et := G } := by rw [← hc3, ← hE]; rfl
  -- DROPPED is said
  generalize hT : (if say then c.tx.answer (droppedAnswer (ownId k seq) e.known (e.ownDepth k)) else c.tx) = T
  generalize hc4 : (if say then c3.answer (droppedAnswer (ownId k seq) e.known (e.ownDepth k)) else c3) = c4
  have a4 : c4 = { c2 with et := G, tx := T } := by
    rw [← hc4, ← hT, a3]
    split
    · show ({ c2 with et := G, tx := c2.tx.answer _ } : Ctl) = _
      rw [a2.2.1]
    · rw [← a2.2.1]
  -- a FLUSH is answered
  obtain ⟨p5, a5⟩ := Ctl.answerFlush_shape c4 seq
  have hflush : ∀ ext x, c.port.act = .flushWait seq ext → c.etEntry seq ext = some x → x.prog ≠ .programmed →
      p5 = { c.port with act := .idle, result := [ResultCode.programFail.byte], resultPos := 0,
                         lastResult := ResultCode.programFail.byte } := by
    intro ext x ha hex hpx
    have hp4 : c4.port = c.port := by rw [a4]; exact a2.2.2.2.2.1
    have hent : ∃ y, c4.etEntry seq ext = some y ∧ y.prog = .failed := by
      refine ⟨if x.seq = seq ∧ x.prog = .pending then
        { x with prog := .failed, places := x.places ++ [{ extra := true, target := none }] } else x, ?_, ?_⟩
      · unfold Ctl.etEntry at hex ⊢
        rw [show c4.et = G by rw [a4], ← hG, List.find?_map]
        rw [show ((fun x : ETEntry => x.seq == seq && x.ext == ext) ∘ fun y : ETEntry => if y.seq = seq ∧ y.prog = .pending then
            ({ y with prog := .failed, places := y.places ++ [{ extra := true, target := none }] } : ETEntry) else y) =
            (fun x : ETEntry => x.seq == seq && x.ext == ext) from by
          funext y
          simp only [Function.comp]
          split <;> rfl]
        rw [hex]
        rfl
      · have hk := List.find?_some hex
        simp only [Bool.and_eq_true, beq_iff_eq] at hk
        by_cases h : x.prog = .pending
        · rw [if_pos ⟨hk.1, h⟩]
        · rw [if_neg (fun hh => h hh.2)]
          cases hpr : x.prog <;> simp_all
    obtain ⟨y, hy1, hy2⟩ := hent
    have h := congrArg Ctl.port a5
    unfold Ctl.answerFlush at h
    rw [hp4, ha] at h
    dsimp only at h
    rw [if_pos rfl, hy1] at h
    dsimp only at h
    rw [hy2] at h
    rw [← hp4]
    exact h.symm
  have hquiet : (∀ ext, c.port.act ≠ .flushWait seq ext) → p5 = c.port := by
    intro hn
    have hp4 : c4.port = c.port := by rw [a4]; exact a2.2.2.2.2.1
    have h := congrArg Ctl.port a5
    unfold Ctl.answerFlush at h
    rw [hp4] at h
    rw [← hp4]
    split at h
    · rename_i s' x' hact
      split at h
      · rename_i hh
        exact absurd (hh ▸ hact) (hn _)
      · exact h.symm
    all_goals exact h.symm
  -- the open page closes
  generalize hc5 : ({ c4 with port := p5 } : Ctl) = c5 at a5
  have hfo5 : c5.fillOf seq = some (b, p) := by
    refine (Ctl.fillOf_congr ?_ seq).trans hf
    rw [← hc5, a4]
    exact a2.2.2.2.2.2.1
  have hdir5 : c5.dir = c1.dir := by rw [← hc5, a4]; exact a2.2.2.2.2.2.2.2
  have hent5 : c5.ownEntry k seq = some { F e with under := u1 } := (Ctl.entry_congr hdir5 _).trans h1
  generalize hc6 : (if !e.closed then (c5.setFill b (some { p with failed := true })).closeFailed k seq b
    else c5.setFill b (some { p with failed := true })) = c6
  have h6 : c6.et = G ∧ c6.tx = T ∧ c6.owed = c.owed ∧ c6.rx = c.rx ∧ c6.peers = c.peers ∧
      (∃ e', c6.ownEntry k seq = some e' ∧ e'.localPage = (if e.ownDepth k = 0 then none else e.localPage) ∧
        e'.closed = true ∧ e'.pendingExt = none ∧ e'.relocPage = e.relocPage ∧ e'.extra = none ∧ e'.targets = e.targets ∧
        e'.excluded = e.excluded ∧ e'.id = e.id) ∧
      ((∀ x i, p5.act ≠ .appendData x i) → c6.port = p5) ∧
      (∀ x i, p5.act = .appendData x i → e.closed = false →
        c6.port = { p5 with act := .idle, result := [ResultCode.programFail.byte], resultPos := 0,
                            lastResult := ResultCode.programFail.byte }) := by
    have z5 : c5.et = G ∧ c5.tx = T ∧ c5.owed = c.owed ∧ c5.rx = c.rx ∧ c5.peers = c.peers ∧ c5.port = p5 := by
      rw [← hc5, a4]
      exact ⟨rfl, rfl, a2.2.2.1, a2.2.2.2.1, a2.2.2.2.2.2.2.1, rfl⟩
    cases hcl : e.closed with
    | true =>
      rw [hcl] at hc6
      simp only [Bool.not_true, Bool.false_eq_true, if_false] at hc6
      rw [← hc6]
      refine ⟨z5.1, z5.2.1, z5.2.2.1, z5.2.2.2.1, z5.2.2.2.2.1, ⟨{ F e with under := u1 }, hent5, rfl, hcl, rfl, rfl, hx, rfl,
        rfl, rfl⟩, fun _ => z5.2.2.2.2.2, fun _ _ _ h => by cases h⟩
    | false =>
      rw [hcl] at hc6
      simp only [Bool.not_false, if_true] at hc6
      obtain ⟨fl, pt, q, g1, g2, g3, g4, g5, g6⟩ := Ctl.failAppend_spec (c := c5.setFill b (some { p with failed := true }))
        (b := b) (p := { p with failed := true }) (by simp [Ctl.setFill])
      have hun : q.unflushed = false := by
        rcases hc with h | h
        · rw [hcl] at h; cases h
        · simp only [FillPage.unflushed, g3, g4, decide_eq_false_iff_not]
          show ¬ p.formed < p.used
          omega
      unfold Ctl.closeFailed at hc6
      rw [g1] at hc6
      dsimp only at hc6
      rw [g2] at hc6
      dsimp only at hc6
      rw [hun] at hc6
      simp only [Bool.false_eq_true, if_false] at hc6
      obtain ⟨u2, h2⟩ := Ctl.update_formed (k := k) (c := { c5.setFill b (some { p with failed := true }) with fill := fl, port := pt })
        (fun e => { e with closed := true }) (fun _ => rfl) hent5
      rw [← hc6]
      refine ⟨by simpa [Ctl.setFill] using z5.1, by simpa [Ctl.setFill] using z5.2.1, by simpa [Ctl.setFill] using z5.2.2.1,
        by simpa [Ctl.setFill] using z5.2.2.2.1, by simpa [Ctl.setFill] using z5.2.2.2.2.1,
        ⟨_, h2, rfl, rfl, rfl, rfl, hx, rfl, rfl, rfl⟩, fun hn => ?_, fun x i ha _ => ?_⟩
      · rw [Ctl.update_port]
        exact (g6 (by show ∀ x i, c5.port.act ≠ _; rw [z5.2.2.2.2.2]; exact hn)).trans z5.2.2.2.2.2
      · rw [Ctl.update_port]
        refine (g5 x i (by show c5.port.act = _; rw [z5.2.2.2.2.2]; exact ha)).trans ?_
        show ({ c5.port with act := _, result := _, resultPos := _, lastResult := _ } : Port) = _
        rw [z5.2.2.2.2.2]
  obtain ⟨b1, b2, b3, b4, b5, ⟨e', b6, b7, b8, b9, b10, b11, b12, b13, b14⟩, b15, b16⟩ := h6
  have hidle : c6.fillPlaces k seq false = c6 := by
    refine Ctl.fillPlaces_idle b6 b11 (Ctl.substitute_none (by rw [hid]; rfl) b5 b14 b12 (by rw [b11, hx]) b13 hs) ?_
    intro y hyy hys z hz hze
    rw [b1, ← hG] at hyy
    obtain ⟨w, hw, rfl⟩ := List.mem_map.1 hyy
    have live : ∀ z ∈ w.places, w.seq = seq → z.wants = false := by
      intro z hz hws
      obtain ⟨-, t, ht, htd, -⟩ := (hy w hw).2 hws z hz
      simp [Place.wants, Place.isEmpty, Place.isDropped, ht, htd]
    split at hz
    · rename_i h
      rcases List.mem_append.1 hz with hz | hz
      · exact live z hz h.1
      · cases List.mem_singleton.1 hz
        cases hze
    · rename_i h
      rw [if_neg h] at hys
      exact live z hz hys
  have hjudge : c6.judge k = c6 := by
    refine Ctl.judge_unsettled k (fun y hyy => ?_)
    rw [b1, ← hG] at hyy
    obtain ⟨w, hw, rfl⟩ := List.mem_map.1 hyy
    have := (hy w hw).1
    split <;> exact this
  have hd : d = c6.dropTargets k seq := by
    show c.ownRefused k seq say = _
    unfold Ctl.ownRefused
    rw [he]
    dsimp only
    dsimp only [F] at hc1
    rw [hc1, hc2, hc3, hc4, a5, hfo5]
    dsimp only
    rw [hc6, hidle, hjudge]
  have hdrop : d.et = c6.et ∧ d.tx = c6.tx ∧ d.owed = c6.owed ∧ d.rx = c6.rx ∧ d.port = c6.port ∧
      ∃ e'', d.ownEntry k seq = some e'' ∧ e''.localPage = e'.localPage ∧ e''.closed = e'.closed ∧
        e''.pendingExt = e'.pendingExt ∧ e''.relocPage = e'.relocPage := by
    rw [hd]
    rcases Ctl.dropTargets_cases c6 k seq with h | h <;> rw [h]
    · exact ⟨rfl, rfl, rfl, rfl, rfl, e', b6, rfl, rfl, rfl, rfl⟩
    · obtain ⟨u, hu⟩ := Ctl.update_formed (k := k) (fun e => { e with targets := [], extra := none, excluded := 0 })
        (fun _ => rfl) b6
      exact ⟨by simp, by simp, by simp, by simp, by simp, _, hu, rfl, rfl, rfl, rfl⟩
  obtain ⟨k1, k2, k3, k4, k5, e'', k6, k7, k8, k9, k10⟩ := hdrop
  refine ⟨k1.trans b1, k2.trans b2, k3.trans b3, k4.trans b4, ⟨e'', k6, k7.trans b7, k8.trans b8, k9.trans b9,
    k10.trans b10⟩, ?_, ?_⟩
  · intro ext x ha hex hpx
    have hp5 := hflush ext x ha hex hpx
    rw [k5, b15 (by rw [hp5]; exact fun _ _ h => by cases h), hp5]
  · intro x i ha hcl
    have hp5 := hquiet (by rw [ha]; exact fun _ h => by cases h)
    rw [k5, b16 x i (by rw [hp5]; exact ha) hcl, hp5]

end Sys2Proof.Machine
end

