-- ==== Sys2Proof/Laws/Reports.lean ====
section
/-!
SUPPORT. What a HOLDINGS frame does to the entries of its origin (R156), while no own extent becomes durable by it.
-/

namespace Sys2Proof.Machine

/-- Nothing is owed, no extent of the table is settled, and none is durable even with `t` counted. -/
def ReportQuiet (k : Env) (t : Station) (c : Ctl) : Prop :=
  c.owed = [] ∧ ∀ y ∈ c.et, y.settled = .none ∧ ∀ e, c.ownEntry k y.seq = some e →
    (allStations.filter (fun i => decide (i = t) || decide (y.ext < e.depths.get i))).length < k.copies

/-- What nothing becomes durable by stays so, whatever depth of the reporter an entry takes. -/
theorem ReportQuiet.update {k : Env} {t : Station} {c : Ctl} (h : ReportQuiet k t c) {g : Entry → Entry} (hg :
    ∀ e, (g e).id = e.id)
    (hd : ∀ e i, i ≠ t → (g e).depths.get i = e.depths.get i) (id : PageId) : ReportQuiet k t (c.update k id g) := by
  refine ⟨by rw [Ctl.update_owed]; exact h.1, fun y hy => ?_⟩
  rw [Ctl.update_et] at hy
  refine ⟨(h.2 y hy).1, fun e he => ?_⟩
  unfold Ctl.ownEntry at he
  rw [Ctl.entry_update hg] at he
  obtain ⟨e0, he0, hee⟩ := Option.map_eq_some_iff.1 he
  have h1 := (h.2 y hy).2 e0 he0
  by_cases hi : e0.id = id
  · rw [if_pos hi] at hee
    have : (allStations.filter (fun i => decide (i = t) || decide (y.ext < e.depths.get i))) =
        (allStations.filter (fun i => decide (i = t) || decide (y.ext < e0.depths.get i))) := by
      congr 1
      funext i
      by_cases hit : i = t
      · simp [hit]
      · rw [← hee]
        show (_ || decide (y.ext < (g e0).depths.get i)) = _
        rw [hd e0 i hit]
    rw [this]; exact h1
  · rw [if_neg hi] at hee
    rw [← hee]; exact h1

/-- A depth of the reporter recorded in one entry (R156): the entry takes it, and nothing else of the station follows. -/
theorem record_step {k : Env} {t : Station} {c : Ctl} (id : PageId) (hq : id.origin = k.me → ReportQuiet k t c)
    {g : Entry → Entry}
    (hg : ∀ e, (g e).id = e.id) (hd : ∀ e i, i ≠ t → (g e).depths.get i = e.depths.get i) :
    (id.origin = k.me → ReportQuiet k t (c.recordFrom k id g)) ∧ (c.recordFrom k id g).et = c.et ∧
        (c.recordFrom k id g).tx = c.tx ∧
    (c.recordFrom k id g).rx = c.rx ∧ (c.recordFrom k id g).jobs = c.jobs ∧ (c.recordFrom k id g).port = c.port ∧
    (c.recordFrom k id g).still = c.still ∧ (c.recordFrom k id g).dir = (c.update k id g).dir := by
  have hst : (c.recordFrom k id g).still = c.still :=
    (Ctl.recordFrom_calm (w := false) (Calm.refl c) k id g hg).still rfl
  have hu : ∀ h : id.origin = k.me, c.recordFrom k id g = (c.update k id g).pruneOwed.sweep k ∧
      (c.update k id g).pruneOwed.owed = [] := by
    intro h
    have hqu := (hq h).update hg hd id
    have hp : (c.update k id g).pruneOwed.owed = [] := by
      show List.filterMap _ (c.update k id g).owed = []
      rw [hqu.1]; rfl
    refine ⟨?_, hp⟩
    unfold Ctl.recordFrom
    dsimp only
    rw [if_pos h, Ctl.testDurable_quiet (fun y hy => (hqu.2 y hy).1) (fun y hy hys => ?_)]
    · unfold Ctl.sweepAll
      rw [Ctl.sweepOwed_held (Or.inl hp)]
    · unfold Ctl.durable
      rw [← hys]
      cases he : (c.update k id g).ownEntry k y.seq with
      | none => rfl
      | some e =>
        have h1 := (hqu.2 y hy).2 e he
        refine decide_eq_false ?_
        have h2 : (allStations.filter (fun i => decide (y.ext < e.depths.get i))).length ≤
            (allStations.filter (fun i => decide (i = t) || decide (y.ext < e.depths.get i))).length := by
          refine List.Sublist.length_le (List.monotone_filter_right _ (fun i hi => ?_))
          simp only [Bool.or_eq_true]; exact Or.inr hi
        show ¬ k.copies ≤ (allStations.filter (fun i => decide (y.ext < e.depths.get i))).length
        omega
  have hn : id.origin ≠ k.me → c.recordFrom k id g = c.update k id g := by
    intro h
    unfold Ctl.recordFrom
    dsimp only
    rw [if_neg h]
  by_cases h : id.origin = k.me
  · obtain ⟨h1, h2⟩ := hu h
    rw [h1] at hst ⊢
    have hqu := (hq h).update hg hd id
    have e1 := Ctl.update_et c k id g
    have e2 := Ctl.update_tx c k id g
    have e3 := Ctl.update_rx c k id g
    have e4 := Ctl.update_jobs c k id g
    have e5 := Ctl.update_port c k id g
    generalize c.update k id g = u at *
    refine ⟨fun _ => ?_, ?_, ?_, ?_, ?_, ?_, hst, ?_⟩
    · refine ⟨by rw [Ctl.sweep_owed]; exact h2, fun y hy => ?_⟩
      rw [Ctl.sweep_et] at hy
      refine ⟨(hqu.2 y hy).1, fun e he => (hqu.2 y hy).2 e ?_⟩
      rw [← he]
      exact (Ctl.ownEntry_congr (c := u) ((Ctl.sweep_dir _ _).trans (pruneOwed_fields u).1) k _).symm
    · rw [Ctl.sweep_et]; exact e1
    · rw [Ctl.sweep_tx]; exact e2
    · rw [Ctl.sweep_rx]; exact e3
    · rw [Ctl.sweep_jobs]; exact e4
    · rw [Ctl.sweep_port]; exact e5
    · rw [Ctl.sweep_dir]; rfl
  · rw [hn h] at hst ⊢
    exact ⟨fun h' => absurd h' h, Ctl.update_et _ _ _ _, Ctl.update_tx _ _ _ _, Ctl.update_rx _ _ _ _,
        Ctl.update_jobs _ _ _ _,
      Ctl.update_port _ _ _ _, hst, rfl⟩

/-- The depths of a HOLDINGS frame recorded in the entries of one origin, one after the other. -/
theorem fold_record {k : Env} {t : Station} {G : PageId → Entry → Entry} (hg : ∀ id e, (G id e).id = e.id)
    (hd : ∀ id e i, i ≠ t → (G id e).depths.get i = e.depths.get i) (o : Station) (l : List PageId) (hl :
        ∀ id ∈ l, id.origin = o)
    (hn : l.Nodup) (c : Ctl) (hq : o = k.me → ReportQuiet k t c) :
    (l.foldl (fun c id => c.recordFrom k id (G id)) c).et = c.et ∧
        (l.foldl (fun c id => c.recordFrom k id (G id)) c).tx = c.tx ∧
        (l.foldl (fun c id => c.recordFrom k id (G id)) c).rx = c.rx ∧
        (l.foldl (fun c id => c.recordFrom k id (G id)) c).jobs = c.jobs ∧
        (l.foldl (fun c id => c.recordFrom k id (G id)) c).port = c.port ∧
        (l.foldl (fun c id => c.recordFrom k id (G id)) c).still = c.still ∧
    ∀ x e, c.entry x = some e → (x ∉ l → (l.foldl (fun c id => c.recordFrom k id (G id)) c).entry x = some e) ∧
      (x ∈ l → ∃ u, (l.foldl (fun c id => c.recordFrom k id (G id)) c).entry x = some { G x e with under := u }) := by
  induction l generalizing c with
  | nil => exact ⟨rfl, rfl, rfl, rfl, rfl, rfl, fun x e he => ⟨fun _ => he, fun h => by cases h⟩⟩
  | cons id l ih =>
    have hio : id.origin = o := hl id (by simp)
    obtain ⟨q0, q1, q2, q3, q4, q5, q6, q7⟩ := record_step (t := t) (c := c) id (fun h => hq (hio ▸ h)) (hg id) (hd id)
    obtain ⟨h1, h2, h3, h4, h5, h6, h7⟩ := ih (fun x hx => hl x (by simp [hx]))
        (List.nodup_cons.1 hn).2 (c.recordFrom k id (G id))
      (fun h => q0 (hio ▸ h))
    simp only [List.foldl_cons]
    refine ⟨h1.trans q1, h2.trans q2, h3.trans q3, h4.trans q4, h5.trans q5, h6.trans q6, fun x e he => ?_⟩
    have hx : (c.recordFrom k id (G id)).entry x = (c.update k id (G id)).entry x := Ctl.entry_congr q7 x
    rw [Ctl.entry_update (hg id), he, Option.map_some] at hx
    have hxe : e.id = x := Ctl.entry_id he
    by_cases h8 : x = id
    · rw [if_pos (hxe.trans h8)] at hx
      have hnl : x ∉ l := by rw [h8]; exact (List.nodup_cons.1 hn).1
      refine ⟨fun h => absurd (by simp [h8]) h, fun _ => ⟨c.underCopied k (G id e), ?_⟩⟩
      rw [(h7 x _ hx).1 hnl, h8]; rfl
    · rw [if_neg (by rw [hxe]; exact h8)] at hx
      refine ⟨fun h => (h7 x e hx).1 (fun hc => h (by simp [hc])), fun h => (h7 x e hx).2 ?_⟩
      rcases List.mem_cons.1 h with h | h
      · exact absurd h h8
      · exact h

/-- The item is a RUN that covers the entry. -/
def covers (e : Entry) (i : HoldItem) : Bool :=
  match i with
  | .run q n => decide (q.toNat ≤ e.id.seq.toNat) && decide (e.id.seq.toNat < q.toNat + n.toNat)
  | .page _ _ _ => false

/-- A raised depth of a station whose depth is already written out. -/
theorem raise_at (t : Station) (n d : Nat) (e : Entry) (hn : n ≤ e.known) (hk : e.known ≤ 3) :
    Entry.raiseDepth { e with depths := vput e.depths t d } t n = { e with depths := vput e.depths t (max d n) } := by
  unfold Entry.raiseDepth Entry.setDepth Entry.depth
  dsimp only
  rw [vput_get_same]
  split
  · rename_i h
    have h1 : max d n = n := by omega
    have h2 : min n 3 = n := by omega
    have h3 : max e.known n = e.known := by omega
    rw [vput_vput, h1, h2, h3]
  · rename_i h
    have h1 : max d n = d := by omega
    rw [h1]

/-- A set depth of a station whose depth is already written out. -/
theorem set_at (t : Station) (n d : Nat) (e : Entry) (hn : n ≤ e.known) (hk : e.known ≤ 3) :
    Entry.setDepth { e with depths := vput e.depths t d } t n = { e with depths := vput e.depths t n } := by
  unfold Entry.setDepth
  dsimp only
  have h2 : min n 3 = n := by omega
  have h3 : max e.known n = e.known := by omega
  rw [vput_vput, h2, h3]

/-- The RUNs of a frame applied to an entry. -/
theorem fold_runs (t : Station) (raise : Bool) (l : List HoldItem) (hl : ∀ i ∈ l, i.isRun = true) (e : Entry) (hk :
    e.known ≤ 3) (d : Nat) :
    l.foldl (Entry.holdItem t raise) { e with depths := vput e.depths t d } =
      { e with depths := vput e.depths t (if l.any (covers e) then (if raise then max d e.known else e.known) else d) } := by
  induction l generalizing d with
  | nil => simp
  | cons i l ih =>
    rw [List.foldl_cons]
    cases i with
    | page q dd fl => exact absurd (hl (.page q dd fl) (List.mem_cons_self ..)) (by simp [HoldItem.isRun])
    | run q n =>
      have hi : Entry.holdItem t raise { e with depths := vput e.depths t d } (.run q n) =
          { e with depths := vput e.depths t (if covers e (.run q n) then (if raise then max d e.known else e.known) else d) } := by
        by_cases h : q.toNat ≤ e.id.seq.toNat ∧ e.id.seq.toNat < q.toNat + n.toNat
        · have hc : covers e (.run q n) = true := by
            show (decide _ && decide _) = true
            rw [decide_eq_true h.1, decide_eq_true h.2]; rfl
          rw [hc]
          refine (if_pos h).trans ?_
          cases raise with
          | true => exact raise_at t e.known d e (le_refl _) hk
          | false => exact set_at t e.known d e (le_refl _) hk
        · have hc : covers e (.run q n) = false := by
            rw [Bool.eq_false_iff]
            intro hc
            have : (decide (q.toNat ≤ e.id.seq.toNat) && decide (e.id.seq.toNat < q.toNat + n.toNat)) = true := hc
            rw [Bool.and_eq_true, decide_eq_true_eq, decide_eq_true_eq] at this
            exact h this
          rw [hc]
          exact if_neg h
      rw [hi, ih (fun x hx => hl x (by simp [hx]))]
      rw [List.any_cons]
      cases h1 : covers e (.run q n) <;> cases h2 : l.any (covers e) <;> cases raise <;> simp

/-- PAGEs that do not name an entry leave it. -/
theorem fold_pages (t : Station) (raise : Bool) (l : List HoldItem) (e : Entry) (hr : ∀ i ∈ l, i.isRun = false)
    (hl : ∀ q d fl, HoldItem.page q d fl ∈ l → q ≠ e.id.seq) : l.foldl (Entry.holdItem t raise) e = e := by
  induction l with
  | nil => rfl
  | cons i l ih =>
    have : Entry.holdItem t raise e i = e := by
      unfold Entry.holdItem
      cases i with
      | run s n => exact absurd (hr (.run s n) (List.mem_cons_self ..)) (by simp [HoldItem.isRun])
      | page s d fl => exact if_neg (hl s d fl (by simp))
    rw [List.foldl_cons, this]
    exact ih (fun y hy => hr y (by simp [hy])) (fun q d fl h => hl q d fl (by simp [h]))

/-- An item touches the depth of the reporter alone. -/
theorem holdItem_depths (t : Station) (r : Bool) (e : Entry) (i : HoldItem) (j : Station) (h : j ≠ t) :
    (Entry.holdItem t r e i).depths.get j = e.depths.get j := by
  unfold Entry.holdItem Entry.raiseDepth Entry.setDepth
  cases i <;> dsimp only <;> (repeat' split) <;> first | rfl | exact vput_get_other _ _ _ _ h

/-- The items touch the depth of the reporter alone. -/
theorem holdItems_depths (t : Station) (r : Bool) (l : List HoldItem) (e : Entry) (j : Station) (h : j ≠ t) :
    (l.foldl (Entry.holdItem t r) e).depths.get j = e.depths.get j := by
  induction l generalizing e with
  | nil => rfl
  | cons i l ih => rw [List.foldl_cons, ih, holdItem_depths _ _ _ _ _ h]

/-- A frame touches the depth of the reporter alone. -/
theorem holdFrame_depths (t : Station) (r : Bool) (b : HoldingsBody) (e : Entry) (j : Station) (h : j ≠ t) :
    (e.holdFrame t r b).depths.get j = e.depths.get j := by
  unfold Entry.holdFrame
  rw [holdItems_depths _ _ _ _ _ h]
  split
  · exact vput_get_other _ _ _ _ h
  · rfl

/-- A frame applied to an entry, in the words of the statement. -/
theorem holdFrame_at (t : Station) (raise : Bool) (b : HoldingsBody) (e : Entry) (hk : e.known ≤ 3) :
    let first : Nat := if raise || decide (b.index ≠ 0) then e.depths.get t else 0
    let run : Nat := if b.items.any (covers e) then (if raise then max first e.known else e.known) else first
    ((∀ q d fl, HoldItem.page q d fl ∈ b.items → q ≠ e.id.seq) →
        e.holdFrame t raise b = { e with depths := vput e.depths t run }) ∧
    (∀ l d fl l', b.items = l ++ .page e.id.seq d fl :: l' → (∀ q d' fl', HoldItem.page q d' fl' ∈ l ++ l' →
        q ≠ e.id.seq) →
      e.holdFrame t raise b = { e with depths := vput e.depths t (if raise then max run (min d.toNat e.known) else min d.toNat e.known), closed := e.closed || (fl.getLsbD 0 && decide (d.toNat = e.known) && decide (e.role = .replica)) }) := by
  intro first run
  have hstart : (if (decide (b.index = 0) && !raise) = true then e.setDepth t 0 else e) =
      { e with depths := vput e.depths t first } := by
    by_cases h3 : b.index = 0
    · cases raise with
      | true => simp [first, vput_self]
      | false => simp [first, h3, Entry.setDepth]
    · have h4 : ¬ b.index = 0#16 := h3
      cases raise <;> simp [first, h4, vput_self]
  have hany : (b.items.filter HoldItem.isRun).any (covers e) = b.items.any (covers e) := by
    generalize b.items = l
    induction l with
    | nil => rfl
    | cons i l ih =>
      cases i with
      | run q n => simp only [List.filter_cons, HoldItem.isRun, if_true, List.any_cons, ih]
      | page q d fl => simp only [List.filter_cons, HoldItem.isRun, Bool.false_eq_true, if_false, List.any_cons, ih,
            covers, Bool.false_or]
  have hrun : e.holdFrame t raise b = (b.items.filter (fun i => !i.isRun)).foldl (Entry.holdItem t raise)
      { e with depths := vput e.depths t run } := by
    unfold Entry.holdFrame HoldingsBody.inOrder
    rw [hstart, List.foldl_append, fold_runs t raise _ (fun i hi => (List.mem_filter.1 hi).2) e hk, hany]
  rw [hrun]
  have hnr : ∀ l : List HoldItem, ∀ i ∈ l.filter (fun i => !i.isRun), i.isRun = false := by
    intro l i hi
    simpa using (List.mem_filter.1 hi).2
  refine ⟨fun hno => ?_, fun l d fl l' hs hno => ?_⟩
  · exact fold_pages _ _ _ _ (hnr _) (fun q d fl h => hno q d fl (List.mem_filter.1 h).1)
  · rw [hs, List.filter_append, List.filter_cons, if_pos (by rfl), List.foldl_append, List.foldl_cons]
    rw [fold_pages t raise _ { e with depths := vput e.depths t run } (hnr l)
        (fun q d fl h => hno q d fl (by simp [(List.mem_filter.1 h).1]))]
    have hp : Entry.holdItem t raise { e with depths := vput e.depths t run } (.page e.id.seq d fl) =
        { e with depths := vput e.depths t (if raise then max run (min d.toNat e.known) else min d.toNat e.known), closed := e.closed || (fl.getLsbD 0 && decide (d.toNat = e.known) && decide (e.role = .replica)) } := by
      unfold Entry.holdItem
      dsimp only
      rw [if_pos rfl]
      cases raise with
      | true => simp only [if_true]; rw [raise_at t _ run e (by omega) hk]
      | false => simp only [Bool.false_eq_true, if_false]; rw [set_at t _ run e (by omega) hk]
    rw [hp]
    exact fold_pages _ _ _ _ (hnr l') (fun q d fl h => hno q d fl (by simp [(List.mem_filter.1 h).1]))

end Sys2Proof.Machine
end

