-- ==== Sys2Proof/Laws/Returned.lean ====
section
/-!
SUPPORT. What a data frame records in the entry of its page (R134), this station's own pages included (R133), while no own
extent becomes durable by it and no transmission waits.
-/

namespace Sys2Proof.Machine

/-- With no read-back wanted none is begun. -/
theorem startReadBack_idle {c : Ctl} (h : c.readBack.wants = []) (k : Env) : c.startReadBack k = c := by
  unfold Ctl.startReadBack
  split
  · rfl
  · have : c.et.find? (fun x => c.readBack.wants.any (fun w => w.seq == x.seq)) = none := by
      rw [List.find?_eq_none]
      intro x _
      simp [h]
    rw [this]

/-- With no read-back wanted the sweep frees buffers and does nothing else. -/
theorem sweep_idle {c : Ctl} (h : c.readBack.wants = []) (k : Env) :
    ∃ f r, c.sweep k = { c with fill := f, readBack := r } := by
  have hr : ∃ r, c.sweepReadBack k = { c with readBack := r } := by
    unfold Ctl.sweepReadBack
    split
    · exact ⟨_, startReadBack_idle (by exact h) k⟩
    · exact ⟨_, startReadBack_idle h k⟩
  obtain ⟨r, hr⟩ := hr
  obtain ⟨f, hf⟩ := Ctl.sweepFill_shape { c with readBack := r } k
  exact ⟨f, r, by unfold Ctl.sweep; rw [hr, hf]⟩

/-- Nothing is lost to the pruning when nothing is owed or wanted. -/
theorem pruneOwed_idle {c : Ctl} (h : c.owed = []) (hw : c.readBack.wants = []) : c.pruneOwed = c := by
  unfold Ctl.pruneOwed
  rw [h, hw]
  simp only [List.filterMap_nil]
  have : ({ c.readBack with wants := [] } : ReadBack) = c.readBack := by rw [← hw]
  rw [this, ← h]

/-- What is recorded in an entry: the entry takes it, and buffers left unwanted by an own page become FREE. -/
theorem record_one {c : Ctl} {k : Env} {id : PageId} {e : Entry} (he : c.entry id = some e) (g : Entry → Entry)
    (hg : ∀ e, (g e).id = e.id) (hq : c.settlesNothing k id (g e)) :
    ∃ f r d al rp rc, (id.origin ≠ k.me → f = c.fill ∧ r = c.readBack) ∧
      c.recordFrom k id g = { c with fill := f, readBack := r, dir := d, alerts := al, repair := rp, recheck := rc } ∧
      al.enabled = c.alerts.enabled ∧ d.find? (fun y => y.id == id) = some { g e with under := c.underCopied k (g e) } ∧
      ∀ j, j ≠ id → d.find? (fun y => y.id == j) = c.entry j := by
  obtain ⟨d, al, rp, rc, hu, h1, h2, h3⟩ := update_one (k := k) he g hg
  by_cases hm : id.origin = k.me
  · obtain ⟨q1, q2, q3⟩ := hq hm
    have hid : ownId k id.seq = id := by unfold ownId; rw [← hm]
    have ht : (c.update k id g).testDurable k id.seq = c.update k id g := by
      rw [Ctl.testDurable_quiet (fun y hy => (q3 y (by rwa [Ctl.update_et] at hy)).1) (fun y hy hys => ?_)]
      · exact pruneOwed_idle (by rw [Ctl.update_owed]; exact q1) (by rw [Ctl.update_readBack]; exact q2)
      · rw [Ctl.update_et] at hy
        have := durable_update (c := c) (k := k) (seq := id.seq) (e := e) g hg (by unfold Ctl.ownEntry; rw [hid]; exact he) y.ext
        rw [hid] at this
        rw [this]
        exact decide_eq_false (Nat.not_le.2 ((q3 y hy).2 hys))
    obtain ⟨f, r, hs⟩ := sweep_idle (c := c.update k id g) (by rw [Ctl.update_readBack]; exact q2) k
    refine ⟨f, r, d, al, rp, rc, fun h => absurd hm h, ?_, h1, h2, h3⟩
    unfold Ctl.recordFrom
    dsimp only
    rw [if_pos hm, ht]
    unfold Ctl.sweepAll
    rw [Ctl.sweepOwed_held (Or.inl (by rw [Ctl.update_owed]; exact q1)), hs, hu]
  · refine ⟨c.fill, c.readBack, d, al, rp, rc, fun _ => ⟨rfl, rfl⟩, ?_, h1, h2, h3⟩
    unfold Ctl.recordFrom
    dsimp only
    rw [if_neg hm, hu]

/-- A frame answered against an existing entry, its depths recorded (R134). -/
theorem judge_recorded {c : Ctl} {k : Env} {u : Fin 4} {h : RxHeld} {id : PageId} {e : Entry} (he : c.entry id = some e)
    (g : Entry → Entry) (hg : ∀ e, (g e).id = e.id) (hq : c.settlesNothing k id (g e)) (v : Verdict) (aux : Nat) :
    ∃ f r d al rp rc, (id.origin ≠ k.me → f = c.fill ∧ r = c.readBack) ∧
      ((keptIn c u (.held h)).recordFrom k id g).answerAndFree u h id v aux =
        { keptIn c u .free with
          fill := f, readBack := r, tx := c.tx.answer (theAnswer h id v aux), dir := d, alerts := al, repair := rp,
          recheck := rc } ∧
      al.enabled = c.alerts.enabled ∧ d.find? (fun y => y.id == id) = some { g e with under := c.underCopied k (g e) } ∧
      ∀ j, j ≠ id → d.find? (fun y => y.id == j) = c.entry j := by
  obtain ⟨f, r, d, al, rp, rc, h0, hu, h1, h2, h3⟩ := record_one (c := keptIn c u (.held h)) (k := k) he g hg hq
  refine ⟨f, r, d, al, rp, rc, h0, ?_, h1, h2, h3⟩
  rw [hu]
  unfold Ctl.answerAndFree Ctl.intakeAnswer Ctl.answer Ctl.onTx Ctl.setRx keptIn
  dsimp only
  rw [vput_vput]
  rfl

end Sys2Proof.Machine
end

