-- ==== Sys2Proof/Tests/Slice0.lean ====
section
/-!
SUPPORT. Tests of the model by evaluation. First each check of `Instr.wf` with an ill-formed term that it refuses; then, in
the order of the statements, a witness for the hypotheses of each statement and of each of its clauses (`witness_…`), and
for each command what it does on a small state (`test_…`).
-/

namespace Sys2Proof.Tests

open Sys2Proof Sys2Proof.Machine

set_option Elab.async false

/-! ## Small states -/

/-- A station out of reset: number 1, COPIES 2, ACTIVE, clock 100, an empty array. -/
def up : State :=
  { pending := [], env := { rstLow := false, pfwLow := false, me := 1, copies := 2, clock := 100, fresh := 0 },
    flash := Flash.blank, ctl := { Ctl.reset with station := .active } }

/-- The same with its controller changed. -/
def upWith (f : Ctl → Ctl) : State := { up with ctl := f up.ctl }

/-- The same in another station state. -/
def upIn (st : StationState) : State := upWith (fun c => { c with station := st })

/-- The same with the port at work. -/
def upPort (a : Activity) : State := upWith (fun c => { c with port := { c.port with act := a } })

/-- What a command leaves, as far as `f` looks at it. -/
def after {α : Type} (i : Instr) (s : State) (f : State → α) : Option α :=
  match exec i s with
  | .next t => some (f t)
  | .fault _ => none
  | .refused _ => none

/-- A read of which no bit was in error. -/
def clean : ReadReport := #v[0, 0, 0, 0, 0, 0, 0, 0, 0, 0, 0, 0]

/-- A unit busy with a request. -/
def busyWith (who : Requester) (op : ArrayOp) : Busy := { req := { who := who, op := op, emergency := false }, data := [] }

/-- The same, unit 0 being busy. -/
def upBusy (b : Busy) (f : Ctl → Ctl) : State :=
  upWith (fun c => f { c with units := vput c.units 0 { busy := some b, queue := [], favour := 0 } })

/-- A place that is filled has a property when a test finds it in every filled place. -/
theorem each_held {α : Type} {n : Nat} {v : Vector (Option α) n} {P : Fin n → α → Prop} [∀ i x, Decidable (P i x)]
    (h : ∀ i, (v.get i).all (fun x => decide (P i x)) = true) : ∀ i x, v.get i = some x → P i x := by
  intro i x hx
  have := h i
  rw [hx] at this
  simpa using this

/-- The value of an option has a property when a test finds it. -/
theorem each_some {α : Type} {o : Option α} {P : α → Prop} [∀ x, Decidable (P x)]
    (h : o.all (fun x => decide (P x)) = true) : ∀ x, o = some x → P x := by
  intro x hx
  rw [hx] at h
  simpa using h

/-- An occupied receive buffer has a property when there is none. -/
theorem each_rx {c : Ctl} {P : Fin 4 → RxHeld → Prop} [∀ i x, Decidable (P i x)]
    (h : ∀ i, (c.rxHeld i).all (fun x => decide (P i x)) = true) : ∀ i x, c.rxHeld i = some x → P i x := by
  intro i x hx
  have := h i
  rw [hx] at this
  simpa using this

/-! ## Well-formedness -/

/-- A frame of as many characters. -/
def longFrame (n : Nat) : Heard := { arb := 0, chars := List.replicate n 0x00#8 }

theorem test_wf_unknownCommand : (Instr.unknownCommand 0x5A#8).wf = false ∧ (Instr.unknownCommand 0x00#8).wf = true := by
  decide

theorem test_wf_markProgramDone : (Instr.markProgramDone 0 (.pass 0)).wf = false ∧
    (Instr.markProgramDone 0 (.pass 11)).wf = false ∧
    (Instr.markProgramDone 0 (.pass 10)).wf = true := by decide

theorem test_wf_ownProgramDone : (Instr.ownProgramDone 0 (.pass 0)).wf = false ∧
    (Instr.ownProgramDone 0 (.pass 11)).wf = false ∧
    (Instr.ownProgramDone 0 .fail).wf = true := by decide

theorem test_wf_replicaProgramDone : (Instr.replicaProgramDone 0 (.pass 0)).wf = false ∧
    (Instr.replicaProgramDone 0 (.pass 11)).wf = false ∧ (Instr.replicaProgramDone 0 (.pass 1)).wf = true := by decide

theorem test_wf_replicaRelocationDone : (Instr.replicaRelocationDone 0 (.pass 0)).wf = false ∧
    (Instr.replicaRelocationDone 0 (.pass 11)).wf = false ∧ (Instr.replicaRelocationDone 0 (.pass 1)).wf = true := by decide

theorem test_wf_markEraseDone : (Instr.markEraseDone 0 (.pass 0)).wf = false ∧ (Instr.markEraseDone 0 (.pass 6)).wf = false ∧
    (Instr.markEraseDone 0 (.pass 5)).wf = true := by decide

theorem test_wf_recordEraseDone : (Instr.recordEraseDone 0 (.pass 0)).wf = false ∧
    (Instr.recordEraseDone 0 (.pass 6)).wf = false ∧ (Instr.recordEraseDone 0 .fail).wf = true := by decide

theorem test_wf_length (f : Heard) (h : f.chars.length = 4130) : f.wf = false := by simp [Heard.wf, h]

theorem test_wf_frames : (longFrame 4130).chars.length = 4130 ∧ (longFrame 4129).wf = true := by
  refine ⟨List.length_replicate, ?_⟩
  have h : (longFrame 4129).chars.length = 4129 := List.length_replicate
  simp [Heard.wf, h]

theorem test_wf_presenceFrame : (Instr.presenceFrame (longFrame 4130)).wf = false := test_wf_length _ List.length_replicate
theorem test_wf_answerFrame : (Instr.answerFrame (longFrame 4130)).wf = false := test_wf_length _ List.length_replicate
theorem test_wf_holdingsFrame : (Instr.holdingsFrame (longFrame 4130)).wf = false := test_wf_length _ List.length_replicate
theorem test_wf_extentFrame : (Instr.extentFrame (longFrame 4130)).wf = false := test_wf_length _ List.length_replicate
theorem test_wf_copyFrame : (Instr.copyFrame (longFrame 4130)).wf = false := test_wf_length _ List.length_replicate
theorem test_wf_frameFailsChecks : (Instr.frameFailsChecks (longFrame 4130)).wf = false :=
  test_wf_length _ List.length_replicate

/-! ## The step, reset and power -/

/-- A state with two commands waiting. -/
def waiting : State := { up with pending := [.status, .flush] }

theorem witness_StepRunsHead : waiting.pending = .status :: [.flush] := rfl

theorem test_step_front : (match step waiting with | .next t => some t.pending | _ => none) = some [.flush] := by decide

theorem witness_IdleStepIsOneMillisecond_reset : State.reset.pending = [] ∧ State.reset.env.rstLow = true := by decide

theorem witness_IdleStepIsOneMillisecond_others : (upIn .listening).pending = [] ∧ (upIn .listening).env.rstLow = false ∧
    (upIn .listening).ctl.station ≠ .active ∧ (upIn .listening).ctl.station ≠ .frozen := by decide

theorem witness_IdleStepIsOneMillisecond_runs : (upIn .frozen).pending = [] ∧ (upIn .frozen).env.rstLow = false ∧
    ((upIn .frozen).ctl.station = .active ∨ (upIn .frozen).ctl.station = .frozen) := by decide

theorem test_tick : (match step (upWith (fun c => { c with recheck := some 1, presence := some 19 })) with
    | .next t => some (t.env.clock, t.ctl.recheck, t.ctl.presence)
    | _ => none) = some (101, some 0, some 20) := by decide

/-- A unit that programs one slot of page 1 of block 2, and an idle one. -/
def programming : State :=
  upBusy (busyWith (.own 1 false 1)
    (.program { page := { block := 2, page := 1 }, first := 0, count := 1, identity := none, descs := [],
                source := .fill 0 })) id

theorem witness_Resets_untouched (u : Fin 2) (b : Busy) (h : (programming.ctl.units.get u).busy = some b) :
    ¬ b.req.op.touches 0 := by
  have : ∀ u, ((programming.ctl.units.get u).busy).all (fun b => b == busyWith (.own 1 false 1)
    (.program { page := { block := 2, page := 1 }, first := 0, count := 1, identity := none, descs := [],
                source := .fill 0 }))
      = true := by decide
  have hb := this u
  rw [h] at hb
  rw [eq_of_beq hb]
  rintro ⟨k, -, hk, -⟩
  simp [PageAddr.partBase, PageAddr.index, pageBytes] at hk

theorem witness_Resets_reads : (upBusy (busyWith .mountMark (.pageRead { block := 0, page := 0 })) id).ctl.units.get 0
      = { busy := some (busyWith .mountMark (.pageRead { block := 0, page := 0 })), queue := [], favour := 0 } ∧
    (busyWith .mountMark (.pageRead { block := 0, page := 0 })).req.op.isRead = true ∧
    ((upBusy (busyWith .mountMark (.pageRead { block := 0, page := 0 })) id).ctl.units.get 1).busy = none := by decide

theorem witness_Resets_release : State.reset.env.rstLow = true ∧ up.env.rstLow = false := by decide

theorem witness_Resets_held : State.reset.env.rstLow = true ∧ Instr.status ≠ .hardReset ∧
    (∀ n c, Instr.status ≠ .hardResetRelease n c) ∧ Instr.status ≠ .powerFailWarning ∧ Instr.status ≠ .rejoin :=
  ⟨rfl, by decide, by decide, by decide, by decide⟩

theorem test_hardReset : after .hardReset up (fun t => (t.env.rstLow, t.ctl.station, t.rdy))
    = some (true, .mounting, false) := by
  decide

theorem test_hardResetRelease : after (.hardResetRelease 3 true) State.reset
      (fun t => (t.env.me, t.env.copies, (t.ctl.units.get 0).queue.length, (t.ctl.units.get 1).queue.length))
    = some (3, 3, 128, 128) := by
  decide +kernel

theorem witness_PowerFailWarning_noted : ∀ st ∈ [StationState.mounting, .leaving, .isolated],
    (upIn st).env.rstLow = false ∧
    ((upIn st).ctl.station = .mounting ∨ (upIn st).ctl.station = .leaving ∨ (upIn st).ctl.station = .isolated) := by decide

theorem witness_PowerFailWarning_leaves : ∀ st ∈ [StationState.listening, .active, .frozen],
    (upIn st).env.rstLow = false ∧
    ((upIn st).ctl.station = .listening ∨ (upIn st).ctl.station = .active ∨ (upIn st).ctl.station = .frozen) := by decide

/-- An APPEND of 10 bytes. -/
def tenBytes : AppendCmd := { tag := 1, length := 10, gen := 0, stamp := 0, slots := 1, reserved := 0 }

theorem witness_PowerFailWarning_append : (upPort (.appendData tenBytes 0)).ctl.station = .active ∧
    ((upPort (.appendData tenBytes 0)).ctl.port.act = .appendData tenBytes 0 ∨
      (upPort (.appendData tenBytes 0)).ctl.port.act = .appendOpening tenBytes) := by decide

theorem witness_PowerFailWarning_opening : (upPort (.appendOpening tenBytes)).ctl.station = .active ∧
    ((upPort (.appendOpening tenBytes)).ctl.port.act = .appendData tenBytes 0 ∨
      (upPort (.appendOpening tenBytes)).ctl.port.act = .appendOpening tenBytes) := by decide

theorem witness_PowerFailWarning_release : (upPort (.releaseWait 5)).ctl.station = .active ∧
    (upPort (.releaseWait 5)).ctl.port.act = .releaseWait 5 := by decide

theorem witness_PowerFailWarning_quiet : (upPort .scanBufWait).ctl.station = .active ∧
    (upPort .scanBufWait).ctl.port.act.quiet = true ∧
    (∀ a, (upPort .scanBufWait).ctl.port.act ≠ .appendOpening a) ∧
    (∀ m, (upPort .scanBufWait).ctl.port.act ≠ .releaseWait m) :=
  ⟨rfl, rfl, fun _ => by simp [upPort, upWith], fun _ => by simp [upPort, upWith]⟩

theorem test_powerFailWarning : after .powerFailWarning (upPort (.releaseWait 5))
    (fun t => (t.env.pfwLow, t.ctl.station, t.ctl.port.result)) = some (true, .leaving, [0x07#8]) := by decide

theorem witness_Rejoin_noted : up.env.rstLow = false ∧ up.ctl.station ≠ .leaving := by decide

theorem witness_Rejoin_leaving : (upIn .leaving).env.rstLow = false ∧ (upIn .leaving).ctl.station = .leaving ∧
    (upIn .leaving).ctl.mark.frozenOwed = false ∧ (upIn .leaving).ctl.mark.write = none ∧
    (upIn .leaving).ctl.mark.recordedSeq ≠ topSeq ∧
    (upIn .leaving).ctl.mark.recorded.gen ≠ (upIn .leaving).ctl.gen + 1 := by decide

/-- LEAVING, with the mark write of generation 8 still waiting. -/
def rejoinAgain : State :=
  upWith (fun c => { c with station := .leaving, gen := 8,
                            mark := { c.mark with
                              recorded := { gen := 7, release := 2, ceiling := 1024 },
                              wanted := { gen := 8, release := 2, ceiling := 1024 },
                              write := some { vals := { gen := 8, release := 2, ceiling := 1024 }, seq := 5,
                                              erasing := false } } })

theorem witness_Rejoin_waiting : rejoinAgain.ctl.station = .leaving ∧ rejoinAgain.ctl.mark.frozenOwed = false ∧
    rejoinAgain.ctl.mark.write.map (fun w => w.vals.gen) = some 8 ∧ rejoinAgain.ctl.markGranted = false ∧
    rejoinAgain.ctl.mark.recorded.gen = 7 := by decide

theorem test_rejoinAgain : after .rejoin rejoinAgain (fun t => (t.ctl.mark.wanted.gen, t.ctl.mark.write))
    = some (9, some { vals := { gen := 9, release := 2, ceiling := 1024 }, seq := 5, erasing := false }) := by decide

theorem witness_Rejoin_frozenOwed :
    (upWith (fun c => { c with station := .leaving, mark := { c.mark with frozenOwed := true } })).ctl.station = .leaving ∧
    (upWith (fun c => { c with station := .leaving,
                               mark := { c.mark with frozenOwed := true } })).ctl.mark.frozenOwed = true := by
  decide

theorem test_rejoin : after .rejoin (upWith (fun c => { c with station := .leaving, gen := 0xFFFF#16 }))
    (fun t => (t.ctl.station, t.ctl.window, t.ctl.gen)) = some (.listening, some 60, 0) := by decide

/-! ## The port -/

theorem witness_CommandBytes : ∀ x ∈ [(0x21#8, ArgCmd.append), (0x31#8, .read), (0x32#8, .scan), (0x41#8, .release),
    (0x51#8, .report),
    (0x52#8, .alertMask)], up.env.rstLow = false ∧ argCmdOf x.1 = some x.2 := by decide

theorem witness_CommandBytes_states : (upPort .resetWait).ctl.busy = true ∧ up.ctl.port.act = .idle ∧
    (upPort (.collecting .scan [1, 2])).ctl.port.act = .collecting .scan [1, 2] := by decide

/-- Own page 9 as the fill buffer 0 has it, two slots in use. -/
def page9 : FillPage :=
  { seq := 9, bytes := [(0, 0x01#8), (1024, 0x55#8)], used := 2, starts := 0x03#8, records := 2, extents := [],
    failed := false }

/-- Its entry. -/
def entry9 : Entry :=
  { id := { origin := 1, seq := 9 }, role := .own, localPage := some { block := 2, page := 8 }, relocPage := none,
    pendingExt := none, known := 0, used := 0, closed := false, depths := #v[0, 0, 0, 0, 0, 0, 0, 0], targets := [2],
    extra := none, excluded := 0, under := false, copyEnd := 0 }

/-- The station with page 9 open, as the fill buffer has it. -/
def withFill (p : FillPage) (c : Ctl) : Ctl := { c with fill := #v[some p, none], dir := [entry9], nextSeq := some 10 }

/-- The station with that page open. -/
def withPage9 (c : Ctl) : Ctl := withFill page9 c

/-- The station in the data phase of an APPEND to that page. -/
def appending : State := upWith (fun c => withPage9 { c with port := { c.port with act := .appendData tenBytes 0 } })

theorem witness_CommandBytes_append : appending.env.rstLow = false ∧ appending.ctl.port.act = .appendData tenBytes 0 ∧
    appending.ctl.openPage appending.env = some (0, page9) := by decide

theorem witness_CommandBytes_unknown : up.env.rstLow = false ∧ knownCode 0x00#8 = false ∧ knownCode 0xFF#8 = false := by
    decide

theorem test_commandByte : after (.commandByte 0x31#8) appending
    (fun t => (t.ctl.port.act, t.ctl.port.result, (t.ctl.fill.get 0).map (·.bytes)))
    = some (.collecting .read [], [0x08#8], some [(0, 0x01#8)]) := by decide

theorem test_commandByte_code : exec (.commandByte 0x22#8) up = exec .flush up ∧ knownCode 0x22#8 = true ∧
    argCmdOf 0x22#8 = none := ⟨rfl, by decide, by decide⟩

theorem test_unknownCommand : after (.unknownCommand 0x00#8) up (fun t => t.ctl.port.result) = some [0x03#8] := by decide

theorem witness_ArgumentByte_idle : up.env.rstLow = false ∧ ∀ cmd args, up.ctl.port.act ≠ .collecting cmd args :=
  ⟨rfl, fun _ _ => by simp [up, Ctl.reset, Port.reset]⟩

theorem witness_ArgumentByte_more : (upPort (.collecting .read [1, 2, 3, 4])).ctl.port.act = .collecting .read [1, 2, 3, 4] ∧
    [1#8, 2, 3, 4].length + 1 < ArgCmd.read.bytes := by decide

theorem witness_ArgumentByte_selector : (upPort (.collecting .report [])).ctl.port.act = .collecting .report [] ∧
    ([] : List Byte).length + 1 = ArgCmd.report.bytes ∧ 3 < (4#8).toNat := by decide

theorem witness_ArgumentByte_last : (upPort (.collecting .read [1, 2, 3, 4, 5])).ctl.port.act = .collecting .read [1, 2,
    3, 4, 5] ∧
    [1#8, 2, 3, 4, 5].length + 1 = ArgCmd.read.bytes ∧ (ArgCmd.read = .read ∧ Instr.read 7 = .read 7) := by decide

theorem test_argumentByte : after (.argumentByte 4) (upPort (.collecting .report [])) (fun t => t.ctl.port.result)
    = some [0x03#8] := by
  decide

theorem test_argumentByte_early : after (.argumentByte 4) up (fun t => t.ctl.port.overrun) = some true := by decide

theorem witness_CommandsTurnedAway_early : up.ctl.lastArgument .append = none ∧ up.env.rstLow = false ∧
    (upPort (.collecting .append [1, 2])).ctl.lastArgument .append = none := by decide

/-- MOUNTING with the port at work. -/
def mounting (a : Activity) : State := upWith (fun c => { c with station := .mounting, port := { c.port with act := a } })

theorem witness_CommandsTurnedAway_state : (mounting (.collecting .append [1, 2, 3])).ctl.station ≠ .active ∧
    (mounting (.collecting .append [1, 2, 3])).ctl.port.act = .collecting .append [1, 2, 3] ∧
    (mounting (.collecting .release [1, 2, 3])).ctl.port.act = .collecting .release [1, 2, 3] ∧
    (mounting .idle).ctl.port.act = .idle ∧
    (mounting (.collecting .read [1, 2, 3, 4, 5])).ctl.port.act = .collecting .read [1, 2, 3, 4, 5] ∧
    (mounting (.collecting .scan [1, 2, 3, 4])).ctl.port.act = .collecting .scan [1, 2, 3, 4] ∧
    (mounting (.collecting .alertMask [])).ctl.port.act = .collecting .alertMask [] ∧
    (mounting .idle).ctl.station = .mounting := by decide

theorem test_turnedAway : after .flush (mounting .idle) (fun t => t.ctl.port.result) = some [0x07#8] := by decide

theorem witness_StatusAndLatch : up.env.rstLow = false := rfl

theorem test_status : after .status (upWith (fun c => { c with port := { c.port with overrun := true, lastResult := 0x0C#8 } }))
    (fun t => (t.ctl.port.latchByte, t.ctl.port.latchLast, t.ctl.port.overrun)) = some (0x25#8, 0x0C#8, false) := by decide

theorem test_statusLatchRead : after .statusLatchRead
      (upWith (fun c => { c with port := { c.port with latchByte := 0x21#8, latchLast := 0x0C#8, latchTurn := true } }))
    (fun t => (t.ctl.port.dOut, t.ctl.port.latchTurn)) = some (0x0C#8, false) := by decide

/-- A result block of two bytes, read up to a place. -/
def block2 (pos : Nat) : State :=
    upWith (fun c => { c with port := { c.port with result := [0x00#8, 0x2A#8], resultPos := pos } })

theorem witness_BlockAndPayloadReads_block : (upPort .scanBufWait).ctl.busy = true ∧ (block2 1).ctl.busy = false ∧
    (block2 1).ctl.port.result[(block2 1).ctl.port.resultPos]? = some 0x2A#8 ∧
    (block2 2).ctl.busy = false ∧ (block2 2).ctl.port.result.length ≤ (block2 2).ctl.port.resultPos := by decide

theorem test_resultBlockRead : after .resultBlockRead (block2 1) (fun t => (t.ctl.port.dOut, t.ctl.port.resultPos))
    = some (0x2A#8, 2) := by decide

/-- The last payload byte but `k` of a record of 3 bytes in slot 1 of a loaded buffer. -/
def payload3 (pos : Nat) : State :=
  upWith (fun c => { c with
    pair := #v[.loaded { origin := 1, seq := 9 } 1 [(526, 0x77#8)] 0, .empty],
    port := { c.port with payload := some { buf := 0, slot := 1, length := 3, pos := pos } } })

theorem witness_BlockAndPayloadReads_payload : (payload3 2).ctl.busy = false ∧
    (payload3 2).ctl.port.payload = some { buf := 0, slot := 1, length := 3, pos := 2 } ∧
    (payload3 2).ctl.pair.get 0 = .loaded { origin := 1, seq := 9 } 1 [(526, 0x77#8)] 0 ∧
    (payload3 2).ctl.port.act = .idle ∧ 3 ≤ 2 + 1 ∧ up.ctl.port.payload = none := by decide

theorem test_payloadRead : after .payloadRead (payload3 2) (fun t => (t.ctl.port.dOut, t.ctl.dataPhase))
    = some (0x77#8, false) := by
  decide

theorem test_payloadRead_more : after .payloadRead (payload3 1) (fun t => (t.ctl.port.dOut, t.ctl.dataPhase))
    = some (0xFF#8, true) := by
  decide

theorem witness_ReportsAndAlertMask : (upPort (.collecting .report [])).env.rstLow = false ∧
    (upPort (.collecting .report [])).ctl.port.act = .collecting .report [] ∧
    (upPort (.collecting .report [])).env.me ≠ 0 := by decide

theorem witness_ReportsAndAlertMask_mask : (upPort (.collecting .alertMask [])).ctl.port.act = .collecting .alertMask [] ∧
    (upPort (.collecting .alertMask [])).ctl.station ≠ .mounting ∧
    (mounting (.collecting .alertMask [])).ctl.port.act = .collecting .alertMask [] ∧
    (mounting (.collecting .alertMask [])).ctl.station = .mounting := by decide

/-- The station with page 9 open and in the Extent Table, a frontier, and two peers heard of. -/
def reporting (frontier : Frontier) : State :=
  upWith (fun c => { withPage9 c with
    frontier := frontier,
    et := [{ seq := 9, ext := 0, first := 0, count := 2, prog := .pending, timer := some 40, settled := .none,
             firstSent := true,
             places := [{ extra := false, target := some { station := 2, state := .awaiting, attempts := 1 } },
                        { extra := true, target := none }] }],
    peers := vput c.peers 2 { Peer.reset with
      gen := some 7, received := some { series := 1, group := 3, index := 2, intact := true } },
    port := { c.port with act := .collecting .report [] } })

theorem witness_ReportsAndAlertMask_fields : ∀ frontier ∈ [Frontier.none, .extent 9 0, .closing 8],
    (reporting frontier).ctl.port.act = .collecting .report [] ∧ (reporting frontier).ctl.frontier = frontier ∧
    (reporting frontier).ctl.openPage up.env = some (0, page9) ∧ up.ctl.openPage up.env = none ∧ (2 : Station) ≠ up.env.me ∧
    ((reporting frontier).ctl.peers.get 2).gen = some 7 ∧
    ((reporting frontier).ctl.peers.get 2).received = some { series := 1, group := 3, index := 2, intact := true } ∧
    ((reporting frontier).ctl.peers.get 1).received = none ∧
    ((reporting frontier).ctl.et[0]?).map (fun x => (x.places[0]?.map (·.target), x.places[1]?.map (·.target),
    x.places[2]?.map (·.target)))
      = some (some (some { station := 2, state := .awaiting, attempts := 1 }), some none, none) := by decide

theorem test_reportExtentTable_entry : after .reportExtentTable (reporting .none) (fun t => t.ctl.port.result.take 15)
    = some [0x00#8, 1, 9, 0, 0, 0, 0, 0, 2, 0, 2, 2, 0, 1, 0xFF] := by decide +kernel

theorem test_reportStationSummary : after .reportStationSummary (upPort (.collecting .report []))
    (fun t => (t.ctl.port.result.length, t.ctl.port.result.take 4)) = some (46, [0x00#8, 0x01#8, 0x02#8, 0x02#8]) := by
    decide

theorem test_reportPeerTable : after .reportPeerTable (upPort (.collecting .report []))
    (fun t => (t.ctl.port.result.length, t.ctl.port.result.take 2)) = some (137, [0x00#8, 0x00#8]) := by
  decide +kernel

theorem test_reportAlertCauses : after .reportAlertCauses
      (upWith (fun c => { c with alerts := { c.alerts with pending := 0x05#8 },
                                 port := { c.port with act := .collecting .report [] } }))
    (fun t => (t.ctl.port.result, t.ctl.alerts.pending)) = some ([0x00#8, 0x05#8, 0x18#8], 0) := by decide

theorem test_reportExtentTable : after .reportExtentTable (upPort (.collecting .report [])) (fun t => t.ctl.port.result)
    = some [0x00#8, 0x00#8] := by decide

theorem test_alertMask : after (.alertMask 0xFF#8) (upPort (.collecting .alertMask []))
    (fun t => (t.ctl.alerts.enabled, t.ctl.port.result)) = some (0x1F#8, [0x00#8]) := by decide

theorem witness_PortReset : up.env.rstLow = false ∧ (∀ a got, up.ctl.port.act ≠ .appendData a got) ∧
    (upPort (.appendData tenBytes 0)).ctl.openPage (upPort (.appendData tenBytes 0)).env = none ∧
    appending.ctl.port.act = .appendData tenBytes 0 ∧ appending.ctl.openPage appending.env = some (0, page9) :=
  ⟨rfl, fun _ _ => by simp [up, Ctl.reset, Port.reset], by decide, by decide, by decide⟩

theorem test_portReset : after .portReset appending
    (fun t => (t.ctl.port.result, t.ctl.port.act, (t.ctl.fill.get 0).map (·.bytes)))
    = some ([0x0F#8], .idle, some [(0, 0x01#8)]) := by decide

theorem test_portReset_waits :
    after .portReset (upWith (fun c => { c with
      pair := #v[.loading { origin := 1, seq := 9 } 1, .abandoned { origin := 1, seq := 8 } 1] }))
    (fun t => (t.ctl.port.act, t.rdy)) = some (.resetWait, false) := by decide

/-! ## APPEND, FLUSH and RELEASE -/

/-- The station with all but the last argument byte of an APPEND with the low length byte given. -/
def appendArgs (l0 : Byte) (f : Ctl → Ctl) : State :=
  upWith (fun c => f { c with pool := [2, 3, 4], nextSeq := some 10,
                              mark := { c.mark with recorded := { c.mark.recorded with ceiling := 20 } },
                              port := { c.port with act := .collecting .append [1, 0, l0] } })

/-- An Extent Table entry of another page that waits for its program. -/
def oldEntry : ETEntry :=
  { seq := 5, ext := 0, first := 0, count := 1, prog := .pending, places := [], timer := none, settled := .none,
    firstSent := false }

/-- A full Extent Table. -/
def fullTable (c : Ctl) : Ctl := { c with et := List.replicate 16 oldEntry }

theorem witness_Append_length : (appendArgs 0 id).env.rstLow = false ∧ (appendArgs 0 id).ctl.station = .active ∧
    (appendArgs 0 id).ctl.port.act = .collecting .append [1, 0, 0] ∧ (half 0x00#8 0x00#8).toNat = 0 ∧
    4084 < (half 0xF5#8 0x0F#8).toNat := by decide

theorem witness_Append_table : (appendArgs 1 fullTable).ctl.port.act = .collecting .append [1, 0, 1] ∧
    (half 0x01#8 0x00#8).toNat = 1 ∧ 16 - (appendArgs 1 fullTable).ctl.et.length <
      extentsFormed ((appendArgs 1 fullTable).ctl.openPage (appendArgs 1 fullTable).env) (slotsOf 4084) := by decide

/-- The station with two blocks in its pool, one below the reserve. -/
def poolOfTwo : State := appendArgs 0xF4#8 (fun c => { c with pool := [2, 3] })

theorem witness_Append_noRoom : (half 0xF4#8 0x0F#8).toNat = 4084 ∧
    extentsFormed (poolOfTwo.ctl.openPage poolOfTwo.env) (slotsOf 4084) ≤ 16 - poolOfTwo.ctl.et.length ∧
    fits (poolOfTwo.ctl.openPage poolOfTwo.env) (slotsOf 4084) = false ∧
    (poolOfTwo.ctl.openBlock .own = none ∧ poolOfTwo.ctl.pool.length < 3) := by decide

/-- The station with no page seq left. -/
def noSeq : State := appendArgs 0xF4#8 (fun c => { c with nextSeq := none })

theorem witness_Append_exhausted : extentsFormed (noSeq.ctl.openPage noSeq.env) (slotsOf 4084) ≤ 16 - noSeq.ctl.et.length ∧
    fits (noSeq.ctl.openPage noSeq.env) (slotsOf 4084) = false ∧
    ¬ (65536 ≤ noSeq.ctl.dir.length ∨ (noSeq.ctl.openBlock .own = none ∧ noSeq.ctl.pool.length < 3)) ∧
    noSeq.ctl.nextSeq = none := by decide

/-- The station with page 9 open. -/
def page9Open (l0 : Byte) : State := appendArgs l0 withPage9

theorem witness_Append_fits : (page9Open 0xF4#8).env.rstLow = false ∧ (page9Open 0xF4#8).ctl.station = .active ∧
    (page9Open 0xF4#8).ctl.port.act = .collecting .append [1, 0, 0xF4#8] ∧ (half 0xF4#8 0x0B#8).toNat = 3060 ∧
    extentsFormed ((page9Open 0xF4#8).ctl.openPage (page9Open 0xF4#8).env) ((12 + 3060 + 511) / 512)
      ≤ 16 - (page9Open 0xF4#8).ctl.et.length ∧
    (page9Open 0xF4#8).ctl.openPage (page9Open 0xF4#8).env = some (0, page9) ∧
    page9.used + (12 + 3060 + 511) / 512 ≤ 8 := by decide

theorem witness_Append_newPage : extentsFormed ((page9Open 0xF4#8).ctl.openPage (page9Open 0xF4#8).env) (slotsOf 4084)
      ≤ 16 - (page9Open 0xF4#8).ctl.et.length ∧
    fits ((page9Open 0xF4#8).ctl.openPage (page9Open 0xF4#8).env) (slotsOf 4084) = false ∧
    (page9Open 0xF4#8).ctl.dir.length < 65536 ∧ 3 ≤ (page9Open 0xF4#8).ctl.pool.length ∧
    (page9Open 0xF4#8).ctl.nextSeq = some 10 ∧ (10#32) ≤ (page9Open 0xF4#8).ctl.mark.recorded.ceiling := by decide

/-- The same with the ceiling reached, no page open. -/
def atCeiling : State := appendArgs 1 (fun c => { c with nextSeq := some 21 })

theorem witness_Append_ceiling : atCeiling.ctl.openPage atCeiling.env = none ∧ fits none (slotsOf 1) = false ∧
    atCeiling.ctl.nextSeq = some 21 ∧ atCeiling.ctl.mark.recorded.ceiling < 21 ∧ atCeiling.ctl.mark.write = none ∧
    atCeiling.ctl.mark.frozenOwed = false ∧ atCeiling.ctl.mark.recordedSeq ≠ topSeq ∧
    extentsFormed none (slotsOf 1) ≤ 16 - atCeiling.ctl.et.length ∧ atCeiling.ctl.dir.length < 65536 ∧
    3 ≤ atCeiling.ctl.pool.length := by decide

/-- The same page with nothing unflushed. -/
def flushed9 : FillPage :=
  { page9 with extents := [{ number := 0, first := 0, count := 2, records := 2, starts := 0x03#8, closing := false }] }

theorem witness_Append_flushedPage : (appendArgs 1 (withFill flushed9)).ctl.openPage up.env
      = some (0, flushed9) ∧ flushed9.unflushed = false := by decide

theorem witness_Append_closes : fits ((appendArgs 0xF4#8 (withFill flushed9)).ctl.openPage up.env) (slotsOf 4084) = false ∧
    extentsFormed ((appendArgs 0xF4#8 (withFill flushed9)).ctl.openPage up.env) (slotsOf 4084) ≤ 16 := by decide

/-- A formation of page 9 can begin: what `Ctl.formsExtent` asks of the state. -/
abbrev canForm (s : State) : Prop :=
  s.ctl.openPage s.env = some (0, page9) ∧ page9.formed < page9.used ∧ s.ctl.ownEntry s.env 9 = some entry9 ∧
  entry9.localPage = some { block := 2, page := 8 } ∧ s.ctl.inRetired { block := 2, page := 8 } = false ∧
    page9.failed = false ∧
  entry9.ownDepth s.env = page9.extents.length ∧ s.ctl.et.length < 16 ∧ s.ctl.etEntry 9 0 = none ∧ entry9.pendingExt = none

theorem witness_Append_forms : canForm (page9Open 0xF4#8) := by decide

theorem test_append : after (.append 0x00#8) (page9Open 0x0A#8) (fun t => t.ctl.port.act)
    = some (.appendData { tag := 1, length := 10, gen := 0, stamp := 100, slots := 1, reserved := 0 } 0) := by decide

theorem test_append_newPage : after (.append 0x0F#8) (appendArgs 0xF4#8 id) (fun t => t.ctl.port.act)
    = some (.appendOpening { tag := 1, length := 4084, gen := 0, stamp := 100, slots := 8, reserved := 1 }) := by
  decide +kernel

theorem witness_AppendDataPhase : up.env.rstLow = false ∧ (∀ a got, up.ctl.port.act ≠ .appendData a got) ∧
    appending.ctl.port.act = .appendData tenBytes 0 ∧ appending.ctl.openPage appending.env = some (0, page9) ∧
    0 + 1 ≠ tenBytes.length :=
  ⟨rfl, fun _ _ => by simp [up, Ctl.reset, Port.reset], by decide, by decide, by decide⟩

/-- One byte of payload is missing, and the record takes six slots. -/
def lastByte (used : Nat) (taken : Nat) : State :=
  upWith (fun c => { withPage9 c with
    fill := #v[some { page9 with used := used }, none],
    port := { c.port with act := .appendData { tenBytes with slots := taken } 9 } })

theorem witness_AppendDataPhase_last :
    (lastByte 2 5).ctl.port.act = .appendData { tenBytes with slots := 5 } 9 ∧
    (lastByte 2 5).ctl.openPage (lastByte 2 5).env = some (0, { page9 with used := 2 }) ∧ 9 + 1 = tenBytes.length ∧
    2 + 5 ≠ 8 ∧
    (lastByte 2 6).ctl.port.act = .appendData { tenBytes with slots := 6 } 9 ∧
    (lastByte 2 6).ctl.openPage (lastByte 2 6).env = some (0, { page9 with used := 2 }) ∧ 2 + 6 = 8 := by decide

theorem witness_AppendDataPhase_forms : canForm (lastByte 2 6) ∧ (lastByte 2 6).ctl.station ≠ .leaving := by decide

theorem witness_AppendDataPhase_cleared : Memory.wf clearByte page9.bytes = true := by decide

theorem witness_AppendDataPhase_immediate : (upPort .resetWait).ctl.busy = true ∧
    (upPort (.collecting .scan [1])).ctl.port.act = .collecting .scan [1] ∧
    (Instr.flush = .flush ∨ Instr.flush = .scanNext) := by
  decide

theorem test_appendPayloadByte : after (.appendPayloadByte 0x66#8)
      (upWith (fun c => { withPage9 c with port := { c.port with act := .appendData { tenBytes with length := 1 } 0 } }))
    (fun t => (t.ctl.port.result, (t.ctl.fill.get 0).map (fun p => (Memory.readRun 0 p.bytes 1024 13, p.used, p.starts,
    p.records))))
    = some ([0x00#8, 0x09#8, 0x00#8, 0x00#8, 0x00#8, 0x02#8],
        some ([1, 0, 1, 0, 0, 0, 0, 0, 0, 0, 1, 2, 0x66#8], 3, 0x07#8, 3)) := by decide

theorem test_appendPayloadByte_early : after (.appendPayloadByte 0x66#8) up (fun t => t.ctl.port.overrun) = some true := by
    decide

/-- Page 9 open in ACTIVE. -/
def active9 : State := upWith withPage9

theorem witness_Flush_nothing : up.env.rstLow = false ∧ up.ctl.station = .active ∧ up.ctl.port.act = .idle ∧
    up.ctl.openPage up.env = none ∧
    (upWith (withFill flushed9)).ctl.openPage up.env = some (0, flushed9) ∧
    flushed9.used ≤ flushed9.formed := by decide

theorem witness_Flush_extent : active9.ctl.openPage active9.env = some (0, page9) ∧ page9.formed < page9.used ∧
    active9.ctl.et.length < 16 ∧ active9.ctl.etEntry page9.seq page9.extents.length = none ∧
    active9.ctl.ownEntry active9.env page9.seq = some entry9 ∧
    active9.ctl.inRetired { block := 2, page := 8 } = false := by decide

theorem witness_Flush_table : 16 ≤ (upWith (fun c => fullTable (withPage9 c))).ctl.et.length ∧
    (upWith (fun c => fullTable (withPage9 c))).ctl.openPage up.env = some (0, page9) := by decide

theorem witness_PowerFailWarning_forms : canForm active9 ∧ active9.ctl.station = .active := by decide

theorem witness_PowerFailWarning_formed : (upWith (withFill flushed9)).ctl.openPage up.env = some (0, flushed9) ∧
    flushed9.used ≤ flushed9.formed ∧ up.ctl.openPage up.env = none := by decide

theorem test_powerFailWarning_forms : after .powerFailWarning active9
    (fun t => (t.ctl.et.map (fun x => (x.seq, x.first, x.count)),
    (t.ctl.units.get 0).queue.map (fun r => (r.who, r.emergency))))
    = some ([(9, 0, 2)], [(.own 9 false 1, true)]) := by decide

theorem test_flush : after .flush up (fun t => t.ctl.port.result) = some [0x01#8] := by decide

theorem test_flush_extent : after .flush active9
    (fun t => (t.ctl.port.act, t.ctl.et.map (fun x => (x.seq, x.first, x.count)),
      (t.ctl.units.get 0).queue.length)) = some (.flushWait 9 0, [(9, 0, 2)], 1) := by decide

/-- The station with three argument bytes of a RELEASE. -/
def releaseArgs (f : Ctl → Ctl) : State :=
  upWith (fun c => f { c with nextSeq := some 10, ownMark := 4,
                              mark := { c.mark with active := some 0, recorded := { c.mark.recorded with release := 4 } },
                              port := { c.port with act := .collecting .release [0, 0, 0] } })

/-- The station with a mark page being written. -/
def writing (c : Ctl) : Ctl :=
  { c with mark := { c.mark with write := some { vals := { gen := 1, release := 0, ceiling := 0 }, seq := 1,
                                                 erasing := false } } }

theorem witness_Release : (releaseArgs id).env.rstLow = false ∧ (releaseArgs id).ctl.station = .active ∧
    (releaseArgs id).ctl.port.act = .collecting .release [0, 0, 0] ∧ word 0 0 0 0 ≤ (releaseArgs id).ctl.ownMark ∧
    word 4 0 0 0 ≤ (releaseArgs id).ctl.ownMark ∧ (releaseArgs id).ctl.openPage up.env = none ∧
    (releaseArgs id).ctl.ownMark < word 10 0 0 0 ∧ 10#32 - 1 < word 10 0 0 0 ∧
    (releaseArgs id).ctl.ownMark < word 9 0 0 0 ∧ word 9 0 0 0 ≤ 10#32 - 1 ∧ word 5 0 0 0 ≤ 10#32 - 1 ∧
    (releaseArgs id).ctl.mark.write = none ∧ (releaseArgs id).ctl.mark.frozenOwed = false ∧
    (releaseArgs id).ctl.mark.recordedSeq ≠ topSeq ∧ (releaseArgs id).ctl.mark.recorded.release < word 5 0 0 0 := by decide

theorem witness_Release_writing : (releaseArgs writing).ctl.mark.write =
      some { vals := { gen := 1, release := 0, ceiling := 0 }, seq := 1, erasing := false } ∧
    (releaseArgs writing).ctl.ownMark < word 9 0 0 0 := by decide

theorem witness_Release_openPage : (releaseArgs withPage9).ctl.openPage up.env = some (0, page9) ∧
    (releaseArgs withPage9).ctl.ownMark < word 8 0 0 0 ∧ word 8 0 0 0 ≤ page9.seq - 1 ∧ page9.seq - 1 < word 9 0 0 0 := by
    decide

/-- RELEASE with four argument bytes. -/
theorem test_release : after (.release 0x00#8) (upWith (fun c => { c with
      nextSeq := some 10, mark := { c.mark with active := some 0 }, port :=
      { c.port with act := .collecting .release [3, 0, 0] } }))
    (fun t => (t.ctl.port.act, t.ctl.mark.write.map (fun w => (w.vals.release, w.seq))))
    = some (.releaseWait 3, some (3, 1)) := by
  decide

theorem test_release_range : after (.release 0x01#8) (releaseArgs id) (fun t => t.ctl.port.result) = some [0x0C#8] := by
    decide

/-! ## READ, SCAN and SCAN NEXT -/

/-- A replica of page 7 of station 3, two extents deep here. -/
def entry7 : Entry :=
  { id := { origin := 3, seq := 7 }, role := .replica, localPage := some { block := 4, page := 0 }, relocPage := none,
    pendingExt := none, known := 2, used := 3, closed := false, depths := #v[0, 2, 0, 2, 0, 0, 0, 0], targets := [],
    extra := none, excluded := 0, under := false, copyEnd := 3 }

/-- The station with that replica, and the read pair and port given. -/
def holding7 (pair : Vector PairBuf 2) (a : Activity) : State :=
  upWith (fun c => { c with dir := [entry7], pair := pair, port := { c.port with act := a } })

/-- Both buffers of the pair loading page 6. -/
def bothLoading : Vector PairBuf 2 := #v[.loading { origin := 3, seq := 6 } 1, .loading { origin := 3, seq := 6 } 1]

/-- The first buffer of the pair loading page 6. -/
def oneLoading : Vector PairBuf 2 := #v[.loading { origin := 3, seq := 6 } 1, .ended]

/-- READ of page 7 but for the slot. -/
def readArgs (pair : Vector PairBuf 2) : State := holding7 pair (.collecting .read [3, 7, 0, 0, 0])

theorem witness_Read_badArg : (upPort (.collecting .read [8, 1, 0, 0, 0])).env.rstLow = false ∧
    (upPort (.collecting .read [8, 1, 0, 0, 0])).ctl.station ≠ .mounting ∧
    (upPort (.collecting .read [8, 1, 0, 0, 0])).ctl.port.act = .collecting .read [8, 1, 0, 0, 0] ∧ 7 < (8#8).toNat ∧
    (upPort (.collecting .read [7, 0, 0, 0, 0])).ctl.port.act = .collecting .read [7, 0, 0, 0, 0] ∧ word 0 0 0 0 = 0 := by
    decide

theorem witness_Read_notHeld : (upPort (.collecting .read [7, 1, 0, 0, 0])).ctl.port.act = .collecting .read [7, 1, 0, 0,
    0] ∧
    (7 : Station).val = (7#8).toNat ∧ (7#8).toNat ≤ 7 ∧ word 1 0 0 0 ≠ 0 ∧
    (upPort (.collecting .read [7, 1, 0, 0, 0])).ctl.entry { origin := 7, seq := word 1 0 0 0 } = none := by decide

theorem witness_Read_held : ∀ pair ∈ [#v[.empty, .empty], oneLoading, bothLoading],
    (readArgs pair).ctl.port.act = .collecting .read [3, 7, 0, 0, 0] ∧
    (readArgs pair).ctl.entry { origin := 3, seq := word 7 0 0 0 } = some entry7 ∧
    entry7.localPage = some { block := 4, page := 0 } ∧ 1 ≤ entry7.ownDepth up.env := by decide

theorem witness_Read_buffers :
    ((vmap PairBuf.release #v[PairBuf.empty, PairBuf.empty]).get 0).outstanding = false ∧
    ((vmap PairBuf.release oneLoading).get 1).outstanding = false ∧
    ((vmap PairBuf.release oneLoading).get 0).outstanding = true ∧
    ((vmap PairBuf.release bothLoading).get 0).outstanding = true ∧
    ((vmap PairBuf.release bothLoading).get 1).outstanding = true := by decide

theorem test_read : after (.read 2) (readArgs oneLoading)
    (fun t => (t.ctl.port.act, t.ctl.pair, (t.ctl.units.get 0).queue.length))
    = some (.readWait 1 2, #v[.abandoned { origin := 3, seq := 6 } 1, .loading { origin := 3, seq := 7 } 2], 1) := by decide

theorem test_read_notHeld : after (.read 2) (upPort (.collecting .read [3, 7, 0, 0, 0])) (fun t => t.ctl.port.result)
    = some [0x09#8] := by decide

/-- SCAN of station 3 but for the last byte. -/
def scanArgs (pair : Vector PairBuf 2) : State := holding7 pair (.collecting .scan [3, 0, 0, 0])

theorem witness_Scan_badArg : (upPort (.collecting .scan [8, 0, 0, 0])).env.rstLow = false ∧
    (upPort (.collecting .scan [8, 0, 0, 0])).ctl.station ≠ .mounting ∧
    (upPort (.collecting .scan [8, 0, 0, 0])).ctl.port.act = .collecting .scan [8, 0, 0, 0] ∧ 7 < (8#8).toNat := by decide

theorem witness_Scan : ∀ pair ∈ [#v[.empty, .empty], oneLoading, bothLoading],
    (scanArgs pair).ctl.port.act = .collecting .scan [3, 0, 0, 0] ∧ (3 : Station).val = (3#8).toNat ∧
    (scanArgs pair).ctl.dir.find? (fun e =>
        decide (PageId.key { origin := 3, seq := word 0 0 0 0 } ≤ e.id.key) && decide (e.id.origin = 3) &&
          (e.localPage.isSome && decide (1 ≤ e.ownDepth up.env))) = some entry7 := by decide

theorem witness_Scan_end : (upPort (.collecting .scan [7, 0, 0, 0])).ctl.port.act = .collecting .scan [7, 0, 0, 0] ∧
    (upPort (.collecting .scan [7, 0, 0, 0])).ctl.dir = [] ∧
    ((vmap PairBuf.release (upPort (.collecting .scan [7, 0, 0, 0])).ctl.pair).get 0).outstanding = false := by decide

theorem test_scan : after (.scan 0) (scanArgs #v[.empty, .empty]) (fun t => (t.ctl.port.act, t.ctl.pair.get 0))
    = some (.scanWait 0, .loading { origin := 3, seq := 7 } 2) := by decide

theorem test_scan_end : after (.scan 1) (scanArgs #v[.empty, .empty]) (fun t => t.ctl.port.result) = some [0x10#8] := by
    decide

/-- A scan whose current buffer is 0, buffer 1 as given. -/
def scanning (position : Option Nat) (other : PairBuf) (dir : List Entry) : State :=
  upWith (fun c => { c with
    dir := dir,
    pair := #v[.loaded { origin := 3, seq := 6 } 1 [(4112, 0x00#8), (4113, 0x00#8), (4114, 0x02#8), (4115, 0x01#8),
    (4116, 0x01#8)] 0, other],
    scan := some { origin := 3, cursor := PageId.key { origin := 3, seq := 7 }, current := 0, position := position } })

theorem witness_ScanNext_none : up.env.rstLow = false ∧ up.ctl.station ≠ .mounting ∧ up.ctl.port.act = .idle ∧
    up.ctl.scan = none := by decide

theorem witness_ScanNext_record : ∃ sc m, (scanning (some 0) .empty []).ctl.scan = some sc ∧ sc.position = some 0 ∧
    (scanning (some 0) .empty []).ctl.pair.get sc.current = .loaded { origin := 3, seq := 6 } 1 m 0 := ⟨_, _, rfl, rfl, rfl⟩

theorem witness_ScanNext_swap : ∀ other ∈ [PairBuf.loading { origin := 3, seq := 7 } 2,
    .abandoned { origin := 3, seq := 7 } 2, .ended,
      .damaged { origin := 3, seq := 7 }, .empty, .loaded { origin := 3, seq := 7 } 2 [] 0],
    (scanning none other []).ctl.scan = some { origin := 3, cursor := PageId.key { origin := 3, seq := 7 }, current := 0,
                                               position := none } ∧
    (scanning none other []).ctl.pair.get (0 + 1) = other := by decide

theorem witness_ScanNext_empty : (scanning none .empty [entry7]).ctl.dir.find? (fun e =>
      decide (PageId.key { origin := 3, seq := 7 } ≤ e.id.key) && decide (e.id.origin = 3) &&
        (e.localPage.isSome && decide (1 ≤ e.ownDepth up.env))) = some entry7 ∧
    (scanning none .empty []).ctl.dir = [] := by decide

theorem test_scanNext : after .scanNext (scanning (some 0) .empty [])
    (fun t => (t.ctl.port.result.take 7, t.ctl.scan.map (·.position))) = some ([0x00#8, 0x03#8, 0x06#8, 0, 0, 0, 0],
    some none) := by
  decide

theorem test_scanNext_ends : after .scanNext (scanning none .ended []) (fun t => (t.ctl.port.result, t.ctl.scan))
    = some ([0x10#8], none) := by
  decide

theorem witness_OpenOwnPage_waits : up.env.rstLow = false ∧ (∀ a, up.ctl.port.act ≠ .appendOpening a) ∧
    (upWith (fun c => { c with fill := #v[some page9, some page9] })).ctl.fill.get 0 ≠ none ∧ up.ctl.nextSeq = none ∧
    atCeiling.ctl.nextSeq = some 21 ∧ atCeiling.ctl.mark.recorded.ceiling < 21 :=
  ⟨rfl, fun _ => by simp [up, Ctl.reset, Port.reset], by decide, by decide, by decide, by decide⟩

/-- An APPEND waits for page 20, the last below the ceiling. -/
def opening (fill : Vector (Option FillPage) 2) (pool : List Nat) (blocks : List Block) : State :=
  upWith (fun c => { c with nextSeq := some 20,
                            mark := { c.mark with recorded := { c.mark.recorded with ceiling := 20 } }, fill := fill,
                            pool := pool, blocks := blocks, port := { c.port with act := .appendOpening tenBytes } })

/-- An open own block with page 127 left. -/
def ownBlock : Block := { num := 6, state := .openOwn, next := 127, pages := [] }

theorem witness_OpenOwnPage : (opening #v[none, none] [2, 3, 4] []).ctl.port.act = .appendOpening tenBytes ∧
    (opening #v[none, none] [2, 3, 4] []).ctl.fill.get 0 = none ∧
    (opening #v[some page9, none] [2, 3, 4] []).ctl.fill.get 1 = none ∧
    (opening #v[some page9, none] [2, 3, 4] []).ctl.fill.get 0 ≠ none ∧
    (opening #v[none, none] [2, 3, 4] []).ctl.nextSeq = some 20 ∧
    (20#32) ≤ (opening #v[none, none] [2, 3, 4] []).ctl.mark.recorded.ceiling ∧
    (opening #v[none, none] [2, 3, 4] []).ctl.dir.length < 65536 ∧
    (opening #v[none, none] [2, 3, 4] []).ctl.ownEntry up.env 20 = none ∧
    (opening #v[none, none] [2, 3, 4] []).ctl.openBlock .own = none ∧
    3 ≤ (opening #v[none, none] [2, 3, 4] []).ctl.pool.length ∧ (opening #v[none, none] [2, 3, 4] []).ctl.pool.head?
    = some 2 ∧
    (opening #v[none, none] [2, 3] [ownBlock]).ctl.openBlock .own = some ownBlock ∧
    ((opening #v[none, none] [2, 3] []).ctl.openBlock .own = none ∧
    (opening #v[none, none] [2, 3] []).ctl.pool.length < 3) := by
  decide

theorem test_openOwnPage : after .openOwnPage (opening #v[some page9, none] [2, 3, 4] [])
    (fun t => (t.ctl.port.act, t.ctl.nextSeq, t.ctl.pool, t.ctl.dir.map (·.localPage)))
    = some (.appendData tenBytes 0, some 21, [3, 4], [some { block := 2, page := 0 }]) := by decide

theorem test_openOwnPage_noSpace : after .openOwnPage (opening #v[none, none] [2, 3] []) (fun t => t.ctl.port.result)
    = some [0x05#8] := by
  decide

/-! ## The array units -/

/-- A page read of a copy job, class 5, and one of a port command, class 2. -/
def copyRead : Request := { who := .copyJob 0, op := .pageRead { block := 4, page := 0 }, emergency := false }
def portRead : Request := { who := .port 0 { origin := 3, seq := 7 }, op := .pageRead { block := 4, page := 0 },
                            emergency := false }

/-- A program of an own page that names no descriptor place. -/
def bareProgram : Request :=
  { who := .own 9 false 1, emergency := false,
    op := .program { page := { block := 2, page := 8 }, first := 0, count := 1, identity := none, descs := [],
                     source := .fill 0 } }

/-- Unit 0 idle with a queue and a favour count. -/
def queued (q : List Request) (favour : Nat) : State :=
  upWith (fun c => { c with units := #v[{ busy := none, queue := q, favour := favour }, UnitState.reset] })

theorem witness_ArbiterGrant_nothing : up.env.rstLow = false ∧
    (up.ctl.units.get 0).queue.filter (fun r => r.grantable up.ctl.station) = [] ∧
    (programming.ctl.units.get 0).busy ≠ none := by
  decide

theorem witness_ArbiterGrant_choice : ∀ favour ∈ [5, 6],
    ((queued [copyRead, portRead] favour).ctl.units.get 0).busy = none ∧
    ((queued [copyRead, portRead] favour).ctl.units.get 0).queue.filter (fun r => r.grantable .active) = [copyRead,
    portRead] := by
  decide

theorem witness_ArbiterGrant_favour6 : [copyRead, portRead] = [] ++ copyRead :: [portRead] ∧ 3 ≤ copyRead.who.cls ∧
    ∀ y ∈ ([] : List Request), y.who.cls < 3 := by decide

theorem witness_ArbiterGrant_favour5 : [copyRead, portRead] = [copyRead] ++ portRead :: [] ∧
    (∀ y ∈ [copyRead, portRead], portRead.who.cls ≤ y.who.cls) ∧ (∀ y ∈ [copyRead], portRead.who.cls < y.who.cls) ∧
    (∀ a, portRead.op.page = some a → (queued [copyRead, portRead] 5).ctl.isDead a = false) ∧
    ∀ p, portRead.op ≠ .program p := ⟨by decide, by decide, by decide, each_some (by decide), by simp [portRead]⟩

theorem witness_ArbiterGrant_dead : portRead.op.page = some { block := 4, page := 0 } ∧
    (upWith (fun c => { c with blocks := [{ num := 4, state := .openReplica, next := 1,
                                            pages := [{ page := 0, live := false, count := 1 }] }] })).ctl.isDead
      { block := 4, page := 0 } = true := by decide

theorem witness_ArbiterGrant_stale : ({ portRead with stale := true } : Request).stale = true ∧ portRead.stale = false ∧
    copyRead.stale = false ∧ bareProgram.stale = false := by decide

/-- Page 8 of block 2 has been programmed three times. -/
def worn : Block := { num := 2, state := .openOwn, next := 9, pages := [{ page := 8, live := true, count := 3 }] }

theorem witness_ArbiterGrant_refused : (∃ p, bareProgram.op = .program p ∧ p.descs = [] ∧
    (queued [bareProgram] 0).ctl.isDead p.page = false) ∧
    bareProgram.who ≠ .mark ∧ 3 ≤ (upWith (fun c => { c with blocks := [worn] })).ctl.programCount { block := 2, page := 8 } :=
  ⟨⟨_, rfl, by decide, by decide⟩, by decide, by decide⟩

theorem test_arbiterGrant : after (.arbiterGrant 0) (queued [copyRead, portRead] 5)
    (fun t => ((t.ctl.units.get 0).busy.map (·.req), (t.ctl.units.get 0).favour)) = some (some portRead, 6) := by decide

theorem test_arbiterGrant_favour : after (.arbiterGrant 0) (queued [copyRead, portRead] 6)
    (fun t => ((t.ctl.units.get 0).busy.map (·.req), (t.ctl.units.get 0).favour)) = some (some copyRead, 0) := by decide

/-! ### A page in the array -/

/-- The slot of a record without payload, the rest of it FFH. -/
def slot0 : List Byte := [0, 0, 1, 0, 0, 0, 0, 0, 0, 0, 1, 0] ++ List.replicate 500 0xFF#8

/-- The extent that it makes. -/
def extent0 : ExtentInfo := { number := 0, first := 0, count := 1, records := 1, starts := 0x01#8, closing := false }

/-- The program of page 7 of station 3. -/
def program7 : ProgramReq :=
  { page := { block := 4, page := 0 }, first := 0, count := 1, identity := some (identityBytes 0x03#8 7),
    descs := [(0, descriptorBytes extent0 0x08#8 (crc slot0))], source := .rx 0 }

/-- The array with that page. -/
def flash7 : Flash := Flash.blank.programPass program7 slot0 0

/-- What a read of it delivers. -/
def read7 : PageRead := flash7.readPage program7.page clean 0

set_option maxRecDepth 100000 in
theorem test_readPage : read7.validDesc 0 = some { info := extent0, holders := 0x08#8, check := crc slot0, sound := true } ∧
    read7.unsound 1 1 = false ∧ read7.highest = 0 := by decide +kernel

theorem test_readPage_corrected : (flash7.readPage program7.page #v[4, 0, 0, 0, 0, 0, 0, 0, 0, 0, 0, 0] 0).highest = 4 ∧
    ((flash7.readPage program7.page #v[4, 0, 0, 0, 0, 0, 0, 0, 0, 0, 0, 0] 0).cond 0) = .corrected 4 := by decide +kernel

/-- A read of it in which slot 0 cannot be corrected. -/
def bad0 : ReadReport := #v[5, 0, 0, 0, 0, 0, 0, 0, 0, 0, 0, 0]

theorem test_readPage_damaged : (flash7.cond program7.page bad0 0) = .uncorrectable := by decide +kernel

/-- The check that the manual's CRC gives of the bytes 31H to 39H, bit 0 first. -/
theorem test_crc : crc [0x31, 0x32, 0x33, 0x34, 0x35, 0x36, 0x37, 0x38, 0x39] = 0xBB3D#16 := by decide +kernel

/-- Replica 7 as that page has it. -/
def held7 : Entry := { entry7 with known := 1, used := 1, depths := #v[0, 1, 0, 1, 0, 0, 0, 0], copyEnd := 1 }

/-- The station with that array, unit 0 busy with a request. -/
def over7 (who : Requester) (op : ArrayOp) (f : Ctl → Ctl) : State := { upBusy (busyWith who op) f with flash := flash7 }

/-! ### Programs and erases -/

/-- A program of slot 7 and descriptor place 2. -/
def lastParts : ProgramReq :=
  { page := { block := 6, page := 127 }, first := 7, count := 1, identity := some (identityBytes 0x01#8 9),
    descs := [(2, List.replicate 16 0x11#8)], source := .fill 0 }

/-- Unit 0 busy with it. -/
def writingLast (who : Requester) (f : Ctl → Ctl) : State :=
  upBusy { req := { who := who, op := .program lastParts, emergency := false }, data := slot0 } f

theorem witness_ProgramsWriteTheArray : ∀ who ∈ [Requester.mark, .own 9 false 1, .replica 0, .replicaReloc 0],
    ((writingLast who id).ctl.units.get 0).busy
    = some { req := { who := who, op := .program lastParts, emergency := false }, data := slot0 } ∧
    (writingLast who id).env.rstLow = false ∧ (writingLast who id).ctl.completed = [] := by
  decide +kernel

theorem witness_ProgramsWriteTheArray_kinds : Requester.isMark .mark = true ∧ Requester.isOwn (.own 9 false 1) = true ∧
    (Requester.replica 0).replicaBuf.isSome = true ∧ (Requester.replicaReloc 0).relocBuf.isSome = true ∧
    (writingLast .mark id).ctl.takeCompleted 0 Requester.isMark = none := by decide

theorem witness_ProgramsWriteTheArray_parts : lastParts.first + lastParts.count ≤ 8 ∧ slot0.length = lastParts.count * 512 ∧
    (lastParts.descs.map Prod.fst).Nodup ∧ (∀ d ∈ lastParts.descs, d.1 < 3 ∧ d.2.length = 16) ∧
    (∀ g, lastParts.identity = some g → g.length = 16) :=
  ⟨by decide, by decide +kernel, by decide, by decide, each_some (by decide)⟩

theorem witness_ProgramsWriteTheArray_written : (10, List.replicate 16 0x11#8) ∉ lastParts.headerParts ∧
    (11, List.replicate 16 0x11#8) ∈ lastParts.slotParts slot0 ++ lastParts.headerParts ∧
    (11, List.replicate 16 0x11#8) ∈ lastParts.headerParts ∧ Flash.blank.programmed lastParts.page 11 = false := by decide

theorem witness_EraseDone : ((upBusy (busyWith .recordErase (.erase 511)) id).ctl.units.get 0).busy
    = some (busyWith .recordErase (.erase 511)) ∧
    ((upBusy (busyWith .markErase (.erase 1)) id).ctl.units.get 0).busy = some (busyWith .markErase (.erase 1)) ∧
    (upWith (fun c => { c with blocks := [{ num := 2, state := .erasing, next := 0, pages := [] }] })).ctl.block 2
      = some { num := 2, state := .erasing, next := 0, pages := [] } ∧
    (upWith writing).ctl.mark.write = some { vals := { gen := 1, release := 0, ceiling := 0 }, seq := 1, erasing := false } ∧
    (upPort (.releaseWait 5)).ctl.port.act = .releaseWait 5 := by decide

/-- The erase of block 4 passes while a read of one of its pages waits. -/
def erasingUnder (st : StationState) : State :=
  upWith (fun c => { c with
    station := st, units := #v[{ busy := some (busyWith .recordErase (.erase 4)), queue := [portRead], favour := 0 },
    UnitState.reset],
    blocks := [{ num := 4, state := .erasing, next := 0, pages := [] }] })

theorem witness_EraseDone_waiting : ∀ st ∈ [StationState.mounting, .active], (erasingUnder st).ctl.station = st ∧
    ((erasingUnder st).ctl.units.get 0).busy = some (busyWith .recordErase (.erase 4)) ∧
    ((erasingUnder st).ctl.units.get 0).queue = [portRead] ∧ portRead.op.page = some { block := 4, page := 0 } ∧
    (erasingUnder st).ctl.block 4 = some { num := 4, state := .erasing, next := 0, pages := [] } := by decide

theorem test_recordEraseDone_stale : after (.recordEraseDone 0 (.pass 1)) (erasingUnder .active)
    (fun t => ((t.ctl.units.get 0).queue.map (·.stale), t.ctl.pool)) = some ([true], [4]) := by decide +kernel

theorem test_recordEraseDone : after (.recordEraseDone 0 (.pass 5)) (upBusy (busyWith .recordErase (.erase 2))
      (fun c => { c with blocks := [{ num := 2, state := .erasing, next := 0, pages := [] }] }))
    (fun t => (t.ctl.pool, t.ctl.blocks.map (·.state))) = some ([2], [.free]) := by decide +kernel

theorem test_markEraseDone : after (.markEraseDone 0 (.pass 1)) (upBusy (busyWith .markErase (.erase 1))
      (fun c => writing { c with mark := { c.mark with active := some 0, next := 128 } }))
    (fun t => (t.ctl.mark.active, t.ctl.mark.next, (t.ctl.units.get 1).queue.length)) = some (some 1, 0, 1) := by
    decide +kernel

/-! ### The mount -/

/-- MOUNTING, unit 0 reading a mark page, so many read before. -/
def readingMark (n : Nat) : State :=
  upBusy (busyWith .mountMark (.pageRead { block := 0, page := 127 }))
    (fun c => { c with station := .mounting, mount := { c.mount with marksRead := n } })

theorem witness_MarkLogReadDone : ∀ n ∈ [254, 255], (readingMark n).env.rstLow = false ∧
    (readingMark n).ctl.takeCompleted 0 Requester.isMountMark = none ∧
    ((readingMark n).ctl.units.get 0).busy = some (busyWith .mountMark (.pageRead { block := 0, page := 127 })) ∧
    (readingMark n).ctl.mount.marksRead = n ∧ (readingMark n).ctl.mark.write = none ∧
    (readingMark n).ctl.mark.frozenOwed = false := by decide

theorem test_markLogReadDone : after (.markLogReadDone 0 clean) (readingMark 255)
    (fun t => (t.ctl.gen, t.ctl.nextSeq, t.ctl.mount.started, t.ctl.mark.write.map (·.seq)))
    = some (1, some 1, true, some 1) := by
  decide +kernel

/-- MOUNTING, unit 0 reading in the scan of a block. -/
def mountScan (who : Requester) (op : ArrayOp) (ph : ScanPhase) : State :=
  over7 who op (fun c => { c with station := .mounting,
                                  mount :=
                                  { c.mount with started := true, scans := #v[some { block := 4, phase := ph }, none] } })

theorem witness_MountScanReads_header : ∀ ph ∈ [ScanPhase.first, .last, .empty 125 true, .empty 126 true, .headers 126 [],
      .headers 127 [{ page := 0, live := false, count := 1 }]],
    (mountScan .mountHeader (.headerRead { block := 4, page := 0 }) ph).env.rstLow = false ∧
    ((mountScan .mountHeader (.headerRead { block := 4, page := 0 }) ph).ctl.units.get 0).busy
      = some (busyWith .mountHeader (.headerRead { block := 4, page := 0 })) ∧
    (mountScan .mountHeader (.headerRead { block := 4, page := 0 }) ph).ctl.mount.scans.get 0
    = some { block := 4, phase := ph } := by
  decide

/-- The array with the factory bad marker in block 4. -/
def marked : Flash := { cells := [((4 * 128) * 4160 + 4096, 0x00#8), ((4 * 128) * 4160 + 4097, 0x00#8)], parts := [] }

theorem witness_MountScanReads_conditions : (flash7.readHeader program7.page clean 0).badMark = false ∧
    (flash7.readHeader program7.page clean 0).allErased = false ∧
    (Flash.blank.readHeader program7.page clean 0).allErased = true ∧
    (Flash.blank.readHeader program7.page clean 0).badMark = false ∧
    (marked.readHeader program7.page clean 0).badMark = true := by
  decide +kernel

theorem witness_MountScanReads_page : ∀ rest ∈ [[], [({ page := 3, live := false, count := 1 } : PageInfo)]],
    ((mountScan .mountPage (.pageRead { block := 4,
                                        page :=
                                        0 }) (.pages ({ page := 0, live := false,
                                                        count := 1 } :: rest) [])).ctl.units.get 0).busy
      = some (busyWith .mountPage (.pageRead { block := 4, page := 0 })) ∧
    (mountScan .mountPage (.pageRead { block := 4,
                                       page :=
                                       0 }) (.pages ({ page := 0, live := false,
                                                       count := 1 } :: rest) [])).ctl.takeCompleted 0
      Requester.isMountPage = none := by decide

theorem test_mountHeaderReadDone : after (.mountHeaderReadDone 0 clean) (mountScan .mountHeader (.headerRead { block := 4, page := 0 }) .first)
    (fun t => (t.ctl.mount.scans.get 0, (t.ctl.units.get 0).queue))
    = some (some { block := 4, phase := .headers 1 [{ page := 0, live := false, count := 1 }] },
        [{ who := .mountHeader, op := .headerRead { block := 4, page := 1 }, emergency := false }]) := by decide +kernel

set_option maxRecDepth 100000 in
theorem test_mountPageReadDone : after (.mountPageReadDone 0 clean)
      (mountScan .mountPage (.pageRead { block := 4, page := 0 }) (.pages [{ page := 0, live := false, count := 1 }] []))
    (fun t => (t.ctl.mount.copies.map (fun x => (x.id, x.n, x.used)), (t.ctl.block 4).map (·.state),
    t.ctl.mount.scans.get 0))
    = some ([({ origin := 3, seq := 7 }, 1, 1)], some .filled, some { block := 6, phase := .first }) := by decide +kernel

/-- The scan has ended with one copy found. -/
def scanned (pfw : Bool) : State :=
  { upWith (fun c => { c with
      station := .mounting, blocks := [{ num := 8, state := .free, next := 0, pages := [] }],
      mount := { c.mount with started := true, erased := [5],
                              copies :=
                              [{ page := program7.page, id := { origin := 3, seq := 7 }, n := 1, closed := false,
                                 used := 1, holders := 0x08#8, remoteOnly := false }] } }) with
    env := { up.env with pfwLow := pfw } }

theorem witness_MountResolve_waits : up.env.rstLow = false ∧ up.ctl.station ≠ .mounting ∧
    (upIn .mounting).ctl.mount.started = false ∧
    (mountScan .mountMark (.pageRead { block := 0, page := 0 }) .first).ctl.mount.scans ≠ #v[none, none] := by decide

theorem witness_MountResolve : ∀ pfw ∈ [false, true], (scanned pfw).env.rstLow = false ∧
    (scanned pfw).ctl.station = .mounting ∧
    (scanned pfw).ctl.mount.started = true ∧ (scanned pfw).ctl.mount.scans = #v[none, none] ∧ (scanned pfw).ctl.dir = [] ∧
    ((scanned pfw).ctl.keptCopies (scanned pfw).env).length ≤ 65536 ∧ (scanned pfw).env.pfwLow = pfw := by decide

theorem test_mountResolve : after .mountResolve (scanned false)
    (fun t => (t.ctl.station, t.ctl.window, t.ctl.pool, t.ctl.dir.map (fun e => (e.id, e.known))))
    = some (.listening, some 60, [8, 5], [({ origin := 3, seq := 7 }, 1)]) := by decide

/-- Unit 0 programs a mark page for a RELEASE of 5, as often failed before. -/
def markWriting (failures : Nat) (wanted : Word) : State :=
  upBusy { req := markProgramReq 0 3, data := List.replicate 4096 0x00#8 } (fun c => { c with
    mark := { c.mark with write := some { vals := { gen := 1, release := 5, ceiling := 0 }, seq := 4, erasing := false },
                          wanted := { gen := 1, release := wanted, ceiling := 0 }, active := some 0, next := 3, failures :=
                          failures },
    port := { c.port with act := .releaseWait 5 } })

theorem witness_MarkProgramDone : ∀ failures ∈ [1, 2], (markWriting failures 5).env.rstLow = false ∧
    (markWriting failures 5).ctl.takeCompleted 0 Requester.isMark = none ∧
    ((markWriting failures 5).ctl.units.get 0).busy.map (fun b => (b.req.who, b.req.op))
    = some (.mark, (markProgramReq 0 3).op) ∧
    (markWriting failures 5).ctl.mark.write = some { vals := { gen := 1, release := 5, ceiling := 0 }, seq := 4,
                                                     erasing := false } ∧
    (markWriting failures 5).ctl.mark.failures = failures ∧
    (markWriting failures 5).ctl.mark.wanted = { gen := 1, release := 5, ceiling := 0 } ∧
    (markWriting failures 6).ctl.mark.wanted ≠ { gen := 1, release := 5, ceiling := 0 } ∧
    (markWriting failures 5).ctl.port.act = .releaseWait 5 := by decide +kernel

theorem test_markProgramDone_unwritable : after (.markProgramDone 0 .fail) (markWriting 2 5)
    (fun t => (t.ctl.station, t.ctl.mark.frozenOwed, t.ctl.port.result)) = some (.frozen, true, [0x0D#8]) := by
    decide +kernel

/-- The unwritable log leaves an APPEND without the ceiling it waits for. -/
def noCeiling : State :=
  upBusy { req := markProgramReq 0 3, data := List.replicate 4096 0x00#8 } (fun c => { c with
    mark := { c.mark with write := some { vals := { gen := 1, release := 0, ceiling := 1024 }, seq := 4, erasing := false },
                          wanted := { gen := 1, release := 0, ceiling := 1024 }, active := some 0, next := 3, failures :=
                          2 },
    nextSeq := some 1, port := { c.port with act := .appendOpening tenBytes } })

theorem witness_MarkProgramDone_append : 3 ≤ noCeiling.ctl.mark.failures + 1 ∧
    noCeiling.ctl.port.act = .appendOpening tenBytes ∧
    noCeiling.ctl.nextSeq = some 1 ∧ noCeiling.ctl.mark.recorded.ceiling < 1 ∧
    noCeiling.ctl.mark.write = some { vals := { gen := 1, release := 0, ceiling := 1024 }, seq := 4, erasing := false } := by
    decide +kernel

/-! ## Programs of own pages and of replicas -/

/-- Page 9 with its first extent formed. -/
def formed9 : FillPage := { flushed9 with used := 3 }

/-- Its entry while the extent is programmed. -/
def pending9 : Entry := { entry9 with pendingExt := some 1, known := 1, used := 2 }

/-- Its Extent Table entry. -/
def et9 : ETEntry :=
  { seq := 9, ext := 0, first := 0, count := 2, prog := .pending,
    places := [{ extra := false, target := some { station := 2, state := .awaiting, attempts := 1 } }], timer := some 40,
    settled := .none, firstSent := true }

/-- The program of that extent. -/
def program9 : ProgramReq :=
  { page := { block := 2, page := 8 }, first := 0, count := 2, identity := none, descs := [(0, List.replicate 16 0x11#8)],
    source := .fill 0 }

/-- An open own block. -/
def block2of : Block := { num := 2, state := .openOwn, next := 9, pages := [{ page := 8, live := true, count := 1 }] }

/-- Unit 0 busy with that program. -/
def programming9 (f : Ctl → Ctl) : State :=
  upBusy { req := { who := .own 9 false 1, op := .program program9, emergency := false },
           data := List.replicate 1024 0x00#8 }
    (fun c => f { c with dir := [pending9], et := [et9], fill := #v[some formed9, none], blocks := [block2of],
                         port := { c.port with act := .flushWait 9 0 } })

theorem witness_OwnProgramDone : (programming9 id).env.rstLow = false ∧
    (programming9 id).ctl.takeCompleted 0 Requester.isOwn = none ∧
    ((programming9 id).ctl.units.get 0).busy.map (fun b => (b.req.who, b.req.op))
    = some (.own 9 false 1, .program program9) ∧
    (programming9 id).ctl.entry (ownId up.env 9) = some pending9 ∧ pending9.pendingExt ≠ none ∧
    pending9.localPage = some program9.page ∧ (programming9 id).ctl.port.act = .flushWait 9 0 ∧
    (programming9 id).ctl.etEntry 9 0 = some et9 := by decide +kernel

theorem witness_OwnProgramDone_quiet : (∀ v h, (programming9 id).ctl.rxHeld v = some h → h.phase ≠ .deferred) ∧
    (∀ y ∈ (programming9 id).ctl.et, y.settled = .none ∧
      (y.seq = 9 → false = false ∧ (pending9.setDepth 1 1).extentHolders y.ext < 2)) ∧
    (∀ fb p, (programming9 id).ctl.fillOf 9 = some (fb, p) → p.extents.length ≤ 1) := by
  refine ⟨each_rx (by decide), by decide, ?_⟩
  have : ((programming9 id).ctl.fillOf 9).all (fun x => decide (x.2.extents.length ≤ 1)) = true := by decide
  intro fb p h
  rw [h] at this
  simpa using this

theorem witness_OwnProgramDone_relocates : (programming9 id).ctl.fillOf 9 = some (0, formed9) ∧
    ((programming9 id).ctl.retire 2).openBlock .own = none ∧
    ((programming9 (fun c => { c with pool := [6] })).ctl.retire 2).pool.head? = some 6 ∧
    ((programming9 (fun c => { c with blocks := [block2of, { block2of with num := 4 }] })).ctl.retire 2).openBlock .own
      = some { block2of with num := 4 } := by decide

theorem witness_OwnProgramDone_owed : (programming9 id).ctl.owed = [] := by decide

/-- Unit 0 busy with that program into the relocation page. -/
def moving9 : State :=
  upBusy { req := { who := .own 9 true 1, op := .program program9, emergency := false }, data := List.replicate 1024 0x00#8 }
    (fun c => { c with dir := [{ pending9 with relocPage := some program9.page, localPage := none }], et := [et9],
                       fill := #v[some formed9, none], blocks := [block2of] })

theorem witness_OwnProgramDone_moved :
    moving9.ctl.entry (ownId up.env 9) = some { pending9 with relocPage := some program9.page, localPage := none } ∧
    pending9.pendingExt ≠ none ∧ moving9.ctl.fillOf 9 = some (0, formed9) ∧
    ((moving9.ctl.retire 2).killPages [some program9.page]).openBlock .own = none ∧
    (({ moving9.ctl with pool := [6] }.retire 2).killPages [some program9.page]).pool.head? = some 6 := by decide

/-- The relocation of page 9 after a FAIL is refused, the page full or closed. -/
def refusing (used : Nat) (closed : Bool) (a : Activity) : State :=
  programming9 (fun c => { c with fill := #v[some { flushed9 with used := used }, none],
                                  dir := [{ pending9 with closed := closed }], port := { c.port with act := a } })

theorem witness_OwnProgramDone_refused : ∀ x ∈ [(2, false), (3, true)],
    ∀ a ∈ [Activity.flushWait 9 0, .appendData tenBytes 3],
    (((refusing x.1 x.2 .idle).ctl.retire 2).openBlock .own = none) ∧ (refusing x.1 x.2 a).ctl.pool = [] ∧
    (refusing x.1 x.2 a).ctl.port.act = a ∧ (x.2 = true ∨ flushed9.formed = x.1) ∧
    (∀ y ∈ (refusing x.1 x.2 a).ctl.et, y.settled = .none ∧
      y.places = [{ extra := false, target := some { station := 2, state := .awaiting, attempts := 1 } }] ∧
      y.prog ≠ .programmed) ∧
    pending9.extra = none ∧ (refusing x.1 x.2 a).ctl.substitute up.env { pending9 with closed := x.2 } = none ∧
    pending9.localPage ≠ none := by decide

theorem test_ownProgramDone_refused : after (.ownProgramDone 0 .fail) (refusing 2 false (.flushWait 9 0))
    (fun t => (t.ctl.port.result, t.ctl.et.map (fun x => (x.prog, x.places.length)),
    t.ctl.dir.map (fun e => (e.localPage.isSome, e.closed))))
    = some ([0x0E#8], [(.failed, 2)], [(false, true)]) := by decide +kernel

theorem witness_OwnProgramDone_stale : (upWith (fun c => { c with dir := [entry9] })).ctl.entry (ownId up.env 9)
    = some entry9 ∧
    ¬ (entry9.pendingExt ≠ none ∧ entry9.localPage = some program9.page) ∧
    (programming9 id).ctl.block program9.page.block = some block2of ∧ block2of.state = .openOwn := by decide

theorem test_ownProgramDone : after (.ownProgramDone 0 (.pass 1)) (programming9 id)
    (fun t => (t.ctl.port.result, t.ctl.et.map (·.prog), t.ctl.dir.map (·.copyEnd)))
    = some ([0x00#8, 0x09#8, 0, 0, 0, 0], [.programmed], [2]) := by decide +kernel

/-- Replica 7 with a second extent coming in slot 1. -/
def coming7 : Entry := { held7 with pendingExt := some 2, known := 2, used := 2 }

/-- The EXTENT that brings it from station 3. -/
def extent1 : ExtentBody :=
  { seq := 7, ext := 1, mask := 0x02#8, flags := 0, first := 1, count := 1, records := 1, starts := 0x02#8,
    depths := 0x0080#16,
    data := slot0 }

/-- The buffer that holds it. -/
def held1 (phase : RxPhase) (back : List (List Byte)) : RxHeld :=
  { src := 3, frame := .extent extent1, order := 0, phase := phase, image := [], back := back }

theorem witness_PowerFailWarning_buffers :
    (upWith (fun c => { c with rx := #v[.held (held1 .deferred []), .held (held1 .programming []), .claimed,
                                 .free] })).ctl.rx.get 0
      = .held (held1 .deferred []) ∧ (held1 .deferred []).phase = .deferred ∧
      (held1 .deferred []).frame.id (held1 .deferred []).src ≠ none ∧
    (held1 .programming []).phase ≠ .deferred ∧ (programming9 id).ctl.port.act = .flushWait 9 0 ∧
    (programming9 id).ctl.station = .active :=
  ⟨rfl, rfl, by simp [held1, DataFrame.id], by simp [held1], rfl, rfl⟩

/-- The program of it, in place. -/
def program7b : ProgramReq :=
  { page := { block := 4, page := 0 }, first := 1, count := 1, identity := none, descs := [(1, List.replicate 16 0x11#8)],
    source := .rx 2 }

/-- An open replica block. -/
def block4 : Block := { num := 4, state := .openReplica, next := 1, pages := [{ page := 0, live := true, count := 2 }] }

/-- Unit 0 busy with the program of that frame, in place or by relocation. -/
def programming7 (who : Requester) (phase : RxPhase) (back : List (List Byte)) (f : Ctl → Ctl) : State :=
  upBusy { req := { who := who, op := .program program7b, emergency := false }, data := slot0 }
    (fun c => f { c with dir := [{ coming7 with relocPage := if who = .replica 2 then none else some program7b.page }],
                         rx := #v[.free, .free, .held (held1 phase back), .free], blocks := [block4] })

theorem witness_ReplicaProgramDone : ∀ who ∈ [Requester.replica 2, .replicaReloc 2],
    (programming7 who .programming [] id).env.rstLow = false ∧
    (programming7 who .programming [] id).ctl.completed = [] ∧
    ((programming7 who .programming [] id).ctl.units.get 0).busy.map (fun b => (b.req.who, b.req.op))
    = some (who, .program program7b) ∧
    (programming7 who .programming [] id).ctl.rx.get 2 = .held (held1 .programming []) ∧
    (held1 .programming []).phase ≠ .deferred ∧
    (held1 .programming []).frame.id 3 = some coming7.id ∧ coming7.role = .replica ∧ coming7.id.origin ≠ up.env.me ∧
    coming7.pendingExt ≠ none ∧
    ((programming7 who .programming [] id).ctl.entry coming7.id).map (fun e => if who = .replica 2 then e.localPage else e.relocPage)
      = some (some program7b.page) := by decide +kernel

theorem witness_ReplicaProgramDone_deferred : ∀ w x, (programming7 (.replica 2) .programming [] id).ctl.rxHeld w = some x →
    x.phase ≠ .deferred := each_rx (by decide)

theorem witness_ReplicaProgramDone_moves : coming7.ownDepth up.env = 1 ∧ coming7.localPage = some { block := 4, page := 0 } ∧
    1 ≤ (held1 .programming [List.replicate 16 0x11#8]).back.length ∧ (held1 .programming []).back.length < 1 ∧
    ((programming7 (.replica 2) .programming [] id).ctl.retire 4).openBlock .replica = none ∧
    ((programming7 (.replica 2) .programming [] id).ctl.retire 4).pool = [] ∧
    ((programming7 (.replica 2) .programming [] (fun c => { c with pool := [6] })).ctl.retire 4).pool.head? = some 6 ∧
    ((programming7 (.replica 2) .programming [] (fun c => { c with blocks := [block4, { block4 with num := 6 }] })).ctl.retire 4).openBlock
      .replica = some { block4 with num := 6 } := by decide +kernel

theorem witness_ReplicaProgramDone_again :
    (((programming7 (.replicaReloc 2) .relocating [] id).ctl.retire 4).killPages [some program7b.page]).openBlock .replica = none ∧
    (((programming7 (.replicaReloc 2) .relocating [] id).ctl.retire 4).killPages [some program7b.page]).pool = [] ∧
    (((programming7 (.replicaReloc 2) .relocating [] (fun c => { c with pool := [6] })).ctl.retire 4).killPages
      [some program7b.page]).pool.head? = some 6 ∧ (held1 .relocating []).phase ≠ .deferred := by decide +kernel

theorem witness_ReplicaProgramDone_jobs : ∀ slot j, (programming7 (.replica 2) .programming [] id).ctl.jobs.get slot
    = some j →
    j.page ≠ coming7.id := each_held (by decide)

theorem test_replicaProgramDone : after (.replicaProgramDone 0 (.pass 1)) (programming7 (.replica 2) .programming [] id)
    (fun t => (t.ctl.rx.get 2, t.ctl.dir.map (fun e => e.depths.get 1),
      t.ctl.tx.entries.map (fun e => match e.body with | .answer a => a.verdict | _ => 0)))
    = some (.free, [2], [1]) := by decide +kernel

theorem test_replicaRelocationDone : after (.replicaRelocationDone 0 .fail) (programming7 (.replicaReloc 2) .relocating [] id)
    (fun t => (t.ctl.rx.get 2, t.ctl.dir.length,
    t.ctl.tx.entries.map (fun e => match e.body with | .answer a => a.verdict | _ => 0)))
    = some (.free, 0, [5]) := by decide +kernel

/-! ## Reads of the engines -/

/-- Own page 7 as the array holds it, with the Extent Table entry of its one extent. -/
def own7 : Entry := { held7 with id := { origin := 1, seq := 7 }, role := .own, depths := #v[0, 1, 0, 0, 0, 0, 0, 0] }
def et7 : ETEntry := { et9 with seq := 7, count := 1, prog := .programmed, timer := none }

/-- Unit 0 busy with its read-back. -/
def readingBack : State :=
  over7 (.ownReadBack 7) (.pageRead program7.page)
    (fun c => { c with dir := [own7], et := [et7],
                       readBack := { page := some 7, reading := true, image := [],
                                     wants := [{ seq := 7, ext := 0, mask := 0x04#8 }] } })

theorem witness_OwnAndCopyReadsDone_readBack : readingBack.env.rstLow = false ∧
    readingBack.ctl.takeCompleted 0 (fun w => w.readBackSeq.isSome) = none ∧
    (readingBack.ctl.units.get 0).busy = some (busyWith (.ownReadBack 7) (.pageRead program7.page)) ∧
    readingBack.ctl.ownEntry readingBack.env 7 = some own7 ∧ own7.localPage = some program7.page ∧
    1 ≤ own7.ownDepth readingBack.env ∧
    readingBack.ctl.readBack.page = some 7 ∧ readingBack.ctl.readBack.wants = [{ seq := 7, ext := 0, mask := 0x04#8 }] ∧
    readingBack.ctl.owed = [] ∧ readingBack.ctl.fillOf 7 = none ∧ readingBack.ctl.etEntry 7 0 = some et7 ∧
    et7.settled = .none ∧
    0x04#8 ≠ 0 ∧ 0x04#8 &&& et7.awaiting = 0x04#8 ∧ readingBack.ctl.tx.waitingExtent 7 0 = false ∧
    readingBack.ctl.tx.held = [] := by
  decide +kernel

theorem witness_OwnAndCopyReadsDone_sound : readingBack.flash = flash7 ∧ own7.ownDepth up.env = 1 ∧ own7.copyEnd = 1 ∧
    (flash7.readPage program7.page clean 0).unsound 1 1 = false ∧
    (flash7.readPage program7.page clean 0).validDesc 0
    = some { info := extent0, holders := 0x08#8, check := crc slot0, sound := true } :=
  ⟨rfl, by decide, rfl, test_readPage.2.1, test_readPage.1⟩

set_option maxRecDepth 100000 in
theorem test_ownReadBackDone : after (.ownReadBackDone 0 clean) readingBack
    (fun t => (t.ctl.tx.entries.map (fun e => e.body.isExtent 7 0), t.ctl.et.map (fun x => x.timer)))
    = some ([true], [none]) := by
  decide +kernel

/-- A copy job for replica 7 towards station 4. -/
def job7 : Job :=
  { purpose := .repair, page := { origin := 3, seq := 7 }, target := 4, n := none, closed := false, state := .reading,
    attempts := 0,
    timer := none, cancelled := false, owed := false, image := [] }

/-- The release mark rises to 5 over own page 5: its entry, Extent Table entry, waiting EXTENT and copy job. -/
def releasing : State :=
  upWith (fun _ => { (markWriting 0 5).ctl with
    dir := [{ own7 with id := { origin := 1, seq := 5 } }, own7], et := [oldEntry, et7],
    jobs := #v[none, some { job7 with page := { origin := 1, seq := 5 }, state := .awaiting, timer := some 40 }],
    tx := { up.ctl.tx with
      entries := [{ num := 0, sending := false, renewed := false, withdrawn := false,
                    body := .extent 5 extent0 0x04#8 .readBack }] } })

theorem witness_MarkProgramDone_releases : (releasing.ctl.units.get 0).busy.map (fun b => (b.req.who, b.req.op))
    = some (.mark, (markProgramReq 0 3).op) ∧
    releasing.ctl.mark.write = some { vals := { gen := 1, release := 5, ceiling := 0 }, seq := 4, erasing := false } ∧
    releasing.ctl.ownMark < 5 ∧ releasing.ctl.owed = [] ∧ (∀ x ∈ releasing.ctl.et, 5 < x.seq → x.settled = .none) ∧
    (releasing.ctl.jobs.get 1).map (fun j => (j.page, j.cancelled, j.state))
    = some ({ origin := 1, seq := 5 }, false, .awaiting) := by
  decide +kernel

theorem witness_MarkProgramDone_notDeferred : ∀ v h, releasing.ctl.rxHeld v = some h → h.phase ≠ .deferred :=
    each_rx (by decide)

theorem test_markProgramDone : after (.markProgramDone 0 (.pass 1)) releasing
    (fun t => (t.ctl.ownMark, t.ctl.dir.map (·.id.seq), t.ctl.et.map (·.seq), t.ctl.tx.entries.length, t.ctl.jobs.get 1))
    = some (5, [7], [7], 0, none) := by
  decide +kernel

/-- Unit 0 busy with its read. -/
def copying (j : Job) (e : Entry) (held : List TxBody) : State :=
  over7 (.copyJob 1) (.pageRead program7.page)
    (fun c => { c with dir := [e], jobs := #v[none, some j], tx := { c.tx with held := held } })

theorem witness_OwnAndCopyReadsDone_copy : ∀ cancelled ∈ [false, true],
    (copying { job7 with cancelled := cancelled } held7 []).env.rstLow = false ∧
    (copying { job7 with cancelled := cancelled } held7 []).ctl.takeCompleted 0 (fun w => w.jobSlot.isSome) = none ∧
    ((copying { job7 with cancelled := cancelled } held7 []).ctl.units.get 0).busy
    = some (busyWith (.copyJob 1) (.pageRead program7.page)) ∧
    (copying { job7 with cancelled := cancelled } held7 []).ctl.jobs.get 1 = some { job7 with cancelled := cancelled } ∧
    (copying { job7 with cancelled := cancelled } held7 []).ctl.entry job7.page = some held7 ∧
    held7.localPage = some program7.page ∧ 1 ≤ held7.ownDepth up.env := by decide +kernel

theorem witness_OwnAndCopyReadsDone_owed : (copying job7 held7 [.copy job7.page 4 1]).ctl.tx.held.any TxBody.isAnyCopy = true ∧
    (copying job7 held7 []).ctl.tx.held.any TxBody.isAnyCopy = false ∧
    ({ held7 with localPage := some { block := 6, page := 1 } } : Entry).localPage ≠ some program7.page := by decide

theorem witness_OwnAndCopyReadsDone_dropped : (flash7.readPage program7.page bad0 0).unsound 1 1 = true ∧
    held7.role = .replica ∧
    job7.purpose = .repair ∧ (∀ w x, (copying job7 held7 []).ctl.rxHeld w = some x → x.phase ≠ .deferred) ∧
    (∀ t i, (copying job7 held7 []).ctl.jobs.get t = some i → t ≠ 1 → i.page ≠ job7.page) :=
  ⟨by
     have h : (flash7.readPage program7.page bad0 0).cond 0 = .uncorrectable := by decide +kernel
     simp [PageRead.unsound, h],
   by decide, by decide, each_rx (by decide), each_held (by decide)⟩

set_option maxRecDepth 100000 in
theorem test_copyReadDone : after (.copyReadDone 0 clean) (copying job7 held7 [])
    (fun t => ((t.ctl.jobs.get 1).map (fun j => (j.n, j.state, j.attempts)),
    t.ctl.tx.entries.map (fun e => e.body.isCopyOf 1)))
    = some (some (some 1, .queued, 1), [true]) := by decide +kernel

/-- Unit 0 busy with the relocation read-back of replica 7. -/
def movingOn : State :=
  over7 (.replicaReadBack 2) (.pageRead program7.page)
    (fun c => { c with dir := [{ coming7 with relocPage := some { block := 6, page := 1 } }],
                       rx := #v[.free, .free, .held (held1 .readingBack []), .free] })

theorem witness_RelocationReadBackDone : movingOn.env.rstLow = false ∧
    movingOn.ctl.takeCompleted 0 (fun w => w.readBackBuf.isSome) = none ∧
    (movingOn.ctl.units.get 0).busy = some (busyWith (.replicaReadBack 2) (.pageRead program7.page)) ∧
    movingOn.ctl.rx.get 2 = .held (held1 .readingBack []) ∧ (held1 .readingBack []).phase ≠ .deferred ∧
    (held1 .readingBack []).frame.id 3 = some coming7.id ∧
    movingOn.ctl.entry coming7.id = some { coming7 with relocPage := some { block := 6, page := 1 } } ∧
    coming7.role = .replica ∧
    coming7.pendingExt ≠ none ∧ coming7.localPage = some program7.page ∧
    (movingOn.flash.readPage program7.page clean 0).uncorrectableIn 1 1 = false := by decide +kernel

theorem witness_RelocationReadBackDone_damaged : (flash7.readPage program7.page bad0 0).uncorrectableIn 1 1 = true ∧
    (∀ w x, movingOn.ctl.rxHeld w = some x → x.phase ≠ .deferred) ∧
    (∀ slot j, movingOn.ctl.jobs.get slot = some j → j.page ≠ coming7.id) :=
  ⟨by
     have h : (flash7.readPage program7.page bad0 0).cond 0 = .uncorrectable := by decide +kernel
     simp [PageRead.uncorrectableIn, h],
   each_rx (by decide), each_held (by decide)⟩

set_option maxRecDepth 100000 in
theorem test_relocationReadBackDone : after (.relocationReadBackDone 0 clean) movingOn
    (fun t => ((t.ctl.units.get 0).queue.map (·.who), (t.ctl.rxHeld 2).map (fun h => (h.phase, h.back.length))))
    = some ([.replicaReloc 2], some (.relocating, 1)) := by decide +kernel

/-! ## Reads for the port -/

/-- Unit 0 busy with a read into buffer 0 of the pair. -/
def portReading (x : PairBuf) (a : Activity) (scan : Option Scan) (dir : List Entry) : State :=
  over7 (.port 0 { origin := 3, seq := 7 }) (.pageRead program7.page)
    (fun c => { c with dir := dir, pair := #v[x, .empty], scan := scan, port := { c.port with act := a } })

/-- Page 7 loading. -/
def loading7 : PairBuf := .loading { origin := 3, seq := 7 } 1

theorem witness_PortReadDone : ∀ slot ∈ [0, 1], (portReading loading7 (.readWait 0 slot) none [held7]).env.rstLow = false ∧
    (portReading loading7 (.readWait 0 slot) none [held7]).ctl.pair.get 0 = .loading { origin := 3, seq := 7 } 1 ∧
    (portReading loading7 (.readWait 0 slot) none [held7]).ctl.port.act = .readWait 0 slot ∧
    (portReading loading7 (.readWait 0 slot) none [held7]).ctl.takeCompleted 0
      ((portReading loading7 (.readWait 0 slot) none [held7]).ctl.isPortRead PortRole.isRead) = none ∧
    ((portReading loading7 (.readWait 0 slot) none [held7]).ctl.units.get 0).busy
      = some (busyWith (.port 0 { origin := 3, seq := 7 }) (.pageRead program7.page)) ∧
    (portReading loading7 (.readWait 0 slot) none [held7]).ctl.entry { origin := 3, seq := 7 } = some held7 := by
    decide +kernel

set_option maxRecDepth 100000 in
theorem witness_PortReadDone_slots : imageEnd read7.image 1 = 1 ∧ recordStart read7.image 1 0 = true := by decide +kernel

/-- The extent of a record of two slots, the second of them FFH. -/
def extent02 : ExtentInfo := { number := 0, first := 0, count := 2, records := 1, starts := 0x01#8, closing := false }

/-- The same page with that extent. -/
def read7long : PageRead :=
  (Flash.blank.programPass
      { program7 with count := 2,
                      descs := [(0, descriptorBytes extent02 0x08#8 (crc (slot0 ++ List.replicate 512 0xFF#8)))] }
      (slot0 ++ List.replicate 512 0xFF#8) 0).readPage program7.page clean 0

set_option maxRecDepth 100000 in
theorem witness_PortReadDone_noRecord : read7long.unsound 1 2 = false ∧ 1 < imageEnd read7long.image 1 ∧
    recordStart read7long.image 1 1 = false := by decide +kernel

/-- The page went DEAD before its read was granted. -/
def gone (a : Activity) (scan : Option Scan) (dir : List Entry) : State :=
  upWith (fun c => { c with dir := dir, pair := #v[loading7, .empty], scan := scan, port := { c.port with act := a },
                            completed :=
                            [{ req := { who := .port 0 { origin := 3, seq := 7 }, op := .pageRead program7.page,
                                        emergency := false }, refused := false }] })

theorem witness_PortReadDone_gone : ∃ y c1, (gone (.readWait 0 0) none []).ctl.takeCompleted 0
      ((gone (.readWait 0 0) none []).ctl.isPortRead PortRole.isRead) = some (y, c1) ∧
    y.req.who = .port 0 { origin := 3, seq := 7 } := ⟨_, _, rfl, rfl⟩

theorem witness_PortReadDone_sound : held7.ownDepth up.env = 1 ∧ held7.copyEnd = 1 ∧
    (flash7.readPage program7.page clean 0).unsound 1 1 = false := ⟨by decide, rfl, test_readPage.2.1⟩

set_option maxRecDepth 100000 in
theorem test_portReadDone : after (.portReadDone 0 clean) (portReading loading7 (.readWait 0 0) none [held7])
    (fun t => t.ctl.port.result) = some [0x00#8, 0, 0, 1, 0, 0, 0, 0, 0, 0, 0, 1, 0, 0] := by decide +kernel

theorem test_portReadDone_notHeld : after (.portReadDone 0 clean) (gone (.readWait 0 0) none []) (fun t => t.ctl.port.result)
    = some [0x09#8] := by decide +kernel

/-- A scan of station 3 that begins. -/
def scan7 (cursor : Nat) : Scan := { origin := 3, cursor := cursor, current := 0, position := none }

theorem witness_ScanReadDone : (portReading loading7 (.scanWait 0) (some (scan7 0)) [held7]).ctl.pair.get 0 = .loading { origin := 3, seq := 7 } 1 ∧
    (portReading loading7 (.scanWait 0) (some (scan7 0)) [held7]).ctl.port.act = .scanWait 0 ∧
    (portReading loading7 (.scanWait 0) (some (scan7 0)) [held7]).ctl.scan = some (scan7 0) ∧ (scan7 0).current = 0 ∧
    (portReading loading7 (.scanWait 0) (some (scan7 0)) [held7]).ctl.takeCompleted 0
      ((portReading loading7 (.scanWait 0) (some (scan7 0)) [held7]).ctl.isPortRead (fun x => decide (x = .scan))) = none ∧
    ((portReading loading7 (.scanWait 0) (some (scan7 0)) [held7]).ctl.units.get 0).busy
      = some (busyWith (.port 0 { origin := 3, seq := 7 }) (.pageRead program7.page)) := by decide +kernel

theorem witness_ScanReadDone_gone : (∃ y c1, (gone (.scanWait 0) (some (scan7 0)) [held7]).ctl.takeCompleted 0
      ((gone (.scanWait 0) (some (scan7 0)) [held7]).ctl.isPortRead (fun x => decide (x = .scan))) = some (y, c1) ∧
    y.req.who = .port 0 { origin := 3, seq := 7 }) ∧
    (gone (.scanWait 0) (some (scan7 0)) [held7]).ctl.dir.find? (fun e =>
      decide (0 ≤ e.id.key) && decide (e.id.origin = 3) && (e.localPage.isSome && decide (1 ≤ e.ownDepth up.env)))
      = some held7 :=
  ⟨⟨_, _, rfl, rfl⟩, by decide⟩

set_option maxRecDepth 100000 in
theorem test_scanReadDone : after (.scanReadDone 0 clean) (portReading loading7 (.scanWait 0) (some (scan7 (PageId.key { origin := 3, seq := 8 }))) [held7])
    (fun t => (t.ctl.port.result, t.ctl.scan.map (·.position), t.ctl.pair.get 1))
    = some ([0x00#8, 0x03#8, 0x07#8, 0, 0, 0, 0], some (some 0), .ended) := by decide +kernel

theorem witness_PrefetchAbandonedReadDone_prefetch : ∀ a ∈ [Activity.idle, .scanNextWait],
    (portReading loading7 a (some (scan7 0)) []).env.rstLow = false ∧
    ((portReading loading7 a (some (scan7 0)) []).ctl.units.get 0).busy
      = some (busyWith (.port 0 { origin := 3, seq := 7 }) (.pageRead program7.page)) ∧
    (portReading loading7 a (some (scan7 0)) []).ctl.pair.get 0 = .loading { origin := 3, seq := 7 } 1 ∧
    (portReading loading7 a (some (scan7 0)) []).ctl.takeCompleted 0
      ((portReading loading7 a (some (scan7 0)) []).ctl.isPortRead (fun x => decide (x = .prefetch))) = none ∧
    (portReading loading7 a (some (scan7 0)) []).ctl.port.act ≠ .scanWait 0 ∧
    (portReading loading7 a (some (scan7 0)) []).ctl.entry { origin := 3, seq := 7 } = none ∧ (scan7 0).current = 0 := by
  decide +kernel

theorem witness_PrefetchAbandonedReadDone_named : ∀ a ∈ [Activity.idle, .scanNextWait, .collecting .report []],
    (portReading loading7 a (some (scan7 0)) [held7]).ctl.entry { origin := 3, seq := 7 } = some held7 ∧
    held7.localPage = some program7.page ∧ 1 ≤ held7.ownDepth up.env ∧ held7.role = .replica ∧
    (portReading loading7 a (some (scan7 0)) [held7]).ctl.takeCompleted 0
      ((portReading loading7 a (some (scan7 0)) [held7]).ctl.isPortRead (fun x => decide (x = .prefetch))) = none ∧
    (portReading loading7 a (some (scan7 0)) [held7]).ctl.port.act = a ∧
    (portReading loading7 a (some (scan7 0)) [held7]).ctl.scan = some (scan7 0) := by decide +kernel

theorem witness_PrefetchAbandonedReadDone_judged : (flash7.readPage program7.page clean 0).unsound 1 1 = false ∧
    (flash7.readPage program7.page bad0 0).unsound 1 1 = true ∧
    ∀ w x, (portReading loading7 .idle (some (scan7 0)) [held7]).ctl.rxHeld w = some x → x.phase ≠ .deferred :=
  ⟨test_readPage.2.1, witness_OwnAndCopyReadsDone_dropped.1, each_rx (by decide)⟩

/-- The current buffer is 1, the prefetch into buffer 0. -/
def otherScan : Scan := { origin := 3, cursor := 0, current := 1, position := some 0 }

theorem witness_PrefetchAbandonedReadDone_gone : ∀ x ∈ [(Activity.idle, otherScan), (.scanNextWait, scan7 0)],
    ∀ dir ∈ [[], [held7]],
    ((gone x.1 (some x.2) dir).ctl.takeCompleted 0 ((gone x.1 (some x.2) dir).ctl.isPortRead (fun y => decide (y = .prefetch)))).map
        (fun y => y.1.req.who) = some (.port 0 { origin := 3, seq := 7 }) ∧
    (gone x.1 (some x.2) dir).ctl.scan = some x.2 ∧ (x.1 = .scanNextWait → x.2.current = 0) ∧
    (gone x.1 (some x.2) dir).ctl.dir.find? (fun e => decide (x.2.cursor ≤ e.id.key) && decide (e.id.origin = x.2.origin) &&
      (e.localPage.isSome && decide (1 ≤ e.ownDepth up.env))) = dir.head? ∧
      (gone x.1 (some x.2) dir).ctl.pair.get 0 = loading7 := by
  decide +kernel

theorem test_prefetchReadDone_gone : after (.prefetchReadDone 0 clean) (gone .idle (some otherScan) [])
    (fun t => t.ctl.pair.get 0)
    = some .ended := by decide +kernel

theorem witness_PrefetchAbandonedReadDone_others :
    (∀ slot, (portReading loading7 .idle none []).ctl.port.act ≠ .readWait 0 slot) ∧
    (∀ slot, (portReading loading7 .scanNextWait none []).ctl.port.act ≠ .readWait 0 slot) :=
  ⟨fun _ => by simp [portReading, over7, upBusy, upWith], fun _ => by simp [portReading, over7, upBusy, upWith]⟩

theorem witness_PrefetchAbandonedReadDone_sound : imageEnd (flash7.readPage program7.page clean 0).image 1 = 1 ∧
    (flash7.readPage program7.page clean 0).unsound 1 1 = false := ⟨witness_PortReadDone_slots.1, test_readPage.2.1⟩

/-- The read is no longer wanted. -/
def abandoned7 : PairBuf := .abandoned { origin := 3, seq := 7 } 1

theorem witness_PrefetchAbandonedReadDone_abandoned : ∀ a ∈ [Activity.resetWait, .idle,
    .readBufWait { origin := 3, seq := 8 } 7],
    (portReading abandoned7 a none []).ctl.pair.get 0 = .abandoned { origin := 3, seq := 7 } 1 ∧
    (portReading abandoned7 a none []).ctl.takeCompleted 0
      ((portReading abandoned7 a none []).ctl.isPortRead (fun x => decide (x = .abandoned))) = none ∧
    (portReading abandoned7 a none []).ctl.entry { origin := 3, seq := 7 } = none ∧
    (portReading abandoned7 a none []).ctl.port.act = a ∧ (portReading abandoned7 a none []).ctl.scan = none := by
    decide +kernel

theorem witness_PrefetchAbandonedReadDone_next :
    (portReading abandoned7 (.readBufWait { origin := 3,
                                            seq := 8 } 7) none [{ held7 with id := { origin := 3, seq := 8 } }]).ctl.entry
      { origin := 3, seq := 8 } = some { held7 with id := { origin := 3, seq := 8 } } ∧
    (portReading abandoned7 (.readBufWait { origin := 3,
                                            seq := 8 } 7) none [{ held7 with id := { origin := 3, seq := 8 } }]).ctl.entry
      { origin := 3, seq := 7 } = none ∧ held7.localPage = some program7.page ∧ 1 ≤ held7.ownDepth up.env := by
      decide +kernel

set_option maxRecDepth 100000 in
theorem test_prefetchReadDone : after (.prefetchReadDone 0 clean) (portReading loading7 .scanNextWait (some (scan7 (PageId.key { origin := 3, seq := 8 }))) [held7])
    (fun t => (t.ctl.port.result.take 7, t.ctl.scan.map (·.position))) = some ([0x00#8, 0x03#8, 0x07#8, 0, 0, 0, 0],
    some none) := by
  decide +kernel

set_option maxRecDepth 100000 in
theorem test_abandonedReadDone : after (.abandonedReadDone 0 clean) (portReading abandoned7 .resetWait none [])
    (fun t => (t.ctl.port.act, t.ctl.pair.get 0)) = some (.idle, .empty) := by decide +kernel

theorem witness_PrefetchAbandonedReadDone_abandonedDamage : ∀ a ∈ [Activity.resetWait, .idle],
    (portReading abandoned7 a none [held7]).ctl.entry { origin := 3, seq := 7 } = some held7 ∧
    (portReading abandoned7 a none [held7]).ctl.pair.get 0 = .abandoned { origin := 3, seq := 7 } 1 ∧
    (portReading abandoned7 a none [held7]).ctl.takeCompleted 0
      ((portReading abandoned7 a none [held7]).ctl.isPortRead (fun x => decide (x = .abandoned))) = none := by decide +kernel

/-! ## Timers -/

/-- A peer in a state, with a missed count. -/
def peerIn (st : PeerState) (missed : Nat) : Peer := { Peer.reset with state := st, missed := missed, gen := some 1 }

/-- Station 2 as given. -/
def withPeer (p : Peer) (c : Ctl) : Ctl := { c with peers := vput c.peers 2 p }

theorem witness_PresenceTimer_waits : up.env.rstLow = false ∧ up.ctl.presence = none ∧
    (upWith (fun c => { c with presence := some 19 })).ctl.presence = some 19 ∧ 19 < 20 ∧
    (upWith (fun c => { c with presence := some 20 })).ctl.presence = some 20 ∧ 20 ≤ 20 := by decide

theorem witness_PresenceTimer_threshold : (upWith (withPeer (peerIn .present 3))).ctl.peers.get 2 = peerIn .present 3 ∧
    3 ≤ (peerIn .present 3).missed ∧ (upWith (withPeer (peerIn .silent 10))).ctl.peers.get 2 = peerIn .silent 10 ∧
    10 ≤ (peerIn .silent 10).missed ∧
    ¬ ((peerIn .present 2).state = .present ∧ 3 ≤ (peerIn .present 2).missed) ∧
    ¬ ((peerIn .silent 9).state = .silent ∧ 10 ≤ (peerIn .silent 9).missed) := by decide

theorem witness_PresenceTimer_atRest : (upWith (withPeer (peerIn .silent 10))).ctl.atRest ∧
    (∀ slot j, (upWith (withPeer (peerIn .silent 10))).ctl.jobs.get slot = some j → j.target ≠ 2) ∧
    ∀ t ∈ (upWith (withPeer (peerIn .silent 10))).ctl.repair, t.kind ≠ .departure 2 :=
  ⟨⟨rfl, by decide, rfl, rfl, rfl⟩, each_held (by decide), by decide⟩

theorem test_presenceTick : after .presenceTick (upWith (fun c => withPeer (peerIn .present 2) { c with presence := some 20 }))
    (fun t => (t.ctl.presence, (t.ctl.peers.get 2).missed,
    t.ctl.tx.entries.map (fun e => match e.body with | .presence b => b.code | _ => 0)))
    = some (some 0, 3, [2]) := by decide +kernel

theorem test_missedCountThreshold : after (.missedCountThreshold 2) (upWith (withPeer (peerIn .silent 10)))
    (fun t => ((t.ctl.peers.get 2).state, t.ctl.repair.map (·.kind), t.ctl.alerts.pending))
    = some (.departed, [.departure 2], 0x04#8) := by
  decide +kernel

/-- LISTENING with the window run out. -/
def listened (owed pending : Bool) : State :=
  upWith (fun c => { c with station := .listening, window := some 0, mark := { c.mark with frozenOwed := owed },
                            holdings := { c.holdings with pending := pending } })

theorem witness_ListeningWindowEnd : up.env.rstLow = false ∧ up.ctl.station ≠ .listening ∧
    (upWith (fun c => { c with station := .listening, window := some 1 })).ctl.window ≠ some 0 ∧
    ∀ owed ∈ [false, true], ∀ pending ∈ [false, true], (listened owed pending).ctl.station = .listening ∧
      (listened owed pending).ctl.window = some 0 ∧ (listened owed pending).ctl.repair = [] ∧
      (listened owed pending).ctl.holdings.pending = pending ∧ (listened owed pending).ctl.holdings.series = none ∧
      (listened owed pending).ctl.firstWindow = true := by decide

theorem test_listeningWindowEnd : after .listeningWindowEnd (listened false false)
    (fun t => (t.ctl.station, t.ctl.repair.map (·.kind)))
    = some (.active, [.departure 0, .departure 2, .departure 3, .departure 4, .departure 5,
      .departure 6, .departure 7]) := by decide +kernel

/-- The entry of page 9, its record of station 2 tried as often, with its timer at the deadline. -/
def due (attempts : Nat) : ETEntry :=
  { et9 with timer := some 0, places := [{ extra := false,
                                           target := some { station := 2, state := .awaiting, attempts := attempts } }] }

/-- The station with that entry. -/
def waitingAnswer (attempts : Nat) : State :=
  upWith (fun c => { c with dir := [pending9], et := [due attempts], fill := #v[some formed9, none] })

theorem witness_AnswerTimerExpiry_not : up.env.rstLow = false ∧ (upIn .leaving).ctl.station ≠ .active ∧
    (upIn .leaving).ctl.station ≠ .frozen ∧
    (∀ x, (upWith (fun c => { c with et := [et9] })).ctl.etEntry 9 0 = some x → x.timer ≠ some 0) :=
  ⟨rfl, by decide, by decide, each_some (by decide)⟩

theorem witness_AnswerTimerExpiry_again : (waitingAnswer 3).ctl.station = .active ∧
    (waitingAnswer 3).ctl.etEntry 9 (0 : Fin 3).val = some (due 3) ∧
    (due 3).timer = some 0 ∧
    ((due 3).places.filterMap (·.target)).filter (fun r => decide (r.state = .awaiting)) = [{ station := 2, state := .awaiting, attempts := 3 }] ∧
    (waitingAnswer 3).ctl.fillOf 9 = some (0, formed9) ∧ (formed9.extents.find? (fun y => y.number == 0)).isSome = true ∧
    (waitingAnswer 3).ctl.tx.waitingExtent 9 0 = false ∧ (waitingAnswer 3).ctl.tx.held = [] := by decide

theorem witness_AnswerTimerExpiry_lost : (waitingAnswer 4).ctl.et = [due 4] ∧ (due 4).settled = .none ∧
    (due 4).places = [{ extra := false, target := some { station := 2, state := .awaiting, attempts := 4 } }] ∧
    (waitingAnswer 4).ctl.ownEntry up.env 9 = some pending9 ∧ pending9.targets = [2] ∧ pending9.extra = none ∧
    (∀ p, (waitingAnswer 4).ctl.countsPresent up.env p = true → p = up.env.me) ∧
    (∀ slot j, (waitingAnswer 4).ctl.jobs.get slot = some j → j.target ≠ 2) ∧ (waitingAnswer 4).ctl.catchUps = [] :=
  ⟨by decide, by decide, by decide, by decide, by decide, by decide, by decide, each_held (by decide), by decide⟩

theorem test_answerTimerExpiry : after (.answerTimerExpiry 9 0) (waitingAnswer 3)
    (fun t => (t.ctl.et.map (fun x => x.places.map (fun p => p.target.map (·.attempts))),
    t.ctl.tx.entries.map (fun e => e.body.isExtent 9 0)))
    = some ([[some 4]], [true]) := by decide +kernel

theorem test_answerTimerExpiry_lost : after (.answerTimerExpiry 9 0) (waitingAnswer 4)
    (fun t => t.ctl.dir.map (fun e => (e.targets, e.excluded))) = some [([], 0x04#8)] := by decide +kernel

/-- A copy job that awaits its answer, its timer at the deadline. -/
def dueJob (purpose : Purpose) (attempts : Nat) : Job :=
  { job7 with purpose := purpose, state := .awaiting, attempts := attempts, timer := some 0, n := some 1 }

theorem witness_RepairTimers_job : (upIn .frozen).ctl.station = .active ∨ (upIn .frozen).ctl.station = .frozen := by decide

theorem witness_RepairTimers_jobs : ∀ purpose ∈ [Purpose.repair, .catchUp], ∀ attempts ∈ [3, 4],
    (upWith (fun c => { c with jobs := #v[some (dueJob purpose attempts), none] })).ctl.jobs.get 0
    = some (dueJob purpose attempts) ∧
    (dueJob purpose attempts).state = .awaiting ∧ (dueJob purpose attempts).timer = some 0 ∧ up.ctl.tx.held = [] ∧
    (TxBody.copy job7.page 4 1).isAnyCopy = true ∧ (dueJob purpose attempts).purpose = purpose := by decide

theorem witness_RepairTimers_not : ¬ ((upIn .leaving).ctl.station = .active ∨ (upIn .leaving).ctl.station = .frozen) ∧
    (upIn .active).ctl.recheck ≠ some 0 ∧ (upWith (fun c => { c with jobs := #v[some job7, none] })).ctl.jobs.get 0
    = some job7 ∧
    job7.state ≠ .awaiting := by decide

/-- RECHECK as the only task. -/
def rechecking (begun again : Bool) : State :=
  upWith (fun c => { c with recheck := some 0, repair := [{ kind := .recheck begun again, cursor := 5, waiting := false }] })

theorem witness_RepairTimers_recheck : (upWith (fun c => { c with recheck := some 0 })).ctl.recheck = some 0 ∧
    (upWith (fun c => { c with recheck := some 0 })).ctl.repair = [] ∧
    (rechecking false false).ctl.repair = [] ++ { kind := .recheck false false, cursor := 5, waiting := false } :: [] ∧
    (rechecking true false).ctl.repair = [] ++ { kind := .recheck true false, cursor := 5, waiting := false } :: [] ∧
    (rechecking true false).ctl.recheck = some 0 := by decide

theorem test_copyJobTimerExpiry : after (.copyJobTimerExpiry 0) (upWith (fun c => { c with jobs := #v[some (dueJob .repair 4), none] }))
    (fun t => t.ctl.jobs.get 0) = some none := by decide +kernel

theorem test_recheckTimerExpiry : after .recheckTimerExpiry (rechecking true false)
    (fun t => (t.ctl.recheck, t.ctl.repair.map (·.kind)))
    = some (some 5000, [.recheck true true]) := by decide +kernel

/-! ## The record bus -/

/-- A PRESENCE and an ANSWER to send. -/
def presence1 : PresenceBody := { code := 2, flags := 0, copies := 2, gen := 1, mark := 0, pool := 3, mask := 0 }
def answer1 : AnswerBody := { addressee := 2, origin := 2, seq := 7, ext := 0, flags := 0, verdict := 1, aux := 0 }
def holdings1 : HoldingsBody := { series := 1, origin := 0, index := 0, flags := 3, items := [] }

/-- A transmit queue entry. -/
def txOf (num : Nat) (body : TxBody) : TxEntry := { num := num, sending := false, renewed := false, withdrawn := false,
                                                    body := body }

/-- A transmit queue of two entries. -/
def queue2 (a b : TxBody) (f : Ctl → Ctl) : State :=
  upWith (fun c => f { c with tx := { c.tx with entries := [txOf 0 a, txOf 1 b], nextNum := 2 } })

/-- The EXTENT of page 9, from the fill buffer and from the read-back buffer; a COPY of page 7. -/
def extent9 (src : ExtSource) : TxBody :=
  .extent 9 { number := 0, first := 0, count := 2, records := 2, starts := 0x03#8, closing := false } 0x04#8 src
def copy7 : TxBody := .copy { origin := 3, seq := 7 } 4 1

theorem witness_FrameStart_idle : up.env.rstLow = false ∧ up.ctl.tx.entries = [] ∧
    (upWith (fun c => { c with rx := #v[.claimed, .free, .free, .free] })).ctl.rx.get 0 = .claimed := by decide

theorem witness_FrameStart : ∀ body ∈ [TxBody.presence presence1, .answer answer1, .holdings holdings1, extent9 (.fill 0),
    extent9 .readBack, copy7],
    (queue2 body copy7 id).ctl.tx.onAir = none ∧ (∀ b, (queue2 body copy7 id).ctl.rx.get b ≠ .claimed) ∧
    (queue2 body copy7 id).ctl.tx.entries = [] ++ txOf 0 body :: [txOf 1 copy7] ∧ (txOf 0 body).sending = false := by decide

theorem witness_FrameStart_second : (queue2 copy7 (.answer answer1) id).ctl.tx.entries = [txOf 0 copy7] ++
    txOf 1 (.answer answer1) :: [] ∧
    (txOf 1 (.answer answer1)).body = .answer answer1 ∧ 1 < 3 := by decide

theorem witness_FrameStart_sources : (upWith withPage9).ctl.fill.get 0 = some page9 ∧ up.ctl.fill.get 0 = none ∧
    (upWith (fun c => { c with jobs := #v[none, some { job7 with n := some 1 }] })).ctl.jobs.get 1
    = some { job7 with n := some 1 } ∧
    ({ job7 with n := some 1 } : Job).n = some 1 := by decide

theorem test_frameStart : after .frameStart (queue2 copy7 (.answer answer1) id)
    (fun t => t.ctl.tx.onAir.map (fun o => (o.num, o.frame.arb, o.frame.chars)))
    = some (some (1, 0b01001#5, [0x02#8, 0x0A#8, 0, 2, 2, 7, 0, 0, 0, 0, 0, 1, 0] ++
        bytes16 (crc [0x09#8, 0x02#8, 0x0A#8, 0, 2, 2, 7, 0, 0, 0, 0, 0, 1, 0]))) := by decide +kernel

/-- A queue entry being sent. -/
def sending (body : TxBody) (withdrawn renewed : Bool) (f : Ctl → Ctl) : State :=
  upWith (fun c => f { c with tx := { c.tx with
    entries := [{ num := 0, sending := true, renewed := renewed, withdrawn := withdrawn, body := body }], nextNum := 1,
    onAir := some { num := 0, frame := { arb := 0, chars := [] } } } })

theorem witness_FrameFailure : ∀ withdrawn ∈ [false, true], (sending copy7 withdrawn false id).env.rstLow = false ∧
    (sending copy7 withdrawn false id).ctl.tx.onAir = some { num := 0, frame := { arb := 0, chars := [] } } ∧
    (sending copy7 withdrawn false id).ctl.tx.entries.find? (fun x => x.num == 0)
      = some { num := 0, sending := true, renewed := false, withdrawn := withdrawn, body := copy7 } ∧
    (upWith (fun c => { c with jobs := #v[none, some { job7 with cancelled := withdrawn }] })).ctl.jobs.get 1
      = some { job7 with cancelled := withdrawn } ∧ up.ctl.tx.onAir = none := by decide

/-- The fault count at a value. -/
def faulty (n : Nat) (st : StationState) : State :=
    upWith (fun c => { c with station := st, tx := { c.tx with faults := n } })

theorem witness_FrameFailure_limit : (faulty 15 .active).ctl.tx.faults < 16 ∧ (faulty 16 .isolated).ctl.station = .isolated ∧
    (faulty 16 .mounting).ctl.station = .mounting ∧ 16 ≤ (faulty 16 .active).ctl.tx.faults ∧
    (faulty 16 .active).ctl.station ≠ .isolated ∧
    (faulty 16 .active).ctl.station ≠ .mounting ∧ (faulty 16 .active).ctl.tx.onAir = none := by decide

theorem test_lostArbitration : after .lostArbitration (sending copy7 false false id)
    (fun t => (t.ctl.tx.onAir, t.ctl.tx.entries.map (·.sending), t.ctl.tx.faults))
    = some (none, [false], 0) := by decide +kernel

theorem test_transmitFault : after .transmitFault (sending copy7 true false (fun c => { c with jobs := #v[none, some { job7 with cancelled := true }] }))
    (fun t => (t.ctl.tx.entries.length, t.ctl.tx.faults, t.ctl.jobs.get 1)) = some (0, 1, none) := by decide +kernel

theorem test_faultCountLimit : after .faultCountLimit (faulty 16 .active)
    (fun t => (t.ctl.station, t.ctl.alerts.pending)) = some (.isolated, 0x10#8) := by
  decide +kernel

theorem witness_SentWhole : ∀ body ∈ [TxBody.presence presence1, .answer answer1, extent9 (.fill 0), copy7],
    ∀ withdrawn ∈ [false, true],
    (sending body withdrawn true id).ctl.tx.onAir = some { num := 0, frame := { arb := 0, chars := [] } } ∧
    (sending body withdrawn true id).ctl.tx.entries.find? (fun x => x.num == 0)
      = some { num := 0, sending := true, renewed := true, withdrawn := withdrawn, body := body } ∧
      body.isHoldings = false := by decide

/-- A holdings series whose last frame formed has the marks given. -/
def inSeries (lastOrigin lastSeries : Bool) (c : Ctl) : Ctl :=
  { c with holdings := { c.holdings with series := some { num := 1, group := 7, cursor := 0, index := 1,
                                                          lastOrigin := lastOrigin, lastSeries := lastSeries } } }

theorem witness_SentWhole_holdings : (sending (.holdings holdings1) false false (inSeries true true)).ctl.holdings.series
      = some { num := 1, group := 7, cursor := 0, index := 1, lastOrigin := true, lastSeries := true } ∧
    (sending (.holdings holdings1) false false (inSeries false false)).ctl.holdings.series
      = some { num := 1, group := 7, cursor := 0, index := 1, lastOrigin := false, lastSeries := false } ∧
    (sending (.holdings holdings1) false false (inSeries true true)).ctl.holdings.pending = false := by decide

theorem witness_SentWhole_job : (sending copy7 false false (fun c => { c with jobs := #v[none, some { job7 with state := .queued }] })).ctl.jobs.get 1
      = some { job7 with state := .queued } ∧ ({ job7 with state := .queued } : Job).cancelled = false ∧
    ({ job7 with state := .queued } : Job).owed = false := by decide

theorem test_sentWhole : after .sentWhole (sending (extent9 (.fill 0)) false false (fun c => { c with dir := [pending9], et := [{ et9 with timer := none }], fill := #v[some formed9, none] }))
    (fun t => (t.ctl.tx.entries.length, t.ctl.et.map (fun x => (x.timer, x.firstSent)))) = some (0, [(some 40, true)]) := by
    decide +kernel

theorem test_sentWhole_holdings : after .sentWhole (sending (.holdings holdings1) false false (inSeries true true))
    (fun t => (t.ctl.holdings.series, t.ctl.holdings.endedAt)) = some (none, some 100) := by decide +kernel

/-- Buffer 1 claimed, buffer 0 at work. -/
def claimed1 (st : StationState) : State :=
  upWith (fun c => { c with station := st, rx := #v[.held (held1 .programming []), .claimed, .free, .free] })

theorem witness_ReceiveBuffers : up.env.rstLow = false ∧ ¬ (0xFD#8).getLsbD (1 : Fin 8).val = true ∧
    (0x02#8).getLsbD (1 : Fin 8).val = true ∧
    (1#8).toNat = (1 : Fin 8).val ∧ (2#8).toNat ≠ (1 : Fin 8).val ∧ (∀ v, up.ctl.rx.get v ≠ .claimed) ∧
    up.ctl.rx.get 0 = .free ∧
    (∀ v, v < (0 : Fin 4) → up.ctl.rx.get v ≠ .free) ∧ (claimed1 .active).ctl.rx.get 1 = .claimed ∧
    (∀ v, (claimed1 .active).ctl.rx.get v = .claimed → v = 1) ∧ (upIn .listening).ctl.station ≠ .active ∧
    (upWith (fun c => { c with rx := #v[.held (held1 .programming []), .held (held1 .programming []),
                                 .held (held1 .programming []),
      .held (held1 .programming [])] })).ctl.rx.get 3 ≠ .free := by decide

/-- Frames from station 2. -/
def presenceF : Heard := (Frame.presence presence1).send 2
def answerF : Heard := (Frame.answer { answer1 with addressee := 1, origin := 3, seq := 7, flags := 1, ext := 1 }).send 2

theorem witness_ReceiveBuffers_fails : Machine.Heard.receive { presenceF with chars := presenceF.chars.drop 1 } = none ∧
    Machine.Heard.receive presenceF = some (2, .presence presence1) := by decide +kernel

theorem witness_FramesDispatched : ∀ st ∈ [StationState.mounting, .isolated, .listening, .active, .frozen, .leaving],
    (claimed1 st).env.rstLow = false ∧ (claimed1 st).ctl.rx.get 1 = .claimed ∧
    (∀ v, (claimed1 st).ctl.rx.get v = .claimed → v = 1) ∧
    (claimed1 st).ctl.station = st := by decide

theorem witness_FramesDispatched_own : Machine.Heard.receive ((Frame.presence presence1).send 1)
    = some (1, .presence presence1) := by decide +kernel

theorem witness_FramesDispatched_letGo : Machine.Heard.receive answerF
      = some (2, .answer { answer1 with addressee := 1, origin := 3, seq := 7, flags := 1, ext := 1 }) ∧
      (2 : Station) ≠ up.env.me ∧
    ¬ ((upIn .listening).ctl.station = .active ∨ (upIn .listening).ctl.station = .frozen ∨ (upIn .listening).ctl.station = .leaving) := by
  decide +kernel

theorem test_receiveBufferClaim : after (.receiveBufferClaim (.extentMask 0x02#8)) up (fun t => t.ctl.rx)
    = some #v[.claimed, .free, .free, .free] := by decide

theorem test_frameAbandoned : after .frameAbandoned (claimed1 .active) (fun t => t.ctl.rx.get 1) = some .free := by decide

theorem test_frameFailsChecks : after (.frameFailsChecks { presenceF with chars := presenceF.chars.drop 1 }) (claimed1 .active) (fun t => t.ctl.rx.get 1)
    = some .free := by decide +kernel

/-! ## Frames that arrive -/

/-- Station 2 with a release mark. -/
def peer2 (st : PeerState) (full : Bool) : Peer := { peerIn st 1 with full := full, mark := 0 }

/-- A PRESENCE of station 2. -/
def from2 (b : PresenceBody) : Heard := (Frame.presence b).send 2

theorem witness_PresenceFrame : ∀ b ∈ [presence1, { presence1 with copies := 3 }, { presence1 with flags := 0x02#8 }],
    Machine.Heard.receive (from2 b) = some (2, .presence b) ∧ (2 : Station) ≠ up.env.me ∧ up.env.rstLow = false ∧
    up.ctl.station ≠ .mounting ∧ up.ctl.station ≠ .isolated := by decide +kernel

theorem witness_PresenceFrame_atRest : ∀ st ∈ [PeerState.absent, .present, .silent, .departed, .incompatible],
    ((upWith (withPeer (peer2 st true))).ctl.peers.get 2).state = st ∧
    ¬ ((upWith (withPeer (peer2 st true))).ctl.peers.get 2).mark < presence1.mark ∧
    presence1.mask.getLsbD up.env.me.val = false ∧ (upWith (withPeer (peer2 st true))).ctl.repair = [] ∧
    (upWith (withPeer (peer2 st true))).ctl.et = [] ∧ (∀ b, (upWith (withPeer (peer2 st true))).ctl.fill.get b = none) ∧
    (upWith (withPeer (peer2 st true))).ctl.owed = [] ∧ (upWith (withPeer (peer2 st true))).ctl.readBack.page = none ∧
    (upWith (withPeer (peer2 st true))).ctl.readBack.wants = [] := by decide

theorem witness_PresenceFrame_jobs : ∀ slot j, up.ctl.jobs.get slot = some j → j.target ≠ 2 := each_held (by decide)

theorem test_presenceFrame : after (.presenceFrame (from2 presence1)) up
    (fun t => ((t.ctl.peers.get 2).state, (t.ctl.peers.get 2).reportReq, t.ctl.alerts.pending, t.ctl.repair.map (·.kind)))
    = some (.present, true, 0x04#8, [.recheck false false]) := by decide +kernel

theorem test_presenceFrame_departs : after (.presenceFrame (from2 { presence1 with flags := 0x02#8 })) (upWith (withPeer (peer2 .present false)))
    (fun t => ((t.ctl.peers.get 2).state, t.ctl.repair.map (·.kind))) = some (.departed, [.departure 2]) := by decide +kernel

/-- PRESENCE frames with a release mark of 7, and with a report request for station 1. -/
def mark7 : PresenceBody := { presence1 with mark := 7 }
def asks : PresenceBody := { presence1 with mask := 0x02#8 }

theorem witness_PresenceRequests : Machine.Heard.receive (from2 mark7) = some (2, .presence mark7) ∧
    mark7.copies = byteOf up.env.copies ∧
    mark7.flags.getLsbD 1 = false ∧ (peer2 .present false).state = .present ∧ (peer2 .present false).gen = some mark7.gen ∧
    (peer2 .present false).full = false ∧ (peer2 .present false).mark < mark7.mark ∧
    mark7.mask.getLsbD up.env.me.val = false ∧
    Machine.Heard.receive (from2 asks) = some (2, .presence asks) ∧ asks.mask.getLsbD up.env.me.val = true ∧
    ¬ (peer2 .present false).mark < asks.mark := by decide +kernel

theorem witness_PresenceRequests_release : (∀ v x, up.ctl.rxHeld v = some x → x.phase ≠ .deferred) ∧
    (∀ slot j, up.ctl.jobs.get slot = some j → j.page.origin ≠ 2) := ⟨each_rx (by decide), each_held (by decide)⟩

/-- A series of the generator ended so many ms ago. -/
def endedAgo (ms : Word) : State := upWith (fun c => { c with holdings := { c.holdings with endedAt := some (100 - ms) } })

theorem witness_PresenceRequests_series : (upWith (inSeries true true)).ctl.holdings.series ≠ none ∧
    ¬ ((upIn .leaving).ctl.station = .active ∨ (upIn .leaving).ctl.station = .frozen) ∧ up.ctl.holdings.series = none ∧
    (endedAgo 39).ctl.holdings.endedAt = some 61 ∧ (100#32 - 61).toNat < 40 ∧ (endedAgo 40).ctl.holdings.endedAt = some 60 ∧
    40 ≤ (100#32 - 60).toNat := by decide

theorem witness_PresenceRequests_arrival : (peer2 .departed false).state = .departed ∧
    [{ kind := TaskKind.departure 2, cursor := 3, waiting := true }] ++
    [({ kind := .departure 4, cursor := 0, waiting := false } : Machine.Task)]
      = [] ++ { kind := .departure 2, cursor := 3,
                waiting := true } :: [{ kind := .departure 4, cursor := 0, waiting := false }] ∧
    (∀ y ∈ [({ kind := .departure 4, cursor := 0, waiting := false } : Machine.Task)], y.kind ≠ .departure 2 ∧
    y.isRecheck = false) := by decide

/-- An ANSWER of station 2. -/
def answer2 (a : AnswerBody) : Heard := (Frame.answer a).send 2

/-- PROGRAMMED for the COPY of page 7 of station 3, to station 1. -/
def answer7 : AnswerBody := { addressee := 1, origin := 3, seq := 7, ext := 1, flags := 1, verdict := 1, aux := 0 }

theorem witness_AnswerFrame : ∀ a ∈ [answer7, { answer7 with flags := 0 }, { answer7 with addressee := 5 },
    { answer7 with verdict := 3 },
      { answer7 with origin := 8 }, { answer7 with verdict := 0 }, { answer7 with verdict := 7 }],
    Machine.Heard.receive (answer2 a) = some (2, .answer a) ∧ (2 : Station) ≠ up.env.me ∧ up.env.rstLow = false ∧
    (up.ctl.station = .active ∨ up.ctl.station = .frozen ∨ up.ctl.station = .leaving) := by decide +kernel

theorem witness_AnswerFrame_fields : 8 ≤ (8#8).toNat ∧ 6 < (7#8).toNat ∧ answer7.origin.toNat = (3 : Station).val ∧
    (3 : Station) ≠ up.env.me ∧
    answer7.addressee = byteOf up.env.me.val ∧ answer7.flags.getLsbD 0 = true ∧ (5#8) ≠ byteOf up.env.me.val := by decide

theorem witness_AnswerFrame_verdicts : ∀ x ∈ [(1#8, Verdict.programmed), (2#8, .held), (3#8, .gap), (4#8, .full),
    (5#8, .lost), (6#8, .dropped)],
    x.1 = x.2.code := by decide

/-- The job of page 7 towards station 2 that awaits its answer. -/
def job72 : Job := { job7 with target := 2, state := .awaiting, timer := some 40, n := some 1, attempts := 1 }

/-- The station with that job, its COPY being sent or not. -/
def awaiting7 (sends : Bool) : State :=
  upWith (fun c => { c with dir := [held7], jobs := #v[none, some job72],
                            tx :=
                            { c.tx with entries := if sends then [{ txOf 0 (.copy { origin := 3, seq := 7 } 2 1) with sending := true }] else [] } })

theorem witness_AnswerFrame_job : (awaiting7 true).ctl.jobs.get 1 = some job72 ∧ job72.target = 2 ∧
    job72.page = { origin := 3, seq := 7 } ∧
    job72.cancelled = false ∧ job72.state ≠ .reading ∧ (awaiting7 true).ctl.jobs.get 0 = none ∧
    (awaiting7 true).ctl.entry { origin := 3, seq := 7 } = some held7 := by decide

theorem witness_AnswerFrame_noJob : ∀ slot j, up.ctl.jobs.get slot = some j →
    j.target ≠ 2 ∨ j.page ≠ { origin := 3, seq := 7 } ∨ j.cancelled = true ∨ j.state = .reading := each_held (by decide)

theorem witness_AnswerFrame_noStation : Machine.Heard.receive (answer2 { answer7 with origin := 8, verdict := 4 })
      = some (2, .answer { answer7 with origin := 8, verdict := 4 }) ∧ (4#8) = Verdict.full.code ∧ 8 ≤ (8#8).toNat := by
      decide +kernel

/-- The COPY of that job is held, and the other job's is owed. -/
def heldAndOwed : State :=
  upWith (fun c => { c with dir := [held7],
                            jobs := #v[some { job7 with target := 5, state := .queued, owed := true, n := some 1 },
                              some { job72 with state := .queued, timer := none }],
                            tx := { c.tx with held := [.copy { origin := 3, seq := 7 } 2 1] } })

theorem witness_AnswerFrame_owed : heldAndOwed.ctl.jobs.get 1 = some { job72 with state := .queued, timer := none } ∧
    (heldAndOwed.ctl.jobs.get 0).map (fun j => (j.target, j.owed)) = some (5, true) ∧
    (∃ b ∈ heldAndOwed.ctl.tx.held, b.isCopyOf 1 = true) ∧
    (∀ b ∈ heldAndOwed.ctl.tx.held, b.isAnyCopy = true → b.isCopyOf 1 = true) := by decide

theorem test_answerFrame : after (.answerFrame (answer2 answer7)) heldAndOwed
    (fun t => (t.ctl.jobs.get 1, (t.ctl.jobs.get 0).map (fun j => (j.owed, j.attempts)), t.ctl.tx.held.length,
      t.ctl.tx.entries.map (fun e => e.body.isCopyOf 0))) = some (none, some (false, 1), 0, [true]) := by decide +kernel

/-- PROGRAMMED for extent 0 of own page 9, to station 1. -/
def answer9 : AnswerBody := { addressee := 1, origin := 1, seq := 9, ext := 0, flags := 0, verdict := 1, aux := 0 }

/-- Page 9 with its extent sent, its own depth as given. -/
def sent9 (own : Nat) (x : ETEntry) : State :=
  upWith (fun c => { c with dir := [{ pending9 with depths := #v[0, own, 0, 0, 0, 0, 0, 0] }], et := [x],
                            fill := #v[some formed9, none] })

theorem witness_AnswerForOwnPage : ∀ a ∈ [answer9, { answer9 with addressee := 5 }, { answer9 with verdict := 4 },
    { answer9 with verdict := 5 },
      { answer9 with verdict := 3 }],
    Machine.Heard.receive (answer2 a) = some (2, .answer a) ∧ a.origin = byteOf up.env.me.val ∧ a.flags.getLsbD 0 = false :=
    by decide +kernel

theorem witness_AnswerForOwnPage_raises : (sent9 0 et9).env.rstLow = false ∧ (sent9 0 et9).ctl.station = .active ∧
    ((sent9 0 et9).ctl.ownEntry up.env 9).isSome = true ∧ (∀ y ∈ (sent9 0 et9).ctl.et, y.settled = .none) ∧
    (∀ y ∈ (sent9 0 et9).ctl.et, y.seq = 9 →
      (allStations.filter (fun i => decide (y.ext < (#v[0, 0, 1, 0, 0, 0, 0, 0] : Vector Nat 8).get i))).length < 2 ∧
        (y.timer ≠ none ∨ y.firstSent = false)) := by decide

theorem witness_AnswerForOwnPage_durable : (sent9 1 { et9 with prog := .programmed }).ctl.et = [{ et9 with prog := .programmed }] ∧
    ({ et9 with prog := .programmed } : ETEntry).settled = .none ∧
    ({ et9 with prog := .programmed } : ETEntry).prog ≠ .pending ∧
    2 ≤ (allStations.filter (fun i => decide (0 < (#v[0, 1, 1, 0, 0, 0, 0, 0] : Vector Nat 8).get i))).length := by decide

theorem witness_AnswerForOwnPage_gap : (0#8).toNat = (0#8).toNat ∧ (sent9 0 et9).ctl.etEntry 9 0 = some et9 ∧
    et9.record 2 = some { station := 2, state := .awaiting, attempts := 1 } ∧ (sent9 0 et9).ctl.fillOf 9
    = some (0, formed9) ∧
    (formed9.extents.find? (fun y => y.number == 0)).isSome = true ∧ (sent9 0 et9).ctl.tx.waitingExtent 9 0 = false ∧
    (sent9 0 et9).ctl.tx.held = [] ∧
    (allStations.filter (fun i => decide (0 < (#v[0, 0, 0, 0, 0, 0, 0, 0] : Vector Nat 8).get i))).length < 2 := by decide

/-- DROPPED for page 9, to all and to another station. -/
def dropped9 (addressee : Byte) : AnswerBody := { answer9 with addressee := addressee, verdict := 6 }

theorem witness_AnswerForOwnPage_dropped : (∀ x ∈ [0xFF#8, 5#8], Machine.Heard.receive (answer2 (dropped9 x))
    = some (2, .answer (dropped9 x))) ∧
    (∃ y ∈ (sent9 0 et9).ctl.et, y.seq = 9 ∧ y.settled = .none ∧ y.liveRecord 2 = true) ∧
    (∀ y ∈ (upWith (fun c => { c with dir := [pending9] })).ctl.et, y.liveRecord 2 = false) ∧ (5#8) ≠ (0xFF#8) ∧
    (sent9 0 et9).ctl.owed = [] := by decide +kernel

theorem test_answerForOwnPage : after (.answerFrame (answer2 answer9)) (sent9 1 { et9 with prog := .programmed })
    (fun t => (t.ctl.et.length, t.ctl.frontier, t.ctl.alerts.pending)) = some (0, .extent 9 0, 0x01#8) := by decide +kernel

/-- A HOLDINGS frame of station 2 about origin 3. -/
def holdings3 (items : List HoldItem) : HoldingsBody := { series := 1, origin := 3, index := 0, flags := 3, items := items }

theorem witness_HoldingsFrame : ∀ items ∈ [[], [HoldItem.run 7 1], [HoldItem.page 7 3 1],
    [HoldItem.page 6 1 0, .page 7 0 0]],
    Machine.Heard.receive ((Frame.holdings (holdings3 items)).send 2) = some (2, .holdings (holdings3 items)) := by
    decide +kernel

theorem witness_HoldingsFrame_peer : up.env.rstLow = false ∧ up.ctl.station ≠ .mounting ∧ up.ctl.station ≠ .isolated ∧
    (2 : Station) ≠ up.env.me ∧
    (up.ctl.peers.get 2).state ≠ .present ∧ (up.ctl.peers.get 2).state ≠ .silent ∧
    ((upWith (withPeer (peerIn .silent 9))).ctl.peers.get 2).state = .silent ∧
    ((upWith (withPeer (peerIn .present 0))).ctl.peers.get 2).state = .present ∧
    (holdings3 []).origin.toNat = (3 : Station).val ∧ (3 : Station) ≠ up.env.me := by decide

theorem witness_HoldingsFrame_dir : dirOk (upWith (fun c => { c with dir := [held7] })).ctl.dir ∧
    (upWith (fun c => { c with dir := [held7] })).ctl.entry held7.id = some held7 ∧ held7.id.origin = 3 ∧ held7.known ≤ 3 :=
  ⟨⟨by decide, by decide⟩, by decide, by decide, by decide⟩

theorem witness_HoldingsFrame_names : ((7#32).toNat ≤ held7.id.seq.toNat ∧
    held7.id.seq.toNat < (7#32).toNat + (1#16).toNat) ∧
    ¬ ((6#32).toNat ≤ held7.id.seq.toNat ∧ held7.id.seq.toNat < (6#32).toNat + (1#16).toNat) ∧ (7#32) = held7.id.seq ∧
    (6#32) ≠ held7.id.seq := by
  decide

/-- A HOLDINGS frame of station 2 about this station's own pages. -/
def holdings1of (items : List HoldItem) : HoldingsBody := { holdings3 items with origin := 1 }

/-- Page 9 with its Extent Table entry; with the reporter one station has its extent. -/
def own9held : State := upWith (fun c => withPeer (peerIn .present 0) { c with dir := [pending9], et := [et9] })

theorem witness_HoldingsFrame_own : Machine.Heard.receive ((Frame.holdings (holdings1of [.page 9 1 0])).send 2)
      = some (2, .holdings (holdings1of [.page 9 1 0])) ∧ (holdings1of []).origin.toNat = up.env.me.val ∧
      own9held.ctl.owed = [] ∧
    (∀ y ∈ own9held.ctl.et, y.settled = .none ∧
      (allStations.filter (fun i => decide (i = 2) || decide (y.ext < pending9.depths.get i))).length < up.env.copies) ∧
    own9held.ctl.ownEntry up.env 9 = some pending9 ∧ own9held.ctl.et.any (fun y => decide (y.seq = 9)) = true := by
    decide +kernel

theorem witness_HoldingsFrame_ownDir : dirOk own9held.ctl.dir := ⟨by decide, by decide⟩

/-- A RUN after a PAGE of the same page. -/
def bothForms : List HoldItem := [.page 7 0 0, .run 7 1]

theorem witness_HoldingsFrame_order : Machine.Heard.receive ((Frame.holdings (holdings3 bothForms)).send 2)
    = some (2, .holdings (holdings3 bothForms)) ∧
    bothForms = [] ++ .page held7.id.seq 0 0 :: [.run 7 1] := by decide +kernel

theorem test_holdingsFrame_order : after (.holdingsFrame ((Frame.holdings (holdings3 bothForms)).send 2))
      (upWith (fun c => withPeer (peerIn .present 0) { c with dir := [held7] }))
      (fun t => t.ctl.dir.map (fun e => e.depths.get 2)) = some [0] := by
  decide +kernel

theorem test_holdingsFrame : after (.holdingsFrame ((Frame.holdings (holdings3 [.run 7 1])).send 2))
      (upWith (fun c => withPeer (peerIn .present 0) { c with dir := [held7] }))
      (fun t => t.ctl.dir.map (fun e => e.depths.get 2)) = some [1] := by
  decide +kernel

/-! ## Data frames -/

/-- The EXTENT of page 8 of station 3 that begins it, for stations 1 and 2. -/
def extent8 : ExtentBody :=
  { seq := 8, ext := 0, mask := 0x06#8, flags := 0, first := 0, count := 1, records := 1, starts := 0x01#8, depths := 0,
    data := slot0 }

/-- A COPY of page 8 for station 1. -/
def copy8 : CopyBody :=
  { origin := 3, seq := 8, target := 1, flags := 0,
    descs := [{ number := 0, first := 0, count := 1, records := 1, starts := 0x01#8, flags := 0 }],
    depths := 0x0040#16, data := slot0 }

/-- The station with buffer 0 claimed. -/
def receiving (f : Ctl → Ctl) : State :=
    upWith (fun c => f { c with rx := #v[.claimed, .free, .free, .free], pool := [2, 3, 4] })

set_option maxRecDepth 100000 in
theorem receive_extent8 : Machine.Heard.receive ((Frame.extent extent8).send 3) = some (3, .extent extent8) := by
    decide +kernel

set_option maxRecDepth 100000 in
theorem receive_extent1 : Machine.Heard.receive ((Frame.extent extent1).send 3) = some (3, .extent extent1) := by
    decide +kernel

set_option maxRecDepth 100000 in
theorem receive_copy8 : Machine.Heard.receive ((Machine.Frame.copy copy8).send 4) = some (4, .copy copy8) := by
    decide +kernel

theorem witness_dataArrives_extent (f : Ctl → Ctl) (h : (receiving f).ctl.station = .active ∧
    (receiving f).ctl.rx = #v[.claimed, .free, .free, .free]) :
    (receiving f).dataArrives (.extentFrame ((Frame.extent extent8).send 3)) 3 (.extent extent8) { origin := 3, seq := 8 } 0 :=
  ⟨rfl, (by decide : (3 : Station) ≠ up.env.me), .inl h.1, by rw [h.2]; rfl, by rw [h.2]; decide,
   _, .inl ⟨_, rfl, receive_extent8, (by decide : has extent8.mask up.env.me = true), rfl, rfl⟩⟩

theorem witness_dataArrives_extent1 (f : Ctl → Ctl) (h : (receiving f).ctl.station = .active ∧
    (receiving f).ctl.rx = #v[.claimed, .free, .free, .free]) :
    (receiving f).dataArrives (.extentFrame ((Frame.extent extent1).send 3)) 3 (.extent extent1) { origin := 3, seq := 7 } 0 :=
  ⟨rfl, (by decide : (3 : Station) ≠ up.env.me), .inl h.1, by rw [h.2]; rfl, by rw [h.2]; decide,
   _, .inl ⟨_, rfl, receive_extent1, (by decide : has extent1.mask up.env.me = true), rfl, rfl⟩⟩

theorem witness_dataArrives_copy (f : Ctl → Ctl) (h : (receiving f).ctl.station = .active ∧
    (receiving f).ctl.rx = #v[.claimed, .free, .free, .free]) :
    (receiving f).dataArrives (.copyFrame ((Machine.Frame.copy copy8).send 4)) 4 (.copy copy8) { origin := 3, seq := 8 } 0 :=
  ⟨rfl, (by decide : (4 : Station) ≠ up.env.me), .inl h.1, by rw [h.2]; rfl, by rw [h.2]; decide,
   _, .inr ⟨_, rfl, receive_copy8, (by decide : copy8.target = byteOf up.env.me.val), rfl, by decide, rfl⟩⟩

/-- The releases and the directory under which these frames arrive. -/
theorem witness_DataFrames_states (f : Ctl → Ctl) (h : f = id ∨ f = (fun c => { c with dir := [held7] }) ∨ f = (fun c => { c with dir := [coming7] })) :
    (receiving f).ctl.station = .active ∧ (receiving f).ctl.rx = #v[.claimed, .free, .free, .free] := by
  rcases h with rfl | rfl | rfl <;> exact ⟨rfl, rfl⟩

theorem witness_DataFramesJudged_discards : (8#32) ≤ ({ Peer.reset with mark := 8 } : Peer).mark ∧
    (DataFrame.extent { extent8 with first := 8 }).illFormed ∧ (DataFrame.extent { extent8 with ext := 3 }).illFormed :=
  ⟨by decide, .inr (by decide), .inl (by decide)⟩

theorem witness_DataFrames_kept (f : Ctl → Ctl) (hp : (receiving f).ctl.peers = Ctl.reset.peers) :
    ¬ (receiving f).ctl.discards up.env (.extent extent8) { origin := 3, seq := 8 } ∧
    ¬ (receiving f).ctl.discards up.env (.extent extent1) { origin := 3, seq := 7 } := by
  constructor
  · rintro (h | ⟨h, -⟩ | h)
    · rw [if_neg (by decide), hp] at h
      exact absurd h (by decide)
    · exact absurd h (by decide)
    · rcases h with h | h <;> exact absurd h (by decide)
  · rintro (h | ⟨h, -⟩ | h)
    · rw [if_neg (by decide), hp] at h
      exact absurd h (by decide)
    · exact absurd h (by decide)
    · rcases h with h | h <;> exact absurd h (by decide)

theorem witness_DataFramesJudged_unknown : (receiving id).ctl.entry { origin := 3, seq := 7 } = none ∧ extent1.ext ≠ 0 ∧
    extent8.ext = 0 ∧
    extent8.first = 0 ∧ ({ extent8 with first := 1 } : ExtentBody).first ≠ 0 ∧
    (receiving (fun c => { c with pool := [2, 3] })).ctl.openBlock .replica = none ∧
    (receiving (fun c => { c with pool := [2, 3] })).ctl.pool.length < 3 := by decide

theorem witness_DataFramesJudged_known : (receiving (fun c => { c with dir := [coming7] })).ctl.entry { origin := 3, seq := 7 } = some coming7 ∧
    coming7.role = .replica ∧ coming7.pendingExt = some 2 ∧ coming7.depths.get up.env.me = 1 ∧
    (DataFrame.extent { extent1 with ext := 0 }).count ≤ 1 ∧ 1 < (DataFrame.extent extent1).count ∧
    (DataFrame.extent extent1).isCopy = false ∧
    (DataFrame.extent extent1).number < 2 ∧ 2 ≤ (DataFrame.extent { extent1 with ext := 2 }).number ∧
    (DataFrame.copy copy8).isCopy = true ∧
    (receiving (fun c => { c with dir := [held7] })).ctl.entry { origin := 3, seq := 7 } = some held7 ∧
    held7.pendingExt = none ∧
    held7.localPage = some { block := 4, page := 0 } ∧ 1 < ({ extent1 with ext := 2 } : ExtentBody).ext.toNat ∧
    extent1.ext.toNat = 1 ∧
    ({ extent1 with first := 2 } : ExtentBody).first.toNat ≠ held7.copyEnd := by decide

theorem witness_DataFramesTaken_new : (receiving id).ctl.entry { origin := 3, seq := 8 } = none ∧
    (receiving id).ctl.dir.length < 65536 ∧
    (receiving id).ctl.openBlock .replica = none ∧ 3 ≤ (receiving id).ctl.pool.length ∧ (receiving id).ctl.pool.head?
    = some 2 ∧
    (receiving (fun c => { c with blocks := [block4] })).ctl.openBlock .replica = some block4 := by decide

theorem witness_DataFramesTaken_adds : held7.depths.get up.env.me = 1 ∧ 1 < (DataFrame.extent extent1).count ∧
    extent1.ext.toNat = 1 ∧
    held7.closed = false ∧ (DataFrame.extent extent1).joinSlot 1 = held7.copyEnd ∧
    (receiving (fun c => { c with dir := [held7] })).ctl.inRetired { block := 4, page := 0 } = false ∧
    (receiving (fun c => { c with blocks := [{ block4 with state := .retired }] })).ctl.inRetired { block := 4, page := 0 } = true ∧
    (receiving (fun c => { c with pool := [] })).ctl.pool = [] ∧
    ({ held7 with depths := #v[0, 0, 0, 1, 0, 0, 0, 0] } : Entry).depths.get up.env.me = 0 := by
  decide

/-- COPYs of own page 7 that come back from station 4, of one extent and of two. -/
def back1 : CopyBody :=
  { origin := 1, seq := 7, target := 1, flags := 1,
    descs := [{ number := 0, first := 0, count := 1, records := 1, starts := 0x01#8, flags := 0 }],
    depths := 0, data := slot0 }
def back2 : CopyBody :=
  { back1 with
    descs := back1.descs ++ [{ number := 1, first := 1, count := 1, records := 1, starts := 0x02#8, flags := 1 }], data :=
    slot0 ++ slot0 }

/-- The station that takes such a COPY, own page 7 as given. -/
def returned (e : Entry) (f : Ctl → Ctl) : State := receiving (fun c => f { c with dir := [e], nextSeq := some 10 })

set_option maxRecDepth 100000 in
theorem receive_back1 : Machine.Heard.receive ((Machine.Frame.copy back1).send 4) = some (4, .copy back1) := by
    decide +kernel

set_option maxRecDepth 100000 in
theorem receive_back2 : Machine.Heard.receive ((Machine.Frame.copy back2).send 4) = some (4, .copy back2) := by
    decide +kernel

theorem witness_dataArrives_back (e : Entry) : (returned e id).dataArrives (.copyFrame ((Machine.Frame.copy back2).send 4)) 4 (.copy back2)
    { origin := 1, seq := 7 } 0 :=
  ⟨rfl, (by decide : (4 : Station) ≠ up.env.me), .inl rfl, rfl, (by decide : ∀ v : Fin 4,
     (#v[RxBuf.claimed, .free, .free, .free] : Vector RxBuf 4).get v = .claimed → v = 0),
   _, .inr ⟨_, rfl, receive_back2, rfl, rfl, by decide, rfl⟩⟩

theorem witness_DataFrames_keptOwn (e : Entry) (h : (returned e id).ctl.entry { origin := 1, seq := 7 } ≠ none) :
    ¬ (returned e id).ctl.discards up.env (.copy back2) { origin := 1, seq := 7 } := by
  rintro (h' | ⟨-, h', -⟩ | h')
  · rw [if_pos (by decide)] at h'
    exact absurd h' (by decide : ¬ (7#32) ≤ 0)
  · exact h h'
  · rcases h' with h' | ⟨d, l, h', h2⟩ | ⟨l, d, d', l', h', h2⟩
    · exact h' (by decide)
    · simp only [back2, back1, List.cons_append, List.nil_append, List.cons.injEq] at h'
      exact h2 (by rw [← h'.1])
    · rcases l with _ | ⟨a, _ | ⟨b, l⟩⟩
      · simp only [back2, back1, List.cons_append, List.nil_append, List.cons.injEq] at h'
        obtain ⟨rfl, rfl, -⟩ := h'
        revert h2
        decide
      · simp [back2, back1] at h'
      · simp [back2, back1] at h'

/-- Own page 7 remote-only. -/
def remote7 : Entry := { own7 with localPage := none, depths := #v[0, 0, 0, 0, 1, 0, 0, 0], copyEnd := 0 }

theorem witness_DataFramesJudged_own : own7.role = .own ∧ own7.depths.get up.env.me = 1 ∧ own7.pendingExt = none ∧
    own7.localPage = some { block := 4, page := 0 } ∧ (DataFrame.copy back1).count ≤ 1 ∧ 1 < (DataFrame.copy back2).count ∧
    (DataFrame.copy back1).closedFlag = true ∧ (returned own7 id).ctl.entry { origin := 1, seq := 7 } = some own7 ∧
    ({ own7 with copyEnd := 2 } : Entry).copyEnd ≠ 1 ∧ remote7.localPage = none ∧ remote7.pendingExt = none ∧
    (returned remote7 (fun c => { c with pool := [2] })).ctl.openBlock .own = none ∧
    (returned remote7 (fun c => { c with pool := [2] })).ctl.pool.length < 3 ∧
    ({ own7 with pendingExt := some 2 } : Entry).pendingExt = some 2 := by decide

theorem witness_DataFrames_settlesNothing (new : Entry) : (returned own7 id).ctl.settlesNothing up.env { origin := 1, seq := 7 } new :=
  fun _ => ⟨rfl, rfl, by simp [returned, receiving, upWith, up, Ctl.reset]⟩

theorem witness_DataFrames_settlesNothing_table : ({ returned own7 id with
      ctl := { (returned own7 id).ctl with et := [et7] } } : State).ctl.settlesNothing up.env { origin := 1, seq := 7 }
      (own7.heard up.env (.copy back1)) := by
  refine fun _ => ⟨rfl, rfl, ?_⟩
  intro y hy
  obtain rfl := List.mem_singleton.mp hy
  exact ⟨rfl, fun _ => by decide +kernel⟩

theorem witness_DataFramesTaken_own : (DataFrame.copy back2).joinSlot 1 = own7.copyEnd ∧ own7.closed = false ∧
    (∀ n q, (returned own7 id).ctl.fillOf 7 = some (n, q) → q.failed = true) ∧
    (returned own7 id).ctl.inRetired { block := 4, page := 0 } = false ∧
    ({ own7 with closed := true } : Entry).closed = true ∧
    (returned own7 id).ctl.openBlock .own = none ∧ (returned own7 id).ctl.pool.head? = some 2 ∧
    3 ≤ (returned own7 id).ctl.pool.length ∧
    (returned own7 (fun c => { c with pool := [] })).ctl.pool = [] ∧
    (returned remote7 id).ctl.entry { origin := 1, seq := 7 } = some remote7 ∧
    ({ own7 with depths := #v[0, 0, 0, 0, 1, 0, 0, 0], closed := true } : Entry).depths.get up.env.me = 0 :=
  ⟨by decide, by decide, by simp [returned, receiving, upWith, up, Ctl.reset, Ctl.fillOf], by decide, by decide,
    by decide, by decide,
   by decide, by decide, by decide, by decide⟩

set_option maxRecDepth 100000 in
theorem test_copyFrame_restores : after (.copyFrame ((Machine.Frame.copy back2).send 4)) (returned remote7 id)
    (fun t => (t.ctl.dir.map (fun e => (e.pendingExt, e.localPage)), (t.ctl.units.get 0).queue.map (·.who)))
    = some ([(some 2, some { block := 2, page := 0 })], [.replica 0]) := by decide +kernel

set_option maxRecDepth 100000 in
theorem test_extentFrame : after (.extentFrame ((Frame.extent extent8).send 3)) (receiving id)
    (fun t => (t.ctl.dir.map (fun e => (e.pendingExt, e.localPage)), t.ctl.pool, (t.ctl.units.get 0).queue.map (·.who)))
    = some ([(some 1, some { block := 2, page := 0 })], [3, 4], [.replica 0]) := by decide +kernel

set_option maxRecDepth 100000 in
theorem test_extentFrame_gap : after (.extentFrame ((Frame.extent extent1).send 3)) (receiving id)
    (fun t => (t.ctl.rx.get 0, t.ctl.tx.entries.map (fun e => match e.body with | .answer a => a.verdict | _ => 0)))
    = some (.free, [3]) := by
  decide +kernel

set_option maxRecDepth 100000 in
theorem test_copyFrame : after (.copyFrame ((Machine.Frame.copy copy8).send 4)) (receiving id)
    (fun t => (t.ctl.dir.map (fun e => (e.pendingExt, e.depths.get 3)), (t.ctl.units.get 0).queue.map (·.who)))
    = some ([(some 1, 1)], [.replica 0]) := by decide +kernel

/-! ## Held requests, job slots and walks -/

/-- A request held, with the queue at the limit or below it. -/
def heldOne (b : TxBody) (n : Nat) (f : Ctl → Ctl) : State :=
  upWith (fun c => f { c with tx := { c.tx with held := [b], nextNum := n,
                                                entries := (List.range n).map (fun i => txOf i (.answer answer1)) } })

theorem witness_HeldRequestMet : up.env.rstLow = false ∧ up.ctl.tx.held = [] ∧
    11 ≤ ((heldOne copy7 11 id).ctl.tx.entries.filter (fun e => !e.body.isPresence)).length ∧
    ((heldOne copy7 10 id).ctl.tx.entries.filter (fun e => !e.body.isPresence)).length < 11 ∧
    (heldOne copy7 10 id).ctl.tx.held = [] ++ copy7 :: [] ∧ copy7.isHoldings = false ∧ copy7.isAnyCopy = true ∧
    (TxBody.holdings holdings1).isHoldings = true ∧ (extent9 .readBack).isAnyExtent = true ∧
    (heldOne copy7 10 id).ctl.owed = [] ∧
    (heldOne copy7 10 id).ctl.readBack.wants = [] := by decide +kernel

theorem witness_HeldRequestMet_noneOwed : ∀ v j, (heldOne copy7 10 id).ctl.jobs.get v = some j → j.owed = false :=
    each_held (by decide)

/-- The same with a transmission of page 9 owed. -/
def owing9 : State :=
  heldOne (.extent 8 { number := 0, first := 0, count := 1, records := 1, starts := 0x01#8,
                       closing := false } 0x04#8 .readBack) 0
    (fun c => { c with dir := [pending9], et := [et9], fill := #v[some formed9, none],
                       owed := [{ seq := 9, ext := 0, mask := 0x04#8 }] })

theorem witness_HeldRequestMet_extent : owing9.ctl.owed = [{ seq := 9, ext := 0, mask := 0x04#8 }] ∧
    owing9.ctl.readBack.wants = [] ∧
    owing9.ctl.etEntry 9 0 = some et9 ∧ et9.settled = .none ∧ 0x04#8 &&& et9.awaiting = 0x04#8 ∧ (0x04#8) ≠ 0 ∧
    owing9.ctl.fillOf 9 = some (0, formed9) ∧ (formed9.extents.find? (fun i => i.number == 0)).isSome = true ∧
    owing9.ctl.tx.waitingExtent 9 0 = false := by decide

theorem witness_HeldRequestMet_copy : (heldOne copy7 0 (fun c => { c with jobs := #v[some { job72 with owed := true }, none] })).ctl.jobs.get 0
      = some { job72 with owed := true } ∧ ({ job72 with owed := true } : Job).owed = true ∧
    (heldOne copy7 0 (fun c => { c with jobs := #v[some { job72 with owed := true }, none] })).ctl.jobs.get 1 = none := by
    decide

theorem test_heldRequestMet : after .heldRequestMet owing9
    (fun t => (t.ctl.tx.held.length, t.ctl.tx.entries.map (fun e => e.body.isExtent 9 0), t.ctl.owed))
    = some (0, [false, true], []) := by
  decide +kernel

theorem test_heldRequestMet_full : after .heldRequestMet (heldOne copy7 11 id) (fun t => t.ctl.tx.held) = some [copy7] := by
    decide +kernel

/-- A catch-up request of page 9 for station 2. -/
def catching (e : Entry) : State :=
    upWith (fun c => { c with dir := [e], et := [et9], catchUps := [{ seq := 9, target := 2 }] })

/-- A task that waits for a slot. -/
def waitingTask (k : TaskKind) : Machine.Task := { kind := k, cursor := 0, waiting := true }

theorem witness_CopySlotGrant : (upWith (fun c => { c with jobs := #v[some job7, some job72] })).ctl.jobs.get 0 ≠ none ∧
    (upWith (fun c => { c with jobs := #v[some job7, some job72] })).ctl.jobs.get 1 ≠ none ∧ up.ctl.catchUps = [] ∧
    up.ctl.repair = [] ∧
    (catching pending9).ctl.jobs.get 0 = none ∧
    (upWith (fun c => { c with jobs := #v[some job7, none] })).ctl.jobs.get 1 = none ∧
    (catching pending9).ctl.catchUps = { seq := 9, target := 2 } :: [] ∧
    (catching pending9).ctl.entry { origin := 1, seq := 9 } = some pending9 ∧
    pending9.localPage = some { block := 2, page := 8 } ∧
    (catching { pending9 with localPage := none }).ctl.entry { origin := 1, seq := 9 }
    = some { pending9 with localPage := none } ∧
    (upWith (fun c => { c with catchUps := [{ seq := 9, target := 2 }] })).ctl.entry { origin := 1, seq := 9 } = none := by
    decide

theorem witness_CopySlotGrant_task : ∀ k ∈ [TaskKind.departure 2, .recheck true false],
    (upWith (fun c => { c with repair := [waitingTask k] })).ctl.repair = waitingTask k :: [] ∧
    (waitingTask k).waiting = true ∧
    (upWith (fun c => { c with repair := [waitingTask k] })).ctl.catchUps = [] ∧ up.ctl.station = .active ∧
    up.ctl.jobs.get 0 = none := by decide

theorem test_copySlotGrant : after .copySlotGrant (catching pending9)
    (fun t => (t.ctl.catchUps, (t.ctl.jobs.get 0).map (fun j => (j.target, j.state)), (t.ctl.units.get 0).queue.map (·.who)))
    = some ([], some (2, .reading), [.copyJob 0]) := by decide +kernel

/-- Page 7 under-copied: station 1 alone holds it; station 4 is PRESENT. -/
def low7 : Entry := { held7 with depths := #v[0, 1, 0, 0, 0, 0, 0, 0], under := true }

/-- The station with a task and a directory. -/
def walking (k : TaskKind) (cursor : Nat) (dir : List Entry) : State :=
  upWith (fun c => { c with dir := dir, peers := vput c.peers 4 (peerIn .present 0),
                            repair := [{ kind := k, cursor := cursor, waiting := false }] })

theorem witness_WalkSteps_nothing : up.env.rstLow = false ∧ up.ctl.repair = [] ∧
    ¬ ((upIn .leaving).ctl.station = .active ∨ (upIn .leaving).ctl.station = .frozen) ∧
    (upWith (fun c => { c with repair := [waitingTask (.departure 3)] })).ctl.repair = waitingTask (.departure 3) :: [] ∧
    (waitingTask (.recheck true false)).isRecheck = true ∧ (waitingTask (.departure 3)).isRecheck = false := by decide

theorem witness_WalkSteps_departure : (walking (.departure 3) 0 [low7]).ctl.repair = { kind := .departure 3, cursor := 0, waiting := false } :: [] ∧
    (walking (.departure 3) 0 [low7]).ctl.dir.find? (fun y => decide (0 ≤ y.id.key)) = some low7 ∧
    (walking (.departure 3) 0 [low7]).ctl.entry low7.id = some low7 ∧ low7.role = .replica ∧
    (∀ e ∈ (walking (.departure 3) (low7.id.key + 1) [low7]).ctl.dir, e.id.key < low7.id.key + 1) ∧ pending9.role = .own ∧
    (∃ y ∈ (sent9 0 et9).ctl.et, y.seq = pending9.id.seq) ∧
    (∃ y ∈ [low7, { low7 with id := { origin := 3, seq := 8 } }], y.under = true ∧ y.id ≠ low7.id) := by decide

theorem witness_WalkSteps_recheck : ∀ again ∈ [false, true],
    (walking (.recheck true again) 0 [low7]).ctl.repair = { kind := .recheck true again, cursor := 0,
                                                            waiting := false } :: [] ∧
    (walking (.recheck true again) 0 [low7]).ctl.dir.find? (fun y => decide (0 ≤ y.id.key)) = some low7 ∧
    (walking (.recheck true again) 0 [low7]).ctl.entry low7.id = some low7 := by decide

theorem witness_WalkSteps_decision : low7.under = true ∧ low7.known ≠ 0 ∧
    (walking (.recheck true false) 0 [low7]).ctl.repairer up.env low7 = some up.env.me ∧
    (walking (.recheck true false) 0 [low7]).ctl.repairTarget up.env low7 up.env.me = some 4 ∧
    (walking (.recheck true false) 0 [low7]).ctl.jobs.get 0 = none ∧
    (walking (.recheck true false) 0 [low7]).ctl.catchUps = [] ∧
    low7.localPage = some program7.page ∧
    (upWith (fun c => { c with dir := [low7] })).ctl.repairTarget up.env low7 up.env.me = none ∧
    held7.under = false ∧ (catching pending9).ctl.catchUps ≠ [] := by decide +kernel

theorem witness_WalkSteps_noJob : ∀ v j, (walking (.recheck true false) 0 [low7]).ctl.jobs.get v
    = some j → j.page ≠ low7.id := each_held (by decide)

theorem test_departureWalkStep : after .departureWalkStep (walking (.departure 3) 0 [{ held7 with under := true },
    { low7 with id := { origin := 3, seq := 8 } }])
    (fun t => (t.ctl.dir.map (fun e => e.depths.get 3), t.ctl.repair.map (·.cursor), (t.ctl.jobs.get 0).map (·.target)))
    = some ([0, 0], [held7.id.key + 1], some 4) := by decide +kernel

theorem test_recheckWalkStep : after .recheckWalkStep (walking (.recheck true false) (low7.id.key + 1) [low7])
    (fun t => t.ctl.repair) = some [] := by
  decide +kernel

/-! ## Choices of stations, and what every step keeps -/

theorem witness_HolderCounts : held7.known ≠ 0 ∧ entry9.known = 0 ∧
    active9.ctl.entry { origin := active9.env.me, seq := 9 } = some entry9 := by decide

theorem witness_RepairTarget : (walking (.recheck true false) 0 [low7]).ctl.station = .active ∧
    ((walking (.recheck true false) 0 [low7]).ctl.peers.get (low7.id.origin + 1)).state = .present ∧
    ((walking (.recheck true false) 0 [low7]).ctl.peers.get (low7.id.origin + 1)).full = false ∧
    low7.depths.get (low7.id.origin + 1) < low7.known ∧
    (∀ d', d' < (1 : Fin 8) → low7.id.origin + d' = low7.id.origin) ∧
    ((walking (.recheck true false) 0 [low7]).ctl.peers.get low7.id.origin).state ≠ .present ∧ low7.id.origin ≠ up.env.me :=
    by decide

theorem witness_RepairTarget_none : ∀ i : Station, i ≠ up.env.me → (up.ctl.peers.get i).state ≠ .present := by decide

theorem witness_Repairer_origin : ((upWith (fun c => { c with peers := vput c.peers 3 (peerIn .present 0) })).ctl.peers.get held7.id.origin).state = .present ∧
    held7.depths.get held7.id.origin = held7.known := by decide

theorem witness_Repairer_other : ¬ ((up.ctl.peers.get held7.id.origin).state = .present) ∧ up.ctl.station = .active ∧
    held7.depths.get up.env.me = held7.known ∧
    (∀ j, j < up.env.me → (up.ctl.peers.get j).state ≠ .present) := by decide

theorem witness_Repairer_none : (upIn .listening).ctl.station ≠ .active ∧ (upIn .listening).ctl.station ≠ .frozen ∧
    (∀ i : Station, i ≠ up.env.me → ((upIn .listening).ctl.peers.get i).state ≠ .present) ∧
    (upIn .listening).ctl.repairer up.env held7 ≠ some up.env.me := by decide +kernel

theorem witness_PlacementChoices : ((walking (.departure 3) 0 []).ctl.peers.get (entry9.id.origin + 3)).state = .present ∧
    ((walking (.departure 3) 0 []).ctl.peers.get (entry9.id.origin + 3)).full = false ∧ (4 : Station) ∉ entry9.targets ∧
    entry9.extra ≠ some 4 ∧
    entry9.excluded.getLsbD (4 : Station).val = false ∧
    (∀ d', d' ≠ 0 → d' < (3 : Fin 8) → ((walking (.departure 3) 0 []).ctl.peers.get (entry9.id.origin + d')).state ≠ .present) := by decide

theorem test_placement : (walking (.departure 3) 0 []).ctl.substitute up.env entry9 = some 4 ∧
    ({ (walking (.departure 3) 0 []).ctl with pool := [2, 3, 4] } : Ctl).placement up.env = [4] := by decide

theorem witness_FrameRoundTrip : (Frame.presence presence1).wf = true ∧ Machine.Heard.receive presenceF
    = some (2, .presence presence1) := by
  decide +kernel

theorem witness_FlashStaysCanonical : Flash.blank.wf ∧ step State.reset = .next State.reset :=
    ⟨⟨by decide, List.Pairwise.nil, List.Pairwise.nil, by decide⟩, rfl⟩

theorem witness_BoundsStay : up.ctl.Ok ∧ step up = .next up.tick :=
  ⟨⟨⟨by decide, by decide⟩, ⟨by decide, by decide, by decide, by decide⟩, ⟨by decide, by decide⟩,
    (by decide : ∀ i, (up.ctl.units.get i).favour ≤ 6), ⟨by decide, by decide⟩⟩, rfl⟩

theorem witness_EveryCommandCompletes : after .status up (fun t => t.pending) = some [] := by decide

end Sys2Proof.Tests
end

