-- ==== Sys2Proof/Proofs/RepairChoices.lean ====
section
/-!
PROOFS. The repairer of a page (R104) and its repair target (R105): each is the first station of a fixed walk that passes
one test. What the walks find is said once; then each test is read by the clauses of its rule.
-/

namespace Sys2Proof.Machine

/-! ## What the walks over the stations find -/

/-- A walk that no station passes finds none. -/
theorem find_none_of_fails {p : Station → Bool} (l : List Station) (h : ∀ i, p i = false) : l.find? p = none :=
  List.find?_eq_none.2 fun i _ => by simp [h i]

/-- The walk in ascending order finds the lowest-numbered station that passes. -/
theorem find_allStations {p : Station → Bool} {i : Station} (hi : p i = true) (hlow : ∀ j, j < i → p j = false) :
    allStations.find? p = some i := by
  rw [allStations_eq]
  exact find_sorted (· < ·) p _ (List.pairwise_lt_finRange 8) i (List.mem_finRange i) hi fun j _ => hlow j

/-- The walk in cyclic order finds the station that passes at the least distance from its start. -/
theorem find_cyclicFrom {p : Station → Bool} {o : Station} {d : Fin 8} (hd : p (o + d) = true)
    (hnear : ∀ d', d' < d → p (o + d') = false) : (cyclicFrom o).find? p = some (o + d) := by
  rw [cyclicFrom_eq, ← allStations_eq, List.find?_map, find_allStations (p := p ∘ (o + ·)) hd hnear, Option.map_some]

theorem depth_eq (e : Entry) (i : Station) : e.depth i = e.depths.get i := rfl

/-! ## The repair target (R105) -/

/-- The test that R105 puts to each station of its walk, for the repairer `r`. -/
def Ctl.takesRepair (c : Ctl) (k : Env) (e : Entry) (r s : Station) : Bool :=
  decide (s ≠ r) && c.countsPresent k s && !c.countsFull k s && decide (e.depth s < e.known)

theorem repairTarget_eq (c : Ctl) (k : Env) (e : Entry) (r : Station) :
    c.repairTarget k e r = (cyclicFrom e.id.origin).find? (c.takesRepair k e r) := rfl

theorem takesRepair_iff (c : Ctl) (k : Env) (e : Entry) (r i : Station) : c.takesRepair k e r i = true ↔
    i ≠ r ∧ (if i = k.me then c.station = .active ∨ c.station = .frozen else (c.peers.get i).state = .present) ∧
      ¬ (if i = k.me then 65536 ≤ c.dir.length ∨ (c.openBlock .replica = none ∧ c.pool.length < 3)
          else (c.peers.get i).full = true) ∧
      e.depths.get i < e.known := by
  rw [← countsPresent_iff, ← countsFull_iff, ← depth_eq]
  simp [Ctl.takesRepair, and_assoc]

/-- Settles O55: the cyclic walk finds the nearest station that passes the test of R105, or none. -/
theorem repairTarget : Obligations.RepairTarget := by
  intro c k e r present full qualifies
  have hfails : ∀ i, ¬ qualifies i → c.takesRepair k e r i = false := fun i hi =>
    Bool.eq_false_iff.2 (mt (takesRepair_iff c k e r i).1 hi)
  rw [repairTarget_eq]
  refine ⟨fun hno => ?none, fun d hd hnear => ?some⟩
  case none => exact find_none_of_fails _ fun i => hfails i (hno i)
  case some =>
    exact find_cyclicFrom ((takesRepair_iff c k e r _).2 hd) fun d' hlt => hfails _ (hnear d' hlt)

/-! ## The repairer (R104) -/

/-- The test that R104 puts to a station: it counts as PRESENT and holds every known extent. -/
def Ctl.canRepair (c : Ctl) (k : Env) (e : Entry) (s : Station) : Bool :=
  c.countsPresent k s && decide (e.depth s = e.known)

theorem repairer_eq (c : Ctl) (k : Env) (e : Entry) : c.repairer k e =
    if c.canRepair k e e.id.origin then some e.id.origin else allStations.find? (c.canRepair k e) := rfl

theorem canRepair_iff (c : Ctl) (k : Env) (e : Entry) (i : Station) : c.canRepair k e i = true ↔
    (if i = k.me then c.station = .active ∨ c.station = .frozen else (c.peers.get i).state = .present) ∧
      e.depths.get i = e.known := by
  rw [← countsPresent_iff, ← depth_eq]
  simp [Ctl.canRepair]

/-- A station that is not the repairer does nothing at the repair decision (R152). -/
theorem repairDecision_of_not_repairer {c : Ctl} {k : Env} {e : Entry} (h : c.repairer k e ≠ some k.me) :
    c.repairDecision k e = (c, false) := by
  unfold Ctl.repairDecision
  by_cases hknown : e.known = 0
  · rw [if_pos hknown]
  · rw [if_neg hknown, if_pos h]

/-- Settles O56: the origin is asked first, then the ascending walk finds the lowest station that passes, or none. -/
theorem repairer : Obligations.Repairer := by
  intro c k e present deep
  have hpass : ∀ i, deep i → c.canRepair k e i = true := fun i => (canRepair_iff c k e i).2
  have hfails : ∀ i, ¬ deep i → c.canRepair k e i = false := fun i hi =>
    Bool.eq_false_iff.2 (mt (canRepair_iff c k e i).1 hi)
  refine ⟨fun ho => ?origin, fun i ho hi hlow => ?lowest, fun hno => ?none, repairDecision_of_not_repairer⟩
  case origin => rw [repairer_eq, if_pos (hpass _ ho)]
  case lowest =>
    rw [repairer_eq, hfails _ ho, if_neg Bool.false_ne_true]
    exact find_allStations (hpass i hi) fun j hj => hfails j (hlow j hj)
  case none =>
    rw [repairer_eq, hfails _ (hno _), if_neg Bool.false_ne_true]
    exact find_none_of_fails _ fun i => hfails i (hno i)

end Sys2Proof.Machine
end

