-- ==== Sys2Proof/Proofs/StepInvariants.lean ====
section
/-!
PROOFS. The two invariants of a step (Sections 2, 3, 5, 9 and 10), the step itself, and the state after reset. Every
command has one of a few shapes, and the laws say of each shape what it keeps; here each command is named once with its shape.
-/

namespace Sys2Proof.Machine

/-! ## The step -/

/-- Settles O1: the step is the head's meaning on the queue's rest. -/
theorem stepRunsHead : Obligations.StepRunsHead := by
  intro i rest s h
  simp only [step, h]

/-- A step is either a millisecond or the command at the head of the queue. -/
theorem step_cases {s t : State} (h : step s = .next t) :
    t = s.tick ∨ ∃ i rest, s.pending = i :: rest ∧ exec i { s with pending := rest } = .next t := by
  cases hp : s.pending with
  | nil =>
    simp only [step, hp, Host.Outcome.next.injEq] at h
    exact .inl h.symm
  | cons i rest =>
    rw [stepRunsHead i rest s hp] at h
    exact .inr ⟨i, rest, rfl, h⟩

/-- Settles O2: the three cases are those of `State.tick` and `Ctl.tick`. -/
theorem idleStepIsOneMillisecond : Obligations.IdleStepIsOneMillisecond := by
  intro s hp
  have hstep : step s = .next s.tick := by simp only [step, hp]
  rw [hstep]
  refine ⟨fun hlow => ?low, fun hhigh ha hf => ?still, fun hhigh hrun => ?runs⟩
  case low => rw [State.tick, if_pos hlow]
  case still =>
    have hstop : ¬ s.ctl.station.timersRun = true := by
      rw [timersRun_iff]
      exact fun h => h.elim ha hf
    simp only [State.tick, hhigh, Ctl.tick, hstop, if_false, Bool.false_eq_true]
  case runs =>
    have hgo := (timersRun_iff s.ctl.station).2 hrun
    simp only [State.tick, hhigh, Ctl.tick, hgo, if_true, if_false, Bool.false_eq_true]

/-! ## The state after reset -/

/-- Settles O4: each field of Table 4-1 as the reset state has it, with the bounds by `Ctl.reset_ok`. -/
theorem resetState : Obligations.ResetState := by
  refine ⟨rfl, rfl, rfl, rfl, rfl, ?controller, ?array⟩
  case controller =>
    refine ⟨rfl, rfl, rfl, rfl, rfl, rfl, rfl, rfl, rfl, rfl, rfl, rfl, rfl, ?_, ?_, ?_, ?_, ?_, ?_, rfl, rfl, rfl, rfl, rfl, rfl,
      rfl, rfl, rfl, rfl, Ctl.reset_ok⟩
    all_goals decide
  case array => exact ⟨rfl, .nil, .nil, fun _ h => nomatch h⟩

/-! ## The bounds -/

/-- A walk's step that is due, or else nothing. -/
theorem Ctl.walkIfDue_calm {w : Bool} {c₀ c : Ctl} (h : Calm w c₀ c) (k : Env) (recheck : Bool) :
    Calm w c₀ (if c.walkDue recheck then c.walkStep k else c) := by
  split
  · exact Ctl.walkStep_calm h k
  · exact h

theorem hardReset_ok (s : State) : s.hardReset.ctl.Ok := by
  have hctl : s.hardReset.ctl = Ctl.reset := rfl
  rw [hctl]
  exact Ctl.reset_ok

/-- Every command keeps the bounds: the arbiter by its own count (R28), every other because its event is `Calm`. -/
theorem exec_keeps_bounds {i : Instr} {s t : State} (hs : s.ctl.Ok) (h : exec i s = .next t) : t.ctl.Ok := by
  cases i with
  | hardReset =>
    injection h with h; subst h
    exact hardReset_ok s
  | hardResetRelease n cpy =>
    injection h with h; subst h
    unfold State.releaseReset
    split
    · exact (Ctl.releaseReset_calm Ctl.reset).ok Ctl.reset_ok
    · exact hs
  | powerFailWarning =>
    injection h with h; subst h
    exact s.powerFail_calm.ok hs
  | rejoin =>
    injection h with h; subst h
    exact s.powerGood_calm.ok hs
  | arbiterGrant u => exact next_onCtl_ok hs (fun c _ hc => Ctl.arbitrate_ok hc u) h
  | mountHeaderReadDone u r =>
    injection h with h; subst h
    exact s.headerReadDone_ok u r _ hs fun c x hc => (Ctl.headerRead_calm (.refl c) u x).ok hc
  | append d =>
    exact next_onCtl_calm hs (fun c k => Ctl.takeLast_calm (.refl c) _ _ _ fun _ args hx => Ctl.doAppend_calm hx k args) h
  | read d =>
    exact next_onCtl_calm hs (fun c k => Ctl.takeLast_calm (.refl c) _ _ _ fun _ args hx => Ctl.doRead_calm hx k args) h
  | scan d =>
    exact next_onCtl_calm hs (fun c k => Ctl.takeLast_calm (.refl c) _ _ _ fun _ args hx => Ctl.doScan_calm hx k args) h
  | release d =>
    exact next_onCtl_calm hs (fun c k => Ctl.takeLast_calm (.refl c) _ _ _ fun _ args hx => Ctl.doRelease_calm hx k args) h
  | alertMask d =>
    exact next_onCtl_calm hs (fun c _ => Ctl.takeLast_calm (.refl c) _ _ _ fun _ args hx => Ctl.doAlertMask_calm hx args) h
  | reportAlertCauses =>
    exact next_onCtl_calm hs (fun c k => Ctl.takeLast_calm (.refl c) _ _ _ fun _ _ hx => Ctl.doReport_calm hx k _) h
  | reportStationSummary | reportPeerTable | reportExtentTable =>
    exact next_onCtlFresh_calm hs (fun c k => Ctl.takeLast_calm (.refl c) _ _ _ fun _ _ hx => Ctl.doReport_calm hx k _) h
  | argumentByte d => exact next_onCtlFresh_calm hs (fun c k => Ctl.argumentWrite_calm (.refl c) k d) h
  | appendPayloadByte d => exact next_onCtl_calm hs (fun c k => Ctl.payloadByte_calm (.refl c) k d) h
  | flush => exact next_onCtl_calm hs (fun c k => Ctl.takeByte_calm (.refl c) k .flush) h
  | scanNext => exact next_onCtl_calm hs (fun c k => Ctl.takeByte_calm (.refl c) k .scanNext) h
  | status => exact next_onCtl_calm hs (fun c k => Ctl.takeByte_calm (.refl c) k .status) h
  | portReset => exact next_onCtl_calm hs (fun c k => Ctl.takeByte_calm (.refl c) k .portReset) h
  | unknownCommand code => exact next_onCtl_calm hs (fun c k => Ctl.unknown_calm (.refl c) k code) h
  | commandByte code => exact next_onCtl_calm hs (fun c k => Ctl.beginCommand_calm (.refl c) k code) h
  | statusLatchRead => exact next_onCtl_calm hs (fun c _ => Ctl.readLatch_calm (.refl c)) h
  | resultBlockRead => exact next_onCtl_calm hs (fun c _ => Ctl.readResult_calm (.refl c)) h
  | payloadRead => exact next_onCtl_calm hs (fun c _ => Ctl.readPayload_calm (.refl c)) h
  | openOwnPage => exact next_onCtl_calm hs (fun c k => Ctl.openOwnPage_calm (.refl c) k) h
  | markLogReadDone u r =>
    refine next_pageReadDone_calm hs (fun c _ _ a x => ?_) h
    split
    · exact Ctl.markRead_calm (.refl c) a _
    · exact .refl c
  | mountPageReadDone u r =>
    refine next_pageReadDone_calm hs (fun c k _ a x => ?_) h
    split
    · exact Ctl.pageFound_calm (.refl c) k u a _
    · exact .refl c
  | mountResolve => exact next_onCtl_calm hs (fun c k => Ctl.mountResolve_calm (.refl c) k) h
  | markProgramDone u r => exact next_programDone_calm hs (fun c k _ _ out => Ctl.markProgramEnd_calm (.refl c) k out) h
  | markEraseDone u r => exact next_eraseDone_calm hs (fun c _ x => Ctl.markEraseEnd_calm (.refl c) x) h
  | recordEraseDone u r => exact next_eraseDone_calm hs (fun c b x => Ctl.recordEraseEnd_calm (.refl c) b x) h
  | ownProgramDone u r => exact next_programDone_calm hs (fun c k w q out => Ctl.ownEnd_calm (.refl c) k w q out) h
  | ownReadBackDone u r =>
    refine next_pageReadDone_calm hs (fun c k w a x => ?_) h
    split
    · exact Ctl.ownReadBackEnd_calm (.refl c) k _ a x
    · exact .refl c
  | replicaProgramDone u r =>
    refine next_programDone_calm hs (fun c k w q out => ?_) h
    split
    · exact Ctl.frameProgramEnd_calm (.refl c) k _ false q out
    · exact .refl c
  | relocationReadBackDone u r =>
    refine next_pageReadDone_calm hs (fun c k w a x => ?_) h
    split
    · exact Ctl.frameReadBackEnd_calm (.refl c) k _ a x
    · exact .refl c
  | replicaRelocationDone u r =>
    refine next_programDone_calm hs (fun c k w q out => ?_) h
    split
    · exact Ctl.frameProgramEnd_calm (.refl c) k _ true q out
    · exact .refl c
  | copyReadDone u r =>
    refine next_pageReadDone_calm hs (fun c k w a x => ?_) h
    split
    · exact Ctl.jobReadEnd_calm (.refl c) k _ a x
    · exact .refl c
  | portReadDone u r | scanReadDone u r | prefetchReadDone u r | abandonedReadDone u r =>
    exact next_pageReadDone_calm hs (fun c k w a x => Ctl.portEnd_calm (.refl c) k w a x) h
  | presenceTick => exact next_onCtl_calm hs (fun c k => Ctl.presenceTick_calm (.refl c) k) h
  | missedCountThreshold p => exact next_onCtl_calm hs (fun c k => Ctl.missedThreshold_calm (.refl c) k p) h
  | listeningWindowEnd => exact next_onCtl_calm hs (fun c k => Ctl.windowEnd_calm (.refl c) k) h
  | answerTimerExpiry seq ext => exact next_onCtl_calm hs (fun c k => Ctl.answerExpired_calm (.refl c) k seq ext.val) h
  | copyJobTimerExpiry slot => exact next_onCtl_calm hs (fun c k => Ctl.jobExpired_calm (.refl c) k slot) h
  | recheckTimerExpiry => exact next_onCtl_calm hs (fun c _ => Ctl.recheckExpired_calm (.refl c)) h
  | frameStart => exact next_onCtl_calm hs (fun c k => Ctl.startFrame_calm (.refl c) k) h
  | lostArbitration => exact next_onCtl_calm hs (fun c k => Ctl.loseArbitration_calm (.refl c) k) h
  | transmitFault => exact next_onCtl_calm hs (fun c k => Ctl.transmitFault_calm (.refl c) k) h
  | faultCountLimit => exact next_onCtl_calm hs (fun c k => Ctl.faultLimit_calm (.refl c) k) h
  | sentWhole => exact next_onCtl_calm hs (fun c k => Ctl.sentWhole_calm (.refl c) k) h
  | receiveBufferClaim a => exact next_onCtl_calm hs (fun c k => Ctl.claim_calm (.refl c) k a) h
  | frameAbandoned => exact next_onCtl_calm hs (fun c _ => Ctl.freeClaimed_calm (.refl c)) h
  | presenceFrame f => exact next_onCtl_calm hs (fun c k => Ctl.hearPresence_calm (.refl c) k f) h
  | answerFrame f => exact next_onCtl_calm hs (fun c k => Ctl.hearAnswer_calm (.refl c) k f) h
  | holdingsFrame f => exact next_onCtl_calm hs (fun c k => Ctl.hearHoldings_calm (.refl c) k f) h
  | extentFrame f => exact next_onCtl_calm hs (fun c k => Ctl.hearExtent_calm (.refl c) k f) h
  | copyFrame f => exact next_onCtl_calm hs (fun c k => Ctl.hearCopy_calm (.refl c) k f) h
  | frameFailsChecks f => exact next_onCtl_calm hs (fun c _ => Ctl.hearBad_calm (.refl c) f) h
  | heldRequestMet => exact next_onCtl_calm hs (fun c k => Ctl.meetHeld_calm (.refl c) k) h
  | copySlotGrant => exact next_onCtl_calm hs (fun c k => Ctl.grantSlot_calm (.refl c) k) h
  | departureWalkStep => exact next_onCtl_calm hs (fun c k => Ctl.walkIfDue_calm (.refl c) k false) h
  | recheckWalkStep => exact next_onCtl_calm hs (fun c k => Ctl.walkIfDue_calm (.refl c) k true) h

/-- Settles O60: a millisecond is `Calm`, and every command keeps the bounds. -/
theorem boundsStay : Obligations.BoundsStay := by
  intro s t hs h
  obtain rfl | ⟨i, rest, -, hexec⟩ := step_cases h
  · exact s.tick_calm.ok hs
  · exact exec_keeps_bounds (s := { s with pending := rest }) hs hexec

/-! ## The canonical form of the array -/

/-- Every command keeps the array canonical: the pins by what they cut short, an operation's end by what it writes or has
found, and no other command touches the array. -/
theorem exec_keeps_canonical {i : Instr} {s t : State} (hs : s.flash.wf) (h : exec i s = .next t) : t.flash.wf := by
  cases i with
  | hardReset =>
    injection h with h; subst h
    exact Flash.wf_cutShort _ _ _ (Flash.wf_cutShort _ _ _ hs)
  | hardResetRelease n cpy =>
    injection h with h; subst h
    unfold State.releaseReset
    split <;> exact hs
  | powerFailWarning =>
    injection h with h; subst h
    unfold State.powerFail
    split <;> exact hs
  | rejoin =>
    injection h with h; subst h
    unfold State.powerGood
    split <;> exact hs
  | mountHeaderReadDone u r =>
    injection h with h; subst h
    obtain heq | ⟨b, c, -, heq⟩ := s.headerReadDone_cases u r (fun c x => c.headerRead u x) <;> rw [heq]
    · exact hs
    · exact Flash.wf_afterHeaderRead _ _ _ hs
  | markLogReadDone | mountPageReadDone | ownReadBackDone | relocationReadBackDone | copyReadDone | portReadDone
  | scanReadDone | prefetchReadDone | abandonedReadDone => exact next_pageReadDone_flash hs h
  | markProgramDone | ownProgramDone | replicaProgramDone | replicaRelocationDone => exact next_programDone_flash hs h
  | markEraseDone | recordEraseDone => exact next_eraseDone_flash hs h
  | reportStationSummary | reportPeerTable | reportExtentTable | argumentByte => exact next_onCtlFresh_flash hs h
  | _ => exact next_onCtl_flash hs h

/-- Settles O59: a millisecond leaves the array alone, and every command keeps it canonical. -/
theorem flashStaysCanonical : Obligations.FlashStaysCanonical := by
  intro s t hs h
  obtain rfl | ⟨i, rest, -, hexec⟩ := step_cases h
  · rw [State.tick]
    split <;> exact hs
  · exact exec_keeps_canonical (s := { s with pending := rest }) hs hexec

/-! ## Every command completes -/

theorem State.programDone_pending (s : State) (u : UnitNo) (p : Requester → Bool) (r : ProgramReport)
    (f : Ctl → Env → Requester → ProgramReq → ProgramOut → Ctl) : (s.programDone u p r f).pending = s.pending := by
  obtain h | ⟨x, c, q, -, -, h⟩ | ⟨b, c, q, -, -, h⟩ := s.programDone_cases u p r f <;> rw [h]

theorem State.eraseDone_pending (s : State) (u : UnitNo) (p : Requester → Bool) (r : EraseReport)
    (f : Ctl → Nat → Bool → Ctl) : (s.eraseDone u p r f).pending = s.pending := by
  obtain h | ⟨b, c, -, h⟩ := s.eraseDone_cases u p r f <;> rw [h]

/-- Settles O3: each shape of a command answers a next state and leaves the queue alone. -/
theorem everyCommandCompletes : Obligations.EveryCommandCompletes := by
  intro i s
  cases i with
  | hardReset => exact ⟨_, rfl, rfl⟩
  | hardResetRelease n cpy =>
    refine ⟨_, rfl, ?_⟩
    unfold State.releaseReset
    split <;> rfl
  | powerFailWarning =>
    refine ⟨_, rfl, ?_⟩
    unfold State.powerFail
    split <;> rfl
  | rejoin =>
    refine ⟨_, rfl, ?_⟩
    unfold State.powerGood
    split <;> rfl
  | mountHeaderReadDone u r =>
    refine ⟨_, rfl, ?_⟩
    obtain heq | ⟨b, c, -, heq⟩ := s.headerReadDone_cases u r (fun c x => c.headerRead u x) <;> rw [heq]
  | markLogReadDone | mountPageReadDone | ownReadBackDone | relocationReadBackDone | copyReadDone | portReadDone
  | scanReadDone | prefetchReadDone | abandonedReadDone => exact ⟨_, rfl, State.pageReadDone_pending _ _ _ _ _⟩
  | markProgramDone | ownProgramDone | replicaProgramDone | replicaRelocationDone =>
    exact ⟨_, rfl, State.programDone_pending _ _ _ _ _⟩
  | markEraseDone | recordEraseDone => exact ⟨_, rfl, State.eraseDone_pending _ _ _ _ _⟩
  | reportStationSummary | reportPeerTable | reportExtentTable | argumentByte =>
    exact ⟨_, rfl, State.onCtlFresh_pending _ _⟩
  | _ => exact ⟨_, rfl, State.onCtl_pending _ _⟩

end Sys2Proof.Machine
end

