-- ==== Sys2Proof/Proofs/PortCycles.lean ====
section
/-!
PROOFS. The local port (Section 10): command and argument bytes, the latch, the result block and the payload, the reports
and the alert set, PORT RESET, and the commands READ, SCAN and RELEASE up to what waits.
-/

namespace Sys2Proof.Machine

/-! ## Commands of the controller -/

/-- Out of reset a command of the controller answers what its event leaves. -/
theorem next_onCtl_eq {s : State} {f : Ctl → Env → Ctl} {d : Ctl} (hlow : s.env.rstLow = false) (h : f s.ctl s.env = d) :
    Host.Outcome.next (φ := Fault) (ρ := Refusal) (s.onCtl f) = .next { s with ctl := d } := by
  rw [next_onCtl s f hlow, h]

/-- The same for a command that draws a free value. -/
theorem next_onCtlFresh_eq {s : State} {f : Ctl → Env → Ctl} {d : Ctl} (hlow : s.env.rstLow = false)
    (h : f s.ctl s.env = d) :
    Host.Outcome.next (φ := Fault) (ρ := Refusal) (s.onCtlFresh f) =
      .next { s with env := { s.env with fresh := s.env.fresh + 1 }, ctl := d } := by
  rw [next_onCtlFresh s f hlow, h]

/-- A command whose event leaves the controller as it is changes nothing. -/
theorem next_onCtl_same {s : State} {f : Ctl → Env → Ctl} (h : s.env.rstLow = false → f s.ctl s.env = s.ctl) :
    Host.Outcome.next (φ := Fault) (ρ := Refusal) (s.onCtl f) = .next s := by
  cases hlow : s.env.rstLow with
  | true => rw [State.onCtl_low s f hlow]
  | false => exact next_onCtl_eq hlow (h hlow)

/-! ## Command bytes -/

theorem Ctl.discardAppend_of {c : Ctl} {k : Env} {b : Fin 2} {p : FillPage} (h : c.openPage k = some (b, p)) :
    c.discardAppend k = c.setFill b (some p.cleared) := by
  simp only [Ctl.discardAppend, h]

theorem Ctl.commandWrite_busy {c : Ctl} (h : c.busy = true) (k : Env) (f : Ctl → Ctl) : c.commandWrite k f = c.setOverrun := by
  rw [Ctl.commandWrite, if_pos h]

theorem Ctl.commandWrite_idle {c : Ctl} (h : c.port.act = .idle) (k : Env) (f : Ctl → Ctl) : c.commandWrite k f = f c := by
  simp only [Ctl.commandWrite, Ctl.busy, Ctl.abandon, h, Activity.waits, Bool.false_eq_true, if_false]

/-- A command that collects arguments ends SHORT. -/
theorem Ctl.commandWrite_collecting {c : Ctl} {cmd : ArgCmd} {args : List Byte} (h : c.port.act = .collecting cmd args)
    (k : Env) (f : Ctl → Ctl) : c.commandWrite k f = f (c.endCommand .short []) := by
  simp only [Ctl.commandWrite, Ctl.busy, Ctl.abandon, h, Activity.waits, Bool.false_eq_true, if_false]

/-- An APPEND in its data phase ends SHORT, and its bytes are gone. -/
theorem Ctl.commandWrite_appendData {c : Ctl} {a : AppendCmd} {got : Nat} {k : Env} {b : Fin 2} {p : FillPage}
    (h : c.port.act = .appendData a got) (hp : c.openPage k = some (b, p)) (f : Ctl → Ctl) :
    c.commandWrite k f = f ((c.setFill b (some p.cleared)).endCommand .short []) := by
  simp only [Ctl.commandWrite, Ctl.busy, Ctl.abandon, h, Activity.waits, Bool.false_eq_true, if_false,
    Ctl.discardAppend_of hp]

theorem Ctl.beginCommand_arg {code : Byte} {cmd : ArgCmd} (h : argCmdOf code = some cmd) (c : Ctl) (k : Env) :
    c.beginCommand k code = c.commandWrite k (fun c => c.setAct (.collecting cmd [])) := by
  simp only [Ctl.beginCommand, h]

theorem Ctl.unknown_of {code : Byte} (h : knownCode code = false) (c : Ctl) (k : Env) :
    c.unknown k code = c.commandWrite k (fun c => c.takeCommand.endCommand .badArg []) := by
  rw [Ctl.unknown, if_neg (by rw [h]; exact Bool.false_ne_true)]

/-- The codes of Table 10-1: those that collect arguments, and four that are whole commands. -/
theorem knownCode_eq (code : Byte) :
    knownCode code = ((argCmdOf code).isSome || code == 0x22#8 || code == 0x33#8 || code == 0x5A#8 || code == 0x5F#8) := by
  have harg : argumentCodes.contains code = (argCmdOf code).isSome := by
    simp only [argCmdOf]
    split_ifs with h1 h2 h3 h4 h5 h6
    case neg => simp only [argumentCodes, List.contains_cons, beq_eq_false_iff_ne.2 h1, beq_eq_false_iff_ne.2 h2, beq_eq_false_iff_ne.2 h3, beq_eq_false_iff_ne.2 h4, beq_eq_false_iff_ne.2 h5, beq_eq_false_iff_ne.2 h6]; rfl
    all_goals subst code; rfl
  simp only [knownCode, harg, immediateCodes, List.contains_cons, List.contains_nil, Bool.or_false, Bool.or_assoc]

/-- What the statement says of the codes: a code is known as the one or the other. -/
theorem knownCode_or (code : Byte) :
    decide (knownCode code = (argCmdOf code).isSome) || code == 0x22#8 || code == 0x33#8 || code == 0x5A#8
      || code == 0x5F#8 := by
  rw [knownCode_eq]
  generalize (argCmdOf code).isSome = a, (code == 0x22#8) = b, (code == 0x33#8) = c, (code == 0x5A#8) = d,
    (code == 0x5F#8) = e
  revert a b c d e
  decide

/-- A code that is not known collects no arguments and is no whole command. -/
theorem Ctl.beginCommand_unknown {code : Byte} (h : knownCode code = false) (c : Ctl) (k : Env) :
    c.beginCommand k code = c.unknown k code := by
  have hk := knownCode_eq code
  simp only [h, Bool.false_eq, Bool.or_eq_false_iff, beq_eq_false_iff_ne, Option.isSome_eq_false_iff, Option.isNone_iff_eq_none]
    at hk
  obtain ⟨⟨⟨⟨harg, hflush⟩, hnext⟩, hstatus⟩, hreset⟩ := hk
  simp only [Ctl.beginCommand, harg, byteCmdOf, hflush, hnext, hstatus, hreset, if_false]

/-- Settles O7: a code's command, and the four states of the port in which a command byte may come. -/
theorem commandBytes : Obligations.CommandBytes := by
  refine ⟨⟨⟨rfl, rfl⟩, ⟨rfl, rfl⟩, ⟨rfl, rfl⟩, ⟨rfl, rfl⟩, ⟨rfl, rfl⟩, ⟨rfl, rfl⟩, knownCode_or, ?codes, ?begins⟩, ?unknown⟩
  case codes =>
    refine fun s => ⟨rfl, rfl, rfl, rfl, fun code hcode => ?_⟩
    show Host.Outcome.next (s.onCtl fun c k => c.beginCommand k code) = .next (s.onCtl fun c k => c.unknown k code)
    simp only [Ctl.beginCommand_unknown hcode]
  case begins =>
    intro s code cmd hlow harg
    refine ⟨fun hbusy => next_onCtl_eq hlow ?_, fun hidle => next_onCtl_eq hlow ?_, fun _ _ hcol => next_onCtl_eq hlow ?_,
      fun _ _ _ _ hdata hopen => next_onCtl_eq hlow ?_⟩ <;> rw [Ctl.beginCommand_arg harg]
    · rw [Ctl.commandWrite_busy hbusy]; rfl
    · rw [Ctl.commandWrite_idle hidle]; rfl
    · rw [Ctl.commandWrite_collecting hcol]; rfl
    · rw [Ctl.commandWrite_appendData hdata hopen]; rfl
  case unknown =>
    intro s code hlow hcode
    refine ⟨fun hbusy => next_onCtl_eq hlow ?_, fun hport => next_onCtl_eq hlow ?_, fun _ _ _ _ hdata hopen => next_onCtl_eq hlow ?_⟩ <;> rw [Ctl.unknown_of hcode]
    · rw [Ctl.commandWrite_busy hbusy]; rfl
    · obtain hidle | ⟨_, _, hcol⟩ := hport
      · rw [Ctl.commandWrite_idle hidle]; rfl
      · rw [Ctl.commandWrite_collecting hcol]; rfl
    · rw [Ctl.commandWrite_appendData hdata hopen]; rfl

/-! ## Argument bytes -/

theorem Ctl.argumentWrite_stray {c : Ctl} (h : ∀ cmd args, c.port.act ≠ .collecting cmd args) (k : Env) (d : Byte) :
    c.argumentWrite k d = c.setOverrun := by
  unfold Ctl.argumentWrite
  split
  case h_1 cmd args hact => exact absurd hact (h cmd args)
  case h_2 => rfl

/-- A byte before the last is collected. -/
theorem Ctl.argumentWrite_early {c : Ctl} {cmd : ArgCmd} {args : List Byte} (h : c.port.act = .collecting cmd args)
    (hl : args.length + 1 < cmd.bytes) (k : Env) (d : Byte) :
    c.argumentWrite k d = c.setAct (.collecting cmd (args ++ [d])) := by
  simp only [Ctl.argumentWrite, h, List.length_append, List.length_singleton, hl, if_true]

/-- The last byte is the command. -/
theorem Ctl.argumentWrite_last {c : Ctl} {cmd : ArgCmd} {args : List Byte} (h : c.port.act = .collecting cmd args)
    (hl : args.length + 1 = cmd.bytes) (k : Env) (d : Byte) : c.argumentWrite k d = c.take k cmd (args ++ [d]) := by
  simp only [Ctl.argumentWrite, h, List.length_append, List.length_singleton, hl, lt_irrefl, if_false]

/-- A REPORT has no argument but its selector. -/
theorem Ctl.take_report {args : List Byte} (hl : args.length + 1 = ArgCmd.report.bytes) (c : Ctl) (k : Env) (d : Byte) :
    c.take k .report (args ++ [d]) = c.takeCommand.doReport k d := by
  obtain rfl : args = [] := List.eq_nil_of_length_eq_zero (Nat.succ.inj hl)
  rfl

theorem Ctl.doReport_unknown {d : Byte} (h : 3 < d.toNat) (c : Ctl) (k : Env) : c.doReport k d = c.endCommand .badArg [] := by
  unfold Ctl.doReport
  split
  case h_5 => rfl
  all_goals omega

/-- Settles O8: a stray byte, one before the last, and the last, which is the command it completes. -/
theorem argumentByte : Obligations.ArgumentByte := by
  intro s d hlow
  refine ⟨fun hstray => next_onCtlFresh_eq hlow (Ctl.argumentWrite_stray hstray _ _), fun cmd args hact => ⟨fun hlt => ?early, ?refused, ?last⟩⟩
  case early => exact next_onCtlFresh_eq hlow (Ctl.argumentWrite_early hact hlt _ _)
  case refused =>
    rintro hl rfl hd
    refine next_onCtlFresh_eq hlow ?_
    rw [Ctl.argumentWrite_last hact hl, Ctl.take_report hl, Ctl.doReport_unknown hd]
    rfl
  case last =>
    intro i hl hi
    have hbyte := next_onCtlFresh s (fun c k => c.argumentWrite k d) hlow
    simp only [Ctl.argumentWrite_last hact hl] at hbyte
    have htake (f : Ctl → List Byte → Ctl) := takeLast_of hact hl d f
    obtain ⟨rfl, rfl⟩ | ⟨rfl, rfl⟩ | ⟨rfl, rfl⟩ | ⟨rfl, rfl⟩ | ⟨rfl, rfl⟩ | ⟨rfl, hsel⟩ := hi
    · exact ⟨_, _, hbyte, next_onCtl_eq hlow (htake _), rfl, rfl⟩
    · exact ⟨_, _, hbyte, next_onCtl_eq hlow (htake _), rfl, rfl⟩
    · exact ⟨_, _, hbyte, next_onCtl_eq hlow (htake _), rfl, rfl⟩
    · exact ⟨_, _, hbyte, next_onCtl_eq hlow (htake _), rfl, rfl⟩
    · exact ⟨_, _, hbyte, next_onCtl_eq hlow (htake _), rfl, rfl⟩
    · rw [Ctl.take_report hl] at hbyte
      obtain ⟨rfl, rfl⟩ | ⟨rfl, rfl⟩ | ⟨rfl, rfl⟩ | ⟨rfl, rfl⟩ := hsel
      · exact ⟨_, _, hbyte, next_onCtlFresh_eq hlow (htake _), rfl, rfl⟩
      · exact ⟨_, _, hbyte, next_onCtlFresh_eq hlow (takeLast_of hact hl 1 _), rfl, rfl⟩
      · exact ⟨_, _, hbyte, next_onCtl_eq hlow (takeLast_of hact hl 2 _), rfl, rfl⟩
      · exact ⟨_, _, hbyte, next_onCtlFresh_eq hlow (takeLast_of hact hl 3 _), rfl, rfl⟩

/-! ## Commands turned away -/

theorem Ctl.takeLast_none {c : Ctl} {cmd : ArgCmd} (h : c.lastArgument cmd = none) (d : Byte) (f : Ctl → List Byte → Ctl) :
    c.takeLast cmd d f = c := by
  simp only [Ctl.takeLast, h]

/-- The controller once a command has been taken and refused STATE. -/
theorem Ctl.doAppend_state {c : Ctl} (h : c.station ≠ .active) (k : Env) (args : List Byte) :
    c.takeCommand.doAppend k args = { c with port := c.port.ended .state [] } := if_pos h

theorem Ctl.doRelease_state {c : Ctl} (h : c.station ≠ .active) (k : Env) (args : List Byte) :
    c.takeCommand.doRelease k args = { c with port := c.port.ended .state [] } := if_pos h

theorem Ctl.doFlush_state {c : Ctl} (h : c.station ≠ .active) (k : Env) :
    c.takeCommand.doFlush k = { c with port := c.port.ended .state [] } := if_pos h

theorem Ctl.doRead_state {c : Ctl} (h : c.station = .mounting) (k : Env) (args : List Byte) :
    c.takeCommand.doRead k args = { c with port := c.port.ended .state [] } := if_pos h

theorem Ctl.doScan_state {c : Ctl} (h : c.station = .mounting) (k : Env) (args : List Byte) :
    c.takeCommand.doScan k args = { c with port := c.port.ended .state [] } := if_pos h

theorem Ctl.doScanNext_state {c : Ctl} (h : c.station = .mounting) (k : Env) :
    c.takeCommand.doScanNext k = { c with port := c.port.ended .state [] } := if_pos h

theorem Ctl.doAlertMask_state {c : Ctl} (h : c.station = .mounting) (args : List Byte) :
    c.takeCommand.doAlertMask args = { c with port := c.port.ended .state [] } := if_pos h

/-- A command byte at a port that waits for nothing and has no APPEND in its data phase is taken from an idle port, or from
one whose command has ended SHORT. -/
theorem Ctl.commandWrite_open {c : Ctl} (h : c.port.act = .idle ∨ ∃ cmd args, c.port.act = .collecting cmd args) (k : Env)
    (f : Ctl → Ctl) : c.commandWrite k f = f c ∨ c.commandWrite k f = f (c.endCommand .short []) := by
  obtain hidle | ⟨cmd, args, hcol⟩ := h
  · exact .inl (Ctl.commandWrite_idle hidle k f)
  · exact .inr (Ctl.commandWrite_collecting hcol k f)

/-- Settles O9: a byte that is not awaited, and each command in a state that does not take it (Table 10-2). -/
theorem commandsTurnedAway : Obligations.CommandsTurnedAway := by
  refine ⟨fun s cmd d i hnone hlow hi => ?awaited, fun s i d hlow hi => ?state⟩
  case awaited =>
    have hsame (b : Byte) (f : Ctl → Env → Ctl → List Byte → Ctl) :
        Host.Outcome.next (φ := Fault) (ρ := Refusal) (s.onCtl fun c k => c.takeLast cmd b (f c k)) = .next s :=
      next_onCtl_same fun _ => Ctl.takeLast_none hnone _ _
    obtain ⟨rfl, rfl⟩ | ⟨rfl, rfl⟩ | ⟨rfl, rfl⟩ | ⟨rfl, rfl⟩ | ⟨rfl, rfl⟩ | ⟨rfl, rfl⟩ := hi
    · exact hsame d fun _ k c args => c.doAppend k args
    · exact hsame d fun _ k c args => c.doRead k args
    · exact hsame d fun _ k c args => c.doScan k args
    · exact hsame d fun _ k c args => c.doRelease k args
    · exact hsame d fun _ _ c args => c.doAlertMask args
    · exact hsame 2 fun _ k c _ => c.doReport k 2
  case state =>
    obtain ⟨hst, ⟨_, _, _, hact, rfl⟩ | ⟨_, _, _, hact, rfl⟩ | ⟨hact, rfl⟩⟩ |
      ⟨hst, ⟨_, _, _, _, _, hact, rfl⟩ | ⟨_, _, _, _, hact, rfl⟩ | ⟨hact, rfl⟩ | ⟨hact, rfl⟩⟩ := hi
    case inl.inl => exact next_onCtl_eq hlow ((takeLast_of hact rfl _ _).trans (Ctl.doAppend_state hst _ _))
    case inl.inr.inl => exact next_onCtl_eq hlow ((takeLast_of hact rfl _ _).trans (Ctl.doRelease_state hst _ _))
    case inl.inr.inr =>
      refine next_onCtl_eq hlow ?_
      obtain h | h := Ctl.commandWrite_open hact s.env (fun c => c.takeCommand.doFlush s.env)
      · exact h.trans (Ctl.doFlush_state hst _)
      · exact h.trans (Ctl.doFlush_state (c := s.ctl.endCommand .short []) hst _)
    case inr.inl => exact next_onCtl_eq hlow ((takeLast_of hact rfl _ _).trans (Ctl.doRead_state hst _ _))
    case inr.inr.inl => exact next_onCtl_eq hlow ((takeLast_of hact rfl _ _).trans (Ctl.doScan_state hst _ _))
    case inr.inr.inr.inl =>
      refine next_onCtl_eq hlow ?_
      obtain h | h := Ctl.commandWrite_open hact s.env (fun c => c.takeCommand.doScanNext s.env)
      · exact h.trans (Ctl.doScanNext_state hst _)
      · exact h.trans (Ctl.doScanNext_state (c := s.ctl.endCommand .short []) hst _)
    case inr.inr.inr.inr => exact next_onCtl_eq hlow ((takeLast_of hact rfl _ _).trans (Ctl.doAlertMask_state hst _))

/-! ## The latch, the result block and the payload -/

/-- Settles O10: STATUS and the latch by their definitions, the status byte by its bits. -/
theorem statusAndLatch : Obligations.StatusAndLatch := by
  refine ⟨fun s hlow => ⟨next_onCtl_eq hlow rfl, ?_⟩, fun s hlow => next_onCtl_eq hlow rfl⟩
  obtain ⟨hready, hdata, hoverrun, halert, hcode, htop⟩ :=
    status_bits (!s.ctl.busy) s.ctl.dataPhase s.ctl.port.overrun s.ctl.alertLow s.ctl.station
  refine ⟨hready.trans ?_, hdata, hoverrun, halert, hcode.trans ?_, htop⟩
  · rw [State.rdy, hlow, Bool.not_false, Bool.true_and]
  · cases s.ctl.station <;> rfl

theorem Ctl.readResult_busy {c : Ctl} (h : c.busy = true) : c.readResult = c.onPort (fun p => { p with dOut := 0 }) := if_pos h

theorem Ctl.readPayload_busy {c : Ctl} (h : c.busy = true) : c.readPayload = c.onPort (fun p => { p with dOut := 0 }) :=
  if_pos h

/-- With no payload left a read cycle delivers 00H. -/
theorem Ctl.readPayload_none {c : Ctl} (h : c.port.payload = none) :
    c.readPayload = c.onPort (fun p => { p with dOut := 0 }) := by
  simp only [Ctl.readPayload, h, ite_self]

/-- Else it delivers the next byte of the image, and the payload goes on behind it. -/
theorem Ctl.readPayload_loaded {c : Ctl} {x : Payload} {id : PageId} {h n : Nat} {m : Memory} (hb : c.busy = false)
    (hx : c.port.payload = some x) (hbuf : c.pair.get x.buf = .loaded id h m n) :
    c.readPayload = c.onPort (fun p =>
      { p with
        dOut := Memory.read erasedByte m (x.slot * 512 + 12 + x.pos),
        payload := if x.pos + 1 < x.length then some { x with pos := x.pos + 1 } else none }) := by
  simp only [Ctl.readPayload, hb, hx, hbuf, Bool.false_eq_true, if_false]

/-- The last byte leaves no payload. -/
theorem Ctl.readPayload_last {c : Ctl} {x : Payload} (hact : c.port.act = .idle) (hx : c.port.payload = some x)
    (hlast : x.length ≤ x.pos + 1) : c.readPayload.dataPhase = false := by
  simp only [Ctl.readPayload, Ctl.busy, Ctl.dataPhase, Ctl.onPort, hact, hx, Activity.waits, Bool.false_eq_true, if_false,
    not_lt.2 hlast, Option.isSome_none]

/-- Settles O11: busy or not, and with a byte left or not. -/
theorem blockAndPayloadReads : Obligations.BlockAndPayloadReads := by
  refine ⟨fun s hlow => ⟨fun hbusy => ?busy, fun b hidle hb => ?byte, fun hidle hend => ?done⟩,
    fun s hlow => ⟨fun hnone => ?nothing, fun x id h m n hidle hx hbuf => ?payload, fun x hact hx hlast => ?drained⟩⟩
  case busy => exact next_onCtl_eq hlow (Ctl.readResult_busy hbusy)
  case byte =>
    refine next_onCtl_eq hlow ?_
    simp only [Ctl.readResult, hidle, hb, Bool.false_eq_true, if_false]
    rfl
  case done =>
    refine next_onCtl_eq hlow ?_
    simp only [Ctl.readResult, hidle, List.getElem?_eq_none hend, Bool.false_eq_true, if_false]
    rfl
  case nothing => exact next_onCtl_eq hlow (hnone.elim Ctl.readPayload_busy Ctl.readPayload_none)
  case payload => exact next_onCtl_eq hlow (Ctl.readPayload_loaded hidle hx hbuf)
  case drained => exact ⟨_, next_onCtl_eq hlow rfl, Ctl.readPayload_last hact hx hlast⟩

end Sys2Proof.Machine
end

