-- ==== Sys2Proof/Proofs/PortReports.lean ====
section
/-!
PROOFS. The result blocks of REPORT (R170, Table 11-13), the alert set (R171) and PORT RESET (R172).
-/

namespace Sys2Proof.Machine

/-! ## The blocks' parts -/

theorem Frontier.bytes_shape (f : Frontier) (k : Env) : ∃ a b c d x, f.bytes k = [a, b, c, d, x] := by
  cases f <;> exact ⟨_, _, _, _, _, rfl⟩

theorem Ctl.openBytes_shape (c : Ctl) (k : Env) : ∃ a b d e x, c.openBytes k = [a, b, d, e, x] := by
  unfold Ctl.openBytes
  split <;> exact ⟨_, _, _, _, _, rfl⟩

theorem genHeard_shape (k : Env) (i : Nat) (g : Option Half) : ∃ a b, genHeard k i g = [a, b] := by
  cases g <;> exact ⟨_, _, rfl⟩

theorem placeBytes_shape (k : Env) (i : Nat) (p : Option Place) : ∃ a b c, placeBytes k i p = [a, b, c] := by
  unfold placeBytes
  split <;> exact ⟨_, _, _, rfl⟩

/-- Of records of one length, set one after the other, number `i` stands at `i` such lengths. -/
theorem take_drop_flatMap {α β : Type} {g : α → List β} {n : Nat} (hg : ∀ x, (g x).length = n) :
    ∀ (l : List α) (i : Nat) (x : α), l[i]? = some x → ((l.flatMap g).drop (n * i)).take n = g x := by
  intro l
  induction l with
  | nil => intro i x h; cases h
  | cons y l ih =>
    intro i x h
    cases i with
    | zero =>
      obtain rfl : y = x := Option.some.inj h
      rw [Nat.mul_zero, List.drop_zero, List.flatMap_cons, ← hg y, List.take_left]
    | succ i =>
      rw [List.flatMap_cons, Nat.mul_succ, Nat.add_comm, ← List.drop_drop, List.drop_left' (hg y)]
      exact ih i x h

/-- The record of a station in REPORT 1. -/
theorem Ctl.peerTable_record (c : Ctl) (k : Env) (i : Station) :
    ((c.peerTable k).drop (17 * i.val)).take 17 =
      if i = k.me then c.ownRecord k (c.peers.get i) (1 + 17 * i.val) else (c.peers.get i).bytes k (1 + 17 * i.val) := by
  have hall : allStations[i.val]? = some i := by
    revert i
    decide
  refine take_drop_flatMap (fun s => ?_) _ _ _ hall
  simp only
  split
  · exact ownRecord_len _ _ _ _
  · exact peerBytes_len _ _ _

/-- The record of an entry in REPORT 3. -/
theorem Ctl.entriesBytes_record (c : Ctl) (k : Env) (l : List ETEntry) :
    ∀ (j i : Nat) (x : ETEntry), l[i]? = some x →
      ((c.entriesBytes k l j).drop (18 * i)).take 18 = c.entryBytes k x (j + 18 * i) := by
  induction l with
  | nil => intro j i x h; cases h
  | cons y l ih =>
    intro j i x h
    have hy := entryBytes_len c k y j
    cases i with
    | zero =>
      obtain rfl : y = x := Option.some.inj h
      rw [Nat.mul_zero, List.drop_zero, Ctl.entriesBytes, List.take_left' hy, Nat.add_zero]
    | succ i =>
      rw [Ctl.entriesBytes, Nat.mul_succ, Nat.add_comm (18 * i), ← List.drop_drop, List.drop_left' hy, ih (j + 18) i x h,
        Nat.add_assoc]

theorem Ctl.summary_length (c : Ctl) (k : Env) : (c.summary k).length = 45 := by
  obtain ⟨_, _, _, _, _, hf⟩ := c.frontier.bytes_shape k
  obtain ⟨_, _, _, _, _, ho⟩ := c.openBytes_shape k
  rw [Ctl.summary, hf, ho]
  rfl

theorem Ctl.peerTable_length (c : Ctl) (k : Env) : (c.peerTable k).length = 136 := by
  have hrecord (s : Station) : ((fun s : Station =>
      let i := 1 + 17 * s.val
      if s = k.me then c.ownRecord k (c.peers.get s) i else (c.peers.get s).bytes k i) s).length = 17 := by
    simp only
    split
    · exact ownRecord_len _ _ _ _
    · exact peerBytes_len _ _ _
  rw [Ctl.peerTable, List.length_flatMap]
  simp only [hrecord]
  rfl

theorem Ctl.extentReport_length (c : Ctl) (k : Env) : (c.extentReport k).length = 1 + 18 * c.et.length := by
  rw [Ctl.extentReport, List.length_cons, entriesBytes_len, Nat.add_comm]

/-- The fields of REPORT 0 behind the frontier and the open page. -/
theorem Ctl.summary_tail (c : Ctl) (k : Env) :
    (c.summary k).drop 33 =
      bytes32 (wordOf c.dir.length) ++ bytes32 (wordOf (c.dir.filter (·.under)).length) ++
        bytes16 (halfOf c.pool.length) ++ [byteOf c.tx.faults, if c.mark.frozenOwed then 1 else 0] := by
  obtain ⟨_, _, _, _, _, hf⟩ := c.frontier.bytes_shape k
  obtain ⟨_, _, _, _, _, ho⟩ := c.openBytes_shape k
  rw [Ctl.summary, hf, ho]
  cases c.mark.frozenOwed <;> rfl

/-- The fields of REPORT 0 of the open page. -/
theorem Ctl.summary_open (c : Ctl) (k : Env) : ((c.summary k).drop 28).take 5 = c.openBytes k := by
  obtain ⟨_, _, _, _, _, hf⟩ := c.frontier.bytes_shape k
  obtain ⟨_, _, _, _, _, ho⟩ := c.openBytes_shape k
  rw [Ctl.summary, hf, ho]
  rfl

/-- The fields of REPORT 0 of the confirmed frontier. -/
theorem Ctl.summary_frontier (c : Ctl) (k : Env) : ((c.summary k).drop 23).take 5 = c.frontier.bytes k := by
  obtain ⟨_, _, _, _, _, hf⟩ := c.frontier.bytes_shape k
  rw [Ctl.summary, hf]
  rfl

/-- The byte of flags in a peer's record. -/
def peerFlags (p : Peer) (full heard : Bool) : Byte := bitOf full 0 ||| bitOf p.reportReq 1 ||| bitOf heard 2

/-- The code and the missed count in a peer's record. -/
def heardBytes (p : Peer) : List Byte :=
  [byteOf p.missed, match p.code with
    | none => 0xFF#8
    | some x => x.byte]

theorem heardBytes_eq (p : Peer) : heardBytes p = [byteOf p.missed, codeHeard p.code] := by
  unfold heardBytes codeHeard
  cases p.code <;> rfl

/-- The record of a peer. -/
theorem Peer.bytes_fields (p : Peer) (k : Env) (i : Nat) :
    (p.bytes k i).head? = some p.state.code ∧ (∀ g, p.gen = some g → ((p.bytes k i).drop 1).take 2 = bytes16 g) ∧
    ((p.bytes k i).drop 3).take 9 = heardBytes p ++ bytes16 p.pool ++ [peerFlags p p.full p.gen.isSome] ++ bytes32 p.mark := by
  refine ⟨rfl, fun g hg => ?_, ?_⟩
  · rw [Peer.bytes, hg]
    rfl
  · obtain ⟨_, _, hg⟩ := genHeard_shape k i p.gen
    rw [Peer.bytes, hg, heardBytes_eq]
    rfl

/-- The record of the station itself. -/
theorem Ctl.ownRecord_fields (c : Ctl) (k : Env) (p : Peer) (i : Nat) :
    (c.ownRecord k p i).take 3 = c.station.code :: bytes16 c.gen ∧
    ((c.ownRecord k p i).drop 5).take 7 =
      bytes16 (halfOf c.pool.length) ++ [peerFlags p (!c.replicaRoom) true] ++ bytes32 c.ownMark := ⟨rfl, rfl⟩

/-- The report-received fields of a record. -/
theorem seriesBytes_fields (k : Env) (i : Nat) (x : Option SeriesState) :
    (x = none → (seriesBytes k i x).drop 4 = [0]) ∧
    (∀ y, x = some y → seriesBytes k i x =
      [y.series, byteOf y.group] ++ bytes16 (halfOf y.index) ++ [if y.intact then 3 else 1]) := by
  refine ⟨?_, ?_⟩
  · rintro rfl
    rfl
  · rintro y rfl
    cases h : y.intact <;> simp only [seriesBytes, h] <;> rfl

/-- In either record the report-received fields stand at the end. -/
theorem record_series (c : Ctl) (k : Env) (p : Peer) (i : Nat) :
    (p.bytes k i).drop 12 = seriesBytes k i p.received ∧ (c.ownRecord k p i).drop 12 = seriesBytes k i p.received := by
  obtain ⟨_, _, hg⟩ := genHeard_shape k i p.gen
  rw [Peer.bytes, hg]
  exact ⟨rfl, rfl⟩

/-- The record of an entry before its places, and its places. -/
theorem Ctl.entryBytes_fields (c : Ctl) (k : Env) (x : ETEntry) (i : Nat) :
    (c.entryBytes k x i).take 9 =
      bytes32 x.seq ++ [byteOf x.ext, x.prog.code, byteOf (c.sendState x), x.settled.code, byteOf x.places.length] ∧
    ∀ j, j < 3 → ((c.entryBytes k x i).drop (9 + 3 * j)).take 3 = placeBytes k (i + 9 + 3 * j) x.places[j]? := by
  obtain ⟨_, _, _, h0⟩ := placeBytes_shape k (i + 9) x.places[0]?
  obtain ⟨_, _, _, h1⟩ := placeBytes_shape k (i + 12) x.places[1]?
  obtain ⟨_, _, _, h2⟩ := placeBytes_shape k (i + 15) x.places[2]?
  refine ⟨rfl, fun j hj => ?_⟩
  rw [Ctl.entryBytes, h0, h1, h2]
  match j, hj with
  | 0, _ => exact h0.symm
  | 1, _ => exact h1.symm
  | 2, _ => exact h2.symm

/-! ## REPORT, ALERT MASK and PORT RESET -/

/-- REPORT 0 by its fields. -/
theorem Ctl.summary_fields (c : Ctl) (k : Env) :
    (c.frontier = .none → ((c.summary k).drop 23).take 4 = [0, 0, 0, 0]) ∧
    (∀ q x, c.frontier = .extent q x → ((c.summary k).drop 23).take 5 = bytes32 q ++ [byteOf x]) ∧
    (∀ q, c.frontier = .closing q → ((c.summary k).drop 23).take 5 = bytes32 q ++ [0xFF#8]) ∧
    (c.openPage k = none → ((c.summary k).drop 28).take 4 = [0, 0, 0, 0]) ∧
    (∀ b p, c.openPage k = some (b, p) → ((c.summary k).drop 28).take 5 = bytes32 p.seq ++ [byteOf p.used]) := by
  have htake (n : Nat) : ((c.summary k).drop n).take 4 = (((c.summary k).drop n).take 5).take 4 := by
    rw [List.take_take]
    rfl
  refine ⟨fun h => ?_, fun q x h => ?_, fun q h => ?_, fun h => ?_, fun b p h => ?_⟩
  · rw [htake, c.summary_frontier, h]
    rfl
  · rw [c.summary_frontier, h]
    rfl
  · rw [c.summary_frontier, h]
    rfl
  · rw [htake, c.summary_open, Ctl.openBytes, h]
    rfl
  · rw [c.summary_open, Ctl.openBytes, h]

/-- Settles O12: the reports by their fields, the alert set by what REPORT 2 and ALERT MASK do to it. -/
theorem reportsAndAlertMask : Obligations.ReportsAndAlertMask := by
  refine ⟨fun s hlow hact => ⟨?report0, ?report1, ?report3, Ctl.summary_length _ _, Ctl.peerTable_length _ _,
    Ctl.extentReport_length _ _, ?summary, ?peers, rfl, ?entries⟩, fun s hlow hact => ?report2, fun s d hlow hact => ?mask⟩
  case report0 => exact next_onCtlFresh_eq hlow (takeLast_of hact rfl 0 _)
  case report1 => exact next_onCtlFresh_eq hlow (takeLast_of hact rfl 1 _)
  case report3 =>
    refine next_onCtlFresh_eq hlow ((takeLast_of hact rfl 3 _).trans ?_)
    show s.ctl.takeCommand.endCommand .ok (s.ctl.takeCommand.extentReport s.env) = _
    rw [extentReport_take]
    rfl
  case summary =>
    obtain ⟨hnone, hextent, hclosing, hshut, hopen⟩ := s.ctl.summary_fields s.env
    exact ⟨rfl, hnone, hextent, hclosing, hshut, hopen, s.ctl.summary_tail s.env⟩
  case peers =>
    intro i p r flags
    have hr : r = _ := s.ctl.peerTable_record s.env i
    have hseries : r.drop 12 = seriesBytes s.env (1 + 17 * i.val) p.received := by
      obtain ⟨hpeer, hown⟩ := record_series s.ctl s.env p (1 + 17 * i.val)
      rw [hr]
      split
      · exact hown
      · exact hpeer
    obtain ⟨hnone, hsome⟩ := seriesBytes_fields s.env (1 + 17 * i.val) p.received
    refine ⟨fun hi => ?_, fun hi => ?_, fun h => ?_, fun x h => hseries.trans (hsome x h)⟩
    · rw [if_neg hi] at hr
      obtain ⟨hstate, hgen, hrest⟩ := p.bytes_fields s.env (1 + 17 * i.val)
      rw [hr]
      refine ⟨hstate.trans ?_, hgen, hrest⟩
      cases p.state <;> rfl
    · rw [if_pos hi] at hr
      rw [hr]
      exact s.ctl.ownRecord_fields s.env p _
    · rw [← hnone h, ← hseries, List.drop_drop]
  case entries =>
    intro i x hx r
    have hr : r = s.ctl.entryBytes s.env x (2 + 18 * i) := by
      show ((s.ctl.extentReport s.env).drop (1 + 18 * i)).take 18 = _
      rw [Ctl.extentReport, Nat.add_comm, List.drop_succ_cons]
      exact s.ctl.entriesBytes_record s.env _ 2 i x hx
    obtain ⟨hhead, hplace⟩ := s.ctl.entryBytes_fields s.env x (2 + 18 * i)
    rw [hr]
    refine ⟨hhead.trans ?_, fun j hj hnone => ?_, fun j y t hj hy ht => (hplace j hj).trans ?_⟩
    · unfold Ctl.sendState
      cases x.prog <;> cases x.settled <;> split_ifs <;> rfl
    · have htarget : x.places[j]?.bind (·.target) = none := Option.bind_eq_none_iff.2 hnone
      have hbytes := hplace j hj
      rw [placeBytes, htarget] at hbytes
      have hfirst := congrArg List.head? hbytes
      rwa [List.head?_take, if_neg (by decide)] at hfirst
    · rw [placeBytes, hy, Option.bind_some, ht]
      show [byteOf t.station.val, t.state.code, byteOf t.attempts] = _
      cases t.state <;> rfl
  case report2 =>
    refine ⟨_, next_onCtl_eq hlow (takeLast_of hact rfl 2 _), rfl, ?_⟩
    show decide (0#8 &&& s.ctl.alerts.enabled ≠ 0) = false
    rw [BitVec.zero_and]
    rfl
  case mask =>
    refine ⟨fun hst => next_onCtl_eq hlow ((takeLast_of hact rfl d _).trans (Ctl.doAlertMask_state hst _)),
      fun hst => next_onCtl_eq hlow ((takeLast_of hact rfl d _).trans ((if_neg hst).trans rfl))⟩

/-- PORT RESET of a port whose APPEND's data phase is open discards its bytes; any other has none. -/
theorem Ctl.portReset_eq (c : Ctl) (k : Env) :
    ((∀ a got, c.port.act ≠ .appendData a got) ∨ c.openPage k = none → c.portReset k = portResetEnd c) ∧
    (∀ a got b p, c.port.act = .appendData a got → c.openPage k = some (b, p) →
      c.portReset k = portResetEnd (c.setFill b (some p.cleared))) := by
  refine ⟨fun h => ?_, fun a got b p hact hopen => ?_⟩
  · unfold Ctl.portReset
    split
    case h_1 a got hact =>
      have hopen : c.openPage k = none := h.resolve_left fun hno => hno a got hact
      simp only [Ctl.discardAppend, hopen]
      rfl
    case h_2 => rfl
  · simp only [Ctl.portReset, hact, Ctl.discardAppend_of hopen]
    rfl

/-- Settles O13: with bytes to discard, and without. -/
theorem portReset : Obligations.PortReset := by
  intro s hlow
  obtain ⟨hrest, hdata⟩ := s.ctl.portReset_eq s.env
  refine ⟨fun h => next_onCtl_eq hlow ((hrest h).trans (portResetEnd_eq _)), fun a got b p hact hopen => ?_⟩
  exact next_onCtl_eq hlow ((hdata a got b p hact hopen).trans (portResetEnd_eq _))

end Sys2Proof.Machine
end

