-- ==== Sys2Proof/Proofs/PortCommands.lean ====
section
/-!
PROOFS. RELEASE, READ, SCAN and the opening of an own page (R107, R165 to R168).
-/

namespace Sys2Proof.Machine

/-- A command that leaves the controller as `c` leaves it as `d`, when they are the same. -/
theorem next_ctl_congr {s : State} {c d : Ctl} (h : c = d) :
    Host.Outcome.next (φ := Fault) (ρ := Refusal) { s with ctl := c } = .next { s with ctl := d } := by
  rw [h]

/-! ## RELEASE -/

/-- The refusals of a RELEASE in ACTIVE. -/
theorem Ctl.doRelease_refused {c : Ctl} {k : Env} {args : List Byte} (hst : c.station = .active) :
    (argWord args 0 ≤ c.ownMark → c.doRelease k args = c.endCommand .already []) ∧
    (c.ownMark < argWord args 0 → c.releaseLimit k < argWord args 0 → c.doRelease k args = c.endCommand .range []) := by
  refine ⟨fun h => ?_, fun hlow hhigh => ?_⟩
  · simp only [Ctl.doRelease, hst, ne_eq, not_true_eq_false, if_false, if_pos h]
  · simp only [Ctl.doRelease, hst, ne_eq, not_true_eq_false, if_false, BitVec.not_le.2 hlow, if_pos hhigh]

/-- A RELEASE that is accepted waits, and its mark is wanted. -/
theorem Ctl.doRelease_accepted {c : Ctl} {k : Env} {args : List Byte} (hst : c.station = .active)
    (hlow : c.ownMark < argWord args 0) (hhigh : argWord args 0 ≤ c.releaseLimit k) :
    c.doRelease k args =
      (c.setAct (.releaseWait (argWord args 0))).want (fun v => { v with release := maxSeq v.release (argWord args 0) }) := by
  simp only [Ctl.doRelease, hst, ne_eq, not_true_eq_false, if_false, BitVec.not_le.2 hlow, BitVec.not_lt.2 hhigh]

/-- Settles O17: the two refusals, and the mark log while it writes and while it does not. -/
theorem release : Obligations.Release := by
  intro s m0 m1 m2 m3 hlow hst hact m limit wanted waits
  have htake := takeLast_of hact rfl m3 fun c args => c.doRelease s.env args
  have hlimit : limit = s.ctl.takeCommand.releaseLimit s.env := rfl
  obtain ⟨halready, hrange⟩ := Ctl.doRelease_refused (k := s.env) (args := [m0, m1, m2] ++ [m3]) (c := s.ctl.takeCommand) hst
  refine ⟨fun h => next_onCtl_eq hlow (htake.trans (halready h)),
    fun h hl => next_onCtl_eq hlow (htake.trans (hrange h (hlimit ▸ hl))), fun h hl => ?accepted⟩
  case accepted =>
    have haccept := htake.trans (Ctl.doRelease_accepted hst h (hlimit ▸ hl))
    refine ⟨fun w hw => next_onCtl_eq hlow (haccept.trans (Ctl.want_waits hw)), fun hnone howed hseq hnew => ?_⟩
    have hne : wanted ≠ s.ctl.mark.recorded := by
      intro heq
      have hrelease : maxSeq s.ctl.mark.wanted.release m = s.ctl.mark.recorded.release := congrArg MarkVals.release heq
      have hge := maxSeq_ge_right s.ctl.mark.wanted.release m
      rw [hrelease] at hge
      exact BitVec.not_le.2 hnew hge
    exact next_onCtl_eq hlow (haccept.trans (Ctl.want_begins hnone howed hseq hne))

/-! ## READ and SCAN -/

theorem stationOf_none {o : Byte} (h : 7 < o.toNat) : stationOf o = none := dif_neg (by omega)

theorem Entry.readable_iff (e : Entry) (k : Env) : e.readable k = true ↔ e.localPage ≠ none ∧ 1 ≤ e.ownDepth k := by
  rw [Entry.readable, Bool.and_eq_true, decide_eq_true_eq, Option.isSome_iff_ne_none]

/-- Arguments that name no station, no slot or no page. -/
theorem Ctl.doRead_badArg {c : Ctl} {k : Env} {o s0 s1 s2 s3 slot : Byte} (hst : c.station ≠ .mounting)
    (h : 7 < o.toNat ∨ 7 < slot.toNat ∨ word s0 s1 s2 s3 = 0) :
    c.doRead k [o, s0, s1, s2, s3, slot] = c.endCommand .badArg [] := by
  unfold Ctl.doRead
  dsimp only
  rw [if_neg hst]
  split
  case h_1 => rfl
  case h_2 org horg =>
    have hnot : ¬ 7 < o.toNat := fun ho => nomatch (stationOf_none ho).symm.trans horg
    exact if_pos (h.resolve_left hnot)

theorem Ctl.startRead_held {c : Ctl} {k : Env} {id : PageId} {e : Entry} {a : PageAddr} (he : c.entry id = some e)
    (ha : e.localPage = some a) (hd : 1 ≤ e.ownDepth k) (b : Fin 2) (slot : Nat) :
    c.startRead k b id slot =
      Ctl.enter
        { c with port := { c.port with act := .readWait b slot }, pair := vput c.pair b (.loading e.id (e.ownDepth k)) }
        { who := .port b e.id, op := .pageRead a, emergency := false } := by
  have hread : e.readable k = true := (e.readable_iff k).2 ⟨ha ▸ nofun, hd⟩
  simp only [Ctl.startRead, he, hread, if_true]
  exact loadPair_eq _ _ _ _ ha

/-- Settles O18: the refusals, and the page read with a buffer at hand or without. -/
theorem read : Obligations.Read := by
  intro s o s0 s1 s2 s3 slot hlow hst hact seq pair waits
  have htake := takeLast_of hact rfl slot fun c args => c.doRead s.env args
  refine ⟨fun h => next_onCtl_eq hlow (htake.trans (Ctl.doRead_badArg (c := s.ctl.takeCommand) hst h)),
    fun org horg hslot hseq => ?_⟩
  have hexec {d : Ctl} := fun h => (exec_read_held hlow hst hact horg hslot hseq).trans (next_ctl_congr (d := d) h)
  refine ⟨fun hnot => ?notHeld, fun e a he ha hd => ?held⟩
  case notHeld =>
    have hany : (s.ctl.entry { origin := org, seq := seq }).any (fun e => e.readable s.env) = false := by
      cases he : s.ctl.entry { origin := org, seq := seq } with
      | none => rfl
      | some e =>
        refine eq_false_of_ne_true fun hr => ?_
        obtain ⟨hpage, hdepth⟩ := (e.readable_iff s.env).1 hr
        rcases hnot e he with h | h
        · exact hpage h
        · omega
    refine hexec ?_
    rw [hany]
    rfl
  case held =>
    have hany : (s.ctl.entry { origin := org, seq := seq }).any (fun e => e.readable s.env) = true := by
      rw [he]
      exact (e.readable_iff s.env).2 ⟨ha ▸ nofun, hd⟩
    refine ⟨fun b hb hlower => hexec ?_, fun h0 h1 => hexec ?_⟩ <;> rw [hany]
    · have hfree : s.ctl.takeCommand.endScan.freePair = some b := freePair_of hb hlower
      rw [hfree, if_neg (by decide)]
      exact Ctl.startRead_held (c := s.ctl.takeCommand.endScan) he ha hd b slot.toNat
    · have hfree : s.ctl.takeCommand.endScan.freePair = none := freePair_none h0 h1
      rw [hfree]
      rfl

/-- The SCAN of an origin, once both buffers are given up. -/
theorem Ctl.doScan_begins {c : Ctl} {k : Env} {o s0 s1 s2 s3 : Byte} {org : Station} (hst : c.station ≠ .mounting)
    (horg : org.val = o.toNat) :
    c.doScan k [o, s0, s1, s2, s3] =
      let d := { c.endScan with
        scan := some { origin := org, cursor := PageId.key { origin := org, seq := word s0 s1 s2 s3 }, current := 0,
                       position := none } }
      match d.freePair with
      | some b => d.startScan k b
      | none => d.setAct .scanBufWait := by
  simp only [Ctl.doScan, if_neg hst, argAt, List.getD_cons_zero, stationOf_of horg]
  rfl

theorem Ctl.doScan_badArg {c : Ctl} {k : Env} {o s0 s1 s2 s3 : Byte} (hst : c.station ≠ .mounting) (h : 7 < o.toNat) :
    c.doScan k [o, s0, s1, s2, s3] = c.endCommand .badArg [] := by
  simp only [Ctl.doScan, if_neg hst, argAt, List.getD_cons_zero, stationOf_none h]

/-- A scan with a buffer at hand ends where there is no page, and else takes the first. -/
theorem Ctl.startScan_spec {c : Ctl} {k : Env} {sc : Scan} (b : Fin 2) (hs : c.scan = some sc) :
    (c.nextHeld k sc = none →
      c.startScan k b = ({ c with scan := none }.setPair b .empty).endCommand .ended []) ∧
    (∀ e a, c.nextHeld k sc = some e → e.localPage = some a →
      c.startScan k b =
        ((({ c with scan := some { sc with current := b, cursor := e.id.key + 1 } }.setPair b
          (.loading e.id (e.ownDepth k))).enter { who := .port b e.id, op := .pageRead a, emergency := false }).setAct
          (.scanWait b))) := by
  have hnext : (c.onScan (fun s => { s with current := b })).nextHeld k { sc with current := b } = c.nextHeld k sc := rfl
  refine ⟨fun h => ?_, fun e a h ha => ?_⟩
  · simp only [Ctl.startScan, Ctl.walkScan, Ctl.onScan, hs, Option.map_some]
    simp only [Ctl.onScan, hs, Option.map_some] at hnext
    simp only [hnext, h]
  · simp only [Ctl.startScan, Ctl.walkScan, Ctl.onScan, hs, Option.map_some]
    simp only [Ctl.onScan, hs, Option.map_some] at hnext
    simp only [hnext, h, loadPair_eq _ _ _ _ ha]

/-- Settles O19: with a buffer at hand and a page, without a page, and without a buffer. -/
theorem scan : Obligations.Scan := by
  intro s o s0 s1 s2 s3 hlow hst hact pair waits
  have htake := takeLast_of hact rfl s3 fun c args => c.doScan s.env args
  refine ⟨fun h => next_onCtl_eq hlow (htake.trans (Ctl.doScan_badArg (c := s.ctl.takeCommand) hst h)),
    ?_⟩
  intro org horg start found
  have hscan := htake.trans (Ctl.doScan_begins (c := s.ctl.takeCommand) hst horg)
  dsimp only at hscan
  refine ⟨fun b hb hlower => ?buffer, fun h0 h1 => ?noBuffer⟩
  case buffer =>
    rw [freePair_of (b := b) hb hlower] at hscan
    obtain ⟨hend, hpage⟩ := Ctl.startScan_spec (k := s.env) (c :=
      { s.ctl.takeCommand.endScan with
        scan := some { origin := org, cursor := start, current := 0, position := none } }) b rfl
    exact ⟨fun h => next_onCtl_eq hlow (hscan.trans (hend h)),
      fun e a h ha => next_onCtl_eq hlow (hscan.trans (hpage e a h ha))⟩
  case noBuffer =>
    rw [freePair_none h0 h1] at hscan
    exact next_onCtl_eq hlow hscan

/-! ## The opening of an own page -/

/-- Nothing opens while no APPEND waits, no fill buffer is FREE, or there is no next seq. -/
theorem Ctl.openOwnPage_unmet {c : Ctl} (k : Env)
    (h : (∀ a, c.port.act ≠ .appendOpening a) ∨ (∀ b, c.fill.get b ≠ none) ∨ c.nextSeq = none ∨
      ∃ n, c.nextSeq = some n ∧ c.mark.recorded.ceiling < n) : c.openOwnPage k = c := by
  unfold Ctl.openOwnPage
  split
  case h_1 a b seq hact hfree hseq =>
    obtain hno | hfull | hnone | ⟨n, hn, habove⟩ := h
    · exact absurd hact (hno a)
    · have hsome (b : Fin 2) : (c.fill.get b).isNone = false := Option.isNone_eq_false_iff.2 (Option.isSome_iff_ne_none.2 (hfull b))
      simp only [Ctl.freeFill, hsome, Bool.false_eq_true, if_false, reduceCtorEq] at hfree
    · exact nomatch hnone.symm.trans hseq
    · obtain rfl : n = seq := Option.some.inj (hn.symm.trans hseq)
      exact if_pos habove
  case h_2 => rfl

theorem Ctl.freeFill_of {c : Ctl} {b : Fin 2} (h : c.fill.get b = none) (hlower : b = 1 → c.fill.get 0 ≠ none) :
    c.freeFill = some b := by
  unfold Ctl.freeFill
  match b with
  | 0 => rw [h]; rfl
  | 1 => rw [if_neg (by simpa using hlower rfl), h]; rfl

/-- A page can be allocated or not; the opening ends NO-SPACE, or opens with what was allocated. -/
theorem Ctl.openOwnPage_met {c : Ctl} {k : Env} {a : AppendCmd} {b : Fin 2} {seq : Word}
    (hact : c.port.act = .appendOpening a) (hfree : c.freeFill = some b) (hseq : c.nextSeq = some seq)
    (hceil : seq ≤ c.mark.recorded.ceiling) :
    c.openOwnPage k =
      match (if c.dirRoom then c.allocate .own false else none) with
      | none => c.endCommand .noSpace []
      | some (p, d) =>
        ((({ d with nextSeq := seqAfter seq }.create k (openedEntry k seq p (c.placement k))).setFill b
          (some (openedFill seq))).setAct (.appendData a 0)) := by
  unfold Ctl.openOwnPage
  rw [hact, hfree, hseq]
  exact if_neg (BitVec.not_lt.2 hceil)

/-- An entry just opened has no extent, so that the DEFICIT count stays. -/
theorem Ctl.create_opened {c : Ctl} {k : Env} {seq : Word} {p : PageAddr} {targets : List Station}
    (hroom : c.dir.length < 65536) (hnew : c.ownEntry k seq = none) :
    c.create k (openedEntry k seq p targets) =
      { c with dir := putEntry (openedEntry k seq p targets) c.dir,
               recheck := if underCount (putEntry (openedEntry k seq p targets) c.dir) = 0 then none else c.recheck } := by
  have hflag : c.flagged k (openedEntry k seq p targets) = openedEntry k seq p targets := rfl
  have hcount : underCount (putEntry (openedEntry k seq p targets) c.dir) = underCount c.dir :=
    underCount_putEntry (openedEntry k seq p targets) c.dir
  have habsent : c.entry (openedEntry k seq p targets).id = none := hnew
  rw [Ctl.create, habsent, hflag, Ctl.withDir_same hcount, if_neg]
  simpa using hroom

/-- Settles O21: what is missing, no room, and the page opened. -/
theorem openOwnPage : Obligations.OpenOwnPage := by
  intro s hlow
  refine ⟨fun h => next_onCtl_same fun _ => Ctl.openOwnPage_unmet _ h, fun a b seq hact hb hlower hseq hceil => ?_⟩
  have hopen := Ctl.openOwnPage_met (k := s.env) hact (Ctl.freeFill_of hb hlower) hseq hceil
  refine ⟨fun hfull => ?noSpace, fun p hroom hnew halloc => ?opened⟩
  case noSpace =>
    have hnone : (if s.ctl.dirRoom then s.ctl.allocate .own false else none) = none := by
      obtain hdir | ⟨hblock, hpool⟩ := hfull
      · rw [Ctl.dirRoom, decide_eq_false (by omega)]
        rfl
      · rw [Ctl.allocate_none hblock hpool, ite_self]
    rw [hnone] at hopen
    exact next_onCtl_eq hlow hopen
  case opened =>
    obtain ⟨bs, al, hpage, hal⟩ := Ctl.allocate_spec (relocation := false) (halloc.imp_right fun ⟨h1, h2, h3⟩ => ⟨h1, .inr h2, h3⟩)
    rw [Ctl.dirRoom, decide_eq_true hroom, if_pos rfl, hpage] at hopen
    dsimp only at hopen
    rw [Ctl.create_opened] at hopen
    case hroom => exact hroom
    case hnew => exact hnew
    refine ⟨_, next_onCtl_eq hlow hopen, rfl, rfl, rfl, rfl, rfl, ?_, rfl, rfl, rfl, rfl, rfl⟩
    simp only [Ctl.still, Ctl.setAct, Ctl.onPort, Ctl.setFill, hal]

end Sys2Proof.Machine
end

