-- ==== Sys2Proof/Proofs/Arbiter.lean ====
section
/-!
PROOFS. The array units (Section 2): the arbiter, what the ends of programs and erases do to the array, and the mount and
the mark log (Section 4).
-/

namespace Sys2Proof.Machine

/-! ## The arbiter -/

theorem chooseRequest_nil (favour : Nat) : chooseRequest favour [] = none := by
  simp only [chooseRequest, List.any_nil, Bool.and_false, Bool.false_eq_true, if_false, List.find?_nil]

/-- The requests of a unit that its arbiter may grant. -/
def Ctl.ready (c : Ctl) (u : UnitNo) : List Request := (c.units.get u).queue.filter (fun r => r.grantable c.station)

theorem Ctl.grant_idle {c : Ctl} {u : UnitNo} (h : c.ready u = []) (n : Nat) : c.grant u n = c := by
  have hchoose : chooseRequest (c.units.get u).favour (c.ready u) = none := h ▸ chooseRequest_nil _
  cases n with
  | zero => rfl
  | succ n =>
    unfold Ctl.ready at hchoose
    simp only [Ctl.grant, hchoose]

theorem Ctl.arbitrate_none {c : Ctl} {u : UnitNo} (h : (c.units.get u).busy ≠ none ∨ c.ready u = []) :
    c.arbitrate u = c := by
  unfold Ctl.arbitrate
  dsimp only
  split
  case isTrue => rfl
  case isFalse hbusy =>
    exact Ctl.grant_idle (h.resolve_left fun hn => hbusy (Option.isSome_iff_ne_none.2 hn)) _

/-- One choice of the arbiter: it ends with a request on the unit, or leaves another choice. -/
theorem Ctl.grant_step {c : Ctl} {u : UnitNo} {r : Request}
    (h : chooseRequest (c.units.get u).favour (c.ready u) = some r) (n : Nat) :
    c.grant u (n + 1) =
      if c.notHeldAtGrant r then (c.completeAtGrant u r ((c.units.get u).queue.erase r) false).grant u n
      else if c.refusedAtGrant r then
        ((c.completeAtGrant u r ((c.units.get u).queue.erase r) true).retire r.op.block).grant u n
      else c.setBusy u r ((c.units.get u).queue.erase r) ((c.ready u).any (fun q => q.low)) := by
  unfold Ctl.ready at h
  simp only [Ctl.grant, h, Ctl.ready]

/-- A unit's arbiter goes on, from a request that completed at its grant, as from a state without that request. -/
theorem Ctl.arbitrate_again {c d : Ctl} {u : UnitNo} {r : Request} (hidle : (c.units.get u).busy = none)
    (hr : r ∈ (c.units.get u).queue)
    (hd : d.units = vput c.units u { c.units.get u with queue := (c.units.get u).queue.erase r })
    (hgrant : ∀ n, c.grant u (n + 1) = d.grant u n) : c.arbitrate u = d.arbitrate u := by
  have hunit : d.units.get u = { c.units.get u with queue := (c.units.get u).queue.erase r } := by
    rw [hd, vput_get, if_pos rfl]
  have hlen : (c.units.get u).queue.length = ((c.units.get u).queue.erase r).length + 1 :=
    (List.length_erase_add_one hr).symm
  simp only [Ctl.arbitrate, hunit, hidle, hlen, hgrant, Option.isSome_none, Bool.false_eq_true, if_false]

theorem Ctl.notHeldAtGrant_iff (c : Ctl) (r : Request) :
    c.notHeldAtGrant r = true ↔ r.stale = true ∨ ∃ a, r.op.page = some a ∧ c.isDead a = true := by
  rw [Ctl.notHeldAtGrant, Bool.or_eq_true]
  cases r.op.page <;> simp

/-- A program of a record page is refused with three programs behind it, or without a descriptor. -/
theorem Ctl.refusedAtGrant_iff (c : Ctl) (r : Request) :
    c.refusedAtGrant r = true ↔ ∃ p, r.op = .program p ∧ r.who ≠ .mark ∧ (3 ≤ c.programCount p.page ∨ p.descs = []) := by
  unfold Ctl.refusedAtGrant
  cases r.op <;> simp

theorem Ctl.block_congr {c d : Ctl} (h : d.blocks = c.blocks) (n : Nat) : d.block n = c.block n := by
  rw [Ctl.block, h]
  rfl

/-- A program count touches the block table alone, and is read from it. -/
theorem Ctl.raiseCount_eq (c : Ctl) (a : PageAddr) : c.raiseCount a = { c with blocks := (c.raiseCount a).blocks } := by
  unfold Ctl.raiseCount
  split <;> rfl

theorem Ctl.raiseCount_blocks {c d : Ctl} (h : d.blocks = c.blocks) (a : PageAddr) :
    (d.raiseCount a).blocks = (c.raiseCount a).blocks := by
  unfold Ctl.raiseCount
  rw [Ctl.block_congr h]
  cases c.block a.block with
  | none => exact h
  | some b => exact congrArg (putBlock _) h

/-- The favour count and the block table after a grant. -/
theorem Ctl.setBusy_eq (c : Ctl) (u : UnitNo) (r : Request) (queue : List Request) (low : Bool) :
    c.setBusy u r queue low =
      { c with
        units := vput c.units u { busy := some { req := r, data := c.requestBytes r }, queue := queue,
                                  favour := favourAfter (c.units.get u).favour r low },
        blocks := match r.op with
          | .program p => if r.who = .mark then c.blocks else (c.raiseCount p.page).blocks
          | _ => c.blocks } := by
  unfold Ctl.setBusy
  cases r.op with
  | program p =>
    dsimp only
    split
    case isTrue => rfl
    case isFalse =>
      rw [Ctl.raiseCount_eq, Ctl.raiseCount_blocks (c := c) (d := c.setUnit u _) rfl]
      rfl
  | pageRead _ | headerRead _ | erase _ => rfl

/-- Settles O22: nothing to grant, the three ends of a choice. -/
theorem arbiterGrant : Obligations.ArbiterGrant := by
  intro u s hlow x ready
  refine ⟨fun h => next_onCtl_same fun _ => Ctl.arbitrate_none h, fun l r l' hidle hready hchoice => ?_⟩
  have hchoose : chooseRequest (s.ctl.units.get u).favour (s.ctl.ready u) = some r := choose_of hready hchoice
  have hstep := Ctl.grant_step hchoose
  have hmem : r ∈ (s.ctl.units.get u).queue := by
    have hin : r ∈ ready := by
      rw [hready]
      exact List.mem_append_right l List.mem_cons_self
    exact List.mem_of_mem_filter hin
  intro done
  have hagain {d : Ctl} (hd : d.units = vput s.ctl.units u { x with queue := x.queue.erase r })
      (hgrant : ∀ n, s.ctl.grant u (n + 1) = d.grant u n) :
      exec (.arbiterGrant u) s = exec (.arbiterGrant u) { s with ctl := d } :=
    (next_onCtl_eq hlow (Ctl.arbitrate_again hidle hmem hd hgrant)).trans
      (next_onCtl { s with ctl := d } (fun c _ => c.arbitrate u) hlow).symm
  refine ⟨fun hdead => ?notHeld, fun p hfresh hop hlive hwho hcount => ?refused, fun hfresh hlive hok => ?granted⟩
  case notHeld =>
    refine hagain rfl fun n => ?_
    rw [hstep, if_pos ((Ctl.notHeldAtGrant_iff _ _).2 hdead)]
    rfl
  case refused =>
    have hheld : ¬ s.ctl.notHeldAtGrant r = true := by
      rw [Ctl.notHeldAtGrant_iff, hfresh, hop]
      rintro (h | ⟨a, ha, hdead⟩)
      · exact Bool.false_ne_true h
      · obtain rfl : p.page = a := Option.some.inj ha
        exact Bool.false_ne_true (hlive.symm.trans hdead)
    refine hagain (by rw [retire_blocks]) fun n => ?_
    rw [hstep, if_neg hheld, if_pos ((Ctl.refusedAtGrant_iff _ _).2 ⟨p, hop, hwho, hcount⟩), hop]
    rfl
  case granted =>
    have hheld : ¬ s.ctl.notHeldAtGrant r = true := by
      rw [Ctl.notHeldAtGrant_iff, hfresh]
      rintro (h | ⟨a, ha, hdead⟩)
      · exact Bool.false_ne_true h
      · exact Bool.false_ne_true ((hlive a ha).symm.trans hdead)
    have hrefused : ¬ s.ctl.refusedAtGrant r = true := by
      rw [Ctl.refusedAtGrant_iff]
      rintro ⟨p, hop, hwho, hbad⟩
      obtain ⟨hcount, hdescs⟩ := hok p hop hwho
      exact hbad.elim (by omega) hdescs
    have hbusy : s.ctl.arbitrate u = s.ctl.setBusy u r (x.queue.erase r) (ready.any (fun q => q.low)) := by
      have hlen : (s.ctl.units.get u).queue.length = ((s.ctl.units.get u).queue.erase r).length + 1 :=
        (List.length_erase_add_one hmem).symm
      have hnone : (s.ctl.units.get u).busy = none := hidle
      simp only [Ctl.arbitrate, hnone, hlen, hstep, hheld, hrefused, Option.isSome_none, Bool.false_eq_true, if_false]
      rfl
    have hfavour : favourAfter x.favour r (ready.any (fun q => q.low)) =
        if 3 ≤ r.who.cls then 0 else if ∃ y ∈ ready, 3 ≤ y.who.cls then x.favour + 1 else 0 := by
      simp only [favourAfter, Request.low, List.any_eq_true, decide_eq_true_eq]
    have heq := s.ctl.setBusy_eq u r (x.queue.erase r) (ready.any (fun q => q.low))
    rw [hfavour] at heq
    refine next_onCtl_eq hlow (hbusy.trans (heq.trans ?_))
    cases r.op <;> rfl

end Sys2Proof.Machine
end

