-- ==== Sys2Proof/Proofs/Programs.lean ====
section
/-!
PROOFS. What the ends of programs and of erases do to the array (R17, R21, R22, R24) and to the block (R49, R50, R67).
-/

namespace Sys2Proof.Machine

/-! ## Programs -/

theorem ProgramReq.slotParts_mem {q : ProgramReq} {data : List Byte} (hd : data.length = q.count * 512)
    {y : Nat × List Byte} (h : y ∈ q.slotParts data) :
    q.first ≤ y.1 ∧ y.1 < q.first + q.count ∧ y.2.length = 512 := by
  obtain ⟨i, hi, rfl⟩ := List.mem_map.1 h
  have hlt : i < q.count := List.mem_range.1 hi
  refine ⟨Nat.le_add_right _ _, Nat.add_lt_add_left hlt _, ?_⟩
  simp only [List.length_take, List.length_drop, hd]
  omega

theorem ProgramReq.slotParts_nodup (q : ProgramReq) (data : List Byte) : ((q.slotParts data).map Prod.fst).Nodup := by
  rw [ProgramReq.slotParts, List.map_map]
  exact List.nodup_range.map fun i j h => Nat.add_left_cancel h

/-- The parts that a program writes, as its slots and its header parts. -/
def ProgramReq.writes (q : ProgramReq) (data : List Byte) : List (Nat × List Byte) := q.slotParts data ++ q.headerParts

theorem ProgramReq.writes_nodup {q : ProgramReq} {data : List Byte} (hend : q.first + q.count ≤ 8)
    (hd : data.length = q.count * 512) (hn : (q.descs.map Prod.fst).Nodup)
    (hdesc : ∀ d ∈ q.descs, d.1 < 3 ∧ d.2.length = 16) (hid : ∀ g, q.identity = some g → g.length = 16) :
    ((q.writes data).map Prod.fst).Nodup := by
  rw [ProgramReq.writes, List.map_append]
  refine List.Nodup.append (q.slotParts_nodup data) (headerParts_nodup hn) fun k hslot hheader => ?_
  obtain ⟨y, hy, rfl⟩ := List.mem_map.1 hslot
  obtain ⟨z, hz, heq⟩ := List.mem_map.1 hheader
  obtain ⟨-, hlt, -⟩ := ProgramReq.slotParts_mem hd hy
  obtain ⟨hge, -, -⟩ := headerParts_mem hdesc hid hz
  omega

theorem ProgramReq.writes_mem {q : ProgramReq} {data : List Byte} (hend : q.first + q.count ≤ 8)
    (hd : data.length = q.count * 512) (hdesc : ∀ d ∈ q.descs, d.1 < 3 ∧ d.2.length = 16)
    (hid : ∀ g, q.identity = some g → g.length = 16) {y : Nat × List Byte} (h : y ∈ q.writes data) :
    y.1 < 12 ∧ y.2.length = partLength y.1 := by
  obtain hslot | hheader := List.mem_append.1 h
  · obtain ⟨-, hlt, hlen⟩ := ProgramReq.slotParts_mem hd hslot
    exact ⟨by omega, by rw [hlen, partLength, if_pos (by omega)]⟩
  · obtain ⟨hge, hlt, hlen⟩ := headerParts_mem hdesc hid hheader
    exact ⟨hlt, by rw [hlen, partLength, if_neg (by omega)]⟩

theorem ProgramReq.names_writes {q : ProgramReq} {data : List Byte} (hd : data.length = q.count * 512)
    {y : Nat × List Byte} (h : y ∈ q.writes data) : q.names y.1 := by
  obtain hslot | hheader := List.mem_append.1 h
  · obtain ⟨hge, hlt, -⟩ := ProgramReq.slotParts_mem hd hslot
    exact .inl ⟨hge, hlt⟩
  · exact q.names_headerParts y hheader

/-- A part that the program does not name is programmed after it, passed or failed, exactly if it was before. -/
theorem Flash.mem_afterProgram {q : ProgramReq} {data : List Byte} (f : Flash) (r : ProgramReport) (fresh n : Nat)
    (hd : data.length = q.count * 512) (h : ∀ k, q.names k → n ≠ q.page.partNo k) :
    n ∈ (f.afterProgram q data r fresh).parts ↔ n ∈ f.parts := by
  cases r with
  | pass passes =>
    refine Flash.mem_writeParts _ _ _ _ fun y hy => ?_
    obtain ⟨z, hz, rfl⟩ := List.mem_map.1 hy
    have hname := h z.1 (ProgramReq.names_writes hd hz)
    split <;> exact hname
  | fail =>
    refine Flash.mem_writeParts _ _ _ _ fun y hy => ?_
    obtain hslot | hheader := List.mem_append.1 hy
    · obtain ⟨i, hi, rfl⟩ := List.mem_map.1 hslot
      exact h _ (.inl ⟨Nat.le_add_right _ _, Nat.add_lt_add_left (List.mem_range.1 hi) _⟩)
    · obtain ⟨z, hz, rfl⟩ := List.mem_map.1 hheader
      exact h _ (q.names_headerParts z hz)

/-- After PASS a part that was ERASED is programmed and reads as written. -/
theorem Flash.programPass_read {q : ProgramReq} {data : List Byte} {f : Flash} {k fresh : Nat} {bytes : List Byte}
    (hn : ((q.writes data).map Prod.fst).Nodup) (hl : ∀ y ∈ q.writes data, y.1 < 12 ∧ y.2.length = partLength y.1)
    (hm : (k, bytes) ∈ q.writes data) (hk : f.programmed q.page k = false) :
    (f.programPass q data fresh).programmed q.page k = true ∧
      ∀ j, j < partLength k → (f.programPass q data fresh).byteAt (q.page.partBase k + j) = bytes.getD j 0 := by
  have hfst : ((q.writes data).map fun x => if f.programmed q.page x.1 then (x.1, freePart fresh q.page x.1) else x).map
      Prod.fst = (q.writes data).map Prod.fst := by
    rw [List.map_map]
    refine List.map_congr_left fun y _ => ?_
    simp only [Function.comp_apply]
    split <;> rfl
  refine Flash.writeParts_read (hfst.symm ▸ hn) (fun y hy => ?_) ?_ (hl _ hm).2
  · obtain ⟨z, hz, rfl⟩ := List.mem_map.1 hy
    split <;> exact (hl z hz).1
  · refine List.mem_map.2 ⟨(k, bytes), hm, ?_⟩
    rw [if_neg (by rw [hk]; exact Bool.false_ne_true)]

/-- After FAIL each header part that the program names holds the void pattern. -/
theorem Flash.programFail_read {q : ProgramReq} {f : Flash} {k fresh : Nat} {bytes : List Byte}
    (hend : q.first + q.count ≤ 8) (hn : (q.headerParts.map Prod.fst).Nodup)
    (hl : ∀ y ∈ q.headerParts, 8 ≤ y.1 ∧ y.1 < 12) (hm : (k, bytes) ∈ q.headerParts) :
    (f.programFail q fresh).programmed q.page k = true ∧
      ∀ j, j < 16 → (f.programFail q fresh).byteAt (q.page.partBase k + j) = if j < 14 then 0x00#8 else 0x55#8 := by
  have hk : partLength k = 16 := if_neg (by have := hl _ hm; omega)
  have hnodup : (((List.range q.count).map (fun i => (q.first + i, freePart fresh q.page (q.first + i))) ++
      q.headerParts.map (fun x => (x.1, voidPattern))).map Prod.fst).Nodup := by
    rw [List.map_append, List.map_map, List.map_map]
    refine List.Nodup.append (List.nodup_range.map fun i j h => Nat.add_left_cancel h) hn fun n hslot hheader => ?_
    obtain ⟨i, hi, rfl⟩ := List.mem_map.1 hslot
    obtain ⟨z, hz, heq⟩ := List.mem_map.1 hheader
    have hi' : i < q.count := List.mem_range.1 hi
    have hge := (hl z hz).1
    simp only [Function.comp_apply] at heq
    omega
  have hlt : ∀ y ∈ (List.range q.count).map (fun i => (q.first + i, freePart fresh q.page (q.first + i))) ++
      q.headerParts.map (fun x => (x.1, voidPattern)), y.1 < 12 := by
    intro y hy
    obtain hslot | hheader := List.mem_append.1 hy
    · obtain ⟨i, hi, rfl⟩ := List.mem_map.1 hslot
      have hi' : i < q.count := List.mem_range.1 hi
      show q.first + i < 12
      omega
    · obtain ⟨z, hz, rfl⟩ := List.mem_map.1 hheader
      exact (hl z hz).2
  obtain ⟨hprog, hread⟩ := Flash.writeParts_read (f := f) (a := q.page) (k := k) (bytes := voidPattern) hnodup hlt
    (List.mem_append_right _ (List.mem_map.2 ⟨(k, bytes), hm, rfl⟩)) (by rw [hk]; rfl)
  refine ⟨hprog, fun j hj => (hread j (hk ▸ hj)).trans ?_⟩
  revert j
  decide

/-- A unit that became IDLE, under an end that is `Calm`. -/
theorem Calm.idle {w : Bool} {c d : Ctl} {u : UnitNo} (h : Calm w (c.setUnit u { c.units.get u with busy := none }) d) :
    (d.units.get u).busy = none ∧ ∀ v, v ≠ u → (d.units.get v).busy = (c.units.get v).busy := by
  refine ⟨?_, fun v hv => ?_⟩
  · rw [h.busy, Ctl.setUnit, vput_get_same]
  · rw [h.busy, Ctl.setUnit, vput_get_other _ _ _ _ hv]

/-- The four completions of a program: the unit is IDLE, and the array as after a program. -/
theorem exec_programDone {s : State} {u : UnitNo} {r : ProgramReport} {i : Instr} {kind : Requester → Bool} {b : Busy}
    {q : ProgramReq} (hlow : s.env.rstLow = false)
    (hi : i = .markProgramDone u r ∧ kind = Requester.isMark ∨ i = .ownProgramDone u r ∧ kind = Requester.isOwn ∨
      i = .replicaProgramDone u r ∧ kind = (fun w => w.replicaBuf.isSome) ∨
      i = .replicaRelocationDone u r ∧ kind = (fun w => w.relocBuf.isSome))
    (hc : s.ctl.takeCompleted u kind = none) (hb : (s.ctl.units.get u).busy = some b) (hk : kind b.req.who = true)
    (hq : b.req.op = .program q) :
    ∃ c : Ctl,
      exec i s = .next { s with env := { s.env with fresh := s.env.fresh + 1 },
                                flash := s.flash.afterProgram q b.data r s.env.fresh, ctl := c } ∧
      (c.units.get u).busy = none ∧ (∀ v, v ≠ u → (c.units.get v).busy = (s.ctl.units.get v).busy) := by
  obtain ⟨rfl, rfl⟩ | ⟨rfl, rfl⟩ | ⟨rfl, rfl⟩ | ⟨rfl, rfl⟩ := hi <;>
    refine ⟨_, next_programDone hlow hc hb hk hq, Calm.idle (w := true) ?_⟩
  · exact Ctl.markProgramEnd_calm (.refl _) _ _
  · exact Ctl.ownEnd_calm (.refl _) _ _ _ _
  · split
    · exact Ctl.frameProgramEnd_calm (.refl _) _ _ _ _ _
    · exact .refl _
  · split
    · exact Ctl.frameProgramEnd_calm (.refl _) _ _ _ _ _
    · exact .refl _

/-- Settles O23: the units by `exec_programDone`, the array by what a program writes. -/
theorem programsWriteTheArray : Obligations.ProgramsWriteTheArray := by
  intro s u r i kind b q hlow hi hc hb hk hq hend hdata hn hdesc hid
  obtain ⟨c, hexec, hidle, hother⟩ := exec_programDone hlow hi hc hb hk hq
  refine ⟨_, c, hexec, hidle, hother, fun x hx => Flash.byteAt_afterProgram _ _ _ _ _ _ hx,
    fun n hx => Flash.mem_afterProgram _ _ _ _ hdata hx, ?passed, ?failed⟩
  case passed =>
    rintro n k bytes rfl hm herased
    exact Flash.programPass_read (ProgramReq.writes_nodup hend hdata hn hdesc hid)
      (fun y hy => ProgramReq.writes_mem hend hdata hdesc hid hy) hm herased
  case failed =>
    rintro k bytes rfl hm
    refine Flash.programFail_read hend (headerParts_nodup hn) (fun y hy => ?_) hm
    obtain ⟨hge, hlt, -⟩ := headerParts_mem hdesc hid hy
    exact ⟨hge, hlt⟩

end Sys2Proof.Machine
end

