-- ==== Sys2Proof/Proofs/Erases.lean ====
section
/-!
PROOFS. What the end of an erase does to the array (R24), to the block (R49, R50, R60) and to the mark log (R67, R70).
-/

namespace Sys2Proof.Machine

/-! ## The array after an erase -/

theorem Flash.erasePass_read {f : Flash} {n x : Nat} (h : inBlock n x) : (f.erasePass n).byteAt x = 0xFF#8 := by
  unfold Flash.byteAt Flash.erasePass
  rw [Memory.read_clear, if_pos ((inBlock_iff n x).1 h)]
  rfl

theorem Flash.erasePass_programmed (f : Flash) {a : PageAddr} {p : Nat} (hpage : a.page < 128) (hp : p < 12) :
    (f.erasePass a.block).programmed a p = false := by
  have hblock : a.partNo p / 12 / 128 = a.block := by
    unfold PageAddr.partNo PageAddr.index
    omega
  rw [Flash.programmed, ← Bool.not_eq_true, List.contains_iff_mem]
  intro hm
  have hne := (List.mem_filter.1 hm).2
  simp only [hblock, bne_self_eq_false, Bool.false_eq_true] at hne

/-! ## The mark log given up -/

theorem Ctl.failMarkCauses_release {c : Ctl} {m : Word} (h : c.port.act = .releaseWait m) :
    c.failMarkCauses = c.endCommand .fail [] := by
  simp only [Ctl.failMarkCauses, h]

/-- The mark log unwritable (R66, R70): the causes that wait fail, and an ACTIVE station enters FROZEN. -/
theorem Ctl.markUnwritable_eq (c : Ctl) :
    c.markUnwritable =
      { c with
        mark := { c.mark with write := none, frozenOwed := true },
        port := c.failMarkCauses.port,
        station := if c.station = .active then .frozen else c.station,
        alerts := if c.station = .active then { c.alerts with pending := c.alerts.pending ||| Cause.fault.bit }
                  else c.alerts } := by
  have hport : (c.onMark (fun m => { m with write := none })).failMarkCauses =
      { c with mark := { c.mark with write := none }, port := c.failMarkCauses.port } := by
    obtain ⟨p, hp⟩ := c.failMarkCauses_shape
    unfold Ctl.failMarkCauses Ctl.onMark
    cases c.port.act with
    | appendOpening a =>
      have hopens : Ctl.opensWaitingCeiling { c with mark := { c.mark with write := none } } = c.opensWaitingCeiling := rfl
      simp only [hopens]
      split <;> rfl
    | _ => rfl
  rw [Ctl.markUnwritable, hport, Ctl.oweFrozen]
  by_cases hst : c.station = .active
  · simp only [hst, if_true, Ctl.enterFrozen_shape]
  · simp only [hst, if_false]

/-! ## The ends of an erase -/

theorem ArrayOp.onBlock_iff (o : ArrayOp) (n : Nat) : o.onBlock n = true ↔ ∃ a, o.page = some a ∧ a.block = n := by
  cases h : o.page <;> simp [ArrayOp.onBlock, h]

/-- What waits for a page of an erased block is marked (R31, R49). -/
theorem Ctl.markStale_eq (c : Ctl) (n : Nat) :
    c.markStale n = { c with units := vmap (fun x => { x with queue := x.queue.map (fun r =>
      if ∃ a, r.op.page = some a ∧ a.block = n then { r with stale := true } else r) }) c.units } := by
  unfold Ctl.markStale Ctl.onQueues
  simp only [ArrayOp.onBlock_iff]

/-- A record block that has been erased is FREE. -/
theorem Ctl.recordEraseEnd_pass (c : Ctl) (n : Nat) :
    let free : Block := { num := n, state := .free, next := 0, pages := [] }
    c.recordEraseEnd n true =
      if c.station = .mounting then
        { c with blocks := putBlock free c.blocks, mount := { c.mount with erased := c.mount.erased ++ [n] } }
      else { (c.markStale n) with blocks := putBlock free c.blocks, pool := c.pool ++ [n] } := by
  intro free
  unfold Ctl.recordEraseEnd
  rw [if_pos rfl]
  rfl

theorem Ctl.recordEraseEnd_fail {c : Ctl} {n : Nat} {b : Block} (h : c.block n = some b) :
    c.recordEraseEnd n false = { c with blocks := putBlock { b with state := .bad } c.blocks } := by
  simp only [Ctl.recordEraseEnd, h, Bool.false_eq_true, if_false]
  rfl

/-- The two completions of an erase: the unit is IDLE, and the array as after an erase. -/
theorem exec_eraseDone {s : State} {u : UnitNo} {r : EraseReport} {i : Instr} {b : Busy} {n : Nat}
    (hlow : s.env.rstLow = false) (hb : (s.ctl.units.get u).busy = some b) (hop : b.req.op = .erase n) :
    let idle := s.ctl.setUnit u { s.ctl.units.get u with busy := none }
    let after (c : Ctl) : State :=
      { s with env := { s.env with fresh := s.env.fresh + 1 }, flash := s.flash.afterErase n r s.env.fresh, ctl := c }
    (i = .markEraseDone u r ∧ b.req.who = .markErase → exec i s = .next (after (idle.markEraseEnd (erasePassed r)))) ∧
    (i = .recordEraseDone u r ∧ b.req.who = .recordErase →
      exec i s = .next (after (idle.recordEraseEnd n (erasePassed r)))) := by
  have hblock : b.req.op.block = n := by rw [hop]; rfl
  refine ⟨?_, ?_⟩
  · rintro ⟨rfl, hwho⟩
    have h := next_eraseDone (p := Requester.isMarkErase) (r := r) (f := fun c _ pass => c.markEraseEnd pass) hlow hb
      (by rw [hwho]; rfl)
    rw [hblock] at h
    exact h
  · rintro ⟨rfl, hwho⟩
    have h := next_eraseDone (p := Requester.isRecordErase) (r := r) (f := fun c block pass => c.recordEraseEnd block pass)
      hlow hb (by rw [hwho]; rfl)
    rw [hblock] at h
    exact h

/-- The array after an erase of a block. -/
theorem Flash.afterErase_spec (f : Flash) (n : Nat) (r : EraseReport) (fresh : Nat) :
    (∀ x, ¬ inBlock n x → (f.afterErase n r fresh).byteAt x = f.byteAt x) ∧
    (∀ k, r = .pass k →
      (∀ x, inBlock n x → (f.afterErase n r fresh).byteAt x = 0xFF#8) ∧
      (∀ (a : PageAddr) (p : Nat), a.block = n → a.page < 128 → p < 12 →
        (f.afterErase n r fresh).programmed a p = false)) := by
  refine ⟨fun x hx => Flash.byteAt_afterErase _ _ _ _ _ hx, ?_⟩
  rintro k rfl
  refine ⟨fun x hx => Flash.erasePass_read hx, ?_⟩
  rintro a p rfl hpage hp
  exact Flash.erasePass_programmed f hpage hp

/-- Settles O24: the record block or the mark log, after PASS and after FAIL. -/
theorem eraseDone : Obligations.EraseDone := by
  intro s u r i b n hlow hi hb hop
  obtain ⟨hmark, hrecord⟩ := exec_eraseDone (r := r) (i := i) hlow hb hop
  obtain ⟨hbytes, hpass⟩ := s.flash.afterErase_spec n r s.env.fresh
  obtain ⟨rfl, hwho⟩ | ⟨rfl, hwho⟩ := hi
  case inl =>
    obtain ⟨hidle, hother⟩ := Calm.idle (Ctl.markEraseEnd_calm (.refl (s.ctl.setUnit u _)) (erasePassed r))
    refine ⟨_, _, hmark ⟨rfl, hwho⟩, hidle, hother, hbytes, hpass, nofun, fun w _ hw => ⟨?_, ?_⟩⟩
    · rintro k rfl
      show Ctl.markEraseEnd _ true = _
      simp only [Ctl.markEraseEnd, Ctl.setUnit, hw, if_true]
      rfl
    · rintro rfl
      have hfail : (s.ctl.setUnit u { s.ctl.units.get u with busy := none }).markEraseEnd (erasePassed .fail) =
          (s.ctl.setUnit u { s.ctl.units.get u with busy := none }).markUnwritable := by
        simp only [Ctl.markEraseEnd, Ctl.setUnit, hw, erasePassed, Bool.false_eq_true, if_false]
      rw [hfail, Ctl.markUnwritable_eq]
      refine ⟨rfl, fun hst => ⟨if_pos hst, ?_⟩, fun hst => ⟨if_neg hst, if_neg hst⟩, fun m hm => ?_⟩
      · have halerts : (if s.ctl.station = .active then
            { s.ctl.alerts with pending := s.ctl.alerts.pending ||| Cause.fault.bit } else s.ctl.alerts) = _ := if_pos hst
        exact (congrArg (fun a : AlertSet => a.pending &&& Cause.fault.bit) halerts).trans (or_bit _ _)
      · show Ctl.port (Ctl.failMarkCauses _) = _
        rw [Ctl.failMarkCauses_release (c := s.ctl.setUnit u _) hm]
        rfl
  case inr =>
    obtain ⟨hidle, hother⟩ := Calm.idle (Ctl.recordEraseEnd_calm (.refl (s.ctl.setUnit u _)) n (erasePassed r))
    refine ⟨_, _, hrecord ⟨rfl, hwho⟩, hidle, hother, hbytes, hpass, fun _ => ⟨?_, ?_⟩, nofun⟩
    · rintro k rfl
      refine (Ctl.recordEraseEnd_pass _ n).trans ?_
      simp only [Ctl.markStale_eq]
      rfl
    · rintro bl rfl hbl
      exact Ctl.recordEraseEnd_fail (c := s.ctl.setUnit u _) hbl

end Sys2Proof.Machine
end

