-- ==== Sys2Proof/Proofs/MarkLogRead.lean ====
section
/-!
PROOFS. The mount (Section 4, R57 to R64): the mark log read, the scan of the record blocks, and the resolution.
-/

namespace Sys2Proof.Machine

/-! ## A page read's completion -/

/-- A page read that completes on its unit, of a page `a`: the controller takes what was read. -/
theorem exec_pageReadDone {s : State} {u : UnitNo} {kind : Requester → Bool} {r : ReadReport}
    {f : Ctl → Env → Requester → PageAddr → Option PageRead → Ctl} {b : Busy} {a : PageAddr} {c : Ctl}
    (hlow : s.env.rstLow = false) (hc : s.ctl.takeCompleted u kind = none) (hb : (s.ctl.units.get u).busy = some b)
    (hk : kind b.req.who = true) (hop : b.req.op = .pageRead a)
    (h : f (s.ctl.setUnit u { s.ctl.units.get u with busy := none }) s.env b.req.who a
      (some (s.flash.readPage a r s.env.fresh)) = c) :
    Host.Outcome.next (φ := Fault) (ρ := Refusal) (s.pageReadDone u kind r f) =
      .next { s with env := { s.env with fresh := s.env.fresh + 1 }, flash := s.flash.afterRead a r, ctl := c } := by
  have hpage : b.req.pageOf = a := by rw [Request.pageOf, hop]; rfl
  rw [next_pageReadDone hlow hc hb hk, hpage, h]

/-! ## The mark log read -/

/-- The controller with the values of this mount fixed from the newest mark page (R59), before the mount mark is wanted. -/
def Ctl.withFound (c : Ctl) : Ctl :=
  let f := c.mount.found
  { c with
    mark := { c.mark with recorded := f.vals, recordedSeq := f.seq, wanted := f.vals, active := some f.block,
                          next := c.mount.ends.get f.block },
    ownMark := f.vals.release, gen := f.vals.gen + 1, nextSeq := seqAbove f.vals.ceiling }

/-- What the mount mark wants. -/
def Ctl.mountMark (c : Ctl) (v : MarkVals) : MarkVals :=
  { v with gen := c.mount.found.vals.gen + 1, ceiling := ceilingAbove c.mount.found.vals.ceiling }

/-- The mount mark is wanted, and both units begin to scan. -/
theorem Ctl.fixMark_shape (c : Ctl) : ∃ st w fo p us al,
    c.fixMark =
      { c.withFound with
        station := st, port := p, alerts := al, units := us,
        mark := { c.withFound.mark with wanted := c.mountMark c.mount.found.vals, write := w, frozenOwed := fo },
        mount := { c.mount with started := true,
                                scans := #v[some { block := 2, phase := .first }, some { block := 3, phase := .first }] } } ∧
    w = (c.withFound.want c.mountMark).mark.write := by
  obtain ⟨st, m, p, us₀, al, hwant⟩ := c.withFound.want_shape c.mountMark
  obtain ⟨w, fo, hmark⟩ := want_mark c.withFound c.mountMark
  have hm : m = { c.withFound.mark with wanted := c.mountMark c.mount.found.vals, write := w, frozenOwed := fo } := by
    rw [hwant] at hmark
    exact hmark
  have hfix : c.fixMark = (((c.withFound.want c.mountMark).onMount (fun m => { m with started := true })).scanBlock 0
      2).scanBlock 1 3 := rfl
  rw [hfix, hwant, hm]
  obtain ⟨us₁, h0⟩ := scanBlock_mount (Ctl.onMount { c.withFound with
    station := st, port := p, units := us₀, alerts := al,
    mark := { c.withFound.mark with wanted := c.mountMark c.mount.found.vals, write := w, frozenOwed := fo } }
    (fun m => { m with started := true })) 0 2
  rw [h0]
  obtain ⟨us, h1⟩ := scanBlock_mount { c.withFound with
    station := st, port := p, units := us₁, alerts := al,
    mark := { c.withFound.mark with wanted := c.mountMark c.mount.found.vals, write := w, frozenOwed := fo },
    mount := { c.mount with started := true, scans := vput c.mount.scans 0 (some { block := 2, phase := .first }) } } 1 3
  refine ⟨st, w, fo, p, us, al, h1.trans ?_, rfl⟩
  simp only [unitPair_eq]
  rfl

/-- The write of the mount mark begins while none is in progress and the log can be written. -/
theorem Ctl.fixMark_write {c : Ctl} (hw : c.mark.write = none) (ho : c.mark.frozenOwed = false)
    (hs : c.mount.found.seq ≠ topSeq) :
    ∃ w, (c.withFound.want c.mountMark).mark.write = some w ∧ w.vals = c.mountMark c.mount.found.vals ∧
      w.seq = c.mount.found.seq + 1 := by
  have hne : c.mountMark c.mount.found.vals ≠ c.mount.found.vals := by
    intro h
    have hgen : c.mount.found.vals.gen + 1 = c.mount.found.vals.gen := congrArg MarkVals.gen h
    revert hgen
    generalize c.mount.found.vals.gen = g
    bv_omega
  rw [Ctl.want_begins (c := c.withFound) hw ho hs hne]
  exact ⟨_, rfl, rfl, rfl⟩

/-- The mount with a mark page counted (R58). -/
def Mount.withMark (m : Mount) (a : PageAddr) (r : PageRead) : Mount :=
  let b : Fin 2 := if a.block = 0 then 0 else 1
  { m with
    marksRead := m.marksRead + 1,
    newest := match r.markPage, m.newest with
      | none, old => old
      | some (seq, vals), none => some { seq := seq, block := b, vals := vals }
      | some (seq, vals), some f => if f.seq < seq then some { seq := seq, block := b, vals := vals } else some f,
    ends := if r.allErased then m.ends else vput m.ends b (max (m.ends.get b) (a.page + 1)) }

theorem Ctl.markRead_eq (c : Ctl) (a : PageAddr) (r : PageRead) :
    c.markRead a r =
      if c.mount.marksRead + 1 = 256 then Ctl.fixMark { c with mount := c.mount.withMark a r }
      else { c with mount := c.mount.withMark a r } := by
  unfold Ctl.markRead Mount.withMark
  dsimp only [Ctl.onMount]
  cases r.markPage with
  | none => rfl
  | some x => cases c.mount.newest <;> rfl

/-- Settles O25: a page before the last is counted, and the last fixes the values. -/
theorem markLogReadDone : Obligations.MarkLogReadDone := by
  intro s u r b a hlow hc hb hwho hop rd blk newest ends
  have hkind : Requester.isMountMark b.req.who = true := by rw [hwho]; rfl
  have hexec {c : Ctl} (h : Ctl.markRead (s.ctl.setUnit u { s.ctl.units.get u with busy := none }) a rd = c) :
      exec (.markLogReadDone u r) s =
        .next { s with env := { s.env with fresh := s.env.fresh + 1 }, flash := s.flash.afterRead a r, ctl := c } :=
    exec_pageReadDone hlow hc hb hkind hop h
  have hread := (s.ctl.setUnit u { s.ctl.units.get u with busy := none }).markRead_eq a rd
  refine ⟨fun hn => hexec (hread.trans (if_neg hn)), fun hn => ?_⟩
  intro f
  obtain ⟨st, w, fo, p, us, al, hfix, hw⟩ := Ctl.fixMark_shape
    { s.ctl.setUnit u { s.ctl.units.get u with busy := none } with mount := s.ctl.mount.withMark a rd }
  refine ⟨_, hexec ((hread.trans (if_pos hn)).trans hfix), rfl, rfl, rfl, rfl, rfl, rfl, rfl, rfl, rfl, rfl, rfl, rfl, rfl,
    rfl, fun hwrite howed hseq => ?_⟩
  rw [hw]
  exact Ctl.fixMark_write hwrite howed hseq

end Sys2Proof.Machine
end

