-- ==== Sys2Proof/Proofs/MountScan.lean ====
section
/-!
PROOFS. The scan of the record blocks at mount (R19, R60, R61): a read's end goes on to the next read of the block, or
finds the block and goes on to the next but one.
-/

namespace Sys2Proof.Machine

/-! ## What a step of the scan does -/

/-- From `c` to `d` only the units' work, the scan and the block table change. -/
def Ctl.scanWithin (c d : Ctl) : Prop := d = { c with units := d.units, mount := d.mount, blocks := d.blocks }

/-- Block `n` has been found in a state, and unit `u` goes on to the next but one, or ends. -/
def Ctl.scanFound (d : Ctl) (u : UnitNo) (n : Nat) (st : BlockState) : Prop :=
  (d.block n).map (·.state) = some st ∧
  d.mount.scans.get u = if n + 2 < 512 then some { block := n + 2, phase := .first } else none

/-- Unit `u` goes on with block `n` in a phase, by a read. -/
def Ctl.scanGoesOn (c d : Ctl) (u : UnitNo) (n : Nat) (ph : ScanPhase) (q : Request) : Prop :=
  d.mount.scans.get u = some { block := n, phase := ph } ∧ d.blocks = c.blocks ∧
  ∃ l, (d.units.get (unitOfBlock n)).queue = l ++ [q]

theorem Ctl.scanNext_spec (c : Ctl) (u : UnitNo) {n : Nat} (ph : ScanPhase) {q : Request} (hq : q.op.block = n) :
    c.scanWithin (c.scanNext u n ph q) ∧ c.scanGoesOn (c.scanNext u n ph q) u n ph q ∧
    (c.scanNext u n ph q).mount.copies = c.mount.copies := by
  refine ⟨rfl, ⟨vput_get_same _ _ _, rfl, (c.units.get (unitOfBlock n)).queue, ?_⟩, rfl⟩
  have hunit : q.unit = unitOfBlock n := congrArg unitOfBlock hq
  show ((vput c.units q.unit { c.units.get q.unit with queue := (c.units.get q.unit).queue ++ [q] }).get _).queue = _
  rw [hunit, vput_get_same]

theorem Ctl.scanBlock_spec (c : Ctl) (u : UnitNo) (n : Nat) :
    c.scanWithin (c.scanBlock u n) ∧ (c.scanBlock u n).blocks = c.blocks ∧ (c.scanBlock u n).mount.copies = c.mount.copies ∧
    (c.scanBlock u n).mount.scans.get u = if n < 512 then some { block := n, phase := .first } else none := by
  obtain ⟨us, h⟩ := scanBlock_mount c u n
  rw [h]
  exact ⟨rfl, rfl, rfl, vput_get_same _ _ _⟩

theorem Ctl.scanWithin.trans {b c d : Ctl} (h : b.scanWithin c) (g : c.scanWithin d) : b.scanWithin d := by
  unfold Ctl.scanWithin at *
  rw [g, h]

theorem Ctl.classify_spec (c : Ctl) (u : UnitNo) (n : Nat) (st : BlockState) :
    c.scanWithin (c.classify u n st) ∧ (c.classify u n st).scanFound u n st := by
  obtain ⟨x, hx, hwithin, hblocks⟩ : ∃ x : Ctl, c.classify u n st = x.scanBlock u (n + 2) ∧ c.scanWithin x ∧
      x.blocks = putBlock { num := n, state := st, next := if st = .free then 0 else 128, pages := [] } c.blocks := by
    unfold Ctl.classify
    dsimp only
    split <;> exact ⟨_, rfl, rfl, rfl⟩
  obtain ⟨hnext, hsame, -, hscan⟩ := x.scanBlock_spec u (n + 2)
  rw [hx]
  refine ⟨hwithin.trans hnext, ?_, hscan⟩
  rw [Ctl.block, hsame, hblocks]
  exact congrArg (Option.map (·.state))
    (find_putBlock { num := n, state := st, next := if st = .free then 0 else 128, pages := [] } c.blocks)

theorem Ctl.blockRead_spec (c : Ctl) (u : UnitNo) (n : Nat) (l : List PageInfo) :
    c.scanWithin (c.blockRead u n l) ∧ (c.blockRead u n l).scanFound u n .filled ∧
    (c.blockRead u n l).mount.copies = c.mount.copies := by
  obtain ⟨hnext, hsame, hcopies, hscan⟩ := Ctl.scanBlock_spec
    (c.setBlock { num := n, state := .filled, next := 128, pages := allocatedPages l }) u (n + 2)
  refine ⟨Ctl.scanWithin.trans (c := c.setBlock _) rfl hnext, ⟨?_, hscan⟩, hcopies⟩
  rw [Ctl.block, Ctl.blockRead, hsame]
  exact congrArg (Option.map (·.state))
    (find_putBlock { num := n, state := .filled, next := 128, pages := allocatedPages l } c.blocks)

/-! ## Header reads -/

/-- The pages found programmed with the one just examined. -/
def HeaderRead.more (h : HeaderRead) (p : Nat) (l : List PageInfo) : List PageInfo :=
  if h.allErased then l else l ++ [{ page := p, live := false, count := h.count }]

/-- After the header of a page of an allocated block: the next header, or the first page to be read whole. -/
theorem Ctl.headerFound_spec (c : Ctl) (u : UnitNo) (n p : Nat) (l : List PageInfo) (h : HeaderRead) :
    c.scanWithin (c.headerFound u n p l h) ∧
    (p < 127 →
      c.scanGoesOn (c.headerFound u n p l h) u n (.headers (p + 1) (h.more p l)) (mountHeaderReq n (p + 1))) ∧
    (∀ x rest, 127 ≤ p → h.more p l = x :: rest →
      c.scanGoesOn (c.headerFound u n p l h) u n (.pages (x :: rest) []) (mountPageReq n x.page)) := by
  have heq : c.headerFound u n p l h =
      if p < 127 then c.scanNext u n (.headers (p + 1) (h.more p l)) (mountHeaderReq n (p + 1))
      else match h.more p l with
        | [] => c.blockRead u n []
        | x :: rest => c.scanNext u n (.pages (x :: rest) []) (mountPageReq n x.page) := by
    unfold Ctl.headerFound HeaderRead.more
    dsimp only
    split
    · rfl
    · cases (if h.allErased then l else l ++ [({ page := p, live := false, count := h.count } : PageInfo)]) <;> rfl
  obtain ⟨hhead, hon, -⟩ := c.scanNext_spec u (.headers (p + 1) (h.more p l)) (q := mountHeaderReq n (p + 1)) (n := n) rfl
  rw [heq]
  by_cases hp : p < 127
  · rw [if_pos hp]
    exact ⟨hhead, fun _ => hon, fun _ _ hge => absurd hp (by omega)⟩
  · rw [if_neg hp]
    cases hmore : h.more p l with
    | nil => exact ⟨(c.blockRead_spec u n []).1, fun hlt => absurd hlt hp, nofun⟩
    | cons x rest =>
      obtain ⟨hpage, hon', -⟩ := c.scanNext_spec u (.pages (x :: rest) []) (q := mountPageReq n x.page) (n := n) rfl
      refine ⟨hpage, fun hlt => absurd hlt hp, ?_⟩
      rintro y l' - heq'
      obtain ⟨rfl, rfl⟩ := List.cons.inj heq'
      exact hon'

/-- A header read's end, by the phase of the scan of its block. -/
theorem Ctl.headerRead_spec {c : Ctl} {u : UnitNo} {n : Nat} {ph : ScanPhase} (h : HeaderRead)
    (hscan : c.mount.scans.get u = some { block := n, phase := ph }) :
    let d := c.headerRead u h
    c.scanWithin d ∧
    (ph = .first →
      (h.badMark = true → d.scanFound u n .bad) ∧
      (h.badMark = false → h.allErased = true → c.scanGoesOn d u n .last (mountHeaderReq n 127)) ∧
      (h.badMark = false → h.allErased = false → c.scanGoesOn d u n (.headers 1 (h.more 0 [])) (mountHeaderReq n 1))) ∧
    (ph = .last →
      (h.allErased = true → c.scanGoesOn d u n (.empty 1 true) (mountHeaderReq n 1)) ∧
      (h.allErased = false → d.scanFound u n .erasing)) ∧
    (∀ p clean, ph = .empty p clean →
      (p < 126 → c.scanGoesOn d u n (.empty (p + 1) (clean && h.allErased)) (mountHeaderReq n (p + 1))) ∧
      (126 ≤ p → d.scanFound u n (if clean && h.allErased then .free else .erasing))) ∧
    (∀ p l, ph = .headers p l →
      (p < 127 → c.scanGoesOn d u n (.headers (p + 1) (h.more p l)) (mountHeaderReq n (p + 1))) ∧
      (∀ x rest, 127 ≤ p → h.more p l = x :: rest →
        c.scanGoesOn d u n (.pages (x :: rest) []) (mountPageReq n x.page))) := by
  intro d
  have hnext (ph : ScanPhase) (p : Nat) := c.scanNext_spec u ph (q := mountHeaderReq n p) (n := n) rfl
  have hclass (st : BlockState) := c.classify_spec u n st
  have hheaders (p : Nat) (l : List PageInfo) := c.headerFound_spec u n p l h
  have hd : d = c.headerRead u h := rfl
  unfold Ctl.headerRead at hd
  rw [hscan] at hd
  cases ph with
  | first =>
    dsimp only at hd
    refine ⟨?_, fun _ => ⟨?_, ?_, ?_⟩, nofun, nofun, nofun⟩
    · rw [hd]
      split_ifs
      · exact (hclass .bad).1
      · exact (hnext .last 127).1
      · exact (hheaders 0 []).1
    · intro hbad
      rw [hd, if_pos hbad]
      exact (hclass .bad).2
    · intro hbad herased
      rw [hd, if_neg (by rw [hbad]; exact Bool.false_ne_true), if_pos herased]
      exact (hnext .last 127).2.1
    · intro hbad herased
      rw [hd, if_neg (by rw [hbad]; exact Bool.false_ne_true), if_neg (by rw [herased]; exact Bool.false_ne_true)]
      exact (hheaders 0 []).2.1 (by decide)
  | last =>
    dsimp only at hd
    refine ⟨?_, nofun, fun _ => ⟨?_, ?_⟩, nofun, nofun⟩
    · rw [hd]
      split
      · exact (hnext (.empty 1 true) 1).1
      · exact (hclass .erasing).1
    · intro herased
      rw [hd, if_pos herased]
      exact (hnext (.empty 1 true) 1).2.1
    · intro herased
      rw [hd, if_neg (by rw [herased]; exact Bool.false_ne_true)]
      exact (hclass .erasing).2
  | empty p clean =>
    dsimp only at hd
    refine ⟨?_, nofun, nofun, ?_, nofun⟩
    · rw [hd]
      split
      · exact (hnext _ _).1
      · exact (hclass _).1
    · rintro _ _ ⟨⟩
      refine ⟨fun hlt => ?_, fun hge => ?_⟩
      · rw [hd, if_pos hlt]
        exact (hnext _ _).2.1
      · rw [hd, if_neg (by omega)]
        exact (hclass _).2
  | headers p l =>
    dsimp only at hd
    refine ⟨hd ▸ (hheaders p l).1, nofun, nofun, nofun, ?_⟩
    rintro _ _ ⟨⟩
    exact hd ▸ (hheaders p l).2
  | pages l done =>
    dsimp only at hd
    exact ⟨hd ▸ rfl, nofun, nofun, nofun, nofun⟩

/-! ## Page reads -/

/-- The mount with the copy that a page read found, if it found one. -/
def Ctl.withCopy (c : Ctl) (x : Option FoundCopy) : Ctl :=
  { c with mount := { c.mount with copies := c.mount.copies ++ x.toList } }

theorem Ctl.pageFound_eq {c : Ctl} {k : Env} {u : UnitNo} {n : Nat} {x : PageInfo} {rest done : List PageInfo}
    (a : PageAddr) (r : PageRead) (hscan : c.mount.scans.get u = some { block := n, phase := .pages (x :: rest) done }) :
    (rest = [] → c.pageFound k u a r = (c.withCopy (r.copy k a)).blockRead u n (done ++ [x])) ∧
    (∀ q l, rest = q :: l → c.pageFound k u a r =
      (c.withCopy (r.copy k a)).scanNext u n (.pages rest (done ++ [x])) (mountPageReq n q.page)) := by
  have hnone : c = c.withCopy none := by rw [Ctl.withCopy, Option.toList_none, List.append_nil]
  unfold Ctl.pageFound
  cases r.copy k a with
  | none =>
    rw [← hnone]
    dsimp only
    rw [hscan]
    refine ⟨?_, ?_⟩
    · rintro rfl
      rfl
    · rintro q l rfl
      rfl
  | some y =>
    have hsome : (c.onMount (fun m => { m with copies := m.copies ++ [y] })).mount.scans.get u =
        some { block := n, phase := .pages (x :: rest) done } := hscan
    simp only [hsome]
    refine ⟨?_, ?_⟩
    · rintro rfl
      rfl
    · rintro q l rfl
      rfl

/-- A page read's end: a copy found is added, and the next page or the next block follows. -/
theorem Ctl.pageFound_spec {c : Ctl} {k : Env} {u : UnitNo} {n : Nat} {x : PageInfo} {rest done : List PageInfo}
    (a : PageAddr) (r : PageRead) (hscan : c.mount.scans.get u = some { block := n, phase := .pages (x :: rest) done }) :
    let d := c.pageFound k u a r
    c.scanWithin d ∧ d.mount.copies = c.mount.copies ++ (r.copy k a).toList ∧
    (∀ q l, rest = q :: l → c.scanGoesOn d u n (.pages rest (done ++ [x])) (mountPageReq n q.page)) ∧
    (rest = [] → d.scanFound u n .filled) := by
  intro d
  obtain ⟨hend, hmore⟩ := Ctl.pageFound_eq (k := k) a r hscan
  cases rest with
  | nil =>
    obtain ⟨hwithin, hfound, hcopies⟩ := (c.withCopy (r.copy k a)).blockRead_spec u n (done ++ [x])
    rw [show d = _ from hend rfl]
    exact ⟨Ctl.scanWithin.trans (c := c.withCopy _) rfl hwithin, hcopies, nofun, fun _ => hfound⟩
  | cons q l =>
    obtain ⟨hwithin, hon, hcopies⟩ := (c.withCopy (r.copy k a)).scanNext_spec u (.pages (q :: l) (done ++ [x]))
      (q := mountPageReq n q.page) (n := n) rfl
    rw [show d = _ from hmore q l rfl]
    refine ⟨Ctl.scanWithin.trans (c := c.withCopy _) rfl hwithin, hcopies, ?_, nofun⟩
    rintro _ _ ⟨⟩
    exact hon

/-! ## The commands -/

/-- A header read that completes on its unit, of a page `a`. -/
theorem exec_headerReadDone {s : State} {u : UnitNo} {r : ReadReport} {b : Busy} {a : PageAddr} (hlow : s.env.rstLow = false)
    (hb : (s.ctl.units.get u).busy = some b) (hwho : b.req.who = .mountHeader) (hop : b.req.op = .headerRead a) :
    exec (.mountHeaderReadDone u r) s =
      .next { s with env := { s.env with fresh := s.env.fresh + 1 }, flash := s.flash.afterHeaderRead a r,
                     ctl := (s.ctl.setUnit u { s.ctl.units.get u with busy := none }).headerRead u
                       (s.flash.readHeader a r s.env.fresh) } := by
  have hpage : b.req.pageOf = a := by rw [Request.pageOf, hop]; rfl
  have htake : s.ctl.takeBusy u (fun w => decide (w = .mountHeader)) =
      some (b, s.ctl.setUnit u { s.ctl.units.get u with busy := none }) := by
    simp only [Ctl.takeBusy, hb, hwho, decide_true, if_true]
  show Host.Outcome.next (s.headerReadDone u r fun c h => c.headerRead u h) = _
  simp only [State.headerReadDone, hlow, htake, hpage, Bool.false_eq_true, if_false]

/-- Settles O26: a header read by the phase of the scan, a page read by the pages left. -/
theorem mountScanReads : Obligations.MountScanReads := by
  intro s u r b a n ph hlow hb hscan found goesOn within
  have hidle {d : Ctl} (hcalm : Calm true (s.ctl.setUnit u { s.ctl.units.get u with busy := none }) d)
      (hd : Ctl.scanWithin (s.ctl.setUnit u { s.ctl.units.get u with busy := none }) d) : within d := ⟨hd, hcalm.idle.1⟩
  refine ⟨fun hwho hop => ?header, fun p rest done hwho hop hph hc => ?page⟩
  case header =>
    intro h more
    obtain ⟨hwithin, hphases⟩ := Ctl.headerRead_spec
      (c := s.ctl.setUnit u { s.ctl.units.get u with busy := none }) h hscan
    exact ⟨_, exec_headerReadDone hlow hb hwho hop, hidle (Ctl.headerRead_calm (.refl _) u h) hwithin, hphases⟩
  case page =>
    intro rd
    subst hph
    obtain ⟨hwithin, hnext⟩ := Ctl.pageFound_spec
      (c := s.ctl.setUnit u { s.ctl.units.get u with busy := none }) (k := s.env) a rd hscan
    have hkind : Requester.isMountPage b.req.who = true := by rw [hwho]; rfl
    exact ⟨_, exec_pageReadDone hlow hc hb hkind hop rfl, hidle (Ctl.pageFound_calm (.refl _) s.env u a rd) hwithin, hnext⟩

end Sys2Proof.Machine
end

