-- ==== Sys2Proof/Proofs/MountEnd.lean ====
section
/-!
PROOFS. The end of the mount (R59, R62 to R64, R69, R71, R91).
-/

namespace Sys2Proof.Machine

theorem Ctl.scanOver_iff (c : Ctl) :
    c.scanOver = true ↔ c.station = .mounting ∧ c.mount.started = true ∧ c.mount.scans = #v[none, none] := by
  have hscans : c.mount.scans = #v[none, none] ↔ c.mount.scans.get 0 = none ∧ c.mount.scans.get 1 = none := by
    refine ⟨fun h => by rw [h]; exact ⟨rfl, rfl⟩, fun ⟨h0, h1⟩ => ?_⟩
    rw [pair_eq c.mount.scans, h0, h1]
  simp only [Ctl.scanOver, Bool.and_eq_true, decide_eq_true_eq, Option.isNone_iff_eq_none, hscans, and_assoc]

/-- The copies kept by the mount, created one after another in an empty directory. -/
theorem Ctl.createKept (c : Ctl) (k : Env) (kept : List FoundCopy) (hdir : c.dir = []) (hlen : kept.length ≤ 65536) :
    ∃ d al rp rc,
      kept.foldl (fun c x => c.create k (x.entry k)) c = { c with dir := d, alerts := al, repair := rp, recheck := rc } ∧
      (∀ x ∈ kept, ∃ e ∈ d, e.id = x.id) ∧ (∀ e ∈ d, ∃ x ∈ kept, ∃ u, e = { x.entry k with under := u }) := by
  obtain ⟨⟨d, al, rp, rc, hc⟩, hin, hout⟩ := create_fold k kept [] c (by simpa using hlen) (by simp [hdir])
    (by simp) (by simp [hdir])
  rw [hc] at hin hout
  exact ⟨d, al, rp, rc, hc, hin, hout⟩

/-- What an entry made from a kept copy says. -/
theorem FoundCopy.entry_fields (x : FoundCopy) (k : Env) (u : Bool) :
    let e := { x.entry k with under := u }
    e.id = x.id ∧ e.role = (if x.id.origin = k.me then .own else .replica) ∧
    e.localPage = (if x.remoteOnly then none else some x.page) ∧ e.known = x.n ∧
    e.ownDepth k = (if x.remoteOnly then 0 else x.n) ∧ e.closed = (decide (x.id.origin = k.me) || x.closed) := by
  refine ⟨rfl, ?_, rfl, rfl, ?_, rfl⟩
  · simp only [FoundCopy.entry, decide_eq_true_eq]
  · show (x.depths k).get k.me = _
    rw [FoundCopy.depths, ofFn_get, if_pos rfl]

/-- Settles O27: the copies created, the values anew, the blocks completed, the frontier, and the station state. -/
theorem mountResolve : Obligations.MountResolve := by
  intro s hlow
  refine ⟨fun h => next_onCtl_same fun _ => if_neg fun hover => ?before, fun hst hstart hscans hdir hlen => ?resolved⟩
  case before =>
    obtain ⟨hst, hstart, hscans⟩ := s.ctl.scanOver_iff.1 hover
    obtain h | h | h := h
    · exact h hst
    · exact Bool.false_ne_true (h.symm.trans hstart)
    · exact h hscans
  case resolved =>
    have hover := s.ctl.scanOver_iff.2 ⟨hst, hstart, hscans⟩
    obtain ⟨d, al, rp, rc, hcreate, hin, hout⟩ := s.ctl.createKept s.env (s.ctl.keptCopies s.env) hdir hlen
    obtain ⟨hdir', hblocks, hpool, hmount, hown, hgen, hpeers, hpair, hwindow, hnext, hport⟩ := recompute_fields
      { s.ctl with dir := d, alerts := al, repair := rp, recheck := rc } s.env
    obtain ⟨us, bs, hcomplete⟩ := completeBlocks_shape
      (Ctl.recompute { s.ctl with dir := d, alerts := al, repair := rp, recheck := rc } s.env)
      (((s.ctl.keptCopies s.env).filter (fun x => !x.remoteOnly)).map (·.page))
    have hresolve : s.ctl.mountResolve s.env = _ := if_pos hover
    dsimp only at hresolve
    rw [hcreate, hcomplete] at hresolve
    generalize Ctl.recompute { s.ctl with dir := d, alerts := al, repair := rp, recheck := rc } s.env = c at *
    obtain ⟨tx, jobs, st, win, hleave, hhigh, hlowered⟩ := leaveMounting_shape _ s.env
    rw [hleave] at hresolve
    have hentry : ∀ e ∈ c.dir, ∃ x ∈ s.ctl.keptCopies s.env, ∃ u, e = { x.entry s.env with under := u } := hdir'.symm ▸ hout
    refine ⟨_, next_onCtl_eq hlow hresolve, hhigh, fun h => ?_, rfl, rfl, hdir'.symm ▸ hin, fun e he => ?_, ?_, ⟨bs, rfl⟩, hnext,
      ?_, hpeers, hpair, hgen, hown, hport⟩
    · obtain ⟨hst', hwin⟩ := hlowered h
      exact ⟨hst', hwin.trans hwindow⟩
    · obtain ⟨x, hx, u, rfl⟩ := hentry e he
      exact ⟨x, hx, x.entry_fields s.env u⟩
    · show (c.blocks.filter _).map _ ++ c.mount.erased = _
      rw [hblocks, hmount]
    · show Ctl.firstFrontier _ _ = _
      unfold Ctl.firstFrontier
      dsimp only
      rw [hown] <;> rfl

end Sys2Proof.Machine
end

