-- ==== Sys2Proof/Proofs/MarkPrograms.lean ====
section
/-!
PROOFS. The completion of a mark page's program (R51, R52, R65, R66, R68, R70).
-/

namespace Sys2Proof.Machine

/-! ## The mark log -/

theorem Ctl.answerRelease_shape (c : Ctl) : ∃ p, c.answerRelease = { c with port := p } := by
  unfold Ctl.answerRelease
  split
  case h_1 => split <;> exact ⟨_, rfl⟩
  all_goals exact ⟨_, rfl⟩

theorem Ctl.answerRelease_of {c : Ctl} {m : Word} (h : c.port.act = .releaseWait m) (hm : m ≤ c.mark.recorded.release) :
    c.answerRelease = c.endCommand .ok [] := by
  simp only [Ctl.answerRelease, h, if_pos hm]

/-- A write of given values, into the next mark page or with a switch of blocks before it (R65, R67). -/
theorem Ctl.writeMark_eq (c : Ctl) (vals : MarkVals) (seq : Word) :
    c.writeMark vals seq =
      Ctl.enter
        { c with mark := { c.mark with
            write := some { vals := vals, seq := seq, erasing := decide (128 ≤ c.mark.next) } } } c.mark.writeReq := by
  unfold Ctl.writeMark MarkLog.writeReq
  by_cases h : 128 ≤ c.mark.next
  · simp only [h, decide_true, if_true]
    rfl
  · simp only [h, decide_false, Bool.false_eq_true, if_false]
    rfl

/-- No write begins while the wanted values are recorded. -/
theorem Ctl.beginWrite_recorded {c : Ctl} (h : c.mark.wanted = c.mark.recorded) : c.beginWrite = c := by
  simp only [Ctl.beginWrite, h, decide_true, Bool.or_true, if_true]

/-- A write begins of wanted values that are not. -/
theorem Ctl.beginWrite_wanted {c : Ctl} (hw : c.mark.write = none) (ho : c.mark.frozenOwed = false)
    (hne : c.mark.wanted ≠ c.mark.recorded) (hs : c.mark.recordedSeq ≠ topSeq) :
    c.beginWrite = c.writeMark c.mark.wanted (c.mark.recordedSeq + 1) := by
  simp only [Ctl.beginWrite, hw, ho, hne, hs, decide_false, Option.isSome_none, Bool.or_self, Bool.false_eq_true, if_false]

/-! ## After PASS -/

/-- The mark log with the write in progress recorded (R51, R66). -/
def Ctl.recordMark (c : Ctl) (w : MarkWrite) : Ctl :=
  { c with mark := { c.mark with recorded := w.vals, recordedSeq := w.seq, failures := 0, next := c.mark.next + 1,
                                 write := none } }

/-- The release mark raised to the recorded one, with all that goes with the pages at or below it (R51). -/
def Ctl.raiseRelease (c : Ctl) (k : Env) (m : Word) : Ctl :=
  if c.ownMark < m then ((c.ownRelease k m).rejudgeVanished k).sweepAll k else c

theorem Ctl.markPassed_eq (c : Ctl) (k : Env) (w : MarkWrite) :
    c.markPassed k w = ((c.recordMark w).raiseRelease k w.vals.release).answerRelease.beginWrite := rfl

/-- The release leaves what the engines do not work on, but for the release mark. -/
theorem Ctl.raiseRelease_calm (c : Ctl) (k : Env) (m : Word) :
    Calm false { c with ownMark := maxSeq c.ownMark m } (c.raiseRelease k m) := by
  unfold Ctl.raiseRelease maxSeq
  split
  · exact Ctl.sweepAll_calm (Ctl.rejudgeVanished_calm (ownRelease_from c k m) k) k
  · exact .refl _

/-- What a release does while nothing is DEFERRED, owed or settled above the mark is what `ownRelease` does. -/
theorem Ctl.raiseRelease_fields {c : Ctl} {k : Env} {m : Word} (hm : c.ownMark < m)
    (hdef : ∀ v h, c.rxHeld v = some h → h.phase ≠ .deferred) (howed : c.owed = [])
    (hset : ∀ x ∈ c.et, m < x.seq → x.settled = .none) :
    let d := c.raiseRelease k m
    d.dir = (c.ownRelease k m).dir ∧ d.et = (c.ownRelease k m).et ∧ d.tx = (c.ownRelease k m).tx ∧
    d.jobs = (c.ownRelease k m).jobs := by
  obtain ⟨-, -, hw, -, -, -, -, hrx⟩ := ownRelease_spec (c := c) (k := k) (m := m) hset
  have howed' : (c.ownRelease k m).owed = [] := by rw [hw, howed]; rfl
  have hdef' : ∀ v h, (c.ownRelease k m).rxHeld v = some h → h.phase ≠ .deferred := fun v h hv =>
    hdef v h (Ctl.rxHeld_congr hrx v ▸ hv)
  have hraise : c.raiseRelease k m = (c.ownRelease k m).sweep k := by
    rw [Ctl.raiseRelease, if_pos hm, Ctl.rejudgeVanished_none hdef', Ctl.sweepAll, Ctl.sweepOwed_held (.inl howed')]
  intro d
  rw [show d = _ from hraise]
  simp only [Ctl.sweep_dir, Ctl.sweep_et, Ctl.sweep_tx, Ctl.sweep_jobs, and_self]

/-- The answer of a RELEASE and the write that may begin leave the release mark, the directory and the engines' lists. -/
theorem Ctl.answer_begin_shape (c : Ctl) :
    ∃ st m p us al, c.answerRelease.beginWrite =
      { c with station := st, mark := m, port := p, units := us, alerts := al } := by
  obtain ⟨p, hp⟩ := c.answerRelease_shape
  obtain ⟨st, m, p', us, al, h, -⟩ := beginWrite_changes { c with port := p }
  rw [hp, h]
  exact ⟨_, _, _, _, _, rfl⟩

/-- The mark log and the port after a mark page has passed. -/
theorem Ctl.markPassed_mark (c : Ctl) (k : Env) (w : MarkWrite) :
    let d := c.markPassed k w
    let m := c.mark
    d.ownMark = maxSeq c.ownMark w.vals.release ∧
    (m.wanted = w.vals → d.mark = (c.recordMark w).mark) ∧
    (m.wanted ≠ w.vals → m.frozenOwed = false → w.seq ≠ topSeq →
      d.mark = { (c.recordMark w).mark with
        write := some { vals := m.wanted, seq := w.seq + 1, erasing := decide (128 ≤ m.next + 1) } }) ∧
    (∀ v, c.port.act = .releaseWait v → v ≤ w.vals.release →
      d.port = { c.port with act := .idle, result := [ResultCode.ok.byte], resultPos := 0,
                             lastResult := ResultCode.ok.byte }) := by
  intro d m
  have hcalm := (c.recordMark w).raiseRelease_calm k w.vals.release
  obtain ⟨-, -, -, -, -, hown, -, hmark, -⟩ := Ctl.still_eq (hcalm.still rfl)
  have hd : d = ((c.recordMark w).raiseRelease k w.vals.release).answerRelease.beginWrite := c.markPassed_eq k w
  generalize (c.recordMark w).raiseRelease k w.vals.release = e at *
  obtain ⟨p, hp⟩ := e.answerRelease_shape
  refine ⟨?_, fun heq => ?_, fun hne howed hseq => ?_, fun v hact hv => ?_⟩
  · obtain ⟨_, _, _, _, _, h⟩ := e.answer_begin_shape
    rw [hd, h]
    exact hown
  · rw [hd, hp, Ctl.beginWrite_recorded]
    · exact hmark
    · show e.mark.wanted = e.mark.recorded
      rw [hmark]
      exact heq
  · rw [hd, hp, Ctl.beginWrite_wanted, Ctl.writeMark_eq]
    · show ({ e.mark with write := _ } : MarkLog) = _
      rw [hmark]
      rfl
    all_goals
      rw [show ({ e with port := p } : Ctl).mark = _ from hmark]
    · rfl
    · exact howed
    · exact hne
    · exact hseq
  · have hport : e.port = c.port := by
      refine hcalm.port rfl ?_
      show c.port.act.quiet = true
      rw [hact]
      rfl
    have hanswer : e.answerRelease = e.endCommand .ok [] := by
      refine Ctl.answerRelease_of (m := v) (by rw [hport]; exact hact) ?_
      rw [hmark]
      exact hv
    obtain ⟨_, _, p', _, _, h, -, -, hidle⟩ := beginWrite_changes (e.endCommand .ok [])
    rw [hd, hanswer, h]
    show p' = _
    rw [hidle rfl, ← hport]
    rfl

/-! ## After FAIL -/

theorem Ctl.markFailed_spec (c : Ctl) (w : MarkWrite) :
    (c.mark.failures + 1 < 3 →
      c.markFailed w = Ctl.enter
        { c with mark := { c.mark with failures := c.mark.failures + 1, next := c.mark.next + 1,
                                       write := some { w with erasing := decide (128 ≤ c.mark.next + 1) } } }
        (if 128 ≤ c.mark.next + 1 then { who := .markErase, op := .erase c.mark.other.val, emergency := false }
         else markProgramReq c.mark.block (c.mark.next + 1))) ∧
    (3 ≤ c.mark.failures + 1 →
      c.markFailed w = Ctl.markUnwritable
        { c with mark := { c.mark with failures := c.mark.failures + 1, next := c.mark.next + 1 } }) := by
  refine ⟨fun h => ?_, fun h => ?_⟩
  · refine (if_neg (by show ¬ 3 ≤ c.mark.failures + 1; omega)).trans ?_
    exact Ctl.writeMark_eq (c.onMark _) w.vals w.seq
  · exact if_pos h

theorem Ctl.failMarkCauses_opening {c : Ctl} {a : AppendCmd} {seq : Word} (h : c.port.act = .appendOpening a)
    (hn : c.nextSeq = some seq) (hc : c.mark.recorded.ceiling < seq) : c.failMarkCauses = c.endCommand .fail [] := by
  have hopens : c.opensWaitingCeiling = true := by
    simp only [Ctl.opensWaitingCeiling, h, hn, decide_eq_true_eq]
    exact hc
  simp only [Ctl.failMarkCauses, h, hopens, if_true]

theorem Ctl.markProgramEnd_pass {c : Ctl} {w : MarkWrite} (hw : c.mark.write = some w) (k : Env) :
    c.markProgramEnd k .pass = c.markPassed k w := by
  simp only [Ctl.markProgramEnd, hw]

theorem Ctl.markProgramEnd_fail {c : Ctl} {w : MarkWrite} (hw : c.mark.write = some w) (k : Env) :
    c.markProgramEnd k .fail = c.markFailed w := by
  simp only [Ctl.markProgramEnd, hw]

/-- A mark page's program that completes on its unit. -/
theorem exec_markProgramDone {s : State} {u : UnitNo} {r : ProgramReport} {b : Busy} {q : ProgramReq} {c : Ctl}
    (hlow : s.env.rstLow = false) (hc : s.ctl.takeCompleted u Requester.isMark = none)
    (hb : (s.ctl.units.get u).busy = some b) (hwho : b.req.who = .mark) (hop : b.req.op = .program q)
    (h : (s.ctl.setUnit u { s.ctl.units.get u with busy := none }).markProgramEnd s.env (programOut r) = c) :
    exec (.markProgramDone u r) s =
      .next { s with env := { s.env with fresh := s.env.fresh + 1 },
                     flash := s.flash.afterProgram q b.data r s.env.fresh, ctl := c } := by
  rw [← h]
  exact next_programDone hlow hc hb (by rw [hwho]; rfl) hop

theorem isCopyOf_false {b : TxBody} {slot : Fin 2} (h : b.isCopyOf slot = false) (id : PageId) (t : Station) :
    b ≠ .copy id t slot := by
  rintro rfl
  simp [TxBody.isCopyOf] at h

/-- Settles O28: PASS by `markPassed_mark` and the release, FAIL by the failures counted. -/
theorem markProgramDone : Obligations.MarkProgramDone := by
  intro s u r b q w hlow hc hb hwho hop hw m failed
  have hw' : (s.ctl.setUnit u { s.ctl.units.get u with busy := none }).mark.write = some w := hw
  cases r with
  | pass n =>
    refine ⟨_, _, exec_markProgramDone hlow hc hb hwho hop (Ctl.markProgramEnd_pass hw' _), ?_, nofun⟩
    rintro - -
    have hidle : (s.ctl.setUnit u { s.ctl.units.get u with busy := none }).markPassed s.env w = _ :=
      Ctl.markPassed_eq _ s.env w
    obtain ⟨hown, hdone, hagain, hport⟩ :=
      (s.ctl.setUnit u { s.ctl.units.get u with busy := none }).markPassed_mark s.env w
    obtain ⟨st, m', p, us, al, hshape⟩ := Ctl.answer_begin_shape
      (((s.ctl.setUnit u { s.ctl.units.get u with busy := none }).recordMark w).raiseRelease s.env w.vals.release)
    rw [hshape] at hidle
    refine ⟨hown, hdone, hagain, hport, fun hle => ?_, fun hlt hdef howed hset => ?_⟩
    · have hsame : (((s.ctl.setUnit u { s.ctl.units.get u with busy := none }).recordMark w).raiseRelease s.env
          w.vals.release) = (s.ctl.setUnit u { s.ctl.units.get u with busy := none }).recordMark w :=
        if_neg (BitVec.not_lt.2 hle)
      rw [hidle, hsame]
      exact ⟨rfl, rfl, rfl, rfl, rfl⟩
    · obtain ⟨hdir, het, htx, hjobs⟩ := Ctl.raiseRelease_fields (k := s.env)
        (c := (s.ctl.setUnit u { s.ctl.units.get u with busy := none }).recordMark w) hlt hdef howed hset
      obtain ⟨hdir', het', -, hentries, hheld, hcancel, hcopies, -⟩ := ownRelease_spec (k := s.env)
        (c := (s.ctl.setUnit u { s.ctl.units.get u with busy := none }).recordMark w) hset
      rw [hidle]
      intro gone ofGone
      have hkept {b : TxBody} (h : ∀ seq i mask src, b = .extent seq i mask src → w.vals.release < seq) : ¬ ofGone b := by
        rintro ⟨seq, i, mask, src, hb, hle⟩
        exact BitVec.not_lt.2 hle (h seq i mask src hb)
      refine ⟨(hdir.trans hdir').trans ?_, het.trans het', fun x hx hs => ?_, fun x hx => ?_, fun slot j hj hg => ?_,
        fun slot j hj hg hn hr => ?_⟩
      · simp only [gone, Bool.decide_and]
        rfl
      · exact hkept (hentries x (htx ▸ hx) hs)
      · exact hkept (hheld x (htx ▸ hx))
      · exact hcancel slot j (hjobs ▸ hj) hg.1 hg.2
      · obtain ⟨hwait, hheld', -⟩ := hcopies slot j hj hg.1 hg.2 hn hr
        exact ⟨fun x hx hs => isCopyOf_false (hwait x (htx ▸ hx) hs), fun x hx => isCopyOf_false (hheld' x (htx ▸ hx))⟩
  | fail =>
    refine ⟨_, _, exec_markProgramDone hlow hc hb hwho hop (Ctl.markProgramEnd_fail hw' _), nofun, fun _ => ?_⟩
    obtain ⟨hagain, hgive⟩ := (s.ctl.setUnit u { s.ctl.units.get u with busy := none }).markFailed_spec w
    refine ⟨hagain, fun h3 => ?_⟩
    rw [hgive h3, Ctl.markUnwritable_eq]
    refine ⟨rfl, rfl, fun v hv => ?_, fun p seq hp hn hceil => ?_, rfl, rfl, rfl⟩
    · show Ctl.port (Ctl.failMarkCauses _) = _
      rw [Ctl.failMarkCauses_release (m := v)]
      · rfl
      · exact hv
    · show Ctl.port (Ctl.failMarkCauses _) = _
      rw [Ctl.failMarkCauses_opening (a := p) (seq := seq)]
      · rfl
      · exact hp
      · exact hn
      · exact hceil

end Sys2Proof.Machine
end

