-- ==== Sys2Proof/Proofs/StationChoices.lean ====
section
/-!
PROOFS. Holder counts (R12) and the stations that an own page is assigned (R101 to R103).
-/

namespace Sys2Proof.Machine

/-- Settles O54: each count is the length of a filter over the eight stations. -/
theorem holderCounts : Obligations.HolderCounts := by
  intro c k e
  refine ⟨fun _ => rfl, fun h => if_neg h, fun h => if_pos h, fun seq n he => ?durable, mem_all, ?nodup⟩
  case durable =>
    have howned : c.ownEntry k seq = some e := he
    simp only [Ctl.durable, howned, decide_eq_true_eq]
  case nodup =>
    rw [allStations_eq]
    exact List.nodup_finRange 8

/-! ## The walk after a station (R102, R103) -/

/-- The distances of the walk that starts after a station. -/
def distances : List (Fin 8) := [1, 2, 3, 4, 5, 6, 7]

theorem mem_distances {d : Fin 8} : d ∈ distances ↔ d ≠ 0 := by
  revert d
  decide

theorem distances_sorted : distances.Pairwise (· < ·) := by
  decide

theorem mem_cyclicAfter {o i : Station} : i ∈ cyclicAfter o ↔ ∃ d : Fin 8, d ≠ 0 ∧ o + d = i := by
  rw [cyclicAfter_eq, List.mem_map]
  exact exists_congr fun d => and_congr_left fun _ => mem_distances

/-- The walk finds the station that passes at the least distance. -/
theorem find_cyclicAfter {p : Station → Bool} {o : Station} {d : Fin 8} (h0 : d ≠ 0) (hd : p (o + d) = true)
    (hnear : ∀ d', d' ≠ 0 → d' < d → p (o + d') = false) : (cyclicAfter o).find? p = some (o + d) := by
  have hfind : distances.find? (p ∘ (o + ·)) = some d :=
    find_sorted (· < ·) _ _ distances_sorted d (mem_distances.2 h0) hd fun y hy hlt =>
      hnear y (mem_distances.1 hy) hlt
  rw [cyclicAfter_eq, List.find?_map]
  exact congrArg (Option.map (o + ·)) hfind

/-- What a rising list loses when it is cut is above what stays. -/
theorem lt_of_not_mem_take {l : List (Fin 8)} (hl : l.Pairwise (· < ·)) {n : Nat} {d : Fin 8} (hd : d ∈ l)
    (hcut : d ∉ l.take n) : (l.take n).length = n ∧ ∀ x ∈ l.take n, x < d := by
  have hdrop : d ∈ l.drop n := by
    rw [← List.take_append_drop n l, List.mem_append] at hd
    exact hd.resolve_left hcut
  have hlen : n ≤ l.length := by
    by_contra hlt
    rw [List.drop_of_length_le (by omega)] at hdrop
    cases hdrop
  rw [← List.take_append_drop n l, List.pairwise_append] at hl
  obtain ⟨-, -, hcross⟩ := hl
  exact ⟨List.length_take_of_le hlen, fun x hx => hcross x hx d hdrop⟩

/-! ## The targets of an own page -/

/-- The test that R103 puts to a station: it may become a target of the page. -/
def Ctl.fitsTarget (c : Ctl) (k : Env) (e : Entry) (i : Station) : Bool :=
  c.countsPresent k i && !c.countsFull k i && !e.targets.contains i && decide (e.extra ≠ some i) && !has e.excluded i

theorem substitute_eq (c : Ctl) (k : Env) (e : Entry) :
    c.substitute k e = (cyclicAfter e.id.origin).find? (c.fitsTarget k e) := rfl

theorem fitsTarget_iff (c : Ctl) (k : Env) (e : Entry) (i : Station) : c.fitsTarget k e i = true ↔
    (if i = k.me then c.station = .active ∨ c.station = .frozen else (c.peers.get i).state = .present) ∧
      ¬ (if i = k.me then 65536 ≤ c.dir.length ∨ (c.openBlock .replica = none ∧ c.pool.length < 3)
          else (c.peers.get i).full = true) ∧
      i ∉ e.targets ∧ e.extra ≠ some i ∧ e.excluded.getLsbD i.val = false := by
  rw [← countsPresent_iff, ← countsFull_iff]
  simp [Ctl.fitsTarget, has, and_assoc]

/-- The test that R102 puts to a station at the opening of a page. -/
def Ctl.opensOn (c : Ctl) (k : Env) (i : Station) : Bool := c.countsPresent k i && !c.countsFull k i

theorem opensOn_iff (c : Ctl) (k : Env) (i : Station) : c.opensOn k i = true ↔
    (if i = k.me then c.station = .active ∨ c.station = .frozen else (c.peers.get i).state = .present) ∧
      ¬ (if i = k.me then 65536 ≤ c.dir.length ∨ (c.openBlock .replica = none ∧ c.pool.length < 3)
          else (c.peers.get i).full = true) := by
  rw [← countsPresent_iff, ← countsFull_iff]
  simp [Ctl.opensOn]

/-- The distances of the stations that the placement at open takes. -/
def Ctl.placedAt (c : Ctl) (k : Env) : List (Fin 8) :=
  (distances.filter (fun d => c.opensOn k (k.me + d))).take (k.copies - 1)

theorem placement_eq (c : Ctl) (k : Env) : c.placement k = (c.placedAt k).map (fun d => k.me + d) := by
  rw [Ctl.placedAt, List.map_take]
  show ((cyclicAfter k.me).filter (c.opensOn k)).take _ = _
  rw [cyclicAfter_eq, List.filter_map]
  rfl

theorem mem_opens {c : Ctl} {k : Env} {d : Fin 8} :
    d ∈ distances.filter (fun d => c.opensOn k (k.me + d)) ↔ d ≠ 0 ∧ c.opensOn k (k.me + d) = true := by
  rw [List.mem_filter, mem_distances]

theorem opens_sorted (c : Ctl) (k : Env) :
    (distances.filter (fun d => c.opensOn k (k.me + d))).Pairwise (· < ·) :=
  distances_sorted.filter _

/-- Settles O57: both walks go over the distances after the origin in rising order. -/
theorem placementChoices : Obligations.PlacementChoices := by
  intro c k e present full fit
  have hfails : ∀ i, ¬ fit i → c.fitsTarget k e i = false := fun i hi =>
    Bool.eq_false_iff.2 (mt (fitsTarget_iff c k e i).1 hi)
  refine ⟨fun hno => ?none, fun d h0 hd hnear => ?some, c.placedAt k, placement_eq c k, ?length, ?sorted, ?placed, ?kept⟩
  case none =>
    rw [substitute_eq, List.find?_eq_none]
    intro i hi
    obtain ⟨d, h0, rfl⟩ := mem_cyclicAfter.1 hi
    simp [hfails _ (hno d h0)]
  case some =>
    rw [substitute_eq]
    exact find_cyclicAfter h0 ((fitsTarget_iff c k e _).2 hd) fun d' hd' hlt => hfails _ (hnear d' hd' hlt)
  case length => exact List.length_take_le _ _
  case sorted => exact (opens_sorted c k).sublist (List.take_sublist _ _)
  case placed =>
    intro d hd
    obtain ⟨h0, hopens⟩ := mem_opens.1 (List.mem_of_mem_take hd)
    exact ⟨h0, (opensOn_iff c k _).1 hopens⟩
  case kept =>
    intro d h0 hpresent hfull hnot
    exact lt_of_not_mem_take (opens_sorted c k) (mem_opens.2 ⟨h0, (opensOn_iff c k _).2 ⟨hpresent, hfull⟩⟩) hnot

end Sys2Proof.Machine
end

