-- ==== Sys2Proof/Proofs/FrameEnvelope.lean ====
section
/-!
PROOFS. A frame in its envelope and back (R77, R79, R174): what the receiver takes is an envelope around a body that
parses, so a frame is received as it was sent and nothing else passes the checks.
-/

namespace Sys2Proof.Machine

/-- The characters of an envelope (Table 11-5). -/
def envelope (arb : BitVec 5) (kind : Byte) (body : List Byte) : List Byte :=
  kind :: (bytes16 (halfOf body.length) ++ (body ++ bytes16 (crc (coveredBytes arb kind body))))

theorem send_eq (src : Station) (f : Frame) :
    f.send src = { arb := arbField f.cls src, chars := envelope (arbField f.cls src) f.kindCode f.body } := rfl

theorem bytes16_length (h : Half) : (bytes16 h).length = 2 := rfl

/-- The body that the receiver takes from an envelope of its length. -/
theorem envelope_checks (arb : BitVec 5) (kind : Byte) (body : List Byte) :
    let rest := body ++ bytes16 (crc (coveredBytes arb kind body))
    rest.length = body.length + 2 ∧ rest.take body.length = body ∧
      rest.drop body.length = bytes16 (crc (coveredBytes arb kind body)) := by
  intro rest
  exact ⟨by rw [List.length_append, bytes16_length], List.take_left, List.drop_left⟩

/-- Characters that pass the check are the envelope of the body found in them. -/
theorem envelope_of_checks {arb : BitVec 5} {kind l0 l1 : Byte} {rest : List Byte}
    (hlen : rest.length = (half l0 l1).toNat + 2)
    (hcrc : rest.drop (half l0 l1).toNat = bytes16 (crc (coveredBytes arb kind (rest.take (half l0 l1).toNat)))) :
    kind :: l0 :: l1 :: rest = envelope arb kind (rest.take (half l0 l1).toNat) := by
  have hbody : (rest.take (half l0 l1).toNat).length = (half l0 l1).toNat :=
    List.length_take_of_le (by omega)
  have hhalf : bytes16 (halfOf (half l0 l1).toNat) = [l0, l1] := by
    rw [show halfOf (half l0 l1).toNat = half l0 l1 from BitVec.ofNat_toNat _ _, bytes16_half]
  rw [envelope, hbody, hhalf, ← hcrc, List.take_append_drop]
  rfl

/-- A frame is received exactly when the characters are the envelope of a body that parses to it. -/
theorem receive_iff {h : Heard} {src : Station} {f : Frame} : Heard.receive h = some (src, f) ↔
    ∃ kind body, h.chars = envelope h.arb kind body ∧ body.length < 65536 ∧ parseBody kind body = some f ∧
      arbClass h.arb = f.cls ∧ arbSource h.arb = src := by
  constructor
  · intro hrec
    unfold Heard.receive at hrec
    split at hrec
    case h_2 => cases hrec
    case h_1 kind l0 l1 rest hchars =>
      dsimp only at hrec
      split at hrec
      case isFalse => cases hrec
      case isTrue hchecks =>
        split at hrec
        case h_2 => cases hrec
        case h_1 g hparse =>
          split at hrec
          case isFalse => cases hrec
          case isTrue hcls =>
            cases hrec
            refine ⟨kind, _, hchars.trans (envelope_of_checks hchecks.1 hchecks.2), ?_, hparse, hcls, rfl⟩
            exact lt_of_le_of_lt (List.length_take_le _ _) (half l0 l1).isLt
  · rintro ⟨kind, body, hchars, hlen, hparse, hcls, rfl⟩
    obtain ⟨l0, l1, hbytes⟩ : ∃ l0 l1, bytes16 (halfOf body.length) = [l0, l1] := ⟨_, _, rfl⟩
    have hn : (half l0 l1).toNat = body.length := by
      have hhalf : half l0 l1 = halfOf body.length := by
        have := congrArg (fun l => half (l.getD 0 0) (l.getD 1 0)) hbytes
        exact this.symm.trans (half_split _)
      rw [hhalf]
      exact Nat.mod_eq_of_lt hlen
    obtain ⟨hrest, htake, hdrop⟩ := envelope_checks h.arb kind body
    rw [envelope, hbytes] at hchars
    rw [Heard.receive, hchars]
    simp only [List.cons_append, List.nil_append, hn, hrest, htake, hdrop, and_self, if_true, hparse, hcls]

/-- Settles O58: `body_back` one way, `body_fwd` the other. -/
theorem frameRoundTrip : Obligations.FrameRoundTrip := by
  refine ⟨fun src f hwf => ?sent, fun h src f hrec => ?received⟩
  case sent =>
    refine receive_iff.2 ⟨f.kindCode, f.body, rfl, ?_, body_back f hwf, arb_cls _ _, arb_src _ _⟩
    have := body_len f hwf
    omega
  case received =>
    obtain ⟨kind, body, hchars, -, hparse, hcls, rfl⟩ := receive_iff.1 hrec
    obtain ⟨hwf, rfl, rfl⟩ := body_fwd kind body f hparse
    refine ⟨hwf, ?_⟩
    rw [send_eq, ← hcls, arb_all, ← hchars]

end Sys2Proof.Machine
end

