-- ==== Sys2Proof/Proofs/HeldRequests.lean ====
section
/-!
PROOFS. A freed queue entry goes to a held request, and the owed transmissions of its kind are requested (R86, R118, R146).
-/

namespace Sys2Proof.Machine

/-! ## The request that is met -/

theorem Tx.meetHeld_none {t : Tx} (h : 11 ≤ (t.entries.filter (fun e => !e.body.isPresence)).length ∨ t.held = []) :
    t.meetHeld = none := by
  unfold Tx.meetHeld
  split
  · rfl
  case isFalse hfull =>
    rcases h with hcount | hnone
    · exact absurd (decide_eq_true hcount) hfull
    · rw [hnone]
      rfl

/-- With a place free the HOLDINGS request is met, or else the oldest request. -/
theorem Tx.meetHeld_some {t : Tx} {l l' : List TxBody} {b : TxBody}
    (hroom : (t.entries.filter (fun e => !e.body.isPresence)).length < 11) (hheld : t.held = l ++ b :: l')
    (hrest : ∀ y ∈ l ++ l', y.isHoldings = false) (hfirst : b.isHoldings = true ∨ l = []) :
    t.meetHeld = some (b, { t with held := l ++ l' }.join b) := by
  have hfull : t.full = false := decide_eq_false (by unfold countOf; omega)
  unfold Tx.meetHeld
  rw [hfull, if_neg Bool.false_ne_true, hheld]
  cases hb : b.isHoldings
  case true =>
    have hkeep : (l ++ b :: l').filter (fun x => !x.isHoldings) = l ++ l' := by
      rw [List.filter_append, List.filter_cons_of_neg (by simp [hb]), ← List.filter_append]
      exact List.filter_eq_self.2 fun y hy => by simp [hrest y hy]
    rw [find_first (fun y hy => hrest y (List.mem_append_left _ hy)) hb, hkeep]
  case false =>
    obtain rfl : l = [] := hfirst.resolve_left (by simp [hb])
    have hno : (b :: l').find? TxBody.isHoldings = none :=
      List.find?_eq_none.2 fun y hy => by
        rcases List.mem_cons.1 hy with rfl | hy
        · simp [hb]
        · simp [hrest y hy]
    simp [hno]

/-! ## Its owner is told -/

theorem Ctl.meetHeld_nothing {c : Ctl} (h : c.tx.meetHeld = none) (k : Env) : c.meetHeld k = c := by
  simp only [Ctl.meetHeld, h]

theorem Ctl.meetHeld_holdings {c : Ctl} {t : Tx} {b : TxBody} (h : c.tx.meetHeld = some (b, t)) (k : Env)
    (hb : b.isHoldings = true) : c.meetHeld k = { c with tx := t } := by
  cases b <;> simp only [TxBody.isHoldings, TxBody.cls, Nat.reduceBEq, Bool.false_eq_true] at hb
  simp only [Ctl.meetHeld, h]

theorem Ctl.meetHeld_extent {c : Ctl} {t : Tx} {b : TxBody} (h : c.tx.meetHeld = some (b, t)) (k : Env)
    (hb : b.isAnyExtent = true) : c.meetHeld k = Ctl.requestOwed { c with tx := t } k := by
  cases b <;> simp only [TxBody.isAnyExtent, Bool.false_eq_true] at hb
  simp only [Ctl.meetHeld, h]

theorem Ctl.meetHeld_copy {c : Ctl} {t : Tx} {b : TxBody} (h : c.tx.meetHeld = some (b, t)) (k : Env)
    (hb : b.isAnyCopy = true) : c.meetHeld k = Ctl.requestOwedCopies { c with tx := t } := by
  cases b <;> simp only [TxBody.isAnyCopy, Bool.false_eq_true] at hb
  simp only [Ctl.meetHeld, h]

/-! ## The owed transmissions -/

/-- The attempts of one extent's records are counted, and its timer stops (R118). -/
theorem Ctl.countAttempts_eq (c : Ctl) (seq : Word) (ext : Nat) (mask : Byte) :
    c.countAttempts seq ext mask = { c with et := c.et.map (fun y =>
      if y.seq = seq ∧ y.ext = ext then
        { y.onRecords (fun r =>
            if has mask r.station && decide (r.state = .awaiting) then { r with attempts := r.attempts + 1 } else r) with
          timer := none }
      else y) } := by
  unfold Ctl.countAttempts Ctl.onPageEntries
  simp only [← ite_and]


/-- With no COPY owed none is requested. -/
theorem Ctl.requestOwedCopies_none {c : Ctl} (h : ∀ v j, c.jobs.get v = some j → j.owed = false) :
    c.requestOwedCopies = c := by
  rw [requestOwedCopies_eq, oneCopy_skip (v := 0) (h 0), oneCopy_skip (v := 1) (h 1)]

/-- The one COPY that is owed is requested and counted. -/
theorem Ctl.requestOwedCopies_one {c : Ctl} {v : Fin 2} {j : Job} (hj : c.jobs.get v = some j) (ho : j.owed = true)
    (hother : ∀ v' j', v' ≠ v → c.jobs.get v' = some j' → j'.owed = false) (hheld : ∀ q ∈ c.tx.held, q.isAnyCopy = false) :
    c.requestOwedCopies = { c with
      tx := c.tx.request (.copy j.page j.target v),
      jobs := vput c.jobs v
        (some { j with state := .queued, owed := false, timer := none, attempts := j.attempts + 1 }) } := by
  rw [requestOwedCopies_eq]
  match v with
  | 0 =>
    rw [oneCopy_req hj ho hheld, oneCopy_skip]
    intro j' hj'
    exact hother 1 j' (by decide) ((vput_get_other _ _ _ _ (by decide)).symm.trans hj')
  | 1 => rw [oneCopy_skip (v := 0) fun j' => hother 0 j' (by decide), oneCopy_req hj ho hheld]

/-- Settles O51: one request is met; after an EXTENT `requestOwed`, after a COPY `requestOwedCopies`. -/
theorem heldRequestMet : Obligations.HeldRequestMet := by
  intro s hlow
  refine ⟨fun h => ?none, fun l b l' hroom hheld hrest hfirst => ?met⟩
  case none => exact next_onCtl_same fun _ => Ctl.meetHeld_nothing (Tx.meetHeld_none h) _
  case met =>
    intro met
    have hmeet : s.ctl.tx.meetHeld = some (b, met) := Tx.meetHeld_some hroom hheld hrest hfirst
    refine ⟨fun h => ?_, fun w x n p y hb howed hwants hx hset hmask hne hfill hinfo hwait hfree => ?_,
      fun v j hb hj ho hother hfree => ?_⟩
    · refine next_onCtl_eq hlow ?_
      rcases h with hb | ⟨hb, howed, hwants⟩ | ⟨hb, hjobs⟩
      · exact Ctl.meetHeld_holdings hmeet _ hb
      · exact (Ctl.meetHeld_extent hmeet _ hb).trans (requestOwed_none (c := { s.ctl with tx := met }) howed hwants _)
      · exact (Ctl.meetHeld_copy hmeet _ hb).trans (Ctl.requestOwedCopies_none hjobs)
    · refine next_onCtl_eq hlow ?_
      rw [Ctl.meetHeld_extent hmeet _ hb, requestOwed_one (c := { s.ctl with tx := met }) howed hwants _ hx hset hmask hne,
        sendExtent_new (c := { s.ctl with tx := met, owed := [] }) hne hfill hinfo hwait hfree, Ctl.countAttempts_eq]
      simp only [Bool.and_eq_true, decide_eq_true_eq]
      rfl
    · refine next_onCtl_eq hlow ((Ctl.meetHeld_copy hmeet _ hb).trans ?_)
      exact Ctl.requestOwedCopies_one hj ho hother hfree

end Sys2Proof.Machine
end

