-- ==== Sys2Proof/Proofs/CopySlots.lean ====
section
/-!
PROOFS. A FREE job slot is given out (R144, R123, R152).
-/

namespace Sys2Proof.Machine

theorem Ctl.startJob_none {c : Ctl} {id : PageId} (h : ∀ e, c.entry id = some e → e.localPage = none) (v : Fin 2)
    (pu : Purpose) (t : Station) : c.startJob v pu id t = none := by
  unfold Ctl.startJob
  cases he : c.entry id with
  | none => rfl
  | some e => simp only [h e he]

/-! ## Who gets the slot -/

theorem Ctl.grantSlot_taken {c : Ctl} (h : ∀ v, c.jobs.get v ≠ none) (k : Env) : c.grantSlot k = c := by
  simp only [Ctl.grantSlot, freeSlot_none.2 h]

/-- With nobody waiting nothing is given out. -/
theorem Ctl.grantSlot_idle {c : Ctl} (hcatch : c.catchUps = [])
    (h : c.repair = [] ∨ c.station.timersRun = false ∨ ∃ t rest, c.repair = t :: rest ∧ t.waiting = false) (k : Env) :
    c.grantSlot k = c := by
  unfold Ctl.grantSlot
  split
  · rfl
  · rw [hcatch]
    rcases h with hrep | hst | ⟨t, rest, hrep, hwait⟩
    · simp only [hrep]
    · cases hrep : c.repair <;> simp only [hst, Bool.and_false, Bool.false_eq_true, if_false]
    · simp only [hrep, hwait, Bool.false_and, Bool.false_eq_true, if_false]

/-- The oldest catch-up request starts its job. -/
theorem Ctl.grantSlot_catchUp {c d : Ctl} {v : Fin 2} {x : CatchUp} {rest : List CatchUp} {k : Env}
    (hfree : c.freeSlot = some v) (hcatch : c.catchUps = x :: rest)
    (hjob : Ctl.startJob { c with catchUps := rest } v .catchUp (ownId k x.seq) x.target = some d) :
    c.grantSlot k = d := by
  simp only [Ctl.grantSlot, hfree, hcatch, hjob]

/-- It has no local copy to read. -/
theorem Ctl.grantSlot_damaged {c : Ctl} {v : Fin 2} {x : CatchUp} {rest : List CatchUp} {k : Env}
    (hfree : c.freeSlot = some v) (hcatch : c.catchUps = x :: rest)
    (hjob : ∀ e, c.entry (ownId k x.seq) = some e → e.localPage = none) :
    c.grantSlot k = Ctl.catchUpDamaged { c with catchUps := rest } k x.seq x.target := by
  simp only [Ctl.grantSlot, hfree, hcatch, Ctl.startJob_none (c := { c with catchUps := rest }) hjob]

/-- The head task that waits takes its step. -/
theorem Ctl.grantSlot_walk {c : Ctl} {v : Fin 2} {t : Task} {rest : List Task} (hfree : c.freeSlot = some v)
    (hcatch : c.catchUps = []) (hrep : c.repair = t :: rest) (hwait : t.waiting = true)
    (hst : c.station.timersRun = true) (k : Env) :
    c.grantSlot k = Ctl.walkStep { c with repair := { t with waiting := false } :: rest } k := by
  simp only [Ctl.grantSlot, hfree, hcatch, hrep, hwait, hst, Bool.and_self, if_true, Ctl.onHead]

/-! ## A catch-up of a page without a local copy (R123, R144) -/

theorem Ctl.catchUpDamaged_gone {c : Ctl} {k : Env} {seq : Word} (h : c.ownEntry k seq = none) (t : Station) :
    c.catchUpDamaged k seq t = c := by
  simp only [Ctl.catchUpDamaged, h]

theorem Ctl.catchUpDamaged_eq {c : Ctl} {k : Env} {seq : Word} {e : Entry} (h : c.ownEntry k seq = some e) (t : Station) :
    c.catchUpDamaged k seq t = { c with et := if e.pendingExt ≠ none then c.et else c.et.map (fun y =>
      if y.seq = seq then
        y.onRecord t (fun r => if r.state = .awaitingCopy then { r with state := .sourceless } else r)
      else y) } := by
  simp only [Ctl.catchUpDamaged, h, ← Option.isSome_iff_ne_none]
  cases e.pendingExt.isSome <;> rfl

/-! ## The step of a walk that is due -/

theorem exec_walkStep {s : State} {t : Task} {rest : List Task} (hlow : s.env.rstLow = false)
    (hst : s.ctl.station.timersRun = true) (hrep : s.ctl.repair = t :: rest) (hwait : t.waiting = false) :
    exec (if t.isRecheck then .recheckWalkStep else .departureWalkStep) s =
      .next { s with ctl := s.ctl.walkStep s.env } := by
  have hdue : s.ctl.walkDue t.isRecheck = true := by simp [Ctl.walkDue, hst, hrep, hwait]
  cases hkind : t.isRecheck
  all_goals
    rw [hkind] at hdue
    exact next_onCtl_eq hlow (if_pos hdue)

/-- Settles O52: the slot found, by who waits for it. -/
theorem copySlotGrant : Obligations.CopySlotGrant := by
  intro s hlow runs
  refine ⟨fun h => ?idle, fun v x rest hv hfirst hcatch => ?catchUp, fun v t rest hv hcatch hrep hwait hruns => ?walk⟩
  case idle =>
    refine next_onCtl_same fun _ => ?_
    rcases h with htaken | ⟨hcatch, h⟩
    · exact Ctl.grantSlot_taken htaken _
    · refine Ctl.grantSlot_idle hcatch (h.imp_right (Or.imp_left fun hst => ?_)) _
      exact Bool.eq_false_iff.2 (mt (timersRun_iff _).1 hst)
  case catchUp =>
    have hfree := freeSlot_some hv hfirst
    refine ⟨fun e a he ha => ?_, fun he => ?_, fun e he ha => ?_⟩
    · exact next_onCtl_eq hlow (Ctl.grantSlot_catchUp hfree hcatch
        (startJob_of (c := { s.ctl with catchUps := rest }) he ha))
    · refine next_onCtl_eq hlow ((Ctl.grantSlot_damaged hfree hcatch fun e' he' => ?_).trans
        (Ctl.catchUpDamaged_gone (c := { s.ctl with catchUps := rest }) he _))
      cases he.symm.trans he'
    · refine next_onCtl_eq hlow ((Ctl.grantSlot_damaged hfree hcatch fun e' he' => ?_).trans
        (Ctl.catchUpDamaged_eq (c := { s.ctl with catchUps := rest }) he _))
      cases he.symm.trans he'
      exact ha
  case walk =>
    have hst := (timersRun_iff _).2 hruns
    have hfree : ∃ w, s.ctl.freeSlot = some w :=
      Option.ne_none_iff_exists'.1 fun hno => freeSlot_none.1 hno v hv
    obtain ⟨w, hfree⟩ := hfree
    have hstep := exec_walkStep (s := { s with ctl := { s.ctl with repair := { t with waiting := false } :: rest } })
      hlow hst rfl rfl
    exact (next_onCtl_eq hlow (Ctl.grantSlot_walk hfree hcatch hrep hwait hst _)).trans hstep.symm

end Sys2Proof.Machine
end

