-- ==== Sys2Proof/Proofs/WalkSteps.lean ====
section
/-!
PROOFS. A step of the head task's walk (R150 to R153).
-/

namespace Sys2Proof.Machine

/-! ## When a step is due -/

theorem walkDue_iff {c : Ctl} {b : Bool} : c.walkDue b = true ↔
    c.station.timersRun = true ∧ ∃ t rest, c.repair = t :: rest ∧ t.waiting = false ∧ t.isRecheck = b := by
  unfold Ctl.walkDue
  cases c.repair <;> simp

theorem isRecheck_departure (p : Station) (cursor : Nat) (w : Bool) :
    ({ kind := .departure p, cursor := cursor, waiting := w } : Task).isRecheck = false := rfl

theorem isRecheck_recheck (seen again : Bool) (cursor : Nat) (w : Bool) :
    ({ kind := .recheck seen again, cursor := cursor, waiting := w } : Task).isRecheck = true := rfl

/-- A step that is not due, for want of its state or of a head task of its kind that walks. -/
theorem exec_walk_idle {s : State} {i : Instr} (hi : i = .departureWalkStep ∨ i = .recheckWalkStep)
    (h : ¬ (s.ctl.station = .active ∨ s.ctl.station = .frozen) ∨ s.ctl.repair = [] ∨
      (∃ t rest, s.ctl.repair = t :: rest ∧ (t.waiting = true ∨ (t.isRecheck = true ↔ i = .departureWalkStep)))) :
    exec i s = .next s := by
  have hdue (b : Bool) (hb : b = true ↔ i = .recheckWalkStep) : ¬ s.ctl.walkDue b = true := by
    rw [walkDue_iff]
    rintro ⟨hst, t, rest, hrep, hwait, rfl⟩
    rcases h with h | h | ⟨t', rest', hrep', h⟩
    · exact h ((timersRun_iff _).1 hst)
    · cases hrep.symm.trans h
    · cases hrep.symm.trans hrep'
      rcases hi with rfl | rfl <;> simp_all
  rcases hi with rfl | rfl
  · exact next_onCtl_same fun _ => if_neg (hdue false (by simp))
  · exact next_onCtl_same fun _ => if_neg (hdue true (by simp))

/-! ## The end of a walk -/

theorem Ctl.onHead_of {c : Ctl} {t : Task} {rest : List Task} (h : c.repair = t :: rest) (f : Task → Task) :
    c.onHead f = { c with repair := f t :: rest } := by
  simp only [Ctl.onHead, h]

theorem Ctl.popTask_eq {c : Ctl} {t : Task} {rest : List Task} (h : c.repair = t :: rest) :
    c.popTask = { c with repair := rest }.onHead Task.begun := by
  unfold Ctl.popTask
  rw [h, List.tail_cons]

theorem Ctl.departureStep_end {c : Ctl} {t : Task} (h : ∀ e ∈ c.dir, e.id.key < t.cursor) (k : Env) (p : Station) :
    c.departureStep k t p = c.popTask := by
  unfold Ctl.departureStep
  rw [walkAt_none h]

theorem Ctl.recheckStep_end {c : Ctl} {t : Task} (h : ∀ e ∈ c.dir, e.id.key < t.cursor) (k : Env) (again : Bool) :
    c.recheckStep k t again =
      if again then c.onHead (fun t => { t with kind := .recheck true false, cursor := 0 }) else c.popTask := by
  unfold Ctl.recheckStep
  rw [walkAt_none h]

/-! ## The step at an entry -/

theorem setDepth_zero (e : Entry) (p : Station) : e.setDepth p 0 = { e with depths := vput e.depths p 0 } := by
  simp [Entry.setDepth]

theorem Ctl.departureStep_table {c : Ctl} {t : Task} {e : Entry} (h : c.walkAt t.cursor = some e) (hown : e.role = .own)
    (htable : ∃ y ∈ c.et, y.seq = e.id.seq) (k : Env) (p : Station) :
    c.departureStep k t p = c.advanceHead e false := by
  have hin : c.inTable e.id.seq = true := List.any_eq_true.2 (by simpa using htable)
  simp only [Ctl.departureStep, h, hown, hin, decide_true, Bool.and_self, if_true]

/-- An update asks for no RECHECK while another page is under-copied. -/
theorem Ctl.update_under {c : Ctl} {id : PageId} (h : ∃ y ∈ c.dir, y.under = true ∧ y.id ≠ id) (k : Env)
    (f : Entry → Entry) :
    c.update k id f = { c with dir := c.dir.map (fun y => if y.id = id then c.flagged k (f y) else y) } := by
  obtain ⟨y, hy, hunder, hid⟩ := h
  have hbefore : underCount c.dir ≠ 0 := underCount_pos ⟨y, hy, hunder⟩
  have hafter : underCount (c.dir.map (fun y => if y.id = id then c.flagged k (f y) else y)) ≠ 0 :=
    underCount_pos ⟨y, List.mem_map.2 ⟨y, hy, if_neg hid⟩, hunder⟩
  exact (if_neg hafter).trans (if_neg hbefore)

/-- The directory with one station's depth in one entry set to 0. -/
def Ctl.clearedDir (c : Ctl) (k : Env) (id : PageId) (p : Station) : List Entry :=
  c.dir.map (fun y => if y.id = id then
    { y with depths := vput y.depths p 0, under := c.underCopied k { y with depths := vput y.depths p 0 } } else y)

/-- Any other entry has the station's depth set to 0 before the decision. -/
theorem Ctl.departureStep_clear {c : Ctl} {t : Task} {e : Entry} (h : c.walkAt t.cursor = some e)
    (hfree : e.role = .replica ∨ ∀ y ∈ c.et, y.seq ≠ e.id.seq) (hunder : ∃ y ∈ c.dir, y.under = true ∧ y.id ≠ e.id)
    (k : Env) (p : Station) :
    c.departureStep k t p = Ctl.decideAt { c with dir := c.clearedDir k e.id p } k e.id e := by
  have hpass : ¬ (decide (e.role = .own) && c.inTable e.id.seq) = true := by
    simp only [Bool.and_eq_true, decide_eq_true_eq, Ctl.inTable, List.any_eq_true, beq_iff_eq]
    rintro ⟨hown, y, hy, hseq⟩
    rcases hfree with hrep | hnone
    · cases hown.symm.trans hrep
    · exact hnone y hy hseq
  have hupdate : c.update k e.id (fun e => e.setDepth p 0) = { c with dir := c.clearedDir k e.id p } := by
    rw [Ctl.update_under hunder]
    simp only [setDepth_zero]
    rfl
  unfold Ctl.departureStep
  rw [h]
  exact (if_neg hpass).trans (congrArg (Ctl.decideAt · k e.id e) hupdate)

theorem Ctl.recheckStep_entry {c : Ctl} {t : Task} {e : Entry} (h : c.walkAt t.cursor = some e) (k : Env) (again : Bool) :
    c.recheckStep k t again =
      (c.onHead (fun t => { t with kind := .recheck true again })).decideAt k e.id e := by
  simp only [Ctl.recheckStep, h]

theorem find_clearedDir {c : Ctl} {e : Entry} (h : c.entry e.id = some e) (k : Env) (p : Station) :
    (c.clearedDir k e.id p).find? (fun y => y.id == e.id) =
      some { e with depths := vput e.depths p 0, under := c.underCopied k { e with depths := vput e.depths p 0 } } := by
  have hkeep : (fun y : Entry => y.id == e.id) ∘ (fun y => if y.id = e.id then
      { y with depths := vput y.depths p 0, under := c.underCopied k { y with depths := vput y.depths p 0 } } else y) =
      (fun y => y.id == e.id) := by
    funext y
    dsimp only [Function.comp]
    split <;> rfl
  rw [Ctl.clearedDir, List.find?_map, hkeep, show c.dir.find? (fun y => y.id == e.id) = some e from h, Option.map_some,
    if_pos rfl]

/-- The repair target reads the directory for its length only. -/
theorem repairTarget_congr {c d : Ctl} (hst : d.station = c.station) (hpeers : d.peers = c.peers)
    (hblocks : d.blocks = c.blocks) (hpool : d.pool = c.pool) (hlen : d.dir.length = c.dir.length) (k : Env) (e : Entry)
    (r : Station) : d.repairTarget k e r = c.repairTarget k e r := by
  have hroom : d.replicaRoom = c.replicaRoom := by
    unfold Ctl.replicaRoom Ctl.openBlock
    rw [hlen, hblocks, hpool]
  have htest : d.takesRepair k e r = c.takesRepair k e r := by
    funext i
    unfold Ctl.takesRepair Ctl.countsPresent Ctl.countsFull
    rw [hst, hpeers, hroom]
  rw [repairTarget_eq, repairTarget_eq, htest]

/-- Settles O53: the walk's end, the entry passed over, or the decision of `decide_spec` at it. -/
theorem walkSteps : Obligations.WalkSteps := by
  intro s i hlow hi runs begun decided
  have hdecided {d : List Entry} {head : Task} {rest : List Task} {e e0 : Entry}
      (hexec : exec i s = .next
        { s with ctl := Ctl.decideAt { s.ctl with dir := d, repair := head :: rest } s.env e.id e0 })
      (he : d.find? (fun y => y.id == e.id) = some e) (h0 : e0.id = e.id) (hlen : d.length = s.ctl.dir.length) :
      decided d head rest e := by
    obtain ⟨hpass, hjob, hwait⟩ :=
      decide_spec (c := { s.ctl with dir := d, repair := head :: rest }) (k := s.env) rfl he h0
    have htarget : Ctl.repairTarget { s.ctl with dir := d, repair := head :: rest } s.env e s.env.me =
        s.ctl.repairTarget s.env e s.env.me :=
      repairTarget_congr (d := { s.ctl with dir := d, repair := head :: rest }) (c := s.ctl) rfl rfl rfl rfl hlen _ _ _
    rw [htarget] at hpass hjob hwait
    refine ⟨fun h => ?_, fun t v a hw ht hv hfirst hcatch ha => ?_, fun t hw ht hno => ?_⟩
    · exact hexec.trans (next_ctl_congr (hpass h))
    · exact hexec.trans (next_ctl_congr (hjob t v a hw ht hv hfirst hcatch ha))
    · exact hexec.trans (next_ctl_congr (hwait t hw ht hno))
  have hbegun {t : Task} {rest : List Task} (hrep : s.ctl.repair = t :: rest) :
      s.ctl.popTask = { s.ctl with repair := begun rest } := by
    rw [Ctl.popTask_eq hrep]
    cases rest <;> rfl
  refine ⟨exec_walk_idle hi, fun p cursor rest hidep hruns hrep => ?departure, fun seen again cursor rest hire hruns hrep => ?recheck⟩
  case departure =>
    subst hidep
    have hexec {d : Ctl} (h : s.ctl.departureStep s.env { kind := .departure p, cursor := cursor, waiting := false } p = d) :
        exec .departureWalkStep s = .next { s with ctl := d } := by
      refine (exec_walkStep hlow ((timersRun_iff _).2 hruns) hrep rfl).trans (next_ctl_congr ?_)
      rw [Ctl.walkStep, hrep]
      exact h
    refine ⟨fun hend => ?_, fun e hfind hentry => ⟨fun hown htable => ?_, fun hfree hunder => ?_⟩⟩
    · exact hexec ((Ctl.departureStep_end hend _ _).trans (hbegun hrep))
    · exact hexec ((Ctl.departureStep_table (c := s.ctl) (t := { kind := .departure p, cursor := cursor, waiting := false })
        hfind hown htable _ _).trans (advance_of hrep _ _))
    · intro told cleared
      have hstep := Ctl.departureStep_clear (c := s.ctl) (t := { kind := .departure p, cursor := cursor, waiting := false })
        hfind hfree hunder s.env p
      refine hdecided (hexec (hstep.trans ?_)) (find_clearedDir hentry s.env p) rfl (List.length_map _)
      exact congrArg (fun r => Ctl.decideAt { s.ctl with dir := s.ctl.clearedDir s.env e.id p, repair := r } s.env e.id e) hrep
  case recheck =>
    subst hire
    have hexec {d : Ctl} (h : s.ctl.recheckStep s.env { kind := .recheck seen again, cursor := cursor, waiting := false }
        again = d) : exec .recheckWalkStep s = .next { s with ctl := d } := by
      refine (exec_walkStep hlow ((timersRun_iff _).2 hruns) hrep rfl).trans (next_ctl_congr ?_)
      rw [Ctl.walkStep, hrep]
      exact h
    refine ⟨fun hend => ?_, fun e hfind hentry => ?_⟩
    · refine hexec ((Ctl.recheckStep_end hend _ _).trans ?_)
      cases again
      · exact hbegun hrep
      · exact Ctl.onHead_of hrep _
    · exact hdecided (hexec ((Ctl.recheckStep_entry (c := s.ctl)
        (t := { kind := .recheck seen again, cursor := cursor, waiting := false }) hfind _ _).trans
          (congrArg (Ctl.decideAt · s.env e.id e) (Ctl.onHead_of hrep _)))) hentry rfl rfl

end Sys2Proof.Machine
end

