-- ==== Sys2Proof/Proofs/RepairTimers.lean ====
section
/-!
PROOFS. The timers of the copy jobs and the recheck timer (R146, R148, R153).
-/

namespace Sys2Proof.Machine

/-! ## A COPY is requested again -/

theorem Ctl.requestCopy_free {c : Ctl} {slot : Fin 2} {j : Job} (hj : c.jobs.get slot = some j)
    (h : ∀ f ∈ c.tx.held, f.isAnyCopy = false) :
    c.requestCopy slot = { c with
      jobs := vput c.jobs slot (some { j with state := .queued, owed := false, timer := none,
                                              attempts := j.attempts + 1 }),
      tx := c.tx.request (.copy j.page j.target slot) } := by
  have hnone : c.tx.held.any TxBody.isAnyCopy = false := List.any_eq_false.2 (by simpa using h)
  simp only [Ctl.requestCopy, hj, hnone, Bool.false_eq_true, if_false]
  rfl

theorem Ctl.requestCopy_owed {c : Ctl} {slot : Fin 2} {j : Job} (hj : c.jobs.get slot = some j)
    (h : ∃ f ∈ c.tx.held, f.isAnyCopy = true) :
    c.requestCopy slot = { c with
      jobs := vput c.jobs slot (some { j with state := .queued, owed := true, timer := none }) } := by
  have hany : c.tx.held.any TxBody.isAnyCopy = true := List.any_eq_true.2 h
  simp only [Ctl.requestCopy, hj, hany, if_true]
  rfl

/-! ## A job's timer -/

theorem Ctl.jobExpired_quiet {c : Ctl} {slot : Fin 2} (h : c.station.timersRun = false ∨
      ∀ j, c.jobs.get slot = some j → j.state ≠ .awaiting ∨ j.timer ≠ some 0) (k : Env) :
    c.jobExpired k slot = c := by
  unfold Ctl.jobExpired
  cases hj : c.jobs.get slot with
  | none => rfl
  | some j =>
    refine if_neg ?_
    simp only [Bool.and_eq_true, decide_eq_true_eq]
    rintro ⟨⟨hstate, htimer⟩, hst⟩
    rcases h with h | h
    · rw [h] at hst
      cases hst
    · exact (h j hj).elim (absurd hstate) (absurd htimer)

/-- The deadline of a job that awaits its answer: another attempt, or the end of the job. -/
theorem Ctl.jobExpired_due {c : Ctl} {slot : Fin 2} {j : Job} (hst : c.station.timersRun = true)
    (hj : c.jobs.get slot = some j) (hstate : j.state = .awaiting) (htimer : j.timer = some 0) (k : Env) :
    (j.attempts < 4 → c.jobExpired k slot = c.requestCopy slot) ∧
    (4 ≤ j.attempts → j.purpose = .repair → c.jobExpired k slot = c.setJob slot none) ∧
    (4 ≤ j.attempts → j.purpose = .catchUp →
      c.jobExpired k slot = ((c.setJob slot none).loseTarget k j.page.seq j.target).sweepAll k) := by
  have hdue : (decide (j.state = .awaiting) && decide (j.timer = some 0) && c.station.timersRun) = true := by
    simp [hstate, htimer, hst]
  unfold Ctl.jobExpired
  simp only [hj, hdue, if_true]
  refine ⟨fun h => if_pos h, fun h hp => ?_, fun h hp => ?_⟩
  all_goals
    rw [if_neg (by omega), hp]

/-! ## The recheck timer -/

/-- What a RECHECK request leaves of a task while one stands (R153). -/
def Task.askAgain (t : Task) : Task :=
  match t.kind with
  | .recheck true _ => { t with kind := .recheck true true }
  | .recheck false _ => t
  | .departure _ => t

theorem Task.askAgain_other {t : Task} (h : t.isRecheck = false) : t.askAgain = t := by
  obtain ⟨kind, cursor, waiting⟩ := t
  cases kind with
  | recheck seen again => cases h
  | departure p => rfl

theorem Task.askAgain_unseen {t : Task} {again : Bool} (h : t.kind = .recheck false again) : t.askAgain = t := by
  obtain ⟨kind, cursor, waiting⟩ := t
  cases h
  rfl

theorem Task.askAgain_seen {t : Task} {again : Bool} (h : t.kind = .recheck true again) :
    t.askAgain = { t with kind := .recheck true true } := by
  obtain ⟨kind, cursor, waiting⟩ := t
  cases h
  rfl

/-- A request while one RECHECK stands. -/
theorem Ctl.requestRecheck_standing {c : Ctl} {l l' : List Task} {t : Task} (hrep : c.repair = l ++ t :: l')
    (hothers : ∀ y ∈ l ++ l', y.isRecheck = false) (ht : t.isRecheck = true) :
    c.requestRecheck = { c with repair := l ++ t.askAgain :: l' } := by
  have hany : c.repair.any Task.isRecheck = true := List.any_eq_true.2 ⟨t, by simp [hrep], ht⟩
  have hmap : c.repair.map Task.askAgain = l ++ t.askAgain :: l' := by
    have hkeep : ∀ m : List Task, (∀ y ∈ m, y.isRecheck = false) → m.map Task.askAgain = m := fun m hm =>
      (List.map_congr_left fun y hy => Task.askAgain_other (hm y hy)).trans (List.map_id' m)
    rw [hrep, List.map_append, List.map_cons, hkeep l fun y hy => hothers y (by simp [hy]),
      hkeep l' fun y hy => hothers y (by simp [hy])]
  exact (if_pos hany).trans (congrArg (fun r => { c with repair := r }) hmap)

theorem Ctl.recheckExpired_quiet {c : Ctl} (h : c.station.timersRun = false ∨ c.recheck ≠ some 0) :
    c.recheckExpired = c := by
  refine if_neg ?_
  simp only [Bool.and_eq_true, decide_eq_true_eq]
  rintro ⟨hzero, hst⟩
  rcases h with h | h
  · rw [h] at hst
    cases hst
  · exact h hzero

theorem Ctl.recheckExpired_due {c : Ctl} (hst : c.station.timersRun = true) (h : c.recheck = some 0) :
    c.recheckExpired = Ctl.requestRecheck { c with recheck := some 5000 } :=
  if_pos (by simp [hst, h])

/-- Settles O39: the job's deadline by its attempts, the recheck timer by the RECHECK that stands. -/
theorem repairTimers : Obligations.RepairTimers := by
  intro s hlow runs
  have hrun (h : runs) : s.ctl.station.timersRun = true := (timersRun_iff _).2 h
  have hstop (h : ¬ runs) : s.ctl.station.timersRun = false := Bool.eq_false_iff.2 (mt (timersRun_iff _).1 h)
  refine ⟨fun slot => ⟨fun h => ?quiet, fun j hruns hj hstate htimer => ?due⟩, fun h => ?idle, fun hruns hzero => ?recheck⟩
  case quiet => exact next_onCtl_eq hlow (Ctl.jobExpired_quiet (h.imp_left hstop) _)
  case due =>
    obtain ⟨hagain, hrepair, hcatch⟩ := Ctl.jobExpired_due (hrun hruns) hj hstate htimer s.env
    refine ⟨fun hfew hfree => ?_, fun hfew hheld => ?_, fun hmany hp => ?_, fun hmany hp => ?_⟩
    · exact next_onCtl_eq hlow ((hagain hfew).trans (Ctl.requestCopy_free hj hfree))
    · exact next_onCtl_eq hlow ((hagain hfew).trans (Ctl.requestCopy_owed hj hheld))
    · exact next_onCtl_eq hlow (hrepair hmany hp)
    · exact next_onCtl_eq hlow (hcatch hmany hp)
  case idle => exact next_onCtl_eq hlow (Ctl.recheckExpired_quiet (h.imp_left hstop))
  case recheck =>
    have hexp := Ctl.recheckExpired_due (hrun hruns) hzero
    refine ⟨fun hnone => ?_, fun l t l' hrep hothers => ?_⟩
    · exact next_onCtl_eq hlow (hexp.trans (requestRecheck_new (c := { s.ctl with recheck := some 5000 }) hnone))
    · have hstand (ht : t.isRecheck = true) := hexp.trans
        (Ctl.requestRecheck_standing (c := { s.ctl with recheck := some 5000 }) hrep hothers ht)
      refine ⟨fun hkind => ?_, fun again hkind => ?_⟩
      · refine next_onCtl_eq hlow ((hstand (by rw [Task.isRecheck, hkind])).trans ?_)
        rw [Task.askAgain_unseen hkind, ← hrep]
      · refine next_onCtl_eq hlow ((hstand (by rw [Task.isRecheck, hkind])).trans ?_)
        rw [Task.askAgain_seen hkind]

end Sys2Proof.Machine
end

