-- ==== Sys2Proof/Proofs/FrameAttempts.lean ====
section
/-!
PROOFS. The transmitter: the start of a frame and the end of an attempt (R76, R77, R84, R85, R87, R89, R174).
-/

namespace Sys2Proof.Machine

/-! ## What may be sent (R84) -/

theorem sendable_presence (p : PresenceBody) (st : StationState) :
    (TxBody.presence p).sendable st = true ↔ st ≠ .mounting ∧ st ≠ .isolated := by
  cases st <;> simp [TxBody.sendable, TxBody.cls]

theorem sendable_answer (a : AnswerBody) (st : StationState) :
    (TxBody.answer a).sendable st = true ↔ st = .active ∨ st = .frozen ∨ st = .leaving := by
  cases st <;> simp [TxBody.sendable, TxBody.cls]

theorem sendable_record {b : TxBody} (h : 2 ≤ b.cls) (st : StationState) :
    b.sendable st = true ↔ st = .active ∨ st = .frozen := by
  have h0 : (b.cls == 0) = false := beq_false_of_ne (by omega)
  have h1 : (b.cls == 1) = false := beq_false_of_ne (by omega)
  cases st <;> simp [TxBody.sendable, h0, h1]

/-! ## The start of a frame -/

theorem Ctl.startFrame_quiet {c : Ctl} (k : Env) (h : c.tx.onAir ≠ none ∨ (∃ b, c.rx.get b = .claimed) ∨
    (∀ e ∈ c.tx.entries, e.sending = false → ¬ e.body.sendable c.station = true)) : c.startFrame k = c := by
  unfold Ctl.startFrame
  rcases h with hair | hrx | hnone
  · rw [if_pos (by simp [Option.isSome_iff_ne_none, hair])]
  · rw [if_pos (by simp [receiving_true hrx])]
  · rw [chosen_none fun e he hs => Bool.eq_false_iff.2 (hnone e he hs)]
    split <;> rfl

theorem Ctl.startFrame_of {c : Ctl} {k : Env} {e : TxEntry} {f : Frame} (hair : c.tx.onAir = none)
    (hrx : ∀ b, c.rx.get b ≠ .claimed) (hchosen : c.tx.chosen c.station = some e) (hframe : c.frameOf k e.body = some f) :
    c.startFrame k = { c with tx := { c.tx with
      onAir := some { num := e.num, frame := f.send k.me },
      entries := c.tx.entries.map (fun x => if x.num = e.num then { x with sending := true, renewed := false } else x) } } := by
  have hidle : (c.tx.onAir.isSome || c.receiving) = false := by simp [hair, receiving_false hrx]
  simp only [Ctl.startFrame, hidle, Bool.false_eq_true, if_false, hchosen, hframe]
  rfl

/-! ## What a frame carries -/

theorem extentData_fill {c : Ctl} {b : Fin 2} {p : FillPage} (h : c.fill.get b = some p) (i : ExtentInfo) :
    c.extentData (.fill b) i = Memory.readRun clearByte p.bytes (i.first * 512) (i.count * 512) := by
  simp only [Ctl.extentData, h]
  rfl

theorem extentData_free {c : Ctl} {b : Fin 2} (h : c.fill.get b = none) (i : ExtentInfo) :
    c.extentData (.fill b) i = [] := by
  simp only [Ctl.extentData, h]

theorem frameOf_copy {c : Ctl} {k : Env} {id : PageId} {target : Station} {slot : Fin 2} {j : Job} {n : Nat}
    (hj : c.jobs.get slot = some j) (hn : j.n = some n) :
    c.frameOf k (.copy id target slot) = some (.copy
      { origin := byteOf id.origin.val, seq := id.seq, target := byteOf target.val, flags := bitOf j.closed 0,
        descs := (imageExtents j.image n).map ExtentInfo.desc, depths := c.depthVector id,
        data := Memory.readRun erasedByte j.image 0 (imageEnd j.image n * 512) }) := by
  simp only [Ctl.frameOf, hj, hn, Memory.slots, Nat.zero_mul]

/-! ## The end of an attempt -/

theorem sendingEntry_none {t : Tx} (h : t.onAir = none) : t.sendingEntry = none := by
  simp only [Tx.sendingEntry, h]

theorem sendingEntry_of {t : Tx} {o : OnAir} (h : t.onAir = some o) :
    t.sendingEntry = t.entries.find? (fun x => x.num == o.num) := by
  simp only [Tx.sendingEntry, h]

/-- The queue after an attempt at an entry that was not sent whole. -/
def Tx.attemptOver (t : Tx) (e : TxEntry) : Tx :=
  { t with onAir := none, entries :=
      if e.withdrawn then t.entries.filter (fun x => x.num != e.num)
      else t.entries.map (fun x => if x.num = e.num then { x with sending := false, renewed := false } else x) }

/-- An attempt over leaves the queue so, and with a withdrawn COPY a cancelled job's slot FREE. -/
theorem Ctl.endAttempt_eq {c : Ctl} {o : OnAir} {e : TxEntry} (ho : c.tx.onAir = some o)
    (he : c.tx.entries.find? (fun x => x.num == o.num) = some e) :
    ∃ jobs, c.endAttempt = { c with tx := c.tx.attemptOver e, jobs := jobs } ∧
      (e.withdrawn = false → jobs = c.jobs) ∧
      (e.withdrawn = true → ∀ id t slot j, e.body = .copy id t slot → c.jobs.get slot = some j →
        jobs = if j.cancelled then vput c.jobs slot none else c.jobs) := by
  obtain ⟨hstay, hleave⟩ := endAttempt_of ho he
  cases hw : e.withdrawn with
  | false =>
    refine ⟨c.jobs, (hstay hw).trans ?_, fun _ => rfl, nofun⟩
    simp only [Tx.attemptOver, hw, Bool.false_eq_true, if_false]
  | true =>
    have hqueue : c.tx.attemptOver e =
        { c.tx with onAir := none, entries := c.tx.entries.filter (fun x => x.num != e.num) } := by
      simp only [Tx.attemptOver, hw, if_true]
    rw [hqueue]
    have hshape := Machine.freeCancelled_shape
      { c with tx := { c.tx with onAir := none, entries := c.tx.entries.filter (fun x => x.num != e.num) } } e.body
    obtain ⟨jobs, hfree, hjobs, -⟩ := hshape
    exact ⟨jobs, (hleave hw).trans hfree, nofun, fun _ => hjobs⟩

/-! ## ISOLATED by the fault count (R74, R89) -/

theorem Ctl.isolate_idle {c : Ctl} (h : c.tx.onAir = none) :
    c.isolate.tx = c.tx ∧ c.isolate.jobs = c.jobs := by
  have hcut : Ctl.cutShort { c with presence := none, window := none, station := .isolated } =
      { c with presence := none, window := none, station := .isolated } := by
    simp only [Ctl.cutShort, sendingEntry_none h]
  have hisolate : c.isolate = Ctl.hand { c with presence := none, window := none, station := .isolated } .fault :=
    congrArg (Ctl.hand · .fault) hcut
  rw [hisolate]
  exact ⟨rfl, rfl⟩

theorem Ctl.isolate_cuts {c : Ctl} {o : OnAir} {e : TxEntry} (ho : c.tx.onAir = some o)
    (he : c.tx.entries.find? (fun x => x.num == o.num) = some e) : c.isolate.tx.onAir = none := by
  have hno : e.body.sendable .isolated = false := rfl
  obtain ⟨jobs, hend, -, -⟩ := Ctl.endAttempt_eq
    (c := { c with presence := none, window := none, station := .isolated }) ho he
  have hcut : Ctl.cutShort { c with presence := none, window := none, station := .isolated } =
      Ctl.endAttempt { c with presence := none, window := none, station := .isolated } := by
    simp only [Ctl.cutShort, sendingEntry_of ho, he, hno, Bool.false_eq_true, if_false]
  have hisolate : c.isolate = Ctl.hand _ .fault := congrArg (Ctl.hand · .fault) (hcut.trans hend)
  rw [hisolate]
  rfl

/-- Settles O40: the entry by `chosen_first`, the attempt's end by `endAttempt_eq`, ISOLATED by `isolate_shape`. -/
theorem frameStartAndFailure : Obligations.FrameStartAndFailure := by
  refine ⟨fun s hlow => ?start, fun s i hlow hi => ⟨fun hair => ?none, fun o e ho he => ?attempt, fun h => ?few,
    fun hfaults hiso hmount => ?many⟩⟩
  case start =>
    intro maySend rank vector
    have hmay (b : TxBody) : b.sendable s.ctl.station = true ↔ maySend b := by
      cases b with
      | presence p => exact sendable_presence p _
      | answer a => exact sendable_answer a _
      | holdings h => exact sendable_record (b := .holdings h) (by decide : 2 ≤ 2) _
      | extent seq i m src => exact sendable_record (b := .extent seq i m src) (by decide : 2 ≤ 3) _
      | copy id t slot => exact sendable_record (b := .copy id t slot) (by decide : 2 ≤ 3) _
    have hrank (b : TxBody) : rank b = b.cls := by cases b <;> rfl
    refine ⟨fun h => ?_, fun l e l' f hair hrx hentries hs hsend hbefore hafter hframe => ?_⟩
    · exact next_onCtl_eq hlow (Ctl.startFrame_quiet _
        (h.imp_right (Or.imp_right fun hnone e he hs hsend => hnone e he hs ((hmay _).1 hsend))))
    · have hchosen : s.ctl.tx.chosen s.ctl.station = some e := by
        refine chosen_first hentries hs ((hmay _).2 hsend) (fun y hy hys hysend => ?_) (fun y hy hys hysend => ?_)
        · rw [← hrank, ← hrank]
          exact hbefore y hy hys ((hmay _).1 hysend)
        · rw [← hrank, ← hrank]
          exact hafter y hy hys ((hmay _).1 hysend)
      refine next_onCtl_eq hlow (Ctl.startFrame_of hair hrx hchosen ?_)
      cases hb : e.body with
      | presence p => rw [hb] at hframe; exact congrArg some hframe.symm
      | answer a => rw [hb] at hframe; exact congrArg some hframe.symm
      | holdings h => rw [hb] at hframe; exact congrArg some hframe.symm
      | extent seq i m src =>
        rw [hb] at hframe
        obtain ⟨data, rfl, hfill, hempty, hback⟩ := hframe
        have hdata : s.ctl.extentData src i = data := by
          cases src with
          | readBack => exact (hback rfl).symm
          | fill b =>
            cases hp : s.ctl.fill.get b with
            | none => exact (extentData_free hp i).trans (hempty b rfl hp).symm
            | some p => exact (extentData_fill hp i).trans (hfill b p rfl hp).symm
        exact hdata ▸ rfl
      | copy id target slot =>
        rw [hb] at hframe
        obtain ⟨j, n, hj, hn, rfl⟩ := hframe
        exact frameOf_copy hj hn
  case none =>
    have hno : ¬ s.ctl.tx.onAir.isSome = true := by simp [hair]
    rcases hi with rfl | rfl
    · exact next_onCtl_same fun _ => if_neg hno
    · exact next_onCtl_same fun _ => if_neg hno
  case attempt =>
    intro faults
    obtain ⟨jobs, hend, hsame, hcopy⟩ := Ctl.endAttempt_eq ho he
    have hair : s.ctl.tx.onAir.isSome = true := by simp [ho]
    have hexec : exec i s = .next
        { s with
          ctl := Ctl.sweep { s.ctl with tx := { s.ctl.tx.attemptOver e with faults := faults }, jobs := jobs } s.env } := by
      rcases hi with rfl | rfl
      · exact next_onCtl_eq hlow ((if_pos hair).trans (congrArg (Ctl.sweep · s.env) hend))
      · refine next_onCtl_eq hlow ((if_pos hair).trans (congrArg (Ctl.sweep · s.env) ?_))
        rw [hend]
        rfl
    refine ⟨_, hexec, (sweep_calm_self _ _).still rfl, ?_, ?_, ?_, ?_, ?_, fun hw => ?_, fun hw => ⟨?_, ?_⟩⟩
    · rw [Ctl.sweep_dir]
    · rw [Ctl.sweep_et]
    · rw [Ctl.sweep_rx]
    · rw [Ctl.sweep_port]
    · rw [Ctl.sweep_alerts]
    · rw [Ctl.sweep_jobs, Ctl.sweep_tx]
      refine ⟨hsame hw, ?_⟩
      simp only [Tx.attemptOver, hw, Bool.false_eq_true, if_false]
    · rw [Ctl.sweep_tx]
      simp only [Tx.attemptOver, hw, if_true]
    · intro id t slot j hbody hj
      rw [Ctl.sweep_jobs]
      exact hcopy hw id t slot j hbody hj
  case few =>
    refine next_onCtl_same fun _ => if_neg ?_
    rintro ⟨hfaults, hiso, hmount⟩
    rcases h with h | h | h
    · omega
    · exact hiso h
    · exact hmount h
  case many =>
    obtain ⟨tx, jobs, hshape⟩ := isolate_shape s.ctl
    have hexec : exec .faultCountLimit s = .next { s with ctl := s.ctl.isolate.sweep s.env } :=
      next_onCtl_eq hlow (if_pos ⟨hfaults, hiso, hmount⟩)
    have hstill := (sweep_calm_self s.ctl.isolate s.env).still rfl
    refine ⟨_, hexec, hstill.trans ?_, ?_, ?_, ?_, ?_, ?_, fun hair => ?_, fun o ho hfind => ?_⟩
    · rw [hshape]
      rfl
    · rw [Ctl.sweep_alerts, hshape]
    · rw [Ctl.sweep_dir, hshape]
    · rw [Ctl.sweep_et, hshape]
    · rw [Ctl.sweep_rx, hshape]
    · rw [Ctl.sweep_port, hshape]
    · rw [Ctl.sweep_tx, Ctl.sweep_jobs]
      exact Ctl.isolate_idle hair
    · obtain ⟨e, he⟩ := hfind
      rw [Ctl.sweep_tx]
      exact Ctl.isolate_cuts ho he

end Sys2Proof.Machine
end

