-- ==== Sys2Proof/Proofs/FrameSent.lean ====
section
/-!
PROOFS. A frame has been sent whole (R85, R87, R89, R118, R146, R155).
-/

namespace Sys2Proof.Machine

/-! ## The owner is told -/

/-- The end of a frame told to its owner; a withdrawn frame's owner is told no more than that it is gone. -/
def Ctl.ownerTold (c : Ctl) (k : Env) (e : TxEntry) : Ctl :=
  if e.withdrawn then c.freeCancelled e.body else c.tellSent k e.body

theorem Ctl.sentWhole_of {c : Ctl} {o : OnAir} {e : TxEntry} (ho : c.tx.onAir = some o)
    (he : c.tx.entries.find? (fun x => x.num == o.num) = some e) (k : Env) :
    c.sentWhole k = (Ctl.ownerTold { c with tx := c.tx.sent e } k e).sweep k := by
  simp only [Ctl.sentWhole, ho, Option.isNone_some, Bool.false_eq_true, if_false, sendingEntry_of ho, he]
  rfl

theorem Ctl.extentSent_eq (c : Ctl) (seq : Word) (ext : Nat) :
    c.extentSent seq ext = { c with et := c.et.map (fun y =>
      if y.seq = seq ∧ y.ext = ext then
        { y with firstSent := true,
                 timer := if c.extentStands seq ext || decide (y.settled ≠ .none) then none else some 40 }
      else y) } := by
  have hunsettled (y : ETEntry) : (!y.unsettled) = decide (y.settled ≠ .none) := by
    simp [ETEntry.unsettled]
  unfold Ctl.extentSent Ctl.onPageEntries
  simp only [← ite_and, hunsettled]
  rfl

/-- The job whose COPY has gone out (R146, R149). -/
theorem Ctl.copySent_eq (c : Ctl) (slot : Fin 2) :
    ∃ jobs, c.copySent slot = { c with jobs := jobs } ∧
      ∀ j, c.jobs.get slot = some j →
        (j.cancelled = true → jobs = vput c.jobs slot none) ∧
        (j.cancelled = false → j.owed = false →
          jobs = vput c.jobs slot (some { j with state := .awaiting, timer := some 40 })) := by
  unfold Ctl.copySent
  cases hj : c.jobs.get slot with
  | none => exact ⟨c.jobs, rfl, nofun⟩
  | some j =>
    cases hc : j.cancelled with
    | true =>
      refine ⟨vput c.jobs slot none, if_pos hc, fun i hi => ?_⟩
      cases hi
      exact ⟨fun _ => rfl, fun h => absurd (hc.symm.trans h) Bool.noConfusion⟩
    | false =>
      cases ho : j.owed with
      | true =>
        refine ⟨c.jobs, (if_neg (by simp [hc])).trans (if_pos ho), fun i hi => ?_⟩
        cases hi
        exact ⟨fun h => absurd (hc.symm.trans h) Bool.noConfusion, fun _ h => absurd (ho.symm.trans h) Bool.noConfusion⟩
      | false =>
        refine ⟨vput c.jobs slot (some { j with state := .awaiting, timer := some 40 }),
          (if_neg (by simp [hc])).trans (if_neg (by simp [ho])), fun i hi => ?_⟩
        cases hi
        exact ⟨fun h => absurd (hc.symm.trans h) Bool.noConfusion, fun _ _ => rfl⟩

/-- The owner of a frame that was no HOLDINGS frame, or was withdrawn, changes its entry in the Extent Table or its job. -/
theorem Ctl.ownerTold_shape {c : Ctl} (k : Env) {e : TxEntry} (h : e.body.isHoldings = false ∨ e.withdrawn = true) :
    ∃ et jobs, c.ownerTold k e = { c with et := et, jobs := jobs } ∧
      (e.withdrawn = true ∨ e.body.isAnyExtent = false → et = c.et) ∧
      (e.body.isAnyCopy = false → jobs = c.jobs) ∧
      (∀ seq i m src, e.body = .extent seq i m src → e.withdrawn = false → et = (c.extentSent seq i.number).et) ∧
      (∀ id t slot j, e.body = .copy id t slot → c.jobs.get slot = some j →
        (j.cancelled = true → jobs = vput c.jobs slot none) ∧
        (j.cancelled = false → e.withdrawn = false → j.owed = false →
          jobs = vput c.jobs slot (some { j with state := .awaiting, timer := some 40 }))) := by
  unfold Ctl.ownerTold
  cases hw : e.withdrawn with
  | true =>
    obtain ⟨jobs, hfree, hcopy, hother⟩ := Machine.freeCancelled_shape c e.body
    refine ⟨c.et, jobs, hfree, fun _ => rfl, hother, nofun, fun id t slot j hb hj => ⟨fun hc => ?_, nofun⟩⟩
    rw [hcopy id t slot j hb hj, if_pos hc]
  | false =>
    cases hb : e.body with
    | presence p => exact ⟨c.et, c.jobs, rfl, fun _ => rfl, fun _ => rfl, nofun, nofun⟩
    | answer a => exact ⟨c.et, c.jobs, rfl, fun _ => rfl, fun _ => rfl, nofun, nofun⟩
    | holdings b =>
      rw [hb, hw] at h
      exact absurd h (by simp [TxBody.isHoldings, TxBody.cls])
    | extent seq i m src =>
      refine ⟨_, c.jobs, c.extentSent_eq seq i.number, nofun, fun _ => rfl, ?_, nofun⟩
      rintro seq' i' m' src' ⟨⟩ -
      rw [Ctl.extentSent_eq]
    | copy id t slot =>
      obtain ⟨jobs, hsent, hjobs⟩ := c.copySent_eq slot
      refine ⟨c.et, jobs, hsent, fun _ => rfl, nofun, nofun, ?_⟩
      rintro id' t' slot' j ⟨⟩ hj
      obtain ⟨hcancelled, hawaits⟩ := hjobs j hj
      exact ⟨hcancelled, fun hc _ => hawaits hc⟩

/-! ## The next frame of a series (R155) -/

theorem Ctl.holdingsSent_last {c : Ctl} {series : Series} (hs : c.holdings.series = some series)
    (hp : c.holdings.pending = false) (hl : series.lastSeries = true) (k : Env) :
    c.holdingsSent k = { c with holdings := { c.holdings with series := none, endedAt := some k.clock } } := by
  simp only [Ctl.holdingsSent, hs, hl, if_true, Ctl.actPending, hp, Bool.false_and, Bool.false_eq_true, if_false]

theorem Ctl.holdingsSent_next {c : Ctl} {series : Series} (hs : c.holdings.series = some series)
    (hl : series.lastSeries = false) (k : Env) :
    c.holdingsSent k = c.formHoldings k
      { series with group := if series.lastOrigin then series.group + 1 else series.group,
                    cursor := if series.lastOrigin then 0 else series.cursor,
                    index := if series.lastOrigin then 0 else series.index } := by
  simp only [Ctl.holdingsSent, hs, hl, Bool.false_eq_true, if_false]
  cases series.lastOrigin <;> rfl

/-- Settles O41: `sentWhole_of`, then what the owner does with it. -/
theorem sentWhole : Obligations.SentWhole := by
  intro s hlow
  refine ⟨fun hair => ?none, fun o e ho he => ?sent⟩
  case none => exact next_onCtl_same fun _ => if_pos (by simp [hair])
  case sent =>
    intro sent
    have hexec : exec .sentWhole s = .next
        { s with ctl := (Ctl.ownerTold { s.ctl with tx := sent } s.env e).sweep s.env } :=
      next_onCtl_eq hlow (Ctl.sentWhole_of ho he s.env)
    refine ⟨fun hkind => ?_, fun b series hb hw hseries hpending => ?_⟩
    · obtain ⟨et, jobs, htold, hsame, hjobs, hextent, hcopy⟩ :=
        Ctl.ownerTold_shape (c := { s.ctl with tx := sent }) s.env hkind
      rw [htold] at hexec
      refine ⟨_, hexec, (sweep_calm_self _ _).still rfl, ?_, ?_, ?_, ?_, ?_, fun h => ?_, fun h => ?_,
        fun seq i m src hb hw => ?_, fun id t slot j hb hj => ?_⟩
      · rw [Ctl.sweep_dir]
      · rw [Ctl.sweep_rx]
      · rw [Ctl.sweep_port]
      · rw [Ctl.sweep_alerts]
      · rw [Ctl.sweep_tx]
      · rw [Ctl.sweep_et]
        exact hsame h
      · rw [Ctl.sweep_jobs]
        exact hjobs h
      · rw [Ctl.sweep_et]
        refine (hextent seq i m src hb hw).trans ?_
        rw [Ctl.extentSent_eq]
        rfl
      · rw [Ctl.sweep_jobs]
        exact hcopy id t slot j hb hj
    · have htold : Ctl.ownerTold { s.ctl with tx := sent } s.env e =
          Ctl.holdingsSent { s.ctl with tx := sent } s.env := by
        simp only [Ctl.ownerTold, hw, hb, Bool.false_eq_true, if_false, Ctl.tellSent]
      rw [htold] at hexec
      cases hl : series.lastSeries with
      | true =>
        rw [Ctl.holdingsSent_last (c := { s.ctl with tx := sent }) hseries hpending hl] at hexec
        refine ⟨_, hexec, ?_, ?_, ?_, ?_, ?_, ?_, fun _ => ⟨?_, ?_⟩, nofun⟩
        · rw [Ctl.sweep_dir]
        · rw [Ctl.sweep_et]
        · rw [Ctl.sweep_rx]
        · rw [Ctl.sweep_port]
        · rw [Ctl.sweep_alerts]
        · rw [Ctl.sweep_jobs]
        · rw [Ctl.sweep_tx]
        · rw [Ctl.sweep_holdings]
      | false =>
        rw [Ctl.holdingsSent_next (c := { s.ctl with tx := sent }) hseries hl] at hexec
        obtain ⟨next, flags, items, hforms, hform⟩ := formHoldings_spec { s.ctl with tx := sent } s.env
          { series with group := if series.lastOrigin then series.group + 1 else series.group,
                        cursor := if series.lastOrigin then 0 else series.cursor,
                        index := if series.lastOrigin then 0 else series.index }
        obtain ⟨hnum, hgroup, hindex, hitems⟩ := Ctl.formsHoldings_next hforms
        rw [hform] at hexec
        refine ⟨_, hexec, ?_, ?_, ?_, ?_, ?_, ?_, nofun, fun _ => ⟨next, flags, items, ?_⟩⟩
        · rw [Ctl.sweep_dir]
        · rw [Ctl.sweep_et]
        · rw [Ctl.sweep_rx]
        · rw [Ctl.sweep_port]
        · rw [Ctl.sweep_alerts]
        · rw [Ctl.sweep_jobs]
        · rw [Ctl.sweep_holdings, Ctl.sweep_tx]
          exact ⟨rfl, hnum, hgroup, hindex, hitems, hforms, rfl⟩

end Sys2Proof.Machine
end

