-- ==== Sys2Proof/Proofs/ReceiveBuffers.lean ====
section
/-!
PROOFS. The receiver's buffers and the dispatch of a frame that passes its checks (R74, R79 to R82, Table 5-2).
-/

namespace Sys2Proof.Machine

/-! ## Which states take which frames (Table 5-2) -/

theorem takesPresence_iff (st : StationState) : st.takesPresence = true ↔ st ≠ .mounting ∧ st ≠ .isolated := by
  cases st <;> simp [StationState.takesPresence]

theorem takesAnswer_iff (st : StationState) : st.takesAnswer = true ↔ st = .active ∨ st = .frozen ∨ st = .leaving := by
  cases st <;> simp [StationState.takesAnswer]

theorem takesData_iff (st : StationState) : st.takesData = true ↔ st = .active ∨ st = .frozen := by
  cases st <;> simp [StationState.takesData]

/-! ## The claim of a buffer (R80) -/

theorem byteOf_station_iff (t : Byte) (me : Station) : t = byteOf me.val ↔ t.toNat = me.val := by
  have hme : (byteOf me.val).toNat = me.val := toNat_byteOf (by omega)
  rw [← BitVec.toNat_inj, hme]

theorem Ctl.claim_none {c : Ctl} {k : Env} {a : Addressing} (h : Addressing.names a k.me = false ∨
    c.station.takesData = false ∨ (∃ b, c.rx.get b = .claimed) ∨ (∀ b, c.rx.get b ≠ .free)) : c.claim k a = c := by
  unfold Ctl.claim
  rcases h with hname | hst | hrx | hfull
  · rw [if_neg (by simp [hname])]
  · rw [if_neg (by simp [hst])]
  · rw [if_neg (by simp [receiving_true hrx])]
  · have hno : c.rxFind RxBuf.isFree = none :=
      (rxFind_none _).2 fun b => Bool.eq_false_iff.2 (mt (isFree_iff _).1 (hfull b))
    rw [hno]
    split <;> rfl

theorem Ctl.claim_of {c : Ctl} {k : Env} {a : Addressing} {b : Fin 4} (hname : Addressing.names a k.me = true)
    (hst : c.station.takesData = true) (hrx : ∀ v, c.rx.get v ≠ .claimed) (hb : c.rx.get b = .free)
    (hfirst : ∀ v, v < b → c.rx.get v ≠ .free) : c.claim k a = { c with rx := vput c.rx b .claimed } := by
  have hfind : c.rxFind RxBuf.isFree = some b := rxFind_some ((isFree_iff _).2 hb) fun v hv =>
    Bool.eq_false_iff.2 (mt (isFree_iff _).1 (hfirst v hv))
  unfold Ctl.claim
  rw [if_pos (by simp [hname, hst, receiving_false hrx]), hfind]
  rfl

theorem freeClaimed_none {c : Ctl} (h : ∀ b, c.rx.get b ≠ .claimed) : c.freeClaimed = c := by
  have hno : c.rxFind RxBuf.isClaimed = none :=
    (rxFind_none _).2 fun b => Bool.eq_false_iff.2 (mt (isClaimed_iff _).1 (h b))
  simp only [Ctl.freeClaimed, hno]

/-! ## The dispatch -/

section Dispatch

variable {c : Ctl} {k : Env} {src : Station} {takes : StationState → Bool} {g : Ctl → Ctl}

theorem Ctl.dispatch_deaf (h : c.station.takesPresence = false) : c.dispatch k src takes g = c := by
  simp only [Ctl.dispatch, h, Bool.not_false, if_true]

theorem Ctl.dispatch_clash (h : c.station.takesPresence = true) (hsrc : src = k.me) :
    c.dispatch k src takes g = c.freeClaimed.isolate.sweep k := by
  simp only [Ctl.dispatch, h, Bool.not_true, Bool.false_eq_true, if_false, hsrc, if_true]

theorem Ctl.dispatch_other (h : c.station.takesPresence = true) (hsrc : src ≠ k.me) :
    c.dispatch k src takes g = if takes c.station then g c else c.freeClaimed := by
  simp only [Ctl.dispatch, h, Bool.not_true, Bool.false_eq_true, if_false, hsrc]

end Dispatch

/-- A data frame that does not name the station frees its buffer. -/
theorem Ctl.keepData_other {c : Ctl} {b : Fin 4} (hb : c.rx.get b = .claimed) (hu : ∀ v, c.rx.get v = .claimed → v = b)
    (k : Env) (src : Station) (f : DataFrame) :
    c.keepData k src false f = { c with rx := vput c.rx b .free } := by
  have hfind : c.rxFind RxBuf.isClaimed = some b := rxFind_some ((isClaimed_iff _).2 hb) fun v hv =>
    Bool.eq_false_iff.2 fun hc => absurd (hu v ((isClaimed_iff _).1 hc)) (ne_of_lt hv)
  simp only [Ctl.keepData, hfind, Bool.false_eq_true, if_false]
  rfl

/-! ## The frames that are dispatched -/

section Hears

variable {c : Ctl} {f : Heard} {src : Station}

theorem hearPresence_of {b : PresenceBody} (h : Heard.receive f = some (src, .presence b)) (k : Env) :
    c.hearPresence k f = c.dispatch k src StationState.takesPresence (fun c => c.takePresence k src b) := by
  simp only [Ctl.hearPresence, h]

theorem hearAnswer_of {a : AnswerBody} (h : Heard.receive f = some (src, .answer a)) (k : Env) :
    c.hearAnswer k f = c.dispatch k src StationState.takesAnswer (fun c => c.takeAnswer k src a) := by
  simp only [Ctl.hearAnswer, h]

theorem hearHoldings_of {b : HoldingsBody} (h : Heard.receive f = some (src, .holdings b)) (k : Env) :
    c.hearHoldings k f = c.dispatch k src StationState.takesPresence (fun c => c.takeHoldings k src b) := by
  simp only [Ctl.hearHoldings, h]

theorem hearExtent_of {b : ExtentBody} (h : Heard.receive f = some (src, .extent b)) (k : Env) :
    c.hearExtent k f =
      c.dispatch k src StationState.takesData (fun c => c.keepData k src (has b.mask k.me) (.extent b)) := by
  simp only [Ctl.hearExtent, h]

theorem hearCopy_of {b : CopyBody} (h : Heard.receive f = some (src, .copy b)) (k : Env) :
    c.hearCopy k f =
      c.dispatch k src StationState.takesData (fun c => c.keepData k src (decide (b.target = byteOf k.me.val)) (.copy b)) := by
  simp only [Ctl.hearCopy, h]

end Hears

/-- Settles O42: the buffers by `rxFind`, the dispatch by the state, the source and who takes the kind. -/
theorem receiveBuffersAndDispatch : Obligations.ReceiveBuffersAndDispatch := by
  refine ⟨fun s hlow => ⟨fun a => ?claim, fun i hi => ⟨fun hno => ?nothing, fun b hb hu => ?freed⟩, fun f hf => ?good⟩,
    fun s f i src x b hlow hrec hi hb hu => ?dispatch⟩
  case claim =>
    intro named
    have hnames : Addressing.names a s.env.me = true ↔ named := by
      cases a with
      | extentMask m => exact Iff.rfl
      | copyTarget t => exact beq_iff_eq.trans (byteOf_station_iff t s.env.me)
    refine ⟨fun h => ?_, fun b hn hst hrx hb hfirst => ?_⟩
    · refine next_onCtl_same fun _ => Ctl.claim_none ?_
      refine h.imp (fun hn => Bool.eq_false_iff.2 (mt hnames.1 hn)) (Or.imp_left fun hst => ?_)
      exact Bool.eq_false_iff.2 fun ht => ((takesData_iff _).1 ht).elim hst.1 hst.2
    · exact next_onCtl_eq hlow (Ctl.claim_of (hnames.2 hn) ((takesData_iff _).2 hst) hrx hb hfirst)
  case nothing =>
    rcases hi with rfl | ⟨f, rfl, hf⟩
    · exact next_onCtl_same fun _ => freeClaimed_none hno
    · exact next_onCtl_same fun _ => (if_pos (by simp [hf])).trans (freeClaimed_none hno)
  case freed =>
    rcases hi with rfl | ⟨f, rfl, hf⟩
    · exact next_onCtl_eq hlow (freeClaimed_of hb hu)
    · exact next_onCtl_eq hlow ((if_pos (by simp [hf])).trans (freeClaimed_of hb hu))
  case good => exact next_onCtl_same fun _ => if_neg (by simp [hf])
  case dispatch =>
    intro freed takes
    obtain ⟨taken, g, hexec, hdrop⟩ : ∃ (taken : StationState → Bool) (g : Ctl → Ctl),
        exec i s = .next { s with ctl := s.ctl.dispatch s.env src taken g } ∧
          (¬ takes → taken s.ctl.station = true → g s.ctl = { s.ctl with rx := freed }) := by
      cases x with
      | presence p =>
        subst hi
        exact ⟨_, _, next_onCtl_eq hlow (hearPresence_of hrec _), fun hnot ht => absurd ((takesPresence_iff _).1 ht) hnot⟩
      | answer a =>
        subst hi
        exact ⟨_, _, next_onCtl_eq hlow (hearAnswer_of hrec _), fun hnot ht => absurd ((takesAnswer_iff _).1 ht) hnot⟩
      | holdings p =>
        subst hi
        exact ⟨_, _, next_onCtl_eq hlow (hearHoldings_of hrec _), fun hnot ht => absurd ((takesPresence_iff _).1 ht) hnot⟩
      | extent e =>
        subst hi
        refine ⟨_, _, next_onCtl_eq hlow (hearExtent_of hrec _), fun hnot ht => ?_⟩
        have hother : has e.mask s.env.me = false :=
          Bool.eq_false_iff.2 fun hm => hnot ⟨(takesData_iff _).1 ht, hm⟩
        simp only [hother, Ctl.keepData_other hb hu]
        rfl
      | copy e =>
        subst hi
        refine ⟨_, _, next_onCtl_eq hlow (hearCopy_of hrec _), fun hnot ht => ?_⟩
        have hother : decide (e.target = byteOf s.env.me.val) = false :=
          decide_eq_false fun hm => hnot ⟨(takesData_iff _).1 ht, hm⟩
        simp only [hother, Ctl.keepData_other hb hu]
        rfl
    refine ⟨fun hst => ?_, fun hmount hiso => ?_⟩
    · have hdeaf : s.ctl.station.takesPresence = false := by rcases hst with h | h <;> rw [h] <;> rfl
      exact hexec.trans (next_ctl_congr (Ctl.dispatch_deaf hdeaf))
    · have hears : s.ctl.station.takesPresence = true := (takesPresence_iff _).2 ⟨hmount, hiso⟩
      refine ⟨fun hsrc => ?_, fun hsrc hnot => ?_⟩
      · rw [Ctl.dispatch_clash hears hsrc, freeClaimed_of hb hu] at hexec
        obtain ⟨tx, jobs, hshape⟩ := isolate_shape { s.ctl with rx := vput s.ctl.rx b .free }
        rw [hshape] at hexec
        refine ⟨_, hexec, (sweep_calm_self _ _).still rfl, ?_, ?_, ?_, ?_, ?_⟩
        · rw [Ctl.sweep_alerts]
        · rw [Ctl.sweep_rx]
        · rw [Ctl.sweep_dir]
        · rw [Ctl.sweep_et]
        · rw [Ctl.sweep_port]
      · refine hexec.trans (next_ctl_congr ((Ctl.dispatch_other hears hsrc).trans ?_))
        cases htaken : taken s.ctl.station with
        | true => exact hdrop hnot htaken
        | false => exact freeClaimed_of hb hu

end Sys2Proof.Machine
end

