-- ==== Sys2Proof/Proofs/PresenceStages.lean ====
section
/-!
PROOFS. A PRESENCE is taken (R92 to R101, Table 6-2): what it records, the notice it gives, and what the notice does.
-/

namespace Sys2Proof.Machine

/-! ## The stages of a PRESENCE -/

/-- The notice that a PRESENCE gives of its sender. -/
def PresenceBody.notice (b : PresenceBody) (k : Env) (old : Peer) : Notice :=
  noticeOf old.state (b.peerState k) (decide (old.gen ≠ some b.gen))

/-- The sender's fields, and the pages that its mark releases. -/
def Ctl.recordPresence (c : Ctl) (k : Env) (p : Station) (b : PresenceBody) : Ctl :=
  if (c.peers.get p).mark < b.mark then (c.onPeer p (b.record k)).replicaRelease k p b.mark
  else c.onPeer p (b.record k)

/-- The entry of the sender into INCOMPATIBLE. -/
def Ctl.tellEntry (c : Ctl) (k : Env) (b : PresenceBody) (old : Peer) : Ctl :=
  if b.peerState k = .incompatible && old.state ≠ .incompatible then c.hand .members else c

/-- The clearing of the sender's FULL flag. -/
def Ctl.tellRoom (c : Ctl) (k : Env) (b : PresenceBody) (old : Peer) : Ctl :=
  if old.full && !b.flags.getLsbD 0 && b.peerState k = .present && b.notice k old ≠ .arrival then c.fullCleared k else c

/-- The sender's report request. -/
def Ctl.tellAsked (c : Ctl) (k : Env) (b : PresenceBody) : Ctl :=
  if b.peerState k = .present && has b.mask k.me then c.holdingsAsked k else c

theorem takePresence_eq (c : Ctl) (k : Env) (p : Station) (b : PresenceBody) :
    let old := c.peers.get p
    c.takePresence k p b =
      ((((c.recordPresence k p b).give k p (b.notice k old)).tellEntry k b old).tellRoom k b old).tellAsked k b := rfl

theorem peerState_cases (b : PresenceBody) (k : Env) :
    b.peerState k = .incompatible ∨ b.peerState k = .departed ∨ b.peerState k = .present := by
  unfold PresenceBody.peerState
  split_ifs
  · exact .inl rfl
  · exact .inr (.inl rfl)
  · exact .inr (.inr rfl)

/-! ## What each stage leaves -/

/-- What a notice does with the entry of the peer it is about. -/
def Peer.noticed (q : Peer) (n : Notice) : Peer :=
  { q with reportReq := if n = .arrival then true else if n = .departure then false else q.reportReq,
           received := if n = .departure then none else q.received }

theorem Ctl.recordPresence_spec (c : Ctl) (k : Env) (p : Station) (b : PresenceBody) :
    NoticeRel c (c.recordPresence k p b) ∧
    (c.recordPresence k p b).peers = vput c.peers p (b.record k (c.peers.get p)) ∧
    (c.recordPresence k p b).holdings = c.holdings := by
  unfold Ctl.recordPresence
  split
  · have hcalm := Ctl.replicaRelease_calm (w := false) (.refl (c.onPeer p (b.record k))) k p b.mark
    have hrel : NoticeRel c (c.onPeer p (b.record k)) := NoticeRel.peers c _
    have hpeers := calm_peers hcalm
    have hhold := calm_holdings hcalm
    exact ⟨hrel.trans (.calm hcalm), hpeers, hhold⟩
  · exact ⟨NoticeRel.peers c _, rfl, rfl⟩

theorem Ctl.give_spec (c : Ctl) (k : Env) (p : Station) (n : Notice) :
    NoticeRel c (c.give k p n) ∧ (c.give k p n).peers = vput c.peers p ((c.peers.get p).noticed n) ∧
    (c.give k p n).holdings = c.holdings ∧
    (n = .arrival ∨ n = .departure → (c.give k p n).alerts.pending &&& 0x04#8 = 0x04#8) := by
  cases n with
  | arrival =>
    obtain ⟨hrel, hpeers, hhold, hbit⟩ := arrival_spec c k p
    exact ⟨hrel, hpeers, hhold, fun _ => hbit⟩
  | departure =>
    obtain ⟨hrel, hpeers, hhold, hbit⟩ := departure_spec c k p
    exact ⟨hrel, hpeers, hhold, fun _ => hbit⟩
  | clearing =>
    obtain ⟨l, hl⟩ := appendDeparture_shape c p
    show NoticeRel c (c.appendDeparture p) ∧ _
    rw [Ctl.give, hl]
    exact ⟨⟨fun _ _ => rfl, by simp⟩, (vput_self _ _).symm, rfl, by simp⟩
  | none => exact ⟨.refl c, (vput_self _ _).symm, rfl, by simp⟩

theorem Ctl.tellEntry_spec (c : Ctl) (k : Env) (b : PresenceBody) (old : Peer) :
    NoticeRel c (c.tellEntry k b old) ∧ (c.tellEntry k b old).peers = c.peers ∧
    (c.tellEntry k b old).holdings = c.holdings ∧
    (b.peerState k = .incompatible → old.state ≠ .incompatible →
      (c.tellEntry k b old).alerts.pending &&& 0x04#8 = 0x04#8) := by
  unfold Ctl.tellEntry
  split
  case isTrue => exact ⟨.hand c .members, rfl, rfl, fun _ _ => or_bit _ _⟩
  case isFalse h => exact ⟨.refl c, rfl, rfl, fun hinc hold => absurd (by simp [hinc, hold]) h⟩

theorem Ctl.tellRoom_calm (c : Ctl) (k : Env) (b : PresenceBody) (old : Peer) : Calm false c (c.tellRoom k b old) := by
  unfold Ctl.tellRoom Ctl.fullCleared
  split
  · exact Ctl.requestRecheck_calm (Ctl.retryPlacement_calm (.refl c) k false)
  · exact .refl c

theorem Ctl.tellAsked_spec (c : Ctl) (k : Env) (b : PresenceBody) :
    NoticeRel c (c.tellAsked k b) ∧ (c.tellAsked k b).peers = c.peers ∧
    (has b.mask k.me = false ∨ b.peerState k ≠ .present → c.tellAsked k b = c) := by
  unfold Ctl.tellAsked
  split
  case isTrue h =>
    obtain ⟨hold, tx, hshape⟩ := holdingsAsked_spec c k
    rw [hshape]
    refine ⟨⟨fun _ _ => rfl, by simp⟩, rfl, fun hno => ?_⟩
    simp only [Bool.and_eq_true, decide_eq_true_eq] at h
    rcases hno with hno | hno
    · rw [hno] at h
      exact absurd h.2 Bool.false_ne_true
    · exact absurd h.1 hno
  case isFalse => exact ⟨.refl c, rfl, fun _ => rfl⟩

/-- What stays, and what is recorded, in every state. -/
theorem takePresence_spec (c : Ctl) (k : Env) (p : Station) (b : PresenceBody) :
    let old := c.peers.get p
    let n := b.notice k old
    let d := c.takePresence k p b
    NoticeRel c d ∧ d.peers = vput c.peers p ((b.record k old).noticed n) ∧
    (has b.mask k.me = false ∨ b.peerState k ≠ .present → d.holdings = c.holdings) ∧
    (n = .arrival ∨ n = .departure ∨ b.peerState k = .incompatible ∧ old.state ≠ .incompatible →
      d.alerts.pending &&& 0x04#8 = 0x04#8) := by
  intro old n d
  obtain ⟨hrel1, hpeers1, hhold1⟩ := c.recordPresence_spec k p b
  obtain ⟨hrel2, hpeers2, hhold2, hbit2⟩ := (c.recordPresence k p b).give_spec k p n
  obtain ⟨hrel3, hpeers3, hhold3, hbit3⟩ := ((c.recordPresence k p b).give k p n).tellEntry_spec k b old
  have hcalm4 := (((c.recordPresence k p b).give k p n).tellEntry k b old).tellRoom_calm k b old
  obtain ⟨hrel5, hpeers5, hsame5⟩ :=
    ((((c.recordPresence k p b).give k p n).tellEntry k b old).tellRoom k b old).tellAsked_spec k b
  have hd : d = _ := takePresence_eq c k p b
  rw [← hd] at hrel5 hpeers5 hsame5
  have hrest := (NoticeRel.calm hcalm4).trans hrel5
  refine ⟨((hrel1.trans hrel2).trans hrel3).trans hrest, ?_, fun hno => ?_, fun hn => ?_⟩
  · rw [hpeers5, calm_peers hcalm4, hpeers3, hpeers2, hpeers1, vput_get_same, vput_vput]
  · rw [hsame5 hno, calm_holdings hcalm4, hhold3, hhold2, hhold1]
  · rcases hn with hn | hn | ⟨hinc, hold⟩
    · exact bit_mono (hrel3.trans hrest).2 (hbit2 (.inl hn))
    · exact bit_mono (hrel3.trans hrest).2 (hbit2 (.inr hn))
    · exact bit_mono hrest.2 (hbit3 hinc hold)

end Sys2Proof.Machine
end

