-- ==== Sys2Proof/Proofs/PresenceAtRest.lean ====
section
/-!
PROOFS. A PRESENCE taken while the own-extent engine is at rest (R95 to R97, R100, R150, R153).
-/

namespace Sys2Proof.Machine

/-! ## The notices at rest -/

theorem notice_of_present {b : PresenceBody} {k : Env} (h : b.peerState k = .present) (old : Peer) :
    b.notice k old = .arrival ∨ b.notice k old = .none := by
  rw [PresenceBody.notice, noticeOf_eq _ _ _ (peerState_cases b k), h]
  simp only [reduceCtorEq, decide_false, Bool.false_and, Bool.or_self, Bool.false_eq_true, if_false]
  exact (ite_eq_or_eq _ _ _).imp_right fun h => h

/-- The tasks that a notice puts at the end of the repair list. -/
def Notice.tasks (n : Notice) (p : Station) : List Task :=
  match n with
  | .arrival => [{ kind := .recheck false false, cursor := 0, waiting := false }]
  | .departure => [{ kind := .departure p, cursor := 0, waiting := false }]
  | .clearing => [{ kind := .departure p, cursor := 0, waiting := false }]
  | .none => []

/-- The causes pending after a notice. -/
def Notice.pending (n : Notice) (x : Byte) : Byte :=
  if n = .arrival ∨ n = .departure then x ||| 0x04#8 else x

theorem Ctl.give_rest {c : Ctl} {p : Station} (h : c.atRest) (hj : ∀ slot j, c.jobs.get slot = some j → j.target ≠ p)
    (ht : ∀ t ∈ c.repair, t.kind ≠ .departure p ∧ t.isRecheck = false) (k : Env) (n : Notice) :
    c.give k p n = { c with
      peers := vput c.peers p ((c.peers.get p).noticed n), repair := c.repair ++ n.tasks p,
      alerts := { c.alerts with pending := n.pending c.alerts.pending } } := by
  have hno : ∀ t ∈ c.repair, t.kind ≠ .departure p := fun t hmem => (ht t hmem).1
  cases n with
  | arrival =>
    have hpeer : c.arrival k p =
        ((((c.onPeer p (Peer.noticed · .arrival)).removeDeparture p).retryPlacement k true).requestRecheck).hand .members :=
      rfl
    rw [Ctl.give, hpeer, removeDeparture_absent (c := c.onPeer p _) hno, retry_rest (c := c.onPeer p _) k true h.1,
      requestRecheck_new (c := c.onPeer p _) fun t hmem => (ht t hmem).2]
    rfl
  | departure => exact departure_rest k p h hj hno
  | clearing =>
    refine (appendDeparture_new hno).trans ?_
    rw [show (c.peers.get p).noticed .clearing = c.peers.get p from rfl, vput_self]
    rfl
  | none =>
    rw [show (c.peers.get p).noticed .none = c.peers.get p from rfl, vput_self, show Notice.none.tasks p = [] from rfl,
      List.append_nil]
    rfl

/-- The sender's FULL flag has cleared, and it has not arrived (R97). -/
def PresenceBody.roomAgain (b : PresenceBody) (k : Env) (old : Peer) : Bool :=
  old.full && !b.flags.getLsbD 0 && b.peerState k = .present && b.notice k old ≠ .arrival

theorem Ctl.tellRoom_eq (c : Ctl) (k : Env) (b : PresenceBody) (old : Peer) :
    c.tellRoom k b old = if b.roomAgain k old = true then c.fullCleared k else c := rfl

theorem Ctl.fullCleared_rest {c : Ctl} (h : c.atRest) (ht : ∀ t ∈ c.repair, t.isRecheck = false) (k : Env) :
    c.fullCleared k = { c with
      repair := c.repair ++ [{ kind := .recheck false false, cursor := 0, waiting := false }] } := by
  rw [Ctl.fullCleared, retry_rest k false h.1, requestRecheck_new ht]

theorem takePresence_rest {c : Ctl} {k : Env} {p : Station} {b : PresenceBody} (h : c.atRest)
    (hmark : ¬ (c.peers.get p).mark < b.mark) (hmask : has b.mask k.me = false)
    (hj : ∀ slot j, c.jobs.get slot = some j → j.target ≠ p)
    (ht : ∀ t ∈ c.repair, t.kind ≠ .departure p ∧ t.isRecheck = false) :
    let old := c.peers.get p
    let n := b.notice k old
    c.takePresence k p b = { c with
      peers := vput c.peers p ((b.record k old).noticed n),
      repair := c.repair ++ (if b.roomAgain k old = true then Notice.arrival.tasks p else n.tasks p),
      alerts := { c.alerts with
        pending := if b.peerState k = .incompatible ∧ old.state ≠ .incompatible then c.alerts.pending ||| 0x04#8
          else n.pending c.alerts.pending } } := by
  intro old n
  have hget : (c.onPeer p (b.record k)).peers.get p = b.record k old := vput_get_same _ _ _
  have hput (x : Peer) : vput (c.onPeer p (b.record k)).peers p x = vput c.peers p x := vput_vput _ _ _ _
  have hgive : (c.recordPresence k p b).give k p n = { c with
      peers := vput c.peers p ((b.record k old).noticed n), repair := c.repair ++ n.tasks p,
      alerts := { c.alerts with pending := n.pending c.alerts.pending } } := by
    rw [Ctl.recordPresence, if_neg hmark, Ctl.give_rest (c := c.onPeer p (b.record k)) h hj ht, hget, hput]
    rfl
  have hpend : (if b.peerState k = .incompatible ∧ old.state ≠ .incompatible then n.pending c.alerts.pending ||| 0x04#8
      else n.pending c.alerts.pending) = (if b.peerState k = .incompatible ∧ old.state ≠ .incompatible then
        c.alerts.pending ||| 0x04#8 else n.pending c.alerts.pending) := by
    refine if_congr Iff.rfl ?_ rfl
    unfold Notice.pending
    split
    · rw [BitVec.or_assoc, BitVec.or_self]
    · rfl
  have hentry : ((c.recordPresence k p b).give k p n).tellEntry k b old = { c with
      peers := vput c.peers p ((b.record k old).noticed n), repair := c.repair ++ n.tasks p,
      alerts := { c.alerts with
        pending := if b.peerState k = .incompatible ∧ old.state ≠ .incompatible then c.alerts.pending ||| 0x04#8
          else n.pending c.alerts.pending } } := by
    rw [hgive, Ctl.tellEntry, ← hpend]
    simp only [Bool.and_eq_true, decide_eq_true_eq]
    split <;> rfl
  have hasked (d : Ctl) : d.tellAsked k b = d := (d.tellAsked_spec k b).2.2 (.inl hmask)
  rw [takePresence_eq, hentry, hasked, Ctl.tellRoom_eq]
  split
  case isTrue hroom =>
    simp only [PresenceBody.roomAgain, Bool.and_eq_true, decide_eq_true_eq] at hroom
    have hnone : n = .none := (notice_of_present hroom.1.2 old).resolve_left hroom.2
    have hrepair : c.repair ++ n.tasks p = c.repair := by rw [hnone]; exact List.append_nil _
    rw [hrepair]
    exact Ctl.fullCleared_rest (c := { c with
      peers := vput c.peers p ((b.record k old).noticed n),
      alerts := { c.alerts with
        pending := if b.peerState k = .incompatible ∧ old.state ≠ .incompatible then c.alerts.pending ||| 0x04#8
          else n.pending c.alerts.pending } }) h (fun t hmem => (ht t hmem).2) k
  case isFalse => rfl

end Sys2Proof.Machine
end

