-- ==== Sys2Proof/Proofs/PresenceNotices.lean ====
section
/-!
PROOFS. The PRESENCE statement: its notices read as the arrivals and departures of Table 6-2.
-/

namespace Sys2Proof.Machine

/-- Settles O43: `takePresence_spec` in every state, `takePresence_rest` at rest, the notice by `noticeOf_eq`. -/
theorem presenceFrame : Obligations.PresenceFrame := by
  intro s f p b hlow hrec hp hmount hiso old after arrives departs enters roomAgain recorded peers members
  have hexec := exec_presenceFrame hlow hrec hp hmount hiso
  have hnotice : b.notice s.env old = if arrives = true then .arrival else if departs = true then .departure
      else if (decide (after = .incompatible) && decide (old.state = .absent)) = true then .clearing else .none := by
    have hgen : (!decide (old.gen ≠ some b.gen)) = decide (old.gen = some b.gen) := by simp
    refine (noticeOf_eq _ _ _ (peerState_cases b s.env)).trans ?_
    rw [hgen]
    rfl
  have harrive : b.notice s.env old = .arrival ↔ arrives = true := by
    rw [hnotice]
    split_ifs <;> simp_all
  have hdepart : b.notice s.env old = .departure ↔ arrives = false ∧ departs = true := by
    rw [hnotice]
    split_ifs <;> simp_all
  have hpresent : arrives = true → after = .present := fun h => of_decide_eq_true (Bool.and_eq_true _ _ ▸ h).1
  have hdeparts : arrives = true → departs = false := fun h => by
    simp only [departs, hpresent h, reduceCtorEq, decide_false, Bool.false_and, Bool.or_self]
  have hrecorded : (b.record s.env old).noticed (b.notice s.env old) = recorded := by
    simp only [Peer.noticed, harrive, hdepart]
    cases harr : arrives with
    | true => simp only [recorded, harr, hdeparts harr]; rfl
    | false => cases hdep : departs <;> simp only [recorded, harr, hdep] <;> rfl
  refine ⟨?spec, fun hrest hmark hmask hjobs htasks => ?rest⟩
  case spec =>
    obtain ⟨hrel, hpeers, hhold, hbit⟩ := takePresence_spec s.ctl s.env p b
    refine ⟨_, (s.ctl.takePresence s.env p b).holdings, hexec, ?_, fun h => hhold h, ?_⟩
    · refine Eq.trans ?_ (hrel.1 peers _)
      rw [← show _ = peers from hpeers.trans (congrArg (vput _ p) hrecorded)]
    · show members &&& _ = members
      cases hmem : arrives || departs || enters with
      | true =>
        simp only [members, hmem, if_true]
        refine or_mono hrel.2 (hbit ?_)
        rw [harrive, hdepart]
        simp only [Bool.or_eq_true, enters, Bool.and_eq_true, decide_eq_true_eq] at hmem
        rcases hmem with (harr | hdep) | henter
        · exact .inl harr
        · cases harr : arrives
          · exact .inr (.inl ⟨rfl, hdep⟩)
          · exact .inl rfl
        · exact .inr (.inr henter)
      | false =>
        simp only [members, hmem, Bool.false_eq_true, if_false]
        exact hrel.2
  case rest =>
    refine hexec.trans (next_ctl_congr ((takePresence_rest hrest hmark hmask hjobs htasks).trans ?_))
    have hroom : b.roomAgain s.env old = roomAgain := by
      have hn : decide (b.notice s.env old ≠ .arrival) = !arrives := by
        rw [Bool.eq_iff_iff]
        simp [harrive]
      rw [PresenceBody.roomAgain, hn]
      rfl
    have hpending : (if b.peerState s.env = .incompatible ∧ old.state ≠ .incompatible then s.ctl.alerts.pending ||| 0x04#8
        else (b.notice s.env old).pending s.ctl.alerts.pending) = members := by
      have henters : b.peerState s.env = .incompatible ∧ old.state ≠ .incompatible ↔ enters = true := by
        simp only [enters, Bool.and_eq_true, decide_eq_true_eq]
        rfl
      rw [Notice.pending, ← ite_or]
      refine if_congr ?_ rfl rfl
      rw [henters, harrive, hdepart]
      cases arrives <;> cases departs <;> simp
    have hrepair : (if b.roomAgain s.env old = true then Notice.arrival.tasks p else (b.notice s.env old).tasks p) =
        (if arrives || roomAgain then [{ kind := .recheck false false, cursor := 0, waiting := false }]
         else if departs || (decide (after = .incompatible) && decide (old.state = .absent)) then
           [{ kind := .departure p, cursor := 0, waiting := false }]
         else []) := by
      rw [hroom, hnotice]
      cases arrives
      · cases roomAgain
        · cases departs
          · cases decide (after = .incompatible) && decide (old.state = .absent) <;> rfl
          · rfl
        · rfl
      · cases roomAgain <;> rfl
    rw [hrecorded, hpending, hrepair]

end Sys2Proof.Machine
end

