-- ==== Sys2Proof/Proofs/PresenceRequests.lean ====
section
/-!
PROOFS. What a PRESENCE asks and tells besides (R14, R95, R99, R142).
-/

namespace Sys2Proof.Machine

/-! ## A PRESENCE of a PRESENT peer in the generation known -/

theorem peerState_present {b : PresenceBody} {k : Env} (hcopies : b.copies = byteOf k.copies)
    (hflag : b.flags.getLsbD 1 = false) : b.peerState k = .present := by
  simp only [PresenceBody.peerState, hcopies, hflag, ne_eq, not_true_eq_false, if_false, Bool.false_eq_true]

theorem notice_same {b : PresenceBody} {k : Env} {old : Peer} (hpresent : b.peerState k = .present)
    (hold : old.state = .present) (hgen : old.gen = some b.gen) : b.notice k old = .none := by
  simp only [PresenceBody.notice, hpresent, hold, hgen, ne_eq, not_true_eq_false, decide_false]
  rfl

/-- Nothing is told of such a peer; its mark releases and its request asks. -/
theorem takePresence_same {c : Ctl} {k : Env} {p : Station} {b : PresenceBody} (hpresent : b.peerState k = .present)
    (hold : (c.peers.get p).state = .present) (hgen : (c.peers.get p).gen = some b.gen)
    (hfull : (c.peers.get p).full = true → b.flags.getLsbD 0 = true) :
    c.takePresence k p b = (c.recordPresence k p b).tellAsked k b := by
  have hentry (d : Ctl) : d.tellEntry k b (c.peers.get p) = d :=
    if_neg (by simp [hpresent])
  have hroom (d : Ctl) : d.tellRoom k b (c.peers.get p) = d := by
    refine if_neg ?_
    simp only [Bool.and_eq_true, Bool.not_eq_true']
    rintro ⟨⟨⟨h1, h2⟩, -⟩, -⟩
    rw [hfull h1] at h2
    cases h2
  rw [takePresence_eq, notice_same hpresent hold hgen, hentry, hroom]
  rfl

/-- A DEPARTED peer that is PRESENT again has arrived. -/
theorem takePresence_returned {c : Ctl} {k : Env} {p : Station} {b : PresenceBody} (hpresent : b.peerState k = .present)
    (hold : (c.peers.get p).state = .departed) (hmark : ¬ (c.peers.get p).mark < b.mark) (hmask : has b.mask k.me = false) :
    c.takePresence k p b = (c.onPeer p (b.record k)).arrival k p := by
  have hnotice : b.notice k (c.peers.get p) = .arrival := by
    rw [PresenceBody.notice, hpresent, hold]
    rfl
  have hentry (d : Ctl) : d.tellEntry k b (c.peers.get p) = d :=
    if_neg (by simp [hpresent])
  have hroom (d : Ctl) : d.tellRoom k b (c.peers.get p) = d :=
    if_neg (by simp [hnotice])
  have hasked (d : Ctl) : d.tellAsked k b = d := (d.tellAsked_spec k b).2.2 (.inl hmask)
  rw [takePresence_eq, hentry, hroom, hasked, hnotice, Ctl.recordPresence, if_neg hmark]
  rfl

theorem recorded_present {b : PresenceBody} {k : Env} (h : b.peerState k = .present) (old : Peer) :
    b.record k old =
      { old with
        state := .present, gen := some b.gen, missed := 0, code := stateCodeOf b.code, pool := b.pool,
        full := b.flags.getLsbD 0, mark := b.mark } := by
  rw [PresenceBody.record, h]

/-! ## The sender's release mark (R14, R142) -/

/-- A release gives up the replicas of the origin at or below the mark, and leaves what it finds no job or DEFERRED
frame for. -/
theorem replicaRelease_fields {c : Ctl} {k : Env} {o : Station} {m : Word}
    (hdef : ∀ v x, c.rxHeld v = some x → x.phase ≠ .deferred)
    (hjobs : ∀ slot j, c.jobs.get slot = some j → j.page.origin ≠ o) :
    let d := c.replicaRelease k o m
    d.dir = c.dir.filter (fun e => !(decide (e.id.origin = o) && decide (e.id.seq ≤ m))) ∧
    d.et = c.et ∧ d.tx = c.tx ∧ d.jobs = c.jobs ∧ d.port = c.port ∧ d.rx = c.rx := by
  intro d
  obtain ⟨l, hl⟩ : ∃ l, l = (c.dir.filter (fun e => decide (e.id.origin = o) && decide (e.id.seq ≤ m))).map (·.id) := ⟨_, rfl⟩
  have hrx : (l.foldl Ctl.remove c).rx = c.rx := foldl_remove_same (·.rx) Ctl.remove_rx l c
  have hjob : (l.foldl Ctl.remove c).jobs = c.jobs := foldl_remove_same (·.jobs) Ctl.remove_jobs l c
  have hcancel : (l.foldl Ctl.remove c).cancelJobs (fun j => decide (j.page.origin = o) && decide (j.page.seq ≤ m)) =
      l.foldl Ctl.remove c := by
    refine cancelJobs_none fun slot j hj => ?_
    rw [hjob] at hj
    simp [hjobs slot j hj]
  have hd : d = l.foldl Ctl.remove c := by
    show Ctl.replicaRelease c k o m = _
    rw [Ctl.replicaRelease, ← hl]
    show (Ctl.cancelJobs _ _).rejudgeVanished k = _
    rw [hcancel, Ctl.rejudgeVanished_none (deferred_free hrx hdef)]
  have hgone (e : Entry) (he : e ∈ c.dir) : l.contains e.id = (decide (e.id.origin = o) && decide (e.id.seq ≤ m)) := by
    rw [Bool.eq_iff_iff, List.contains_iff_mem, hl, List.mem_map]
    constructor
    · rintro ⟨x, hx, hid⟩
      rw [← hid]
      exact (List.mem_filter.1 hx).2
    · exact fun h => ⟨e, List.mem_filter.2 ⟨he, h⟩, rfl⟩
  rw [hd]
  refine ⟨?_, foldl_remove_same (·.et) Ctl.remove_et l c, foldl_remove_same (·.tx) Ctl.remove_tx l c, hjob,
    foldl_remove_same (·.port) Ctl.remove_port l c, hrx⟩
  rw [removeAll_dir]
  exact List.filter_congr fun e he => by rw [hgone e he]

/-! ## The report request (R99) -/

theorem holdingsAsked_pending {c : Ctl} (h : c.holdings.series ≠ none ∨ c.station.timersRun = false) (k : Env) :
    c.holdingsAsked k = { c with holdings := { c.holdings with pending := true } } := by
  refine if_pos ?_
  rw [Bool.or_eq_true, Bool.not_eq_true', Option.isSome_iff_ne_none]
  exact h

theorem holdingsAsked_idle {c : Ctl} (hseries : c.holdings.series = none) (hst : c.station.timersRun = true) (k : Env) :
    c.holdingsAsked k = if c.suppressed k then c else c.startSeries k :=
  if_neg (by simp [hseries, hst])

theorem suppressed_iff (c : Ctl) (k : Env) :
    c.suppressed k = true ↔ ∃ t, c.holdings.endedAt = some t ∧ (k.clock - t).toNat < 40 := by
  unfold Ctl.suppressed
  cases c.holdings.endedAt <;> simp

/-! ## A standing DEPARTURE leaves the repair list (R150) -/

theorem removeDeparture_eq {c : Ctl} {p : Station} {l l' : List Task} {t : Task} (hrep : c.repair = l ++ t :: l')
    (ht : t.kind = .departure p) (hothers : ∀ y ∈ l ++ l', y.kind ≠ .departure p) :
    (l = [] → c.removeDeparture p = Ctl.onHead { c with repair := l' } Task.begun) ∧
    (l ≠ [] → c.removeDeparture p = { c with repair := l ++ l' }) := by
  have his : t.isDeparture p = true := (isDeparture_iff t p).2 ht
  have hnot : ∀ y ∈ l ++ l', y.isDeparture p = false := fun y hy =>
    Bool.eq_false_iff.2 (mt (isDeparture_iff y p).1 (hothers y hy))
  unfold Ctl.removeDeparture
  rw [hrep]
  refine ⟨?_, fun hl => ?_⟩
  · rintro rfl
    exact if_pos his
  · obtain ⟨y, ys, rfl⟩ := List.exists_cons_of_ne_nil hl
    have hkeep : (ys ++ t :: l').filter (fun x => !x.isDeparture p) = ys ++ l' := by
      rw [List.filter_append, List.filter_cons_of_neg (by simp [his]), ← List.filter_append]
      exact List.filter_eq_self.2 fun x hx => by simp [hnot x (List.mem_cons_of_mem _ hx)]
    refine (if_neg (by simp [hnot y List.mem_cons_self])).trans ?_
    exact congrArg (fun r => ({ c with repair := y :: r } : Ctl)) hkeep

/-- An arrival at rest takes the standing DEPARTURE out and requests a RECHECK. -/
theorem arrival_standing {c : Ctl} {p : Station} {left : List Task} (h : c.atRest)
    (hleft : Ctl.removeDeparture (c.onPeer p (Peer.noticed · .arrival)) p =
      { c.onPeer p (Peer.noticed · .arrival) with repair := left })
    (hno : ∀ t ∈ left, t.isRecheck = false) (k : Env) :
    c.arrival k p = { c with
      peers := vput c.peers p ((c.peers.get p).noticed .arrival),
      repair := left ++ [{ kind := .recheck false false, cursor := 0, waiting := false }],
      alerts := { c.alerts with pending := c.alerts.pending ||| 0x04#8 } } := by
  have harrival : c.arrival k p =
      ((((c.onPeer p (Peer.noticed · .arrival)).removeDeparture p).retryPlacement k true).requestRecheck).hand .members := rfl
  rw [harrival, hleft, retry_rest (c := { c.onPeer p (Peer.noticed · .arrival) with repair := left }) k true h.1,
    requestRecheck_new (c := { c.onPeer p (Peer.noticed · .arrival) with repair := left }) hno]
  rfl

/-- Settles O44: a PRESENCE of a PRESENT peer by `takePresence_same`, an arrival by `arrival_standing`. -/
theorem presenceRequests : Obligations.PresenceRequests := by
  intro s f p b hlow hrec hp hmount hiso hcopies hflag old recorded peers answers
  have hpresent := peerState_present hcopies hflag
  have hrecorded : b.record s.env old = recorded := recorded_present hpresent old
  have hexec {d : Ctl} (h : s.ctl.takePresence s.env p b = d) : answers d :=
    (exec_presenceFrame hlow hrec hp hmount hiso).trans (next_ctl_congr h)
  refine ⟨fun hold hgen hfull => ⟨fun hmark hmask hdef hjobs => ?release, fun hmark hmask => ?asked⟩,
    fun hold hrest hmark hmask l t l' hrep ht hothers => ?arrival⟩
  case release =>
    have htake := takePresence_same hpresent hold hgen hfull
    rw [((s.ctl.recordPresence s.env p b).tellAsked_spec s.env b).2.2 (.inl hmask), Ctl.recordPresence, if_pos hmark]
      at htake
    have hcalm := Ctl.replicaRelease_calm (w := false) (.refl (s.ctl.onPeer p (b.record s.env))) s.env p b.mark
    refine ⟨_, hexec htake, (hcalm.still rfl).trans ?_,
      replicaRelease_fields (c := s.ctl.onPeer p (b.record s.env)) hdef hjobs⟩
    exact congrArg (fun q => Ctl.still { s.ctl with peers := vput s.ctl.peers p q }) hrecorded
  case asked =>
    have hrecord : s.ctl.recordPresence s.env p b = { s.ctl with peers := peers } := by
      rw [Ctl.recordPresence, if_neg hmark]
      exact congrArg (fun q => ({ s.ctl with peers := vput s.ctl.peers p q } : Ctl)) hrecorded
    have htake : s.ctl.takePresence s.env p b = Ctl.holdingsAsked { s.ctl with peers := peers } s.env := by
      rw [takePresence_same hpresent hold hgen hfull, hrecord]
      exact if_pos (by simp [hpresent, has, hmask])
    intro runs
    refine ⟨fun h => ?_, fun hseries hruns => ⟨fun t ht hlt => ?_, fun hlong => ?_⟩⟩
    · refine hexec (htake.trans (holdingsAsked_pending (c := { s.ctl with peers := peers }) (h.imp_right fun hst => ?_) _))
      exact Bool.eq_false_iff.2 (mt (timersRun_iff _).1 hst)
    · refine hexec (htake.trans ((holdingsAsked_idle (c := { s.ctl with peers := peers }) hseries
        ((timersRun_iff _).2 hruns) _).trans (if_pos ?_)))
      exact (suppressed_iff _ _).2 ⟨t, ht, hlt⟩
    · obtain ⟨next, flags, items, hforms, hstart⟩ := startSeries_spec { s.ctl with peers := peers } s.env
      obtain ⟨hnum, hgroup, hindex, -⟩ := Ctl.formsHoldings_next hforms
      refine ⟨next, flags, items, hnum, hgroup, hindex, hforms, hexec (htake.trans ?_)⟩
      refine (holdingsAsked_idle (c := { s.ctl with peers := peers }) hseries ((timersRun_iff _).2 hruns) _).trans
        ((if_neg ?_).trans hstart)
      rw [suppressed_iff]
      rintro ⟨t, ht, hlt⟩
      exact absurd (hlong t ht) (by omega)
  case arrival =>
    intro left
    obtain ⟨hhead, hinner⟩ := removeDeparture_eq (c := (s.ctl.onPeer p (b.record s.env)).onPeer p (Peer.noticed · .arrival))
      hrep ht fun y hy => (hothers y hy).1
    have hleft : Ctl.removeDeparture ((s.ctl.onPeer p (b.record s.env)).onPeer p (Peer.noticed · .arrival)) p =
        { (s.ctl.onPeer p (b.record s.env)).onPeer p (Peer.noticed · .arrival) with repair := left } := by
      cases l with
      | nil => cases l' <;> exact hhead rfl
      | cons y ys => exact hinner (List.cons_ne_nil _ _)
    have hno : ∀ y ∈ left, y.isRecheck = false := by
      have hall : ∀ y ∈ l ++ l', y.isRecheck = false := fun y hy => (hothers y hy).2
      cases l with
      | nil =>
        cases l' with
        | nil => exact fun y hy => absurd hy List.not_mem_nil
        | cons y ys =>
          intro x hx
          rcases List.mem_cons.1 hx with rfl | hx
          · exact hall y List.mem_cons_self
          · exact hall x (List.mem_cons_of_mem _ hx)
      | cons y ys => exact hall
    have harrive := arrival_standing (c := s.ctl.onPeer p (b.record s.env)) hrest hleft hno s.env
    have hput (q : Peer) : vput (s.ctl.onPeer p (b.record s.env)).peers p q = vput s.ctl.peers p q := vput_vput _ _ _ _
    have hget : (s.ctl.onPeer p (b.record s.env)).peers.get p = recorded := (vput_get_same _ _ _).trans hrecorded
    rw [hget, hput] at harrive
    exact hexec ((takePresence_returned hpresent hold hmark hmask).trans harrive)

end Sys2Proof.Machine
end

