-- ==== Sys2Proof/Proofs/PresenceTimer.lean ====
section
/-!
PROOFS. The presence timer, the missed counts and the end of the listening window (R69, R70, R90 to R100, R154).
-/

namespace Sys2Proof.Machine

/-! ## The presence timer (R91, R94) -/

theorem presenceTick_early {c : Ctl} (h : c.presence = none ∨ ∃ n, c.presence = some n ∧ n < 20) (k : Env) :
    c.presenceTick k = c := by
  unfold Ctl.presenceTick
  rcases h with h | ⟨n, h, hlt⟩
  · rw [h]
  · rw [h]
    exact if_neg (by unfold presencePeriod; omega)

theorem missOne_reportReq (p : Peer) : p.missOne.reportReq = p.reportReq := by
  unfold Peer.missOne
  split <;> rfl

theorem presenceTick_due {c : Ctl} {n : Nat} (h : c.presence = some n) (hn : 20 ≤ n) (k : Env) :
    c.presenceTick k = { c with
      presence := some (n - 20), peers := vmap Peer.missOne c.peers, tx := c.tx.presence (c.presenceBody k) } := by
  have hbody : Ctl.presenceBody { c with presence := some (n - 20), peers := vmap Peer.missOne c.peers } k =
      c.presenceBody k := by
    unfold Ctl.presenceBody
    simp only [vmap_get, missOne_reportReq]
    rfl
  unfold Ctl.presenceTick
  rw [h]
  refine (if_pos hn).trans ?_
  show ({ c with
      presence := some (n - 20), peers := vmap Peer.missOne c.peers,
      tx := c.tx.presence (Ctl.presenceBody { c with presence := some (n - 20), peers := vmap Peer.missOne c.peers } k) } : Ctl) = _
  rw [hbody]

/-! ## The missed counts (R94, R96) -/

theorem missedThreshold_silent {c : Ctl} {p : Station} (hst : (c.peers.get p).state = .present)
    (hmiss : 3 ≤ (c.peers.get p).missed) (k : Env) :
    c.missedThreshold k p = { c with peers := vput c.peers p { c.peers.get p with state := .silent } } :=
  if_pos ⟨hst, hmiss⟩

theorem missedThreshold_departed {c : Ctl} {p : Station} (hst : (c.peers.get p).state = .silent)
    (hmiss : 10 ≤ (c.peers.get p).missed) (k : Env) :
    c.missedThreshold k p = (c.onPeer p (fun x => { x with state := .departed })).departure k p :=
  (if_neg (by simp [hst])).trans (if_pos ⟨hst, hmiss⟩)

/-- A departure in every state cancels the peer's jobs and puts its task into the repair list. -/
theorem departure_marks (c : Ctl) (k : Env) (p : Station) :
    (∃ t ∈ (c.departure k p).repair, t.kind = .departure p) ∧
    ∀ slot j, (c.departure k p).jobs.get slot = some j → j.target = p → j.cancelled = true := by
  obtain ⟨d, hd⟩ : ∃ d, d = ((c.ownDeparture k p).sweepAll k).cancelJobs (fun j => decide (j.target = p)) := ⟨_, rfl⟩
  obtain ⟨l, hl⟩ := appendDeparture_shape d p
  have hmem := appendDeparture_mem d p
  have hdeparture : c.departure k p =
      ((d.appendDeparture p).onPeer p (fun x => { x with reportReq := false, received := none })).hand .members := by
    rw [Ctl.departure, hd]
  rw [hl] at hmem hdeparture
  rw [hdeparture]
  refine ⟨hmem, fun slot j hj htarget => ?_⟩
  have hjob : d.jobs.get slot = some j := hj
  rw [hd] at hjob
  have hall := cancelJobs_all _ (fun j => decide (j.target = p)) (fun _ _ _ _ => rfl) slot j hjob
  exact hall.resolve_left (by simp [htarget])

/-- Settles O36: the tick by `presenceTick_due`, the departure by `departure_spec` and `departure_rest`. -/
theorem presenceTimer : Obligations.PresenceTimer := by
  intro s hlow
  refine ⟨fun h => ?early, fun n hn hdue => ?due, fun p => ⟨fun hst hmiss => ?silent, fun hst hmiss => ?departed,
    fun h1 h2 => ?below⟩⟩
  case early => exact next_onCtl_same fun _ => presenceTick_early h _
  case due =>
    refine ⟨_, next_onCtl_eq hlow (presenceTick_due hn hdue _), fun p => ?_⟩
    rw [vmap_get]
    rfl
  case silent => exact next_onCtl_eq hlow (missedThreshold_silent hst hmiss _)
  case departed =>
    have hexec : exec (.missedCountThreshold p) s = .next
        { s with ctl := (s.ctl.onPeer p (fun x => { x with state := .departed })).departure s.env p } :=
      next_onCtl_eq hlow (missedThreshold_departed hst hmiss _)
    have hput (x : Peer) : vput (s.ctl.onPeer p (fun x => { x with state := .departed })).peers p x =
        vput s.ctl.peers p x := vput_vput _ _ _ _
    have hget : (s.ctl.onPeer p (fun x => { x with state := .departed })).peers.get p =
        { s.ctl.peers.get p with state := .departed } := vput_get_same _ _ _
    intro gone
    refine ⟨?_, fun hrest hjobs htasks => ?_⟩
    · obtain ⟨hrel, hpeers, hhold, hbit⟩ :=
        departure_spec (s.ctl.onPeer p (fun x => { x with state := .departed })) s.env p
      rw [hput, hget] at hpeers
      refine ⟨_, hexec, ?_, hbit, departure_marks _ _ _⟩
      refine Eq.trans ?_ (hrel.1 gone s.ctl.holdings)
      rw [← show _ = gone from hpeers, ← show _ = s.ctl.holdings from hhold]
    · refine hexec.trans (next_ctl_congr ?_)
      rw [departure_rest (c := s.ctl.onPeer p (fun x => { x with state := .departed })) s.env p hrest hjobs htasks, hput,
        hget]
      rfl
  case below => exact next_onCtl_same fun _ => (if_neg h1).trans (if_neg h2)

end Sys2Proof.Machine
end

