-- ==== Sys2Proof/Proofs/WindowEnd.lean ====
section
/-!
PROOFS. The end of the listening window (R69, R70, R99, R100, R154).
-/

namespace Sys2Proof.Machine

/-- The peers still ABSENT. -/
def Ctl.absentPeers (c : Ctl) (k : Env) : List Station :=
  allStations.filter (fun p => decide (p ≠ k.me) && decide ((c.peers.get p).state = .absent))

/-- The tasks that the end of the first window appends. -/
def Ctl.absentTasks (c : Ctl) (k : Env) : List Task :=
  (c.absentPeers k).map (fun p => { kind := .departure p, cursor := 0, waiting := false })

/-- The repair list after the end of the window. -/
def Ctl.repairAfterWindow (c : Ctl) (k : Env) : List Task :=
  if c.firstWindow then c.repair ++ c.absentTasks k else c.repair

/-- The station that has left LISTENING. -/
def Ctl.windowClosed (c : Ctl) (k : Env) : Ctl :=
  { c with
    station := if c.mark.frozenOwed then .frozen else .active, window := none, firstWindow := false,
    repair := c.repairAfterWindow k,
    alerts := if c.mark.frozenOwed then { c.alerts with pending := c.alerts.pending ||| 0x10#8 } else c.alerts }

theorem clearAbsent_eq {c : Ctl} {k : Env}
    (h : ∀ t ∈ c.repair, ∀ p ∈ c.absentPeers k, t.kind ≠ .departure p) :
    c.clearAbsent k = { c with repair := c.repair ++ c.absentTasks k } := by
  have hnodup : (c.absentPeers k).Nodup :=
    List.Nodup.filter _ (allStations_eq ▸ List.nodup_finRange 8)
  exact appendDeparture_fold _ hnodup c h

theorem enterActive_eq (c : Ctl) : c.enterState .active = { c with station := .active } :=
  cutShort_sendable fun _ => rfl

theorem windowEnd_early {c : Ctl} (h : c.station ≠ .listening ∨ c.window ≠ some 0) (k : Env) : c.windowEnd k = c := by
  refine if_neg ?_
  simp only [Bool.and_eq_true, decide_eq_true_eq, not_and_or]
  exact h

theorem windowEnd_due {c : Ctl} {k : Env} (hst : c.station = .listening) (hwin : c.window = some 0)
    (htasks : c.firstWindow = true → ∀ t ∈ c.repair, ∀ p ∈ c.absentPeers k, t.kind ≠ .departure p) :
    c.windowEnd k = (c.windowClosed k).actPending k := by
  have hfirst : (if c.firstWindow then { c.clearAbsent k with firstWindow := false } else c) =
      { c with firstWindow := false, repair := c.repairAfterWindow k } := by
    unfold Ctl.repairAfterWindow
    cases hf : c.firstWindow with
    | true => simp only [if_true, clearAbsent_eq (htasks hf)]
    | false => exact congrArg (fun b => ({ c with firstWindow := b } : Ctl)) hf
  have hentered (d : Ctl) : (if d.mark.frozenOwed then d.enterFrozen else d.enterState .active) =
      { d with
        station := if d.mark.frozenOwed then .frozen else .active,
        alerts := if d.mark.frozenOwed then { d.alerts with pending := d.alerts.pending ||| 0x10#8 } else d.alerts } := by
    cases d.mark.frozenOwed with
    | true => exact Ctl.enterFrozen_shape d
    | false => exact enterActive_eq d
  unfold Ctl.windowEnd
  rw [hst, hwin]
  refine (if_pos (by simp)).trans (congrArg (Ctl.actPending · k) ?_)
  show (if (Ctl.mark _).frozenOwed then _ else _) = _
  rw [hentered, hfirst]
  rfl

theorem actPending_none {c : Ctl} (h : c.holdings.pending = false ∨ c.holdings.series ≠ none) (k : Env) :
    c.actPending k = c := by
  refine if_neg ?_
  rcases h with h | h
  · simp [h]
  · simp [h]

theorem actPending_starts {c : Ctl} (hp : c.holdings.pending = true) (hs : c.holdings.series = none)
    (hst : c.station.timersRun = true) (k : Env) :
    c.actPending k = Ctl.startSeries { c with holdings := { c.holdings with pending := false } } k :=
  if_pos (by simp [hp, hs, hst])

/-- Settles O37: the station leaves LISTENING, then `actPending` starts a series that waits. -/
theorem listeningWindowEnd : Obligations.ListeningWindowEnd := by
  intro s hlow
  refine ⟨fun h => next_onCtl_same fun _ => windowEnd_early h _, fun hst hwin => ?due⟩
  case due =>
    intro absent htasks entered
    have hexec := next_onCtl_eq (f := Ctl.windowEnd) hlow (windowEnd_due hst hwin htasks)
    have hruns : (s.ctl.windowClosed s.env).station.timersRun = true := by
      show (if s.ctl.mark.frozenOwed then StationState.frozen else .active).timersRun = true
      cases s.ctl.mark.frozenOwed <;> rfl
    refine ⟨fun h => ?_, fun hp hs => ?_⟩
    · exact hexec.trans (next_ctl_congr (actPending_none (c := s.ctl.windowClosed s.env) h _))
    · obtain ⟨series, flags, items, hforms, hstart⟩ := startSeries_spec
        { s.ctl.windowClosed s.env with holdings := { s.ctl.holdings with pending := false } } s.env
      obtain ⟨hnum, hgroup, hindex, -⟩ := Ctl.formsHoldings_next hforms
      refine ⟨series, flags, items, hnum, hgroup, hindex, hforms, hexec.trans (next_ctl_congr ?_)⟩
      exact (actPending_starts (c := s.ctl.windowClosed s.env) hp hs hruns _).trans hstart

end Sys2Proof.Machine
end

