-- ==== Sys2Proof/Proofs/AnswerTimer.lean ====
section
/-!
PROOFS. The answer timer of an Extent Table entry (R119, R122).
-/

namespace Sys2Proof.Machine

/-! ## The deadline -/

/-- The records of an entry that are AWAITING. -/
def ETEntry.waitingRecords (x : ETEntry) : List TargetRec :=
  (x.places.filterMap (·.target)).filter (fun r => decide (r.state = .awaiting))

/-- An entry's answer timer stopped. -/
def Ctl.stopTimer (c : Ctl) (seq : Word) (ext : Nat) : Ctl :=
  c.onPageEntries seq (fun x => if x.ext = ext then { x with timer := none } else x)

theorem answerExpired_quiet {c : Ctl} {seq : Word} {ext : Nat} (h : c.station.timersRun = false ∨
    ∀ x, c.etEntry seq ext = some x → x.timer ≠ some 0) (k : Env) : c.answerExpired k seq ext = c := by
  unfold Ctl.answerExpired
  cases hx : c.etEntry seq ext with
  | none => rfl
  | some x =>
    refine if_neg ?_
    simp only [Bool.and_eq_true, decide_eq_true_eq]
    rintro ⟨htimer, hst⟩
    rcases h with h | h
    · rw [h] at hst
      cases hst
    · exact h x hx htimer

/-- The awaiting records tried fewer than 4 times are sent to again; the others are lost one after the other. -/
theorem answerExpired_due {c : Ctl} {seq : Word} {ext : Nat} {x : ETEntry} (hst : c.station.timersRun = true)
    (hx : c.etEntry seq ext = some x) (htimer : x.timer = some 0) (k : Env) :
    c.answerExpired k seq ext =
      ((x.waitingRecords.filter (fun r => decide (4 ≤ r.attempts))).foldl (fun (c : Ctl) r => c.loseTarget k seq r.station)
        ((c.stopTimer seq ext).transmit k seq ext
          (maskOf ((x.waitingRecords.filter (fun r => decide (r.attempts < 4))).map (·.station))))).sweepAll k := by
  unfold Ctl.answerExpired
  rw [hx]
  refine (if_pos (by simp [htimer, hst])).trans ?_
  rw [ETEntry.waitingRecords, List.filter_filter, List.filter_filter]
  simp only [Bool.and_comm]
  rfl

theorem answerExpired_retries {c : Ctl} {seq : Word} {ext : Nat} {x : ETEntry} (hst : c.station.timersRun = true)
    (hx : c.etEntry seq ext = some x) (htimer : x.timer = some 0) (hfew : ∀ r ∈ x.waitingRecords, r.attempts < 4) (k : Env) :
    c.answerExpired k seq ext =
      ((c.stopTimer seq ext).transmit k seq ext (maskOf (x.waitingRecords.map (·.station)))).sweepAll k := by
  have hagain : x.waitingRecords.filter (fun r => decide (r.attempts < 4)) = x.waitingRecords :=
    List.filter_eq_self.2 fun r hr => decide_eq_true (hfew r hr)
  have hlost : x.waitingRecords.filter (fun r => decide (4 ≤ r.attempts)) = [] :=
    List.filter_eq_nil_iff.2 fun r hr => by simpa using hfew r hr
  rw [answerExpired_due hst hx htimer, hagain, hlost]
  rfl

theorem answerExpired_loses {c : Ctl} {seq : Word} {ext : Nat} {x : ETEntry} {r : TargetRec}
    (hst : c.station.timersRun = true) (hx : c.etEntry seq ext = some x) (htimer : x.timer = some 0)
    (hone : x.waitingRecords = [r]) (hmany : 4 ≤ r.attempts) (k : Env) :
    c.answerExpired k seq ext = ((c.stopTimer seq ext).loseTarget k seq r.station).sweepAll k := by
  have hagain : x.waitingRecords.filter (fun r => decide (r.attempts < 4)) = [] := by
    rw [hone]
    exact List.filter_cons_of_neg (by simpa using hmany)
  have hlost : x.waitingRecords.filter (fun r => decide (4 ≤ r.attempts)) = [r] := by
    rw [hone]
    exact List.filter_cons_of_pos (by simpa using hmany)
  rw [answerExpired_due hst hx htimer, hagain, hlost]
  have hnone (d : Ctl) : d.transmit k seq ext (maskOf []) = d := if_pos rfl
  rw [List.map_nil, hnone]
  rfl

/-! ## A lost target (R122) -/

/-- The under flag sees of the Extent Table only which pages stand in it. -/
theorem flagged_map {c d : Ctl} {g : ETEntry → ETEntry} (h : d.et = c.et.map g) (hg : ∀ x, (g x).seq = x.seq) (k : Env)
    (e : Entry) : d.flagged k e = c.flagged k e := by
  have htable (q : Word) : d.inTable q = c.inTable q := by
    unfold Ctl.inTable
    rw [h, List.any_map]
    exact congrArg (c.et.any ·) (funext fun x => by rw [Function.comp_apply, hg])
  unfold Ctl.flagged Ctl.underCopied
  rw [htable]

/-- An own page's entry with a target struck out. -/
def Entry.strike (t : Station) (e : Entry) : Entry :=
  { e with targets := e.targets.filter (· != t), extra := if e.extra = some t then none else e.extra,
           excluded := withStation e.excluded t }

/-- What the loss of a target strikes: its records, its place among the targets, its frames, jobs and catch-ups. -/
def Ctl.strikeTarget (c : Ctl) (k : Env) (seq : Word) (t : Station) : Ctl :=
  let c := c.onPageEntries seq (fun x => x.onRecord t (fun r => { r with state := .dropped }))
  let c := c.update k (ownId k seq) (Entry.strike t)
  let c := c.onTx (fun q => q.narrow (fun s _ => s == seq) t)
  let c := c.cancelJobs (fun j => decide (j.page = ownId k seq) && decide (j.target = t))
  { c with catchUps := c.catchUps.filter (fun x => !(x.seq == seq && x.target == t)) }

theorem loseTarget_of {c : Ctl} {k : Env} {seq : Word} {t : Station} {e : Entry} (he : c.ownEntry k seq = some e)
    (hopen : ∃ x ∈ c.et, x.seq = seq ∧ x.settled = .none) (ht : t ∈ e.targets) :
    c.loseTarget k seq t = (((c.strikeTarget k seq t).pruneOwed.fillPlaces k seq false).pruneOwed).resumeTimers seq := by
  obtain ⟨x, hx, hseq, hset⟩ := hopen
  have hopen : (c.unsettledOf seq).isEmpty = false := by
    rw [List.isEmpty_eq_false_iff_exists_mem]
    exact ⟨x, List.mem_filter.2 ⟨hx, by simp [hseq, ETEntry.unsettled, hset]⟩⟩
  unfold Ctl.loseTarget
  rw [he]
  exact if_neg (by simp [hopen, ht])

/-- With no job for the target the strike leaves the receiver, the port and the jobs. -/
theorem strikeTarget_fields {c : Ctl} {k : Env} {seq : Word} {t : Station}
    (hj : ∀ slot j, c.jobs.get slot = some j → j.target ≠ t) :
    let d := c.strikeTarget k seq t
    d.et = c.et.map (fun x => if x.seq = seq then x.onRecord t (fun r => { r with state := .dropped }) else x) ∧
    d.owed = c.owed ∧ d.port = c.port ∧ d.rx = c.rx ∧ d.jobs = c.jobs ∧ d.peers = c.peers ∧ d.station = c.station ∧
    d.dir = c.dir.map (fun e => if e.id = ownId k seq then c.flagged k (e.strike t) else e) := by
  intro d
  obtain ⟨d4, hd4⟩ : ∃ d4, d4 = ((c.onPageEntries seq (fun x => x.onRecord t (fun r => { r with state := .dropped }))).update
      k (ownId k seq) (Entry.strike t)).onTx (fun q => q.narrow (fun s _ => s == seq) t) := ⟨_, rfl⟩
  have hjobs : d4.jobs = c.jobs := by rw [hd4]; simp only [Ctl.onTx_jobs, Ctl.update_jobs, Ctl.onPageEntries_jobs]
  have hcancel : d4.cancelJobs (fun j => decide (j.page = ownId k seq) && decide (j.target = t)) = d4 := by
    refine cancelJobs_none fun slot j h => ?_
    rw [hjobs] at h
    simp [hj slot j h]
  have hd : d = { d4 with catchUps := d4.catchUps.filter (fun x => !(x.seq == seq && x.target == t)) } := by
    rw [← hcancel, hd4]
    rfl
  have hflag (e : Entry) : (c.onPageEntries seq (fun x => x.onRecord t (fun r => { r with state := .dropped }))).flagged k e =
      c.flagged k e :=
    flagged_map (Ctl.onPageEntries_et _ _ _) (fun x => by split <;> rfl) k e
  rw [hd]
  refine ⟨?_, ?_, ?_, ?_, hjobs, ?_, ?_, ?_⟩
  all_goals
    rw [hd4]
    simp only [Ctl.onTx_et, Ctl.onTx_owed, Ctl.onTx_port, Ctl.onTx_rx, Ctl.onTx_peers, Ctl.onTx_station, Ctl.onTx_dir,
      Ctl.update_et, Ctl.update_owed, Ctl.update_port, Ctl.update_rx, Ctl.update_peers, Ctl.update_station, Ctl.update_dir,
      Ctl.onPageEntries_et, Ctl.onPageEntries_owed, Ctl.onPageEntries_port, Ctl.onPageEntries_rx, Ctl.onPageEntries_peers,
      Ctl.onPageEntries_station, Ctl.onPageEntries_dir, hflag]

theorem resumeTimers_idle {c : Ctl} {seq : Word} (h : ∀ x ∈ c.et, x.seq = seq → x.awaiting = 0) :
    c.resumeTimers seq = c := by
  have hmap : c.et.map (fun x => if x.seq = seq then
      (if x.unsettled && decide (x.awaiting ≠ 0) && x.timer.isNone && x.firstSent && !c.extentStands x.seq x.ext
          && !c.readBack.wants.any (fun w => w.seq == x.seq && w.ext == x.ext)
        then { x with timer := some answerTimeout } else x) else x) = c.et := by
    refine (List.map_congr_left fun x hx => ?_).trans (List.map_id' _)
    split
    case isTrue hseq => exact if_neg (by simp [h x hx hseq])
    case isFalse => rfl
  exact congrArg (fun l => ({ c with et := l } : Ctl)) hmap

theorem sweepAll_settled {c : Ctl} (h : c.owed = []) (k : Env) : c.sweepAll k = c.sweep k := by
  rw [Ctl.sweepAll, Ctl.sweepOwed_held (.inl h)]

/-- The stop of the timer, then the count of the attempts, in one map. -/
theorem stop_count (l : List ETEntry) (seq : Word) (ext : Nat) (f : TargetRec → TargetRec) :
    (l.map (fun y => if y.seq = seq then (if y.ext = ext then { y with timer := none } else y) else y)).map
        (fun y => if y.seq = seq ∧ y.ext = ext then { y.onRecords f with timer := none } else y) =
      l.map (fun y => if y.seq = seq ∧ y.ext = ext then { y.onRecords f with timer := none } else y) := by
  rw [List.map_map]
  refine List.map_congr_left fun y _ => ?_
  by_cases h : y.seq = seq ∧ y.ext = ext
  · obtain ⟨rfl, rfl⟩ := h
    simp [ETEntry.onRecords]
  · have hkeep : (if y.seq = seq then (if y.ext = ext then { y with timer := none } else y) else y) = y := by
      rw [← ite_and, if_neg h]
    rw [Function.comp_apply, hkeep]

/-- The one target of a page is lost while no station can take its place. -/
theorem loseTarget_only {c : Ctl} {k : Env} {seq : Word} {x : ETEntry} {r : TargetRec} {e : Entry} (het : c.et = [x])
    (hseq : x.seq = seq) (hset : x.settled = .none) (hplaces : x.places = [{ extra := false, target := some r }])
    (he : c.ownEntry k seq = some e) (htargets : e.targets = [r.station]) (hextra : e.extra = none)
    (halone : ∀ p, c.countsPresent k p = true → p = k.me) (howed : c.owed = [])
    (hj : ∀ slot j, c.jobs.get slot = some j → j.target ≠ r.station) :
    let d := c.loseTarget k seq r.station
    d.et = [{ x with places := [{ extra := false, target := some { r with state := .dropped } }] }] ∧
    d.port = c.port ∧ d.rx = c.rx ∧ d.jobs = c.jobs ∧ d.owed = [] ∧
    (d.ownEntry k seq).map (fun e => (e.targets, e.excluded, e.depths)) =
      some ([], withStation e.excluded r.station, e.depths) := by
  intro d
  obtain ⟨hset', howed', hport, hrx, hjobs, hpeers, hst, hdir⟩ := strikeTarget_fields (k := k) (seq := seq) hj
  have hd : d = _ := loseTarget_of he ⟨x, by simp [het], hseq, hset⟩ (by simp [htargets])
  generalize c.strikeTarget k seq r.station = f at *
  have hstruck : f.et = [{ x with places := [{ extra := false, target := some { r with state := .dropped } }] }] := by
    rw [hset', het, List.map_singleton, if_pos hseq]
    simp [ETEntry.onRecord, hplaces]
  have hdir' : f.dir = (c.update k (ownId k seq) (Entry.strike r.station)).dir := by rw [hdir, Ctl.update_dir]
  have hentry : f.ownEntry k seq =
      some { e.strike r.station with under := c.underCopied k (e.strike r.station) } :=
    (Ctl.ownEntry_congr hdir' k seq).trans (update_self (Entry.strike r.station) (fun _ => rfl) he)
  have hnone : (e.strike r.station).targets = [] := by simp [Entry.strike, htargets]
  have hfill : f.pruneOwed.fillPlaces k seq false = f.pruneOwed := by
    refine fillPlaces_none (c := f.pruneOwed) false hentry (substitute_none ?_ fun p hp => halone p ?_) hnone ?_
    · exact (congrArg PageId.origin (entry_id he) :)
    · rw [← hp]
      show c.countsPresent k p = f.countsPresent k p
      rw [Ctl.countsPresent, Ctl.countsPresent, hst, hpeers]
    · show (if e.extra = some r.station then none else e.extra) = none
      rw [hextra]
      rfl
  have hresume : (f.pruneOwed.pruneOwed).resumeTimers seq = f.pruneOwed.pruneOwed := by
    refine resumeTimers_idle fun y hy _ => ?_
    have hy' : y ∈ f.et := hy
    rw [hstruck, List.mem_singleton] at hy'
    subst hy'
    rfl
  rw [hd, hfill, hresume]
  refine ⟨hstruck, hport, hrx, hjobs, ?_, ?_⟩
  · show (f.owed.filterMap _).filterMap _ = []
    rw [howed', howed]
    rfl
  · show (f.ownEntry k seq).map _ = _
    rw [hentry, Option.map_some, hnone]
    rfl

/-- Settles O38: the records tried again by one EXTENT, the only target lost by `loseTarget_only`. -/
theorem answerTimerExpiry : Obligations.AnswerTimerExpiry := by
  intro s seq ext hlow
  refine ⟨fun h => ?quiet, fun x hruns hx htimer howed => ?due⟩
  case quiet =>
    refine next_onCtl_same fun _ => answerExpired_quiet (h.imp_left fun hst => ?_) _
    exact Bool.eq_false_iff.2 fun hrun => ((timersRun_iff _).1 hrun).elim hst.1 hst.2
  case due =>
    intro awaiting
    have hst := (timersRun_iff _).2 hruns
    have hstill : (s.ctl.answerExpired s.env seq ext.val).still = s.ctl.still :=
      (Ctl.answerExpired_calm (w := false) (.refl s.ctl) s.env seq ext.val).still rfl
    refine ⟨fun b p i hne hfew hfill hi hwait hheld => ?_, fun r e het hset hplaces hstate hmany he htargets hextra halone
      hj hcatch => ?_⟩
    · have hsend := sendExtent_new (c := s.ctl.stopTimer seq ext.val) (k := s.env)
        (maskOf_ne (l := awaiting.map (·.station)) (by simpa using hne)) hfill hi hwait hheld
      rw [Ctl.countAttempts_eq] at hsend
      have hexp : s.ctl.answerExpired s.env seq ext.val =
          ((s.ctl.stopTimer seq ext.val).transmit s.env seq ext.val (maskOf (awaiting.map (·.station)))).sweepAll s.env :=
        answerExpired_retries hst hx htimer hfew s.env
      generalize (s.ctl.stopTimer seq ext.val).transmit s.env seq ext.val (maskOf (awaiting.map (·.station))) = d at hsend hexp
      rw [sweepAll_settled (c := d) (by rw [hsend]; exact howed)] at hexp
      refine ⟨_, next_onCtl_eq hlow rfl, hstill, ?_⟩
      rw [hexp, Ctl.sweep_dir, Ctl.sweep_port, Ctl.sweep_rx, Ctl.sweep_jobs, Ctl.sweep_tx, Ctl.sweep_et, hsend]
      exact ⟨rfl, rfl, rfl, rfl, rfl, stop_count s.ctl.et seq ext.val _⟩
    · have hone : x.waitingRecords = [r] := by simp [ETEntry.waitingRecords, hplaces, hstate]
      have hexp := answerExpired_loses hst hx htimer hone hmany s.env
      have hkey : x.seq = seq ∧ x.ext = ext.val := by
        have := List.find?_some hx
        simpa using this
      have hstop : (s.ctl.stopTimer seq ext.val).et = [{ x with timer := none }] := by
        show s.ctl.et.map _ = _
        rw [het, List.map_singleton]
        exact congrArg (fun z => [z]) ((if_pos hkey.1).trans (if_pos hkey.2))
      obtain ⟨hset', hport, hrx, hjobs, howed', hentry⟩ := loseTarget_only (c := s.ctl.stopTimer seq ext.val) hstop hkey.1
        hset hplaces he htargets hextra halone howed hj
      rw [sweepAll_settled howed'] at hexp
      refine ⟨_, next_onCtl_eq hlow rfl, hstill, ?_⟩
      rw [hexp]
      refine ⟨?_, ?_, ?_, ?_, ?_⟩
      · rw [Ctl.sweep_port]; exact hport
      · rw [Ctl.sweep_rx]; exact hrx
      · rw [Ctl.sweep_jobs]; exact hjobs
      · rw [Ctl.sweep_et]; exact hset'
      · rw [Ctl.ownEntry_congr (Ctl.sweep_dir _ _)]; exact hentry

end Sys2Proof.Machine
end

