-- ==== Sys2Proof/Proofs/JobAnswers.lean ====
section
/-!
PROOFS. An ANSWER that names a page of another origin (R81, R86, R97, R141, R146, R147).
-/

namespace Sys2Proof.Machine

/-! ## What is disregarded (R174) -/

theorem verdictOf_none {b : Byte} (h : b = 0 ∨ 6 < b.toNat) : verdictOf b = none := by
  have hn : b.toNat = 0 ∨ 6 < b.toNat := h.imp_left (congrArg BitVec.toNat)
  unfold verdictOf
  split
  case h_7 => rfl
  all_goals omega

theorem takeAnswer_unknown {c : Ctl} {a : AnswerBody} (h : a.verdict = 0 ∨ 6 < a.verdict.toNat) (k : Env) (t : Station) :
    c.takeAnswer k t a = c := by
  simp only [Ctl.takeAnswer, verdictOf_none h]

theorem takeAnswer_noStation {c : Ctl} {a : AnswerBody} {v : Verdict} (hv : a.verdict = v.code) (h : 8 ≤ a.origin.toNat)
    (k : Env) (t : Station) : c.takeAnswer k t a = c.heardFull t v := by
  simp only [Ctl.takeAnswer, hv, verdictOf_code, stationOf_none (show 7 < a.origin.toNat from h)]

theorem takeAnswer_of {c : Ctl} {a : AnswerBody} {v : Verdict} {o : Station} (hv : a.verdict = v.code)
    (ho : a.origin.toNat = o.val) (k : Env) (t : Station) :
    c.takeAnswer k t a = (c.heardFull t v).takeVerdict k t { origin := o, seq := a.seq } a v := by
  have horigin : a.origin = byteOf o.val := (byteOf_station_iff _ _).2 ho
  simp only [Ctl.takeAnswer, hv, verdictOf_code, horigin, stationOf_me]

theorem heardFull_eq (c : Ctl) (t : Station) (v : Verdict) :
    c.heardFull t v = { c with
      peers := if v = .full then vput c.peers t { c.peers.get t with full := true } else c.peers } := by
  unfold Ctl.heardFull
  split <;> rfl

/-! ## What is recorded of the page -/

/-- What an ANSWER says of its sender's depth in a page of another origin. -/
def AnswerBody.tells (a : AnswerBody) (k : Env) (t : Station) (v : Verdict) (e : Entry) : Entry :=
  if a.addressee = byteOf k.me.val then e.jobDepth t a.ext.toNat v else e.snoop t a v

theorem tells_id (a : AnswerBody) (k : Env) (t : Station) (v : Verdict) (e : Entry) : (a.tells k t v e).id = e.id := by
  unfold AnswerBody.tells
  split
  · exact e.jobDepth_id t _ v
  · exact e.snoop_id t a v

theorem takeVerdict_eq (c : Ctl) (k : Env) (t : Station) (id : PageId) (a : AnswerBody) (v : Verdict) :
    ∃ b, c.takeVerdict k t id a v = ((c.answerFor k t id a v b).endMatched k 0 t id a v (c.jobMatches k 0 t id a)).endMatched
      k 1 t id a v (c.jobMatches k 1 t id a) := ⟨_, rfl⟩

theorem takeVerdict_other {c : Ctl} {k : Env} {id : PageId} {a : AnswerBody} (ho : id.origin ≠ k.me)
    (h : a.addressee = byteOf k.me.val → a.isCopy = true) (t : Station) (v : Verdict) :
    c.takeVerdict k t id a v =
      ((c.update k id (a.tells k t v)).endMatched k 0 t id a v (c.jobMatches k 0 t id a)).endMatched k 1 t id a v
        (c.jobMatches k 1 t id a) := by
  have hanswer (b : Bool) : c.answerFor k t id a v b = c.update k id (a.tells k t v) := by
    unfold Ctl.answerFor AnswerBody.tells
    by_cases hmine : a.addressee = byteOf k.me.val
    · simp only [ho, hmine, h hmine, if_false, if_true, ne_eq, not_true_eq_false]
    · simp only [ho, hmine, if_false, ne_eq, not_false_eq_true, if_true]
  obtain ⟨b, htake⟩ := takeVerdict_eq c k t id a v
  rw [htake, hanswer]

theorem takeVerdict_mute {c : Ctl} {k : Env} {id : PageId} {a : AnswerBody} (ho : id.origin ≠ k.me)
    (hmine : a.addressee = byteOf k.me.val) (h : a.isCopy = false) (t : Station) (v : Verdict) :
    c.takeVerdict k t id a v = c := by
  have hanswer (b : Bool) : c.answerFor k t id a v b = c := by
    unfold Ctl.answerFor
    simp only [ho, hmine, h, if_false, ne_eq, not_true_eq_false, Bool.false_eq_true]
  obtain ⟨b, htake⟩ := takeVerdict_eq c k t id a v
  rw [htake, hanswer, endMatched_false _ _ _ _ _ _ _ _ (.inr (.inr (jobMatches_false _ _ _ _ _ _ h))),
    endMatched_false _ _ _ _ _ _ _ _ (.inr (.inr (jobMatches_false _ _ _ _ _ _ h)))]

/-! ## The job that it ends (R147) -/

theorem endMatched_shape (c : Ctl) (k : Env) (slot : Fin 2) (t : Station) (id : PageId) (a : AnswerBody) (v : Verdict)
    (m : Bool) : ∃ tx jobs, c.endMatched k slot t id a v m = { c with tx := tx, jobs := jobs } := by
  unfold Ctl.endMatched
  split
  · obtain ⟨tx, jobs, hclose⟩ := Ctl.closeJob_shape c slot
    obtain ⟨tx', jobs', hresume⟩ := Ctl.resumeCopies_shape (c.closeJob slot) c.tx
    rw [hresume, hclose]
    exact ⟨tx', jobs', rfl⟩
  · exact ⟨c.tx, c.jobs, rfl⟩

theorem endMatched_of {c : Ctl} {k : Env} {slot : Fin 2} {t : Station} {id : PageId} {a : AnswerBody} {v : Verdict}
    (hv : v.endsJob = true) (h : c.jobMatches k slot t id a = true) :
    c.endMatched k slot t id a v true = (c.closeJob slot).resumeCopies c.tx :=
  if_pos (by simp [hv, h])

/-- The one slot whose job the ANSWER matches is closed. -/
theorem endMatched_both {c : Ctl} {k : Env} {slot : Fin 2} {t : Station} {id : PageId} {a : AnswerBody} {v : Verdict}
    (hv : v.endsJob = true) (h : c.jobMatches k slot t id a = true)
    (hother : ∀ other, other ≠ slot → c.jobMatches k other t id a = false) :
    (c.endMatched k 0 t id a v (c.jobMatches k 0 t id a)).endMatched k 1 t id a v (c.jobMatches k 1 t id a) =
      (c.closeJob slot).resumeCopies c.tx := by
  match slot with
  | 0 =>
    rw [endMatched_false _ _ 1 _ _ _ _ _ (.inr (.inl (hother 1 (by decide)))), h]
    exact endMatched_of hv h
  | 1 =>
    rw [endMatched_false c _ 0 _ _ _ _ _ (.inr (.inl (hother 0 (by decide)))), h]
    exact endMatched_of hv h

/-- The jobs after the end of one of them. -/
def Ctl.jobsClosed (c : Ctl) (slot : Fin 2) (j : Job) : Vector (Option Job) 2 :=
  vput c.jobs slot (if ∃ e ∈ c.tx.entries, e.sending = true ∧ e.body.isCopyOf slot = true then
    some { j with cancelled := true, owed := false, timer := none } else none)

theorem mem_withdraw_held {t : Tx} {p : TxBody → Bool} {b : TxBody} : b ∈ (t.withdraw p).held ↔ b ∈ t.held ∧ p b = false := by
  simp [Tx.withdraw]

/-- Only another job's COPY can be owed once a job is closed. -/
theorem jobsClosed_owed {c : Ctl} {slot v : Fin 2} {j i : Job} (h : (c.jobsClosed slot j).get v = some i)
    (ho : i.owed = true) : v ≠ slot ∧ c.jobs.get v = some i := by
  unfold Ctl.jobsClosed at h
  by_cases hv : v = slot
  · subst hv
    rw [vput_get_same] at h
    split at h
    · cases h
      cases ho
    · cases h
  · rw [vput_get_other _ _ _ _ hv] at h
    exact ⟨hv, h⟩

theorem closeResume_quiet {c : Ctl} {slot : Fin 2} {j : Job} (hj : c.jobs.get slot = some j)
    (h : (∀ b ∈ c.tx.held, b.isAnyCopy = false) ∨
      ∀ other i, other ≠ slot → c.jobs.get other = some i → i.owed = false) :
    (c.closeJob slot).resumeCopies c.tx =
      { c with tx := c.tx.withdraw (fun b => b.isCopyOf slot), jobs := c.jobsClosed slot j } := by
  rw [closeJob_shape c slot hj]
  rcases h with hheld | howed
  · exact if_neg (by simpa using hheld)
  · have hnone := Ctl.requestOwedCopies_none
      (c := { c with tx := c.tx.withdraw (fun b => b.isCopyOf slot), jobs := c.jobsClosed slot j }) fun v i hi => by
        by_contra ho
        obtain ⟨hv, hget⟩ := jobsClosed_owed hi (by simpa using ho)
        exact ho (howed v i hv hget)
    unfold Ctl.resumeCopies
    split
    · exact hnone
    · rfl

/-- The other job's COPY, owed behind the one withdrawn, is requested. -/
theorem closeResume_owed {c : Ctl} {slot other : Fin 2} {j i : Job} (hj : c.jobs.get slot = some j) (hne : other ≠ slot)
    (hi : c.jobs.get other = some i) (ho : i.owed = true) (hheld : ∃ b ∈ c.tx.held, b.isCopyOf slot = true)
    (honly : ∀ b ∈ c.tx.held, b.isAnyCopy = true → b.isCopyOf slot = true) :
    (c.closeJob slot).resumeCopies c.tx = { c with
      tx := (c.tx.withdraw (fun b => b.isCopyOf slot)).request (.copy i.page i.target other),
      jobs := vput (c.jobsClosed slot j) other
        (some { i with state := .queued, owed := false, timer := none, attempts := i.attempts + 1 }) } := by
  have hany : c.tx.held.any TxBody.isAnyCopy = true := by
    obtain ⟨b, hb, hcopy⟩ := hheld
    refine List.any_eq_true.2 ⟨b, hb, ?_⟩
    cases b <;> simp_all [TxBody.isCopyOf, TxBody.isAnyCopy]
  rw [closeJob_shape c slot hj]
  refine (if_pos hany).trans (Ctl.requestOwedCopies_one
    (c := { c with tx := c.tx.withdraw (fun b => b.isCopyOf slot), jobs := c.jobsClosed slot j }) ?_ ho ?_ ?_)
  · exact (vput_get_other _ _ _ _ hne).trans hi
  · intro v i' hv hi'
    by_contra ho'
    obtain ⟨hvs, -⟩ := jobsClosed_owed hi' (by simpa using ho')
    omega
  · intro b hb
    obtain ⟨hmem, hnot⟩ := mem_withdraw_held.1 hb
    exact Bool.eq_false_iff.2 fun hcopy => by simp [honly b hmem hcopy] at hnot

end Sys2Proof.Machine
end

