-- ==== Sys2Proof/Proofs/AnswerFrames.lean ====
section
/-!
PROOFS. The ANSWER statement for pages of other origins.
-/

namespace Sys2Proof.Machine

/-- An ANSWER that ends no job. -/
theorem endMatched_neither {c : Ctl} {k : Env} {t : Station} {id : PageId} {a : AnswerBody} {v : Verdict}
    (h : v.endsJob = false ∨ ∀ slot, c.jobMatches k slot t id a = false) :
    (c.endMatched k 0 t id a v (c.jobMatches k 0 t id a)).endMatched k 1 t id a v (c.jobMatches k 1 t id a) = c := by
  have hno (slot : Fin 2) : c.endMatched k slot t id a v (c.jobMatches k slot t id a) = c :=
    endMatched_false _ _ _ _ _ _ _ _ (h.imp_right fun h => .inl (h slot))
  rw [hno, hno]

theorem endMatched_both_shape (c : Ctl) (k : Env) (t : Station) (id : PageId) (a : AnswerBody) (v : Verdict) :
    ∃ tx jobs, (c.endMatched k 0 t id a v (c.jobMatches k 0 t id a)).endMatched k 1 t id a v (c.jobMatches k 1 t id a) =
      { c with tx := tx, jobs := jobs } := by
  obtain ⟨tx, jobs, h0⟩ := endMatched_shape c k 0 t id a v (c.jobMatches k 0 t id a)
  obtain ⟨tx', jobs', h1⟩ := endMatched_shape { c with tx := tx, jobs := jobs } k 1 t id a v (c.jobMatches k 1 t id a)
  exact ⟨tx', jobs', by rw [h0, h1]⟩

theorem endsJob_iff (v : Verdict) : v.endsJob = true ↔ v ≠ .gap ∧ v ≠ .dropped := by
  cases v <;> simp [Verdict.endsJob]

/-- Settles O45: the depth by `tells`, the job by `closeResume_quiet` and `closeResume_owed`. -/
theorem answerFrame : Obligations.AnswerFrame := by
  intro s f t a hlow hrec ht hst
  have hexec {d : Ctl} (h : s.ctl.takeAnswer s.env t a = d) : exec (.answerFrame f) s = .next { s with ctl := d } :=
    (exec_answerFrame hlow hrec ht hst).trans (next_ctl_congr h)
  refine ⟨fun h => hexec (takeAnswer_unknown h _ _), fun v ho hv => hexec ?noStation, fun o v ho hv hother => ?page⟩
  case noStation => rw [takeAnswer_noStation hv ho, heardFull_eq]
  case page =>
    intro id mine copy peers n deep told
    have hheard : s.ctl.heardFull t v = { s.ctl with peers := peers } := heardFull_eq _ _ _
    have htake := takeAnswer_of (c := s.ctl) hv ho s.env t
    rw [hheard] at htake
    refine ⟨fun hmine hcopy => hexec (htake.trans (takeVerdict_mute hother hmine (Bool.eq_false_iff.2 hcopy) _ _)),
      fun hcopy => ?_⟩
    have hcalm := Ctl.takeVerdict_calm (w := false) (.refl { s.ctl with peers := peers }) s.env t id a v
    have hstill := hcalm.still rfl
    rw [← htake] at hstill
    rw [takeVerdict_other hother hcopy] at htake
    have htells (e : Entry) : a.tells s.env t v e = told e := by
      unfold AnswerBody.tells
      by_cases hm : a.addressee = byteOf s.env.me.val
      · have hn : n = a.ext.toNat := if_pos (hcopy hm)
        rw [if_pos hm]
        cases v with
        | programmed => exact congrArg (e.raiseDepth t) hn.symm
        | held => exact congrArg (e.raiseDepth t) hn.symm
        | gap => exact (if_pos hm).symm
        | full => rfl
        | lost => rfl
        | dropped => exact (if_pos hm).symm
      · rw [if_neg hm]
        cases v with
        | programmed => rfl
        | held => rfl
        | gap => exact (if_neg hm).symm
        | full => rfl
        | lost => rfl
        | dropped => exact (if_neg hm).symm
    have hmatch (slot : Fin 2) : Ctl.jobMatches { s.ctl with peers := peers } s.env slot t id a =
        (Ctl.update { s.ctl with peers := peers } s.env id (a.tells s.env t v)).jobMatches s.env slot t id a :=
      (jobMatches_congr (Ctl.update_jobs _ _ _ _) _ _ _ _ _).symm
    rw [hmatch, hmatch] at htake
    have hentry (x : PageId) : (Ctl.update { s.ctl with peers := peers } s.env id (a.tells s.env t v)).entry x =
        (s.ctl.entry x).map (fun e => if e.id = id then { told e with under := s.ctl.underCopied s.env (told e) } else e) := by
      rw [Ctl.entry_update (tells_id a s.env t v)]
      simp only [htells]
      rfl
    obtain ⟨dir, repair, recheck, alerts, hshape⟩ :=
      Ctl.update_shape { s.ctl with peers := peers } s.env id (a.tells s.env t v)
    rw [hshape] at htake hentry
    obtain ⟨d, hd⟩ : ∃ d : Ctl, d = { s.ctl with peers := peers, dir := dir, repair := repair, recheck := recheck, alerts := alerts } :=
      ⟨_, rfl⟩
    obtain ⟨tx, jobs, hends⟩ := endMatched_both_shape d s.env t id a v
    have htake' : s.ctl.takeAnswer s.env t a = (d.endMatched s.env 0 t id a v (d.jobMatches s.env 0 t id a)).endMatched s.env
        1 t id a v (d.jobMatches s.env 1 t id a) := by
      rw [hd]
      exact htake
    have hdir : (s.ctl.takeAnswer s.env t a).dir = dir := by rw [htake, ← hd, hends, hd]
    refine ⟨_, hexec rfl, hstill, ?_, ?_, ?_, ?_, fun i hi => ?_, fun hno => ?_, fun slot j hmine hgap hdrop hj htarget hpage
      hcancel hreading hothers => ?_⟩
    · rw [htake, ← hd, hends, hd]
    · rw [htake, ← hd, hends, hd]
    · rw [htake, ← hd, hends, hd]
    · rw [Ctl.entry_congr (c := { s.ctl with peers := peers, dir := dir, repair := repair, recheck := recheck, alerts := alerts })
        hdir, hentry]
      refine Option.map_congr fun e he => ?_
      exact if_pos (Ctl.entry_id he)
    · rw [Ctl.entry_congr (c := { s.ctl with peers := peers, dir := dir, repair := repair, recheck := recheck, alerts := alerts })
        hdir, hentry]
      refine (Option.map_congr fun e he => if_neg fun hid => hi ?_).trans Option.map_id'
      rw [← hid, Ctl.entry_id he]
    · have hneither : v.endsJob = false ∨ ∀ slot, d.jobMatches s.env slot t id a = false := by
        rcases hno with hno | rfl | rfl | hno
        · refine .inr fun slot => Bool.eq_false_iff.2 fun hm => ?_
          obtain ⟨j, -, -, haddr, -⟩ := (jobMatches_iff _ _ _ _ _ _).1 hm
          exact hno haddr
        · exact .inl rfl
        · exact .inl rfl
        · refine .inr fun slot => Bool.eq_false_iff.2 fun hm => ?_
          obtain ⟨j, hj, htarget, -, -, hpage, hcancel, hreading⟩ := (jobMatches_iff _ _ _ _ _ _).1 hm
          rw [hd] at hj
          rcases hno slot j hj with h | h | h | h
          · exact h htarget
          · exact h hpage
          · exact Bool.false_ne_true (hcancel.symm.trans h)
          · exact hreading h
      rw [htake, ← hd, endMatched_neither hneither, hd]
      exact ⟨rfl, rfl⟩
    · have hends : v.endsJob = true := (endsJob_iff v).2 ⟨hgap, hdrop⟩
      have hmatch : d.jobMatches s.env slot t id a = true :=
        (jobMatches_iff _ _ _ _ _ _).2 ⟨j, by rw [hd]; exact hj, htarget, hmine, hcopy hmine, hpage, hcancel, hreading⟩
      have hunmatched : ∀ other, other ≠ slot → d.jobMatches s.env other t id a = false := by
        intro other hne
        refine Bool.eq_false_iff.2 fun hm => ?_
        obtain ⟨i, hi, htarget', -, -, hpage', -⟩ := (jobMatches_iff _ _ _ _ _ _).1 hm
        rw [hd] at hi
        exact (hothers other i hne hi).elim (fun h => h hpage') (fun h => h htarget')
      have hclose := endMatched_both hends hmatch hunmatched
      rw [← htake'] at hclose
      have htx : d.tx = s.ctl.tx := by rw [hd]
      have hjobs : d.jobs = s.ctl.jobs := by rw [hd]
      rw [← hjobs] at hj
      refine ⟨fun hquiet => ?_, fun other i hne hi ho hheld honly => ?_⟩
      · rw [← hjobs, ← htx] at hquiet
        rw [hclose, closeResume_quiet hj hquiet, hd]
        exact ⟨rfl, rfl⟩
      · rw [← htx] at hheld honly
        rw [← hjobs] at hi
        rw [hclose, closeResume_owed hj hne hi ho hheld honly, hd]
        exact ⟨rfl, rfl⟩

end Sys2Proof.Machine
end

