-- ==== Sys2Proof/Proofs/OwnAnswerRules.lean ====
section
/-!
PROOFS. An ANSWER that names an own page (R11, R12, R120 to R122, R125).
-/

namespace Sys2Proof.Machine

/-! ## A depth recorded that settles nothing -/

/-- No entry is settled, and the page's entries stay below the copies asked for with the entry as it becomes. -/
def Ctl.depthSettlesNothing (c : Ctl) (k : Env) (seq : Word) (e : Entry) : Prop :=
  (∀ y ∈ c.et, y.settled = .none) ∧
    ∀ y ∈ c.et, y.seq = seq → (allStations.filter (fun i => decide (y.ext < e.depths.get i))).length < k.copies

theorem recordOwnDepth_quiet {c : Ctl} {k : Env} {seq : Word} {e : Entry} {g : Entry → Entry} (hg : ∀ e, (g e).id = e.id)
    (he : c.ownEntry k seq = some e) (h : c.depthSettlesNothing k seq (g e)) :
    c.recordOwnDepth k seq g = (c.update k (ownId k seq) g).pruneOwed := by
  obtain ⟨hset, hfew⟩ := h
  refine Ctl.testDurable_quiet (fun y hy => hset y ?_) fun y hy hseq => ?_
  · rwa [Ctl.update_et] at hy
  · rw [Ctl.update_et] at hy
    rw [durable_update g hg he, decide_eq_false_iff_not, not_le]
    exact hfew y hy hseq

theorem recordOwnDepth_entry {c : Ctl} {k : Env} {seq : Word} {e : Entry} {g : Entry → Entry} (hg : ∀ e, (g e).id = e.id)
    (he : c.ownEntry k seq = some e) :
    (c.update k (ownId k seq) g).pruneOwed.entry (ownId k seq) = some { g e with under := c.underCopied k (g e) } ∧
    ∀ i, i ≠ ownId k seq → (c.update k (ownId k seq) g).pruneOwed.entry i = c.entry i :=
  ⟨update_self g hg he, fun i hi => update_other g hg i hi⟩

theorem recordsDone_fields (c : Ctl) (q : Word) (t : Station) (n : Nat) :
    let d := c.recordsDone q t n
    d.rx = c.rx ∧ d.port = c.port ∧ d.jobs = c.jobs ∧ d.frontier = c.frontier ∧ d.dir = c.dir ∧
    d.tx = c.tx.narrow (fun s e => s == q && decide (e < n)) t ∧ (c.owed = [] → d.owed = []) := by
  refine ⟨rfl, rfl, rfl, rfl, rfl, rfl, fun h => ?_⟩
  show c.owed.filterMap _ = []
  rw [h]
  rfl

theorem pruneOwed_owed {c : Ctl} (h : c.owed = []) : c.pruneOwed.owed = [] := by
  show c.owed.filterMap _ = []
  rw [h]
  rfl

/-- The sweep after an event that leaves no owed transmission free to go. -/
theorem sweepAll_held {c : Ctl} (h : c.owed = [] ∨ c.tx.held.any TxBody.isAnyExtent = true) (k : Env) :
    c.sweepAll k = c.sweep k := by
  rw [Ctl.sweepAll, Ctl.sweepOwed_held h]

/-! ## The verdicts -/

section Verdicts

variable {c : Ctl} {k : Env} {t : Station} {a : AnswerBody} {e : Entry}

theorem ownAnswer_full (he : c.ownEntry k a.seq = some e) (hmine : a.addressee = byteOf k.me.val) :
    c.ownAnswer k t a .full false = c.loseTarget k a.seq t := by
  simp only [Ctl.ownAnswer, he, hmine, decide_true, if_true]

theorem ownAnswer_lost (he : c.ownEntry k a.seq = some e) (hmine : a.addressee = byteOf k.me.val) :
    c.ownAnswer k t a .lost false = (c.recordOwnDepth k a.seq (fun x => x.setDepth t 0)).loseTarget k a.seq t := by
  simp only [Ctl.ownAnswer, he, hmine, decide_true, if_true]

theorem ownAnswer_dropped (he : c.ownEntry k a.seq = some e) :
    let told := c.recordOwnDepth k a.seq (fun x => x.setDepth t a.aux.toNat)
    c.ownAnswer k t a .dropped false =
      if decide (a.addressee = 0xFF#8) && (c.hasLive a.seq t || told.hasLive a.seq t) then told.loseTarget k a.seq t
      else told := by
  simp only [Ctl.ownAnswer, he]
  rfl

theorem ownAnswer_gapped (he : c.ownEntry k a.seq = some e) (hmine : a.addressee = byteOf k.me.val) :
    let told := c.recordOwnDepth k a.seq (fun x => x.setDepth t a.aux.toNat)
    told.gapConcerns a.seq t a.ext.toNat = true →
    c.ownAnswer k t a .gap false = told.fillGap k a.seq t a.aux.toNat a.ext.toNat := by
  intro told hconcerns
  simp only [Ctl.ownAnswer, he]
  exact if_pos (by simp only [hmine, decide_true, Bool.true_and]; exact hconcerns)

end Verdicts

theorem hasLive_iff (c : Ctl) (seq : Word) (t : Station) :
    c.hasLive seq t = true ↔ ∃ y ∈ c.et, y.seq = seq ∧ y.settled = .none ∧ y.liveRecord t = true := by
  simp [Ctl.hasLive, Ctl.unsettledOf, ETEntry.unsettled, and_assoc]

end Sys2Proof.Machine
end

