-- ==== Sys2Proof/Proofs/OwnAnswers.lean ====
section
/-!
PROOFS. The ANSWER statement for own pages.
-/

namespace Sys2Proof.Machine

/-- PROGRAMMED or HELD that settles nothing, before the sweep. -/
theorem ownAnswer_raise_quiet {c : Ctl} {k : Env} {t : Station} {a : AnswerBody} {v : Verdict} {e : Entry}
    (he : c.ownEntry k a.seq = some e) (hv : v = .programmed ∨ v = .held) (hcopy : a.isCopy = false)
    (hquiet : c.depthSettlesNothing k a.seq (e.raiseDepth t (a.ext.toNat + 1)))
    (htimers : ∀ y ∈ c.et, y.seq = a.seq → y.timer ≠ none ∨ y.firstSent = false) :
    let n := a.ext.toNat + 1
    let told := (c.update k (ownId k a.seq) (fun e => e.raiseDepth t n)).pruneOwed
    (a.addressee ≠ byteOf k.me.val → c.ownAnswer k t a v false = told) ∧
    (a.addressee = byteOf k.me.val → c.ownAnswer k t a v false = (told.recordsDone a.seq t n).pruneOwed ∧
      (told.recordsDone a.seq t n).et = c.et.map (fun y =>
        if y.seq = a.seq ∧ y.ext < n then
          y.onRecord t (fun r => if r.state = .dropped then r else { r with state := .done })
        else y)) := by
  intro n told
  have hraise := ownAnswer_raise he hv hcopy (t := t)
  rw [recordOwnDepth_quiet (raiseDepth_id t _) he hquiet] at hraise
  refine ⟨fun hother => ?_, fun hmine => ?_⟩
  · rw [hraise, decide_eq_false hother]
    rfl
  · have het : told.et = c.et := Ctl.update_et c k (ownId k a.seq) _
    have hdone := recordsDone_et (c := told) (t := t) (n := n) fun y hy => htimers y (het ▸ hy)
    rw [het] at hdone
    refine ⟨?_, hdone⟩
    rw [hraise, decide_eq_true hmine, if_pos rfl]
    refine quiet_map hdone (fun y => markDone_seq y _ _ _ _) hquiet.1 fun y hy hseq => ?_
    obtain ⟨-, -, -, -, hdir, -, -⟩ := recordsDone_fields told a.seq t n
    obtain ⟨hpruned, -, -, -⟩ := pruneOwed_fields (c.update k (ownId k a.seq) (fun e => e.raiseDepth t n))
    rw [durable_congr hdir, durable_congr hpruned, durable_update _ (raiseDepth_id t n) he, decide_eq_false_iff_not, not_le]
    exact hquiet.2 y hy hseq

/-- What such an ANSWER leaves and records. -/
theorem ownAnswer_raise_fields {c : Ctl} {k : Env} {t : Station} {a : AnswerBody} {v : Verdict} {e : Entry}
    (he : c.ownEntry k a.seq = some e) (hv : v = .programmed ∨ v = .held) (hcopy : a.isCopy = false)
    (hquiet : c.depthSettlesNothing k a.seq (e.raiseDepth t (a.ext.toNat + 1)))
    (htimers : ∀ y ∈ c.et, y.seq = a.seq → y.timer ≠ none ∨ y.firstSent = false) :
    let n := a.ext.toNat + 1
    let mine := a.addressee = byteOf k.me.val
    let d := c.ownAnswer k t a v false
    d.rx = c.rx ∧ d.port = c.port ∧ d.jobs = c.jobs ∧ d.frontier = c.frontier ∧
    d.dir = (c.update k (ownId k a.seq) (fun e => e.raiseDepth t n)).dir ∧ (c.owed = [] → d.owed = []) ∧
    (¬ mine → d.et = c.et ∧ d.tx = c.tx) ∧
    (mine → d.tx = c.tx.narrow (fun q x => q == a.seq && decide (x < n)) t ∧ d.et = c.et.map (fun y =>
      if y.seq = a.seq ∧ y.ext < n then
        y.onRecord t (fun r => if r.state = .dropped then r else { r with state := .done })
      else y)) := by
  intro n mine d
  obtain ⟨hother, hmine⟩ := ownAnswer_raise_quiet he hv hcopy hquiet htimers (t := t)
  obtain ⟨dir, repair, recheck, alerts, hshape⟩ := Ctl.update_shape c k (ownId k a.seq) (fun e => e.raiseDepth t n)
  obtain ⟨u, hu⟩ : ∃ u, u = c.update k (ownId k a.seq) (fun e => e.raiseDepth t n) := ⟨_, rfl⟩
  rw [← hu] at hother hmine hshape ⊢
  have hudir : u.dir = dir := by rw [hshape]
  obtain ⟨hrx, hport, hjobs, hfront, hdir, htx, howed⟩ := recordsDone_fields u.pruneOwed a.seq t n
  have hpruned (h : c.owed = []) : u.pruneOwed.owed = [] := pruneOwed_owed (by rw [hshape]; exact h)
  by_cases hm : mine
  · obtain ⟨hans, het⟩ := hmine hm
    have hd : d = _ := hans
    rw [hd]
    refine ⟨hrx.trans ?_, hport.trans ?_, hjobs.trans ?_, hfront.trans ?_, hdir, fun h => pruneOwed_owed (howed (hpruned h)),
      fun h => absurd hm h, fun _ => ⟨htx.trans ?_, het⟩⟩
    all_goals
      rw [hshape]
      rfl
  · have hd : d = _ := hother hm
    rw [hd]
    refine ⟨?_, ?_, ?_, ?_, rfl, hpruned, fun _ => ⟨?_, ?_⟩, fun h => absurd h hm⟩
    all_goals
      rw [hshape]
      rfl

/-- Settles O46: by the verdict, with `recordOwnDepth_quiet` for the depth it records. -/
theorem answerForOwnPage : Obligations.AnswerForOwnPage := by
  intro s f t a v e hlow hrec ht hst horigin hv hflag he id mine n raised holders
  have hexec {d : Ctl} (h : ((s.ctl.heardFull t v).ownAnswer s.env t a v false).sweepAll s.env = d) :
      exec (.answerFrame f) s = .next { s with ctl := d } :=
    (exec_answerFrame hlow hrec ht hst).trans (next_ctl_congr ((takeAnswer_own horigin hv hflag).trans h))
  have hheard (hne : v ≠ .full) : s.ctl.heardFull t v = s.ctl := if_neg hne
  have hstill : ((s.ctl.ownAnswer s.env t a v false).sweepAll s.env).still = s.ctl.still :=
    (Ctl.sweepAll_calm (Ctl.ownAnswer_calm (w := false) (.refl s.ctl) s.env t a v false) s.env).still rfl
  refine ⟨fun hraise => ⟨fun hset hfew howed => ?raised, fun x het hseq hset hprog hdur => ?leaves⟩, ?full, ?lost, ?dropped,
    ?gap⟩
  case raised =>
    have hne : v ≠ .full := by rcases hraise with rfl | rfl <;> decide
    rw [hheard hne] at hexec
    obtain ⟨hrx, hport, hjobs, hfront, hdir, hpruned, hother, hmine⟩ := ownAnswer_raise_fields he hraise hflag
      ⟨hset, fun y hy hs => (hfew y hy hs).1⟩ (fun y hy hs => (hfew y hy hs).2) (t := t)
    have hsweep : (s.ctl.ownAnswer s.env t a v false).owed = [] ∨
        (s.ctl.ownAnswer s.env t a v false).tx.held.any TxBody.isAnyExtent = true := by
      refine howed.imp hpruned fun hheld => ?_
      by_cases hm : mine
      · rw [(hmine hm).1]
        rwa [if_pos hm] at hheld
      · rw [(hother hm).2]
        rwa [if_neg hm] at hheld
    rw [sweepAll_held hsweep] at hexec hstill
    refine ⟨_, hexec rfl, hstill, ?_⟩
    rw [Ctl.sweep_rx, Ctl.sweep_port, Ctl.sweep_jobs, Ctl.sweep_frontier, Ctl.sweep_et, Ctl.sweep_tx]
    refine ⟨hrx, hport, hjobs, hfront, ?_, fun i hi => ?_, hother, hmine⟩
    · rw [Ctl.entry_congr ((Ctl.sweep_dir _ _).trans hdir)]
      exact update_self _ (raiseDepth_id t n) he
    · rw [Ctl.entry_congr ((Ctl.sweep_dir _ _).trans hdir)]
      exact update_other _ (raiseDepth_id t n) i hi
  case leaves =>
    have hne : v ≠ .full := by rcases hraise with rfl | rfl <;> decide
    rw [hheard hne] at hexec
    obtain ⟨hempty, hfront, hbit, hdepths⟩ := ownAnswer_empties he hraise hflag het hseq hset hprog hdur
    exact ⟨_, hexec rfl, hstill, hempty, hfront, hbit, hdepths⟩
  case full =>
    rintro rfl hmine heard
    have hfull : s.ctl.heardFull t .full = heard := if_pos rfl
    refine hexec ?_
    rw [hfull, ownAnswer_full (c := heard) he hmine]
  case lost =>
    rintro rfl hmine told
    refine hexec ?_
    rw [hheard (by decide), ownAnswer_lost he hmine]
  case dropped =>
    rintro rfl told live
    have hdropped := ownAnswer_dropped he (t := t)
    have hlive : (decide (a.addressee = 0xFF#8) && (s.ctl.hasLive a.seq t || told.hasLive a.seq t)) = true ↔
        a.addressee = 0xFF#8 ∧ (live s.ctl ∨ live told) := by
      rw [Bool.and_eq_true, Bool.or_eq_true, decide_eq_true_eq, hasLive_iff, hasLive_iff]
    rw [hheard (by decide), hdropped] at hexec
    refine ⟨fun h => hexec (congrArg (Ctl.sweepAll · s.env) (if_pos (hlive.2 h))), fun h => ?_⟩
    refine hexec (congrArg (Ctl.sweepAll · s.env) (if_neg (mt hlive.1 fun hl => ?_)))
    rcases h with h | ⟨h1, h2⟩
    · exact h hl.1
    · exact hl.2.elim h1 h2
  case gap =>
    rintro rfl hmine x r b p i haux hset hfew hx hrec' hstate hatt hfill hi hwait hheld howed
    obtain ⟨u, hu⟩ : ∃ u, u = s.ctl.update s.env (ownId s.env a.seq) (fun x => x.setDepth t a.aux.toNat) := ⟨_, rfl⟩
    obtain ⟨dir, repair, recheck, alerts, hshape⟩ :=
      Ctl.update_shape s.ctl s.env (ownId s.env a.seq) (fun x => x.setDepth t a.aux.toNat)
    have htold := recordOwnDepth_quiet (setDepth_id t a.aux.toNat) he ⟨hset, hfew⟩
    have hself := update_self (k := s.env) (fun x : Entry => x.setDepth t a.aux.toNat) (setDepth_id t a.aux.toNat) he
    rw [← hu] at hshape htold hself
    have hudir : u.dir = dir := by rw [hshape]
    have hetd : u.pruneOwed.et = s.ctl.et := by rw [hshape]; rfl
    have htx : u.pruneOwed.tx = s.ctl.tx := by rw [hshape]; rfl
    have hfilld : u.pruneOwed.fill = s.ctl.fill := by rw [hshape]; rfl
    have hxd : u.pruneOwed.etEntry a.seq a.ext.toNat = some x := (Ctl.etEntry_congr hetd _ _).trans hx
    obtain ⟨et, hgap, het⟩ := ownAnswer_gap (c := u.pruneOwed) (k := s.env) (t := t) hxd hrec' hstate hatt
      ((Ctl.fillOf_congr hfilld _).trans hfill) hi (by rw [htx]; exact hwait) (by rw [htx]; exact hheld)
    have hconcerns : u.pruneOwed.gapConcerns a.seq t a.ext.toNat = true := by
      simp only [Ctl.gapConcerns, Ctl.recordOf, hxd, Option.bind_some, hrec', Option.any_some, TargetRec.resends]
      rcases hstate with h | h <;> rw [h] <;> rfl
    have hans := ownAnswer_gapped he hmine (t := t)
    rw [htold] at hans
    have hans := hans hconcerns
    rw [haux, hgap] at hans
    rw [hheard (by decide)] at hexec
    obtain ⟨d, hd⟩ : ∃ d : Ctl, d = { u.pruneOwed with
      tx := u.pruneOwed.tx.request (.extent a.seq i (withStation 0 t) (.fill b))
      et := et } := ⟨_, rfl⟩
    rw [← hd] at hans
    have hpruned : u.pruneOwed.owed = [] := pruneOwed_owed (by rw [hshape]; exact howed)
    have hdowed : d.owed = [] := by rw [hd]; exact hpruned
    have hddir : d.dir = u.dir := by rw [hd]; rfl
    rw [hans, sweepAll_held (.inl hdowed)] at hexec hstill
    refine ⟨_, hexec rfl, hstill, ?_⟩
    rw [Ctl.sweep_port, Ctl.sweep_jobs, Ctl.sweep_et, Ctl.sweep_tx, Ctl.entry_congr ((Ctl.sweep_dir _ _).trans hddir), hself]
    refine ⟨?_, ?_, rfl, ?_, ?_⟩
    · rw [hd, hshape]
      rfl
    · rw [hd, hshape]
      rfl
    · rw [hd]
      exact congrArg (Tx.request · _) htx
    · rw [hd, ← hetd]
      exact het

end Sys2Proof.Machine
end

