-- ==== Sys2Proof/Proofs/Holdings.lean ====
section
/-!
PROOFS. The HOLDINGS statements.
-/

namespace Sys2Proof.Machine

/-- Settles O47: the contents are fixed at the request, as `holdItems_spec` says them. -/
theorem holdingsFormed : Obligations.HoldingsFormed :=
  fun c k s => formHoldings_spec c k s

/-! ## The report-received state -/

/-- A frame begins its series, or continues it in order. -/
def HoldingsBody.inSeries (b : HoldingsBody) (st : Option SeriesState) : Bool :=
  (decide (b.origin = 0) && decide (b.index = 0)) ||
    st.any (fun x => x.intact && decide (x.series = b.series) && decide (x.group = b.origin.toNat) &&
      decide (x.index = b.index.toNat))

theorem HoldingsBody.follow_intact (b : HoldingsBody) (st : Option SeriesState) :
    (b.follow st).intact = b.inSeries st := by
  by_cases hfirst : b.origin = 0 ∧ b.index = 0
  · have hin : b.inSeries st = true := by
      rw [HoldingsBody.inSeries, decide_eq_true hfirst.1, decide_eq_true hfirst.2]
      rfl
    rw [hin]
    exact if_pos hfirst
  · have hnot : (decide (b.origin = 0) && decide (b.index = 0)) = false := by
      rw [← Bool.decide_and]
      exact decide_eq_false hfirst
    rw [HoldingsBody.inSeries, hnot, Bool.false_or]
    exact (if_neg hfirst).trans (by cases st <;> rfl)

/-! ## The depths -/

section Record

variable {k : Env} {t o : Station} {b : HoldingsBody}

/-- What a frame does to the entry of a page, the Extent Table being `et`. -/
def heldAs (k : Env) (t o : Station) (b : HoldingsBody) (et : List ETEntry) (id : PageId) (e : Entry) : Entry :=
  e.holdFrame t (decide (o = k.me) && et.any (fun y => y.seq == id.seq)) b

/-- The entries are recorded one after the other, and the table that says which depths are only raised stays. -/
theorem fold_heldAs (l : List PageId) (hl : ∀ id ∈ l, id.origin = o) (c : Ctl) (hq : o = k.me → ReportQuiet k t c) :
    let fold := l.foldl (fun c id => c.recordFrom k id (heldAs k t o b c.et id)) c
    fold = l.foldl (fun d id => d.recordFrom k id (heldAs k t o b c.et id)) c ∧
    ∀ i, i ∉ l → fold.entry i = c.entry i := by
  induction l generalizing c with
  | nil => exact ⟨rfl, fun _ _ => rfl⟩
  | cons id l ih =>
    have horigin : id.origin = o := hl id (List.mem_cons_self ..)
    have hid (e : Entry) : (heldAs k t o b c.et id e).id = e.id := holdFrame_id _ _ _ _
    obtain ⟨hquiet, het, -, -, -, -, -, hdir⟩ := record_step (t := t) (c := c) id (fun h => hq (horigin ▸ h)) hid
      fun e i hi => holdFrame_depths t _ b e i hi
    obtain ⟨heq, hothers⟩ := ih (fun x hx => hl x (List.mem_cons_of_mem _ hx)) _ fun h => hquiet (horigin.trans h)
    rw [het] at heq
    refine ⟨heq, fun i hi => ?_⟩
    obtain ⟨hne, hi⟩ := not_or.1 (mt List.mem_cons.2 hi)
    refine (hothers i hi).trans ((Ctl.entry_congr hdir i).trans ?_)
    rw [Ctl.entry_update hid]
    cases he : c.entry i with
    | none => rfl
    | some e => exact congrArg some (if_neg (Ctl.entry_id he ▸ hne))

/-- The pages of an origin, each once. -/
theorem nodup_of_dirOk {d : List Entry} (h : dirOk d) (q : Entry → Bool) : ((d.filter q).map (·.id)).Nodup := by
  have hsorted : ((d.filter q).map (·.id)).Pairwise (fun x y => x.key < y.key) :=
    List.pairwise_map.2 (dirOk_filter d q h).1
  exact hsorted.imp fun hlt heq => absurd (congrArg PageId.key heq) (ne_of_lt hlt)

/-- What the depths of a frame leave, and what they make of the entries. -/
theorem recordHoldings_spec {c : Ctl} (hdir : dirOk c.dir) (ho : b.origin.toNat = o.val) (hq : o = k.me → ReportQuiet k t c) :
    let d := c.recordHoldings k t b
    (d.et = c.et ∧ d.tx = c.tx ∧ d.rx = c.rx ∧ d.jobs = c.jobs ∧ d.port = c.port ∧ d.still = c.still) ∧
    (∀ i, i.origin ≠ o → d.entry i = c.entry i) ∧
    ∀ e, c.entry e.id = some e → e.id.origin = o →
      ∃ u, d.entry e.id = some { heldAs k t o b c.et e.id e with under := u } := by
  intro d
  obtain ⟨l, hl⟩ : ∃ l, l = (c.dir.filter (fun e => decide (e.id.origin = o))).map (·.id) := ⟨_, rfl⟩
  have hmem (id : PageId) (h : id ∈ l) : id.origin = o := by
    rw [hl] at h
    obtain ⟨e, he, rfl⟩ := List.mem_map.1 h
    exact of_decide_eq_true (List.mem_filter.1 he).2
  have hd : d = l.foldl (fun c id => c.recordFrom k id (heldAs k t o b c.et id)) c := by
    rw [hl]
    simp only [d, Ctl.recordHoldings, stationOf_of ho.symm]
    rfl
  obtain ⟨hfold, hothers⟩ := fold_heldAs l hmem c hq (b := b)
  obtain ⟨het, htx, hrx, hjobs, hport, hstill, hentry⟩ := fold_record (G := heldAs k t o b c.et)
    (fun _ e => holdFrame_id _ _ _ e) (fun _ e i hi => holdFrame_depths t _ b e i hi) o l hmem
    (hl ▸ nodup_of_dirOk hdir _) c hq
  rw [hfold] at hd hothers
  rw [hd]
  refine ⟨⟨het, htx, hrx, hjobs, hport, hstill⟩, fun i hi => hothers i fun h => hi (hmem i h), fun e he ho => ?_⟩
  refine (hentry e.id e he).2 ?_
  rw [hl]
  exact List.mem_map.2 ⟨e, List.mem_filter.2 ⟨List.mem_of_find?_eq_some he, decide_eq_true ho⟩, rfl⟩

end Record

/-! ## The frame -/

theorem exec_holdingsFrame {s : State} {f : Heard} {t : Station} {b : HoldingsBody} (hlow : s.env.rstLow = false)
    (hrec : Machine.Heard.receive f = some (t, .holdings b)) (ht : t ≠ s.env.me) (hmounting : s.ctl.station ≠ .mounting)
    (hisolated : s.ctl.station ≠ .isolated) :
    exec (.holdingsFrame f) s = .next { s with ctl := s.ctl.takeHoldings s.env t b } := by
  have htakes : s.ctl.station.takesPresence = true := by
    cases hst : s.ctl.station <;> simp_all [StationState.takesPresence]
  refine (next_onCtl s _ hlow).trans (next_ctl_congr ?_)
  simp only [Ctl.hearHoldings, hrec]
  rw [Ctl.dispatch_other htakes ht, if_pos htakes]

/-- The peer that reported, after the frame. -/
def HoldingsBody.told (b : HoldingsBody) (p : Peer) : Peer :=
  { p with
    received := if b.lastSeries then none else some (b.follow p.received)
    reportReq := p.reportReq && !(b.lastSeries && (b.follow p.received).intact) }

theorem takeHoldings_member {c : Ctl} {t : Station} (h : (c.peers.get t).state = .present ∨ (c.peers.get t).state = .silent)
    (k : Env) (b : HoldingsBody) (hpeers : (c.recordHoldings k t b).peers = c.peers) :
    c.takeHoldings k t b = { c.recordHoldings k t b with peers := vput c.peers t (b.told (c.peers.get t)) } := by
  obtain ⟨d, hd⟩ : ∃ d, d = c.recordHoldings k t b := ⟨_, rfl⟩
  unfold Ctl.takeHoldings
  simp only [h, if_true]
  rw [← hd] at hpeers ⊢
  rw [hpeers]
  unfold HoldingsBody.told
  cases b.lastSeries
  · simp
  · simp

/-- Settles O48: `recordHoldings_spec` for the entries, `holdFrame_at` for what the items say of one. -/
theorem holdingsFrame : Obligations.HoldingsFrame := by
  intro s f t b hlow hrec ht hmounting hisolated p
  have hexec := exec_holdingsFrame hlow hrec ht hmounting hisolated
  refine ⟨fun hout => ?_, ?_⟩
  · rw [hexec]
    exact next_ctl_congr (if_neg (not_or.2 hout))
  · intro o hmember hdir ho hquiet intact received peer
    obtain ⟨⟨het, htx, hrx, hjobs, hport, hstill⟩, hothers, hentry⟩ := recordHoldings_spec hdir ho hquiet
    have hpeers : (s.ctl.recordHoldings s.env t b).peers = s.ctl.peers := (congrArg Ctl.peers hstill :)
    have hintact : (b.follow p.received).intact = intact := by
      rw [HoldingsBody.follow_intact, HoldingsBody.inSeries, ho]
      show _ = (_ || _)
      cases p.received <;> rfl
    have hpeer : b.told p = peer := by
      unfold HoldingsBody.told
      rw [hintact]
      have hfollow : b.follow p.received = { b.follow p.received with intact := intact } := by rw [← hintact]
      rw [hfollow]
      simp only [HoldingsBody.follow, ho]
      rfl
    rw [takeHoldings_member hmember s.env b hpeers] at hexec
    refine ⟨_, hexec, ?_, het, htx, hrx, hjobs, hport, hothers, fun e he horigin hknown => ?_⟩
    · exact congrArg (fun c => ({ c with peers := vput s.ctl.peers t (b.told p) } : Ctl)) hstill |>.trans (by rw [hpeer])
    · intro raised now covered first run
      obtain ⟨u, hu⟩ := hentry e he horigin
      obtain ⟨hunnamed, hnamed⟩ := holdFrame_at t raised b e hknown
      refine ⟨fun hno => ⟨u, hu.trans ?_⟩, fun l d fl l' hitems hno => ⟨u, hu.trans ?_⟩⟩
      · exact congrArg (fun x : Entry => some { x with under := u }) (hunnamed hno)
      · exact congrArg (fun x : Entry => some { x with under := u }) (hnamed l d fl l' hitems hno)

end Sys2Proof.Machine
end

