-- ==== Sys2Proof/Proofs/FrameJudgement.lean ====
section
/-!
PROOFS. Rules for judging a data frame, and the statement about the frames that are not taken.
-/

namespace Sys2Proof.Machine

/-! ## Which judgement applies -/

section Judge

variable {c : Ctl} {k : Env} {u : Fin 4} {h : RxHeld} {id : PageId} {e : Entry}

theorem judgeFrame_discards (hid : h.frame.id h.src = some id) (hst : c.station = .active ∨ c.station = .frozen)
    (hd : c.discards k h.frame id) : (keptIn c u (.held h)).judgeFrame k u = keptIn c u .free := by
  rw [judge_kept hid hst, if_pos (discards_iff.1 hd)]

theorem judgeFrame_unknown (hid : h.frame.id h.src = some id) (hst : c.station = .active ∨ c.station = .frozen)
    (hd : ¬ c.discards k h.frame id) (he : c.entry id = none) :
    (keptIn c u (.held h)).judgeFrame k u = (keptIn c u (.held h)).judgeUnknown k u h id := by
  rw [judge_kept hid hst, if_neg (mt discards_iff.2 hd)]
  simp only [he]

theorem judgeFrame_pending (hid : h.frame.id h.src = some id) (hst : c.station = .active ∨ c.station = .frozen)
    (hd : ¬ c.discards k h.frame id) (he : c.entry id = some e) {p : Nat} (hp : e.pendingExt = some p) :
    (keptIn c u (.held h)).judgeFrame k u = (keptIn c u (.held h)).judgePending k u h e p := by
  rw [judge_kept hid hst, if_neg (mt discards_iff.2 hd)]
  simp only [he, hp]

theorem judgeFrame_entry (hid : h.frame.id h.src = some id) (hst : c.station = .active ∨ c.station = .frozen)
    (hd : ¬ c.discards k h.frame id) (he : c.entry id = some e) (hp : e.pendingExt = none) :
    (keptIn c u (.held h)).judgeFrame k u = (keptIn c u (.held h)).judgeEntry k u h e := by
  rw [judge_kept hid hst, if_neg (mt discards_iff.2 hd)]
  simp only [he, hp]

/-! ## The judgements, case by case -/

theorem judgeUnknown_gap {x : ExtentBody} (hf : h.frame = .extent x) (hx : x.ext ≠ 0) :
    c.judgeUnknown k u h id = c.answerAndFree u h id .gap 0 := by
  simp only [Ctl.judgeUnknown, hf]
  exact if_pos hx

theorem judgeUnknown_misplaced {x : ExtentBody} (hf : h.frame = .extent x) (hx : x.ext = 0) (hfirst : x.first ≠ 0) :
    c.judgeUnknown k u h id = c.setRx u .free := by
  simp only [Ctl.judgeUnknown, hf]
  rw [if_neg (not_not.2 hx), if_pos hfirst]

theorem judgeUnknown_first (hx : ∀ x, h.frame = .extent x → x.ext = 0 ∧ x.first = 0) :
    c.judgeUnknown k u h id = c.takeFirst k u h id := by
  cases hf : h.frame with
  | copy _ => simp only [Ctl.judgeUnknown, hf]
  | extent x =>
    simp only [Ctl.judgeUnknown, hf]
    rw [if_neg (not_not.2 (hx x hf).1), if_neg (not_not.2 (hx x hf).2)]

theorem judgePending_held {p : Nat} (hcount : h.frame.count ≤ e.ownDepth k) :
    c.judgePending k u h e p = c.answerHeld k u h e := if_pos hcount

theorem judgePending_below {p : Nat} (hcount : e.ownDepth k < h.frame.count) (hcopy : h.frame.isCopy = false)
    (hnumber : h.frame.number < p) : c.judgePending k u h e p = c.setRx u .free :=
  (if_neg (Nat.not_le.2 hcount)).trans (if_pos (by rw [hcopy, decide_eq_true hnumber]; rfl))

theorem judgePending_deferred {p : Nat} (hcount : e.ownDepth k < h.frame.count)
    (hfar : h.frame.isCopy = true ∨ p ≤ h.frame.number) : c.judgePending k u h e p = c.rxPhase u .deferred := by
  refine (if_neg (Nat.not_le.2 hcount)).trans (if_neg fun hc => ?_)
  rw [Bool.and_eq_true, Bool.not_eq_true', decide_eq_true_eq] at hc
  rcases hfar with hcopy | hnumber
  · exact absurd (hcopy.symm.trans hc.1) nofun
  · exact absurd hc.2 (Nat.not_lt.2 hnumber)

theorem judgeEntry_remote (ha : e.localPage = none) : c.judgeEntry k u h e = c.takeFirst k u h e.id := by
  simp only [Ctl.judgeEntry, ha]

theorem judgeEntry_held {a : PageAddr} (ha : e.localPage = some a) (hcount : h.frame.count ≤ e.ownDepth k) :
    c.judgeEntry k u h e = c.answerHeld k u h e := by
  simp only [Ctl.judgeEntry, ha]
  exact if_pos hcount

theorem judgeEntry_gap {a : PageAddr} {x : ExtentBody} (ha : e.localPage = some a) (hf : h.frame = .extent x)
    (hext : e.ownDepth k < x.ext.toNat) :
    c.judgeEntry k u h e =
      (c.recordFrom k e.id (fun e => e.raiseAll k h.frame.depths)).answerAndFree u h e.id .gap (e.ownDepth k) := by
  have hcount : ¬ h.frame.count ≤ e.ownDepth k := by
    rw [hf]
    exact Nat.not_le.2 (Nat.lt_succ_of_lt hext)
  simp only [Ctl.judgeEntry, ha, hf] at hcount ⊢
  rw [if_neg hcount, if_pos hext]
  rfl

theorem judgeEntry_misplaced {a : PageAddr} {x : ExtentBody} (ha : e.localPage = some a) (hf : h.frame = .extent x)
    (hext : x.ext.toNat = e.ownDepth k) (hplace : e.closed = true ∨ x.first.toNat ≠ e.copyEnd) :
    c.judgeEntry k u h e = c.setRx u .free := by
  have hcount : ¬ h.frame.count ≤ e.ownDepth k := by
    rw [hf]
    exact Nat.not_le.2 (Nat.lt_succ_of_le hext.ge)
  simp only [Ctl.judgeEntry, ha, hf] at hcount ⊢
  rw [if_neg hcount, if_neg (show ¬ e.ownDepth k < x.ext.toNat from Nat.not_lt.2 hext.le)]
  refine if_pos ?_
  rw [Bool.or_eq_true, decide_eq_true_eq]
  exact hplace

theorem judgeEntry_copyMisplaced {a : PageAddr} {x : CopyBody} (ha : e.localPage = some a) (hf : h.frame = .copy x)
    (hcount : e.ownDepth k < h.frame.count) (hplace : h.frame.joinSlot (e.ownDepth k) ≠ e.copyEnd) :
    c.judgeEntry k u h e = c.setRx u .free := by
  have hcount : ¬ h.frame.count ≤ e.ownDepth k := Nat.not_le.2 hcount
  simp only [Ctl.judgeEntry, ha, hf] at hcount ⊢
  rw [if_neg hcount]
  refine if_pos ?_
  rw [Bool.or_eq_true, decide_eq_true_eq]
  exact .inl (hf ▸ hplace)

/-- A frame that adds to the copy where the copy ends. -/
theorem judgeEntry_more {a : PageAddr} (ha : e.localPage = some a) (hcount : e.ownDepth k < h.frame.count)
    (hext : ∀ x, h.frame = .extent x → x.ext.toNat = e.ownDepth k ∧ e.closed = false)
    (hplace : h.frame.joinSlot (e.ownDepth k) = e.copyEnd)
    (hfill : e.role = .own → ∀ n q, c.fillOf e.id.seq = some (n, q) → q.failed = true) :
    c.judgeEntry k u h e = c.takeMore k u h e a := by
  have hcount : ¬ h.frame.count ≤ e.ownDepth k := Nat.not_le.2 hcount
  cases hf : h.frame with
  | extent x =>
    obtain ⟨hnumber, hopen⟩ := hext x hf
    rw [hf] at hplace
    simp only [Ctl.judgeEntry, ha, hf] at hcount ⊢
    rw [if_neg hcount, if_neg (show ¬ e.ownDepth k < x.ext.toNat from Nat.not_lt.2 hnumber.le)]
    refine if_neg ?_
    rw [hopen, Bool.false_or, decide_eq_true_eq, not_not]
    exact hplace
  | copy x =>
    rw [hf] at hplace
    simp only [Ctl.judgeEntry, ha, hf] at hcount ⊢
    rw [if_neg hcount]
    refine if_neg ?_
    rw [Bool.or_eq_true, decide_eq_true_eq, Option.any_eq_true, not_or, not_not]
    refine ⟨hplace, fun ⟨⟨n, q⟩, hq, hopen⟩ => ?_⟩
    rw [Bool.and_eq_true, decide_eq_true_eq, Bool.not_eq_true'] at hopen
    exact absurd ((hfill hopen.1 n q hq).symm.trans hopen.2) nofun

/-! ## What is answered -/

/-- The frame of buffer `u` is answered with `a`, its buffer FREE, and `told` is recorded in the entry of page `id`. -/
def Answered (c : Ctl) (k : Env) (u : Fin 4) (id : PageId) (a : AnswerBody) (told : Entry) (after : Ctl) : Prop :=
  ∃ f r d al rp rc, (id.origin ≠ k.me → f = c.fill ∧ r = c.readBack) ∧
    after = { keptIn c u .free with
      fill := f, readBack := r, tx := c.tx.answer a, dir := d, alerts := al, repair := rp, recheck := rc } ∧
    al.enabled = c.alerts.enabled ∧ d.find? (fun y => y.id == id) = some { told with under := c.underCopied k told } ∧
    ∀ j, j ≠ id → d.find? (fun y => y.id == j) = c.entry j

/-- HELD: the depths are recorded, and a COPY of the whole copy may close it. -/
theorem answerHeld_recorded (he : c.entry id = some e) (hquiet : c.settlesNothing k id (e.heard k h.frame)) :
    Answered c k u id (theAnswer h id .held 0)
      { e.heard k h.frame with
        closed := e.closed || (h.frame.closedFlag && decide (h.frame.number = e.ownDepth k) && decide (e.role = .replica)) }
      ((keptIn c u (.held h)).answerHeld k u h e) := by
  have hid := Ctl.entry_id he
  have hrec := judge_recorded (u := u) (h := h) he (fun x =>
    { x.raiseAll k h.frame.depths with
      closed := (x.raiseAll k h.frame.depths).closed ||
        (h.frame.closedFlag && decide (h.frame.number = e.ownDepth k) && decide (e.role = .replica)) })
    (fun x => heard_id x k h.frame) (by rw [raiseAll_heard]; exact hquiet) .held 0
  rw [raiseAll_heard, ← hid] at hrec
  rw [← hid]
  exact hrec

/-- GAP: the depths are recorded. -/
theorem answerGap_recorded (he : c.entry id = some e) (hquiet : c.settlesNothing k id (e.heard k h.frame)) (aux : Nat) :
    Answered c k u id (theAnswer h id .gap aux) (e.heard k h.frame)
      (((keptIn c u (.held h)).recordFrom k id (fun e => e.raiseAll k h.frame.depths)).answerAndFree u h id .gap aux) := by
  have hrec := judge_recorded (u := u) (h := h) he (fun x => x.raiseAll k h.frame.depths) (fun x => heard_id x k h.frame)
    (by rw [raiseAll_heard]; exact hquiet) .gap aux
  rw [raiseAll_heard] at hrec
  exact hrec

/-- A remote-only own page that no page can be had for. -/
theorem takeFirst_noPage (h1 : c.openBlock (if id.origin = k.me then Role.own else Role.replica) = none) (h2 : c.pool.length < 3) :
    (keptIn c u (.held h)).takeFirst k u h id = { keptIn c u .free with tx := c.tx.answer (theAnswer h id .full 0) } := by
  have hnone : (keptIn c u (.held h)).allocate (if id.origin = k.me then Role.own else Role.replica) false = none :=
    Ctl.allocate_none (c := keptIn c u (.held h)) h1 h2
  simp only [Ctl.takeFirst, hnone, ite_self]
  exact answerAndFree_kept c u h id .full 0

end Judge

/-- Where a COPY joins a copy of depth `m`. -/
theorem joinSlot_copy {x : CopyBody} {l l' : List DescBody} {d : DescBody} (hx : x.descs = l ++ d :: l') :
    (DataFrame.copy x).joinSlot l.length = d.first.toNat := by
  simp only [DataFrame.joinSlot, DataFrame.added, hx, List.drop_left, List.map_cons]
  rfl

/-- Settles O49: the frame's judgement, case by case. -/
theorem dataFramesJudged : Obligations.DataFramesJudged := by
  intro s i t x id u harr kept answer answered dropped
  obtain ⟨hexec, hid, hsource⟩ := exec_dataArrives harr
  obtain ⟨-, ht, hst, -⟩ := harr
  obtain ⟨h, hh⟩ : ∃ h, h = x.inBuffer t s.ctl.rxNext .judging := ⟨_, rfl⟩
  have hframe : h.frame = x := by rw [hh]; rfl
  rw [← hh] at hexec
  have hid : h.frame.id h.src = some id := by rw [hh]; exact hid
  have hanswer (v : Verdict) (aux : Nat) : theAnswer h id v aux = answer v aux := by rw [hh]; rfl
  have hto {d : Ctl} (hd : (keptIn s.ctl u (.held h)).judgeFrame s.env u = d) : exec i s = .next { s with ctl := d } :=
    hexec.trans (next_ctl_congr hd)
  have hdrop (hj : (keptIn s.ctl u (.held h)).judgeFrame s.env u = (keptIn s.ctl u (.held h)).setRx u .free) :
      dropped := hto (hj.trans (judge_free s.ctl u (.held h)))
  have hfull {d : Ctl} (hd : (keptIn s.ctl u (.held h)).judgeFrame s.env u = d)
      (heq : d = { keptIn s.ctl u .free with tx := s.ctl.tx.answer (theAnswer h id .full 0) }) :
      exec i s = .next { s with ctl := { kept .free with tx := s.ctl.tx.answer (answer .full 0) } } := by
    rw [← hanswer]
    exact hto (hd.trans heq)
  refine ⟨fun hdisc => hto (judgeFrame_discards hid hst (hframe ▸ hdisc)), fun hdisc => ?_⟩
  rw [← hframe] at hdisc
  refine ⟨fun he => ?unknown, ?known⟩
  case unknown =>
    have hjudge := judgeFrame_unknown (u := u) hid hst hdisc he
    refine ⟨fun b hb => ⟨fun hext => ?_, fun hext hfirst => ?_⟩, fun hb hroom => ?_⟩
    · rw [← hanswer]
      exact hto (hjudge.trans ((judgeUnknown_gap (hframe.trans hb) hext).trans (answerAndFree_kept s.ctl u h id .gap 0)))
    · exact hdrop (hjudge.trans (judgeUnknown_misplaced (hframe.trans hb) hext hfirst))
    · exact hfull (hjudge.trans (judgeUnknown_first fun b hf => hb b (hframe.symm.trans hf)))
        (judge_full s.ctl s.env u h id he hroom)
  case known =>
    intro e he hrole m closes
    have hrecorded {v : Verdict} {aux : Nat} {told : Entry} {d : Ctl}
        (hjudge : (keptIn s.ctl u (.held h)).judgeFrame s.env u = d)
        (hd : Answered s.ctl s.env u id (theAnswer h id v aux) told d) : answered v aux told := by
      obtain ⟨f, r, dir, al, rp, rc, hkept, heq, henabled, hself, hothers⟩ := hd
      rw [hanswer] at heq
      exact ⟨f, r, dir, al, rp, rc, hkept, hto (hjudge.trans heq), henabled, hself, hothers⟩
    have hheld (hjudge : (keptIn s.ctl u (.held h)).judgeFrame s.env u = (keptIn s.ctl u (.held h)).answerHeld s.env u h e)
        (hset : s.ctl.settlesNothing s.env id (e.heard s.env x)) :
        answered .held 0 { e.heard s.env x with closed := e.closed || closes } := by
      have hans := answerHeld_recorded (u := u) (h := h) he (by rw [hframe]; exact hset)
      rw [hframe] at hans
      exact hrecorded hjudge hans
    refine ⟨fun p hp => ?pending, fun a hp ha => ?settled, fun horigin hp ha hopen hpool => ?remote⟩
    case pending =>
      have hjudge := judgeFrame_pending (u := u) hid hst hdisc he hp
      refine ⟨fun hcount hset => ?_, fun hcount hcopy hnumber => ?_, fun hcount hfar => ?_⟩
      · exact hheld (hjudge.trans (judgePending_held (hframe ▸ hcount))) hset
      · exact hdrop (hjudge.trans (judgePending_below (hframe ▸ hcount) (hframe ▸ hcopy) (hframe ▸ hnumber)))
      · refine hto (hjudge.trans ((judgePending_deferred (hframe ▸ hcount) (hframe ▸ hfar)).trans ?_))
        rw [rxPhase_at (keptIn s.ctl u (.held h)) u h .deferred (vput_get_same _ _ _), hh]
        simp only [keptIn, vput_vput]
        rfl
    case settled =>
      have hjudge := judgeFrame_entry (u := u) hid hst hdisc he hp
      refine ⟨fun hcount hset => ?_, fun b hb => ⟨fun hext => ?_, fun hext hplace => ?_⟩, fun b l d l' hb hcount hl hlen hd => ?_⟩
      · exact hheld (hjudge.trans (judgeEntry_held ha (hframe ▸ hcount))) hset
      · have hjudge := hjudge.trans (judgeEntry_gap ha (hframe.trans hb) hext)
        rw [Ctl.entry_id he] at hjudge
        have hforeign : id.origin = t := hsource (by rw [hb]; rfl)
        have hans := answerGap_recorded (u := u) (h := h) he (fun horigin => absurd (hforeign.symm.trans horigin) ht) m
        rw [hframe] at hans hjudge
        exact hrecorded hjudge hans
      · exact hdrop (hjudge.trans (judgeEntry_misplaced ha (hframe.trans hb) hext hplace))
      · refine hdrop (hjudge.trans (judgeEntry_copyMisplaced ha (hframe.trans hb) (hframe ▸ hcount) ?_))
        rw [hframe, hb]
        show (DataFrame.copy b).joinSlot m ≠ e.copyEnd
        rw [← hlen, joinSlot_copy hl]
        exact hd
    case remote =>
      have hjudge := judgeFrame_entry (u := u) hid hst hdisc he hp
      refine hfull (hjudge.trans (judgeEntry_remote ha)) ?_
      rw [Ctl.entry_id he]
      exact takeFirst_noPage (by rw [if_pos horigin]; exact hopen) hpool

end Sys2Proof.Machine
end

