-- ==== Sys2Proof/Proofs/FramesTaken.lean ====
section
/-!
PROOFS. The statement about the data frames that are taken.
-/

namespace Sys2Proof.Machine

section Taken

variable {c : Ctl} {k : Env} {u : Fin 4} {h : RxHeld} {id : PageId} {e : Entry}

/-- The controller while a frame is being taken: page `id`'s entry is `new`, blocks and pool are as an allocation leaves
them, and the frame stands in its buffer. -/
def TakenInto (c : Ctl) (k : Env) (u : Fin 4) (h : RxHeld) (id : PageId) (new : Entry) (bs : List Block) (po : List Nat)
    (d : Ctl) : Prop :=
  ∃ f rb dir al rp rc, (id.origin ≠ k.me ∨ c.entry id = none → f = c.fill ∧ rb = c.readBack) ∧
    d = { keptIn c u (.held h) with
      fill := f, readBack := rb, dir := dir, alerts := al, repair := rp, recheck := rc, blocks := bs, pool := po } ∧
    al.enabled = c.alerts.enabled ∧ dir.find? (fun y => y.id == id) = some { new with under := c.underCopied k new } ∧
    ∀ j, j ≠ id → dir.find? (fun y => y.id == j) = c.entry j

/-- The array program or read of a frame being taken is entered, and its buffer takes a phase. -/
def Entered (c : Ctl) (k : Env) (u : Fin 4) (h : RxHeld) (id : PageId) (r : Request) (phase : RxPhase) (new : Entry)
    (d : Ctl) : Prop :=
  (∃ f rb dir al rp rc bs po us, (id.origin ≠ k.me ∨ c.entry id = none → f = c.fill ∧ rb = c.readBack) ∧
    d = { c with
      fill := f, readBack := rb, rx := vput c.rx u (.held { h with phase := phase }), rxNext := c.rxNext + 1,
      dir := dir, alerts := al, repair := rp, recheck := rc, blocks := bs, pool := po, units := us }) ∧
  d.alerts.enabled = c.alerts.enabled ∧ d.entry id = some { new with under := c.underCopied k new } ∧
  (∀ j, j ≠ id → d.entry j = c.entry j) ∧
  d.units = vput c.units r.unit { c.units.get r.unit with queue := (c.units.get r.unit).queue ++ [r] }

/-- Entering the request of a frame that is being taken. -/
theorem TakenInto.enter {new : Entry} {bs : List Block} {po : List Nat} {d : Ctl} (hd : TakenInto c k u h id new bs po d)
    (r : Request) (phase : RxPhase) :
    Entered c k u h id r phase new ((d.enter r).rxPhase u phase) ∧
    ((d.enter r).rxPhase u phase).blocks = bs ∧ ((d.enter r).rxPhase u phase).pool = po := by
  obtain ⟨f, rb, dir, al, rp, rc, hkept, rfl, henabled, hself, hothers⟩ := hd
  rw [rxPhase_at _ u h phase (vput_get_same _ _ _)]
  refine ⟨⟨⟨f, rb, dir, al, rp, rc, bs, po,
    vput c.units r.unit { c.units.get r.unit with queue := (c.units.get r.unit).queue ++ [r] }, hkept, ?_⟩,
    henabled, hself, hothers, rfl⟩, rfl, rfl⟩
  simp only [Ctl.enter, keptIn, vput_vput]

/-- What the entry of a page with an entry takes, pages having been allocated or not. -/
theorem takenInto_record {bs : List Block} {po : List Nat} {al : AlertSet} (he : c.entry id = some e) (g : Entry → Entry)
    (hg : ∀ e, (g e).id = e.id) (hquiet : c.settlesNothing k id (g e)) (hal : al.enabled = c.alerts.enabled) :
    TakenInto c k u h id (g e) bs po
      (({ keptIn c u (.held h) with blocks := bs, pool := po, alerts := al } : Ctl).recordFrom k id g) := by
  obtain ⟨f, r, d, al', rp, rc, hkept, heq, henabled, hself, hothers⟩ :=
    record_one (c := { keptIn c u (.held h) with blocks := bs, pool := po, alerts := al }) (k := k) he g hg hquiet
  refine ⟨f, r, d, al', rp, rc, fun hor => ?_, heq, henabled.trans hal, hself, hothers⟩
  rcases hor with hforeign | hnone
  · exact hkept hforeign
  · exact absurd (hnone.symm.trans he) nofun

theorem takenInto_create {bs : List Block} {po : List Nat} {al : AlertSet} (he : c.entry e.id = none)
    (hroom : c.dir.length < 65536) (hal : al.enabled = c.alerts.enabled) :
    TakenInto c k u h e.id e bs po
      (({ keptIn c u (.held h) with blocks := bs, pool := po, alerts := al } : Ctl).create k e) := by
  obtain ⟨d, al', rp, rc, heq, henabled, hself, hothers⟩ :=
    create_one (c := { keptIn c u (.held h) with blocks := bs, pool := po, alerts := al }) (k := k) he hroom
  exact ⟨c.fill, c.readBack, d, al', rp, rc, fun _ => ⟨rfl, rfl⟩, heq, henabled.trans hal, hself, hothers⟩

/-- A page is to be had for the kind: the next of its open block, or the first of the head of the pool. -/
def Ctl.gives (c : Ctl) (kind : Role) (relocation : Bool) (p : PageAddr) : Prop :=
  (∃ bl, c.openBlock kind = some bl ∧ p = { block := bl.num, page := bl.next }) ∨
  (c.openBlock kind = none ∧ (relocation = true ∨ 3 ≤ c.pool.length) ∧ c.pool.head? = some p.block ∧ p.page = 0)

theorem allocate_kept {kind : Role} {relocation : Bool} {p : PageAddr} (hp : c.gives kind relocation p) :
    ∃ bs po al, (keptIn c u (.held h)).allocate kind relocation =
      some (p, { keptIn c u (.held h) with blocks := bs, pool := po, alerts := al }) ∧ al.enabled = c.alerts.enabled := by
  obtain ⟨bs, al, heq, hal⟩ := Ctl.allocate_spec (c := keptIn c u (.held h)) hp
  exact ⟨bs, _, al, heq, hal⟩

/-- The request of a taken frame's program into a page whose copy has depth `m`. -/
def RxHeld.program (h : RxHeld) (k : Env) (id : PageId) (who : Requester) (u : Fin 4) (a : PageAddr) (join m : Nat) :
    Request :=
  { who := who, emergency := false,
    op := .program
      { page := a, first := join, count := h.frame.last - join, identity := if m = 0 then some id.group else none,
        descs := (h.frame.added m).map (h.descriptor k id), source := .rx u } }

/-- A first copy of a page unknown here. -/
theorem takeFirst_unknown {p : PageAddr} (he : c.entry id = none) (hroom : c.dir.length < 65536)
    (hp : c.gives (if id.origin = k.me then .own else .replica) false p) :
    Entered c k u h id (h.program k id (.replica u) u p (h.frame.joinSlot 0) 0) .programming
      (newEntry k id (if id.origin = k.me then .own else .replica) p h.frame)
      ((keptIn c u (.held h)).takeFirst k u h id) := by
  obtain ⟨bs, po, al, halloc, hal⟩ := allocate_kept (u := u) (h := h) hp
  have htaken := takenInto_create (k := k) (u := u) (h := h) (bs := bs) (po := po)
    (e := newEntry k id (if id.origin = k.me then .own else .replica) p h.frame) he hroom hal
  have hdir : (keptIn c u (.held h)).dirRoom = true := decide_eq_true hroom
  have hnone : (keptIn c u (.held h)).entry id = none := he
  have hnone' : ({ keptIn c u (.held h) with blocks := bs, pool := po, alerts := al } : Ctl).entry id = none := he
  simp only [Ctl.takeFirst, hnone, hdir, Option.isSome_none, Bool.false_or, if_true, halloc, hnone', Bool.false_eq_true,
    if_false]
  exact (htaken.enter _ .programming).1

/-- A copy restored to a remote-only own page. -/
theorem takeFirst_restored {p : PageAddr} (he : c.entry id = some e) (horigin : id.origin = k.me) (hp : c.gives .own false p)
    (hquiet : c.settlesNothing k id { e.taken k h.frame with localPage := some p, copyEnd := 0 }) :
    Entered c k u h id (h.program k id (.replica u) u p (h.frame.joinSlot 0) 0) .programming
      { e.taken k h.frame with localPage := some p, copyEnd := 0 } ((keptIn c u (.held h)).takeFirst k u h id) := by
  obtain ⟨bs, po, al, halloc, hal⟩ := allocate_kept (u := u) (h := h) hp
  have htaken := takenInto_record (k := k) (u := u) (h := h) (bs := bs) (po := po) he
    (fun e => { e.taken k h.frame with localPage := some p, copyEnd := 0 }) (fun e => heard_id e k h.frame) hquiet hal
  have hsome : (keptIn c u (.held h)).entry id = some e := he
  have hsome' : ({ keptIn c u (.held h) with blocks := bs, pool := po, alerts := al } : Ctl).entry id = some e := he
  simp only [Ctl.takeFirst, hsome, horigin, if_true, Option.isSome_some, Bool.true_or, halloc, hsome']
  exact (htaken.enter _ .programming).1

/-- A frame added to the copy in place. -/
theorem takeMore_inPlace {a : PageAddr} (he : c.entry id = some e) (hret : c.inRetired a = false) (hclosed : e.closed = false)
    (hquiet : c.settlesNothing k id (e.taken k h.frame)) :
    Entered c k u h id (h.program k id (.replica u) u a (h.frame.joinSlot (e.ownDepth k)) (e.ownDepth k)) .programming
      (e.taken k h.frame) ((keptIn c u (.held h)).takeMore k u h e a) ∧
    ((keptIn c u (.held h)).takeMore k u h e a).blocks = c.blocks ∧
    ((keptIn c u (.held h)).takeMore k u h e a).pool = c.pool := by
  have hmore : (keptIn c u (.held h)).takeMore k u h e a =
      ((keptIn c u (.held h)).recordFrom k id (fun e => e.taken k h.frame)).programFrame k u h id a (e.ownDepth k) := by
    rw [← Ctl.entry_id he]
    exact if_neg (by rw [Bool.or_eq_true]; rintro (h1 | h1); exacts [absurd (hret.symm.trans h1) nofun, absurd (hclosed.symm.trans h1) nofun])
  rw [hmore]
  have htaken := takenInto_record (k := k) (u := u) (h := h) (bs := c.blocks) (po := c.pool) (al := c.alerts) he
    (fun e => e.taken k h.frame) (fun e => heard_id e k h.frame) hquiet rfl
  exact htaken.enter _ .programming

/-- A frame added by relocation, the copy empty: one program of its extents into the relocation page. -/
theorem takeMore_reloc {a p : PageAddr} (he : c.entry id = some e) (hmoves : c.inRetired a = true ∨ e.closed = true)
    (hp : c.gives e.role true p)
    (hquiet : c.settlesNothing k id { e.taken k h.frame with relocPage := some p }) :
    (e.ownDepth k = 0 →
      Entered c k u h id (h.program k id (.replicaReloc u) u p 0 0) .relocating
        { e.taken k h.frame with relocPage := some p } ((keptIn c u (.held h)).takeMore k u h e a)) ∧
    (0 < e.ownDepth k → h.back = [] →
      Entered c k u h id { who := .replicaReadBack u, op := .pageRead a, emergency := false } .readingBack
        { e.taken k h.frame with relocPage := some p } ((keptIn c u (.held h)).takeMore k u h e a)) := by
  obtain ⟨bs, po, al, halloc, hal⟩ := allocate_kept (u := u) (h := h) hp
  have htaken := takenInto_record (k := k) (u := u) (h := h) (bs := bs) (po := po) he
    (fun e => { e.taken k h.frame with relocPage := some p }) (fun e => heard_id e k h.frame) hquiet hal
  have hmoves' : ((keptIn c u (.held h)).inRetired a || e.closed) = true := Bool.or_eq_true_iff.2 hmoves
  simp only [Ctl.takeMore, hmoves', if_true, halloc, Ctl.entry_id he]
  refine ⟨fun hzero => ?_, fun hpos hback => ?_⟩
  · rw [Ctl.continueReloc, if_pos (hzero ▸ Nat.zero_le _), Ctl.programReloc, hzero]
    exact (htaken.enter _ .relocating).1
  · rw [Ctl.continueReloc, if_neg (by rw [hback]; exact Nat.not_le.2 hpos)]
    exact (htaken.enter _ .readingBack).1

/-- A relocation refused for want of a page: FULL, and nothing is recorded. -/
theorem takeMore_full {a : PageAddr} (he : c.entry id = some e) (hmoves : c.inRetired a = true ∨ e.closed = true)
    (hopen : c.openBlock e.role = none) (hpool : c.pool = []) :
    (keptIn c u (.held h)).takeMore k u h e a = { keptIn c u .free with tx := c.tx.answer (theAnswer h id .full 0) } := by
  have hmoves' : ((keptIn c u (.held h)).inRetired a || e.closed) = true := Bool.or_eq_true_iff.2 hmoves
  have hnone : (keptIn c u (.held h)).allocate e.role true = none :=
    allocate_empty (c := keptIn c u (.held h)) hopen hpool true
  simp only [Ctl.takeMore, hmoves', if_true, hnone, Ctl.entry_id he]
  exact answerAndFree_kept c u h id .full 0

end Taken

/-- Settles O50: where the frame's extents go, case by case. -/
theorem dataFramesTaken : Obligations.DataFramesTaken := by
  intro s i t x id u harr hdisc role buffer targets named program given requested
  obtain ⟨hexec, hid, -⟩ := exec_dataArrives harr
  obtain ⟨-, -, hst, -⟩ := harr
  obtain ⟨h, hh⟩ : ∃ h, h = x.inBuffer t s.ctl.rxNext .judging := ⟨_, rfl⟩
  rw [← hh] at hexec
  have hid : h.frame.id h.src = some id := by rw [hh]; exact hid
  have hframe : h.frame = x := by rw [hh]; rfl
  have hback : h.back = [] := by rw [hh]; rfl
  have hdisc' : ¬ s.ctl.discards s.env h.frame id := hframe ▸ hdisc
  have hrequested {r : Request} {phase : RxPhase} {new : Entry} {d : Ctl}
      (hjudge : (keptIn s.ctl u (.held h)).judgeFrame s.env u = d) (hd : Entered s.ctl s.env u h id r phase new d) :
      requested r phase new d := by
    obtain ⟨hd, hrest⟩ := hd
    have hbuffer : ({ h with phase := phase } : RxHeld) = buffer phase := by rw [hh]; rfl
    rw [hbuffer] at hd
    exact ⟨hexec.trans (next_ctl_congr hjudge), hd, hrest⟩
  have hprogram (who : Requester) (a : PageAddr) (join m : Nat) : h.program s.env id who u a join m =
      program (fun n => x.holderSet s.env id.origin n) who a join m := by
    rw [hh]
    rfl
  have htaken (e : Entry) : e.taken s.env h.frame = { e.heard s.env x with
      known := max (e.heard s.env x).known x.count
      used := max e.used x.last
      pendingExt := some x.count } := by
    rw [hframe, Entry.taken, raiseAll_heard]
    rfl
  refine ⟨fun n => x.holderSet s.env id.origin n, fun n j => holderSet_spec x s.env id.origin n j,
    fun p he hfirst hroom hp => ?unknown, ?restored, ?more⟩
  case unknown =>
    have hjudge := (judgeFrame_unknown (u := u) hid hst hdisc' he).trans
      (judgeUnknown_first fun b hb => hfirst b (hframe.symm.trans hb))
    have hentered := takeFirst_unknown (k := s.env) (u := u) (h := h) he hroom hp
    rw [hprogram, hframe] at hentered
    exact ⟨_, hrequested hjudge hentered⟩
  case restored =>
    intro e p he horigin hpend ha hp restored hquiet
    have hjudge := (judgeFrame_entry (u := u) hid hst hdisc' he hpend).trans (judgeEntry_remote ha)
    rw [Ctl.entry_id he] at hjudge
    have hentered := takeFirst_restored (k := s.env) (u := u) (h := h) he horigin hp (by rw [htaken]; exact hquiet)
    rw [hprogram, htaken, hframe] at hentered
    exact ⟨_, hrequested hjudge hentered⟩
  case more =>
    intro e a he hrole hpend ha hfill m taken hquiet hcount hext hplace
    have hjudge := (judgeFrame_entry (u := u) hid hst hdisc' he hpend).trans
      (judgeEntry_more ha (hframe ▸ hcount) (fun b hb => hext b (hframe.symm.trans hb)) (hframe ▸ hplace)
        fun hown n q hq => hfill (hrole.2 hown) n q (by rw [← Ctl.entry_id he]; exact hq))
    refine ⟨fun hret hclosed => ?_, fun hmoves => ⟨fun hopen hpool => ?_, fun p hp => ⟨fun hzero => ?_, fun hpos => ?_⟩⟩⟩
    · obtain ⟨hentered, hblocks, hpool⟩ := takeMore_inPlace (k := s.env) (u := u) (h := h) he hret hclosed
        (by rw [htaken]; exact hquiet)
      rw [hprogram, htaken, hframe] at hentered
      exact ⟨_, hrequested hjudge hentered, hblocks, hpool⟩
    · refine hexec.trans (next_ctl_congr (hjudge.trans ((takeMore_full he hmoves hopen hpool).trans ?_)))
      rw [hh]
      rfl
    · have hentered := (takeMore_reloc (k := s.env) (u := u) (h := h) he hmoves hp (by rw [htaken]; exact hquiet)).1 hzero
      rw [hprogram, htaken] at hentered
      exact ⟨_, hrequested hjudge hentered⟩
    · have hentered := (takeMore_reloc (k := s.env) (u := u) (h := h) he hmoves hp (by rw [htaken]; exact hquiet)).2 hpos
        hback
      rw [htaken] at hentered
      exact ⟨_, hrequested hjudge hentered⟩

end Sys2Proof.Machine
end

