-- ==== Sys2Proof/Proofs/OwnProgramRules.lean ====
section
/-!
PROOFS. Rules for the end of an own program.
-/

namespace Sys2Proof.Machine

/-! ## Tools -/

theorem Ctl.answer_held (c : Ctl) (a : AnswerBody) : (c.tx.answer a).held = c.tx.held := by
  unfold Tx.answer
  split <;> rfl

theorem Ctl.etEntry_onPageEntries {c : Ctl} {seq : Word} {ext : Nat} {x : ETEntry} {f : ETEntry → ETEntry}
    (hx : c.etEntry seq ext = some x) (hf : ∀ y, (f y).seq = y.seq ∧ (f y).ext = y.ext) :
    (c.onPageEntries seq f).etEntry seq ext = some (f x) := by
  have hkey : ((fun y : ETEntry => y.seq == seq && y.ext == ext) ∘ fun y => if y.seq = seq then f y else y) =
      fun y => y.seq == seq && y.ext == ext := by
    funext y
    simp only [Function.comp]
    split
    · rw [(hf y).1, (hf y).2]
    · rfl
  have hseq : x.seq = seq := by
    have := List.find?_some hx
    simp only [Bool.and_eq_true, beq_iff_eq] at this
    exact this.1
  unfold Ctl.etEntry Ctl.onPageEntries at *
  rw [List.find?_map, hkey, hx, Option.map_some, if_pos hseq]

theorem Ctl.answerFlush_programmed {c : Ctl} {seq : Word} {ext : Nat} {x : ETEntry} (hact : c.port.act = .flushWait seq ext)
    (hx : c.etEntry seq ext = some x) (hprog : x.prog = .programmed) :
    c.answerFlush seq = c.endCommand .ok (bytes32 seq ++ [byteOf ext]) := by
  simp only [Ctl.answerFlush, hact, hx, hprog, if_true]

/-- Frames judged again and owed transmissions leave a port that does not wait. -/
theorem Calm.port_after {c d : Ctl} (h : Calm false c d) (hidle : c.port.act = .idle) : d.port = c.port :=
  h.port rfl (by rw [hidle]; rfl)

/-! ## The end of the program -/

section OwnProgram

variable {c : Ctl} {k : Env} {seq : Word} {moved : Bool} {n : Nat} {q : ProgramReq} {e : Entry}

/-- The entry has a program outstanding and names its page. -/
def Entry.namesPage (e : Entry) (moved : Bool) (q : ProgramReq) : Prop :=
  e.pendingExt ≠ none ∧ (if moved then e.relocPage else e.localPage) = some q.page

theorem namesPage_iff (e : Entry) (moved : Bool) (q : ProgramReq) :
    (e.pendingExt.isSome && decide ((if moved then e.relocPage else e.localPage) = some q.page)) = true ↔
      e.namesPage moved q := by
  rw [Bool.and_eq_true, decide_eq_true_eq, Option.isSome_iff_ne_none]
  rfl

/-- The result for a page that the entry no longer names. -/
theorem ownProgramEnd_unnamed (h : ∀ e, c.ownEntry k seq = some e → ¬ e.namesPage moved q) (out : ProgramOut) :
    c.ownProgramEnd k seq moved n q out = if out = .fail then c.retire q.page.block else c := by
  obtain ⟨d, hd⟩ : ∃ d, d = if out = .fail then c.retire q.page.block else c := ⟨_, rfl⟩
  have hdir : d.dir = c.dir := by
    rw [hd]
    split
    · exact Ctl.retire_dir c _
    · rfl
  have hown := Ctl.ownEntry_congr hdir k seq
  unfold Ctl.ownProgramEnd
  rw [← hd]
  cases he : c.ownEntry k seq with
  | none => simp only [hown, he]
  | some e =>
    simp only [hown, he]
    exact if_neg (mt (namesPage_iff e moved q).1 (h e he))

theorem ownProgramEnd_pass (he : c.ownEntry k seq = some e) (hn : e.namesPage moved q) :
    c.ownProgramEnd k seq moved n q .pass = c.ownPassed k e moved n q.endSlot := by
  unfold Ctl.ownProgramEnd
  simp only [reduceCtorEq, if_false, he]
  exact if_pos ((namesPage_iff e moved q).2 hn)

/-- The failed program is given up: the block is RETIRED, and a relocation page is DEAD (R48, R115). -/
def Ctl.ownGivenUp (c : Ctl) (k : Env) (moved : Bool) (q : ProgramReq) (id : PageId) : Ctl :=
  let d := (c.retire q.page.block).update k id (fun e => { e with pendingExt := none, relocPage := none })
  if moved then d.killPages [some q.page] else d

theorem ownProgramEnd_fail (he : c.ownEntry k seq = some e) (hn : e.namesPage moved q) :
    c.ownProgramEnd k seq moved n q .fail =
      (c.ownGivenUp k moved q (ownId k seq)).ownRelocate k seq e.localPage.isSome := by
  have hid : e.id = ownId k seq := Ctl.entry_id he
  have hown := (Ctl.ownEntry_congr (Ctl.retire_dir c q.page.block) k seq).trans he
  unfold Ctl.ownProgramEnd
  simp only [if_true, hown]
  rw [hid]
  exact if_pos ((namesPage_iff e moved q).2 hn)

/-! ## PASS -/

/-- The entry of a page whose program has passed (R36, R47). -/
def Entry.written (e : Entry) (k : Env) (moved : Bool) (n endSlot : Nat) : Entry :=
  { (e.setDepth k.me n) with
      pendingExt := none, copyEnd := endSlot, relocPage := none,
      localPage := if moved then e.relocPage else e.localPage }

/-- The copy and its extents' entries after PASS, before a FLUSH is answered (R114). -/
def Ctl.ownWritten (c : Ctl) (k : Env) (e : Entry) (moved : Bool) (n endSlot : Nat) : Ctl :=
  let d := c.update k e.id (fun e => e.written k moved n endSlot)
  (if moved then d.killPages [e.localPage] else d).markProgrammed e.id.seq n

/-- The tests after PASS. -/
theorem ownPassed_eq (endSlot : Nat) :
    c.ownPassed k e moved n endSlot =
      let d := ((((c.ownWritten k e moved n endSlot).answerFlush e.id.seq).testDurable k e.id.seq).requestProgram k e.id.seq)
      if moved then d.bringUpAll k e.id.seq else d := rfl

/-- An entry of the Extent Table after a program of the extents of page `seq` below `n` has passed. -/
def ETEntry.marked (seq : Word) (n : Nat) (y : ETEntry) : ETEntry :=
  if y.seq = seq ∧ y.ext < n then { y with prog := .programmed } else y

theorem ETEntry.marked_same (seq : Word) (n : Nat) (y : ETEntry) :
    (y.marked seq n).seq = y.seq ∧ (y.marked seq n).ext = y.ext ∧ (y.marked seq n).settled = y.settled := by
  unfold ETEntry.marked
  split <;> exact ⟨rfl, rfl, rfl⟩

theorem markProgrammed_eq (c : Ctl) (seq : Word) (n : Nat) :
    c.markProgrammed seq n = { c with et := c.et.map (fun y => y.marked seq n) } := by
  have hmap : c.et.map (fun y => if y.seq = seq then (if y.ext < n then { y with prog := .programmed } else y) else y) =
      c.et.map (fun y => y.marked seq n) := by
    refine List.map_congr_left fun y _ => ?_
    by_cases hseq : y.seq = seq <;> by_cases hext : y.ext < n <;> simp [ETEntry.marked, hseq, hext]
  exact congrArg (fun l => ({ c with et := l } : Ctl)) hmap

/-- What writing the copy leaves, and what it changes. -/
theorem ownWritten_fields (endSlot : Nat) :
    let d := c.ownWritten k e moved n endSlot
    d.port = c.port ∧ d.rx = c.rx ∧ d.owed = c.owed ∧ d.tx = c.tx ∧ d.fill = c.fill ∧
    d.et = c.et.map (fun y => y.marked e.id.seq n) ∧
    d.dir = (c.update k e.id (fun e => e.written k moved n endSlot)).dir := by
  cases moved <;>
    simp only [Ctl.ownWritten, markProgrammed_eq, Ctl.killPages_port, Ctl.killPages_rx, Ctl.killPages_owed,
      Ctl.killPages_tx, Ctl.killPages_fill, Ctl.killPages_et, Ctl.killPages_dir, Ctl.update_port, Ctl.update_rx,
      Ctl.update_owed, Ctl.update_tx, Ctl.update_fill, Ctl.update_et, Bool.false_eq_true, if_true, if_false, and_self]

theorem written_id (e : Entry) (endSlot : Nat) : (e.written k moved n endSlot).id = e.id := rfl

/-- The FLUSH that waits for an extent the program wrote is answered, and the port stays so. -/
theorem ownPassed_flush {ext endSlot : Nat} {x : ETEntry} (hact : c.port.act = .flushWait e.id.seq ext) (hext : ext < n)
    (hx : c.etEntry e.id.seq ext = some x) :
    (c.ownPassed k e moved n endSlot).port = (c.endCommand .ok (bytes32 e.id.seq ++ [byteOf ext])).port := by
  obtain ⟨hport, -, -, -, -, het, -⟩ := ownWritten_fields (c := c) (k := k) (e := e) (moved := moved) (n := n) endSlot
  obtain ⟨w, hw⟩ : ∃ w, w = c.ownWritten k e moved n endSlot := ⟨_, rfl⟩
  have hpassed := ownPassed_eq (c := c) (k := k) (e := e) (moved := moved) (n := n) endSlot
  rw [← hw] at hport het hpassed
  have hxw : w.etEntry e.id.seq ext = some { x with prog := .programmed } := by
    have hmark : c.etEntry e.id.seq ext = some x → (c.markProgrammed e.id.seq n).etEntry e.id.seq ext = _ := fun h =>
      Ctl.etEntry_onPageEntries h fun y => by split <;> exact ⟨rfl, rfl⟩
    have hkey : x.ext = ext := by
      have := List.find?_some hx
      simp only [Bool.and_eq_true, beq_iff_eq] at this
      exact this.2
    refine (Ctl.etEntry_congr (c := c.markProgrammed e.id.seq n) (het.trans (congrArg Ctl.et (markProgrammed_eq c _ _)).symm) _ _).trans ((hmark hx).trans ?_)
    rw [if_pos (hkey ▸ hext)]
  have hflush : w.answerFlush e.id.seq = w.endCommand .ok (bytes32 e.id.seq ++ [byteOf ext]) :=
    Ctl.answerFlush_programmed (by rw [hport]; exact hact) hxw rfl
  rw [hflush] at hpassed
  obtain ⟨v, hv⟩ : ∃ v, v = w.endCommand .ok (bytes32 e.id.seq ++ [byteOf ext]) := ⟨_, rfl⟩
  rw [← hv] at hpassed
  have hcalm : Calm false v (c.ownPassed k e moved n endSlot) := by
    rw [hpassed]
    have hnext := Ctl.requestProgram_calm (Ctl.testDurable_calm (Calm.refl (w := false) v) k e.id.seq) k e.id.seq
    cases moved
    · exact hnext
    · exact Ctl.bringUpAll_calm hnext k e.id.seq
  rw [hcalm.port_after (by rw [hv]; rfl), hv]
  show ({ w.port with act := _, result := _, resultPos := _, lastResult := _ } : Port) = _
  rw [hport]
  rfl

/-- With nothing settled, nothing made durable and every extent formed written, PASS does no more. -/
theorem ownPassed_quiet {endSlot : Nat} (he : c.ownEntry k e.id.seq = some e) (hn : n ≤ 3)
    (hset : ∀ y ∈ c.et, y.settled = .none ∧
      (y.seq = e.id.seq → moved = false ∧ (e.setDepth k.me n).extentHolders y.ext < k.copies))
    (hfill : ∀ b p, c.fillOf e.id.seq = some (b, p) → p.extents.length ≤ n) :
    ∃ p, c.ownPassed k e moved n endSlot = { (c.ownWritten k e moved n endSlot) with port := p }.pruneOwed := by
  obtain ⟨-, -, -, -, hfilled, het, hdir⟩ := ownWritten_fields (c := c) (k := k) (e := e) (moved := moved) (n := n) endSlot
  have hpassed := ownPassed_eq (c := c) (k := k) (e := e) (moved := moved) (n := n) endSlot
  obtain ⟨w, hw⟩ : ∃ w, w = c.ownWritten k e moved n endSlot := ⟨_, rfl⟩
  rw [← hw] at hfilled het hdir hpassed ⊢
  have hid : e.id = ownId k e.id.seq := Ctl.entry_id he
  have hwritten (x : Entry) : (x.written k moved n endSlot).id = x.id := rfl
  obtain ⟨p, hp⟩ := Ctl.answerFlush_shape w e.id.seq
  refine ⟨p, ?_⟩
  obtain ⟨f, hf⟩ : ∃ f : Ctl, f = { w with port := p } := ⟨_, rfl⟩
  have hfdir : f.dir = (c.update k e.id (fun e => e.written k moved n endSlot)).dir := by rw [hf]; exact hdir
  have hfet : f.et = _ := (congrArg Ctl.et hf).trans het
  have hfentry : f.ownEntry k e.id.seq = some { e.written k moved n endSlot with
      under := c.underCopied k (e.written k moved n endSlot) } := by
    refine (Ctl.ownEntry_congr hfdir k e.id.seq).trans ?_
    have hself := update_self (c := c) (k := k) (fun e => e.written k moved n endSlot) hwritten he
    rw [← hid] at hself
    rw [Ctl.ownEntry, ← hid]
    exact hself
  have hmarked {y : ETEntry} (hy : y ∈ f.et) : ∃ z ∈ c.et, z.marked e.id.seq n = y := List.mem_map.1 (hfet ▸ hy)
  have htest : f.testDurable k e.id.seq = f.pruneOwed := by
    refine Ctl.testDurable_quiet (fun y hy => ?_) fun y hy hseq => ?_
    · obtain ⟨z, hz, rfl⟩ := hmarked hy
      exact (z.marked_same _ _).2.2.trans (hset z hz).1
    · obtain ⟨z, hz, rfl⟩ := hmarked hy
      obtain ⟨hsame, hext, -⟩ := z.marked_same e.id.seq n
      simp only [Ctl.durable, hfentry, decide_eq_false_iff_not, not_le, hext]
      exact ((hset z hz).2 (hsame.symm.trans hseq)).2
  have hrequest : f.pruneOwed.requestProgram k e.id.seq = f.pruneOwed := by
    refine Ctl.requestProgram_done ((Ctl.ownEntry_congr (c := f) rfl k e.id.seq).trans hfentry) fun b q hq => ?_
    have hlen := hfill b q (by rw [← Ctl.fillOf_congr hfilled]; rw [hf] at hq; exact hq)
    refine hlen.trans (Nat.le_of_eq ?_)
    have := setDepth_same e k.me n
    rw [Nat.min_eq_left hn] at this
    exact this.symm
  rw [hp, ← hf, htest, hrequest] at hpassed
  rw [hpassed, ← hf]
  cases moved
  · rfl
  · refine Ctl.bringUpAll_none fun y hy hseq => ?_
    obtain ⟨z, hz, rfl⟩ := hmarked hy
    exact absurd ((hset z hz).2 ((z.marked_same _ _).1.symm.trans hseq)).1 nofun

end OwnProgram

end Sys2Proof.Machine
end

