-- ==== Sys2Proof/Proofs/OwnPrograms.lean ====
section
/-!
PROOFS. The statement about the end of an own program.
-/

namespace Sys2Proof.Machine

section GivenUp

variable {c : Ctl} {k : Env} {seq : Word} {moved : Bool} {n : Nat} {q : ProgramReq} {e : Entry}

/-- The blocks after a program has failed: its block RETIRED, a relocation page DEAD. -/
def Ctl.afterFail (c : Ctl) (moved : Bool) (a : PageAddr) : Ctl :=
  if moved then (c.retire a.block).killPages [some a] else c.retire a.block

theorem ownGivenUp_fields (id : PageId) :
    let d := c.ownGivenUp k moved q id
    d.et = c.et ∧ d.tx = c.tx ∧ d.owed = c.owed ∧ d.rx = c.rx ∧ d.port = c.port ∧ d.fill = c.fill ∧ d.peers = c.peers ∧
    d.pool = c.pool ∧ d.blocks = (c.afterFail moved q.page).blocks := by
  cases moved
  · simp [Ctl.ownGivenUp, Ctl.afterFail]
  · refine ⟨?_, ?_, ?_, ?_, ?_, ?_, ?_, ?_, ?blocks⟩
    case blocks => exact killPage_blocks_congr (Ctl.update_blocks _ _ _ _) q.page
    all_goals simp [Ctl.ownGivenUp]

theorem ownGivenUp_entry (he : c.ownEntry k seq = some e) :
    ∃ u, (c.ownGivenUp k moved q (ownId k seq)).ownEntry k seq =
      some { e with pendingExt := none, relocPage := none, under := u } := by
  have he' := (Ctl.ownEntry_congr (Ctl.retire_dir c q.page.block) k seq).trans he
  obtain ⟨u, hu⟩ := Ctl.update_formed (k := k) (fun e => { e with pendingExt := none, relocPage := none })
    (fun _ => rfl) he'
  refine ⟨u, ?_⟩
  cases moved
  · exact hu
  · exact (Ctl.ownEntry_congr (Ctl.killPages_dir _ _) k seq).trans hu

theorem afterFail_blocks_congr {d : Ctl} (h : d.blocks = c.blocks) (a : PageAddr) :
    (d.afterFail moved a).blocks = (c.afterFail moved a).blocks := by
  cases moved
  · exact retire_blocks_congr h _
  · exact killPage_blocks_congr (retire_blocks_congr h _) a

theorem afterFail_pool (a : PageAddr) : (c.afterFail moved a).pool = c.pool := by
  cases moved <;> simp [Ctl.afterFail]

theorem mem_enter_queue (c : Ctl) (r : Request) : r ∈ ((c.enter r).units.get r.unit).queue := by
  rw [Ctl.enter_units, vput_get_same]
  exact List.mem_append_right _ (List.mem_singleton_self r)

/-- The program that moves an own page's extents into page `a`. -/
def moveRequest (k : Env) (seq : Word) (fb : Fin 2) (p : FillPage) (holders : Byte) (a : PageAddr) : Request :=
  { who := .own seq true p.extents.length, emergency := false,
    op := .program
      { page := a, first := 0, count := p.formed, identity := some (identityBytes (byteOf k.me.val) seq),
        descs := p.extents.map (p.descriptor holders), source := .fill fb } }

/-- A page is to be had: the entry names it, and the program into it is requested (R115). -/
theorem ownRelocate_moved {fb : Fin 2} {p : FillPage} {a : PageAddr} (he : c.ownEntry k seq = some e)
    (hfill : c.fillOf seq = some (fb, p)) (ha : c.gives .own true a) (say : Bool) :
    let d := c.ownRelocate k seq say
    d.rx = c.rx ∧ (d.ownEntry k seq).map (fun e => (e.relocPage, e.pendingExt)) = some (some a, some p.extents.length) ∧
    moveRequest k seq fb p e.holderSet a ∈ (d.units.get (unitOfBlock a.block)).queue := by
  intro d
  obtain ⟨bs, al, halloc, -⟩ := Ctl.allocate_spec (c := c) ha
  obtain ⟨f, hf⟩ : ∃ f : Ctl, f = { c with
    blocks := bs
    pool := if c.openBlock .own = none then c.pool.tail else c.pool
    alerts := al } := ⟨_, rfl⟩
  rw [← hf] at halloc
  have hd : d = ((f.update k (ownId k seq)
      (fun e => { e with relocPage := some a, pendingExt := some p.extents.length })).setFill fb
        (some { p with failed := false })).enter (moveRequest k seq fb p e.holderSet a) := by
    show c.ownRelocate k seq say = _
    simp only [Ctl.ownRelocate, hfill, he, halloc]
    rfl
  have hfe : f.ownEntry k seq = some e := (Ctl.ownEntry_congr (by rw [hf]) k seq).trans he
  obtain ⟨u, hu⟩ := Ctl.update_formed (k := k)
    (fun e => { e with relocPage := some a, pendingExt := some p.extents.length }) (fun _ => rfl) hfe
  refine ⟨?_, ?_, ?_⟩
  · rw [hd]
    exact (Ctl.update_rx _ _ _ _).trans (by rw [hf])
  · have hentry : d.ownEntry k seq = _ := (Ctl.ownEntry_congr (by rw [hd]; rfl) k seq).trans hu
    rw [hentry]
    rfl
  · rw [hd]
    exact mem_enter_queue _ (moveRequest k seq fb p e.holderSet a)

/-- No page is to be had (R116). -/
theorem ownRelocate_refused {fb : Fin 2} {p : FillPage} (he : c.ownEntry k seq = some e) (hfill : c.fillOf seq = some (fb, p))
    (hopen : c.openBlock .own = none) (hpool : c.pool = []) (say : Bool) :
    c.ownRelocate k seq say = c.ownRefused k seq say := by
  simp only [Ctl.ownRelocate, hfill, he, allocate_empty hopen hpool true]

/-- What a FAIL gives up is given to the allocation as the statement says it. -/
theorem ownGivenUp_openBlock {s : Ctl} (hb : c.blocks = s.blocks) (id : PageId) (kind : Role) :
    (c.ownGivenUp k moved q id).openBlock kind = (s.afterFail moved q.page).openBlock kind := by
  obtain ⟨-, -, -, -, -, -, -, -, hblocks⟩ := ownGivenUp_fields (c := c) (k := k) (moved := moved) (q := q) id
  exact allocate_openBlock (hblocks.trans (afterFail_blocks_congr hb q.page)) kind

end GivenUp

/-- What follows the end of an own program leaves, with nothing to judge again and owed transmissions held back. -/
theorem ownEnd_rest {c : Ctl} (hdef : ∀ v h, c.rxHeld v = some h → h.phase ≠ .deferred)
    (howed : c.owed = [] ∨ c.tx.held.any TxBody.isAnyExtent = true) (k : Env) (id : PageId) :
    (c.rejudge k id).sweepAll k = c.sweep k := by
  rw [Ctl.rejudge_none hdef, sweepAll_held howed]

/-- Settles O29: by whether the entry names the page, and by the program's result. -/
theorem ownProgramDone : Obligations.OwnProgramDone := by
  intro s u r b q seq moved n hlow hc hb hwho hop hn3 id names owedWaits
  obtain ⟨c, hcdef⟩ : ∃ c, c = s.ctl.setUnit u { s.ctl.units.get u with busy := none } := ⟨_, rfl⟩
  obtain ⟨d, hd⟩ : ∃ d, d = c.ownProgramEnd s.env seq moved n q (programOut r) := ⟨_, rfl⟩
  have hexec : exec (.ownProgramDone u r) s = .next
      { s with
        env := { s.env with fresh := s.env.fresh + 1 }
        flash := s.flash.afterProgram q b.data r s.env.fresh
        ctl := (d.rejudge s.env id).sweepAll s.env } := by
    refine (next_programDone hlow hc hb (by rw [hwho]; rfl) hop).trans ?_
    rw [hd, hcdef, hwho]
    rfl
  have hcalm : Calm false c ((d.rejudge s.env id).sweepAll s.env) := by
    rw [hd]
    exact Ctl.sweepAll_calm (Ctl.rejudge_calm (Ctl.ownProgramEnd_calm (.refl c) _ _ _ _ _ _) _ _) _
  have hafter : Calm false d ((d.rejudge s.env id).sweepAll s.env) :=
    Ctl.sweepAll_calm (Ctl.rejudge_calm (.refl d) _ _) _
  have hfields : c.dir = s.ctl.dir ∧ c.et = s.ctl.et ∧ c.port = s.ctl.port ∧ c.tx = s.ctl.tx ∧ c.owed = s.ctl.owed ∧
      c.rx = s.ctl.rx ∧ c.blocks = s.ctl.blocks ∧ c.fill = s.ctl.fill ∧ c.pool = s.ctl.pool ∧ c.peers = s.ctl.peers := by
    rw [hcdef]
    exact ⟨rfl, rfl, rfl, rfl, rfl, rfl, rfl, rfl, rfl, rfl⟩
  obtain ⟨hdir, het, hport, htx, howed, hrx, hblocks, hfillc, hpool, hpeers⟩ := hfields
  have hown : c.ownEntry s.env seq = s.ctl.entry id := Ctl.ownEntry_congr hdir s.env seq
  have hrest (hdrx : d.rx = c.rx) (hdef : ∀ v h, s.ctl.rxHeld v = some h → h.phase ≠ .deferred)
      (hwaits : d.owed = [] ∨ d.tx.held.any TxBody.isAnyExtent = true) :
      (d.rejudge s.env id).sweepAll s.env = d.sweep s.env :=
    ownEnd_rest (fun v h hv => hdef v h (by rw [← Ctl.rxHeld_congr (hdrx.trans hrx)]; exact hv)) hwaits s.env id
  refine ⟨_, _, hexec, ?still, ?idle, ?unnamed, ?flush, ?passed, ?moved, ?refused⟩
  case still => exact (hcalm.still rfl).trans (by rw [hcdef]; rfl)
  case idle => exact (Calm.idle (hcdef ▸ hcalm)).1
  case unnamed =>
    intro hnames hdef hwaits
    have hend : d = if programOut r = .fail then c.retire q.page.block else c :=
      hd.trans (ownProgramEnd_unnamed (fun e he => hnames e (hown ▸ he)) _)
    have hdrx : d.rx = c.rx := by rw [hend]; split <;> simp
    have hdowed : d.owed = c.owed := by rw [hend]; split <;> simp
    have hdtx : d.tx = c.tx := by rw [hend]; split <;> simp
    rw [hrest hdrx hdef (by rw [hdowed, hdtx, howed, htx]; exact hwaits)]
    rw [Ctl.sweep_dir, Ctl.sweep_et, Ctl.sweep_port, Ctl.sweep_tx, hdtx]
    refine ⟨?_, ?_, ?_, htx, ?_, ?_⟩
    · rw [hend, ← hdir]
      split <;> simp
    · rw [hend, ← het]
      split <;> simp
    · rw [hend, ← hport]
      split <;> simp
    · rintro k rfl
      rw [Ctl.sweep_blocks, hend, ← hblocks]
      rfl
    · rintro bl rfl hbl hstate
      have hretired : d = c.retire q.page.block := hend
      have hbc : c.block q.page.block = some bl := by rw [← hbl]; simp only [Ctl.block, hblocks]
      have := Ctl.retire_block hbc hstate
      rw [← hretired] at this
      rw [← this]
      simp only [Ctl.block, Ctl.sweep_blocks]
  case flush =>
    rintro k e ext x rfl he hnamed hact hext hx
    have hid : e.id = ownId s.env seq := Ctl.entry_id he
    have hseq : e.id.seq = seq := by rw [hid]; rfl
    have hend : d = c.ownPassed s.env e moved n q.endSlot := hd.trans (ownProgramEnd_pass (hown.trans he) hnamed)
    have hflush := ownPassed_flush (c := c) (k := s.env) (e := e) (moved := moved) (n := n) (endSlot := q.endSlot)
      (by rw [hport, hseq]; exact hact) hext (by rw [Ctl.etEntry_congr het, hseq]; exact hx)
    rw [← hend, hseq] at hflush
    rw [hafter.port_after (by rw [hflush]; rfl), hflush, ← hport]
    rfl
  case passed =>
    rintro k e rfl he hnamed hdef hwaits hset hfill e'
    have hid : e.id = id := Ctl.entry_id he
    have hseq : e.id.seq = seq := by rw [hid]; rfl
    have hend : d = c.ownPassed s.env e moved n q.endSlot := hd.trans (ownProgramEnd_pass (hown.trans he) hnamed)
    have hce : c.ownEntry s.env e.id.seq = some e := by rw [hseq]; exact hown.trans he
    obtain ⟨port, hpassed⟩ := ownPassed_quiet (moved := moved) (endSlot := q.endSlot) hce hn3
      (fun y hy => by rw [hseq]; exact hset y (het ▸ hy))
      fun fb p hp => hfill fb p (by rw [hseq, Ctl.fillOf_congr hfillc] at hp; exact hp)
    obtain ⟨-, hwrx, hwowed, hwtx, -, hwet, hwdir⟩ :=
      ownWritten_fields (c := c) (k := s.env) (e := e) (moved := moved) (n := n) q.endSlot
    obtain ⟨w, hw⟩ : ∃ w, w = c.ownWritten s.env e moved n q.endSlot := ⟨_, rfl⟩
    rw [← hw] at hpassed hwrx hwowed hwtx hwet hwdir
    rw [hpassed] at hend
    have hddir : d.dir = w.dir := by rw [hend]; rfl
    have hdet : d.et = w.et := by rw [hend]; rfl
    have hentry (i : PageId) : (d.sweep s.env).entry i =
        (c.update s.env e.id (fun e => e.written s.env moved n q.endSlot)).entry i :=
      Ctl.entry_congr ((Ctl.sweep_dir _ _).trans (hddir.trans hwdir)) i
    have hdwaits : d.owed = [] ∨ d.tx.held.any TxBody.isAnyExtent = true := by
      refine hwaits.imp (fun h => ?_) fun h => ?_
      · rw [hend]
        exact pruneOwed_owed (hwowed.trans (howed.trans h))
      · rw [hend]
        show w.tx.held.any TxBody.isAnyExtent = true
        rw [hwtx, htx]
        exact h
    rw [hrest (by rw [hend]; exact hwrx) hdef hdwaits]
    refine ⟨?_, fun i hi => ?_, ?_⟩
    · rw [hentry, ← hid, update_self (fun e => e.written s.env moved n q.endSlot) (fun _ => rfl) (by rw [hid]; exact hown.trans he), underCopied_et het]
      rfl
    · rw [hentry, update_other (fun e => e.written s.env moved n q.endSlot) (fun _ => rfl) i (by rw [hid]; exact hi)]
      exact Ctl.entry_congr hdir i
    · rw [Ctl.sweep_et, hdet, hwet, het, hseq]
      rfl
  case moved =>
    rintro e fb p a rfl he hnamed hfill hdef ha
    have hce : c.ownEntry s.env seq = some e := hown.trans he
    have hend : d = _ := hd.trans (ownProgramEnd_fail hce hnamed)
    obtain ⟨-, -, -, hgrx, -, hgfill, -, hgpool, -⟩ := ownGivenUp_fields (c := c) (k := s.env) (moved := moved) (q := q) id
    obtain ⟨x, hx⟩ := ownGivenUp_entry (moved := moved) (q := q) hce
    obtain ⟨hmrx, hmentry, hmqueue⟩ := ownRelocate_moved (a := a) hx
      ((Ctl.fillOf_congr (hgfill.trans hfillc) seq).trans hfill) (by
        unfold Ctl.gives
        rw [ownGivenUp_openBlock hblocks, hgpool, hpool, ← afterFail_pool (moved := moved) q.page]
        exact ha.imp_right fun ⟨h1, h2⟩ => ⟨h1, .inl rfl, h2⟩) e.localPage.isSome
    rw [← hend] at hmrx hmentry hmqueue
    rw [Ctl.rejudge_none fun v h hv => hdef v h (by rw [← Ctl.rxHeld_congr (hmrx.trans (hgrx.trans hrx))]; exact hv)]
    refine ⟨?_, (Ctl.sweepAll_calm (.refl (w := false) d) s.env).queue rfl _ |>.subset hmqueue⟩
    rw [← hmentry]
    exact congrArg _ (Ctl.entry_congr (Ctl.sweepAll_dir d s.env) id)
  case refused =>
    rintro e fb p rfl he hnamed hfill hdef hwaits hopen hnopool hclosed hset hextra hsub depth failed
    have hce : c.ownEntry s.env seq = some e := hown.trans he
    have hid : e.id = id := Ctl.entry_id he
    have hend : d = _ := hd.trans (ownProgramEnd_fail hce hnamed)
    obtain ⟨hget, hgtx, hgowed, hgrx, hgport, hgfill, hgpeers, hgpool, -⟩ :=
      ownGivenUp_fields (c := c) (k := s.env) (moved := moved) (q := q) id
    obtain ⟨x, hx⟩ := ownGivenUp_entry (moved := moved) (q := q) hce
    have hgf := (Ctl.fillOf_congr (hgfill.trans hfillc) seq).trans hfill
    rw [ownRelocate_refused hx hgf ((ownGivenUp_openBlock hblocks id .own).trans hopen)
      (hgpool.trans (hpool.trans hnopool))] at hend
    obtain ⟨hdet, hdtx, hdowed, hdrx, ⟨e', hde, hplace, hcl, hpend, hreloc⟩, hdflush, hdappend⟩ :=
      ownRefused_spec (say := e.localPage.isSome) hx hgf hclosed (fun y hy => hset y (by rw [hget, het] at hy; exact hy))
        hextra (Ctl.substitute_none (by rw [hid]; rfl) (hgpeers.trans hpeers) rfl rfl rfl rfl hsub)
    rw [← hend] at hdet hdtx hdowed hdrx hde hdflush hdappend
    rw [hgtx, htx] at hdtx
    rw [hgport, hport] at hdflush hdappend
    have hheld : d.tx.held = s.ctl.tx.held := by
      rw [hdtx]
      split
      · exact Ctl.answer_held s.ctl _
      · rfl
    rw [hrest (hdrx.trans hgrx) hdef (by rw [hdowed, hgowed, howed, hheld]; exact hwaits)]
    rw [Ctl.sweep_et, Ctl.sweep_tx, Ctl.sweep_port, Ctl.entry_congr (Ctl.sweep_dir d s.env)]
    have hentry : d.entry id = some e' := hde
    refine ⟨?_, ?_, ?_, fun ext x hact hx hprog => hdflush ext x hact ?_ hprog, hdappend⟩
    · rw [hdet, hget, het]
    · rw [hdtx]
      cases e.localPage <;> rfl
    · rw [hentry, Option.map_some, hplace, hcl, hpend, hreloc]
      rfl
    · rw [Ctl.etEntry_congr (hget.trans het)]
      exact hx

end Sys2Proof.Machine
end

