-- ==== Sys2Proof/Proofs/FrameProgramRules.lean ====
section
/-!
PROOFS. Rules for the programs that carry a frame into a replica: what PASS records, and a copy that is moved or dropped.
-/

namespace Sys2Proof.Machine

section Replica

variable {c : Ctl} {k : Env} {v : Fin 4} {h : RxHeld} {id : PageId} {e : Entry} {reloc : Bool} {q : ProgramReq}

/-- The ANSWER of the intake to a kept frame whose buffer it frees. -/
theorem answerAndFree_eq (verdict : Verdict) (aux : Nat) :
    c.answerAndFree v h id verdict aux =
      { c with tx := c.tx.answer (theAnswer h id verdict aux), rx := vput c.rx v .free } := rfl

/-- No frame is DEFERRED once a buffer has been freed. -/
theorem not_deferred_freed {rx : Vector RxBuf 4} (hrx : rx = vput c.rx v .free)
    (hdef : ∀ w x, c.rxHeld w = some x → x.phase ≠ .deferred) {d : Ctl} (hd : d.rx = rx) :
    ∀ w x, d.rxHeld w = some x → x.phase ≠ .deferred := by
  intro w x hx
  rw [Ctl.rxHeld, hd, hrx] at hx
  by_cases hw : w = v
  · rw [hw, vput_get_same] at hx
    exact absurd hx nofun
  · rw [vput_get_other _ _ _ _ hw] at hx
    exact hdef w x hx

/-! ## A copy is dropped -/

/-- A replica is DROPPED: its entry goes, LOST is answered, and the jobs of its page are cancelled (R138). -/
theorem dropCopy_eq (hrole : e.role = .replica) (hdef : ∀ w x, c.rxHeld w = some x → x.phase ≠ .deferred) (v : Fin 4)
    (h : RxHeld) :
    c.dropCopy k v h e =
      ({ c.remove e.id with tx := c.tx.answer (theAnswer h e.id .lost 0), rx := vput c.rx v .free } : Ctl).cancelJobs
        (fun j => decide (j.page = e.id)) := by
  obtain ⟨d, hd⟩ : ∃ d : Ctl, d = (c.remove e.id).answerAndFree v h e.id .lost 0 := ⟨_, rfl⟩
  have hdrop : c.dropCopy k v h e = (d.cancelJobs (fun j => decide (j.page = e.id))).rejudge k e.id := by
    rw [hd]
    simp only [Ctl.dropCopy, hrole, reduceCtorEq, decide_false, Bool.false_eq_true, if_false]
  have hrx : (d.cancelJobs (fun j => decide (j.page = e.id))).rx = vput c.rx v .free := by
    rw [Ctl.cancelJobs_rx, hd, answerAndFree_eq]
    exact congrArg (vput · v .free) (Ctl.remove_rx c e.id)
  rw [hdrop, Ctl.rejudge_none (not_deferred_freed rfl hdef hrx), hd, answerAndFree_eq, Ctl.remove_tx, Ctl.remove_rx]

/-- A replica of which no job stands is DROPPED. -/
theorem dropCopy_replica (hrole : e.role = .replica) (hdef : ∀ w x, c.rxHeld w = some x → x.phase ≠ .deferred)
    (hjobs : ∀ slot j, c.jobs.get slot = some j → j.page ≠ e.id) (v : Fin 4) (h : RxHeld) :
    c.dropCopy k v h e =
      { c.remove e.id with tx := c.tx.answer (theAnswer h e.id .lost 0), rx := vput c.rx v .free } := by
  rw [dropCopy_eq hrole hdef]
  refine cancelJobs_none fun slot j hj => decide_eq_false (hjobs slot j ?_)
  rw [← Ctl.remove_jobs c e.id]
  exact hj

/-! ## A copy is moved -/

/-- The relocation program of a frame (R136). -/
def RxHeld.relocRequest (h : RxHeld) (k : Env) (id : PageId) (v : Fin 4) (a : PageAddr) (m : Nat) : Request :=
  { who := .replicaReloc v, emergency := false,
    op := .program
      { page := a, first := 0, count := h.frame.last, identity := some id.group,
        descs := (List.range m).zip (h.back.take m) ++ (h.frame.added m).map (h.descriptor k id), source := .rx v } }

theorem programReloc_eq (hv : c.rx.get v = .held h) (id : PageId) (a : PageAddr) (m : Nat) :
    c.programReloc k v h id a m =
      ({ c with rx := vput c.rx v (.held { h with phase := .relocating }) } : Ctl).enter (h.relocRequest k id v a m) :=
  rxPhase_of (c := c.enter (h.relocRequest k id v a m)) hv .relocating

theorem continueReloc_program (hv : c.rx.get v = .held h) {m : Nat} (hm : m ≤ h.back.length) (id : PageId)
    (from_ : Option PageAddr) (a : PageAddr) :
    c.continueReloc k v h id from_ a m =
      ({ c with rx := vput c.rx v (.held { h with phase := .relocating }) } : Ctl).enter (h.relocRequest k id v a m) :=
  (if_pos hm).trans (programReloc_eq hv id a m)

theorem continueReloc_readBack (hv : c.rx.get v = .held h) {m : Nat} (hm : h.back.length < m) (id : PageId)
    (p a : PageAddr) :
    c.continueReloc k v h id (some p) a m =
      ({ c with rx := vput c.rx v (.held { h with phase := .readingBack }) } : Ctl).enter
        { who := .replicaReadBack v, op := .pageRead p, emergency := false } :=
  (if_neg (Nat.not_le.2 hm)).trans
    (rxPhase_of (c := c.enter { who := .replicaReadBack v, op := .pageRead p, emergency := false }) hv .readingBack)

theorem continueReloc_shape (hv : c.rx.get v = .held h) (id : PageId) (from_ : Option PageAddr) (a : PageAddr) (m : Nat) :
    ∃ rx units, c.continueReloc k v h id from_ a m = { c with rx := rx, units := units } := by
  by_cases hm : m ≤ h.back.length
  · exact ⟨_, _, continueReloc_program hv hm id from_ a⟩
  · cases from_ with
    | none => exact ⟨_, _, (if_neg hm).trans (programReloc_eq hv id a m)⟩
    | some p => exact ⟨_, _, continueReloc_readBack hv (Nat.lt_of_not_le hm) id p a⟩

theorem enter_queue (c : Ctl) (r : Request) :
    ((c.enter r).units.get r.unit).queue = (c.units.get r.unit).queue ++ [r] := by
  rw [Ctl.enter_units, vput_get_same]

/-- With a page to be had the copy is moved (R137). -/
theorem relocateFrame_moved {a : PageAddr} (he : c.entry e.id = some e) (hv : c.rx.get v = .held h)
    (ha : c.gives e.role true a) :
    let d := c.relocateFrame k v h e
    (d.entry e.id).map (·.relocPage) = some (some a) ∧ d.tx = c.tx ∧ d.jobs = c.jobs ∧
    (e.ownDepth k ≤ h.back.length →
      d.rx = vput c.rx v (.held { h with phase := .relocating }) ∧
      ∃ l, (d.units.get (unitOfBlock a.block)).queue = l ++ [h.relocRequest k e.id v a (e.ownDepth k)]) ∧
    (∀ p, h.back.length < e.ownDepth k → e.localPage = some p →
      d.rx = vput c.rx v (.held { h with phase := .readingBack }) ∧
      ∃ l, (d.units.get (unitOfBlock p.block)).queue =
        l ++ [{ who := .replicaReadBack v, op := .pageRead p, emergency := false }]) := by
  intro d
  obtain ⟨bs, al, halloc, -⟩ := Ctl.allocate_spec ha
  obtain ⟨g, hg⟩ : ∃ g : Ctl, g = { c with
    blocks := bs
    pool := if c.openBlock e.role = none then c.pool.tail else c.pool
    alerts := al } := ⟨_, rfl⟩
  obtain ⟨w, hw⟩ : ∃ w, w = g.update k e.id (fun e => { e with relocPage := some a }) := ⟨_, rfl⟩
  have hd : d = w.continueReloc k v h e.id e.localPage a (e.ownDepth k) := by
    show c.relocateFrame k v h e = _
    rw [hw, hg, Ctl.relocateFrame, halloc]
  have hwrx : w.rx = c.rx := by rw [hw, Ctl.update_rx, hg]
  have hwtx : w.tx = c.tx := by rw [hw, Ctl.update_tx, hg]
  have hwjobs : w.jobs = c.jobs := by rw [hw, Ctl.update_jobs, hg]
  have hge : g.entry e.id = some e := (Ctl.entry_congr (by rw [hg]) e.id).trans he
  obtain ⟨u, hwe⟩ := Ctl.update_formed (k := k) (fun e => { e with relocPage := some a }) (fun _ => rfl) hge
  rw [← hw] at hwe
  have hwv : w.rx.get v = .held h := by rw [hwrx]; exact hv
  obtain ⟨rx, units, hshape⟩ := continueReloc_shape (k := k) hwv e.id e.localPage a (e.ownDepth k)
  refine ⟨?_, ?_, ?_, fun hm => ?_, fun p hm hp => ?_⟩
  · rw [hd, hshape]
    exact congrArg _ hwe
  · rw [hd, hshape]
    exact hwtx
  · rw [hd, hshape]
    exact hwjobs
  · rw [hd, continueReloc_program hwv hm, ← hwrx]
    exact ⟨rfl, _, enter_queue _ (h.relocRequest k e.id v a (e.ownDepth k))⟩
  · rw [hd, hp, continueReloc_readBack hwv hm, ← hwrx]
    exact ⟨rfl, _, enter_queue _ { who := .replicaReadBack v, op := .pageRead p, emergency := false }⟩

/-! ## The end of the program -/

/-- The entry of a replica whose program has passed (R36, R47, R135). -/
def Entry.framed (e : Entry) (k : Env) (reloc : Bool) (h : RxHeld) (closes : Bool) : Entry :=
  { (e.setDepth k.me (e.pendingExt.getD 0)) with
      pendingExt := none, closed := e.closed || closes, copyEnd := h.frame.last, relocPage := none,
      localPage := if reloc then e.relocPage else e.localPage }

/-- PASS for a replica, none of whose frames is DEFERRED. -/
theorem framePassed_replica (hrole : e.role = .replica) (hdef : ∀ w x, c.rxHeld w = some x → x.phase ≠ .deferred) :
    let d := c.framePassed k v h e reloc
    d.dir = (c.update k e.id (fun e' => e'.framed k reloc h (h.frame.closes (e.ownDepth k)))).dir ∧
    d.tx = c.tx.answer (theAnswer h e.id .programmed 0) ∧ d.rx = vput c.rx v .free ∧ d.jobs = c.jobs ∧ d.port = c.port ∧
    d.et = c.et ∧ d.fill = c.fill := by
  intro d
  obtain ⟨w, hw⟩ : ∃ w, w = c.update k e.id (fun e' => e'.framed k reloc h (h.frame.closes (e.ownDepth k))) := ⟨_, rfl⟩
  obtain ⟨x, hx⟩ : ∃ x, x = if reloc then w.killPages [e.localPage] else w := ⟨_, rfl⟩
  have hd : d = (x.answerAndFree v h e.id .programmed 0).rejudge k e.id := by
    show c.framePassed k v h e reloc = _
    rw [hx, hw]
    simp only [Ctl.framePassed, hrole, reduceCtorEq, decide_false, Bool.not_false, Bool.and_true, Bool.false_eq_true, if_false]
    rfl
  have hxrx : x.rx = c.rx := by rw [hx, hw]; cases reloc <;> simp
  rw [hd, Ctl.rejudge_none (not_deferred_freed rfl hdef (by rw [answerAndFree_eq, hxrx])), answerAndFree_eq, hx, ← hw]
  refine ⟨?_, ?_, ?_, ?_, ?_, ?_, ?_⟩
  · cases reloc <;> simp
  all_goals
    rw [hw]
    cases reloc <;> simp

/-- The failed program is given up: the block is RETIRED, and a relocation page is DEAD (R48, R137). -/
def Ctl.frameGivenUp (c : Ctl) (k : Env) (reloc : Bool) (q : ProgramReq) (id : PageId) : Ctl :=
  if reloc then ((c.retire q.page.block).update k id (fun e => { e with relocPage := none })).killPages [some q.page]
  else c.retire q.page.block

/-- The entry that is moved after a failed program. -/
def Entry.unmoved (e : Entry) (reloc : Bool) : Entry := if reloc then { e with relocPage := none } else e

theorem namedEntry_of {a : PageAddr} (he : c.entry id = some e) (hp : e.pendingExt ≠ none)
    (ha : (if reloc then e.relocPage else e.localPage) = some a) : c.namedEntry (some id) reloc a = some e := by
  simp only [Ctl.namedEntry, he]
  exact if_pos (by rw [Option.isSome_iff_ne_none.2 hp, decide_eq_true ha]; rfl)

theorem frameProgramEnd_pass (hv : c.rx.get v = .held h) (hid : h.frame.id h.src = some id) (he : c.entry id = some e)
    (hp : e.pendingExt ≠ none) (ha : (if reloc then e.relocPage else e.localPage) = some q.page) :
    c.frameProgramEnd k v reloc q .pass = c.framePassed k v h e reloc := by
  simp only [Ctl.frameProgramEnd, reduceCtorEq, if_false, Ctl.rxHeld_of hv, hid, namedEntry_of he hp ha]

theorem frameProgramEnd_fail (hv : c.rx.get v = .held h) (hid : h.frame.id h.src = some e.id) (he : c.entry e.id = some e)
    (hp : e.pendingExt ≠ none) (ha : (if reloc then e.relocPage else e.localPage) = some q.page) :
    c.frameProgramEnd k v reloc q .fail = (c.frameGivenUp k reloc q e.id).relocateFrame k v h (e.unmoved reloc) := by
  have hv' := Ctl.rxHeld_of (c := c.retire q.page.block) (by rw [Ctl.retire_rx]; exact hv)
  have he' : (c.retire q.page.block).entry e.id = some e := (Ctl.entry_congr (Ctl.retire_dir c _) e.id).trans he
  simp only [Ctl.frameProgramEnd, if_true, hv', hid, namedEntry_of he' hp ha]
  cases reloc <;> rfl

theorem frameGivenUp_fields (id : PageId) :
    let d := c.frameGivenUp k reloc q id
    d.et = c.et ∧ d.tx = c.tx ∧ d.jobs = c.jobs ∧ d.rx = c.rx ∧ d.port = c.port ∧ d.fill = c.fill ∧ d.pool = c.pool ∧
    d.blocks = (c.afterFail reloc q.page).blocks := by
  cases reloc
  · simp [Ctl.frameGivenUp, Ctl.afterFail]
  · refine ⟨?_, ?_, ?_, ?_, ?_, ?_, ?_, ?blocks⟩
    case blocks => exact killPage_blocks_congr (Ctl.update_blocks _ _ _ _) q.page
    all_goals simp [Ctl.frameGivenUp]

end Replica

end Sys2Proof.Machine
end

