-- ==== Sys2Proof/Proofs/ReplicaPrograms.lean ====
section
/-!
PROOFS. The ends of the programs and of the read-backs that carry a frame into a replica.
-/

namespace Sys2Proof.Machine

section GivenUp

variable {c : Ctl} {k : Env} {reloc : Bool} {q : ProgramReq} {e : Entry}

theorem frameGivenUp_entry (he : c.entry e.id = some e) :
    ∃ u, (c.frameGivenUp k reloc q e.id).entry e.id = some { e.unmoved reloc with under := u } := by
  have he' : (c.retire q.page.block).entry e.id = some e := (Ctl.entry_congr (Ctl.retire_dir c _) e.id).trans he
  cases reloc
  · exact ⟨e.under, he'⟩
  · obtain ⟨u, hu⟩ := Ctl.update_formed (k := k) (fun e => { e with relocPage := none }) (fun _ => rfl) he'
    exact ⟨u, (Ctl.entry_congr (Ctl.killPages_dir _ _) e.id).trans hu⟩

theorem filter_update (f : Entry → Entry) (hf : ∀ e, (f e).id = e.id) (id : PageId) :
    (c.update k id f).dir.filter (fun y => y.id != id) = c.dir.filter (fun y => y.id != id) := by
  have hsame : (fun y : Entry => y.id != id) ∘ (fun e => if e.id = id then c.flagged k (f e) else e) =
      fun y => y.id != id := by
    funext y
    simp only [Function.comp]
    split
    · exact congrArg (· != id) (hf y)
    · rfl
  rw [Ctl.update_dir, List.filter_map, hsame, List.map_congr_left (g := fun x => x), List.map_id']
  exact fun y hy => if_neg (by simpa using (List.mem_filter.1 hy).2)

/-- The entries of the other pages stay through what a failed program gives up. -/
theorem frameGivenUp_others : (c.frameGivenUp k reloc q e.id).dir.filter (fun y => y.id != e.id) =
    c.dir.filter (fun y => y.id != e.id) := by
  cases reloc
  · rw [Ctl.frameGivenUp, if_neg Bool.false_ne_true, Ctl.retire_dir]
  · rw [Ctl.frameGivenUp, if_pos rfl, Ctl.killPages_dir, filter_update (fun e => { e with relocPage := none }) (fun _ => rfl),
      Ctl.retire_dir]

theorem unmoved_fields (e : Entry) (u : Bool) :
    ({ e.unmoved reloc with under := u } : Entry).id = e.id ∧ ({ e.unmoved reloc with under := u } : Entry).role = e.role ∧
    ({ e.unmoved reloc with under := u } : Entry).ownDepth k = e.ownDepth k ∧
    ({ e.unmoved reloc with under := u } : Entry).localPage = e.localPage := by
  cases reloc <;> exact ⟨rfl, rfl, rfl, rfl⟩

/-- What becomes of the copy does not depend on the under-copied flag it is judged with. -/
theorem relocateFrame_flag (v : Fin 4) (h : RxHeld) (x : Entry) (u : Bool) :
    c.relocateFrame k v h { x with under := u } = c.relocateFrame k v h x := rfl

end GivenUp

/-- Settles O30: PASS by `framePassed_replica`, FAIL by whether a page is to be had. -/
theorem replicaProgramDone : Obligations.ReplicaProgramDone := by
  intro s u r i reloc kind b q v h e hlow hi hc hb hop hv hphase hdef hid he hrole horigin hpend ha answer m c0
  obtain ⟨c, hcdef⟩ : ∃ c, c = s.ctl.setUnit u { s.ctl.units.get u with busy := none } := ⟨_, rfl⟩
  obtain ⟨d, hd⟩ : ∃ d, d = c.frameProgramEnd s.env v reloc q (programOut r) := ⟨_, rfl⟩
  have hexec : exec i s = .next
      { s with
        env := { s.env with fresh := s.env.fresh + 1 }
        flash := s.flash.afterProgram q b.data r s.env.fresh
        ctl := d } := by
    rcases hi with ⟨rfl, rfl, rfl, hwho⟩ | ⟨rfl, rfl, rfl, hwho⟩
    all_goals
      refine (next_programDone hlow hc hb (by rw [hwho]; rfl) hop).trans ?_
      rw [hd, hcdef, hwho]
      rfl
  have hcalm : Calm false c d := by
    rw [hd]
    exact Ctl.frameProgramEnd_calm (.refl c) _ _ _ _ _
  have hfields : c.dir = s.ctl.dir ∧ c.et = s.ctl.et ∧ c.port = s.ctl.port ∧ c.tx = s.ctl.tx ∧ c.rx = s.ctl.rx ∧
      c.jobs = s.ctl.jobs ∧ c.blocks = s.ctl.blocks ∧ c.fill = s.ctl.fill ∧ c.pool = s.ctl.pool := by
    rw [hcdef]
    exact ⟨rfl, rfl, rfl, rfl, rfl, rfl, rfl, rfl, rfl⟩
  obtain ⟨hdir, het, hport, htx, hrx, hjobs, hblocks, hfill, hpool⟩ := hfields
  have hce : c.entry e.id = some e := (Ctl.entry_congr hdir e.id).trans he
  have hcv : c.rx.get v = .held h := by rw [hrx]; exact hv
  have hcdef' : ∀ w x, c.rxHeld w = some x → x.phase ≠ .deferred := deferred_free hrx hdef
  have hanswer (verdict : Verdict) : theAnswer h e.id verdict 0 = answer verdict := rfl
  refine ⟨_, _, hexec, (hcalm.still rfl).trans (by rw [hcdef]; rfl), (Calm.idle (hcdef ▸ hcalm)).1, ?_⟩
  cases r with
  | pass n =>
    have hend : d = c.framePassed s.env v h e reloc := hd.trans (frameProgramEnd_pass hcv hid hce hpend ha)
    obtain ⟨hddir, hdtx, hdrx, hdjobs, hdport, hdet, hdfill⟩ :=
      framePassed_replica (k := s.env) (v := v) (h := h) (reloc := reloc) hrole hcdef'
    rw [← hend] at hddir hdtx hdrx hdjobs hdport hdet hdfill
    refine ⟨hdport.trans hport, hdet.trans het, hdfill.trans hfill, ?_, nofun⟩
    intro k hk e'
    refine ⟨?_, fun j hj => ?_, ?_, ?_, hdjobs.trans hjobs⟩
    · rw [Ctl.entry_congr hddir,
        update_self (fun e' => e'.framed s.env reloc h (h.frame.closes (e.ownDepth s.env))) (fun _ => rfl) hce,
        underCopied_et het]
      rfl
    · rw [Ctl.entry_congr hddir,
        update_other (fun e' => e'.framed s.env reloc h (h.frame.closes (e.ownDepth s.env))) (fun _ => rfl) j hj]
      exact Ctl.entry_congr hdir j
    · rw [hdtx, htx, hanswer]
    · rw [hdrx, hrx]
  | fail =>
    obtain ⟨x, hx⟩ := frameGivenUp_entry (k := s.env) (reloc := reloc) (q := q) hce
    obtain ⟨hget, hgtx, hgjobs, hgrx, hgport, hgfill, hgpool, hgblocks⟩ :=
      frameGivenUp_fields (c := c) (k := s.env) (reloc := reloc) (q := q) e.id
    have hothers := frameGivenUp_others (c := c) (k := s.env) (reloc := reloc) (q := q) (e := e)
    obtain ⟨g, hg⟩ : ∃ g, g = c.frameGivenUp s.env reloc q e.id := ⟨_, rfl⟩
    obtain ⟨y, hy⟩ : ∃ y : Entry, y = { e.unmoved reloc with under := x } := ⟨_, rfl⟩
    have hend : d = g.relocateFrame s.env v h y := by
      rw [hy, relocateFrame_flag, hg]
      exact hd.trans (frameProgramEnd_fail hcv hid hce hpend ha)
    obtain ⟨hyid, hyrole, hydepth, hypage⟩ := unmoved_fields (k := s.env) (reloc := reloc) e x
    rw [← hy] at hyid hyrole hydepth hypage hx
    rw [← hg] at hget hgtx hgjobs hgrx hgport hgfill hgpool hgblocks hothers hx
    have hgy : g.entry y.id = some y := by rw [hyid]; exact hx
    have hgv : g.rx.get v = .held h := by rw [hgrx]; exact hcv
    have hgdef : ∀ w x, g.rxHeld w = some x → x.phase ≠ .deferred := deferred_free hgrx hcdef'
    obtain ⟨hdport, hdet, hdfill⟩ := relocateFrame_fields (k := s.env) (b := v) (h := h) (hyrole.trans hrole) hgdef
    rw [← hend] at hdport hdet hdfill
    have hopen : g.openBlock .replica = c0.openBlock .replica :=
      allocate_openBlock (hgblocks.trans (afterFail_blocks_congr hblocks q.page)) .replica
    have hgpool' : g.pool = c0.pool := hgpool.trans (hpool.trans (afterFail_pool (moved := reloc) q.page).symm)
    refine ⟨hdport.trans (hgport.trans hport), hdet.trans (hget.trans het), hdfill.trans (hgfill.trans hfill), nofun,
      fun _ => ⟨fun a hhad => ?_, fun hnone hempty hnojobs => ?_⟩⟩
    · obtain ⟨hentry, hdtx, hdjobs, hprogram, hread⟩ := relocateFrame_moved (k := s.env) (h := h) (a := a) hgy hgv (by
        unfold Ctl.gives
        rw [hyrole, hrole, hopen, hgpool']
        exact hhad.imp_right fun ⟨h1, h2⟩ => ⟨h1, .inl rfl, h2⟩)
      rw [← hend] at hentry hdtx hdjobs hprogram hread
      rw [hyid, hydepth, hgrx, hrx] at hprogram
      rw [hydepth, hypage, hgrx, hrx] at hread
      rw [hyid] at hentry
      exact ⟨hentry, hdtx.trans (hgtx.trans htx), hdjobs.trans (hgjobs.trans hjobs), hprogram, hread⟩
    · have hdrop : d = g.dropCopy s.env v h y := by
        rw [hend, Ctl.relocateFrame, allocate_empty (by rw [hyrole, hrole, hopen]; exact hnone) (hgpool'.trans hempty) true]
      rw [dropCopy_replica (hyrole.trans hrole) hgdef (fun slot j hj => by
        rw [hyid]
        exact hnojobs slot j (by rw [← hjobs, ← hgjobs]; exact hj)) v h, hyid] at hdrop
      rw [hdrop]
      refine ⟨?_, ?_, ?_, ?_⟩
      · show (g.remove e.id).dir = _
        rw [remove_dir g e.id y hx, hothers, hdir]
      · show g.tx.answer _ = _
        rw [hgtx, htx, hanswer]
      · show vput g.rx v .free = _
        rw [hgrx, hrx]
      · show (g.remove e.id).jobs = _
        rw [Ctl.remove_jobs, hgjobs, hjobs]

end Sys2Proof.Machine
end

