-- ==== Sys2Proof/Proofs/ReplicaReadBack.lean ====
section
/-!
PROOFS. The end of a relocation read-back.
-/

namespace Sys2Proof.Machine

section ReadBack

variable {c : Ctl} {k : Env} {v : Fin 4} {h : RxHeld} {e : Entry} {a t : PageAddr} {r : PageRead}

/-- Every part of the earlier extents was readable: the relocation program is requested (R137). -/
theorem frameReadBackEnd_sound (hv : c.rx.get v = .held h) (hid : h.frame.id h.src = some e.id)
    (he : c.entry e.id = some e) (hp : e.pendingExt ≠ none) (ha : e.localPage = some a) (ht : e.relocPage = some t)
    (hr : r.uncorrectableIn (e.ownDepth k) e.copyEnd = false) :
    let h' := h.withReadBack (e.ownDepth k) r
    c.frameReadBackEnd k v a (some r) =
      ({ c with rx := vput c.rx v (.held { h' with phase := .relocating }) } : Ctl).enter
        (h'.relocRequest k e.id v t (e.ownDepth k)) := by
  intro h'
  have hend : c.frameReadBackEnd k v a (some r) = (c.setRx v (.held h')).programReloc k v h' e.id t (e.ownDepth k) := by
    simp only [Ctl.frameReadBackEnd, Ctl.rxHeld_of hv, hid, namedEntry_of (reloc := false) he hp ha, hr, Bool.false_eq_true,
      if_false, ht]
    rfl
  rw [hend, programReloc_eq (vput_get_same _ _ _)]
  simp only [Ctl.setRx, vput_vput]

/-- Some part was not: the copy is dropped (R138). -/
theorem frameReadBackEnd_unreadable (hv : c.rx.get v = .held h) (hid : h.frame.id h.src = some e.id)
    (he : c.entry e.id = some e) (hp : e.pendingExt ≠ none) (ha : e.localPage = some a)
    (hr : r.uncorrectableIn (e.ownDepth k) e.copyEnd = true) :
    c.frameReadBackEnd k v a (some r) = c.dropCopy k v h e := by
  simp only [Ctl.frameReadBackEnd, Ctl.rxHeld_of hv, hid, namedEntry_of (reloc := false) he hp ha, hr, if_true]

end ReadBack

/-- Settles O32: by whether what was read back was readable. -/
theorem relocationReadBackDone : Obligations.RelocationReadBackDone := by
  intro s u r b a t v h e hlow hc hb hwho hop hv hphase hdef hid he hrole hpend ha ht rd m h'
  obtain ⟨c, hcdef⟩ : ∃ c, c = s.ctl.setUnit u { s.ctl.units.get u with busy := none } := ⟨_, rfl⟩
  obtain ⟨d, hd⟩ : ∃ d, d = c.frameReadBackEnd s.env v a (some rd) := ⟨_, rfl⟩
  have hexec : exec (.relocationReadBackDone u r) s = .next
      { s with
        env := { s.env with fresh := s.env.fresh + 1 }
        flash := s.flash.afterRead a r
        ctl := d } := by
    refine exec_pageReadDone hlow hc hb (by rw [hwho]; rfl) hop ?_
    rw [hd, hcdef, hwho]
    rfl
  have hcalm : Calm false c d := by
    rw [hd]
    exact Ctl.frameReadBackEnd_calm (.refl c) _ _ _ _
  have hfields : c.dir = s.ctl.dir ∧ c.et = s.ctl.et ∧ c.port = s.ctl.port ∧ c.tx = s.ctl.tx ∧ c.rx = s.ctl.rx ∧
      c.jobs = s.ctl.jobs := by
    rw [hcdef]
    exact ⟨rfl, rfl, rfl, rfl, rfl, rfl⟩
  obtain ⟨hdir, het, hport, htx, hrx, hjobs⟩ := hfields
  have hce : c.entry e.id = some e := (Ctl.entry_congr hdir e.id).trans he
  have hcv : c.rx.get v = .held h := by rw [hrx]; exact hv
  have hcdef' : ∀ w x, c.rxHeld w = some x → x.phase ≠ .deferred := deferred_free hrx hdef
  refine ⟨_, hexec, (hcalm.still rfl).trans (by rw [hcdef]; rfl), (Calm.idle (hcdef ▸ hcalm)).1, ?_⟩
  cases hr : rd.uncorrectableIn m e.copyEnd with
  | false =>
    rw [frameReadBackEnd_sound hcv hid hce hpend ha ht hr] at hd
    refine ⟨by rw [hd]; exact hport, by rw [hd]; exact het, fun _ => ?_, nofun⟩
    rw [hd, hcdef]
    rfl
  | true =>
    have hend : d = c.dropCopy s.env v h e := hd.trans (frameReadBackEnd_unreadable hcv hid hce hpend ha hr)
    refine ⟨?_, ?_, nofun, fun _ hnojobs => ?_⟩
    · rw [hend, dropCopy_eq hrole hcdef', Ctl.cancelJobs_port]
      exact (Ctl.remove_port c e.id).trans hport
    · rw [hend, dropCopy_eq hrole hcdef', Ctl.cancelJobs_et]
      exact (Ctl.remove_et c e.id).trans het
    · rw [hend, dropCopy_replica hrole hcdef' fun slot j hj => hnojobs slot j (hjobs ▸ hj)]
      refine ⟨?_, ?_, ?_, ?_⟩
      · exact (remove_dir c e.id e hce).trans (by rw [hdir])
      · exact congrArg (Tx.answer · _) htx
      · exact congrArg (vput · v .free) hrx
      · exact (Ctl.remove_jobs c e.id).trans hjobs

end Sys2Proof.Machine
end

