-- ==== Sys2Proof/Proofs/EngineReads.lean ====
section
/-!
PROOFS. The reads of the own-extent engine and of the copy jobs.
-/

namespace Sys2Proof.Machine

/-! ## The read-back of an own page -/

section ReadBack

variable {c : Ctl} {k : Env} {w : Wanted} {x : ETEntry}

/-- What is wanted of an unsettled entry all of whose stations still await it is wanted still (R118). -/
theorem stillWanted_all (hx : c.etEntry w.seq w.ext = some x) (hset : x.settled = .none) (hmask : w.mask ≠ 0)
    (hall : w.mask &&& x.awaiting = w.mask) : c.stillWanted w = some w := by
  simp only [Ctl.stillWanted, hx, hall]
  rw [if_pos]
  simp only [ETEntry.unsettled, hset, decide_true, Bool.true_and, decide_eq_true_eq]
  exact hmask

/-- A transmission from the read-back buffer is requested (R118). -/
theorem transmit_readBack {d : ReadDesc} (hmask : w.mask ≠ 0) (hfill : c.fillOf w.seq = none)
    (hpage : c.readBack.page = some w.seq) (hread : c.readBack.reading = false)
    (hdesc : imageDesc c.readBack.image w.ext = some d) (hnum : d.info.number = w.ext)
    (hwait : c.tx.waitingExtent w.seq w.ext = false) (hheld : c.tx.held = []) :
    c.transmit k w.seq w.ext w.mask =
      (c.onTx (fun t => t.request (.extent w.seq d.info w.mask .readBack))).countAttempts w.seq w.ext w.mask := by
  have hsource : (decide (c.readBack.page = some w.seq) && !c.readBack.reading) = true := by
    rw [hpage, hread, decide_eq_true rfl]
    rfl
  have hnone : c.tx.held.any TxBody.isAnyExtent = false := by rw [hheld]; rfl
  simp only [Ctl.transmit, hmask, if_false, hfill, hsource, if_true, hdesc, Ctl.sendExtent, hnum, hwait, hnone,
    Bool.false_eq_true]

/-- The end of a read-back that found the copy sound, for the one transmission that waits for it. -/
theorem ownReadBackEnd_sound {e : Entry} {a : PageAddr} {r : PageRead} {d : ReadDesc} (he : c.ownEntry k w.seq = some e)
    (ha : e.localPage = some a) (hr : r.unsound (e.ownDepth k) e.copyEnd = false) (hd : r.validDesc w.ext = some d)
    (hpage : c.readBack.page = some w.seq) (hwants : c.readBack.wants = [w]) (howed : c.owed = [])
    (hfill : c.fillOf w.seq = none) (hx : c.etEntry w.seq w.ext = some x) (hset : x.settled = .none) (hmask : w.mask ≠ 0)
    (hall : w.mask &&& x.awaiting = w.mask) (hwait : c.tx.waitingExtent w.seq w.ext = false) (hheld : c.tx.held = []) :
    c.ownReadBackEnd k w.seq a (some r) =
      ((({ c with readBack := { page := some w.seq, reading := false, image := r.image, wants := [] } } : Ctl).onTx
        (fun t => t.request (.extent w.seq d.info w.mask .readBack))).countAttempts w.seq w.ext w.mask).sweepFill k := by
  obtain ⟨himage, hnum⟩ := validDesc_spec hd
  have hsound := foundDamage_sound (a := a) (r := r) (k := k) (id := ownId k w.seq) he hr
  have hnames : (c.ownEntry k w.seq).any (fun e => decide (e.localPage = some a)) = true := by
    rw [he, Option.any_some, ha, decide_eq_true rfl]
  have hwanted := stillWanted_all hx hset hmask hall
  obtain ⟨g, hg⟩ : ∃ g : Ctl, g = { c with
    readBack := { page := some w.seq, reading := false, image := r.image, wants := [] } } := ⟨_, rfl⟩
  have hpruned : ({ c with readBack := { c.readBack with reading := false, image := r.image } } : Ctl).pruneOwed =
      { c with readBack := { page := some w.seq, reading := false, image := r.image, wants := [w] } } := by
    have hwants' : c.readBack.wants.filterMap c.stillWanted = [w] := by
      rw [hwants, List.filterMap_cons_some hwanted, List.filterMap_nil]
    have howed' : c.owed.filterMap c.stillWanted = c.owed := by rw [howed]; rfl
    rw [← hpage, ← hwants']
    exact congrArg (fun l => ({ c with
      owed := l
      readBack := { c.readBack with
        reading := false
        image := r.image
        wants := c.readBack.wants.filterMap c.stillWanted } } : Ctl)) howed'
  have htransmit := transmit_readBack (c := g) (k := k) hmask ((Ctl.fillOf_congr (by rw [hg]) w.seq).trans hfill)
    (by rw [hg]) (by rw [hg]) (by rw [hg]; exact himage) hnum (by rw [hg]; exact hwait) (by rw [hg]; exact hheld)
  have hend : c.ownReadBackEnd k w.seq a (some r) = (g.transmit k w.seq w.ext w.mask).sweep k := by
    unfold Ctl.ownReadBackEnd
    simp only [hsound, Bool.false_eq_true, if_false, hnames, if_true, hpruned, List.filter_cons, List.filter_nil, beq_self_eq_true,
      bne_self_eq_false, List.foldl_cons, List.foldl_nil]
    rw [hg]
  rw [hend, htransmit, ← hg]
  refine sweep_readBack ?_ ?_ ?_
  · rw [hg]
    rfl
  · rw [hg]
    rfl
  · exact request_stands _ _ _ rfl

end ReadBack

/-! ## The read of a copy job -/

section JobRead

variable {c : Ctl} {k : Env} {slot : Fin 2} {a : PageAddr} {r : PageRead} {j : Job} {e : Entry}

/-- The read found the copy sound, or the entry has left its page. -/
theorem foundDamage_none (he : c.entry j.page = some e)
    (h : (e.localPage = some a ∧ 1 ≤ e.ownDepth k ∧ r.unsound (e.ownDepth k) e.copyEnd = false) ∨ e.localPage ≠ some a) :
    c.foundDamage k j.page a r = false := by
  rcases h with ⟨-, -, hr⟩ | hne
  · exact foundDamage_sound he hr
  · simp only [Ctl.foundDamage, he, hne, decide_false, Bool.false_and]

theorem jobReadEnd_cancelled (hj : c.jobs.get slot = some j) (hread : j.state = .reading) (hcan : j.cancelled = true)
    (hbad : c.foundDamage k j.page a r = false) : c.jobReadEnd k slot a (some r) = c.setJob slot none := by
  simp only [Ctl.jobReadEnd, hj, hread, ne_eq, not_true_eq_false, if_false, hcan, if_true, Option.any_some, hbad,
    Bool.false_eq_true]

theorem jobReadEnd_loaded (hj : c.jobs.get slot = some j) (hread : j.state = .reading) (hcan : j.cancelled = false)
    (hbad : c.foundDamage k j.page a r = false) (he : c.entry j.page = some e) (ha : e.localPage = some a)
    (hdepth : 1 ≤ e.ownDepth k) : c.jobReadEnd k slot a (some r) = c.jobLoaded k slot j e r := by
  have hdepth' : e.ownDepth k ≠ 0 := by omega
  simp only [Ctl.jobReadEnd, hj, hread, ne_eq, not_true_eq_false, if_false, hcan, Option.any_some, hbad, Bool.false_eq_true,
    he, ha, hdepth']

theorem jobReadEnd_moved {p : PageAddr} (hj : c.jobs.get slot = some j) (hread : j.state = .reading)
    (hcan : j.cancelled = false) (hbad : c.foundDamage k j.page a r = false) (he : c.entry j.page = some e)
    (hp : e.localPage = some p) (hpa : p ≠ a) :
    c.jobReadEnd k slot a (some r) = c.enter { who := .copyJob slot, op := .pageRead p, emergency := false } := by
  have hne : ¬ p = a := hpa
  simp only [Ctl.jobReadEnd, hj, hread, ne_eq, not_true_eq_false, if_false, hcan, Option.any_some, hbad, Bool.false_eq_true,
    he, hp, Option.some.injEq, hne, not_false_eq_true, if_true, Ctl.jobMoved]

theorem jobReadEnd_damaged (hj : c.jobs.get slot = some j) (hread : j.state = .reading) (hcan : j.cancelled = false)
    (hbad : c.foundDamage k j.page a r = true) (hrepair : j.purpose = .repair) :
    c.jobReadEnd k slot a (some r) = (c.damage k j.page a).setJob slot none := by
  simp only [Ctl.jobReadEnd, hj, hread, ne_eq, not_true_eq_false, if_false, hcan, Option.any_some, hbad, Bool.false_eq_true,
    if_true, Ctl.jobDamaged, hrepair]

/-- A damaged replica goes, and its one job is cancelled (R55, R149). -/
theorem damage_reading {id : PageId} (he : c.entry id = some e) (ha : e.localPage = some a) (hrole : e.role = .replica)
    (hdef : ∀ w x, c.rxHeld w = some x → x.phase ≠ .deferred) (hj : c.jobs.get slot = some j) (hread : j.state = .reading)
    (hcan : j.cancelled = false) (hpage : j.page = id)
    (hothers : ∀ t i, c.jobs.get t = some i → t ≠ slot → i.page ≠ id) :
    c.damage k id a =
      ((c.remove id).answer (droppedAnswer id (e.ownDepth k) 0)).setJob slot (some { j with cancelled := true }) := by
  obtain ⟨d, hd⟩ : ∃ d, d = (c.remove id).answer (droppedAnswer id (e.ownDepth k) 0) := ⟨_, rfl⟩
  have hdjobs : d.jobs = c.jobs := by rw [hd]; exact Ctl.remove_jobs c id
  have hdrx : d.rx = c.rx := by rw [hd]; exact Ctl.remove_rx c id
  have hcancel : d.cancelJobs (fun j => decide (j.page = id)) = d.setJob slot (some { j with cancelled := true }) :=
    cancelJobs_reading (by rw [hdjobs]; exact hj) hread hcan (decide_eq_true hpage) fun t i hi ht =>
      decide_eq_false (hothers t i (hdjobs ▸ hi) ht)
  have hdamage : c.damage k id a = (d.cancelJobs (fun j => decide (j.page = id))).rejudgeVanished k := by
    rw [hd]
    simp only [Ctl.damage, he, ha, ne_eq, not_true_eq_false, if_false, hrole]
  rw [hdamage, hcancel, ← hd]
  exact Ctl.rejudgeVanished_none (c := d.setJob slot (some { j with cancelled := true })) (deferred_free (c := c) hdrx hdef) k

/-- What is left when the one job of a damaged replica has ended. -/
theorem damaged_job_fields (he : c.entry j.page = some e) (ha : e.localPage = some a) (hrole : e.role = .replica)
    (hdef : ∀ w x, c.rxHeld w = some x → x.phase ≠ .deferred) (hj : c.jobs.get slot = some j) (hread : j.state = .reading)
    (hcan : j.cancelled = false) (hothers : ∀ t i, c.jobs.get t = some i → t ≠ slot → i.page ≠ j.page) :
    let d := (c.damage k j.page a).setJob slot none
    d.port = c.port ∧ d.dir = c.dir.filter (fun y => y.id != j.page) ∧ d.jobs = vput c.jobs slot none ∧
    d.tx = c.tx.answer (droppedAnswer j.page (e.ownDepth k) 0) := by
  intro d
  have hd : d = (((c.remove j.page).answer (droppedAnswer j.page (e.ownDepth k) 0)).setJob slot
      (some { j with cancelled := true })).setJob slot none := by
    rw [← damage_reading he ha hrole hdef hj hread hcan rfl hothers]
  have hport := Ctl.remove_port c j.page
  have hdir := remove_dir c j.page e he
  have hjobs := Ctl.remove_jobs c j.page
  have htx := Ctl.remove_tx c j.page
  rw [hd]
  generalize c.remove j.page = g at hport hdir hjobs htx ⊢
  refine ⟨hport, hdir, ?_, ?_⟩
  · show vput (vput g.jobs slot _) slot none = _
    rw [vput_vput, hjobs]
  · show g.tx.answer _ = _
    rw [htx]

/-- The job with its image loaded, before its COPY is requested (R145). -/
def Job.loaded (j : Job) (e : Entry) (k : Env) (r : PageRead) : Job :=
  { j with n := some (e.ownDepth k), closed := e.closed && decide (e.ownDepth k = e.known), image := r.image }

theorem jobLoaded_free (h : c.tx.held.any TxBody.isAnyCopy = false) :
    c.jobLoaded k slot j e r = { c with
      jobs := vput c.jobs slot (some { j.loaded e k r with
        state := .queued, owed := false, timer := none, attempts := j.attempts + 1 })
      tx := c.tx.request (.copy j.page j.target slot) } := by
  refine (Ctl.requestCopy_free (c := c.setJob slot (some (j.loaded e k r))) (vput_get_same _ _ _) (by simpa using h)).trans ?_
  simp only [Ctl.setJob, vput_vput]
  rfl

theorem jobLoaded_owed (h : c.tx.held.any TxBody.isAnyCopy = true) :
    c.jobLoaded k slot j e r = { c with
      jobs := vput c.jobs slot (some { j.loaded e k r with state := .queued, owed := true, timer := none }) } := by
  refine (Ctl.requestCopy_owed (c := c.setJob slot (some (j.loaded e k r))) (vput_get_same _ _ _)
    (List.any_eq_true.1 h)).trans ?_
  simp only [Ctl.setJob, vput_vput]

end JobRead

/-- Settles O31: the read-back by `ownReadBackEnd_sound`, the job's read by what it found. -/
theorem ownAndCopyReadsDone : Obligations.OwnAndCopyReadsDone := by
  refine ⟨?ownRead, ?jobRead⟩
  case ownRead =>
    intro s u r b a e x w d hlow hc hb hwho hop he ha hdepth rd hsound hdesc hpage hwants howed hfill hx hset hmask hall
      hwait hheld
    obtain ⟨c, hcdef⟩ : ∃ c, c = s.ctl.setUnit u { s.ctl.units.get u with busy := none } := ⟨_, rfl⟩
    have hexec : exec (.ownReadBackDone u r) s = .next
        { s with
          env := { s.env with fresh := s.env.fresh + 1 }
          flash := s.flash.afterRead a r
          ctl := c.ownReadBackEnd s.env w.seq a (some rd) } := by
      refine exec_pageReadDone hlow hc hb (by rw [hwho]; rfl) hop ?_
      rw [hcdef, hwho]
      rfl
    have hcalm : Calm false c (c.ownReadBackEnd s.env w.seq a (some rd)) := Ctl.ownReadBackEnd_calm (.refl c) _ _ _ _
    have hend := ownReadBackEnd_sound (c := s.ctl.setUnit u { s.ctl.units.get u with busy := none }) (k := s.env) he ha hsound
      hdesc hpage hwants howed hfill hx hset hmask hall hwait hheld
    rw [← hcdef] at hend
    have hidle : ((c.ownReadBackEnd s.env w.seq a (some rd)).units.get u).busy = none := by
      rw [hcalm.busy u, hcdef]
      exact congrArg UnitState.busy (vput_get_same _ _ _)
    refine ⟨_, hexec, (hcalm.still rfl).trans (by rw [hcdef]; rfl), hidle, ?_⟩
    rw [hend, Ctl.sweepFill_tx, Ctl.sweepFill_readBack, Ctl.sweepFill_dir, Ctl.sweepFill_port, Ctl.sweepFill_et,
      Ctl.countAttempts_eq, hcdef]
    exact ⟨rfl, rfl, rfl, rfl, rfl⟩
  case jobRead =>
    intro s u r b a slot j e hlow hc hb hwho hop hj hread he rd n idle answers sound loaded
    have hexec {d : Ctl} (hd : idle.jobReadEnd s.env slot a (some rd) = d) : answers d := by
      refine exec_pageReadDone hlow hc hb (by rw [hwho]; rfl) hop ?_
      rw [hwho]
      exact hd
    have hloaded (hcan : j.cancelled = false) (hs : sound) : idle.jobReadEnd s.env slot a (some rd) =
        idle.jobLoaded s.env slot j e rd :=
      jobReadEnd_loaded hj hread hcan (foundDamage_none he (.inl hs)) he hs.1 hs.2.1
    refine ⟨fun hcan hs => hexec (jobReadEnd_cancelled hj hread hcan (foundDamage_none he hs)), fun hcan =>
      ⟨fun hs hnone => hexec ((hloaded hcan hs).trans ?_), fun hs hsome => hexec ((hloaded hcan hs).trans ?_),
        fun p hp hpa => hexec (jobReadEnd_moved hj hread hcan (foundDamage_none he (.inr ?_)) he hp hpa),
        fun hrole ha hdepth hunsound hrepair hdef hothers => ?_⟩⟩
    · exact jobLoaded_free hnone
    · exact jobLoaded_owed hsome
    · rw [hp]
      exact fun h => hpa (Option.some.inj h)
    · have hbad : idle.foundDamage s.env j.page a rd = true := by
        have he' : idle.entry j.page = some e := he
        have hdepth' : decide (1 ≤ e.ownDepth s.env) = true := decide_eq_true hdepth
        have hunsound' : rd.unsound (e.ownDepth s.env) e.copyEnd = true := hunsound
        simp only [Ctl.foundDamage, he', ha, decide_true, hdepth', hunsound', Bool.and_self]
      have hend := jobReadEnd_damaged (c := idle) hj hread hcan hbad hrepair
      obtain ⟨hport, hdir, hjobs, htx⟩ := damaged_job_fields (c := idle) (k := s.env) he ha hrole hdef hj hread hcan hothers
      have hcalm : Calm false idle (idle.jobReadEnd s.env slot a (some rd)) := Ctl.jobReadEnd_calm (.refl idle) _ _ _ _
      rw [hend] at hcalm
      exact ⟨_, hexec hend, hcalm.still rfl, hport, hdir, hjobs, htx⟩

end Sys2Proof.Machine
end

