-- ==== Sys2Proof/Proofs/PortReadEnd.lean ====
section
/-!
PROOFS. The reads of the port: what a completed read is for, and the end of a READ.
-/

namespace Sys2Proof.Machine

/-! ## What a completed read is for -/

section Roles

variable {c : Ctl} {pb : Fin 2} {id : PageId} {held slot : Nat}

theorem portRole_read (hp : c.pair.get pb = .loading id held) (ha : c.port.act = .readWait pb slot) :
    c.portRole pb = .read slot := by
  simp only [Ctl.portRole, hp, ha, if_true]

theorem portRole_prefetch (hp : c.pair.get pb = .loading id held) (hr : ∀ slot, c.port.act ≠ .readWait pb slot)
    (hs : c.port.act ≠ .scanWait pb) : c.portRole pb = .prefetch := by
  cases ha : c.port.act with
  | readWait b slot =>
    have hne : b ≠ pb := by
      rintro rfl
      exact hr slot ha
    simp only [Ctl.portRole, hp, ha, hne, if_false]
  | scanWait b =>
    have hne : b ≠ pb := by
      rintro rfl
      exact hs ha
    simp only [Ctl.portRole, hp, ha, hne, if_false]
  | _ => simp only [Ctl.portRole, hp, ha]

theorem portRole_abandoned (hp : c.pair.get pb = .abandoned id held) : c.portRole pb = .abandoned := by
  simp only [Ctl.portRole, hp]

theorem pairHeld_loading (hp : c.pair.get pb = .loading id held) : c.pairHeld pb = held := by
  simp only [Ctl.pairHeld, hp]

theorem portEnd_read (hp : c.pair.get pb = .loading id held) (ha : c.port.act = .readWait pb slot) (k : Env) (a : PageAddr)
    (r : Option PageRead) : c.portEnd k (.port pb id) a r = c.portReadEnd k pb id held slot a r := by
  simp only [Ctl.portEnd, Requester.portBuf, portRole_read hp ha, pairHeld_loading hp]

theorem portEnd_prefetch (hp : c.pair.get pb = .loading id held) (hr : ∀ slot, c.port.act ≠ .readWait pb slot)
    (hs : c.port.act ≠ .scanWait pb) (k : Env) (a : PageAddr) (r : Option PageRead) :
    c.portEnd k (.port pb id) a r = c.prefetchEnd k pb id held a r := by
  simp only [Ctl.portEnd, Requester.portBuf, portRole_prefetch hp hr hs, pairHeld_loading hp]

theorem portEnd_abandoned (hp : c.pair.get pb = .abandoned id held) (k : Env) (a : PageAddr) (r : Option PageRead) :
    c.portEnd k (.port pb id) a r = c.abandonedEnd k pb id a r := by
  simp only [Ctl.portEnd, Requester.portBuf, portRole_abandoned hp]

theorem takeCompleted_some {c1 : Ctl} {u : UnitNo} {p : Requester → Bool} {y : Completion}
    (h : c.takeCompleted u p = some (y, c1)) : c1 = { c with completed := c.completed.erase y } := by
  unfold Ctl.takeCompleted at h
  split at h
  · exact absurd h nofun
  · obtain ⟨rfl, rfl⟩ := Prod.mk.inj (Option.some.inj h)
    rfl

end Roles

/-- A page read that completed NOT-HELD at its grant: the controller is told of no read. -/
theorem exec_pageReadNotHeld {s : State} {u : UnitNo} {kind : Requester → Bool} {r : ReadReport}
    {f : Ctl → Env → Requester → PageAddr → Option PageRead → Ctl} {y : Completion} {c1 c : Ctl}
    (hlow : s.env.rstLow = false) (hc : s.ctl.takeCompleted u kind = some (y, c1))
    (h : f { s.ctl with completed := s.ctl.completed.erase y } s.env y.req.who y.req.pageOf none = c) :
    Host.Outcome.next (φ := Fault) (ρ := Refusal) (s.pageReadDone u kind r f) = .next { s with ctl := c } := by
  rw [next_pageReadDone_notHeld hlow hc, takeCompleted_some hc, h]

/-! ## The end of a READ -/

section ReadEnd

variable {c : Ctl} {k : Env} {pb : Fin 2} {id : PageId} {held slot : Nat} {a : PageAddr} {r : PageRead}

theorem portReadEnd_damaged (hd : c.portDamage k id a held r = true) :
    c.portReadEnd k pb id held slot a (some r) = ((c.setPair pb .empty).damage k id a).endCommand .damaged [] := by
  simp only [Ctl.portReadEnd, hd, if_true]

theorem portReadEnd_notHeld (hd : c.portDamage k id a held r = false) (hslot : imageEnd r.image held ≤ slot) :
    c.portReadEnd k pb id held slot a (some r) = (c.setPair pb .empty).endCommand .notHeld [] := by
  have hend : heldEnd r.image held ≤ slot := hslot
  simp only [Ctl.portReadEnd, hd, Bool.false_eq_true, if_false, hend, if_true]

theorem portReadEnd_notRecord (hd : c.portDamage k id a held r = false) (hslot : slot < imageEnd r.image held)
    (hstart : recordStart r.image held slot = false) :
    c.portReadEnd k pb id held slot a (some r) = (c.setPair pb .empty).endCommand .notRecord [] := by
  have hend : ¬ heldEnd r.image held ≤ slot := Nat.not_le.2 hslot
  simp only [Ctl.portReadEnd, hd, Bool.false_eq_true, if_false, hend, hstart, Bool.not_false, if_true]

theorem portReadEnd_ok (hd : c.portDamage k id a held r = false) (hslot : slot < imageEnd r.image held)
    (hstart : recordStart r.image held slot = true) :
    c.portReadEnd k pb id held slot a (some r) =
      ((c.setPair pb (.loaded id held r.image r.highest)).endCommand .ok (readFields r.image slot r.highest)).onPort
        (fun p => { p with payload := payloadOf pb r.image slot }) := by
  have hend : ¬ heldEnd r.image held ≤ slot := Nat.not_le.2 hslot
  simp only [Ctl.portReadEnd, hd, Bool.false_eq_true, if_false, hend, hstart, Bool.not_true]

/-- Damage leaves what the own engines do not work on, and a port that waits for none of them. -/
theorem damage_keeps (c : Ctl) (k : Env) (id : PageId) (a : PageAddr) :
    (c.damage k id a).still = c.still ∧ (c.port.act.quiet = true → (c.damage k id a).port = c.port) :=
  ⟨(Ctl.damage_calm (w := false) (.refl c) k id a).still rfl, (Ctl.damage_calm (.refl c) k id a).port rfl⟩

end ReadEnd

/-- Settles O33: the ends of a READ, case by case. -/
theorem portReadDone : Obligations.PortReadDone := by
  intro s u r pb id held slot hlow hpair hact kind ends pair
  refine ⟨fun y c1 hc hwho => ?notHeld, ?done⟩
  case notHeld =>
    refine exec_pageReadNotHeld hlow hc ?_
    rw [hwho]
    exact portEnd_read (c := { s.ctl with completed := s.ctl.completed.erase y }) hpair hact _ _ _
  case done =>
    intro b a hc hb hwho hop rd damaged answers idle h
    have hkind : kind b.req.who = true := by
      rw [hwho]
      show PortRole.isRead (s.ctl.portRole pb) = true
      rw [portRole_read hpair hact]
      rfl
    have hexec {d : Ctl} (hd : idle.portReadEnd s.env pb id held slot a (some rd) = d) : answers d := by
      refine exec_pageReadDone hlow hc hb hkind hop ?_
      rw [hwho]
      exact (portEnd_read (c := idle) hpair hact _ _ _).trans hd
    have hdam : idle.portDamage s.env id a held rd = damaged := portDamage_eq idle s.env id a held rd
    refine ⟨fun hd => ⟨fun hslot => ?_, fun hslot hstart => ?_, fun hslot hstart => ?_⟩, fun hd => ?_⟩
    · exact hexec (portReadEnd_notHeld (hdam.trans hd) hslot)
    · exact hexec (portReadEnd_notRecord (hdam.trans hd) hslot hstart)
    · exact hexec (portReadEnd_ok (hdam.trans hd) hslot hstart)
    · obtain ⟨hstill, hport⟩ := damage_keeps (idle.setPair pb .empty) s.env id a
      have hport := hport (by
        show s.ctl.port.act.quiet = true
        rw [hact]
        rfl)
      refine ⟨_, hexec (portReadEnd_damaged (hdam.trans hd)), hstill, ?_, fun e he ha hrole hdepth hdef => ?_⟩
      · exact congrArg (fun p : Port => { p with
          act := .idle
          result := [ResultCode.damaged.byte]
          resultPos := 0
          lastResult := ResultCode.damaged.byte }) hport
      · exact damage_replica_entry (c := idle.setPair pb .empty) he ha hrole hdef

end Sys2Proof.Machine
end

