-- ==== Sys2Proof/Proofs/PortScanReads.lean ====
section
/-!
PROOFS. The ends of a prefetch read, and of a read into an ABANDONED buffer.
-/

namespace Sys2Proof.Machine

/-! ## SCAN NEXT that waits -/

section Settle

variable {c : Ctl} {k : Env} {sc : Scan} {id : PageId} {held n : Nat} {m : Memory}

theorem settleNext_loading (hs : c.scan = some sc) (hp : c.pair.get sc.current = .loading id held) :
    c.settleNext k = c.setAct .scanNextWait := by
  simp only [Ctl.settleNext, hs, hp]

theorem settleNext_ended (hs : c.scan = some sc) (hp : c.pair.get sc.current = .ended) :
    c.settleNext k = ({ c with scan := none } : Ctl).endCommand .ended [] := by
  simp only [Ctl.settleNext, hs, hp]

theorem settleNext_damaged (hs : c.scan = some sc) (hp : c.pair.get sc.current = .damaged id) :
    c.settleNext k = ((c.setPair sc.current .empty).endCommand .damaged (locator id 0)).prefetch k := by
  simp only [Ctl.settleNext, hs, hp]

theorem settleNext_loaded (hs : c.scan = some sc) (hp : c.pair.get sc.current = .loaded id held m n) :
    c.settleNext k = ((c.onScan (fun s => { s with position := some 0 })).prefetch k).deliver 0 := by
  simp only [Ctl.settleNext, hs, hp]

theorem deliver_loaded (hs : c.scan = some sc) (hp : c.pair.get sc.current = .loaded id held m n) (slot : Nat) :
    c.deliver slot = { c with
      scan := some { sc with position := nextStart m held slot }
      port := { c.port with
        act := .idle
        result := ResultCode.ok.byte :: (locator id slot ++ readFields m slot n)
        resultPos := 0
        lastResult := ResultCode.ok.byte
        payload := payloadOf sc.current m slot } } := by
  simp only [Ctl.deliver, hs, hp, Ctl.onScan, Option.map_some]
  rfl

/-- A LOADED buffer that a SCAN NEXT waits for: its record at slot 0 is delivered, and the prefetch goes on (R169). -/
theorem settleNext_delivers (hs : c.scan = some sc) (hp : c.pair.get sc.current = .loaded id held m n) :
    ∃ us pr cursor, c.settleNext k = { c with
      units := us
      pair := pr
      scan := some { sc with position := nextStart m held 0, cursor := cursor }
      port := { c.port with
        act := .idle
        result := ResultCode.ok.byte :: (locator id 0 ++ readFields m 0 n)
        resultPos := 0
        lastResult := ResultCode.ok.byte
        payload := payloadOf sc.current m 0 } } ∧
      pr.get sc.current = .loaded id held m n ∧ ∀ u, (us.get u).busy = (c.units.get u).busy := by
  obtain ⟨d, hd⟩ : ∃ d, d = c.onScan (fun s => { s with position := some 0 }) := ⟨_, rfl⟩
  have hds : d.scan = some { sc with position := some 0 } := by
    rw [hd, Ctl.onScan, hs]
    rfl
  obtain ⟨us, pr, sc', hpre, hscan, hpair⟩ := prefetch_shape d k
  obtain ⟨cursor, rfl⟩ := hscan _ hds
  have hprs : pr.get sc.current = .loaded id held m n := by
    rw [hpair _ hds, hd]
    exact hp
  have hbusy := (Ctl.prefetch_calm (.refl d) k).busy
  rw [hpre] at hbusy
  refine ⟨us, pr, cursor, ?_, hprs, fun u => ?_⟩
  · rw [settleNext_loaded hs hp, ← hd, hpre, deliver_loaded (c := { d with
      units := us
      pair := pr
      scan := some { sc with position := some 0, cursor := cursor } }) rfl hprs, hd]
    rfl
  · rw [hbusy, hd]
    rfl

/-- A DAMAGED buffer that a SCAN NEXT waits for: it is given up, and the prefetch goes on (R169). -/
theorem settleNext_givesUp (hs : c.scan = some sc) (hp : c.pair.get sc.current = .damaged id) :
    ∃ us pr cursor, c.settleNext k = { c with
      units := us
      pair := pr
      scan := some { sc with cursor := cursor }
      port := { c.port with
        act := .idle
        result := ResultCode.damaged.byte :: locator id 0
        resultPos := 0
        lastResult := ResultCode.damaged.byte } } ∧ pr.get sc.current = .empty := by
  obtain ⟨d, hd⟩ : ∃ d, d = (c.setPair sc.current .empty).endCommand .damaged (locator id 0) := ⟨_, rfl⟩
  have hds : d.scan = some sc := by rw [hd]; exact hs
  obtain ⟨us, pr, sc', hpre, hscan, hpair⟩ := prefetch_shape d k
  obtain ⟨cursor, rfl⟩ := hscan _ hds
  refine ⟨us, pr, cursor, ?_, ?_⟩
  · rw [settleNext_damaged hs hp, ← hd, hpre, hd]
    rfl
  · rw [hpair _ hds, hd]
    exact vput_get_same _ _ _

end Settle

/-! ## The end of a prefetch read -/

section Prefetch

variable {c d : Ctl} {k : Env} {pb : Fin 2} {sc : Scan} {id : PageId} {held : Nat} {a : PageAddr} {r : PageRead} {e : Entry}

/-- With its buffer set, a prefetch read is over; a SCAN NEXT that waits goes on (R169). -/
theorem prefetchEnd_read (hd : d = if c.portDamage k id a held r then (c.setPair pb (.damaged id)).damage k id a
      else c.setPair pb (.loaded id held r.image r.highest)) :
    (d.port.act ≠ .scanNextWait → c.prefetchEnd k pb id held a (some r) = d) ∧
    (d.port.act = .scanNextWait → c.prefetchEnd k pb id held a (some r) = d.settleNext k) := by
  refine ⟨fun hact => ?_, fun hact => ?_⟩
  · simp only [Ctl.prefetchEnd, ← hd]
  · simp only [Ctl.prefetchEnd, ← hd, hact]

theorem prefetchEnd_walked (hd : (c.setPair pb .empty).walkScan k pb = some d) :
    (d.port.act ≠ .scanNextWait → c.prefetchEnd k pb id held a none = d) ∧
    (d.port.act = .scanNextWait → c.prefetchEnd k pb id held a none = d.settleNext k) := by
  refine ⟨fun hact => ?_, fun hact => ?_⟩
  · simp only [Ctl.prefetchEnd, hd]
  · simp only [Ctl.prefetchEnd, hd, hact]

theorem prefetchEnd_atEnd (hd : (c.setPair pb .empty).walkScan k pb = none) :
    (c.port.act ≠ .scanNextWait → c.prefetchEnd k pb id held a none = c.setPair pb .ended) ∧
    (c.port.act = .scanNextWait → c.prefetchEnd k pb id held a none = (c.setPair pb .ended).settleNext k) := by
  have hport : (c.setPair pb .ended).port.act = c.port.act := rfl
  refine ⟨fun hact => ?_, fun hact => ?_⟩
  · simp only [Ctl.prefetchEnd, hd, hport]
  · simp only [Ctl.prefetchEnd, hd, hport, hact]

/-- The walk takes the next page held, and requests its read into the buffer (R168). -/
theorem walkScan_some (hs : c.scan = some sc) (hnext : c.nextHeld k sc = some e) (ha : e.localPage = some a) :
    (c.setPair pb .empty).walkScan k pb =
      some (Ctl.enter
        { c with
          scan := some { sc with cursor := e.id.key + 1 }
          pair := vput c.pair pb (.loading e.id (e.ownDepth k)) }
        { who := .port pb e.id, op := .pageRead a, emergency := false }) := by
  have hs' : (c.setPair pb .empty).scan = some sc := hs
  have hnext' : (c.setPair pb .empty).nextHeld k sc = some e := hnext
  simp only [Ctl.walkScan, hs', hnext', loadPair_eq _ _ _ _ ha, Ctl.onScan, Option.map_some]
  simp only [Ctl.setPair, vput_vput]

theorem walkScan_none (hs : c.scan = some sc) (hnext : c.nextHeld k sc = none) :
    (c.setPair pb .empty).walkScan k pb = none := by
  have hs' : (c.setPair pb .empty).scan = some sc := hs
  have hnext' : (c.setPair pb .empty).nextHeld k sc = none := hnext
  simp only [Ctl.walkScan, hs', hnext']

theorem setAct_same {x : Activity} (h : c.port.act = x) : c.setAct x = c := by
  subst h
  rfl

end Prefetch

/-! ## The end of a read into an ABANDONED buffer -/

section Abandoned

variable {c d : Ctl} {k : Env} {pb : Fin 2} {id w : PageId} {slot : Nat} {a : PageAddr} {r : PageRead} {e : Entry}

/-- The buffer is EMPTY, damage is reported, and what waited for a buffer goes on (R166). -/
theorem abandonedEnd_cases (hd : d = if (c.setPair pb .empty).foundDamage k id a r then (c.setPair pb .empty).damage k id a
      else c.setPair pb .empty) :
    (d.port.act = .resetWait → c.abandonedEnd k pb id a (some r) = d.setAct .idle) ∧
    (d.port.act = .idle → c.abandonedEnd k pb id a (some r) = d.prefetch k) ∧
    (d.port.act = .readBufWait w slot → c.abandonedEnd k pb id a (some r) = d.startRead k pb w slot) := by
  refine ⟨fun hact => ?_, fun hact => ?_, fun hact => ?_⟩
  all_goals simp only [Ctl.abandonedEnd, Option.any_some, ← hd, hact]

theorem prefetch_noScan (h : c.scan = none) : c.prefetch k = c := by
  simp only [Ctl.prefetch, h]

theorem startRead_notHeld (h : ∀ e, c.entry w = some e → e.localPage = none ∨ e.ownDepth k = 0) :
    c.startRead k pb w slot = c.endCommand .notHeld [] := by
  unfold Ctl.startRead
  split
  · rfl
  · rename_i e he
    refine if_neg fun hread => ?_
    rw [Entry.readable, Bool.and_eq_true, decide_eq_true_eq] at hread
    rcases h e he with hnone | hzero
    · rw [hnone] at hread
      exact absurd hread.1 nofun
    · omega

theorem startRead_held {p : PageAddr} (he : c.entry w = some e) (hp : e.localPage = some p) (hdepth : 1 ≤ e.ownDepth k) :
    c.startRead k pb w slot =
      Ctl.enter ((c.setAct (.readWait pb slot)).setPair pb (.loading e.id (e.ownDepth k)))
        { who := .port pb e.id, op := .pageRead p, emergency := false } := by
  have hread : e.readable k = true := by
    rw [Entry.readable, hp, decide_eq_true hdepth]
    rfl
  simp only [Ctl.startRead, he, hread, if_true]
  exact loadPair_eq _ _ _ _ hp

theorem foundDamage_false (h : ∀ e, c.entry id = some e → e.localPage = some a ∧ 1 ≤ e.ownDepth k →
    r.unsound (e.ownDepth k) e.copyEnd = false) : c.foundDamage k id a r = false := by
  cases he : c.entry id with
  | none => simp only [Ctl.foundDamage, he]
  | some e =>
    simp only [Ctl.foundDamage, he]
    by_cases hn : e.localPage = some a ∧ 1 ≤ e.ownDepth k
    · rw [h e he hn, Bool.and_false]
    · rw [← Bool.decide_and, decide_eq_false hn, Bool.false_and]

end Abandoned

/-- Settles O35: prefetch reads by `prefetchEnd_read` and what a SCAN NEXT does with them, abandoned ones by
`abandonedEnd_cases`. -/
theorem prefetchAbandonedReadDone : Obligations.PrefetchAbandonedReadDone := by
  intro s u r pb id held hlow prefetches abandons ends pair prefetching
  refine ⟨?notHeld, ?read⟩
  case notHeld =>
    intro y c1 sc hpre hc hwho hsc hcur found rest answers
    obtain ⟨hpair, hnoread, hnoscan⟩ := hpre
    have hexec {d : Ctl} (hd : rest.prefetchEnd s.env pb id held y.req.pageOf none = d) : answers d := by
      refine exec_pageReadNotHeld hlow hc ?_
      rw [hwho]
      exact (portEnd_prefetch (c := rest) hpair hnoread hnoscan _ _ _).trans hd
    have hrsc : rest.scan = some sc := hsc
    refine ⟨fun e a hf ha => ?_, fun hf hact => ?_, fun hf hact => ?_⟩
    · have hwalk := walkScan_some (c := rest) (k := s.env) (pb := pb) hrsc hf ha
      obtain ⟨hquiet, hwaits⟩ := prefetchEnd_walked (id := id) (held := held) (a := y.req.pageOf) hwalk
      by_cases hact : s.ctl.port.act = .scanNextWait
      · refine hexec ((hwaits hact).trans ((settleNext_loading (id := e.id) (held := e.ownDepth s.env) rfl ?_).trans (setAct_same hact)))
        show (vput s.ctl.pair pb _).get sc.current = _
        rw [hcur hact, vput_get_same]
      · exact hexec (hquiet hact)
    · exact hexec ((prefetchEnd_atEnd (walkScan_none (c := rest) hrsc hf)).1 hact)
    · refine hexec (((prefetchEnd_atEnd (walkScan_none (c := rest) hrsc hf)).2 hact).trans ?_)
      refine settleNext_ended (c := rest.setPair pb .ended) hrsc ?_
      show (vput s.ctl.pair pb _).get sc.current = _
      rw [hcur hact, vput_get_same]
  case read =>
    intro b a hb hwho hop rd idle next named dropped
    have hdropped {x : PairBuf} {c : Ctl} (hdir : c.dir = ((idle.setPair pb x).damage s.env id a).dir) : dropped c :=
      fun e he hn hrole hdef => (Ctl.entry_congr hdir id).trans
        (damage_replica_entry (c := idle.setPair pb x) he hn.1 hrole hdef)
    refine ⟨fun hpre hc => ?prefetch, fun hpair hc => ?abandoned⟩
    case prefetch =>
      intro answers damaged
      obtain ⟨hpair, hnoread, hnoscan⟩ := hpre
      have hkind : prefetches b.req.who = true := by
        rw [hwho]
        show decide (s.ctl.portRole pb = .prefetch) = true
        rw [portRole_prefetch hpair hnoread hnoscan]
        rfl
      have hexec {d : Ctl} (hd : idle.prefetchEnd s.env pb id held a (some rd) = d) : answers d := by
        refine exec_pageReadDone hlow hc hb hkind hop ?_
        rw [hwho]
        exact (portEnd_prefetch (c := idle) hpair hnoread hnoscan _ _ _).trans hd
      have hdam : idle.portDamage s.env id a held rd = damaged := portDamage_eq idle s.env id a held rd
      refine ⟨fun hd => ?sound, fun hd => ?damaged⟩
      case sound =>
        obtain ⟨hquiet, hwaits⟩ := prefetchEnd_read (c := idle) (pb := pb) (id := id) (k := s.env) (held := held) (a := a)
          (r := rd) (d := idle.setPair pb (.loaded id held rd.image rd.highest))
          (by rw [hdam.trans hd, if_neg Bool.false_ne_true])
        refine ⟨fun hact => hexec (hquiet hact), ?_⟩
        intro sc hact hsc hcur h
        obtain ⟨us, pr, cursor, heq, hpr, hbusy⟩ := settleNext_delivers (k := s.env)
          (c := idle.setPair pb (.loaded id held rd.image rd.highest)) (sc := sc) hsc
          (by rw [hcur]; exact vput_get_same _ _ _)
        rw [hcur] at hpr
        refine ⟨us, pr, cursor, hexec ((hwaits hact).trans (heq.trans ?_)), ?_, hpr⟩
        · rw [hcur]
          rfl
        · exact (hbusy u).trans (congrArg UnitState.busy (vput_get_same _ _ _))
      case damaged =>
        obtain ⟨hstill, hport⟩ := damage_keeps (idle.setPair pb (.damaged id)) s.env id a
        have hread := prefetchEnd_read (c := idle) (pb := pb) (id := id) (k := s.env) (held := held) (a := a) (r := rd)
          (d := (idle.setPair pb (.damaged id)).damage s.env id a) (by rw [hdam.trans hd, if_pos rfl])
        have hdir := hdropped (x := .damaged id) (c := (idle.setPair pb (.damaged id)).damage s.env id a) rfl
        have hdropped' {c : Ctl} (h : c.dir = ((idle.setPair pb (.damaged id)).damage s.env id a).dir) : dropped c := hdropped h
        generalize (idle.setPair pb (.damaged id)).damage s.env id a = d at hstill hport hread hdir hdropped'
        refine ⟨fun hact => ?_, fun sc hact hsc hcur => ?_⟩
        · have hport : d.port = s.ctl.port := hport (by
            show s.ctl.port.act.quiet = true
            rcases hact with h | ⟨cmd, args, h⟩ <;> rw [h] <;> rfl)
          refine ⟨d, hexec (hread.1 ?_), hstill, hdir, hport⟩
          rw [hport]
          rcases hact with h | ⟨cmd, args, h⟩ <;> rw [h] <;> exact nofun
        · have hport : d.port = s.ctl.port := hport (by
            show s.ctl.port.act.quiet = true
            rw [hact]
            rfl)
          obtain ⟨hstation, -, -, -, -, -, -, hmark, -, -, hpeers, -, hdpair, hdscan, -⟩ := Ctl.still_eq hstill
          obtain ⟨us, pr, cursor, heq, hpr⟩ := settleNext_givesUp (c := d) (k := s.env) (id := id) (sc := sc)
            (hdscan.trans hsc) (by rw [hdpair, hcur]; exact vput_get_same _ _ _)
          refine ⟨_, cursor, hexec ((hread.2 (by rw [hport]; exact hact)).trans heq), ?_, hcur ▸ hpr, hdropped' rfl, rfl,
            hmark, hpeers, hstation⟩
          rw [hport]
    case abandoned =>
      intro answers
      have hkind : abandons b.req.who = true := by
        rw [hwho]
        show decide (s.ctl.portRole pb = .abandoned) = true
        rw [portRole_abandoned hpair]
        rfl
      have hexec {d : Ctl} (hd : idle.abandonedEnd s.env pb id a (some rd) = d) : answers d := by
        refine exec_pageReadDone hlow hc hb hkind hop ?_
        rw [hwho]
        exact (portEnd_abandoned (c := idle) hpair _ _ _).trans hd
      refine ⟨fun hsound => ?_, fun e he hn hunsound hwait => ?_⟩
      · have hfound : (idle.setPair pb .empty).foundDamage s.env id a rd = false := foundDamage_false hsound
        have hcases (w : PageId) (slot : Nat) := abandonedEnd_cases (c := idle) (pb := pb) (id := id) (k := s.env) (a := a)
          (r := rd) (w := w) (slot := slot) (d := idle.setPair pb .empty) (by rw [hfound, if_neg Bool.false_ne_true])
        refine ⟨fun hact => hexec ((hcases id 0).1 hact), fun hact hscan => ?_, fun w slot hact => ⟨fun hnone => ?_,
          fun e p he hp hdepth => ?_⟩⟩
        · exact hexec (((hcases id 0).2.1 hact).trans (prefetch_noScan (c := idle.setPair pb .empty) hscan))
        · exact hexec (((hcases w slot).2.2 hact).trans (startRead_notHeld (c := idle.setPair pb .empty) hnone))
        · refine hexec (((hcases w slot).2.2 hact).trans
            ((startRead_held (c := idle.setPair pb .empty) he hp hdepth).trans ?_))
          simp only [Ctl.setPair, Ctl.setAct, Ctl.onPort, vput_vput]
          rfl
      · have hfound : (idle.setPair pb .empty).foundDamage s.env id a rd = true := by
          have he' : (idle.setPair pb .empty).entry id = some e := he
          simp only [Ctl.foundDamage, he', hn.1, decide_true, decide_eq_true hn.2, hunsound, Bool.and_self]
        obtain ⟨hstill, hport⟩ := damage_keeps (idle.setPair pb .empty) s.env id a
        have hcases := abandonedEnd_cases (c := idle) (pb := pb) (id := id) (k := s.env) (a := a) (r := rd) (w := id) (slot := 0)
          (d := (idle.setPair pb .empty).damage s.env id a) (by rw [hfound, if_pos rfl])
        have hdir {c : Ctl} (h : c.dir = ((idle.setPair pb .empty).damage s.env id a).dir) : dropped c := hdropped h
        generalize (idle.setPair pb .empty).damage s.env id a = d at hstill hport hcases hdir
        have hport : d.port = s.ctl.port := hport (by
          show s.ctl.port.act.quiet = true
          rcases hwait with h | ⟨h, -⟩ <;> rw [h] <;> rfl)
        obtain ⟨-, -, -, -, -, -, -, -, -, -, -, -, -, hdscan, -⟩ := Ctl.still_eq hstill
        rcases hwait with hact | ⟨hact, hscan⟩
        · refine ⟨_, hexec (hcases.1 (by rw [hport]; exact hact)), hstill, hdir rfl, ?_⟩
          rw [← hport]
          rfl
        · refine ⟨_, hexec ((hcases.2.1 (by rw [hport]; exact hact)).trans (prefetch_noScan (hdscan.trans hscan))), hstill,
            hdir rfl, ?_⟩
          rw [hport, ← hact]


end Sys2Proof.Machine
end

