-- ==== Sys2Proof/Proofs/OwnFlush.lean ====
section
/-!
PROOFS. FLUSH and the data phase of APPEND: what the forming of an extent leaves, and the end of the record.
-/

namespace Sys2Proof.Machine

/-! ## An extent is formed -/

section Forms

variable {c : Ctl} {k : Env} {b : Fin 2} {p p₀ : FillPage}

/-- The forming of an extent, as the statements say it, outside an emergency flush. -/
theorem formExtent_forms (hf : c.fillOf p.seq = some (b, p₀)) (hlt : p.formed < p.used) (hst : c.station ≠ .leaving)
    (noFit : Bool) : c.formsExtent ((c.formExtent k b p noFit).sweep k) k b p noFit false := by
  refine Ctl.formsExtent_of hlt rfl rfl rfl rfl (by rw [decide_eq_false hst, Bool.false_and]) (Ctl.sweep_dir _ _)
    (Ctl.sweep_et _ _) (fun u => (sweep_calm_self _ k).queue rfl u) (fun q x hq hx h => Ctl.sweep_fill_kept hq hx h)
    (fun e a he ha hr hp => ?_)
  obtain ⟨hformed, hentry⟩ := Ctl.formExtent_spec hf he ha hr hp noFit
  exact ⟨hformed, fun _ => hentry, nofun⟩

theorem formExtent_sweep_calm (c : Ctl) (k : Env) (b : Fin 2) (p : FillPage) (noFit : Bool) :
    Calm false c ((c.formExtent k b p noFit).sweep k) :=
  Ctl.sweep_calm (Ctl.formExtent_calm (Calm.refl c) k b p noFit) k

/-- Of a page that is in no RETIRED block, the forming of an extent and the request of its program leave the port and the
receive buffers alone. -/
theorem addExtent_inPlace {e : Entry} (he : c.ownEntry k p.seq = some e)
    (hr : ∀ a, e.localPage = some a → c.inRetired a = false) (noFit : Bool) (entry : Option LocalProg) :
    ∃ l d, d = (c.addExtent k b p noFit entry).requestProgram k p.seq ∧
      (∀ prog, entry = some prog → ∃ x, l = [x] ∧ NewEntry p (p.nextExtent noFit) prog x) ∧
      d.port = c.port ∧ d.rx = c.rx ∧ d.et = c.et ++ l ∧
      d.fill = (c.setFill b (some { p with extents := p.extents ++ [p.nextExtent noFit] })).fill := by
  obtain ⟨l, -, hentry, hadd⟩ := Ctl.addExtent_eq he b noFit entry
  obtain ⟨d, hd⟩ : ∃ d, d = c.addExtent k b p noFit entry := ⟨_, rfl⟩
  obtain ⟨u, hu⟩ := Ctl.update_formed (c := { c with
    fill := vput c.fill b (some { p with extents := p.extents ++ [p.nextExtent noFit] })
    et := c.et ++ l }) (k := k) (id := ownId k p.seq) (Entry.withExtent (p.nextExtent noFit)) (fun _ => rfl) he
  have hblocks : d.blocks = c.blocks := by rw [hd, hadd, Ctl.update_blocks]
  refine ⟨l, _, rfl, hentry, ?_⟩
  rw [← hd]
  obtain hsame | ⟨f, r, -, hreq⟩ := Ctl.requestProgram_inPlace (c := d) (k := k) (seq := p.seq) (fun e' a he' ha => by
      rw [hd, hadd] at he'
      cases he'.symm.trans hu
      rw [Ctl.inRetired_congr hblocks]
      exact hr a ha)
  · rw [hsame, hd, hadd]
    exact ⟨Ctl.update_port .., Ctl.update_rx .., Ctl.update_et .., Ctl.update_fill ..⟩
  · rw [hreq, hd, hadd]
    simp only [Ctl.enter_port, Ctl.enter_rx, Ctl.enter_et, Ctl.enter_fill, Ctl.update_port, Ctl.update_rx, Ctl.update_et,
      Ctl.update_fill]
    exact ⟨trivial, trivial, trivial, rfl⟩

/-- Of a page that is in no RETIRED block, the forming of an extent leaves the port and the receive buffers alone and adds one
entry. -/
theorem formExtent_inPlace {e : Entry} (hf : c.fillOf p.seq = some (b, p₀)) (he : c.ownEntry k p.seq = some e)
    (hr : ∀ a, e.localPage = some a → c.inRetired a = false) (noFit : Bool) :
    (c.formExtent k b p noFit).port = c.port ∧ (c.formExtent k b p noFit).rx = c.rx ∧
      (c.etEntry p.seq p.extents.length = none →
        ∃ x, (c.formExtent k b p noFit).et = c.et ++ [x] ∧ NewEntry p (p.nextExtent noFit) .pending x) := by
  obtain ⟨l, d, hd, hentry, hport, hrx, het, hfill⟩ := addExtent_inPlace (b := b) he hr noFit (some .pending)
  obtain ⟨x, rfl, hx⟩ := hentry _ rfl
  have hfillOf := (Ctl.fillOf_congr hfill p.seq).trans (Ctl.fillOf_setFill hf rfl)
  obtain ⟨⟨tx, et', owed, hsend⟩, g, hg, hother, hmap⟩ := Ctl.transmitNew_fill (k := k) p.extents.length hfillOf
  have hform : c.formExtent k b p noFit = d.transmitNew k p.seq p.extents.length := by
    rw [hd]
    rfl
  refine ⟨by rw [hform, hsend]; exact hport, by rw [hform, hsend]; exact hrx, fun hn => ⟨g x, ?_, ?_⟩⟩
  · rw [hform, hmap, het, List.map_append]
    congr 1
    refine (List.map_congr_left fun y hy => hother y fun hh => ?_).trans (List.map_id _)
    have := List.find?_eq_none.1 hn y hy
    simp [hh] at this
  · obtain ⟨hseq, hext, hfirst, hcount, hprog, hset⟩ := hg x
    exact ⟨hseq.trans hx.seq, hext.trans hx.ext, hfirst.trans hx.first, hcount.trans hx.count, hprog.trans hx.prog,
      hset.trans hx.settled⟩

end Forms

/-! ## FLUSH -/

section DoFlush

variable {c : Ctl} {k : Env} {b : Fin 2} {p : FillPage}

theorem unflushed_iff (p : FillPage) : p.unflushed = true ↔ p.formed < p.used := decide_eq_true_iff

theorem doFlush_nothing (hst : c.station = .active)
    (h : c.openPage k = none ∨ ∃ b p, c.openPage k = some (b, p) ∧ p.used ≤ p.formed) :
    c.doFlush k = c.endCommand .nothing [] := by
  unfold Ctl.doFlush
  rw [if_neg (not_not_intro hst)]
  obtain hnone | ⟨b, p, hsome, hle⟩ := h
  · rw [hnone]
  · have hun : p.unflushed = false := decide_eq_false (Nat.not_lt.2 hle)
    simp only [hsome, hun, Bool.not_false, if_true]

theorem doFlush_full (hst : c.station = .active) (ho : c.openPage k = some (b, p)) (hlt : p.formed < p.used)
    (hfull : 16 ≤ c.et.length) : c.doFlush k = c.endCommand .tableFull [] := by
  unfold Ctl.doFlush
  rw [if_neg (not_not_intro hst), ho]
  simp only [(unflushed_iff p).2 hlt, Bool.not_true, Bool.false_eq_true, if_false, if_pos hfull]

theorem doFlush_forms (hst : c.station = .active) (ho : c.openPage k = some (b, p)) (hlt : p.formed < p.used)
    (hroom : c.et.length < 16) :
    c.doFlush k = ((c.setAct (.flushWait p.seq p.extents.length)).formExtent k b p false).sweep k := by
  unfold Ctl.doFlush
  rw [if_neg (not_not_intro hst), ho]
  simp only [(unflushed_iff p).2 hlt, Bool.not_true, Bool.false_eq_true, if_false, if_neg (Nat.not_le.2 hroom)]

end DoFlush

/-- Settles O16: the branches of FLUSH, and the forming of the open page's extent. -/
theorem flush : Obligations.Flush := by
  intro s hlow hst hidle
  have htake : s.ctl.commandWrite s.env (fun c => c.takeCommand.doFlush s.env) = s.ctl.takeCommand.doFlush s.env :=
    Ctl.commandWrite_idle hidle _ _
  refine ⟨fun h => next_onCtl_eq hlow (htake.trans (doFlush_nothing (c := s.ctl.takeCommand) hst h)), ?_⟩
  intro b p ho hlt
  refine ⟨fun hfull => next_onCtl_eq hlow (htake.trans (doFlush_full (c := s.ctl.takeCommand) hst ho hlt hfull)), ?_⟩
  intro hroom hnone hr
  obtain ⟨d, hd⟩ : ∃ d, d = s.ctl.takeCommand.setAct (.flushWait p.seq p.extents.length) := ⟨_, rfl⟩
  obtain ⟨-, e, he, -⟩ := Ctl.openPage_spec ho
  have hfill : d.fillOf p.seq = some (b, p) := by
    rw [hd]
    exact Ctl.fillOf_openPage ho
  obtain ⟨hport, -, hentry⟩ := formExtent_inPlace (c := d) (e := e) hfill (by rw [hd]; exact he)
    (fun a ha => by rw [hd]; exact hr e a he ha) false
  obtain ⟨x, hx, hnew⟩ := hentry (by rw [hd]; exact hnone)
  refine ⟨(d.formExtent s.env b p false).sweep s.env, x, ?_, ?_, ?_, ?_, hnew.seq, hnew.ext, hnew.first, hnew.count, hnew.prog,
    hnew.settled, ?_⟩
  · refine next_onCtl_eq hlow (htake.trans ?_)
    rw [doFlush_forms (c := s.ctl.takeCommand) hst ho hlt hroom, hd]
  · refine ((formExtent_sweep_calm d s.env b p false).still rfl).trans ?_
    rw [hd]
    rfl
  · rw [Ctl.sweep_port, hport, hd]
    rfl
  · rw [Ctl.sweep_et, hx, hd]
    rfl
  · refine Ctl.formsExtent_congr (formExtent_forms (c := d) hfill hlt ?_ false) ?_ ?_ ?_ rfl rfl rfl rfl rfl rfl
    all_goals rw [hd]
    · exact fun h => StationState.noConfusion (hst.symm.trans h)
    all_goals rfl

end Sys2Proof.Machine
end

