-- ==== Sys2Proof/Proofs/AppendData.lean ====
section
/-!
PROOFS. The data phase of APPEND: its payload bytes, the record placed, and what a command byte makes of it.
-/

namespace Sys2Proof.Machine

section DataPhase

variable {c : Ctl} {k : Env} {a : AppendCmd} {got : Nat} {b : Fin 2} {p : FillPage} {d : Byte}

/-- A payload byte with no APPEND in its data phase. -/
theorem payloadByte_other (h : ∀ a got, c.port.act ≠ .appendData a got) : c.payloadByte k d = c.setOverrun := by
  unfold Ctl.payloadByte
  split
  · rename_i hact _
    exact absurd hact (h _ _)
  · rfl

/-- The page with the payload byte written. -/
def FillPage.withByte (p : FillPage) (got : Nat) (d : Byte) : FillPage :=
  { p with bytes := Memory.write clearByte p.bytes (p.used * 512 + 12 + got) [d] }

theorem payloadByte_write (hact : c.port.act = .appendData a got) (ho : c.openPage k = some (b, p))
    (h : got + 1 ≠ a.length) :
    c.payloadByte k d = { c with
      fill := vput c.fill b (some { p with bytes := Memory.write clearByte p.bytes (p.used * 512 + 12 + got) [d] })
      port := { c.port with act := .appendData a (got + 1) } } := by
  simp only [Ctl.payloadByte, hact, ho, if_neg h]
  rfl

theorem payloadByte_last (hact : c.port.act = .appendData a got) (ho : c.openPage k = some (b, p))
    (h : got + 1 = a.length) : c.payloadByte k d = c.placeRecord k b (p.withByte got d) a := by
  simp only [Ctl.payloadByte, hact, ho, if_pos h]
  rfl

/-- The 12 bytes of the header that an APPEND fixed (Table 11-1). -/
theorem AppendCmd.header_bytes (a : AppendCmd) (n : Nat) :
    (a.header n).bytes = bytes16 (halfOf a.length) ++ bytes16 a.tag ++ bytes16 a.gen ++ bytes32 a.stamp ++
      [byteOf a.slots, byteOf n] := rfl

theorem withByte_place (p : FillPage) (got : Nat) (d : Byte) (a : AppendCmd) :
    (p.withByte got d).place a = { p with
      bytes := Memory.write clearByte (Memory.write clearByte p.bytes (p.used * 512 + 12 + got) [d]) (p.used * 512)
        (bytes16 (halfOf a.length) ++ bytes16 a.tag ++ bytes16 a.gen ++ bytes32 a.stamp ++ [byteOf a.slots, byteOf p.records])
      used := p.used + a.slots
      starts := p.starts ||| (1#8 <<< p.used)
      records := p.records + 1 } := by
  simp only [FillPage.place, AppendCmd.header_bytes, FillPage.withByte]

/-- The controller with a record placed and its APPEND answered. -/
def Ctl.recordPlaced (c : Ctl) (b : Fin 2) (p : FillPage) (a : AppendCmd) : Ctl :=
  (c.setFill b (some (p.place a))).endCommand .ok (bytes32 p.seq ++ [byteOf p.used])

theorem recordPlaced_eq (c : Ctl) (b : Fin 2) (p : FillPage) (got : Nat) (d : Byte) (a : AppendCmd) :
    c.recordPlaced b (p.withByte got d) a = { c with
      fill := vput c.fill b (some ((p.withByte got d).place a))
      port := { c.port with
        act := .idle
        result := 0x00#8 :: (bytes32 p.seq ++ [byteOf p.used])
        resultPos := 0
        lastResult := 0x00#8 } } := rfl

theorem placeRecord_partial (h : p.used + a.slots ≠ 8) : c.placeRecord k b p a = c.recordPlaced b p a := if_neg h

theorem placeRecord_full (h : p.used + a.slots = 8) :
    c.placeRecord k b p a = ((c.recordPlaced b p a).formExtent k b (p.place a) false).sweep k := if_pos h

/-- The closing extent of a page just filled. -/
theorem recordPlaced_forms (ho : c.openPage k = some (b, p)) (hfull : p.used + a.slots = 8) (hlt : p.formed < 8)
    (hst : c.station ≠ .leaving) :
    c.formsExtent (((c.recordPlaced b (p.withByte got d) a).formExtent k b ((p.withByte got d).place a) false).sweep k) k b
      ((p.withByte got d).place a) false false := by
  obtain ⟨q, hq⟩ : ∃ q, q = (p.withByte got d).place a := ⟨_, rfl⟩
  have hseq : q.seq = p.seq := by rw [hq]; rfl
  have hfill : (c.recordPlaced b (p.withByte got d) a).fillOf q.seq = some (b, q) := by
    rw [hseq]
    refine (Ctl.fillOf_congr (c := c.setFill b (some q)) (by rw [hq]; rfl) p.seq).trans ?_
    exact Ctl.fillOf_setFill (Ctl.fillOf_openPage ho) hseq
  have hused : q.formed < q.used := by
    rw [show q.used = 8 by rw [hq]; exact hfull, show q.formed = p.formed by rw [hq]; rfl]
    exact hlt
  rw [← hq]
  exact Ctl.formsExtent_congr (formExtent_forms (c := c.recordPlaced b (p.withByte got d) a) hfill hused hst false)
    rfl rfl rfl rfl rfl rfl rfl rfl rfl

end DataPhase

/-- A command byte that goes on from `c`, its port idle, is as one at `c`. -/
theorem commandWrite_from {s : State} {f : Env → Ctl → Ctl} {c : Ctl} (hlow : s.env.rstLow = false)
    (h : s.ctl.commandWrite s.env (f s.env) = f s.env c) (hidle : c.port.act = .idle) :
    Host.Outcome.next (φ := Fault) (ρ := Refusal) (s.onCtl fun c k => c.commandWrite k (f k)) =
      .next (({ s with ctl := c } : State).onCtl fun c k => c.commandWrite k (f k)) :=
  (next_onCtl_eq hlow h).trans
    (next_onCtl_eq (s := { s with ctl := c }) hlow (Ctl.commandWrite_idle hidle _ _)).symm

/-- Settles O15: the payload bytes, the bytes set to 00H again, and the command byte that abandons a command. -/
theorem appendDataPhase : Obligations.AppendDataPhase := by
  refine ⟨fun s d hlow => ⟨fun h => next_onCtl_eq hlow (payloadByte_other h), ?payload⟩, fun p x hwf => ?cleared,
    fun s i hlow hi => ?abandoned⟩
  case payload =>
    intro a got b p hact ho
    refine ⟨fun h => next_onCtl_eq hlow (payloadByte_write hact ho h), fun h hpart => ?_, fun h hfull => ?_⟩
    · refine next_onCtl_eq hlow ((payloadByte_last hact ho h).trans ((placeRecord_partial (p := p.withByte got d) hpart).trans ?_))
      rw [recordPlaced_eq, withByte_place]
    · obtain ⟨r, hr⟩ : ∃ r, r = s.ctl.recordPlaced b (p.withByte got d) a := ⟨_, rfl⟩
      have hcalm := formExtent_sweep_calm r s.env b ((p.withByte got d).place a) false
      refine ⟨(r.formExtent s.env b ((p.withByte got d).place a) false).sweep s.env, ?_, ?_, ?_, fun hlt hst => ?_⟩
      · exact next_onCtl_eq hlow ((payloadByte_last hact ho h).trans
          ((placeRecord_full (p := p.withByte got d) hfull).trans (by rw [hr])))
      · exact (hcalm.still rfl).trans (by rw [hr, recordPlaced_eq]; rfl)
      · exact (hcalm.port rfl (by rw [hr, recordPlaced_eq]; rfl)).trans (by rw [hr, recordPlaced_eq])
      · rw [hr, ← withByte_place]
        exact recordPlaced_forms ho hfull hlt hst
  case cleared =>
    exact ⟨Memory.wf_below _ _ _ hwf, Memory.read_below _ _ _ _⟩
  case abandoned =>
    obtain ⟨f, hexec⟩ : ∃ f : Env → Ctl → Ctl, ∀ t, exec i t = .next (t.onCtl fun c k => c.commandWrite k (f k)) := by
      obtain rfl | rfl := hi
      · exact ⟨fun k c => c.takeCommand.doFlush k, fun _ => rfl⟩
      · exact ⟨fun k c => c.takeCommand.doScanNext k, fun _ => rfl⟩
    refine ⟨fun hbusy => (hexec s).trans (next_onCtl_eq hlow (Ctl.commandWrite_busy hbusy _ _)), ?_, ?_⟩
    · intro cmd args hcol
      rw [hexec, hexec]
      exact commandWrite_from hlow (Ctl.commandWrite_collecting hcol _ _) rfl
    · intro a got b p hact ho
      rw [hexec, hexec]
      exact commandWrite_from hlow (Ctl.commandWrite_appendData hact ho _) rfl

end Sys2Proof.Machine
end

