-- ==== Sys2Proof/Proofs/Append.lean ====
section
/-!
PROOFS. APPEND: its refusals, its data phase opened at once, and the page closed that its record does not fit.
-/

namespace Sys2Proof.Machine

/-! ## The refusals -/

section Refused

variable {c : Ctl} {k : Env} {n : Nat}

theorem dirRoom_false (h : 65536 ≤ c.dir.length) : c.dirRoom = false := decide_eq_false (Nat.not_lt.2 h)

theorem dirRoom_true (h : c.dir.length < 65536) : c.dirRoom = true := decide_eq_true h

/-- A page can be opened for an APPEND: the directory and the pool have room (R163). -/
theorem hasRoom_iff (c : Ctl) :
    (!c.dirRoom || ((c.openBlock .own).isNone && decide (c.pool.length < 3))) = true ↔
      65536 ≤ c.dir.length ∨ (c.openBlock .own = none ∧ c.pool.length < 3) := by
  simp only [Ctl.dirRoom, Bool.or_eq_true, Bool.not_eq_true', decide_eq_false_iff_not, Nat.not_lt, Bool.and_eq_true,
    Option.isNone_iff_eq_none, decide_eq_true_eq]

theorem appendRefusal_badArg (h : n = 0 ∨ 4084 < n) : c.appendRefusal k n = some .badArg := if_pos h

theorem appendRefusal_length (hlo : 1 ≤ n) (hhi : n ≤ 4084) : ¬ (n = 0 ∨ 4084 < n) := by omega

theorem appendRefusal_tableFull (hlen : ¬ (n = 0 ∨ 4084 < n))
    (h : 16 - c.et.length < extentsFormed (c.openPage k) (slotsOf n)) : c.appendRefusal k n = some .tableFull := by
  simp only [Ctl.appendRefusal, if_neg hlen, if_pos h]

theorem appendRefusal_noSpace (hlen : ¬ (n = 0 ∨ 4084 < n))
    (het : extentsFormed (c.openPage k) (slotsOf n) ≤ 16 - c.et.length) (hfits : fits (c.openPage k) (slotsOf n) = false)
    (h : 65536 ≤ c.dir.length ∨ (c.openBlock .own = none ∧ c.pool.length < 3)) : c.appendRefusal k n = some .noSpace := by
  simp only [Ctl.appendRefusal, if_neg hlen, if_neg (Nat.not_lt.2 het), hfits, (hasRoom_iff c).2 h, Bool.not_false,
    Bool.and_self, if_true]

theorem appendRefusal_seq (hlen : ¬ (n = 0 ∨ 4084 < n))
    (het : extentsFormed (c.openPage k) (slotsOf n) ≤ 16 - c.et.length) (hfits : fits (c.openPage k) (slotsOf n) = false)
    (h : ¬ (65536 ≤ c.dir.length ∨ (c.openBlock .own = none ∧ c.pool.length < 3))) :
    c.appendRefusal k n = if c.nextSeq.isNone then some .exhausted else none := by
  simp only [Ctl.appendRefusal, if_neg hlen, if_neg (Nat.not_lt.2 het), hfits,
    Bool.eq_false_iff.2 (mt (hasRoom_iff c).1 h), Bool.not_false, Bool.true_and, Bool.false_eq_true, if_false]

theorem appendRefusal_fits (hlen : ¬ (n = 0 ∨ 4084 < n))
    (het : extentsFormed (c.openPage k) (slotsOf n) ≤ 16 - c.et.length) (hfits : fits (c.openPage k) (slotsOf n) = true) :
    c.appendRefusal k n = none := by
  simp only [Ctl.appendRefusal, if_neg hlen, if_neg (Nat.not_lt.2 het), hfits, Bool.not_true, Bool.false_and,
    Bool.false_eq_true, if_false]

variable {t0 t1 l0 l1 : Byte} {code : ResultCode}

theorem doAppend_eq (hst : c.station = .active) :
    c.doAppend k ([t0, t1, l0] ++ [l1]) =
      (c.appendRefusal k (half l0 l1).toNat).elim (c.acceptAppend k (half t0 t1) (half l0 l1).toNat)
        (fun code => c.endCommand code []) := by
  have hlength : argHalf ([t0, t1, l0] ++ [l1]) 2 = half l0 l1 := rfl
  have htag : argHalf ([t0, t1, l0] ++ [l1]) 0 = half t0 t1 := rfl
  rw [Ctl.doAppend, hlength, htag, if_neg (not_not_intro hst)]
  cases c.appendRefusal k (half l0 l1).toNat <;> rfl

theorem doAppend_refused (hst : c.station = .active) (h : c.appendRefusal k (half l0 l1).toNat = some code) :
    c.doAppend k ([t0, t1, l0] ++ [l1]) = c.endCommand code [] := by
  rw [doAppend_eq hst, h]
  rfl

theorem doAppend_accepted (hst : c.station = .active) (h : c.appendRefusal k (half l0 l1).toNat = none) :
    c.doAppend k ([t0, t1, l0] ++ [l1]) = c.acceptAppend k (half t0 t1) (half l0 l1).toNat := by
  rw [doAppend_eq hst, h]
  rfl

end Refused

/-! ## The page that the record does not fit -/

section Closed

variable {c d d' : Ctl} {k : Env} {b : Fin 2} {p : FillPage}

/-- What is formed stays so while the directory, the Extent Table, the fill pair and the queues are kept. -/
theorem formsExtent_after {noFit emergency : Bool} (h : c.formsExtent d k b p noFit emergency) (hdir : d'.dir = d.dir)
    (het : d'.et = d.et) (hfill : d'.fill = d.fill) (hq : ∀ u, (d.units.get u).queue <+: (d'.units.get u).queue) :
    c.formsExtent d' k b p noFit emergency := by
  intro e a he ha hr hp hd
  obtain ⟨hbuf, hentry, hnew, hold, hprog⟩ := h e a he ha hr hp hd
  rw [← Ctl.entry_congr hdir] at hentry
  rw [← het] at hnew hold
  rw [← hfill] at hbuf
  refine ⟨hbuf, hentry, hnew, hold, fun hn hdn => ?_⟩
  obtain ⟨r, hr, hrest⟩ := hprog hn hdn
  exact ⟨r, (hq _).subset hr, hrest⟩

theorem closeNoFit_none (ho : c.openPage k = none) : c.closeNoFit k = c := by
  simp only [Ctl.closeNoFit, ho]

theorem closeNoFit_forms (ho : c.openPage k = some (b, p)) (h : p.unflushed = true) :
    c.closeNoFit k = c.formExtent k b p true := by
  simp only [Ctl.closeNoFit, ho, h, if_true]

/-- A page with nothing unflushed is closed at the origin alone (R8, R108). -/
theorem closeNoFit_closes (ho : c.openPage k = some (b, p)) (h : p.unflushed = false) :
    ∀ e ∈ (c.closeNoFit k).dir, e.id = ownId k p.seq → e.closed = true := by
  have hclosed : ∀ e ∈ (c.update k (ownId k p.seq) (fun e => { e with closed := true })).dir,
      e.id = ownId k p.seq → e.closed = true := by
    intro e he hid
    rw [Ctl.update_dir, List.mem_map] at he
    obtain ⟨x, -, rfl⟩ := he
    by_cases hx : x.id = ownId k p.seq
    · rw [if_pos hx]
      rfl
    · rw [if_neg hx] at hid
      exact absurd hid hx
  simp only [Ctl.closeNoFit, ho, h, Bool.false_eq_true, if_false]
  obtain hdrop | hdrop := Ctl.dropTargets_cases (c.update k (ownId k p.seq) (fun e => { e with closed := true })) k p.seq
  · rw [hdrop]
    exact hclosed
  · rw [hdrop]
    intro e he hid
    rw [Ctl.update_dir, List.mem_map] at he
    obtain ⟨x, hx, rfl⟩ := he
    by_cases hxid : x.id = ownId k p.seq
    · rw [if_pos hxid]
      exact hclosed x hx hxid
    · rw [if_neg hxid] at hid
      exact absurd hid hxid

end Closed

/-! ## The opening that waits -/

section Opening

variable {c : Ctl} {k : Env} {a : AppendCmd}

/-- The controller with the open page closed for an APPEND whose record does not fit it (R108). -/
def Ctl.noFitClosed (c : Ctl) (k : Env) (a : AppendCmd) : Ctl := ((c.setAct (.appendOpening a)).closeNoFit k).sweep k

theorem noFitClosed_calm (c : Ctl) (k : Env) (a : AppendCmd) :
    Calm false (c.setAct (.appendOpening a)) (c.noFitClosed k a) :=
  Ctl.sweep_calm (Ctl.closeNoFit_calm (Calm.refl _) k) k

theorem noFitClosed_still (c : Ctl) (k : Env) (a : AppendCmd) : (c.noFitClosed k a).still = c.still :=
  ((noFitClosed_calm c k a).still rfl).trans rfl

theorem noFitClosed_port (c : Ctl) (k : Env) (a : AppendCmd) :
    (c.noFitClosed k a).port = { c.port with act := .appendOpening a } :=
  (noFitClosed_calm c k a).port rfl rfl

theorem noFitClosed_mark (c : Ctl) (k : Env) (a : AppendCmd) : (c.noFitClosed k a).mark = c.mark :=
  (congrArg Ctl.mark (noFitClosed_still c k a) :)

theorem noFitClosed_nextSeq (c : Ctl) (k : Env) (a : AppendCmd) : (c.noFitClosed k a).nextSeq = c.nextSeq :=
  (congrArg Ctl.nextSeq (noFitClosed_still c k a) :)

theorem noFitClosed_none (ho : c.openPage k = none) : c.noFitClosed k a = (c.setAct (.appendOpening a)).sweep k := by
  rw [Ctl.noFitClosed, closeNoFit_none (c := c.setAct (.appendOpening a)) ho]

theorem noFitClosed_closes {b : Fin 2} {p : FillPage} (ho : c.openPage k = some (b, p)) (h : p.unflushed = false) :
    ∀ e ∈ (c.noFitClosed k a).dir, e.id = ownId k p.seq → e.closed = true := by
  rw [Ctl.noFitClosed, Ctl.sweep_dir]
  exact closeNoFit_closes (c := c.setAct (.appendOpening a)) ho h

theorem noFitClosed_forms {b : Fin 2} {p : FillPage} (ho : c.openPage k = some (b, p)) (h : p.formed < p.used)
    (hst : c.station ≠ .leaving) : c.formsExtent (c.noFitClosed k a) k b p true false := by
  rw [Ctl.noFitClosed, closeNoFit_forms (c := c.setAct (.appendOpening a)) ho ((unflushed_iff p).2 h)]
  exact Ctl.formsExtent_congr (formExtent_forms (c := c.setAct (.appendOpening a)) (Ctl.fillOf_openPage ho) h hst true)
    rfl rfl rfl rfl rfl rfl rfl rfl rfl

/-- Raising a wanted value leaves the tables and the transmit queue alone, and only adds to a queue of requests. -/
theorem wantCeiling_keeps (c : Ctl) :
    (c.wantCeiling.dir = c.dir ∧ c.wantCeiling.et = c.et ∧ c.wantCeiling.fill = c.fill) ∧
    (c.wantCeiling.tx = c.tx ∧ c.wantCeiling.blocks = c.blocks) ∧
    ∀ u, (c.units.get u).queue <+: (c.wantCeiling.units.get u).queue := by
  refine ⟨?_, ?_, fun u => Ctl.want_queue _ _ u⟩
  all_goals
    obtain ⟨st, m, p, us, al, h⟩ := Ctl.want_shape c
      fun v => { v with ceiling := maxSeq v.ceiling (ceilingAbove c.mark.recorded.ceiling) }
    unfold Ctl.wantCeiling
    rw [h]
  · exact ⟨rfl, rfl, rfl⟩
  · exact ⟨rfl, rfl⟩

/-- An APPEND whose record fits the open page. -/
theorem acceptAppend_fits {tag : Half} {n : Nat} (h : fits (c.openPage k) (slotsOf n) = true) :
    c.acceptAppend k tag n = c.setAct (.appendData
      { tag := tag, length := n, gen := c.gen, stamp := k.clock, slots := slotsOf n,
        reserved := extentsFormed (c.openPage k) (slotsOf n) } 0) := if_pos h

/-- An APPEND that waits for the opening of a page. -/
theorem acceptAppend_opens {tag : Half} {n : Nat} {seq : Word} (h : fits (c.openPage k) (slotsOf n) = false)
    (hseq : c.nextSeq = some seq)
    (ha : a = { tag := tag, length := n, gen := c.gen, stamp := k.clock, slots := slotsOf n,
                reserved := if slotsOf n = 8 then 1 else 0 }) :
    c.acceptAppend k tag n =
      if c.mark.recorded.ceiling < seq then (c.noFitClosed k a).wantCeiling else c.noFitClosed k a := by
  have habove : (c.noFitClosed k a).aboveCeiling = decide (c.mark.recorded.ceiling < seq) := by
    rw [Ctl.aboveCeiling, noFitClosed_nextSeq, noFitClosed_mark, hseq]
    rfl
  rw [Ctl.acceptAppend, if_neg (by rw [h]; exact Bool.false_ne_true)]
  have hopens : (if (c.noFitClosed k a).aboveCeiling = true then (c.noFitClosed k a).wantCeiling else c.noFitClosed k a) =
      if c.mark.recorded.ceiling < seq then (c.noFitClosed k a).wantCeiling else c.noFitClosed k a := by
    simp only [habove, decide_eq_true_eq]
  subst ha
  exact hopens

/-- Raising the ceiling is raising a wanted value that is then above the recorded one (R68). -/
theorem wantCeiling_begins (hw : c.mark.write = none) (hf : c.mark.frozenOwed = false)
    (hs : c.mark.recordedSeq ≠ topSeq) {seq : Word} (habove : c.mark.recorded.ceiling < seq) :
    ∃ w, c.wantCeiling.mark.write = some w ∧ w.seq = c.mark.recordedSeq + 1 ∧
      w.vals = { c.mark.wanted with
        ceiling := maxSeq c.mark.wanted.ceiling (ceilingAbove c.mark.recorded.ceiling) } := by
  have hraised : maxSeq c.mark.wanted.ceiling (ceilingAbove c.mark.recorded.ceiling) ≠ c.mark.recorded.ceiling := by
    intro h
    have hge := maxSeq_ge_right c.mark.wanted.ceiling (ceilingAbove c.mark.recorded.ceiling)
    rw [h] at hge
    exact BitVec.not_le.2 (ceilingAbove_gt habove) hge
  unfold Ctl.wantCeiling
  generalize ceilingAbove c.mark.recorded.ceiling = x at hraised ⊢
  rw [Ctl.want_begins hw hf hs fun h => hraised (congrArg MarkVals.ceiling h :)]
  exact ⟨_, by rw [Ctl.enter_mark], rfl, rfl⟩

end Opening

/-- Settles O14: the refusals in their order, the data phase opened at once, and the page that the record does not fit. -/
theorem append : Obligations.Append := by
  refine ⟨fun s t0 t1 l0 l1 hlow hst hact => ?refused, fun s t0 t1 l0 l1 hlow hst hact => ?accepted⟩
  all_goals
    have htake := takeLast_of hact rfl l1 (fun c args => c.doAppend s.env args)
    intro n
  case refused =>
    intro o noRoom refused
    have hto {code : ResultCode} (h : s.ctl.takeCommand.appendRefusal s.env n = some code) : refused code :=
      next_onCtl_eq hlow (htake.trans (doAppend_refused (c := s.ctl.takeCommand) hst h))
    refine ⟨fun h => hto (appendRefusal_badArg h), fun hlo hhi => ?_⟩
    have hlen := appendRefusal_length hlo hhi
    refine ⟨fun h => hto (appendRefusal_tableFull hlen h), fun het hfits =>
      ⟨fun h => hto (appendRefusal_noSpace hlen het hfits h), fun h hnone => hto ?_⟩⟩
    rw [appendRefusal_seq (c := s.ctl.takeCommand) hlen het hfits h]
    exact if_pos (Option.isNone_iff_eq_none.2 hnone)
  case accepted =>
    intro slots o cmd hlo hhi het
    have hlen := appendRefusal_length hlo hhi
    have hto {d : Ctl} (h : s.ctl.takeCommand.appendRefusal s.env n = none)
        (hd : s.ctl.takeCommand.acceptAppend s.env (half t0 t1) n = d) :
        exec (.append l1) s = .next { s with ctl := d } :=
      next_onCtl_eq hlow (htake.trans ((doAppend_accepted (c := s.ctl.takeCommand) hst h).trans hd))
    refine ⟨fun b p ho hle => ?fit, fun seq hfits hdir hroom hseq => ?opening⟩
    case fit =>
      have hfits : fits o slots = true := by
        rw [ho]
        exact decide_eq_true hle
      have hforms : extentsFormed o slots = if p.used + slots = 8 then 1 else 0 := by
        rw [extentsFormed, if_pos hfits, ho, Option.any_some]
        simp only [decide_eq_true_eq]
      refine hto (appendRefusal_fits hlen het hfits) ((acceptAppend_fits (c := s.ctl.takeCommand) hfits).trans ?_)
      rw [← hforms]
      rfl
    case opening =>
      have hrefusal : s.ctl.takeCommand.appendRefusal s.env n = none := by
        rw [appendRefusal_seq (c := s.ctl.takeCommand) hlen het hfits ?_]
        · exact if_neg (by rw [show s.ctl.takeCommand.nextSeq = some seq from hseq]; exact Bool.false_ne_true)
        · rintro (h | ⟨hnone, hpool⟩)
          · exact absurd hdir (Nat.not_lt.2 h)
          · exact hroom.elim (fun h => h hnone) (fun h => absurd hpool (Nat.not_lt.2 h))
      obtain ⟨a, ha⟩ : ∃ a, a = cmd (if slots = 8 then 1 else 0) := ⟨_, rfl⟩
      obtain ⟨r, hr⟩ : ∃ r, r = s.ctl.takeCommand.noFitClosed s.env a := ⟨_, rfl⟩
      have hopens := hto hrefusal (acceptAppend_opens (c := s.ctl.takeCommand) (a := a) hfits hseq ha)
      have hclosed : ∀ b p, o = some (b, p) → p.unflushed = false → ∀ e ∈ r.dir, e.id = ownId s.env p.seq → e.closed = true := by
        rw [hr]
        exact fun b p ho h => noFitClosed_closes (c := s.ctl.takeCommand) ho h
      have hforms : ∀ b p, o = some (b, p) → p.formed < p.used → s.ctl.formsExtent r s.env b p true false := by
        rw [hr]
        exact fun b p ho h => Ctl.formsExtent_congr (noFitClosed_forms (c := s.ctl.takeCommand) ho h
          fun hl => StationState.noConfusion (hst.symm.trans hl)) rfl rfl rfl rfl rfl rfl rfl rfl rfl
      have hsame : o = none → r.dir = s.ctl.dir ∧ r.et = s.ctl.et ∧ r.tx = s.ctl.tx ∧ r.blocks = s.ctl.blocks := by
        intro ho
        rw [hr, noFitClosed_none (c := s.ctl.takeCommand) ho, Ctl.sweep_dir, Ctl.sweep_et, Ctl.sweep_tx, Ctl.sweep_blocks]
        exact ⟨rfl, rfl, rfl, rfl⟩
      have hmark : r.mark = s.ctl.mark := by rw [hr]; exact noFitClosed_mark _ _ _
      by_cases habove : s.ctl.mark.recorded.ceiling < seq
      · obtain ⟨⟨hdir', het', hfill'⟩, ⟨htx', hblocks'⟩, hqueue'⟩ := wantCeiling_keeps r
        rw [if_pos (show s.ctl.takeCommand.mark.recorded.ceiling < seq from habove), ← hr] at hopens
        refine ⟨_, hopens, fun hle => absurd habove (BitVec.not_lt.2 hle), ?_, ?_, ?_, fun _ hw hf hs => ?_⟩
        · rw [hdir', het', htx', hblocks']
          exact hsame
        · rw [hdir']
          exact hclosed
        · exact fun b p ho h => formsExtent_after (hforms b p ho h) hdir' het' hfill' hqueue'
        · have hbegins := wantCeiling_begins (c := r) (seq := seq) (by rw [hmark]; exact hw) (by rw [hmark]; exact hf)
            (by rw [hmark]; exact hs) (by rw [hmark]; exact habove)
          rw [hmark] at hbegins
          exact hbegins
      · rw [if_neg (show ¬ s.ctl.takeCommand.mark.recorded.ceiling < seq from habove), ← hr] at hopens
        refine ⟨r, hopens, fun _ => ⟨?_, ?_⟩, hsame, hclosed, hforms,
          fun h => absurd h habove⟩
        · rw [hr]
          exact (noFitClosed_still _ _ _).trans rfl
        · rw [hr, ← ha]
          exact noFitClosed_port _ _ _

end Sys2Proof.Machine
end

