-- ==== Sys2Proof/Proofs/Resets.lean ====
section
/-!
PROOFS. The hard reset and its release: what is cut short of the array, and that only the pins move a part held in reset.
-/

namespace Sys2Proof.Machine

/-! ## What a hard reset cuts short -/

/-- An operation cut short changes no byte but those that it may change. -/
theorem byteAt_cutShort (f : Flash) (busy : Option Busy) (n x : Nat)
    (h : ∀ b, busy = some b → ¬ b.req.op.touches x) : (f.cutShort busy n).byteAt x = f.byteAt x := by
  cases busy with
  | none => rfl
  | some b =>
    have htouch := h b rfl
    unfold Flash.cutShort
    dsimp only
    cases hop : b.req.op with
    | pageRead a => rfl
    | headerRead a => rfl
    | program q =>
      rw [hop] at htouch
      exact Flash.byteAt_programCut f q n x fun k hk hin => htouch ⟨k, hk, hin⟩
    | erase blk =>
      rw [hop] at htouch
      exact Flash.byteAt_eraseCut f blk n x htouch

/-- A read cut short changes nothing. -/
theorem cutShort_read (f : Flash) (busy : Option Busy) (n : Nat) (h : ∀ b, busy = some b → b.req.op.isRead = true) :
    f.cutShort busy n = f := by
  cases busy with
  | none => rfl
  | some b =>
    have hread := h b rfl
    unfold Flash.cutShort
    dsimp only
    cases hop : b.req.op with
    | pageRead a => rfl
    | headerRead a => rfl
    | program q => rw [hop] at hread; exact absurd hread Bool.false_ne_true
    | erase blk => rw [hop] at hread; exact absurd hread Bool.false_ne_true

/-- The mount scan begins with a read of each mark page (R57, R58). -/
theorem beginMount_reset :
    Ctl.reset.beginMount = { Ctl.reset with
      units := #v[{ busy := none, queue := (List.range 128).map (mountMarkReq 0), favour := 0 },
                  { busy := none, queue := (List.range 128).map (mountMarkReq 1), favour := 0 }] } :=
  mountReads_fold (List.range 128) Ctl.reset [] [] rfl

/-! ## A part held in reset -/

/-- Every command but those of the pins has its meaning only out of reset. -/
theorem exec_held {s : State} {i : Instr} (hlow : s.env.rstLow = true) (hreset : i ≠ .hardReset)
    (hrelease : ∀ n c, i ≠ .hardResetRelease n c) (hwarning : i ≠ .powerFailWarning) (hrejoin : i ≠ .rejoin) :
    exec i s = .next s := by
  have hheld {t : State} : (Host.Outcome.next (if s.env.rstLow = true then s else t) : Host.Outcome State Fault Refusal) =
      .next s := by rw [if_pos hlow]
  cases i
  case hardReset => exact absurd rfl hreset
  case hardResetRelease n c => exact absurd rfl (hrelease n c)
  case powerFailWarning => exact absurd rfl hwarning
  case rejoin => exact absurd rfl hrejoin
  all_goals exact hheld

/-- Settles O5: the hard reset, its release, and the commands of a part held in reset. -/
theorem resets : Obligations.Resets := by
  refine ⟨fun s => ?reset, fun n cpy s => ⟨fun hlow => ?release, fun hlow => ?_⟩, fun s hlow => ⟨fun i => ?_, ?_, ?_⟩⟩
  case reset =>
    refine ⟨_, rfl, fun x h => ?_, fun h => ?_⟩
    · rw [byteAt_cutShort _ _ _ _ (h 1), byteAt_cutShort _ _ _ _ (h 0)]
    · rw [cutShort_read _ _ _ (h 0), cutShort_read _ _ _ (h 1)]
  case release =>
    refine congrArg Host.Outcome.next ((if_pos hlow).trans ?_)
    rw [beginMount_reset]
    rfl
  · exact congrArg Host.Outcome.next (if_neg (by rw [hlow]; exact Bool.false_ne_true))
  · exact exec_held hlow
  · refine congrArg Host.Outcome.next (if_neg ?_)
    rw [hlow]
    exact Bool.false_ne_true
  · refine congrArg Host.Outcome.next (if_neg ?_)
    rw [hlow]
    exact Bool.false_ne_true

end Sys2Proof.Machine
end

