-- ==== Sys2Proof/Proofs/PowerFail.lean ====
section
/-!
PROOFS. The power-fail warning: the port command it ends, the emergency flush, and the DEFERRED frames it gives up.
-/

namespace Sys2Proof.Machine

/-! ## The open page -/

theorem openPage_congr {c d : Ctl} {k k' : Env} (hdir : d.dir = c.dir) (hfill : d.fill = c.fill) (hme : k'.me = k.me) :
    d.openPage k' = c.openPage k := by
  simp only [Ctl.openPage, Ctl.ownEntry, ownId, hfill, hme, Ctl.entry_congr hdir]

/-- The open page stays open while its buffer holds it. -/
theorem openPage_setFill {c : Ctl} {k : Env} {b : Fin 2} {p q : FillPage} (ho : c.openPage k = some (b, p))
    (hseq : q.seq = p.seq) : (c.setFill b (some q)).openPage k = some (b, q) := by
  obtain ⟨hb, e, he, hopen⟩ := Ctl.openPage_spec ho
  have hentry : (c.setFill b (some q)).ownEntry k q.seq = some e := by rw [hseq]; exact he
  match b with
  | 0 =>
    have hget : (c.setFill 0 (some q)).fill.get 0 = some q := vput_get_same _ _ _
    simp only [Ctl.openPage, hget, hentry, hopen, Bool.false_eq_true, if_false]
  | 1 =>
    have hget : (c.setFill 1 (some q)).fill.get 1 = some q := vput_get_same _ _ _
    have hother : (c.setFill 1 (some q)).fill.get 0 = c.fill.get 0 := vput_get_other _ _ _ _ (by decide)
    have hown (seq : Word) : (c.setFill 1 (some q)).ownEntry k seq = c.ownEntry k seq := rfl
    have hentry' : c.ownEntry k q.seq = some e := by rw [hseq]; exact he
    simp only [Ctl.openPage, hget, hother, hown, hentry', hopen, Bool.false_eq_true, if_false]
    simp only [Ctl.openPage] at ho
    split at ho
    · rename_i x hx
      cases ho
      split at hx
      · split at hx
        · split at hx <;> cases hx
        · cases hx
      · cases hx
    · rename_i hnone
      rw [hnone]

/-! ## The port command in progress -/

/-- The port after the warning has ended a command STATE. -/
def Port.turnedAway (p : Port) : Port :=
  { p with act := .idle, result := [ResultCode.state.byte], resultPos := 0, lastResult := ResultCode.state.byte }

/-- A page as the warning may leave it: the bytes of an APPEND in its data phase set to 00H again. -/
structure SameSlots (p q : FillPage) : Prop where
  seq : q.seq = p.seq
  used : q.used = p.used
  extents : q.extents = p.extents
  starts : q.starts = p.starts
  failed : q.failed = p.failed

theorem SameSlots.refl (p : FillPage) : SameSlots p p := ⟨rfl, rfl, rfl, rfl, rfl⟩

theorem SameSlots.formed {p q : FillPage} (h : SameSlots p q) : q.formed = p.formed := by
  unfold FillPage.formed
  rw [h.extents]

/-- What the warning makes of a port command in progress (R71, R165). -/
structure PortEnded (c d : Ctl) (k : Env) : Prop where
  shape : ∃ f p, d = { c with fill := f, port := p }
  page : ∀ b p, c.openPage k = some (b, p) → ∃ q, d.openPage k = some (b, q) ∧ SameSlots p q
  noPage : c.openPage k = none → d.openPage k = none
  append : ∀ a n, c.port.act = .appendData a n ∨ c.port.act = .appendOpening a → d.port = c.port.turnedAway
  release : ∀ m, c.port.act = .releaseWait m → d.port = c.port.turnedAway
  other : (∀ a n, c.port.act ≠ .appendData a n) → (∀ a, c.port.act ≠ .appendOpening a) →
    (∀ m, c.port.act ≠ .releaseWait m) → d.port = c.port

theorem endPortForPower_spec (c : Ctl) (k : Env) : PortEnded c (c.endPortForPower k) k := by
  have hkept (b : Fin 2) (p : FillPage) (h : c.openPage k = some (b, p)) : ∃ q, c.openPage k = some (b, q) ∧ SameSlots p q :=
    ⟨p, h, .refl p⟩
  unfold Ctl.endPortForPower
  split
  case h_1 a n hact =>
    have hport : ((c.discardAppend k).endCommand .state []).port = c.port.turnedAway := by
      unfold Ctl.discardAppend
      split <;> rfl
    refine ⟨?_, fun b p ho => ?_, fun ho => ?_, fun _ _ _ => hport, fun _ _ => hport, fun h => absurd hact (h a n)⟩
    · unfold Ctl.discardAppend
      split <;> exact ⟨_, _, rfl⟩
    · rw [Ctl.discardAppend_of ho]
      exact ⟨p.cleared, openPage_setFill ho rfl, rfl, rfl, rfl, rfl, rfl⟩
    · unfold Ctl.discardAppend
      rw [ho]
      exact ho
  case h_2 a hact =>
    exact ⟨⟨_, _, rfl⟩, hkept, id, fun _ _ _ => rfl, fun _ _ => rfl, fun _ h => absurd hact (h a)⟩
  case h_3 m hact =>
    exact ⟨⟨_, _, rfl⟩, hkept, id, fun _ _ _ => rfl, fun _ _ => rfl, fun _ _ h => absurd hact (h m)⟩
  all_goals
    rename_i hact
    refine ⟨⟨_, _, rfl⟩, hkept, id, fun a n h => ?_, fun m h => ?_, fun _ _ _ => rfl⟩
    · rw [hact] at h
      exact h.elim nofun nofun
    · rw [hact] at h
      exact nomatch h

end Sys2Proof.Machine
end

