-- ==== Sys2Proof/Proofs/EmergencyFlush.lean ====
section
/-!
PROOFS. The emergency flush, and what entering LEAVING leaves of the controller.
-/

namespace Sys2Proof.Machine

/-! ## The emergency flush -/

section Flushed

variable {c d d' : Ctl} {k : Env} {b : Fin 2} {p : FillPage}

theorem tableRoom_free (hdata : ∀ a n, c.port.act ≠ .appendData a n) (hopening : ∀ a, c.port.act ≠ .appendOpening a) :
    c.tableRoom = 16 - c.et.length := by
  unfold Ctl.tableRoom
  cases hact : c.port.act with
  | appendData a n => exact absurd hact (hdata a n)
  | appendOpening a => exact absurd hact (hopening a)
  | _ => rfl

theorem PortEnded.noAppend (h : PortEnded c d k) :
    (∀ a n, d.port.act ≠ .appendData a n) ∧ ∀ a, d.port.act ≠ .appendOpening a := by
  have hidle (hturned : d.port = c.port.turnedAway) :
      (∀ a n, d.port.act ≠ .appendData a n) ∧ ∀ a, d.port.act ≠ .appendOpening a := by
    rw [hturned]
    exact ⟨nofun, nofun⟩
  have hsame (hport : d.port = c.port) (h1 : ∀ a n, c.port.act ≠ .appendData a n)
      (h2 : ∀ a, c.port.act ≠ .appendOpening a) :
      (∀ a n, d.port.act ≠ .appendData a n) ∧ ∀ a, d.port.act ≠ .appendOpening a := by
    rw [hport]
    exact ⟨h1, h2⟩
  cases hact : c.port.act with
  | appendData a n => exact hidle (h.append a n (.inl hact))
  | appendOpening a => exact hidle (h.append a 0 (.inr hact))
  | releaseWait m => exact hidle (h.release m hact)
  | _ =>
    have h1 (a : AppendCmd) (n : Nat) : c.port.act ≠ .appendData a n := by rw [hact]; exact nofun
    have h2 (a : AppendCmd) : c.port.act ≠ .appendOpening a := by rw [hact]; exact nofun
    have h3 (m : Word) : c.port.act ≠ .releaseWait m := by rw [hact]; exact nofun
    exact hsame (h.other h1 h2 h3) h1 h2

theorem dropTargets_port_rx (c : Ctl) (k : Env) (seq : Word) :
    (c.dropTargets k seq).port = c.port ∧ (c.dropTargets k seq).rx = c.rx := by
  obtain hdrop | hdrop := Ctl.dropTargets_cases c k seq
  · rw [hdrop]
    exact ⟨rfl, rfl⟩
  · rw [hdrop]
    exact ⟨Ctl.update_port .., Ctl.update_rx ..⟩

/-- Of a page that is in no RETIRED block, the emergency flush leaves the port and the receive buffers alone. -/
theorem formEmergency_inPlace (ho : c.openPage k = some (b, p))
    (hr : ∀ e a, c.ownEntry k p.seq = some e → e.localPage = some a → c.inRetired a = false) :
    (c.formEmergency k b p).port = c.port ∧ (c.formEmergency k b p).rx = c.rx := by
  obtain ⟨-, e, he, -⟩ := Ctl.openPage_spec ho
  obtain ⟨q, hq⟩ : ∃ q : FillPage, q = { p with urgent := some p.extents.length } := ⟨_, rfl⟩
  have heq : c.ownEntry k q.seq = some e := by rw [hq]; exact he
  have hfill : c.fillOf q.seq = some (b, p) := by rw [hq]; exact Ctl.fillOf_openPage ho
  by_cases hroom : 1 ≤ c.tableRoom
  · obtain ⟨hport, hrx, -⟩ := formExtent_inPlace hfill heq (hr e · he) false
    have hform : c.formEmergency k b p = c.formExtent k b q false := by
      rw [hq]
      exact if_pos hroom
    rw [hform]
    exact ⟨hport, hrx⟩
  · obtain ⟨l, d, hd, -, hport, hrx, -⟩ := addExtent_inPlace (b := b) heq (hr e · he) false none
    obtain ⟨hport', hrx'⟩ := dropTargets_port_rx d k q.seq
    have hform : c.formEmergency k b p = d.dropTargets k q.seq := by
      rw [hd, hq]
      exact if_neg hroom
    rw [hform]
    exact ⟨hport'.trans hport, hrx'.trans hrx⟩

theorem emergencyFlush_none (h : ∀ b p, c.openPage k = some (b, p) → p.used ≤ p.formed) : c.emergencyFlush k = c := by
  unfold Ctl.emergencyFlush
  split
  · rename_i b p ho
    exact if_neg (mt (unflushed_iff p).1 (Nat.not_lt.2 (h b p ho)))
  · rfl

theorem emergencyFlush_forms (ho : c.openPage k = some (b, p)) (h : p.formed < p.used) :
    c.emergencyFlush k = c.formEmergency k b p := by
  simp only [Ctl.emergencyFlush, ho, (unflushed_iff p).2 h, if_true]

theorem emergencyFlush_inPlace
    (hr : ∀ b p e a, c.openPage k = some (b, p) → c.ownEntry k p.seq = some e → e.localPage = some a → c.inRetired a = false) :
    (c.emergencyFlush k).port = c.port ∧ (c.emergencyFlush k).rx = c.rx := by
  by_cases h : ∀ b p, c.openPage k = some (b, p) → p.used ≤ p.formed
  · rw [emergencyFlush_none h]
    exact ⟨rfl, rfl⟩
  · push Not at h
    obtain ⟨b, p, ho, hlt⟩ := h
    rw [emergencyFlush_forms ho hlt]
    exact formEmergency_inPlace ho (fun e a => hr b p e a ho)

/-- The extent of the emergency flush, as the statements say it. -/
theorem formEmergency_forms (ho : c.openPage k = some (b, p)) (hlt : p.formed < p.used) (hst : c.station = .leaving)
    (hroom : c.tableRoom = 16 - c.et.length) (hdir : d.dir = (c.formEmergency k b p).dir)
    (het : d.et = (c.formEmergency k b p).et)
    (hq : ∀ u, ((c.formEmergency k b p).units.get u).queue <+: (d.units.get u).queue)
    (hfill : ∀ q x, (c.formEmergency k b p).fill.get b = some q → (c.formEmergency k b p).ownEntry k q.seq = some x →
      x.closed = false ∨ x.pendingExt.isSome = true → d.fill.get b = some q) :
    c.formsExtent d k b p false true := by
  refine Ctl.formsExtent_of (p' := { p with urgent := some p.extents.length }) hlt rfl rfl rfl rfl ?_ hdir het hq hfill ?_
  · rw [decide_eq_true hst, decide_eq_true rfl, Bool.and_self]
  · intro e a he ha hr hp
    obtain ⟨hformed, hentry, hfull⟩ := Ctl.formEmergency_spec (Ctl.fillOf_openPage ho) he ha hr hp
    refine ⟨hformed, fun hl hn => ?_, fun _ hl => hfull (by omega)⟩
    obtain ⟨x, hx, hnew⟩ := hentry (by omega) hn
    exact ⟨x, hx, hnew.seq, hnew.ext, hnew.first, hnew.count, hnew.prog, hnew.settled⟩

end Flushed

/-! ## The DEFERRED frames -/

theorem freeRx_shape (l : List (Fin 4)) (c : Ctl) :
    ∃ rx, l.foldl (fun c b => c.setRx b .free) c = { c with rx := rx } := by
  induction l generalizing c with
  | nil => exact ⟨_, rfl⟩
  | cons b l ih =>
    obtain ⟨rx, h⟩ := ih (c.setRx b .free)
    exact ⟨rx, h⟩

theorem freeDeferred_shape (c : Ctl) : ∃ rx, c.freeDeferred = { c with rx := rx } := freeRx_shape _ c

theorem rxHeld_iff (c : Ctl) (v : Fin 4) (h : RxHeld) : c.rxHeld v = some h ↔ c.rx.get v = .held h := by
  unfold Ctl.rxHeld
  cases c.rx.get v <;> simp

/-- A DEFERRED frame of a page is given up (R140). -/
theorem freeDeferred_deferred {c : Ctl} {v : Fin 4} {h : RxHeld} (hv : c.rx.get v = .held h) (hdef : h.phase = .deferred)
    (hid : h.frame.id h.src ≠ none) : c.freeDeferred.rx.get v = .free := by
  have hmem : v ∈ c.deferredBufs (fun _ => true) := by
    obtain ⟨id, hid⟩ := Option.ne_none_iff_exists'.1 hid
    refine (Ctl.mem_deferredBufs c _ v).2 ⟨h, (rxHeld_iff c v h).2 hv, hdef, ?_⟩
    rw [hid]
    rfl
  rw [Ctl.freeDeferred, Ctl.freeRx_get, if_pos hmem]

theorem freeDeferred_other {c : Ctl} {v : Fin 4} (h : ∀ x, c.rx.get v = .held x → x.phase ≠ .deferred) :
    c.freeDeferred.rx.get v = c.rx.get v := by
  have hmem : v ∉ c.deferredBufs (fun _ => true) := by
    rw [Ctl.mem_deferredBufs]
    rintro ⟨x, hx, hdef, -⟩
    exact h x ((rxHeld_iff c v x).1 hx) hdef
  rw [Ctl.freeDeferred, Ctl.freeRx_get, if_neg hmem]

/-! ## LEAVING is entered -/

/-- A waiting own program as the warning leaves it: of the emergency flush (R71). -/
def Request.urgentOwn (r : Request) : Request := if r.who.isOwn then { r with emergency := true } else r

/-- The controller in LEAVING, its port command ended, before the emergency flush. -/
def Ctl.leavingBegun (c : Ctl) (k : Env) : Ctl :=
  ({ c.endPortForPower k with window := none }.enterState .leaving).markEmergency

/-- What the controller is before the emergency flush. -/
structure LeavingBegun (c d : Ctl) (k : Env) : Prop where
  still : d.still = { c with station := .leaving, window := none }.still
  port : d.port = (c.endPortForPower k).port
  rx : d.rx = c.rx
  dir : d.dir = c.dir
  et : d.et = c.et
  blocks : d.blocks = c.blocks
  units : ∀ u, d.units.get u = { c.units.get u with queue := (c.units.get u).queue.map Request.urgentOwn }
  open_ : d.openPage k = (c.endPortForPower k).openPage k

theorem leavingBegun_spec (c : Ctl) (k : Env) : LeavingBegun c (c.leavingBegun k) k := by
  obtain ⟨e, he⟩ : ∃ e, e = c.endPortForPower k := ⟨_, rfl⟩
  obtain ⟨f, p, hshape⟩ := (endPortForPower_spec c k).shape
  obtain ⟨tx, jobs, hcut⟩ := cutShort_shape { e with
    window := none
    station := .leaving }
  have hbegun : c.leavingBegun k = Ctl.markEmergency { e with
      window := none
      station := .leaving
      tx := tx
      jobs := jobs } := by
    rw [Ctl.leavingBegun, ← he]
    exact congrArg Ctl.markEmergency hcut
  rw [← he] at hshape
  constructor
  case port => rw [hbegun, ← he]; rfl
  case open_ =>
    rw [← he]
    exact openPage_congr (by rw [hbegun]; rfl) (by rw [hbegun]; rfl) rfl
  case units =>
    intro u
    rw [hbegun, hshape]
    exact vmap_get _ _ _
  all_goals
    rw [hbegun, hshape]
    rfl

/-- What follows the ending of the port command is the work of the engines. -/
theorem enterLeaving_from (c : Ctl) (k : Env) : Calm false (c.leavingBegun k) (c.enterLeaving k) :=
  Ctl.sweep_calm (Ctl.requestPresence_calm
    (Ctl.freeDeferred_calm (Ctl.emergencyFlush_calm (Calm.refl (c.leavingBegun k)) k)) k) k

/-- After the emergency flush: the directory, the Extent Table and the port stay, requests only join the queues, and a buffer
whose page is kept is kept. -/
theorem enterLeaving_after (c : Ctl) (k : Env) :
    let d := (c.leavingBegun k).emergencyFlush k
    (c.enterLeaving k).dir = d.dir ∧ (c.enterLeaving k).et = d.et ∧ (c.enterLeaving k).port = d.port ∧
      (c.enterLeaving k).rx = d.freeDeferred.rx ∧
      (∀ u, (d.units.get u).queue <+: ((c.enterLeaving k).units.get u).queue) ∧
      ∀ b q x, d.fill.get b = some q → d.ownEntry k q.seq = some x → x.closed = false ∨ x.pendingExt.isSome = true →
        (c.enterLeaving k).fill.get b = some q := by
  intro d
  obtain ⟨rx, hrx⟩ := freeDeferred_shape d
  have hleave : c.enterLeaving k = (d.freeDeferred.requestPresence k).sweep k := rfl
  refine ⟨?_, ?_, ?_, ?_, fun u => ?_, fun b q x hq hx h => ?_⟩
  · rw [hleave, Ctl.sweep_dir, hrx]
    rfl
  · rw [hleave, Ctl.sweep_et, hrx]
    rfl
  · rw [hleave, Ctl.sweep_port, hrx]
    rfl
  · rw [hleave, Ctl.sweep_rx]
    rfl
  · exact (Ctl.sweep_calm (Ctl.requestPresence_calm (Ctl.freeDeferred_calm (Calm.refl d)) k) k).queue rfl u
  · rw [hleave]
    refine Ctl.sweep_fill_kept (e := x) ?_ ?_ h
    · rw [hrx]
      exact hq
    · rw [hrx]
      exact hx

end Sys2Proof.Machine
end

