-- ==== Sys2Proof/Proofs/PowerPins.lean ====
section
/-!
PROOFS. The fall of PFW# and its return high: the warning's effects together, and the rejoin.
-/

namespace Sys2Proof.Machine

/-! ## The warning -/

section Warning

variable (c : Ctl) (k : Env)

theorem enterLeaving_still : (c.enterLeaving k).still = { c with station := .leaving, window := none }.still :=
  ((enterLeaving_from c k).still rfl).trans (leavingBegun_spec c k).still

theorem enterLeaving_units (u : UnitNo) :
    ((c.enterLeaving k).units.get u).busy = (c.units.get u).busy ∧
      (c.units.get u).queue.map Request.urgentOwn <+: ((c.enterLeaving k).units.get u).queue := by
  have hunit := (leavingBegun_spec c k).units u
  have hbusy := (enterLeaving_from c k).busy u
  have hqueue := (enterLeaving_from c k).queue rfl u
  rw [hunit] at hbusy hqueue
  exact ⟨hbusy, hqueue⟩

variable {c k}

/-- A port command that does not wait for a FLUSH is as the warning has left it. -/
theorem enterLeaving_port {p : Port} (h : (c.endPortForPower k).port = p) (hq : p.act.quiet = true) :
    (c.enterLeaving k).port = p := by
  have hport := (leavingBegun_spec c k).port.trans h
  exact ((enterLeaving_from c k).port rfl (by rw [hport]; exact hq)).trans hport

theorem enterLeaving_ends (h : (∃ a n, c.port.act = .appendData a n ∨ c.port.act = .appendOpening a) ∨
    ∃ m, c.port.act = .releaseWait m) : (c.enterLeaving k).port = c.port.turnedAway := by
  refine enterLeaving_port ?_ rfl
  obtain ⟨a, n, hact⟩ | ⟨m, hact⟩ := h
  · exact (endPortForPower_spec c k).append a n hact
  · exact (endPortForPower_spec c k).release m hact

/-- A page is open before the warning and before its emergency flush. -/
theorem leavingBegun_openPage {b : Fin 2} {p : FillPage} (ho : c.openPage k = some (b, p)) :
    ∃ q, (c.leavingBegun k).openPage k = some (b, q) ∧ SameSlots p q := by
  obtain ⟨q, hq, hsame⟩ := (endPortForPower_spec c k).page b p ho
  exact ⟨q, (leavingBegun_spec c k).open_.trans hq, hsame⟩

theorem openPage_of_leavingBegun {b : Fin 2} {q : FillPage} (ho : (c.leavingBegun k).openPage k = some (b, q)) :
    ∃ p, c.openPage k = some (b, p) ∧ SameSlots p q := by
  cases hc : c.openPage k with
  | none =>
    have hnone := (leavingBegun_spec c k).open_.trans ((endPortForPower_spec c k).noPage hc)
    rw [hnone] at ho
    exact nomatch ho
  | some x =>
    obtain ⟨b', p⟩ := x
    obtain ⟨q', hq', hsame⟩ := leavingBegun_openPage hc
    rw [hq'] at ho
    cases ho
    exact ⟨p, rfl, hsame⟩

/-- While the open page is in no RETIRED block, the warning frees the DEFERRED frames, and leaves a waiting FLUSH alone. -/
theorem enterLeaving_inPlace (hr : ∀ b p e a, c.openPage k = some (b, p) → c.ownEntry k p.seq = some e →
    e.localPage = some a → c.inRetired a = false) :
    (∀ v h, c.rx.get v = .held h → h.phase = .deferred → h.frame.id h.src ≠ none → (c.enterLeaving k).rx.get v = .free) ∧
    (∀ v, (∀ h, c.rx.get v = .held h → h.phase ≠ .deferred) → (c.enterLeaving k).rx.get v = c.rx.get v) ∧
    (c.enterLeaving k).port = (c.endPortForPower k).port := by
  have hbegun := leavingBegun_spec c k
  obtain ⟨hport, hrx⟩ := emergencyFlush_inPlace (c := c.leavingBegun k) (k := k) fun b q e a ho he ha => by
    obtain ⟨p, hp, hsame⟩ := openPage_of_leavingBegun ho
    rw [Ctl.inRetired_congr hbegun.blocks]
    refine hr b p e a hp ?_ ha
    rw [← hsame.seq, ← Ctl.ownEntry_congr hbegun.dir]
    exact he
  obtain ⟨-, -, hport', hrx', -⟩ := enterLeaving_after c k
  rw [hrx', hport', ← hbegun.rx, ← hbegun.port, ← hrx, ← hport]
  exact ⟨fun v h => freeDeferred_deferred, fun v => freeDeferred_other, rfl⟩

/-- The unflushed slots of the open page become an extent of the emergency flush (R71). -/
theorem enterLeaving_forms {b : Fin 2} {p : FillPage} (ho : c.openPage k = some (b, p)) (hlt : p.formed < p.used) :
    c.formsExtent (c.enterLeaving k) k b p false true := by
  have hbegun := leavingBegun_spec c k
  obtain ⟨q, hq, hsame⟩ := leavingBegun_openPage ho
  have hltq : q.formed < q.used := by rw [hsame.formed, hsame.used]; exact hlt
  have hroom : (c.leavingBegun k).tableRoom = 16 - (c.leavingBegun k).et.length := by
    obtain ⟨hdata, hopening⟩ := (endPortForPower_spec c k).noAppend
    rw [← hbegun.port] at hdata hopening
    exact tableRoom_free hdata hopening
  obtain ⟨hdir, het, -, -, hqueue, hkept⟩ := enterLeaving_after c k
  rw [emergencyFlush_forms hq hltq] at hdir het hqueue hkept
  exact Ctl.formsExtent_congr (formEmergency_forms hq hltq (congrArg Ctl.station hbegun.still :) hroom hdir het hqueue
    (hkept b)) hbegun.dir hbegun.et hbegun.blocks rfl hsame.seq hsame.used hsame.extents hsame.starts hsame.failed

theorem enterLeaving_et (h : ∀ b p, c.openPage k = some (b, p) → p.used ≤ p.formed) : (c.enterLeaving k).et = c.et := by
  obtain ⟨-, het, -⟩ := enterLeaving_after c k
  rw [het, emergencyFlush_none, (leavingBegun_spec c k).et]
  intro b q ho
  obtain ⟨p, hp, hsame⟩ := openPage_of_leavingBegun ho
  rw [hsame.used, hsame.formed]
  exact h b p hp

end Warning

/-! ## The rejoin -/

/-- The controller in LISTENING with the next generation, before the mark log is told of it. -/
def Ctl.rejoined (c : Ctl) : Ctl := { c with gen := c.gen + 1 }.enterListening

theorem rejoined_shape (c : Ctl) : ∃ tx jobs, c.rejoined = { c with
    gen := c.gen + 1
    window := some 60
    station := .listening
    tx := tx
    jobs := jobs } := by
  obtain ⟨tx, jobs, h⟩ := cutShort_shape { c with
    gen := c.gen + 1
    window := some 60
    station := .listening }
  exact ⟨tx, jobs, h⟩

/-- The generation is to be recorded, unless the entry into FROZEN is owed (R73). -/
def Ctl.wantGeneration (c : Ctl) : Ctl :=
  if c.mark.frozenOwed then c else c.renewGeneration.want (fun v => { v with gen := c.gen })

theorem rejoin_eq (c : Ctl) (k : Env) : c.rejoin k = c.rejoined.wantGeneration.requestPresence k := rfl

section Generation

variable {c : Ctl}

theorem wantGeneration_shape (h : c.station ≠ .active) : ∃ m p us,
    c.wantGeneration = { c with mark := m, port := p, units := us } ∧ ∀ u, (c.units.get u).queue <+: (us.get u).queue := by
  unfold Ctl.wantGeneration
  split
  · exact ⟨_, _, _, rfl, fun _ => List.prefix_rfl⟩
  · obtain ⟨w, hw⟩ := Ctl.renewGeneration_shape c
    rw [hw]
    exact want_quiet { c with mark := { c.mark with write := w } } _ h

theorem wantGeneration_owed (h : c.mark.frozenOwed = true) : c.wantGeneration = c := if_pos h

theorem wantGeneration_begins (hf : c.mark.frozenOwed = false) (hw : c.mark.write = none)
    (hs : c.mark.recordedSeq ≠ topSeq) (hne : c.mark.recorded.gen ≠ c.gen) :
    ∃ w, c.wantGeneration.mark.write = some w ∧ w.vals = { c.mark.wanted with gen := c.gen } ∧
      w.seq = c.mark.recordedSeq + 1 := by
  rw [Ctl.wantGeneration, if_neg (by rw [hf]; exact Bool.false_ne_true), Ctl.renewGeneration_idle hw,
    Ctl.want_begins hw hf hs fun h => hne (congrArg MarkVals.gen h.symm :)]
  exact ⟨_, by rw [Ctl.enter_mark], rfl, rfl⟩

/-- A write in progress stays one. -/
theorem renewGeneration_writes {w : MarkWrite} (hw : c.mark.write = some w) :
    ∃ w', c.renewGeneration = { c with mark := { c.mark with write := some w' } } := by
  unfold Ctl.renewGeneration Ctl.onMark
  split
  · exact ⟨w, by rw [← hw]⟩
  · simp only [hw, Option.map_some]
    exact ⟨_, rfl⟩

theorem wantGeneration_waits {w : MarkWrite} (hf : c.mark.frozenOwed = false) (hw : c.mark.write = some w) :
    c.wantGeneration.mark.wanted = { c.mark.wanted with gen := c.gen } ∧
      (c.markGranted = false → w.vals.gen ≠ c.mark.recorded.gen →
        c.wantGeneration.mark.write = some { w with vals := { w.vals with gen := c.gen } }) := by
  rw [Ctl.wantGeneration, if_neg (by rw [hf]; exact Bool.false_ne_true)]
  refine ⟨?_, fun hg hne => ?_⟩
  · obtain ⟨w', hw'⟩ := renewGeneration_writes hw
    rw [hw', Ctl.want_waits (c := { c with mark := { c.mark with write := some w' } }) rfl]
  · rw [Ctl.renewGeneration_waiting hw hg hne, Ctl.want_waits (c := { c with
      mark := { c.mark with write := some { w with vals := { w.vals with gen := c.gen } } } }) rfl]

end Generation

/-! ## The pin -/

theorem powerFail_noted {s : State} (h : s.ctl.station.warned = false) :
    exec .powerFailWarning s = .next { s with env := { s.env with pfwLow := true } } := by
  refine congrArg Host.Outcome.next (if_neg ?_)
  rw [h, Bool.and_false]
  exact Bool.false_ne_true

theorem powerFail_leaves {s : State} (hlow : s.env.rstLow = false) (h : s.ctl.station.warned = true) :
    exec .powerFailWarning s = .next
      { s with env := { s.env with pfwLow := true }, ctl := s.ctl.enterLeaving { s.env with pfwLow := true } } := by
  refine congrArg Host.Outcome.next (if_pos ?_)
  rw [hlow, h]
  rfl

/-- Settles O6: the warning by its parts, and the rejoin by what it makes of the mark log. -/
theorem powerFailWarningAndRejoin : Obligations.PowerFailWarningAndRejoin := by
  refine ⟨fun s hlow => ⟨fun hst => ?noted, fun hst => ?warned⟩, fun s hlow => ⟨fun hst => ?high, fun hst => ?rejoins⟩⟩
  case noted =>
    refine powerFail_noted (Bool.eq_false_iff.2 (mt (warned_iff _).1 ?_))
    obtain h | h | h := hst <;> rw [h] <;> decide
  case warned =>
    obtain ⟨k, hk⟩ : ∃ k : Env, k = { s.env with pfwLow := true } := ⟨_, rfl⟩
    have hopen : s.ctl.openPage s.env = s.ctl.openPage k := openPage_congr rfl rfl (by rw [hk])
    have hown (seq : Word) : s.ctl.ownEntry s.env seq = s.ctl.ownEntry k seq := by rw [hk]; rfl
    obtain ⟨hstation, hwindow, -, hpresence, hgen, hownMark, hnextSeq, hmark, hmount, hcompleted, hpeers, -, hpair, hscan, -⟩ :=
      still_eq (enterLeaving_still s.ctl k)
    refine ⟨s.ctl.enterLeaving k, ?_, hstation, hwindow, hmark, hpeers, hgen, hownMark, hnextSeq, hpair, hscan, hmount, hpresence,
      hcompleted, enterLeaving_units s.ctl k, fun a n h => enterLeaving_ends (.inl ⟨a, n, h⟩),
      fun m h => enterLeaving_ends (.inr ⟨m, h⟩), fun hquiet hopening hrelease => ?_, fun hr => ?_, ?_, ?_⟩
    · rw [hk]
      exact powerFail_leaves hlow ((warned_iff _).2 hst)
    · refine enterLeaving_port ((endPortForPower_spec s.ctl k).other (fun a n h => ?_) hopening hrelease) hquiet
      rw [h] at hquiet
      exact Bool.false_ne_true hquiet
    · simp only [hopen, hown] at hr
      obtain ⟨hfreed, hkept, hport⟩ := enterLeaving_inPlace hr
      refine ⟨hfreed, hkept, fun q ext h => hport.trans ((endPortForPower_spec s.ctl k).other ?_ ?_ ?_)⟩ <;>
        rw [h] <;> exact nofun
    · rw [hopen]
      intro v p ho hlt
      exact Ctl.formsExtent_congr (enterLeaving_forms ho hlt) rfl rfl rfl (by rw [hk]) rfl rfl rfl rfl rfl
    · rw [hopen]
      exact enterLeaving_et
  case high =>
    refine congrArg Host.Outcome.next (if_neg ?_)
    rw [decide_eq_false hst, Bool.and_false]
    exact Bool.false_ne_true
  case rejoins =>
    obtain ⟨r, hr⟩ : ∃ r, r = s.ctl.rejoined := ⟨_, rfl⟩
    obtain ⟨tx, jobs, hshape⟩ := rejoined_shape s.ctl
    rw [← hr] at hshape
    obtain ⟨m, p, us, hwant, hqueue⟩ := wantGeneration_shape (c := r) (by rw [hshape]; exact nofun)
    have hmark : (s.ctl.rejoin { s.env with pfwLow := false }).mark = r.wantGeneration.mark := by rw [rejoin_eq, ← hr]; rfl
    refine ⟨s.ctl.rejoin { s.env with pfwLow := false }, ?step, ?_, ?_, ?_, ?_, ?_, ?_, ?_, ?_, ?_, ?_, ?_, fun u => ?queue,
      ?owed, ?begins, ?waits⟩
    case step =>
      refine congrArg Host.Outcome.next (if_pos ?_)
      rw [hlow, decide_eq_true hst]
      rfl
    case queue =>
      have := hqueue u
      rw [rejoin_eq, ← hr, hwant]
      rw [hshape] at this
      exact this
    case owed =>
      intro hf
      rw [hmark, wantGeneration_owed (c := r) (by rw [hshape]; exact hf), hshape]
    case begins =>
      intro hf hw hs hne
      have hbegins := wantGeneration_begins (c := r)
      rw [hmark]
      rw [hshape] at hbegins ⊢
      exact hbegins hf hw hs hne
    case waits =>
      intro w hf hw
      have hwaits := wantGeneration_waits (c := r) (w := w)
      rw [hmark]
      rw [hshape] at hwaits ⊢
      exact hwaits hf hw
    all_goals
      rw [rejoin_eq, ← hr, hwant, hshape]
      rfl

end Sys2Proof.Machine
end
